-- ==== Sys2Proof/Word.lean ====
section
/-!
DEFINITION. Word.lean: the words of the EC9040 and the small closed vocabularies its encodings and its
records name: operand types, rounding modes, conditions, spaces, scopes, operands, references.
-/
namespace Sys2Proof

abbrev Word := BitVec 32
abbrev Byte := BitVec 8
abbrev Dword := BitVec 64
/-- A clause or instruction address: 57 bits (R26, R27). -/
abbrev Addr := BitVec 57

/-- Operand types, in the order of their TYPE codes (R215). -/
inductive Ty where
  | b32 | s32 | n32 | f32 | bf16x2 | f16x2 | s16 | n16 | s8 | n8 | s64 | n64
  deriving DecidableEq, Repr

/-- The types an I form can select with TSEL (R212). -/
inductive Tsel where
  | b32 | s32 | n32 | f32
  deriving DecidableEq, Repr

/-- Rounding codes of R80, the dynamic mode included. -/
inductive Rnd where
  | rn | rz | ru | rd | dyn
  deriving DecidableEq, Repr

/-- Comparison conditions, in the order of their codes (R218). -/
inductive Cond where
  | eq | ne | lt | le | gt | ge | num | nan | equ | neu | ltu | leu | gtu | geu
  deriving DecidableEq, Repr

/-- Sub-group widths, in the order of their codes (R219). -/
inductive SubW where
  | w32 | w2 | w4 | w8 | w16
  deriving DecidableEq, Repr

/-- Memory spaces, in the order of their codes (R94). -/
inductive Space where
  | g | sh | sc | sp | enc | metaV
  deriving DecidableEq, Repr

/-- Access widths of the M format, in the order of their codes (R219). -/
inductive MWidth where
  | n8 | n16 | b32 | b64 | b128 | s8 | s16
  deriving DecidableEq, Repr

/-- Scopes, in the order of their codes (R127). -/
inductive Scope where
  | grp | core | team | die | pkg | fab
  deriving DecidableEq, Repr

/-- The ORD field of the M format (R220): plain with a cache hint, or qualified at a scope. -/
inductive Ordf where
  | plain | stream | noalloc
  | qual (sc : Scope)
  deriving DecidableEq, Repr

/-- The ordering kind of a qualified atomic (R290). -/
inductive AKind where
  | acq | rel | ar
  deriving DecidableEq, Repr

/-- The operation of `atom` (R290). -/
inductive AOp where
  | add | and | or | xor | min | max | exch
  deriving DecidableEq, Repr

/-- The kind of a `fence` (R213, R294). -/
inductive FKind where
  | acq | rel | ar | sc
  deriving DecidableEq, Repr

/-- The modes of `shfl` (R265). -/
inductive ShflMode where
  | idx | up | down | xor
  deriving DecidableEq, Repr

/-- The modes of `vote` (R266). -/
inductive VoteMode where
  | any | all | ballot
  deriving DecidableEq, Repr

/-- The operations of `red` and `scan` (R269). -/
inductive RedOp where
  | add | and | or | xor | min | max | fadd | fmin | fmax
  deriving DecidableEq, Repr

/-- The formats that have no TYPE code (R258). -/
inductive Narrow where
  | e4m3 | e5m2 | e2m1 | e8m0 | bpi
  deriving DecidableEq, Repr

/-- The side of a conversion that TYPE does not give (R258): another typed source, a narrow source, or a
narrow destination. -/
inductive CvtCode where
  | src (t : Ty)
  | narrowSrc (n : Narrow)
  | narrowDst (n : Narrow)
  deriving DecidableEq, Repr

/-- What a 10-bit operand field names (R216). -/
inductive Opnd where
  | v (n : Nat)
  | s (n : Nat)
  | zero | lane | exec | tid | gid | role
  | teamX | teamY | teamZ | nteamX | nteamY | nteamZ
  | h (n : Nat)
  | none
  deriving DecidableEq, Repr

/-- Control registers, in the order of their numbers (R65). -/
inductive CReg where
  | fpc | fps | sts | cycle | vdid | priv | trappc | trapnext | trapmask | trapcause | trapdst
  | trapaddr | trapvec
  deriving DecidableEq, Repr

/-- The spaces of `hst` and `hld` (R304). -/
inductive HSpace where
  | g | sh | sc
  deriving DecidableEq, Repr

/-- The two program-counter slots of a group (R26). -/
inductive SlotId where
  | A | B
  deriving DecidableEq, Repr

/-- The other slot of the group. -/
def SlotId.partner : SlotId → SlotId
  | .A => .B
  | .B => .A

/-- A team of a virtual device, by its serial (R418). -/
structure TRef where
  vd : Nat
  serial : Nat
  deriving DecidableEq, Repr

/-- A group of a team, by its `%gid` (R20). -/
structure GRef where
  team : TRef
  gid : Nat
  deriving DecidableEq, Repr

/-- A handle value's parts (R164); the word itself is 64 bits and is packed by `Handle.pack`. -/
structure HRef where
  vd : Nat
  origin : Nat
  kind : Nat
  serial : Nat
  deriving DecidableEq, Repr

/-- The header of a command message (R342) less its CMD, which the step names. -/
structure CmdHdr where
  tag : Word
  plen : Word
  rsvHi : BitVec 24
  rsvLo : BitVec 26
  vd : BitVec 6
  deriving DecidableEq, Repr

/-- A role as a kernel declares it (R19). -/
structure RoleDecl where
  groups : Nat
  vregs : Nat
  sregs : Nat
  deriving DecidableEq, Repr

/-- A stage queue as a kernel declares it (R191, R229); `base` is the `.sh` offset of its storage. -/
structure QueueDecl where
  src : Nat
  dst : Nat
  depth : Nat
  entry : Nat
  base : Nat
  deriving DecidableEq, Repr

/-- One entry of a `.preempt` table (R201); `site` is relative to the code object's first byte. -/
structure PreemptEntry where
  site : Nat
  vlive : Word
  slive : BitVec 12
  acc : BitVec 2
  shoff0 : Nat
  shlen0 : Nat
  shoff1 : Nat
  shlen1 : Nat
  rsvZero : Bool
  deriving DecidableEq, Repr

/-- A kernel of a code object (R19, R229). `entry`, `codeAt` and `codeLen` are the byte offset of its entry clause and the
place of its code among the object's words. `usesArrays` says whether that code contains an instruction that R173 names;
the loader finds it out from the words. -/
structure KernelDecl where
  entry : Nat
  codeAt : Nat
  codeLen : Nat
  width : Nat
  cores : Nat
  shared : Nat
  /-- Bytes of its `.shared` ranges, which stand before the queues (R229). -/
  ranges : Nat
  roles : List RoleDecl
  queues : List QueueDecl
  sump : Nat
  local_ : Nat
  params : Nat
  data : List Byte
  idem : Bool
  preempt : List PreemptEntry
  usesArrays : Bool
  deriving DecidableEq, Repr

/-- A code object as the loader reads it from its bytes: its kernels and its words. The byte layout is not
given by the manual (R346 gives only the segments), so the step that delivers the last segment carries the
object that the bytes spell. -/
structure CodeObj where
  kernels : List KernelDecl
  words : List Dword
  deriving DecidableEq, Repr

/-- What a peer module asks of local memory (R118, R125, R147): a read, a write, or an atomic on 4 or 8 bytes. -/
inductive PeerOp where
  | load
  | store (bytes : List Byte)
  | atom (op : AOp) (t : Ty) (x : Dword)
  | cas (cmp new : Dword)
  deriving DecidableEq, Repr

/-- Storage errors that a die meets on a line (R391, R392): the beats that its link had to send again, each by its sector
and the times that the transfer failed; the sectors that the array's code corrected; single-bit corrections in the die's own
storage since it last counted; and the sectors of the line left uncorrectable. -/
structure StoreErrs where
  beats : List (Nat × Nat)
  fixed : List Nat
  soft : Nat
  bad : List Nat
  deriving DecidableEq, Repr

/-- A line of the memory side, by an address in it, and the storage errors met on it. -/
structure LineAt where
  va : Nat
  errs : StoreErrs
  deriving DecidableEq, Repr

/-- The address of a page walk, and a level of the tables whose entry proves uncorrectable (R391, R403). -/
structure WalkAt where
  va : Nat
  bad : Option Nat
  deriving DecidableEq, Repr

/-- What loses a team: the detail of its cause (R400); the sectors (offset / 32) of its shared memory or of its die's
scratchpad in which the error was found; and for register storage the lanes in which it was: core, sub-core and lane. -/
structure Loss where
  detail : Byte
  bad : List Nat
  lanes : List (Nat × Nat × Nat)
  deriving DecidableEq, Repr

/-- An access to an F = 1 page that has met no answer for 10 ms (R440): a read of some sectors of the line of an address, or
the write-back of its line. -/
inductive PeerMiss where
  | read (sectors : List Nat)
  | write
  deriving DecidableEq, Repr

/-- One reading of a core: its temperature in units of 0.125 degrees, and the single-bit errors that its register storage
has corrected since the last reading, each by sub-core and lane (R188, R362, R402). -/
structure Reading where
  temp : BitVec 12
  fixes : List (Nat × Nat)
  deriving DecidableEq, Repr

/-- A job that starts, and the sectors (offset / 32) of its die's scratchpad that prove uncorrectable as it reads them (R400). -/
structure JobAt where
  h : HRef
  bad : List Nat
  deriving DecidableEq, Repr

/-- A flit that has come in at a port of the Adit fabric (R340). -/
structure FlitAt where
  port : Nat
  flit : List Byte
  deriving DecidableEq, Repr

/-- A write that device firmware makes to a page-table entry (R103): the level of its table, its physical address and its
value. -/
structure PtEdit where
  level : Nat
  pa : Nat
  val : Dword
  deriving DecidableEq, Repr

end Sys2Proof
end

