-- ==== Sys2Proof/Config.lean ====
section
/-!
DEFINITION. Config.lean: the module's fixed figures (R10, R13) and the free values: what the manual leaves open, as
opaque constants that nothing can evaluate.
-/
namespace Sys2Proof.Config

/-- Cores of the module (R10). -/
def cores : Nat := 512
/-- Stacks, ports of a stack and banks (R13, R114). -/
def hbmStacks : Nat := 8
def hbmPorts : Nat := 16
def banks : Nat := 32
def rows : Nat := 2 ^ 16
/-- Adit ports (R16, R345). -/
def aditPorts : Nat := 16
/-- Bytes of main memory (R13, R99). -/
def memBytes : Nat := 2 ^ 39
/-- Team shared memory of a core (R13). -/
def sharedBytes : Nat := 262144
/-- Physical register storage of a sub-core (R13, R57). -/
def regBytes : Nat := 262144
/-- Group slots of a sub-core (R19). -/
def groupSlots : Nat := 16
/-- Scratchpad allocation units of 2 MiB on a die (R350). -/
def scratchUnits : Nat := 48
/-- Cycles of a microsecond (R13: the 1 GHz clock). -/
def cyclesPerUs : Nat := 1000
/-- Entries a grid queue holds (R184). -/
def gridQueue : Nat := 1024
/-- Jobs a bucket holds (R163) and passes a sequencer holds (R172). -/
def bucketJobs : Nat := 64
def sequencerPasses : Nat := 4
/-- Status words kept of each device, origin and kind (R165). -/
def statusesKept : Nat := 4096

/-! ### Free values -/

/-- Cycles that pass in the k-th step, less one. -/
opaque freeTicks : Nat → Nat
/-- A core's CYCLE less the model's common clock (R69, R357). -/
opaque coreSkew : Nat → Nat
/-- Whether an early read of a register returns the new value (R62), by draw, register and lane. -/
opaque freePick : Nat → Nat → Nat → Bool
/-- The distance of a special function's result from the exact one, in units in the last place (R92). -/
opaque freeUlp : Nat → Word → Nat
/-- Any other value left open, by draw and place. -/
opaque freeNat : Nat → Nat → Nat
/-- Byte `i` of the root of trust's signatures of a body (R354), and whether a signature verifies when it is made (R441). -/
opaque rsaSign : List Byte → Nat → Byte
opaque slhSign : List Byte → Nat → Byte
opaque signOk : Nat → Bool
/-- The module's serial number and certificate chain (R356). -/
opaque serialNumber : List Byte
opaque certChain : List Byte
/-- The refresh class of a row at boot, in ms (R117). -/
opaque bootClass : Nat → Nat

end Sys2Proof.Config
end

