-- ==== Sys2Proof/Syntax.lean ====
section
/-!
DEFINITION. Syntax.lean: the steps of the machine, one constructor per row of spec/opcode_table.json. The rows
with an encoding are the 64-bit instructions of the groups (R212 to R214) and the 32-bit instructions of the sluice
engines (R156); the other rows are steps that an engine, a scheduler, firmware, the outside world or the host makes.
-/
namespace Sys2Proof

inductive Instr where
  -- Scalar instructions (R249 to R251). `pr` is true for the 64-bit form, whose operands are pairs.
  /-- A word of zeros: issues and has no effect (R211). -/
  | nop
  /-- `s.add`. -/
  | sAdd (pr : Bool) (d a b : Opnd)
  /-- `s.add` with a literal. -/
  | sAddI (d a : Opnd) (imm : Word)
  /-- `s.sub`. -/
  | sSub (pr : Bool) (d a b : Opnd)
  /-- `s.sub` with a literal. -/
  | sSubI (d a : Opnd) (imm : Word)
  /-- `s.mul`. -/
  | sMul (pr : Bool) (d a b : Opnd)
  /-- `s.mul` with a literal. -/
  | sMulI (d a : Opnd) (imm : Word)
  /-- `s.mulh`. -/
  | sMulh (ty : Ty) (d a b : Opnd)
  /-- `s.mulh` with a literal. -/
  | sMulhI (ts : Tsel) (d a : Opnd) (imm : Word)
  /-- `s.mad`. -/
  | sMad (d a b c : Opnd)
  /-- `s.and`. -/
  | sAnd (pr : Bool) (d a b : Opnd)
  /-- `s.and` with a literal. -/
  | sAndI (d a : Opnd) (imm : Word)
  /-- `s.or`. -/
  | sOr (pr : Bool) (d a b : Opnd)
  /-- `s.or` with a literal. -/
  | sOrI (d a : Opnd) (imm : Word)
  /-- `s.xor`. -/
  | sXor (pr : Bool) (d a b : Opnd)
  /-- `s.xor` with a literal. -/
  | sXorI (d a : Opnd) (imm : Word)
  /-- `s.not`. -/
  | sNot (pr : Bool) (d a : Opnd)
  /-- `s.shl`; B is a single register (R238). -/
  | sShl (pr : Bool) (d a b : Opnd)
  /-- `s.shl` by a literal. -/
  | sShlI (d a : Opnd) (imm : Word)
  /-- `s.shr`; B is a single register (R238). -/
  | sShr (pr : Bool) (d a b : Opnd)
  /-- `s.shr` by a literal. -/
  | sShrI (d a : Opnd) (imm : Word)
  /-- `s.sar`; B is a single register (R238). -/
  | sSar (pr : Bool) (d a b : Opnd)
  /-- `s.sar` by a literal. -/
  | sSarI (d a : Opnd) (imm : Word)
  /-- `s.min`. -/
  | sMin (ty : Ty) (d a b : Opnd)
  /-- `s.min` with a literal. -/
  | sMinI (ts : Tsel) (d a : Opnd) (imm : Word)
  /-- `s.max`. -/
  | sMax (ty : Ty) (d a b : Opnd)
  /-- `s.max` with a literal. -/
  | sMaxI (ts : Tsel) (d a : Opnd) (imm : Word)
  /-- `s.cmp`. -/
  | sCmp (ty : Ty) (cc : Cond) (d a b : Opnd)
  /-- `s.sel`; C is a single register. -/
  | sSel (pr : Bool) (d a b c : Opnd)
  /-- `s.mov`. -/
  | sMov (pr : Bool) (d a : Opnd)
  /-- `s.movi` (R250). -/
  | sMovi (ts : Tsel) (d : Opnd) (imm : Word)
  /-- `s.bfe`. -/
  | sBfe (ty : Ty) (d a b : Opnd)
  /-- `s.bfi`. -/
  | sBfi (d a b c : Opnd)
  /-- `s.popc`. -/
  | sPopc (d a : Opnd)
  /-- `s.clz`. -/
  | sClz (d a : Opnd)
  /-- `s.ld` (R251). -/
  | sLd (spc : Space) (w : MWidth) (data base idx : Opnd) (imm : BitVec 16) (o : Ordf)
  /-- `s.st` (R251). -/
  | sSt (spc : Space) (w : MWidth) (data base idx : Opnd) (imm : BitVec 16) (o : Ordf)
  /-- `s.addc` (R240). -/
  | sAddc (co : Bool) (d a b c : Opnd)
  /-- `s.addc` with a literal. -/
  | sAddcI (d a : Opnd) (imm : Word)
  /-- `s.fadd`. -/
  | sFadd (m : Rnd) (d a b : Opnd)
  /-- `s.fadd` with a literal. -/
  | sFaddI (dyn : Bool) (d a : Opnd) (imm : Word)
  /-- `s.fmul`. -/
  | sFmul (m : Rnd) (d a b : Opnd)
  /-- `s.fmul` with a literal. -/
  | sFmulI (dyn : Bool) (d a : Opnd) (imm : Word)
  /-- `s.fma`. -/
  | sFma (m : Rnd) (d a b c : Opnd)
  /-- `s.cvt` (R258). -/
  | sCvt (ty : Ty) (m : Rnd) (cv : CvtCode) (d a : Opnd)
  /-- `s.getl` (R250). -/
  | sGetl (d a b : Opnd)
  -- Vector integer instructions (R237 to R248).
  /-- `add` (R237). -/
  | add (ty : Ty) (sat : Bool) (d a b : Opnd)
  /-- `add` with a literal. -/
  | addI (ts : Tsel) (d a : Opnd) (imm : Word)
  /-- `sub` (R237). -/
  | sub (ty : Ty) (sat : Bool) (d a b : Opnd)
  /-- `sub` with a literal. -/
  | subI (ts : Tsel) (d a : Opnd) (imm : Word)
  /-- `mul` (R237). -/
  | mul (ty : Ty) (d a b : Opnd)
  /-- `mul` with a literal. -/
  | mulI (ts : Tsel) (d a : Opnd) (imm : Word)
  /-- `mulh` (R237). -/
  | mulh (ty : Ty) (d a b : Opnd)
  /-- `mulh` with a literal. -/
  | mulhI (ts : Tsel) (d a : Opnd) (imm : Word)
  /-- `mad` (R237). -/
  | mad (ty : Ty) (d a b c : Opnd)
  /-- `and` (R237). -/
  | and (ty : Ty) (d a b : Opnd)
  /-- `and` with a literal. -/
  | andI (ts : Tsel) (d a : Opnd) (imm : Word)
  /-- `or` (R237). -/
  | or (ty : Ty) (d a b : Opnd)
  /-- `or` with a literal. -/
  | orI (ts : Tsel) (d a : Opnd) (imm : Word)
  /-- `xor` (R237). -/
  | xor (ty : Ty) (d a b : Opnd)
  /-- `xor` with a literal. -/
  | xorI (ts : Tsel) (d a : Opnd) (imm : Word)
  /-- `not` (R237). -/
  | not (ty : Ty) (d a : Opnd)
  /-- `shl` (R238). -/
  | shl (ty : Ty) (d a b : Opnd)
  /-- `shl` by a literal. -/
  | shlI (ts : Tsel) (d a : Opnd) (imm : Word)
  /-- `shr` (R238). -/
  | shr (ty : Ty) (d a b : Opnd)
  /-- `shr` by a literal. -/
  | shrI (ts : Tsel) (d a : Opnd) (imm : Word)
  /-- `sar` (R238). -/
  | sar (ty : Ty) (d a b : Opnd)
  /-- `sar` by a literal. -/
  | sarI (ts : Tsel) (d a : Opnd) (imm : Word)
  /-- `min` (R237). -/
  | min (ty : Ty) (d a b : Opnd)
  /-- `min` with a literal. -/
  | minI (ts : Tsel) (d a : Opnd) (imm : Word)
  /-- `max` (R237). -/
  | max (ty : Ty) (d a b : Opnd)
  /-- `max` with a literal. -/
  | maxI (ts : Tsel) (d a : Opnd) (imm : Word)
  /-- `abs` (R237). -/
  | abs (ty : Ty) (d a : Opnd)
  /-- `bfe` (R239). -/
  | bfe (ty : Ty) (d a b : Opnd)
  /-- `bfi` (R239). -/
  | bfi (d a b c : Opnd)
  /-- `popc` (R237). -/
  | popc (d a : Opnd)
  /-- `clz` (R237). -/
  | clz (d a : Opnd)
  /-- `cmp` (R243). -/
  | cmp (ty : Ty) (cc : Cond) (d a b : Opnd)
  /-- `sel` (R244). -/
  | sel (ty : Ty) (d a b c : Opnd)
  /-- `mov` (R245). -/
  | mov (ty : Ty) (d a : Opnd)
  /-- `mov` of a literal (R245). -/
  | movI (ts : Tsel) (d : Opnd) (imm : Word)
  /-- `movx` (R246). -/
  | movx (a b : Opnd)
  /-- `putl` (R247). -/
  | putl (d a b : Opnd)
  /-- `shape` (R248). -/
  | shape (d a : Opnd)
  /-- `addc` (R240). -/
  | addc (ty : Ty) (co : Bool) (d a b c : Opnd)
  /-- `addc` with a literal. -/
  | addcI (ts : Tsel) (d a : Opnd) (imm : Word)
  /-- `lsel` (R241). -/
  | lsel (hi lo : BitVec 4) (d a b c : Opnd)
  /-- `prmt` (R242). -/
  | prmt (d a b c : Opnd)
  -- Floating point (R252 to R261).
  /-- `fadd` (R253). -/
  | fadd (ty : Ty) (m : Rnd) (d a b : Opnd)
  /-- `fadd` with a literal. -/
  | faddI (dyn : Bool) (d a : Opnd) (imm : Word)
  /-- `fsub` (R253). -/
  | fsub (ty : Ty) (m : Rnd) (d a b : Opnd)
  /-- `fsub` with a literal. -/
  | fsubI (dyn : Bool) (d a : Opnd) (imm : Word)
  /-- `fmul` (R253). -/
  | fmul (ty : Ty) (m : Rnd) (d a b : Opnd)
  /-- `fmul` with a literal. -/
  | fmulI (dyn : Bool) (d a : Opnd) (imm : Word)
  /-- `fma` (R253). -/
  | fma (ty : Ty) (m : Rnd) (d a b c : Opnd)
  /-- `fmin` (R254). -/
  | fmin (ty : Ty) (d a b : Opnd)
  /-- `fmin` with a literal; its M bit has no meaning (R212). -/
  | fminI (dyn : Bool) (d a : Opnd) (imm : Word)
  /-- `fmax` (R254). -/
  | fmax (ty : Ty) (d a b : Opnd)
  /-- `fmax` with a literal; its M bit has no meaning (R212). -/
  | fmaxI (dyn : Bool) (d a : Opnd) (imm : Word)
  /-- `fcmp` (R255). -/
  | fcmp (ty : Ty) (cc : Cond) (d a b : Opnd)
  /-- `frcp.seed` (R91). -/
  | frcpSeed (d a : Opnd)
  /-- `frsq.seed` (R91). -/
  | frsqSeed (d a : Opnd)
  /-- `fsqrt` (R257). -/
  | fsqrt (m : Rnd) (d a : Opnd)
  /-- `fexp2` (R92). -/
  | fexp2 (d a : Opnd)
  /-- `flog2` (R92). -/
  | flog2 (d a : Opnd)
  /-- `fsin` (R92). -/
  | fsin (d a : Opnd)
  /-- `fcos` (R92). -/
  | fcos (d a : Opnd)
  /-- `frnd` (R257). -/
  | frnd (ty : Ty) (m : Rnd) (d a : Opnd)
  /-- `fclass` (R257). -/
  | fclass (d a : Opnd)
  /-- `fscale` (R93). -/
  | fscale (m : Rnd) (d a b : Opnd)
  /-- `fexpo` (R93). -/
  | fexpo (d a : Opnd)
  /-- `cvt` (R258). -/
  | cvt (ty : Ty) (m : Rnd) (cv : CvtCode) (d a b : Opnd)
  /-- `bpack` (R260). -/
  | bpack (d a : Opnd)
  /-- `bunpack` (R261); `n` is the code in MOD[6:3], 0 for 8 planes. -/
  | bunpack (n : Nat) (d a : Opnd)
  /-- `fdot2` (R256). -/
  | fdot2 (m : Rnd) (f16 : Bool) (d a b c : Opnd)
  -- Cross-lane instructions (R262 to R270).
  /-- `shfl` (R265). -/
  | shfl (md : ShflMode) (w : SubW) (wide : Bool) (d a b c : Opnd)
  /-- `vote` (R266). -/
  | vote (md : VoteMode) (w : SubW) (d a c : Opnd)
  /-- `red` (R269). -/
  | red (op : RedOp) (w : SubW) (ty : Ty) (d a c : Opnd)
  /-- `scan` (R269). -/
  | scan (op : RedOp) (excl : Bool) (w : SubW) (ty : Ty) (d a c : Opnd)
  /-- `match` (R267). -/
  | matchOp (w : SubW) (wide : Bool) (d a c : Opnd)
  /-- `sift` (R270). -/
  | sift (home : Bool) (a : Opnd) (n : Nat)
  /-- `cmpct` (R268). -/
  | cmpct (w : SubW) (d a b c : Opnd)
  -- Masks, branches, barriers, launch and queues (R271 to R284).
  /-- `exec.get` (R271). -/
  | execGet (d : Opnd)
  /-- `exec.set` (R271). -/
  | execSet (a : Opnd)
  /-- `exec.and` (R271). -/
  | execAnd (a : Opnd)
  /-- `exec.andn` (R271). -/
  | execAndn (a : Opnd)
  /-- `m.and` (R272). -/
  | mAnd (d a b : Opnd)
  /-- `m.or` (R272). -/
  | mOr (d a b : Opnd)
  /-- `m.xor` (R272). -/
  | mXor (d a b : Opnd)
  /-- `m.not` (R272). -/
  | mNot (d a : Opnd)
  /-- `m.ffs` (R272). -/
  | mFfs (d a : Opnd)
  /-- `br` (R274). -/
  | br (off : Word)
  /-- `bz` (R274). -/
  | bz (c : Opnd) (off : Word)
  /-- `bnz` (R274). -/
  | bnz (c : Opnd) (off : Word)
  /-- `bexz` (R274). -/
  | bexz (c : Opnd) (off : Word)
  /-- `brs` (R274). -/
  | brs (c : Opnd) (off : Word)
  /-- `brs.sift` (R274). -/
  | brsSift (c : Opnd) (off : Word)
  /-- `join` (R29). -/
  | join
  /-- `call` (R275). -/
  | call (l : Opnd) (off : Word)
  /-- `ret` (R275). -/
  | ret (l : Opnd)
  /-- `exit` (R276). -/
  | exit
  /-- `bar.arr` (R278). -/
  | barArr (n : BitVec 4)
  /-- `bar.wait` (R278). -/
  | barWait (n : BitVec 4)
  /-- `bar.sync` (R278). -/
  | barSync (n : BitVec 4)
  /-- `yield` (R279). -/
  | yield
  /-- `launch` (R282). -/
  | launch (d a : Opnd)
  /-- `q.put` (R281). -/
  | qPut (q : BitVec 3) (a : Opnd)
  /-- `q.get` (R281). -/
  | qGet (q : BitVec 3) (d : Opnd)
  -- Memory family (R285 to R303).
  /-- `ld` (R287). -/
  | ld (spc : Space) (w : MWidth) (data base idx : Opnd) (imm : BitVec 16) (o : Ordf)
  /-- `st` (R288). -/
  | st (spc : Space) (w : MWidth) (data base idx : Opnd) (imm : BitVec 16) (o : Ordf)
  /-- `atom` (R291). -/
  | atom (spc : Space) (wide : Bool) (op : AOp) (sgn : Bool) (data base idx : Opnd) (k : AKind) (o : Ordf)
  /-- `atom.cas` (R292). -/
  | atomCas (spc : Space) (wide : Bool) (data base idx : Opnd) (k : AKind) (o : Ordf)
  /-- `fence` (R294). -/
  | fence (k : FKind) (sc : Scope)
  /-- `wb` (R296). -/
  | wb (len base : Opnd) (imm : BitVec 16)
  /-- `inv` (R296). -/
  | inv (len base : Opnd) (imm : BitVec 16)
  /-- `gauge.set` (R297). -/
  | gaugeSet (spc : Space) (t base idx : Opnd) (imm : BitVec 16)
  /-- `gauge.set.off` (R297). -/
  | gaugeSetOff (spc : Space) (base idx : Opnd) (imm : BitVec 16)
  /-- `gauge.wait` (R299). -/
  | gaugeWait (spc : Space) (w base idx : Opnd) (imm : BitVec 16)
  /-- `gauge.add` (R298). -/
  | gaugeAdd (spc : Space) (n base idx : Opnd) (imm : BitVec 16)
  /-- `cl.join` (R300). -/
  | clJoin (d k : Opnd)
  /-- `cl.leave` (R109). -/
  | clLeave
  /-- `push` (R302). -/
  | push (a : Opnd) (nm1 : BitVec 4)
  /-- `pop` (R303). -/
  | pop (d : Opnd) (nm1 : BitVec 4)
  /-- `pfetch` (R295). -/
  | pfetch (base idx : Opnd) (imm : BitVec 16) (o : Ordf)
  -- Engine, matrix and assay instructions (R304 to R314).
  /-- `cpy` (R305). -/
  | cpy (d a : Opnd)
  /-- `cpym` (R305). -/
  | cpym (d a : Opnd)
  /-- `fill` (R305). -/
  | fill (d a : Opnd)
  /-- `rowcpy` (R305). -/
  | rowcpy (d a : Opnd)
  /-- `htest` (R306). -/
  | htest (d a : Opnd)
  /-- `hcancel` (R307). -/
  | hcancel (a : Opnd)
  /-- `hst` (R308). -/
  | hst (spc : HSpace) (a b : Opnd)
  /-- `hld` (R308). -/
  | hld (spc : HSpace) (d a : Opnd)
  /-- `mma` (R309). -/
  | mma (a : Opnd)
  /-- `mma.g` (R309). -/
  | mmaG (a : Opnd)
  /-- `mzero` (R310); `t` selects c1. -/
  | mzero (t : Bool)
  /-- `mstore` (R312). -/
  | mstore (stamp t : Bool) (d a : Opnd) (slot : Byte)
  /-- `mrd` (R311). -/
  | mrd (t : Bool) (d a : Opnd)
  /-- `assay.set` (R313). -/
  | assaySet (a : Opnd) (slot : Byte)
  /-- `assay.get` (R313). -/
  | assayGet (d : Opnd) (slot : Byte)
  /-- `assay.inv` (R313). -/
  | assayInv (slot : Byte)
  -- System instructions (R315 to R327).
  /-- `trap` (R317). -/
  | trap (n : Byte)
  /-- `rti` (R318). -/
  | rti
  /-- `ctl.rd` (R319). -/
  | ctlRd (d : Opnd) (r : CReg)
  /-- `ctl.wr` (R320). -/
  | ctlWr (r : CReg) (a : Opnd)
  /-- `meter.rd` (R322). -/
  | meterRd (d : Opnd) (n : Nat)
  /-- `sl.bind` (R323). -/
  | slBind (d a : Opnd)
  /-- `sl.unbind` (R324). -/
  | slUnbind (d : Opnd) (n : BitVec 4)
  /-- `sl.stat` (R325). -/
  | slStat (d : Opnd) (n : BitVec 4)
  /-- `stamp` (R326). -/
  | stamp (a : Opnd)
  /-- `stamp.sync` (R326). -/
  | stampSync (a : Opnd)
  -- Debug instructions (R422 to R428).
  /-- `wp.set` (R423). -/
  | wpSet (d : Opnd) (n : BitVec 4) (a b : Opnd)
  /-- `wp.clr` (R423). -/
  | wpClr (d : Opnd) (n : BitVec 4) (b : Opnd)
  /-- `wp.rd` (R423). -/
  | wpRd (d : Opnd) (n : BitVec 4) (b : Opnd)
  /-- `dbg.halt` (R424). -/
  | dbgHalt (b : Opnd)
  /-- `dbg.run` (R424). -/
  | dbgRun (b : Opnd)
  /-- `dbg.run.unpark` (R424). -/
  | dbgRunUnpark (b : Opnd)
  /-- `dbg.step.path` (R425). -/
  | dbgStep (b c : Opnd)
  /-- `dbg.step.lane` (R425). -/
  | dbgStepLane (b c : Opnd)
  /-- `dbg.rd` (R426). -/
  | dbgRd (d a b c : Opnd)
  /-- `dbg.wr` (R426). -/
  | dbgWr (d a b c : Opnd)
  /-- `dbg.list` (R427). -/
  | dbgList (d a c : Opnd)
  /-- `brk` (R428). -/
  | brk
  -- Sluice instructions (R156): registers k0 to k15 are named by 4-bit fields.
  /-- `end`. -/
  | sluiceEnd
  /-- `fail`. -/
  | sluiceFail
  /-- `get`. -/
  | sluiceGet (d : BitVec 4)
  /-- `peek`. -/
  | sluicePeek (d : BitVec 4) (n : BitVec 15)
  /-- `getw`. -/
  | sluiceGetw (d : BitVec 4)
  /-- `put`. -/
  | sluicePut (a : BitVec 4)
  /-- `putw`. -/
  | sluicePutw (a : BitVec 4)
  /-- `putn`. -/
  | sluicePutn (a b : BitVec 4)
  /-- `copy`. -/
  | sluiceCopy (b : BitVec 4)
  /-- `copy.back`. -/
  | sluiceCopyBack (a b : BitVec 4)
  /-- `movi`. -/
  | sluiceMovi (d : BitVec 4) (n : BitVec 15)
  /-- `mov`. -/
  | sluiceMov (d a : BitVec 4)
  /-- `add`. -/
  | sluiceAdd (d a b : BitVec 4)
  /-- `add` with an immediate. -/
  | sluiceAddImm (d a : BitVec 4) (imm : BitVec 14)
  /-- `sub`. -/
  | sluiceSub (d a b : BitVec 4)
  /-- `sub` with an immediate. -/
  | sluiceSubImm (d a : BitVec 4) (imm : BitVec 14)
  /-- `and`. -/
  | sluiceAnd (d a b : BitVec 4)
  /-- `and` with an immediate. -/
  | sluiceAndImm (d a : BitVec 4) (imm : BitVec 14)
  /-- `or`. -/
  | sluiceOr (d a b : BitVec 4)
  /-- `or` with an immediate. -/
  | sluiceOrImm (d a : BitVec 4) (imm : BitVec 14)
  /-- `xor`. -/
  | sluiceXor (d a b : BitVec 4)
  /-- `xor` with an immediate. -/
  | sluiceXorImm (d a : BitVec 4) (imm : BitVec 14)
  /-- `shl`. -/
  | sluiceShl (d a b : BitVec 4)
  /-- `shl` with an immediate. -/
  | sluiceShlImm (d a : BitVec 4) (imm : BitVec 14)
  /-- `shr`. -/
  | sluiceShr (d a b : BitVec 4)
  /-- `shr` with an immediate. -/
  | sluiceShrImm (d a : BitVec 4) (imm : BitVec 14)
  /-- `beq`. -/
  | sluiceBeq (a b : BitVec 4) (o : BitVec 15)
  /-- `bne`. -/
  | sluiceBne (a b : BitVec 4) (o : BitVec 15)
  /-- `blt`. -/
  | sluiceBlt (a b : BitVec 4) (o : BitVec 15)
  /-- `beof`. -/
  | sluiceBeof (o : BitVec 15)
  /-- `jmp`. -/
  | sluiceJmp (o : BitVec 15)
  /-- `loop`. -/
  | sluiceLoop (d : BitVec 4) (o : BitVec 15)
  /-- `tbl`. -/
  | sluiceTbl (d a : BitVec 4)
  /-- The engine stops a run whose next step would exceed its budget (R158). -/
  | sluiceStepBudget
  -- Steps of the groups and their issue ports.
  /-- A free port takes the clause at which the slot in focus stands and decodes its header (R193, R211). -/
  | clauseIssue
  /-- The instruction that the slot in focus waits at can proceed; its clause takes a port again (R195). -/
  | clauseResume
  /-- In-flight instruction k of the group in focus reaches its completion point (R207). -/
  | flagClear (k : Nat)
  /-- The slot in focus, waiting at a `join`, applies the steps of R29 again. -/
  | joinResume
  /-- The sift at which every participant of the focus waits takes effect (R37 to R43). -/
  | siftCommit
  /-- The oldest queued store of the group in focus becomes visible (R126). -/
  | storeVisible
  /-- A page walker reads the table levels for an address (R101, R403). -/
  | pageWalk (vd : Nat) (w : WalkAt)
  /-- The group in focus, drained, enters its user handler (R366). -/
  | trapEntry
  /-- The cause of the group in focus is delivered to device firmware (R369). -/
  | supervisorEntry
  -- Steps of storage, headframe, schedulers and hoist.
  /-- An uncorrectable storage error loses a team with cause 0x600 (R400). -/
  | teamLost (t : TRef) (l : Loss)
  /-- The headframe places one team of the device (R186 to R190). -/
  | teamPlacement (vd : Nat)
  /-- A team whose groups have exited and whose jobs have resolved ends (R25). -/
  | teamEnd (t : TRef)
  /-- The earliest unplaced team has waited 4 ms and holds up its device (R186). -/
  | placementStarvation (vd : Nat)
  /-- One reading of a core (R188, R362, R402). -/
  | temperatureReading (core : Nat) (x : Reading)
  /-- One voltage-droop event of a core (R188). -/
  | droopEvent (core : Nat)
  /-- Management reports a cold-plate fault (R442). -/
  | coldPlateFault
  /-- A 10 ms window of a time-allowance partition begins (R198). -/
  | accountingWindow (part : Nat)
  /-- A 1 ms boundary of a time-allowance partition (R198). -/
  | millisecondBoundary (part : Nat)
  /-- The usage of a device reaches its cap (R198). -/
  | capReached (vd : Nat)
  /-- A reservation period begins (R199). -/
  | periodStart (vd : Nat)
  /-- A reservation budget reaches zero (R199). -/
  | budgetExhausted (vd : Nat)
  /-- A pre-emption request names a team (R200). -/
  | preemptionRequest (t : TRef)
  /-- Every non-exited group of the team has stopped at a barrier (R200). -/
  | barrierStop (t : TRef)
  /-- The grace period has ended: the team stops at instruction boundaries (R202). -/
  | forcedStop (t : TRef)
  /-- The hoist saves a stopped team and frees its cores (R177). -/
  | teamSave (t : TRef)
  /-- The hoist restores a saved team on cores that fit it (R177, R178, R203). -/
  | teamRestore (t : TRef)
  -- Steps of the copy engines, the matrix sequencers and the stamp buffer.
  /-- A job without unfinished predecessors starts (R135). -/
  | jobStart (j : JobAt)
  /-- A job finishes and its handle resolves (R136). -/
  | jobFinish (h : HRef)
  /-- A cancelled running job stops after `bytes` bytes of transfer (R307). -/
  | jobCancelStop (h : HRef) (bytes : Nat)
  /-- A job adds n landed bytes to its gauge (R112, R163). -/
  | gaugeArrival (h : HRef) (n : Word)
  /-- The bucket sends the matrix command of a `cpym` (R166). -/
  | followOnSend (h : HRef)
  /-- Pass k queued at a core of the team starts (R171, R172). -/
  | passStart (t : TRef) (core : Nat) (k : Nat)
  /-- One step of a started pass is applied whole (R169, R172). -/
  | passStep (t : TRef) (core : Nat) (k : Nat)
  /-- A pass whose steps are done retires (R171). -/
  | passRetire (t : TRef) (core : Nat) (k : Nat)
  /-- The lowest-numbered core of a team writes the team's record as its CYCLE reaches boundary n of 2^20 cycles (R361). -/
  | periodicSample (vd serial core n : Nat)
  -- Steps of the memory side.
  /-- A block is filled into the memory-side cache (R147). -/
  | cacheFill (vd : Nat) (l : LineAt)
  /-- A line leaves the memory-side cache (R121, R147). -/
  | cacheEviction (vd : Nat) (l : LineAt)
  /-- A block being written back is encoded, verified and stored (R150). -/
  | sluiceEncode (vd : Nat) (pa : Nat)
  /-- A fetched block is checked and decoded at the port (R147, R396). -/
  | sluiceDecode (vd : Nat) (pa : Nat)
  /-- The transcode job visits its next block (R152). -/
  | transcodeBlock (vd slot : Nat)
  /-- The transcode job has visited every block (R152). -/
  | transcodeEnd (vd slot : Nat)
  /-- The unbind job rewrites its next block in plain form (R154). -/
  | unbindBlock (vd slot : Nat)
  /-- The unbind job finishes and frees its slot (R154). -/
  | unbindEnd (vd slot : Nat)
  /-- The base die refreshes a row (R116). -/
  | refresh (stack bank row : Nat)
  /-- A request that meets a refreshing bank is retried (R116). -/
  | refreshRetry (stack bank : Nat)
  /-- Scrub reads a row: the sectors (byte address / 32) it corrects and those it cannot (R399). -/
  | scrubRow (stack bank row : Nat) (corrected uncorrectable : List Nat)
  /-- The array initialises a marked span of 32 KiB in the background (R104, R351). -/
  | spanInitialise (span : Nat)
  /-- Firmware completes a change of page tables (R103). -/
  | translationShootdown (vd : Nat) (edits : List PtEdit)
  /-- A peer module's access over the fabric (R125, R147, R443). -/
  | peerAccess (pa : Nat) (len : Nat) (op : PeerOp)
  /-- An access to an F = 1 page has been unreachable for 10 ms (R440). -/
  | peerUnreachable (vd : Nat) (va : Nat) (how : PeerMiss)
  /-- A flit with a bad CRC is discarded and replayed (R340). -/
  | flitReplay (f : FlitAt)
  /-- A port retrains after 8 failed replays (R440). -/
  | portRetrain (port : Nat)
  /-- A die-to-die flit fails 8 replays and the module fails (R440). -/
  | dieLinkFailure
  /-- The input of one tensor of a load has arrived (R181, R352). -/
  | intakePacket (h : HRef) (tensor : Nat) (data rscale cscale : List Byte)
  /-- A finished load commits its generation (R183). -/
  | intakeCommit (h : HRef)
  /-- Firmware withdraws a core with a failing lane (R402). -/
  | coreWithdrawal (core sub lane : Nat)
  /-- LSTEER substitutes the spare lane (R64, R402). -/
  | laneSteering (core sub lane : Nat)
  -- Steps of debugging, firmware, the root of trust and module reset.
  /-- The other groups of a halting team stop (R416). -/
  | teamHalt (t : TRef)
  /-- A stepped team is saved again after 10 ms without a step (R425). -/
  | stepIdleTimeout (t : TRef)
  /-- A background retranslation becomes the current version (R46, R47). -/
  | profileRetranslation (vd kernel : Nat) (obj : CodeObj)
  /-- One millisecond of the root of trust passes (R353). -/
  | meterTick
  /-- Reset runs the boot ROM over the firmware stages and the configuration blob, and the headframe takes its first readings (R355, R442, R188). -/
  | moduleReset (stages : List (List Byte)) (blob : List Byte) (ok : Bool) (temps : List (BitVec 12))
  -- Host commands (R341 to R352).
  /-- A command from an endpoint that is not the host is discarded (R341). -/
  | nonHostMessage (endpoint : Nat) (cmd : Byte)
  /-- Command 1 (R350, R351). -/
  | createDevice (m : CmdHdr) (p : List Byte)
  /-- Command 2 (R351, R443). -/
  | destroyDevice (m : CmdHdr) (p : List Byte)
  /-- Command 3 (R346): one segment, and the object that a last segment completes. -/
  | loadCode (m : CmdHdr) (p : List Byte) (obj : CodeObj)
  /-- Command 4 (R343). -/
  | hostLaunch (m : CmdHdr) (p : List Byte)
  /-- Command 5 (R347). -/
  | loadWeights (m : CmdHdr) (p : List Byte)
  /-- Command 6 (R354). -/
  | readUsage (m : CmdHdr) (p : List Byte)
  /-- Command 7 (R356). -/
  | attest (m : CmdHdr) (p : List Byte)
  /-- Command 8 (R352). -/
  | openIntakeConnection (m : CmdHdr) (p : List Byte)
  /-- Command 9 (R348). -/
  | changeShare (m : CmdHdr) (p : List Byte)
  /-- A command with an unassigned code (R343). -/
  | unknownCommand (m : CmdHdr) (cmd : Byte)
  /-- The retraining of a port ends (R440). -/
  | portRetrainingEnd (port : Nat) (ok : Bool)
  deriving DecidableEq, Repr

end Sys2Proof
end

