-- ==== Sys2Proof/WellFormed.lean ====
section
/-!
DEFINITION. WellFormed.lean: which operands, types and numbers an instruction may name (R49, R215 to R220 and the
entries of each family), for a role with given register budgets and a kernel with given queues.
-/
namespace Sys2Proof

/-- What decoding checks a word against: the role's vector and scalar budgets (R49) and, for each queue of the
kernel, the number of registers of one entry (R281). -/
structure Budget where
  v : Nat
  s : Nat
  queues : List Nat
  deriving DecidableEq, Repr

/-- The largest budgets a role may declare (R19), with eight queues of one-register entries. -/
def Budget.full : Budget := { v := 512, s := 192, queues := [1, 1, 1, 1, 1, 1, 1, 1] }

/-- What an operand field accepts: kinds of operand, and for registers the length and alignment of the run that
begins there. `spec` stands for the specials other than `%zero`. -/
structure Slot where
  vec : Bool
  sca : Bool
  zero : Bool
  spec : Bool
  hnd : Bool
  non : Bool
  run : Nat
  align : Nat
  deriving DecidableEq, Repr

/-- The operand field accepts `o` under the budget (R217). -/
def Slot.ok (b : Budget) (k : Slot) : Opnd → Bool
  | .v n => k.vec && n % k.align == 0 && decide (n + k.run ≤ b.v) && decide (n < 512)
  | .s n => k.sca && n % k.align == 0 && decide (n + k.run ≤ b.s) && decide (n < 192)
  | .zero => k.zero
  | .h n => k.hnd && decide (n < 16)
  | .none => k.non
  | _ => k.spec

/-- A vector destination, or source that must be a vector register, of `r` registers. -/
def Slot.vec' (r : Nat) : Slot := ⟨true, false, false, false, false, false, r, r⟩
/-- A scalar register, of `r` registers. -/
def Slot.sca' (r : Nat) : Slot := ⟨false, true, false, false, false, false, r, r⟩
/-- A vector or scalar register, of `r` registers. -/
def Slot.reg (r : Nat) : Slot := ⟨true, true, false, false, false, false, r, r⟩
/-- Any source of R231, of `r` registers where it is a register. -/
def Slot.src (r : Nat) : Slot := ⟨true, true, true, true, false, false, r, r⟩
/-- Any source, of `r` registers where it is a register, or none. -/
def Slot.optRun (r : Nat) : Slot := ⟨true, true, true, true, false, true, r, r⟩
def Slot.opt : Slot := .optRun 1
/-- A scalar source of the memory family (R285). -/
def Slot.msrc : Slot := ⟨true, true, true, false, false, false, 1, 1⟩
/-- A base of the memory family (R285), or none, which reads as 0 (R213). -/
def Slot.base (r : Nat) : Slot := ⟨true, true, false, false, false, true, r, r⟩
/-- The index of `s.ld` and `s.st` (R251): a vector register stands in a scalar slot at decode (R53, R217). -/
def Slot.sidx : Slot := ⟨true, true, false, false, false, true, 1, 1⟩
/-- A handle register. -/
def Slot.hnd' : Slot := ⟨false, false, false, false, true, false, 1, 1⟩
/-- A field that must hold none. -/
def Slot.unused : Slot := ⟨false, false, false, false, false, true, 1, 1⟩
/-- A reference to a team: an even scalar register, or none (R422); an even vector register is read under R53. -/
def Slot.ref : Slot := ⟨true, true, false, false, false, true, 2, 2⟩
/-- A run of `r` scalar registers whose first is a multiple of `a`. -/
def Slot.srun (r a : Nat) : Slot := ⟨false, true, false, false, false, false, r, a⟩
/-- A run of `r` registers of one file. -/
def Slot.frun (r : Nat) : Slot := ⟨true, true, false, false, false, false, r, 1⟩

/-- Registers that a value of the type takes (R49). -/
def Ty.regs : Ty → Nat
  | .s64 | .n64 => 2
  | _ => 1

def prRegs (pr : Bool) : Nat := if pr then 2 else 1

/-- Registers that an access width takes (R219). -/
def MWidth.regs : MWidth → Nat
  | .b64 => 2
  | .b128 => 4
  | _ => 1

/-- Registers of a base in the space: a pair in the 57-bit spaces that take one (R213, R285). -/
def Space.baseRegs : Space → Nat
  | .g | .enc | .metaV => 2
  | _ => 1

def HSpace.baseRegs : HSpace → Nat
  | .g => 2
  | _ => 1

def Ty.packed : Ty → Bool
  | .bf16x2 | .f16x2 => true
  | _ => false

def Ty.floating : Ty → Bool
  | .f32 | .bf16x2 | .f16x2 => true
  | _ => false

/-- Condition codes 6 to 13 belong to the floating types (R218). -/
def Cond.okFor (c : Cond) (t : Ty) : Bool :=
  match c with
  | .eq | .ne | .lt | .le | .gt | .ge => true
  | _ => t.floating

def Tsel.ty : Tsel → Ty
  | .b32 => .b32
  | .s32 => .s32
  | .n32 => .n32
  | .f32 => .f32

def CReg.regs : CReg → Nat
  | .cycle | .trappc | .trapnext | .trapaddr | .trapvec => 2
  | _ => 1

/-- Types of `add`, `sub` and `mul` (R237). -/
def addTypes : List Ty := [.b32, .s32, .n32, .s8, .n8, .s16, .n16, .s64, .n64]
/-- Types on which `.sat` is accepted (R237). -/
def satTypes : List Ty := [.s8, .n8, .s16, .n16]
/-- Types of the bitwise operations and shifts (R237, R238). -/
def bitTypes : List Ty := [.b32, .s32, .n32, .s64, .n64]
/-- Types of `min` and `max` (R237). -/
def minTypes : List Ty := [.s32, .n32, .s8, .n8, .s16, .n16, .s64, .n64]
/-- Types of the packed floating-point instructions (R252). -/
def floatTypes : List Ty := [.f32, .bf16x2, .f16x2]
/-- Types of `s.min` and `s.max` (R249). -/
def sMinTypes : List Ty := [.s32, .n32, .s64, .n64]
/-- Types of either side of `s.cvt` (R249). -/
def sCvtTypes : List Ty := [.s32, .n32, .f32, .s64, .n64]
/-- Types of `red` and `scan` by operation (R269). -/
def RedOp.types : RedOp → List Ty
  | .add => [.b32, .s32, .n32]
  | .and | .or | .xor => [.b32]
  | .min | .max => [.s32, .n32]
  | .fadd | .fmin | .fmax => [.f32]

/-- Registers of the destination and of the source of a conversion (R258). -/
def cvtDstRegs (ty : Ty) : CvtCode → Nat
  | .narrowDst _ => 1
  | _ => ty.regs

def cvtSrcRegs (ty : Ty) : CvtCode → Nat
  | .src t => t.regs
  | .narrowSrc _ => 1
  | .narrowDst _ => ty.regs

/-- The conversion codes that TYPE admits (R258). -/
def CvtCode.okFor (ty : Ty) : CvtCode → Bool
  | .src t => t != .b32 && t != ty && ty != .b32
  | _ => ty != .b32

/-- Codes that `s.cvt` admits (R249). -/
def CvtCode.scalar : CvtCode → Bool
  | .src t => sCvtTypes.contains t
  | _ => true

/-- The destination of the conversion is a packed type, so that B gives its element 1 (R258). -/
def CvtCode.packedDst (ty : Ty) : CvtCode → Bool
  | .narrowDst _ => false
  | _ => ty.packed

/-- Plane counts of `bunpack` (R261). -/
def planeCodes : List Nat := [0, 2, 3, 4, 5, 6, 7, 8]

/-- ORD values of loads, stores and atomics are all those of `Ordf`; `pfetch` takes the plain ones (R285). -/
def Ordf.unqualified : Ordf → Bool
  | .qual _ => false
  | _ => true

/-- An unqualified atomic has KIND 0 (R290). -/
def AKind.okFor (k : AKind) (o : Ordf) : Bool := !o.unqualified || k == .acq

/-- Loads of `.meta` have width `.n16` (R285). -/
def ldOk (spc : Space) (w : MWidth) : Bool := spc != .metaV || w == .n16
/-- Spaces and widths of stores (R285). -/
def stOk (spc : Space) (w : MWidth) : Bool :=
  spc != .enc && spc != .metaV && w != .s8 && w != .s16
/-- Spaces of atomics (R285). -/
def atomOk (spc : Space) : Bool := spc != .enc && spc != .metaV
/-- Spaces of gauge words (R285). -/
def gaugeOk (spc : Space) : Bool := spc == .sh || spc == .sc

/-- Two sources and a destination of one shape. -/
def wf2 (b : Budget) (dst src1 src2 : Slot) (d x y : Opnd) : Bool :=
  dst.ok b d && src1.ok b x && src2.ok b y

def wf3 (b : Budget) (dst src1 src2 src3 : Slot) (d x y z : Opnd) : Bool :=
  dst.ok b d && src1.ok b x && src2.ok b y && src3.ok b z

/-- A vector instruction of the integer mould with two sources of the type's width. -/
def wfV2 (b : Budget) (ty : Ty) (d x y : Opnd) : Bool :=
  wf2 b (.vec' ty.regs) (.src ty.regs) (.src ty.regs) d x y

/-- A vector instruction whose operands are single registers. -/
def wfV1 (b : Budget) (d x : Opnd) : Bool := (Slot.vec' 1).ok b d && (Slot.src 1).ok b x
def wfVI (b : Budget) (d x : Opnd) : Bool := wfV1 b d x
def wfS1 (b : Budget) (d x : Opnd) : Bool := (Slot.sca' 1).ok b d && (Slot.src 1).ok b x
def wfSI (b : Budget) (d x : Opnd) : Bool := wfS1 b d x
def wfS2 (b : Budget) (pr : Bool) (d x y : Opnd) : Bool :=
  wf2 b (.sca' (prRegs pr)) (.src (prRegs pr)) (.src (prRegs pr)) d x y

/-- The operands, types and numbers of the instruction are ones its entry accepts. Rows without an encoding, and the
sluice instructions, whose fields are exactly their operands, have nothing to check. -/
def WellFormed (b : Budget) : Instr → Bool
  | .nop | .join | .exit | .yield | .rti | .brk | .clLeave => true
  | .sAdd pr d x y | .sSub pr d x y | .sMul pr d x y | .sAnd pr d x y | .sOr pr d x y | .sXor pr d x y =>
      wfS2 b pr d x y
  | .sAddI d x _ | .sSubI d x _ | .sMulI d x _ | .sAndI d x _ | .sOrI d x _ | .sXorI d x _
  | .sShlI d x _ | .sShrI d x _ | .sSarI d x _ | .sAddcI d x _ => wfSI b d x
  | .sMulh ty d x y => [Ty.s32, .n32].contains ty && wfS2 b false d x y
  | .sMulhI ts d x _ | .sMinI ts d x _ | .sMaxI ts d x _ => [Tsel.s32, .n32].contains ts && wfSI b d x
  | .sMad d x y z | .sBfi d x y z => wf3 b (.sca' 1) (.src 1) (.src 1) (.src 1) d x y z
  | .sNot pr d x | .sMov pr d x => (Slot.sca' (prRegs pr)).ok b d && (Slot.src (prRegs pr)).ok b x
  | .sShl pr d x y | .sShr pr d x y | .sSar pr d x y =>
      wf2 b (.sca' (prRegs pr)) (.src (prRegs pr)) (.src 1) d x y
  | .sMin ty d x y | .sMax ty d x y =>
      sMinTypes.contains ty && wf2 b (.sca' ty.regs) (.src ty.regs) (.src ty.regs) d x y
  | .sCmp ty cc d x y =>
      sCvtTypes.contains ty && cc.okFor ty && wf2 b (.sca' 1) (.src ty.regs) (.src ty.regs) d x y
  | .sSel pr d x y z =>
      wf3 b (.sca' (prRegs pr)) (.src (prRegs pr)) (.src (prRegs pr)) (.src 1) d x y z
  | .sMovi _ d _ => (Slot.sca' 1).ok b d
  | .sBfe ty d x y => [Ty.s32, .n32].contains ty && wfS2 b false d x y
  | .sPopc d x | .sClz d x => wfS1 b d x
  | .sLd spc w data base idx _ _ =>
      ldOk spc w && wf2 b (.sca' w.regs) (.base spc.baseRegs) .sidx data base idx
  | .sSt spc w data base idx _ _ =>
      stOk spc w && wf2 b (if w.regs = 4 then .sca' 4 else .reg w.regs) (.base spc.baseRegs) .sidx data base idx
  | .sAddc _ d x y z => wf3 b (.sca' 1) (.src 1) (.src 1) (.src 1) d x y z
  | .sFadd _ d x y | .sFmul _ d x y => wfS2 b false d x y
  | .sFaddI _ d x _ | .sFmulI _ d x _ => wfSI b d x
  | .sFma _ d x y z => wf3 b (.sca' 1) (.src 1) (.src 1) (.src 1) d x y z
  | .sCvt ty _ cv d x =>
      sCvtTypes.contains ty && cv.okFor ty && cv.scalar &&
        (Slot.sca' (cvtDstRegs ty cv)).ok b d && (Slot.src (cvtSrcRegs ty cv)).ok b x
  | .sGetl d x y => wf2 b (.sca' 1) (.vec' 1) (.src 1) d x y
  | .add ty sat d x y | .sub ty sat d x y =>
      addTypes.contains ty && (!sat || satTypes.contains ty) && wfV2 b ty d x y
  | .mul ty d x y => addTypes.contains ty && wfV2 b ty d x y
  | .addI ts d x _ | .subI ts d x _ | .mulI ts d x _ | .andI ts d x _ | .orI ts d x _ | .xorI ts d x _
  | .shlI ts d x _ | .shrI ts d x _ | .sarI ts d x _ => ts != .f32 && wfVI b d x
  | .mulh ty d x y => [Ty.s32, .n32].contains ty && wfV2 b ty d x y
  | .mulhI ts d x _ | .minI ts d x _ | .maxI ts d x _ => [Tsel.s32, .n32].contains ts && wfVI b d x
  | .mad ty d x y z => [Ty.b32, .s32, .n32].contains ty && wf3 b (.vec' 1) (.src 1) (.src 1) (.src 1) d x y z
  | .and ty d x y | .or ty d x y | .xor ty d x y => bitTypes.contains ty && wfV2 b ty d x y
  | .not ty d x => bitTypes.contains ty && (Slot.vec' ty.regs).ok b d && (Slot.src ty.regs).ok b x
  | .shl ty d x y | .shr ty d x y | .sar ty d x y =>
      bitTypes.contains ty && wf2 b (.vec' ty.regs) (.src ty.regs) (.src 1) d x y
  | .min ty d x y | .max ty d x y => minTypes.contains ty && wfV2 b ty d x y
  | .abs ty d x =>
      [Ty.s8, .s16, .s32, .s64].contains ty && (Slot.vec' ty.regs).ok b d && (Slot.src ty.regs).ok b x
  | .bfe ty d x y => [Ty.s32, .n32].contains ty && wfV2 b ty d x y
  | .bfi d x y z | .lsel _ _ d x y z | .prmt d x y z => wf3 b (.vec' 1) (.src 1) (.src 1) (.src 1) d x y z
  | .popc d x | .clz d x => wfV1 b d x
  | .cmp ty cc d x y =>
      ty != .b32 && cc.okFor ty &&
        wf2 b (if ty.packed then .vec' 1 else .reg 1) (.src ty.regs) (.src ty.regs) d x y
  | .sel ty d x y z =>
      [Ty.b32, .n64].contains ty && wf3 b (.vec' ty.regs) (.src ty.regs) (.src ty.regs) (.src 1) d x y z
  | .mov ty d x => [Ty.b32, .n64].contains ty && (Slot.vec' ty.regs).ok b d && (Slot.src ty.regs).ok b x
  | .movI _ d _ => (Slot.vec' 1).ok b d
  | .movx x y => (Slot.reg 1).ok b x && (Slot.reg 1).ok b y
  | .putl d x y => wf2 b (.vec' 1) (.src 1) (.src 1) d x y
  | .shape d x => (Slot.sca' 1).ok b d && (Slot.vec' 1).ok b x
  | .addc ty _ d x y z => [Ty.b32, .n32].contains ty && wf3 b (.vec' 1) (.src 1) (.src 1) (.src 1) d x y z
  | .addcI ts d x _ => [Tsel.b32, .n32].contains ts && wfVI b d x
  | .fadd ty _ d x y | .fsub ty _ d x y | .fmul ty _ d x y | .fmin ty d x y | .fmax ty d x y =>
      floatTypes.contains ty && wfV2 b ty d x y
  | .faddI _ d x _ | .fsubI _ d x _ | .fmulI _ d x _ | .fminI _ d x _ | .fmaxI _ d x _ => wfVI b d x
  | .fma ty _ d x y z => floatTypes.contains ty && wf3 b (.vec' 1) (.src 1) (.src 1) (.src 1) d x y z
  | .fcmp ty _ d x y => floatTypes.contains ty && wfV2 b ty d x y
  | .frcpSeed d x | .frsqSeed d x | .fsqrt _ d x | .fexp2 d x | .flog2 d x | .fsin d x | .fcos d x
  | .fclass d x | .fexpo d x | .bpack d x => wfV1 b d x
  | .frnd ty _ d x => floatTypes.contains ty && wfV1 b d x
  | .fscale _ d x y => wf2 b (.vec' 1) (.src 1) (.src 1) d x y
  | .cvt ty _ cv d x y =>
      cv.okFor ty && wf2 b (.vec' (cvtDstRegs ty cv)) (.src (cvtSrcRegs ty cv))
        (if cv.packedDst ty then .optRun (cvtSrcRegs ty cv) else .unused) d x y
  | .bunpack n d x => planeCodes.contains n && wfV1 b d x
  | .fdot2 _ _ d x y z => wf3 b (.vec' 1) (.src 1) (.src 1) (.src 1) d x y z
  | .shfl _ _ wide d x y z => wf3 b (.vec' (prRegs wide)) (.src (prRegs wide)) (.src 1) .opt d x y z
  | .vote _ _ d x z => wf2 b (.vec' 1) (.src 1) .opt d x z
  | .red op _ ty d x z => op.types.contains ty && wf2 b (.vec' 1) (.src 1) .opt d x z
  | .scan op _ _ ty d x z => op.types.contains ty && wf2 b (.vec' 1) (.src 1) .opt d x z
  | .matchOp _ wide d x z =>
      wf2 b ⟨true, false, false, false, false, false, 1, prRegs wide⟩ (.src (prRegs wide)) .opt d x z
  | .sift _ x n => (Slot.src 1).ok b x && decide (n ≤ 0x200) && decide (n ≤ b.v)
  | .cmpct _ d x y z => wf3 b (.vec' 1) (.src 1) (.src 1) .opt d x y z
  | .execGet d => (Slot.sca' 1).ok b d
  | .execSet x | .execAnd x | .execAndn x => (Slot.src 1).ok b x
  | .mAnd d x y | .mOr d x y | .mXor d x y => wf2 b (.sca' 1) (.src 1) (.src 1) d x y
  | .mNot d x | .mFfs d x => wfS1 b d x
  | .br _ => true
  | .bz c _ | .bnz c _ | .bexz c _ | .brs c _ | .brsSift c _ => (Slot.src 1).ok b c
  | .call l _ => (Slot.sca' 2).ok b l
  | .ret l => (Slot.reg 2).ok b l
  | .barArr _ | .barWait _ | .barSync _ => true
  | .launch d x => Slot.hnd'.ok b d && (Slot.reg 2).ok b x
  | .qPut q x => decide (q.toNat < b.queues.length) && (Slot.srun (b.queues.getD q.toNat 1) 1).ok b x
  | .qGet q d => decide (q.toNat < b.queues.length) && (Slot.srun (b.queues.getD q.toNat 1) 1).ok b d
  | .ld spc w data base idx _ _ =>
      ldOk spc w && wf2 b (.vec' w.regs) (.base spc.baseRegs) .opt data base idx
  | .st spc w data base idx _ _ =>
      stOk spc w && wf2 b (if w.regs = 1 then .src 1 else .vec' w.regs) (.base spc.baseRegs) .opt data base idx
  | .atom spc wide op sgn data base idx k o =>
      atomOk spc && (!sgn || op == .min || op == .max) && k.okFor o &&
        wf2 b (.vec' (prRegs wide)) (.base spc.baseRegs) .opt data base idx
  | .atomCas spc wide data base idx k o =>
      atomOk spc && k.okFor o && wf2 b (.vec' (2 * prRegs wide)) (.base spc.baseRegs) .opt data base idx
  | .fence _ _ => true
  | .wb len base _ | .inv len base _ => Slot.msrc.ok b len && (Slot.base 2).ok b base
  | .gaugeSet spc t base idx _ => gaugeOk spc && wf2 b .msrc (.base 1) .opt t base idx
  | .gaugeSetOff spc base idx _ => gaugeOk spc && (Slot.base 1).ok b base && Slot.opt.ok b idx
  | .gaugeWait spc w base idx _ => gaugeOk spc && wf2 b .msrc (.base 1) .opt w base idx
  | .gaugeAdd spc n base idx _ => gaugeOk spc && wf2 b .msrc (.base 1) .opt n base idx
  | .clJoin d k => (Slot.sca' 1).ok b d && Slot.msrc.ok b k
  | .push x nm1 | .pop x nm1 => (Slot.frun (nm1.toNat + 1)).ok b x
  | .pfetch base idx _ o => o.unqualified && (Slot.base 2).ok b base && Slot.opt.ok b idx
  | .cpy d x | .cpym d x | .fill d x | .rowcpy d x => Slot.hnd'.ok b d && (Slot.srun 16 8).ok b x
  | .htest d x => (Slot.sca' 1).ok b d && Slot.hnd'.ok b x
  | .hcancel x => Slot.hnd'.ok b x
  | .hst spc x y => (Slot.reg spc.baseRegs).ok b x && Slot.hnd'.ok b y
  | .hld spc d x => Slot.hnd'.ok b d && (Slot.reg spc.baseRegs).ok b x
  | .mma x | .mmaG x => (Slot.srun 3 1).ok b x
  | .mzero _ => true
  | .mstore _ _ d x _ => Slot.hnd'.ok b d && (Slot.srun 2 1).ok b x
  | .mrd _ d x => (Slot.vec' 4).ok b d && (Slot.src 1).ok b x
  | .assaySet x _ => (Slot.srun 16 8).ok b x
  | .assayGet d _ => (Slot.srun 16 8).ok b d
  | .assayInv _ | .trap _ => true
  | .ctlRd d r => (Slot.sca' r.regs).ok b d
  | .ctlWr r x => (Slot.src r.regs).ok b x
  | .meterRd d n => (Slot.sca' 2).ok b d && decide (n ≤ 2)
  | .slBind d x => Slot.hnd'.ok b d && (Slot.srun 10 2).ok b x
  | .slUnbind d _ => Slot.hnd'.ok b d
  | .slStat d _ => (Slot.srun 8 8).ok b d
  | .stamp x | .stampSync x => (Slot.src 1).ok b x
  | .wpSet d _ x y => wf2 b (.sca' 1) (.srun 4 4) .ref d x y
  | .wpClr d _ y => (Slot.sca' 1).ok b d && Slot.ref.ok b y
  | .wpRd d _ y => (Slot.srun 8 8).ok b d && Slot.ref.ok b y
  | .dbgHalt y | .dbgRun y | .dbgRunUnpark y => (Slot.reg 2).ok b y
  | .dbgStep y z | .dbgStepLane y z => (Slot.reg 2).ok b y && (Slot.src 1).ok b z
  | .dbgRd d x y z | .dbgWr d x y z => wf3 b (.sca' 1) (.reg 2) (.reg 2) (.src 1) d x y z
  | .dbgList d x z => wf2 b (.sca' 1) (.reg 2) (.src 1) d x z
  | _ => true

/-- The instruction's clause class (R221). -/
def Instr.cls : Instr → Nat
  | .sLd .. | .sSt .. | .ld .. | .st .. | .atom .. | .atomCas .. | .fence .. | .wb .. | .inv ..
  | .gaugeSet .. | .gaugeSetOff .. | .gaugeWait .. | .gaugeAdd .. | .clJoin .. | .clLeave
  | .push .. | .pop .. | .pfetch .. => 1
  | .cpy .. | .cpym .. | .fill .. | .rowcpy .. | .htest .. | .hcancel .. | .hst .. | .hld .. | .mma ..
  | .mmaG .. | .mzero .. | .mstore .. | .mrd .. | .assaySet .. | .assayGet .. | .assayInv .. => 2
  | .sift .. | .br .. | .bz .. | .bnz .. | .bexz .. | .brs .. | .brsSift .. | .join | .call .. | .ret ..
  | .exit | .barArr .. | .barWait .. | .barSync .. | .yield | .launch .. | .qPut .. | .qGet .. => 3
  | .trap .. | .rti | .ctlRd .. | .ctlWr .. | .meterRd .. | .slBind .. | .slUnbind .. | .slStat ..
  | .stamp .. | .stampSync .. | .wpSet .. | .wpClr .. | .wpRd .. | .dbgHalt .. | .dbgRun ..
  | .dbgRunUnpark .. | .dbgStep .. | .dbgStepLane .. | .dbgRd .. | .dbgWr .. | .dbgList .. | .brk => 4
  | _ => 0

/-- The instruction may stand in a clause of the class (R206). -/
def Instr.classOk (i : Instr) (k : Nat) : Bool := i.cls == k || i.cls == 0

/-- The instruction must be the last of its clause (R209). -/
def Instr.endsClause : Instr → Bool
  | .br .. | .bz .. | .bnz .. | .bexz .. | .brs .. | .brsSift .. | .call .. | .ret .. | .exit | .rti => true
  | _ => false

end Sys2Proof
end

