-- ==== Sys2Proof/Decode.lean ====
section
/-!
DEFINITION. Decode.lean: clause headers (R205, R211), instruction words (R212 to R223) and sluice words (R156, R159),
decoded in the order of R223 with the number of the failed check, and after them the encoder.
-/
namespace Sys2Proof

/-- Bits [hi:lo] of w. -/
def fld (w hi lo : Nat) : Nat := w / 2 ^ lo % 2 ^ (hi + 1 - lo)

/-! ### Codes of the small vocabularies -/

def Ty.ofCode : Nat → Option Ty
  | 0 => some .b32 | 1 => some .s32 | 2 => some .n32 | 3 => some .f32 | 4 => some .bf16x2 | 5 => some .f16x2
  | 6 => some .s16 | 7 => some .n16 | 8 => some .s8 | 9 => some .n8 | 10 => some .s64 | 11 => some .n64
  | _ => none

def Ty.code : Ty → Nat
  | .b32 => 0 | .s32 => 1 | .n32 => 2 | .f32 => 3 | .bf16x2 => 4 | .f16x2 => 5
  | .s16 => 6 | .n16 => 7 | .s8 => 8 | .n8 => 9 | .s64 => 10 | .n64 => 11

def Tsel.ofCode : Nat → Tsel
  | 0 => .b32 | 1 => .s32 | 2 => .n32 | _ => .f32

def Tsel.code : Tsel → Nat
  | .b32 => 0 | .s32 => 1 | .n32 => 2 | .f32 => 3

def Rnd.ofCode : Nat → Option Rnd
  | 0 => some .rn | 1 => some .rz | 2 => some .ru | 3 => some .rd | 4 => some .dyn | _ => none

def Rnd.code : Rnd → Nat
  | .rn => 0 | .rz => 1 | .ru => 2 | .rd => 3 | .dyn => 4

def Cond.ofCode : Nat → Option Cond
  | 0 => some .eq | 1 => some .ne | 2 => some .lt | 3 => some .le | 4 => some .gt | 5 => some .ge
  | 6 => some .num | 7 => some .nan | 8 => some .equ | 9 => some .neu | 10 => some .ltu | 11 => some .leu
  | 12 => some .gtu | 13 => some .geu | _ => none

def Cond.code : Cond → Nat
  | .eq => 0 | .ne => 1 | .lt => 2 | .le => 3 | .gt => 4 | .ge => 5 | .num => 6 | .nan => 7
  | .equ => 8 | .neu => 9 | .ltu => 10 | .leu => 11 | .gtu => 12 | .geu => 13

def SubW.ofCode : Nat → Option SubW
  | 0 => some .w32 | 1 => some .w2 | 2 => some .w4 | 3 => some .w8 | 4 => some .w16 | _ => none

def SubW.code : SubW → Nat
  | .w32 => 0 | .w2 => 1 | .w4 => 2 | .w8 => 3 | .w16 => 4

def Space.ofCode : Nat → Option Space
  | 0 => some .g | 1 => some .sh | 2 => some .sc | 3 => some .sp | 4 => some .enc | 5 => some .metaV | _ => none

def Space.code : Space → Nat
  | .g => 0 | .sh => 1 | .sc => 2 | .sp => 3 | .enc => 4 | .metaV => 5

def MWidth.ofCode : Nat → Option MWidth
  | 0 => some .n8 | 1 => some .n16 | 2 => some .b32 | 3 => some .b64 | 4 => some .b128 | 5 => some .s8
  | 6 => some .s16 | _ => none

def MWidth.code : MWidth → Nat
  | .n8 => 0 | .n16 => 1 | .b32 => 2 | .b64 => 3 | .b128 => 4 | .s8 => 5 | .s16 => 6

def Scope.ofCode : Nat → Option Scope
  | 0 => some .grp | 1 => some .core | 2 => some .team | 3 => some .die | 4 => some .pkg | 5 => some .fab | _ => none

def Scope.code : Scope → Nat
  | .grp => 0 | .core => 1 | .team => 2 | .die => 3 | .pkg => 4 | .fab => 5

def Ordf.ofCode (n : Nat) : Option Ordf :=
  if n = 0 then some .plain else if n = 1 then some .stream else if n = 2 then some .noalloc
  else if n < 8 then none else (Scope.ofCode (n - 8)).map .qual

def Ordf.code : Ordf → Nat
  | .plain => 0 | .stream => 1 | .noalloc => 2 | .qual s => 8 + s.code

def AKind.ofCode : Nat → Option AKind
  | 0 => some .acq | 1 => some .rel | 2 => some .ar | _ => none

def AKind.code : AKind → Nat
  | .acq => 0 | .rel => 1 | .ar => 2

def AOp.ofCode : Nat → Option AOp
  | 0 => some .add | 1 => some .and | 2 => some .or | 3 => some .xor | 4 => some .min | 5 => some .max
  | 6 => some .exch | _ => none

def AOp.code : AOp → Nat
  | .add => 0 | .and => 1 | .or => 2 | .xor => 3 | .min => 4 | .max => 5 | .exch => 6

def FKind.ofCode : Nat → Option FKind
  | 0 => some .acq | 1 => some .rel | 2 => some .ar | 3 => some .sc | _ => none

def FKind.code : FKind → Nat
  | .acq => 0 | .rel => 1 | .ar => 2 | .sc => 3

def ShflMode.ofCode : Nat → Option ShflMode
  | 0 => some .idx | 1 => some .up | 2 => some .down | 3 => some .xor | _ => none

def ShflMode.code : ShflMode → Nat
  | .idx => 0 | .up => 1 | .down => 2 | .xor => 3

def VoteMode.ofCode : Nat → Option VoteMode
  | 0 => some .any | 1 => some .all | 2 => some .ballot | _ => none

def VoteMode.code : VoteMode → Nat
  | .any => 0 | .all => 1 | .ballot => 2

def RedOp.ofCode : Nat → Option RedOp
  | 0 => some .add | 1 => some .and | 2 => some .or | 3 => some .xor | 4 => some .min | 5 => some .max
  | 6 => some .fadd | 7 => some .fmin | 8 => some .fmax | _ => none

def RedOp.code : RedOp → Nat
  | .add => 0 | .and => 1 | .or => 2 | .xor => 3 | .min => 4 | .max => 5 | .fadd => 6 | .fmin => 7 | .fmax => 8

def Narrow.ofCode : Nat → Option Narrow
  | 0 => some .e4m3 | 1 => some .e5m2 | 2 => some .e2m1 | 3 => some .e8m0 | 4 => some .bpi | _ => none

def Narrow.code : Narrow → Nat
  | .e4m3 => 0 | .e5m2 => 1 | .e2m1 => 2 | .e8m0 => 3 | .bpi => 4

/-- The conversion code of R258. -/
def CvtCode.ofCode (n : Nat) : Option CvtCode :=
  if n = 0 then none
  else if n ≤ 11 then (Ty.ofCode n).map .src
  else if n < 16 then none
  else if n < 21 then (Narrow.ofCode (n - 16)).map .narrowSrc
  else if n < 24 then none
  else (Narrow.ofCode (n - 24)).map .narrowDst

def CvtCode.code : CvtCode → Nat
  | .src t => t.code
  | .narrowSrc n => 16 + n.code
  | .narrowDst n => 24 + n.code

def CReg.ofCode : Nat → Option CReg
  | 0 => some .fpc | 1 => some .fps | 2 => some .sts | 3 => some .cycle | 4 => some .vdid | 5 => some .priv
  | 6 => some .trappc | 7 => some .trapnext | 8 => some .trapmask | 9 => some .trapcause | 10 => some .trapdst
  | 11 => some .trapaddr | 12 => some .trapvec | _ => none

def CReg.code : CReg → Nat
  | .fpc => 0 | .fps => 1 | .sts => 2 | .cycle => 3 | .vdid => 4 | .priv => 5 | .trappc => 6 | .trapnext => 7
  | .trapmask => 8 | .trapcause => 9 | .trapdst => 10 | .trapaddr => 11 | .trapvec => 12

def HSpace.ofCode : Nat → Option HSpace
  | 0 => some .g | 1 => some .sh | 2 => some .sc | _ => none

def HSpace.code : HSpace → Nat
  | .g => 0 | .sh => 1 | .sc => 2

/-- The operand that a field value names (R216); a reserved value reads as none and is refused by
`Opnd.reserved`. -/
def Opnd.ofCode (n : Nat) : Opnd :=
  if n < 0x200 then .v n
  else if n < 0x2c0 then .s (n - 0x200)
  else if n < 0x2e0 then
    match n - 0x2c0 with
    | 0 => .zero | 1 => .lane | 2 => .exec | 3 => .tid | 4 => .gid | 5 => .role
    | 6 => .teamX | 7 => .teamY | 8 => .teamZ | 9 => .nteamX | 10 => .nteamY | 11 => .nteamZ
    | _ => .none
  else if n < 0x2f0 then .h (n - 0x2e0)
  else .none

def Opnd.reserved (n : Nat) : Bool :=
  (decide (0x2cc ≤ n) && decide (n < 0x2e0)) || (decide (0x2f0 ≤ n) && n != 0x3ff)

def Opnd.code : Opnd → Nat
  | .v n => n | .s n => 0x200 + n
  | .zero => 0x2c0 | .lane => 0x2c1 | .exec => 0x2c2 | .tid => 0x2c3 | .gid => 0x2c4 | .role => 0x2c5
  | .teamX => 0x2c6 | .teamY => 0x2c7 | .teamZ => 0x2c8 | .nteamX => 0x2c9 | .nteamY => 0x2ca | .nteamZ => 0x2cb
  | .h n => 0x2e0 + n | .none => 0x3ff

/-! ### Clause headers -/

/-- The fields of a clause header (R205). -/
structure Header where
  count : Nat
  cls : Nat
  wait : Nat
  seta : Nat
  setb : Nat
  hw : Bool
  yh : Bool
  deriving DecidableEq, Repr

/-- The header's fields, or none where R211 raises the illegal-header fault. -/
def decodeHeader (w : Nat) : Option Header :=
  let cls := fld w 51 49
  let sa := fld w 36 33
  let sb := fld w 32 29
  let bad (f : Nat) : Bool := decide (12 ≤ f) && decide (f < 15)
  if fld w 63 56 = 0xca && decide (cls < 5) && !bad sa && !bad sb && fld w 26 0 == 0 then
    some { count := fld w 55 52 + 1, cls := cls, wait := fld w 48 37, seta := sa, setb := sb,
           hw := fld w 28 28 == 1, yh := fld w 27 27 == 1 }
  else none

/-- The header word of the fields. -/
def encodeHeader (h : Header) : Nat :=
  0xca * 2 ^ 56 + (h.count - 1) * 2 ^ 52 + h.cls * 2 ^ 49 + h.wait * 2 ^ 37 + h.seta * 2 ^ 33 + h.setb * 2 ^ 29
    + h.hw.toNat * 2 ^ 28 + h.yh.toNat * 2 ^ 27

/-! ### Formats -/

/-- The formats of R212 to R214, field by field, with their reserved bits. -/
inductive Raw where
  | rF (op ty dst a b c md low : Nat)
  | iF (op tsel dst a m imm : Nat)
  | bF (op kind cond rsv off : Nat)
  | mF (op spc width data base idx imm ord : Nat)
  | jF (op sub dst a b c md low : Nat)
  deriving DecidableEq, Repr

/-- The format of an opcode (R221). -/
inductive Fmt where
  | r | i | b | m | j
  deriving DecidableEq, Repr

/-- The opcodes that have the I form beside the R form (R221). -/
def iForms : List Nat :=
  [0x01, 0x02, 0x03, 0x04, 0x06, 0x07, 0x08, 0x0a, 0x0b, 0x0c, 0x0d, 0x0e, 0x19, 0x1a, 0x1b] ++
  [0x20, 0x21, 0x22, 0x23, 0x25, 0x26, 0x27, 0x29, 0x2a, 0x2b, 0x2c, 0x2d, 0x39, 0x35] ++
  [0x40, 0x41, 0x42, 0x44, 0x45]

/-- The format that R221 gives an opcode, or none where it is unassigned (R222). -/
def opFmt (op : Nat) : Option Fmt :=
  if op = 0x12 then some .i
  else if op = 0x17 || op = 0x18 then some .m
  else if op ≤ 0x1e then some .r
  else if op < 0x20 then none
  else if op ≤ 0x3b then some .r
  else if op < 0x40 then none
  else if op ≤ 0x55 then some .r
  else if op < 0x60 then none
  else if op ≤ 0x66 then some .r
  else if op < 0x70 then none
  else if op ≤ 0x78 then some .r
  else if op ≤ 0x82 then some .b
  else if op = 0x87 then some .j
  else if op ≤ 0x89 then some .r
  else if op < 0x90 then none
  else if op ≤ 0x9e then some .m
  else if op < 0xb0 then none
  else if op ≤ 0xbf then some .j
  else if op < 0xd0 then none
  else if op ≤ 0xd8 then some .j
  else if op < 0xe0 then none
  else if op ≤ 0xe9 then some .j
  else none

/-- The clause class of an opcode (R221). -/
def opClass (op : Nat) : Nat :=
  if op = 0x17 || op = 0x18 then 1
  else if op = 0x65 then 3
  else if op ≤ 0x78 then 0
  else if op ≤ 0x89 then 3
  else if op ≤ 0x9e then 1
  else if op ≤ 0xbf then 2
  else 4

/-- The word's fields under a format. -/
def Fmt.split (f : Fmt) (w : Nat) : Raw :=
  match f with
  | .r => .rF (fld w 63 56) (fld w 54 51) (fld w 50 41) (fld w 40 31) (fld w 30 21) (fld w 20 11) (fld w 10 3) (fld w 2 0)
  | .i => .iF (fld w 63 56) (fld w 54 53) (fld w 52 43) (fld w 42 33) (fld w 32 32) (fld w 31 0)
  | .b => .bF (fld w 63 56) (fld w 55 52) (fld w 51 42) (fld w 41 32) (fld w 31 0)
  | .m => .mF (fld w 63 56) (fld w 55 53) (fld w 52 50) (fld w 49 40) (fld w 39 30) (fld w 29 20) (fld w 19 4) (fld w 3 0)
  | .j => .jF (fld w 63 56) (fld w 55 52) (fld w 51 42) (fld w 41 32) (fld w 31 22) (fld w 21 12) (fld w 11 4) (fld w 3 0)

/-- The word of the fields. -/
def Raw.join : Raw → Nat
  | .rF op ty dst a b c md low =>
      op * 2 ^ 56 + ty * 2 ^ 51 + dst * 2 ^ 41 + a * 2 ^ 31 + b * 2 ^ 21 + c * 2 ^ 11 + md * 2 ^ 3 + low
  | .iF op tsel dst a m imm =>
      op * 2 ^ 56 + 2 ^ 55 + tsel * 2 ^ 53 + dst * 2 ^ 43 + a * 2 ^ 33 + m * 2 ^ 32 + imm
  | .bF op kind cond rsv off => op * 2 ^ 56 + kind * 2 ^ 52 + cond * 2 ^ 42 + rsv * 2 ^ 32 + off
  | .mF op spc width data base idx imm ord =>
      op * 2 ^ 56 + spc * 2 ^ 53 + width * 2 ^ 50 + data * 2 ^ 40 + base * 2 ^ 30 + idx * 2 ^ 20 + imm * 2 ^ 4 + ord
  | .jF op sub dst a b c md low =>
      op * 2 ^ 56 + sub * 2 ^ 52 + dst * 2 ^ 42 + a * 2 ^ 32 + b * 2 ^ 22 + c * 2 ^ 12 + md * 2 ^ 4 + low

/-! ### Check 3 of R223: reserved bits and unused fields -/

/-- A field that the entry does not use holds none (R215). -/
def unusedOk (used : Bool) (n : Nat) : Bool := used || n == 0x3ff

/-- Which of DST, A, B and C an R-form opcode uses. `cvt` and `s.cvt` use B only for a packed destination (R258). -/
def rUses (op ty md : Nat) : Bool × Bool × Bool × Bool :=
  if op = 0x52 then (true, true, decide (md % 32 < 24) && (ty == 4 || ty == 5), false)
  else if [0x09, 0x11, 0x15, 0x16, 0x1d, 0x28, 0x2e, 0x31, 0x32, 0x35, 0x38, 0x47, 0x48, 0x49, 0x4a, 0x4b, 0x4c, 0x4d,
      0x4e, 0x4f, 0x51, 0x53, 0x54, 0x77, 0x78].contains op then (true, true, false, false)
  else if [0x05, 0x10, 0x14, 0x19, 0x1c, 0x24, 0x30, 0x34, 0x39, 0x3a, 0x3b, 0x43, 0x55, 0x60, 0x66].contains op then
    (true, true, true, true)
  else if [0x61, 0x62, 0x63, 0x64].contains op then (true, true, false, true)
  else if op = 0x65 || op = 0x36 then (false, true, true, false)
  else if op = 0x70 || op = 0x89 then (true, false, false, false)
  else if [0x71, 0x72, 0x73, 0x88].contains op then (false, true, false, false)
  else if 0x83 ≤ op && op ≤ 0x86 then (false, false, false, false)
  else (true, true, true, false)

/-- Which of DST, A, B and C a J-form opcode uses (R282, R304, R315, R422). -/
def jUses (op : Nat) : Bool × Bool × Bool × Bool :=
  if [0x87, 0xb0, 0xb1, 0xb2, 0xb3, 0xb4, 0xb7, 0xbb, 0xbc, 0xd5].contains op then (true, true, false, false)
  else if [0xb5, 0xb8, 0xb9, 0xbd, 0xd3, 0xd8].contains op then (false, true, false, false)
  else if op = 0xb6 then (false, true, true, false)
  else if [0xbe, 0xd2, 0xd4, 0xd6, 0xd7].contains op then (true, false, false, false)
  else if op = 0xe0 then (true, true, true, false)
  else if op = 0xe1 || op = 0xe2 then (true, false, true, false)
  else if op = 0xe3 || op = 0xe4 then (false, false, true, false)
  else if op = 0xe5 then (false, false, true, true)
  else if op = 0xe6 || op = 0xe7 then (true, true, true, true)
  else if op = 0xe8 then (true, true, false, true)
  else (false, false, false, false)

/-- Which of DATA, BASE and INDEX an M-form opcode uses, and how many low bits of IMM16 (R285). -/
def mUses (op width : Nat) : (Bool × Bool × Bool) × Nat :=
  if op = 0x92 || op = 0x93 then ((true, true, true), 7)
  else if op = 0x94 || op = 0x9b then ((false, false, false), 0)
  else if op = 0x95 || op = 0x96 then ((true, true, false), 16)
  else if op = 0x97 then ((width != 1, true, true), 16)
  else if op = 0x9a then ((true, true, false), 0)
  else if op = 0x9c || op = 0x9d then ((true, false, false), 4)
  else if op = 0x9e then ((false, true, true), 16)
  else ((true, true, true), 16)

/-- Check 3 of R223. -/
def Raw.unusedOk : Raw → Bool
  | .rF op ty dst a b c md low =>
      if op = 0 then ty == 0 && dst == 0 && a == 0 && b == 0 && c == 0 && md == 0 && low == 0
      else
        let (ud, ua, ub, uc) := rUses op ty md
        low == 0 && Sys2Proof.unusedOk ud dst && Sys2Proof.unusedOk ua a && Sys2Proof.unusedOk ub b
          && Sys2Proof.unusedOk uc c
  | .iF op tsel _ a m _ =>
      (m == 0 || (tsel == 3 && op != 0x12)) && Sys2Proof.unusedOk (op != 0x12 && op != 0x35) a
  | .bF op _ cond rsv off =>
      rsv == 0 && Sys2Proof.unusedOk (op != 0x79 && op != 0x7f && op != 0x82) cond
        && (off == 0 || (op != 0x7f && op != 0x81 && op != 0x82))
  | .mF op _ width data base idx imm _ =>
      let ((ud, ub, ui), n) := mUses op width
      Sys2Proof.unusedOk ud data && Sys2Proof.unusedOk ub base && Sys2Proof.unusedOk ui idx && decide (imm < 2 ^ n)
  | .jF op _ dst a b c _ low =>
      let (ud, ua, ub, uc) := jUses op
      low == 0 && Sys2Proof.unusedOk ud dst && Sys2Proof.unusedOk ua a && Sys2Proof.unusedOk ub b
        && Sys2Proof.unusedOk uc c

/-! ### Check 4 of R223: the values, and the instruction they spell -/

/-- The type with this code, where the entry accepts it. -/
def tyIn (ts : List Ty) (n : Nat) : Option Ty := (Ty.ofCode n).filter ts.contains

/-- Whether the operands are pairs: TYPE 0 says single registers and TYPE 11 pairs (R249). -/
def pairTy (n : Nat) : Option Bool := if n = 0 then some false else if n = 11 then some true else none

/-- The instruction, where the condition on its values holds. -/
def need (c : Bool) (i : Instr) : Option Instr := if c then some i else none

/-- The operand fields of an R word, decoded, with TYPE, MOD and the number that B spells for `sift`. -/
structure RF where
  ty : Nat
  d : Opnd
  a : Opnd
  b : Opnd
  c : Opnd
  md : Nat
  bn : Nat

/-- An instruction with a rounding mode in MOD[10:8] and variant 0 (R218). -/
def rounded (md : Nat) (k : Rnd → Instr) : Option Instr := if md % 32 = 0 then (Rnd.ofCode (md / 32)).map k else none

/-- An instruction with a condition in MOD[6:3] (R218). -/
def conditioned (md : Nat) (t : Ty) (k : Cond → Instr) : Option Instr :=
  if md / 16 = 0 then ((Cond.ofCode md).filter (·.okFor t)).map k else none

/-- An instruction with a sub-group width in MOD[10:8] (R219). -/
def subbed (md : Nat) (k : SubW → Option Instr) : Option Instr := (SubW.ofCode (md / 32)).bind k

def buildR0 (lo : Nat) (f : RF) : Option Instr :=
  match lo with
  | 0x0 => some .nop
  | 0x1 => (pairTy f.ty).bind fun p => need (f.md == 0) (.sAdd p f.d f.a f.b)
  | 0x2 => (pairTy f.ty).bind fun p => need (f.md == 0) (.sSub p f.d f.a f.b)
  | 0x3 => (pairTy f.ty).bind fun p => need (f.md == 0) (.sMul p f.d f.a f.b)
  | 0x4 => (tyIn [.s32, .n32] f.ty).bind fun t => need (f.md == 0) (.sMulh t f.d f.a f.b)
  | 0x5 => need (f.ty == 0 && f.md == 0) (.sMad f.d f.a f.b f.c)
  | 0x6 => (pairTy f.ty).bind fun p => need (f.md == 0) (.sAnd p f.d f.a f.b)
  | 0x7 => (pairTy f.ty).bind fun p => need (f.md == 0) (.sOr p f.d f.a f.b)
  | 0x8 => (pairTy f.ty).bind fun p => need (f.md == 0) (.sXor p f.d f.a f.b)
  | 0x9 => (pairTy f.ty).bind fun p => need (f.md == 0) (.sNot p f.d f.a)
  | 0xa => (pairTy f.ty).bind fun p => need (f.md == 0) (.sShl p f.d f.a f.b)
  | 0xb => (pairTy f.ty).bind fun p => need (f.md == 0) (.sShr p f.d f.a f.b)
  | 0xc => (pairTy f.ty).bind fun p => need (f.md == 0) (.sSar p f.d f.a f.b)
  | 0xd => (tyIn sMinTypes f.ty).bind fun t => need (f.md == 0) (.sMin t f.d f.a f.b)
  | 0xe => (tyIn sMinTypes f.ty).bind fun t => need (f.md == 0) (.sMax t f.d f.a f.b)
  | 0xf => (tyIn sCvtTypes f.ty).bind fun t => conditioned f.md t (.sCmp t · f.d f.a f.b)
  | _ => none

def buildR1 (lo : Nat) (f : RF) : Option Instr :=
  match lo with
  | 0x0 => (pairTy f.ty).bind fun p => need (f.md == 0) (.sSel p f.d f.a f.b f.c)
  | 0x1 => (pairTy f.ty).bind fun p => need (f.md == 0) (.sMov p f.d f.a)
  | 0x3 => (tyIn [.s32, .n32] f.ty).bind fun t => need (f.md == 0) (.sBfe t f.d f.a f.b)
  | 0x4 => need (f.ty == 0 && f.md == 0) (.sBfi f.d f.a f.b f.c)
  | 0x5 => need (f.ty == 0 && f.md == 0) (.sPopc f.d f.a)
  | 0x6 => need (f.ty == 0 && f.md == 0) (.sClz f.d f.a)
  | 0x9 => need (f.ty == 0 && decide (f.md < 2)) (.sAddc (f.md == 1) f.d f.a f.b f.c)
  | 0xa => if f.ty = 3 then rounded f.md (.sFadd · f.d f.a f.b) else none
  | 0xb => if f.ty = 3 then rounded f.md (.sFmul · f.d f.a f.b) else none
  | 0xc => if f.ty = 3 then rounded f.md (.sFma · f.d f.a f.b f.c) else none
  | 0xd => (tyIn sCvtTypes f.ty).bind fun t => (Rnd.ofCode (f.md / 32)).bind fun m =>
      (CvtCode.ofCode (f.md % 32)).bind fun cv => need (cv.okFor t && cv.scalar) (.sCvt t m cv f.d f.a)
  | 0xe => need (f.ty == 0 && f.md == 0) (.sGetl f.d f.a f.b)
  | _ => none

def buildR2 (lo : Nat) (f : RF) : Option Instr :=
  match lo with
  | 0x0 => (tyIn addTypes f.ty).bind fun t =>
      need (f.md == 0 || (f.md == 1 && satTypes.contains t)) (.add t (f.md == 1) f.d f.a f.b)
  | 0x1 => (tyIn addTypes f.ty).bind fun t =>
      need (f.md == 0 || (f.md == 1 && satTypes.contains t)) (.sub t (f.md == 1) f.d f.a f.b)
  | 0x2 => (tyIn addTypes f.ty).bind fun t => need (f.md == 0) (.mul t f.d f.a f.b)
  | 0x3 => (tyIn [.s32, .n32] f.ty).bind fun t => need (f.md == 0) (.mulh t f.d f.a f.b)
  | 0x4 => (tyIn [.b32, .s32, .n32] f.ty).bind fun t => need (f.md == 0) (.mad t f.d f.a f.b f.c)
  | 0x5 => (tyIn bitTypes f.ty).bind fun t => need (f.md == 0) (.and t f.d f.a f.b)
  | 0x6 => (tyIn bitTypes f.ty).bind fun t => need (f.md == 0) (.or t f.d f.a f.b)
  | 0x7 => (tyIn bitTypes f.ty).bind fun t => need (f.md == 0) (.xor t f.d f.a f.b)
  | 0x8 => (tyIn bitTypes f.ty).bind fun t => need (f.md == 0) (.not t f.d f.a)
  | 0x9 => (tyIn bitTypes f.ty).bind fun t => need (f.md == 0) (.shl t f.d f.a f.b)
  | 0xa => (tyIn bitTypes f.ty).bind fun t => need (f.md == 0) (.shr t f.d f.a f.b)
  | 0xb => (tyIn bitTypes f.ty).bind fun t => need (f.md == 0) (.sar t f.d f.a f.b)
  | 0xc => (tyIn minTypes f.ty).bind fun t => need (f.md == 0) (.min t f.d f.a f.b)
  | 0xd => (tyIn minTypes f.ty).bind fun t => need (f.md == 0) (.max t f.d f.a f.b)
  | 0xe => (tyIn [.s8, .s16, .s32, .s64] f.ty).bind fun t => need (f.md == 0) (.abs t f.d f.a)
  | 0xf => (tyIn [.s32, .n32] f.ty).bind fun t => need (f.md == 0) (.bfe t f.d f.a f.b)
  | _ => none

def buildR3 (lo : Nat) (f : RF) : Option Instr :=
  match lo with
  | 0x0 => need (f.ty == 0 && f.md == 0) (.bfi f.d f.a f.b f.c)
  | 0x1 => need (f.ty == 0 && f.md == 0) (.popc f.d f.a)
  | 0x2 => need (f.ty == 0 && f.md == 0) (.clz f.d f.a)
  | 0x3 => (Ty.ofCode f.ty).bind fun t =>
      if t = .b32 then none else conditioned f.md t (.cmp t · f.d f.a f.b)
  | 0x4 => (tyIn [.b32, .n64] f.ty).bind fun t => need (f.md == 0) (.sel t f.d f.a f.b f.c)
  | 0x5 => (tyIn [.b32, .n64] f.ty).bind fun t => need (f.md == 0) (.mov t f.d f.a)
  | 0x6 => need (f.ty == 0 && f.md == 0) (.movx f.a f.b)
  | 0x7 => need (f.ty == 0 && f.md == 0) (.putl f.d f.a f.b)
  | 0x8 => need (f.ty == 0 && f.md == 0) (.shape f.d f.a)
  | 0x9 => (tyIn [.b32, .n32] f.ty).bind fun t => need (decide (f.md < 2)) (.addc t (f.md == 1) f.d f.a f.b f.c)
  | 0xa => need (f.ty == 0) (.lsel (BitVec.ofNat 4 (f.md / 16)) (BitVec.ofNat 4 f.md) f.d f.a f.b f.c)
  | 0xb => need (f.ty == 0 && f.md == 0) (.prmt f.d f.a f.b f.c)
  | _ => none

def buildR4 (lo : Nat) (f : RF) : Option Instr :=
  match lo with
  | 0x0 => (tyIn floatTypes f.ty).bind fun t => rounded f.md (.fadd t · f.d f.a f.b)
  | 0x1 => (tyIn floatTypes f.ty).bind fun t => rounded f.md (.fsub t · f.d f.a f.b)
  | 0x2 => (tyIn floatTypes f.ty).bind fun t => rounded f.md (.fmul t · f.d f.a f.b)
  | 0x3 => (tyIn floatTypes f.ty).bind fun t => rounded f.md (.fma t · f.d f.a f.b f.c)
  | 0x4 => (tyIn floatTypes f.ty).bind fun t => need (f.md == 0) (.fmin t f.d f.a f.b)
  | 0x5 => (tyIn floatTypes f.ty).bind fun t => need (f.md == 0) (.fmax t f.d f.a f.b)
  | 0x6 => (tyIn floatTypes f.ty).bind fun t => conditioned f.md t (.fcmp t · f.d f.a f.b)
  | 0x7 => need (f.ty == 3 && f.md == 0) (.frcpSeed f.d f.a)
  | 0x8 => need (f.ty == 3 && f.md == 0) (.frsqSeed f.d f.a)
  | 0x9 => if f.ty = 3 then rounded f.md (.fsqrt · f.d f.a) else none
  | 0xa => need (f.ty == 3 && f.md == 0) (.fexp2 f.d f.a)
  | 0xb => need (f.ty == 3 && f.md == 0) (.flog2 f.d f.a)
  | 0xc => need (f.ty == 3 && f.md == 0) (.fsin f.d f.a)
  | 0xd => need (f.ty == 3 && f.md == 0) (.fcos f.d f.a)
  | 0xe => (tyIn floatTypes f.ty).bind fun t => rounded f.md (.frnd t · f.d f.a)
  | 0xf => need (f.ty == 3 && f.md == 0) (.fclass f.d f.a)
  | _ => none

def buildR5 (lo : Nat) (f : RF) : Option Instr :=
  match lo with
  | 0x0 => if f.ty = 3 then rounded f.md (.fscale · f.d f.a f.b) else none
  | 0x1 => need (f.ty == 3 && f.md == 0) (.fexpo f.d f.a)
  | 0x2 => (Ty.ofCode f.ty).bind fun t => (Rnd.ofCode (f.md / 32)).bind fun m =>
      (CvtCode.ofCode (f.md % 32)).bind fun cv => need (cv.okFor t) (.cvt t m cv f.d f.a f.b)
  | 0x3 => need (f.ty == 0 && f.md == 0) (.bpack f.d f.a)
  | 0x4 => need (f.ty == 1 && f.md / 16 == 0 && planeCodes.contains f.md) (.bunpack f.md f.d f.a)
  | 0x5 => if f.ty = 3 && f.md % 32 < 2 then (Rnd.ofCode (f.md / 32)).map (.fdot2 · (f.md % 32 == 1) f.d f.a f.b f.c)
           else none
  | _ => none

def buildR6 (b : Budget) (lo : Nat) (f : RF) : Option Instr :=
  match lo with
  | 0x0 => subbed f.md fun w => (pairTy f.ty).bind fun p =>
      (ShflMode.ofCode (f.md % 32)).map (.shfl · w p f.d f.a f.b f.c)
  | 0x1 => if f.ty = 0 then subbed f.md fun w => (VoteMode.ofCode (f.md % 32)).map (.vote · w f.d f.a f.c) else none
  | 0x2 => if f.md / 16 % 2 = 0 then subbed f.md fun w => (RedOp.ofCode (f.md % 16)).bind fun op =>
      (tyIn op.types f.ty).map (.red op w · f.d f.a f.c) else none
  | 0x3 => subbed f.md fun w => (RedOp.ofCode (f.md % 16)).bind fun op =>
      (tyIn op.types f.ty).map (.scan op (f.md / 16 % 2 == 1) w · f.d f.a f.c)
  | 0x4 => if f.md % 32 = 0 then subbed f.md fun w => (pairTy f.ty).map (.matchOp w · f.d f.a f.c) else none
  | 0x5 => need (f.ty == 0 && decide (f.md < 2) && decide (f.bn ≤ 0x200) && decide (f.bn ≤ b.v))
      (.sift (f.md == 1) f.a f.bn)
  | 0x6 => if f.ty = 0 && f.md % 32 = 0 then subbed f.md fun w => some (.cmpct w f.d f.a f.b f.c) else none
  | _ => none

def buildR7 (lo : Nat) (f : RF) : Option Instr :=
  if f.ty = 0 && f.md = 0 then
    match lo with
    | 0x0 => some (.execGet f.d)
    | 0x1 => some (.execSet f.a)
    | 0x2 => some (.execAnd f.a)
    | 0x3 => some (.execAndn f.a)
    | 0x4 => some (.mAnd f.d f.a f.b)
    | 0x5 => some (.mOr f.d f.a f.b)
    | 0x6 => some (.mXor f.d f.a f.b)
    | 0x7 => some (.mNot f.d f.a)
    | 0x8 => some (.mFfs f.d f.a)
    | _ => none
  else none

def buildR8 (b : Budget) (lo : Nat) (f : RF) : Option Instr :=
  if f.ty = 0 then
    match lo with
    | 0x3 => need (f.md / 16 == 0) (.barArr (BitVec.ofNat 4 f.md))
    | 0x4 => need (f.md / 16 == 0) (.barWait (BitVec.ofNat 4 f.md))
    | 0x5 => need (f.md / 16 == 0) (.barSync (BitVec.ofNat 4 f.md))
    | 0x6 => need (f.md == 0) .yield
    | 0x8 => need (f.md / 8 == 0 && decide (f.md < b.queues.length)) (.qPut (BitVec.ofNat 3 f.md) f.a)
    | 0x9 => need (f.md / 8 == 0 && decide (f.md < b.queues.length)) (.qGet (BitVec.ofNat 3 f.md) f.d)
    | _ => none
  else none

def buildR (b : Budget) (op : Nat) (f : RF) : Option Instr :=
  match op / 16 with
  | 0 => buildR0 (op % 16) f
  | 1 => buildR1 (op % 16) f
  | 2 => buildR2 (op % 16) f
  | 3 => buildR3 (op % 16) f
  | 4 => buildR4 (op % 16) f
  | 5 => buildR5 (op % 16) f
  | 6 => buildR6 b (op % 16) f
  | 7 => buildR7 (op % 16) f
  | 8 => buildR8 b (op % 16) f
  | _ => none

/-- I forms of the scalar instructions, which take TSEL b32 where they take no type suffix (R249). -/
def buildIS (op : Nat) (ts : Tsel) (d a : Opnd) (dyn : Bool) (imm : Word) : Option Instr :=
  match op with
  | 0x01 => need (ts == .b32) (.sAddI d a imm)
  | 0x02 => need (ts == .b32) (.sSubI d a imm)
  | 0x03 => need (ts == .b32) (.sMulI d a imm)
  | 0x04 => need ([Tsel.s32, .n32].contains ts) (.sMulhI ts d a imm)
  | 0x06 => need (ts == .b32) (.sAndI d a imm)
  | 0x07 => need (ts == .b32) (.sOrI d a imm)
  | 0x08 => need (ts == .b32) (.sXorI d a imm)
  | 0x0a => need (ts == .b32) (.sShlI d a imm)
  | 0x0b => need (ts == .b32) (.sShrI d a imm)
  | 0x0c => need (ts == .b32) (.sSarI d a imm)
  | 0x0d => need ([Tsel.s32, .n32].contains ts) (.sMinI ts d a imm)
  | 0x0e => need ([Tsel.s32, .n32].contains ts) (.sMaxI ts d a imm)
  | 0x12 => some (.sMovi ts d imm)
  | 0x19 => need (ts == .b32) (.sAddcI d a imm)
  | 0x1a => need (ts == .f32) (.sFaddI dyn d a imm)
  | 0x1b => need (ts == .f32) (.sFmulI dyn d a imm)
  | _ => none

/-- I forms of the vector instructions. -/
def buildIV (op : Nat) (ts : Tsel) (d a : Opnd) (dyn : Bool) (imm : Word) : Option Instr :=
  match op with
  | 0x20 => need (ts != .f32) (.addI ts d a imm)
  | 0x21 => need (ts != .f32) (.subI ts d a imm)
  | 0x22 => need (ts != .f32) (.mulI ts d a imm)
  | 0x23 => need ([Tsel.s32, .n32].contains ts) (.mulhI ts d a imm)
  | 0x25 => need (ts != .f32) (.andI ts d a imm)
  | 0x26 => need (ts != .f32) (.orI ts d a imm)
  | 0x27 => need (ts != .f32) (.xorI ts d a imm)
  | 0x29 => need (ts != .f32) (.shlI ts d a imm)
  | 0x2a => need (ts != .f32) (.shrI ts d a imm)
  | 0x2b => need (ts != .f32) (.sarI ts d a imm)
  | 0x2c => need ([Tsel.s32, .n32].contains ts) (.minI ts d a imm)
  | 0x2d => need ([Tsel.s32, .n32].contains ts) (.maxI ts d a imm)
  | 0x35 => some (.movI ts d imm)
  | 0x39 => need ([Tsel.b32, .n32].contains ts) (.addcI ts d a imm)
  | 0x40 => need (ts == .f32) (.faddI dyn d a imm)
  | 0x41 => need (ts == .f32) (.fsubI dyn d a imm)
  | 0x42 => need (ts == .f32) (.fmulI dyn d a imm)
  | 0x44 => need (ts == .f32) (.fminI dyn d a imm)
  | 0x45 => need (ts == .f32) (.fmaxI dyn d a imm)
  | _ => none

def buildB (op kind : Nat) (c : Opnd) (off : Word) : Option Instr :=
  if kind = 0 then
    match op with
    | 0x79 => some (.br off)
    | 0x7a => some (.bz c off)
    | 0x7b => some (.bnz c off)
    | 0x7c => some (.bexz c off)
    | 0x7d => some (.brs c off)
    | 0x7e => some (.brsSift c off)
    | 0x7f => some .join
    | 0x80 => some (.call c off)
    | 0x81 => some (.ret c)
    | 0x82 => some .exit
    | _ => none
  else none

/-- WIDTH 2 or 3 of an atomic (R285): a 32-bit or a 64-bit location. -/
def atomWide (width : Nat) : Option Bool := if width = 2 then some false else if width = 3 then some true else none

def buildM (op spc width : Nat) (data base idx : Opnd) (imm ord : Nat) : Option Instr :=
  let i16 : BitVec 16 := BitVec.ofNat 16 imm
  let plain : Bool := spc == 0 && width == 0 && ord == 0
  match op with
  | 0x17 => (Space.ofCode spc).bind fun sq => (MWidth.ofCode width).bind fun w => (Ordf.ofCode ord).bind fun o =>
      need (ldOk sq w) (.sLd sq w data base idx i16 o)
  | 0x18 => (Space.ofCode spc).bind fun sq => (MWidth.ofCode width).bind fun w => (Ordf.ofCode ord).bind fun o =>
      need (stOk sq w) (.sSt sq w data base idx i16 o)
  | 0x90 => (Space.ofCode spc).bind fun sq => (MWidth.ofCode width).bind fun w => (Ordf.ofCode ord).bind fun o =>
      need (ldOk sq w) (.ld sq w data base idx i16 o)
  | 0x91 => (Space.ofCode spc).bind fun sq => (MWidth.ofCode width).bind fun w => (Ordf.ofCode ord).bind fun o =>
      need (stOk sq w) (.st sq w data base idx i16 o)
  | 0x92 => (Space.ofCode spc).bind fun sq => (atomWide width).bind fun w => (Ordf.ofCode ord).bind fun o =>
      (AOp.ofCode (imm % 16)).bind fun aop => (AKind.ofCode (imm / 16 % 4)).bind fun k =>
      let sgn := imm / 64 % 2 == 1
      need (atomOk sq && (!sgn || aop == .min || aop == .max) && k.okFor o) (.atom sq w aop sgn data base idx k o)
  | 0x93 => (Space.ofCode spc).bind fun sq => (atomWide width).bind fun w => (Ordf.ofCode ord).bind fun o =>
      (AKind.ofCode (imm / 16 % 4)).bind fun k =>
      need (atomOk sq && k.okFor o && imm % 16 == 0 && imm / 64 % 2 == 0) (.atomCas sq w data base idx k o)
  | 0x94 => if spc = 0 && 8 ≤ ord then (FKind.ofCode width).bind fun k => (Scope.ofCode (ord - 8)).map (.fence k ·)
      else none
  | 0x95 => need plain (.wb data base i16)
  | 0x96 => need plain (.inv data base i16)
  | 0x97 => (Space.ofCode spc).bind fun sq =>
      if gaugeOk sq && ord = 0 then
        if width = 0 then some (.gaugeSet sq data base idx i16)
        else if width = 1 then some (.gaugeSetOff sq base idx i16) else none
      else none
  | 0x98 => (Space.ofCode spc).bind fun sq => need (gaugeOk sq && width == 0 && ord == 0) (.gaugeWait sq data base idx i16)
  | 0x99 => (Space.ofCode spc).bind fun sq => need (gaugeOk sq && width == 0 && ord == 0) (.gaugeAdd sq data base idx i16)
  | 0x9a => need plain (.clJoin data base)
  | 0x9b => need plain .clLeave
  | 0x9c => need plain (.push data (BitVec.ofNat 4 imm))
  | 0x9d => need plain (.pop data (BitVec.ofNat 4 imm))
  | 0x9e => (Ordf.ofCode ord).bind fun o => need (spc == 0 && width == 0 && o.unqualified) (.pfetch base idx i16 o)
  | _ => none

/-- J forms 0x87 and 0xb0 to 0xbf (R282, R304). -/
def buildJ1 (op sub : Nat) (d a b : Opnd) (md : Nat) : Option Instr :=
  let z : Bool := sub == 0 && md == 0
  let slot : Byte := BitVec.ofNat 8 md
  match op with
  | 0x87 => need z (.launch d a)
  | 0xb0 => need z (.cpy d a)
  | 0xb1 => need z (.cpym d a)
  | 0xb2 => need z (.fill d a)
  | 0xb3 => need z (.rowcpy d a)
  | 0xb4 => need z (.htest d a)
  | 0xb5 => need z (.hcancel a)
  | 0xb6 => if md = 0 then (HSpace.ofCode sub).map (.hst · a b) else none
  | 0xb7 => if md = 0 then (HSpace.ofCode sub).map (.hld · d a) else none
  | 0xb8 => need z (.mma a)
  | 0xb9 => need z (.mmaG a)
  | 0xba => need (sub == 0 && decide (md < 2)) (.mzero (md == 1))
  | 0xbb => need (decide (sub < 4)) (.mstore (sub / 2 == 1) (sub % 2 == 1) d a slot)
  | 0xbc => need (sub == 0 && decide (md < 2)) (.mrd (md == 1) d a)
  | 0xbd => need (sub == 0) (.assaySet a slot)
  | 0xbe => need (sub == 0) (.assayGet d slot)
  | 0xbf => need (sub == 0) (.assayInv slot)
  | _ => none

/-- J forms 0xd0 to 0xe9 (R315, R422). -/
def buildJ2 (op sub : Nat) (d a b c : Opnd) (md : Nat) : Option Instr :=
  let z : Bool := sub == 0 && md == 0
  let n4 : BitVec 4 := BitVec.ofNat 4 md
  let small : Bool := sub == 0 && decide (md < 16)
  match op with
  | 0xd0 => need (sub == 0) (.trap (BitVec.ofNat 8 md))
  | 0xd1 => need z .rti
  | 0xd2 => if sub = 0 then (CReg.ofCode md).map (.ctlRd d ·) else none
  | 0xd3 => if sub = 0 then (CReg.ofCode md).map (.ctlWr · a) else none
  | 0xd4 => need (sub == 0 && decide (md ≤ 2)) (.meterRd d md)
  | 0xd5 => need z (.slBind d a)
  | 0xd6 => need small (.slUnbind d n4)
  | 0xd7 => need small (.slStat d n4)
  | 0xd8 => if md = 0 then (if sub = 0 then some (.stamp a) else need (sub == 1) (.stampSync a)) else none
  | 0xe0 => need small (.wpSet d n4 a b)
  | 0xe1 => need small (.wpClr d n4 b)
  | 0xe2 => need small (.wpRd d n4 b)
  | 0xe3 => need z (.dbgHalt b)
  | 0xe4 => if sub = 0 then (if md = 0 then some (.dbgRun b) else need (md == 1) (.dbgRunUnpark b)) else none
  | 0xe5 => if md = 0 then (if sub = 0 then some (.dbgStep b c) else need (sub == 1) (.dbgStepLane b c)) else none
  | 0xe6 => need z (.dbgRd d a b c)
  | 0xe7 => need z (.dbgWr d a b c)
  | 0xe8 => need z (.dbgList d a c)
  | 0xe9 => need z .brk
  | _ => none

/-- Check 4 of R223: the instruction whose values the fields spell. -/
def Raw.build (bud : Budget) : Raw → Option Instr
  | .rF op ty dst a b c md _ =>
      buildR bud op { ty := ty, d := Opnd.ofCode dst, a := Opnd.ofCode a, b := Opnd.ofCode b, c := Opnd.ofCode c,
                      md := md, bn := b }
  | .iF op tsel dst a m imm =>
      (if op < 0x20 then buildIS else buildIV) op (Tsel.ofCode tsel) (Opnd.ofCode dst) (Opnd.ofCode a) (m == 1)
        (BitVec.ofNat 32 imm)
  | .bF op kind cond _ off => buildB op kind (Opnd.ofCode cond) (BitVec.ofNat 32 off)
  | .mF op spc width data base idx imm ord =>
      buildM op spc width (Opnd.ofCode data) (Opnd.ofCode base) (Opnd.ofCode idx) imm ord
  | .jF op sub dst a b c md _ =>
      if op < 0xd0 then buildJ1 op sub (Opnd.ofCode dst) (Opnd.ofCode a) (Opnd.ofCode b) md
      else buildJ2 op sub (Opnd.ofCode dst) (Opnd.ofCode a) (Opnd.ofCode b) (Opnd.ofCode c) md

/-! ### Check 5 of R223: the operand fields -/

/-- An operand field holds a reserved value; B of `sift` is a number (R270). -/
def Raw.reserved : Raw → Bool
  | .rF op _ dst a b c _ _ =>
      op != 0 && (Opnd.reserved dst || Opnd.reserved a || (op != 0x65 && Opnd.reserved b) || Opnd.reserved c)
  | .iF _ _ dst a _ _ => Opnd.reserved dst || Opnd.reserved a
  | .bF _ _ cond _ _ => Opnd.reserved cond
  | .mF _ _ _ data base idx _ _ => Opnd.reserved data || Opnd.reserved base || Opnd.reserved idx
  | .jF _ _ dst a b c _ _ => Opnd.reserved dst || Opnd.reserved a || Opnd.reserved b || Opnd.reserved c

/-- The operands that the entry accepts (R217). -/
def operandsOk (b : Budget) (i : Instr) : Bool := WellFormed b i

/-! ### Decoding a word -/

/-- Why a word is not an instruction: an unassigned opcode (R222), or the number of the failed check (R376). -/
inductive DecodeErr where
  | opcode (op : Nat)
  | encoding (check : Nat)
  deriving DecidableEq, Repr

/-- Checks 3 to 5 of R223. -/
def Raw.decode (b : Budget) (r : Raw) : Except DecodeErr Instr :=
  if r.unusedOk then
    match r.build b with
    | none => .error (.encoding 4)
    | some i => if !r.reserved && operandsOk b i then .ok i else .error (.encoding 5)
  else .error (.encoding 3)

/-- The instruction a word spells in a clause of class `k`, for a role with budgets `b` (R222, R223). -/
def decodeWord (b : Budget) (k w : Nat) : Except DecodeErr Instr :=
  let op := fld w 63 56
  match opFmt op with
  | none => .error (.opcode op)
  | some f =>
      let ibit := fld w 55 55 == 1
      let formOk := match f with
        | .r => !ibit || iForms.contains op
        | .i => ibit
        | _ => true
      if formOk && (opClass op == k || opClass op == 0) then
        ((if f == .r && ibit then Fmt.i else f).split w).decode b
      else .error (.encoding 2)

/-! ### Sluice words -/

/-- The second operand of an ALU instruction is a register when imm[14] is 0 (R156). -/
def aluImm (i : Nat) : Bool := decide (2 ^ 14 ≤ i)

/-- The instruction of a sluice word, or none where R159 refuses it: an op above 24, or an unused field that is
not zero. -/
def decodeSluice (w : Nat) : Option Instr :=
  let op := fld w 31 27
  let dn := fld w 26 23
  let an := fld w 22 19
  let bn := fld w 18 15
  let i := fld w 14 0
  let d : BitVec 4 := BitVec.ofNat 4 dn
  let a : BitVec 4 := BitVec.ofNat 4 an
  let b : BitVec 4 := BitVec.ofNat 4 bn
  let n : BitVec 15 := BitVec.ofNat 15 i
  let m : BitVec 14 := BitVec.ofNat 14 i
  let zd := dn == 0
  let za := an == 0
  let zb := bn == 0
  let zi := i == 0
  let alu (r : BitVec 4 → BitVec 4 → BitVec 4 → Instr) (im : BitVec 4 → BitVec 4 → BitVec 14 → Instr) : Option Instr :=
    if aluImm i then need zb (im d a m) else need zi (r d a b)
  match op with
  | 0 => need (zd && za && zb && zi) .sluiceEnd
  | 1 => need (zd && za && zb && zi) .sluiceFail
  | 2 => need (za && zb && zi) (.sluiceGet d)
  | 3 => need (za && zb) (.sluicePeek d n)
  | 4 => need (za && zb && zi) (.sluiceGetw d)
  | 5 => need (zd && zb && zi) (.sluicePut a)
  | 6 => need (zd && zb && zi) (.sluicePutw a)
  | 7 => need (zd && zi) (.sluicePutn a b)
  | 8 => if i = 0 then need (zd && za) (.sluiceCopy b) else need (zd && i == 1) (.sluiceCopyBack a b)
  | 9 => need (za && zb) (.sluiceMovi d n)
  | 10 => need (zb && zi) (.sluiceMov d a)
  | 11 => alu .sluiceAdd .sluiceAddImm
  | 12 => alu .sluiceSub .sluiceSubImm
  | 13 => alu .sluiceAnd .sluiceAndImm
  | 14 => alu .sluiceOr .sluiceOrImm
  | 15 => alu .sluiceXor .sluiceXorImm
  | 16 => alu .sluiceShl .sluiceShlImm
  | 17 => alu .sluiceShr .sluiceShrImm
  | 18 => need zd (.sluiceBeq a b n)
  | 19 => need zd (.sluiceBne a b n)
  | 20 => need zd (.sluiceBlt a b n)
  | 21 => need (zd && za && zb) (.sluiceBeof n)
  | 22 => need (zd && za && zb) (.sluiceJmp n)
  | 23 => need (za && zb) (.sluiceLoop d n)
  | 24 => need (zb && zi) (.sluiceTbl d a)
  | _ => none

/-! ### The encoder -/

/-- An R word with every reserved bit zero. -/
def Raw.ofR (op ty : Nat) (d a b c : Opnd) (md : Nat) : Raw := .rF op ty d.code a.code b.code c.code md 0
/-- An R word of a scalar instruction without a type suffix (R249). -/
def Raw.ofP (op : Nat) (pr : Bool) (d a b c : Opnd) : Raw := .ofR op (if pr then 11 else 0) d a b c 0
def Raw.ofI (op : Nat) (ts : Tsel) (d a : Opnd) (dyn : Bool) (imm : Word) : Raw :=
  .iF op ts.code d.code a.code dyn.toNat imm.toNat
def Raw.ofB (op : Nat) (c : Opnd) (off : Word) : Raw := .bF op 0 c.code 0 off.toNat
def Raw.ofM (op spc width : Nat) (data base idx : Opnd) (imm ord : Nat) : Raw :=
  .mF op spc width data.code base.code idx.code imm ord
def Raw.ofJ (op sub : Nat) (d a b c : Opnd) (md : Nat) : Raw := .jF op sub d.code a.code b.code c.code md 0

/-- The number that `sift` carries in place of B (R270). -/
def Raw.ofSift (home : Bool) (a : Opnd) (n : Nat) : Raw := .rF 0x65 0 0x3ff a.code n 0x3ff home.toNat 0

/-- The fields of an instruction of the groups, and none for a sluice instruction or a step without an
encoding. -/
def Instr.raw : Instr → Option Raw
  | .nop => some (.rF 0 0 0 0 0 0 0 0)
  | .sAdd pr d a b => some (.ofP 0x1 pr d a b .none)
  | .sAddI d a imm => some (.ofI 0x1 .b32 d a false imm)
  | .sSub pr d a b => some (.ofP 0x2 pr d a b .none)
  | .sSubI d a imm => some (.ofI 0x2 .b32 d a false imm)
  | .sMul pr d a b => some (.ofP 0x3 pr d a b .none)
  | .sMulI d a imm => some (.ofI 0x3 .b32 d a false imm)
  | .sAnd pr d a b => some (.ofP 0x6 pr d a b .none)
  | .sAndI d a imm => some (.ofI 0x6 .b32 d a false imm)
  | .sOr pr d a b => some (.ofP 0x7 pr d a b .none)
  | .sOrI d a imm => some (.ofI 0x7 .b32 d a false imm)
  | .sXor pr d a b => some (.ofP 0x8 pr d a b .none)
  | .sXorI d a imm => some (.ofI 0x8 .b32 d a false imm)
  | .sShl pr d a b => some (.ofP 0xa pr d a b .none)
  | .sShlI d a imm => some (.ofI 0xa .b32 d a false imm)
  | .sShr pr d a b => some (.ofP 0xb pr d a b .none)
  | .sShrI d a imm => some (.ofI 0xb .b32 d a false imm)
  | .sSar pr d a b => some (.ofP 0xc pr d a b .none)
  | .sSarI d a imm => some (.ofI 0xc .b32 d a false imm)
  | .sMulh ty d a b => some (.ofR 0x4 ty.code d a b .none 0)
  | .sMulhI ts d a imm => some (.ofI 0x4 ts d a false imm)
  | .sMad d a b c => some (.ofR 0x5 0 d a b c 0)
  | .sNot pr d a => some (.ofP 0x9 pr d a .none .none)
  | .sMin ty d a b => some (.ofR 0xd ty.code d a b .none 0)
  | .sMinI ts d a imm => some (.ofI 0xd ts d a false imm)
  | .sMax ty d a b => some (.ofR 0xe ty.code d a b .none 0)
  | .sMaxI ts d a imm => some (.ofI 0xe ts d a false imm)
  | .sCmp ty cc d a b => some (.ofR 0xf ty.code d a b .none cc.code)
  | .sSel pr d a b c => some (.ofP 0x10 pr d a b c)
  | .sMov pr d a => some (.ofP 0x11 pr d a .none .none)
  | .sMovi ts d imm => some (.ofI 0x12 ts d .none false imm)
  | .sBfe ty d a b => some (.ofR 0x13 ty.code d a b .none 0)
  | .sBfi d a b c => some (.ofR 0x14 0 d a b c 0)
  | .sPopc d a => some (.ofR 0x15 0 d a .none .none 0)
  | .sClz d a => some (.ofR 0x16 0 d a .none .none 0)
  | .sLd spc w data base idx imm o => some (.ofM 0x17 spc.code w.code data base idx imm.toNat o.code)
  | .sSt spc w data base idx imm o => some (.ofM 0x18 spc.code w.code data base idx imm.toNat o.code)
  | .sAddc co d a b c => some (.ofR 0x19 0 d a b c co.toNat)
  | .sAddcI d a imm => some (.ofI 0x19 .b32 d a false imm)
  | .sFadd m d a b => some (.ofR 0x1a 3 d a b .none (32 * m.code))
  | .sFaddI dyn d a imm => some (.ofI 0x1a .f32 d a dyn imm)
  | .sFmul m d a b => some (.ofR 0x1b 3 d a b .none (32 * m.code))
  | .sFmulI dyn d a imm => some (.ofI 0x1b .f32 d a dyn imm)
  | .sFma m d a b c => some (.ofR 0x1c 3 d a b c (32 * m.code))
  | .sCvt ty m cv d a => some (.ofR 0x1d ty.code d a .none .none (32 * m.code + cv.code))
  | .sGetl d a b => some (.ofR 0x1e 0 d a b .none 0)
  | .add ty sat d a b => some (.ofR 0x20 ty.code d a b .none sat.toNat)
  | .addI ts d a imm => some (.ofI 0x20 ts d a false imm)
  | .sub ty sat d a b => some (.ofR 0x21 ty.code d a b .none sat.toNat)
  | .subI ts d a imm => some (.ofI 0x21 ts d a false imm)
  | .mul ty d a b => some (.ofR 0x22 ty.code d a b .none 0)
  | .mulI ts d a imm => some (.ofI 0x22 ts d a false imm)
  | .mulh ty d a b => some (.ofR 0x23 ty.code d a b .none 0)
  | .mulhI ts d a imm => some (.ofI 0x23 ts d a false imm)
  | .and ty d a b => some (.ofR 0x25 ty.code d a b .none 0)
  | .andI ts d a imm => some (.ofI 0x25 ts d a false imm)
  | .or ty d a b => some (.ofR 0x26 ty.code d a b .none 0)
  | .orI ts d a imm => some (.ofI 0x26 ts d a false imm)
  | .xor ty d a b => some (.ofR 0x27 ty.code d a b .none 0)
  | .xorI ts d a imm => some (.ofI 0x27 ts d a false imm)
  | .shl ty d a b => some (.ofR 0x29 ty.code d a b .none 0)
  | .shlI ts d a imm => some (.ofI 0x29 ts d a false imm)
  | .shr ty d a b => some (.ofR 0x2a ty.code d a b .none 0)
  | .shrI ts d a imm => some (.ofI 0x2a ts d a false imm)
  | .sar ty d a b => some (.ofR 0x2b ty.code d a b .none 0)
  | .sarI ts d a imm => some (.ofI 0x2b ts d a false imm)
  | .min ty d a b => some (.ofR 0x2c ty.code d a b .none 0)
  | .minI ts d a imm => some (.ofI 0x2c ts d a false imm)
  | .max ty d a b => some (.ofR 0x2d ty.code d a b .none 0)
  | .maxI ts d a imm => some (.ofI 0x2d ts d a false imm)
  | .mad ty d a b c => some (.ofR 0x24 ty.code d a b c 0)
  | .not ty d a => some (.ofR 0x28 ty.code d a .none .none 0)
  | .abs ty d a => some (.ofR 0x2e ty.code d a .none .none 0)
  | .bfe ty d a b => some (.ofR 0x2f ty.code d a b .none 0)
  | .bfi d a b c => some (.ofR 0x30 0 d a b c 0)
  | .popc d a => some (.ofR 0x31 0 d a .none .none 0)
  | .clz d a => some (.ofR 0x32 0 d a .none .none 0)
  | .cmp ty cc d a b => some (.ofR 0x33 ty.code d a b .none cc.code)
  | .sel ty d a b c => some (.ofR 0x34 ty.code d a b c 0)
  | .mov ty d a => some (.ofR 0x35 ty.code d a .none .none 0)
  | .movI ts d imm => some (.ofI 0x35 ts d .none false imm)
  | .movx a b => some (.ofR 0x36 0 .none a b .none 0)
  | .putl d a b => some (.ofR 0x37 0 d a b .none 0)
  | .shape d a => some (.ofR 0x38 0 d a .none .none 0)
  | .addc ty co d a b c => some (.ofR 0x39 ty.code d a b c co.toNat)
  | .addcI ts d a imm => some (.ofI 0x39 ts d a false imm)
  | .lsel hi lo d a b c => some (.ofR 0x3a 0 d a b c (16 * hi.toNat + lo.toNat))
  | .prmt d a b c => some (.ofR 0x3b 0 d a b c 0)
  | .fadd ty m d a b => some (.ofR 0x40 ty.code d a b .none (32 * m.code))
  | .faddI dyn d a imm => some (.ofI 0x40 .f32 d a dyn imm)
  | .fsub ty m d a b => some (.ofR 0x41 ty.code d a b .none (32 * m.code))
  | .fsubI dyn d a imm => some (.ofI 0x41 .f32 d a dyn imm)
  | .fmul ty m d a b => some (.ofR 0x42 ty.code d a b .none (32 * m.code))
  | .fmulI dyn d a imm => some (.ofI 0x42 .f32 d a dyn imm)
  | .fma ty m d a b c => some (.ofR 0x43 ty.code d a b c (32 * m.code))
  | .fmin ty d a b => some (.ofR 0x44 ty.code d a b .none 0)
  | .fminI dyn d a imm => some (.ofI 0x44 .f32 d a dyn imm)
  | .fmax ty d a b => some (.ofR 0x45 ty.code d a b .none 0)
  | .fmaxI dyn d a imm => some (.ofI 0x45 .f32 d a dyn imm)
  | .fcmp ty cc d a b => some (.ofR 0x46 ty.code d a b .none cc.code)
  | .frcpSeed d a => some (.ofR 0x47 3 d a .none .none 0)
  | .frsqSeed d a => some (.ofR 0x48 3 d a .none .none 0)
  | .fexp2 d a => some (.ofR 0x4a 3 d a .none .none 0)
  | .flog2 d a => some (.ofR 0x4b 3 d a .none .none 0)
  | .fsin d a => some (.ofR 0x4c 3 d a .none .none 0)
  | .fcos d a => some (.ofR 0x4d 3 d a .none .none 0)
  | .fclass d a => some (.ofR 0x4f 3 d a .none .none 0)
  | .fexpo d a => some (.ofR 0x51 3 d a .none .none 0)
  | .fsqrt m d a => some (.ofR 0x49 3 d a .none .none (32 * m.code))
  | .frnd ty m d a => some (.ofR 0x4e ty.code d a .none .none (32 * m.code))
  | .fscale m d a b => some (.ofR 0x50 3 d a b .none (32 * m.code))
  | .cvt ty m cv d a b => some (.ofR 0x52 ty.code d a b .none (32 * m.code + cv.code))
  | .bpack d a => some (.ofR 0x53 0 d a .none .none 0)
  | .bunpack n d a => some (.ofR 0x54 1 d a .none .none n)
  | .fdot2 m f16 d a b c => some (.ofR 0x55 3 d a b c (32 * m.code + f16.toNat))
  | .shfl md w wide d a b c => some (.ofR 0x60 (if wide then 11 else 0) d a b c (32 * w.code + md.code))
  | .vote md w d a c => some (.ofR 0x61 0 d a .none c (32 * w.code + md.code))
  | .red op w ty d a c => some (.ofR 0x62 ty.code d a .none c (32 * w.code + op.code))
  | .scan op excl w ty d a c => some (.ofR 0x63 ty.code d a .none c (32 * w.code + 16 * excl.toNat + op.code))
  | .matchOp w wide d a c => some (.ofR 0x64 (if wide then 11 else 0) d a .none c (32 * w.code))
  | .sift home a n => some (.ofSift home a n)
  | .cmpct w d a b c => some (.ofR 0x66 0 d a b c (32 * w.code))
  | .execGet d => some (.ofR 0x70 0 d .none .none .none 0)
  | .execSet a => some (.ofR 0x71 0 .none a .none .none 0)
  | .execAnd a => some (.ofR 0x72 0 .none a .none .none 0)
  | .execAndn a => some (.ofR 0x73 0 .none a .none .none 0)
  | .mAnd d a b => some (.ofR 0x74 0 d a b .none 0)
  | .mOr d a b => some (.ofR 0x75 0 d a b .none 0)
  | .mXor d a b => some (.ofR 0x76 0 d a b .none 0)
  | .mNot d a => some (.ofR 0x77 0 d a .none .none 0)
  | .mFfs d a => some (.ofR 0x78 0 d a .none .none 0)
  | .br off => some (.ofB 0x79 .none off)
  | .bz c off => some (.ofB 0x7a c off)
  | .bnz c off => some (.ofB 0x7b c off)
  | .bexz c off => some (.ofB 0x7c c off)
  | .brs c off => some (.ofB 0x7d c off)
  | .brsSift c off => some (.ofB 0x7e c off)
  | .join => some (.ofB 0x7f .none 0)
  | .call l off => some (.ofB 0x80 l off)
  | .ret l => some (.ofB 0x81 l 0)
  | .exit => some (.ofB 0x82 .none 0)
  | .barArr n => some (.ofR 0x83 0 .none .none .none .none n.toNat)
  | .barWait n => some (.ofR 0x84 0 .none .none .none .none n.toNat)
  | .barSync n => some (.ofR 0x85 0 .none .none .none .none n.toNat)
  | .yield => some (.ofR 0x86 0 .none .none .none .none 0)
  | .launch d a => some (.ofJ 0x87 0 d a .none .none 0)
  | .qPut q a => some (.ofR 0x88 0 .none a .none .none q.toNat)
  | .qGet q d => some (.ofR 0x89 0 d .none .none .none q.toNat)
  | .ld spc w data base idx imm o => some (.ofM 0x90 spc.code w.code data base idx imm.toNat o.code)
  | .st spc w data base idx imm o => some (.ofM 0x91 spc.code w.code data base idx imm.toNat o.code)
  | .atom spc wide op sgn data base idx k o => some (.ofM 0x92 spc.code (2 + wide.toNat) data base idx (64 * sgn.toNat + 16 * k.code + op.code) o.code)
  | .atomCas spc wide data base idx k o => some (.ofM 0x93 spc.code (2 + wide.toNat) data base idx (16 * k.code) o.code)
  | .fence k sc => some (.ofM 0x94 0 k.code .none .none .none 0 (8 + sc.code))
  | .wb len base imm => some (.ofM 0x95 0 0 len base .none imm.toNat 0)
  | .inv len base imm => some (.ofM 0x96 0 0 len base .none imm.toNat 0)
  | .gaugeSet spc t base idx imm => some (.ofM 0x97 spc.code 0 t base idx imm.toNat 0)
  | .gaugeSetOff spc base idx imm => some (.ofM 0x97 spc.code 1 .none base idx imm.toNat 0)
  | .gaugeWait spc w base idx imm => some (.ofM 0x98 spc.code 0 w base idx imm.toNat 0)
  | .gaugeAdd spc n base idx imm => some (.ofM 0x99 spc.code 0 n base idx imm.toNat 0)
  | .clJoin d k => some (.ofM 0x9a 0 0 d k .none 0 0)
  | .clLeave => some (.ofM 0x9b 0 0 .none .none .none 0 0)
  | .push a nm1 => some (.ofM 0x9c 0 0 a .none .none nm1.toNat 0)
  | .pop d nm1 => some (.ofM 0x9d 0 0 d .none .none nm1.toNat 0)
  | .pfetch base idx imm o => some (.ofM 0x9e 0 0 .none base idx imm.toNat o.code)
  | .cpy d a => some (.ofJ 0xb0 0 d a .none .none 0)
  | .cpym d a => some (.ofJ 0xb1 0 d a .none .none 0)
  | .fill d a => some (.ofJ 0xb2 0 d a .none .none 0)
  | .rowcpy d a => some (.ofJ 0xb3 0 d a .none .none 0)
  | .htest d a => some (.ofJ 0xb4 0 d a .none .none 0)
  | .hcancel a => some (.ofJ 0xb5 0 .none a .none .none 0)
  | .hst spc a b => some (.ofJ 0xb6 spc.code .none a b .none 0)
  | .hld spc d a => some (.ofJ 0xb7 spc.code d a .none .none 0)
  | .mma a => some (.ofJ 0xb8 0 .none a .none .none 0)
  | .mmaG a => some (.ofJ 0xb9 0 .none a .none .none 0)
  | .mzero t => some (.ofJ 0xba 0 .none .none .none .none t.toNat)
  | .mstore smp t d a slot => some (.ofJ 0xbb (2 * smp.toNat + t.toNat) d a .none .none slot.toNat)
  | .mrd t d a => some (.ofJ 0xbc 0 d a .none .none t.toNat)
  | .assaySet a slot => some (.ofJ 0xbd 0 .none a .none .none slot.toNat)
  | .assayGet d slot => some (.ofJ 0xbe 0 d .none .none .none slot.toNat)
  | .assayInv slot => some (.ofJ 0xbf 0 .none .none .none .none slot.toNat)
  | .trap n => some (.ofJ 0xd0 0 .none .none .none .none n.toNat)
  | .rti => some (.ofJ 0xd1 0 .none .none .none .none 0)
  | .ctlRd d r => some (.ofJ 0xd2 0 d .none .none .none r.code)
  | .ctlWr r a => some (.ofJ 0xd3 0 .none a .none .none r.code)
  | .meterRd d n => some (.ofJ 0xd4 0 d .none .none .none n)
  | .slBind d a => some (.ofJ 0xd5 0 d a .none .none 0)
  | .slUnbind d n => some (.ofJ 0xd6 0 d .none .none .none n.toNat)
  | .slStat d n => some (.ofJ 0xd7 0 d .none .none .none n.toNat)
  | .stamp a => some (.ofJ 0xd8 0 .none a .none .none 0)
  | .stampSync a => some (.ofJ 0xd8 1 .none a .none .none 0)
  | .wpSet d n a b => some (.ofJ 0xe0 0 d a b .none n.toNat)
  | .wpClr d n b => some (.ofJ 0xe1 0 d .none b .none n.toNat)
  | .wpRd d n b => some (.ofJ 0xe2 0 d .none b .none n.toNat)
  | .dbgHalt b => some (.ofJ 0xe3 0 .none .none b .none 0)
  | .dbgRun b => some (.ofJ 0xe4 0 .none .none b .none 0)
  | .dbgRunUnpark b => some (.ofJ 0xe4 0 .none .none b .none 1)
  | .dbgStep b c => some (.ofJ 0xe5 0 .none .none b c 0)
  | .dbgStepLane b c => some (.ofJ 0xe5 1 .none .none b c 0)
  | .dbgRd d a b c => some (.ofJ 0xe6 0 d a b c 0)
  | .dbgWr d a b c => some (.ofJ 0xe7 0 d a b c 0)
  | .dbgList d a c => some (.ofJ 0xe8 0 d a .none c 0)
  | .brk => some (.ofJ 0xe9 0 .none .none .none .none 0)
  | _ => none

/-- The 64-bit word of an instruction of the groups (R212 to R214). -/
def encode (i : Instr) : Option Dword := i.raw.map fun r => BitVec.ofNat 64 r.join

/-- A sluice word from its fields (R156). -/
def sluiceFields (op : Nat) (d a b : BitVec 4) (imm : Nat) : BitVec 32 :=
  BitVec.ofNat 32 (op * 2 ^ 27 + d.toNat * 2 ^ 23 + a.toNat * 2 ^ 19 + b.toNat * 2 ^ 15 + imm)

/-- The 32-bit word of a sluice instruction (R156), and none for any other step. -/
def encodeSluice : Instr → Option (BitVec 32)
  | .sluiceEnd => some (sluiceFields 0 0 0 0 0)
  | .sluiceFail => some (sluiceFields 1 0 0 0 0)
  | .sluiceGet d => some (sluiceFields 2 d 0 0 0)
  | .sluicePeek d n => some (sluiceFields 3 d 0 0 n.toNat)
  | .sluiceGetw d => some (sluiceFields 4 d 0 0 0)
  | .sluicePut a => some (sluiceFields 5 0 a 0 0)
  | .sluicePutw a => some (sluiceFields 6 0 a 0 0)
  | .sluicePutn a b => some (sluiceFields 7 0 a b 0)
  | .sluiceCopy b => some (sluiceFields 8 0 0 b 0)
  | .sluiceCopyBack a b => some (sluiceFields 8 0 a b 1)
  | .sluiceMovi d n => some (sluiceFields 9 d 0 0 n.toNat)
  | .sluiceMov d a => some (sluiceFields 10 d a 0 0)
  | .sluiceAdd d a b => some (sluiceFields 11 d a b 0)
  | .sluiceAddImm d a i => some (sluiceFields 11 d a 0 (2 ^ 14 + i.toNat))
  | .sluiceSub d a b => some (sluiceFields 12 d a b 0)
  | .sluiceSubImm d a i => some (sluiceFields 12 d a 0 (2 ^ 14 + i.toNat))
  | .sluiceAnd d a b => some (sluiceFields 13 d a b 0)
  | .sluiceAndImm d a i => some (sluiceFields 13 d a 0 (2 ^ 14 + i.toNat))
  | .sluiceOr d a b => some (sluiceFields 14 d a b 0)
  | .sluiceOrImm d a i => some (sluiceFields 14 d a 0 (2 ^ 14 + i.toNat))
  | .sluiceXor d a b => some (sluiceFields 15 d a b 0)
  | .sluiceXorImm d a i => some (sluiceFields 15 d a 0 (2 ^ 14 + i.toNat))
  | .sluiceShl d a b => some (sluiceFields 16 d a b 0)
  | .sluiceShlImm d a i => some (sluiceFields 16 d a 0 (2 ^ 14 + i.toNat))
  | .sluiceShr d a b => some (sluiceFields 17 d a b 0)
  | .sluiceShrImm d a i => some (sluiceFields 17 d a 0 (2 ^ 14 + i.toNat))
  | .sluiceBeq a b o => some (sluiceFields 18 0 a b o.toNat)
  | .sluiceBne a b o => some (sluiceFields 19 0 a b o.toNat)
  | .sluiceBlt a b o => some (sluiceFields 20 0 a b o.toNat)
  | .sluiceBeof o => some (sluiceFields 21 0 0 0 o.toNat)
  | .sluiceJmp o => some (sluiceFields 22 0 0 0 o.toNat)
  | .sluiceLoop d o => some (sluiceFields 23 d 0 0 o.toNat)
  | .sluiceTbl d a => some (sluiceFields 24 d a 0 0)
  | _ => none

/-- The instruction that a word numbered as the opcode table numbers it spells: 64 bits for an instruction of the
groups, decoded in a clause of its own class for a role with the largest budgets, and 32 bits for a sluice
instruction. -/
def decodeTableWord (nbits w : Nat) : Option Instr :=
  if nbits = 32 then decodeSluice (w % 2 ^ 32)
  else if nbits = 64 then
    match decodeWord .full (opClass (fld w 63 56)) (w % 2 ^ 64) with
    | .ok i => some i
    | .error _ => none
  else none

end Sys2Proof
end

