-- ==== Sys2Proof/Machine/State.lean ====
section
/-!
DEFINITION. Machine/State.lean: everything the manual gives the machine, as plain data: groups, teams, grids, virtual
devices, cores, engines, memory and the outside world's messages; the faults and refusals; the state after reset.
-/
namespace Sys2Proof.Machine

/-- A finite map from numbers, kept as a list with strictly rising keys; an absent key has the map's default. -/
abbrev SMap (α : Type) := List (Nat × α)

/-- Why the machine stops with a fault. -/
inductive Fault where
  /-- Raised by REFRESH, SCRUB_ROW, SPAN_INITIALISE, TEMPERATURE_READING, DROOP_EVENT, CORE_WITHDRAWAL, FLIT_REPLAY,
  PORT_RETRAIN and PORT_RETRAINING_END when they name storage, a core or a port the module does not have (R10, R16, R99):
  no such step exists; safe. -/
  | noSuchPlace
  deriving DecidableEq, Repr

/-- Why the machine gives a step no next state. -/
inductive Refusal where
  /-- Raised by the arms of `exec` for a row whose meaning is not written; safe. -/
  | notModelled (mnemonic : String)
  /-- Raised by a step that cannot be made in this state: an event whose condition does not hold, or an instruction of
  a slot or sluice run that stands nowhere; safe. -/
  | notEnabled
  deriving DecidableEq, Repr

/-! ### Registers and slots -/

/-- A shape tag (R51) with the data its stored form keeps. -/
inductive Tag where
  | general
  | uniform (u : Word)
  | affine (base stride : Word)
  | zero
  deriving DecidableEq, Repr

/-- A vector register: its tag and the value of each of its 32 lanes (R48, R51). -/
structure VReg where
  tag : Tag
  lanes : List Word
  deriving DecidableEq, Repr

/-- What a slot waits for at its instruction after releasing its port (R195, R382). -/
inductive Wait where
  | running
  | join
  | barrier (n : Nat) (arriving : Bool)
  | queue (q : Nat) (putting : Bool)
  | gauge
  | sift
  | branchSift
  | launch
  | jobIssue
  | pass
  | accept
  deriving DecidableEq, Repr

/-- Where a slot stands in its clause (R192 to R196). -/
inductive Stand where
  /-- Arrived at a branch target, whose word is checked under R210. -/
  | arrived
  /-- At a header reached in sequence. -/
  | header
  /-- In its clause, holding a port. -/
  | issuing
  /-- In its clause, without a port. -/
  | paused
  deriving DecidableEq, Repr

/-- A program-counter slot (R26) with the clause header under which it stands (R178, R195). -/
structure PcSlot where
  pc : Addr
  mask : Word
  hdr : Addr
  /-- The header word at `hdr`. -/
  head : Dword
  stand : Stand
  wait : Wait
  /-- The cycle from which its clause's age is counted (R193). -/
  since : Nat
  /-- The age has not begun, because of the yield hint (R196) or `yield` (R279). -/
  ageless : Bool
  /-- Its next instruction is the first since `dbg.run` released it (R429). -/
  calm : Bool
  /-- The handles that its clause's handle-wait waits for, once the clause is a candidate (R208). -/
  waits : Option (List Dword)
  deriving DecidableEq, Repr

/-- The kinds of group causes (R363); a cause of kind D is one of these (R414, R428). -/
inductive CauseKind where
  | trap | fault | sup
  deriving DecidableEq, Repr

/-- A cause (R363, R364) with what trap entry writes (R366). -/
structure Cause where
  code : Nat
  kind : CauseKind
  detail : Byte
  slot : SlotId
  pc : Addr
  next : Addr
  mask : Word
  dst : Word
  /-- The address that trap entry writes to TRAPADDR, where it writes it. -/
  addr : Option Dword
  /-- Per lane, what trap entry writes to v511 (R366). -/
  lanes : List Word
  deriving DecidableEq, Repr

/-- Where a byte is at home (R99, R125). -/
inductive Home where
  | main
  | shared (t : TRef)
  | scratch (vd die : Nat)
  /-- A page with F = 1, as a die caches it (R118). -/
  | peer (die : Nat)
  deriving DecidableEq, Repr

/-- A byte's place: its home, its address there and, in main memory, its virtual address. -/
structure Loc where
  home : Home
  addr : Nat
  va : Nat
  deriving DecidableEq, Repr

/-- One queued store of a group (R126). -/
structure QStore where
  cells : List (Loc × Byte)
  deriving DecidableEq, Repr

/-- A register write of an instruction that has issued and not completed (R62, R207). -/
inductive RegWrite where
  | vec (n : Nat) (mask : Word) (lanes : List Word) (tag : Tag)
  | sca (n : Nat) (val : Word)
  | hnd (n : Nat) (val : Dword)
  deriving DecidableEq, Repr

/-- An access or other event that canaries watch (R410). `lanes` gives each active lane's operand; `none` in `lane` is
the event of an instruction that acts once per issue. -/
structure Watch where
  src : Nat
  space : Nat
  lane : Option Nat
  x : Nat
  /-- The bytes of the piece that x was cut from. -/
  size : Nat
  deriving DecidableEq, Repr

/-- What completes an in-flight instruction (R207). -/
inductive Until where
  | now
  | pass (core : Nat) (serial : Nat)
  deriving DecidableEq, Repr

/-- A slot of a core's canary bank (R409, R423). -/
structure Canary where
  word : BitVec 128
  hits : Word
  vd : Nat
  team : Option TRef
  /-- When its `wp.set` completed: it applies to instructions that issue after that (R423). -/
  since : Nat
  /-- The mark of the `wp.set` that places it, while that has not completed (R423). -/
  placing : Option Nat
  deriving DecidableEq, Repr

/-- A long-latency instruction in flight. -/
structure InFlight where
  slot : SlotId
  flag : Option Nat
  pc : Addr
  next : Addr
  mask : Word
  dst : Word
  writes : List RegWrite
  /-- Floating-point flags of each lane (R90), and FPC.TE at its issue (R320). -/
  fp : List (BitVec 5)
  te : BitVec 5
  /-- Lanes that its completion adds to team count 2 (R321). -/
  lanes : Nat
  /-- Bits that its completion ORs into STS (R69). -/
  sts : Word
  /-- Events of source 3, evaluated at completion (R411). -/
  loads : List Watch
  /-- The mark of the canaries that apply from its completion on (R423). -/
  arm : Option Nat
  /-- When it issued. -/
  issued : Nat
  until_ : Until
  /-- It acted on memory or on the device as it issued: nothing but its results is still to come (R405). -/
  acted : Bool
  deriving DecidableEq, Repr

/-- A halt that has been triggered (R416): WHY and WP of its stop record, the hitting lanes, whether it halts the team,
and the slot at whose clause boundary it takes effect; without one it takes effect at the instruction boundary. -/
structure Halt where
  why : Nat
  wp : Nat
  hits : Word
  team : Bool
  clauseOf : Option SlotId
  deriving DecidableEq, Repr

/-- A group (R18) with the state its record holds (R178). -/
structure Group where
  ref : GRef
  role : Nat
  /-- Role-local index (R20). -/
  idx : Nat
  core : Nat
  sub : Nat
  a : PcSlot
  b : PcSlot
  exited : Word
  /-- Lane blocks whose register slices have returned (R58). -/
  returned : BitVec 4
  vregs : SMap VReg
  sregs : SMap Word
  hregs : SMap Dword
  flags : BitVec 12
  tids : List Nat
  /-- Arrival marks (R277), at 32 × barrier + lane. -/
  marks : SMap Word
  fpc : Word
  fps : Word
  sts : Word
  priv : Word
  trappc : Dword
  trapnext : Dword
  trapmask : Word
  trapcause : Word
  trapdst : Word
  trapaddr : Dword
  trapvec : Dword
  /-- `ctl.wr` has written TRAPNEXT since trap entry (R318). -/
  nextWritten : Bool
  /-- The header in effect at trap entry (R318). -/
  trapHdr : Addr
  /-- Where the slot stood at trap entry: at a header or target, or in its clause. -/
  trapStand : Stand
  /-- PRIV.TRAP at supervisor entry, in device firmware's frame (R369). -/
  fwTrap : Bool
  /-- Bytes in use on the sump (R27), and the physical address of the group's sump region. -/
  sumpTop : Nat
  sumpPa : Nat
  /-- Held causes of slots A and B (R367). -/
  pendA : Option Cause
  pendB : Option Cause
  /-- The cause that waits for the group to drain (R366). -/
  entry : Option Cause
  parked : Word
  parkFrom : SlotId
  parkPc : Addr
  halted : Bool
  haltDue : Option Halt
  /-- Instructions it may still issue before its team's halt stops it (R416). -/
  grace : Option Nat
  /-- Stopped for a save (R200, R202). -/
  stopped : Bool
  /-- The matrix command waiting for acceptance (R382): whether `mma.g` sends it, then M0, M1, M2. -/
  offered : Option (Bool × Word × Word × Word)
  /-- The slot that issued it. -/
  offerSlot : SlotId
  /-- The slot makes one debug step (R425). -/
  stepping : Option SlotId
  /-- Sump offsets of path entries whose PC lies inside a clause (R424, R425). -/
  inside : List Nat
  inflight : List InFlight
  stores : List QStore
  deriving DecidableEq, Repr

/-! ### Teams -/

/-- A pass or `mzero` in a core's sequencers (R172). -/
structure Pass where
  serial : Nat
  /-- Quad role and index; for `mzero` unused. -/
  role : Nat
  quad : Nat
  /-- The sub-cores it occupies: all four, or the one of `mzero`. -/
  subs : List Nat
  m0 : Word
  m1 : Word
  m2 : Word
  /-- `mzero` of this tile. -/
  zero : Option Bool
  /-- The follow-on's handle, zero for an instruction pass. -/
  handle : Dword
  /-- When it became ready to start (R172). -/
  ready : Option Nat
  started : Bool
  /-- It holds its B registers: it has started, or a restore has locked them again (R171, R178). -/
  locked : Bool
  step : Nat
  steps : Nat
  /-- The assay entries and the index lists it read when it started (R169, R170). -/
  aEntry : BitVec 512
  bEntry : BitVec 512
  list : List Nat
  /-- CYCLE when the first step started and when the last one retired (R176). -/
  t2 : Nat
  t3 : Nat
  /-- Failed when it started: its code and first failing address (R382). -/
  failed : Option (Nat × Dword)
  deriving DecidableEq, Repr

/-- How a team runs, stops and is saved (R200 to R203, R416, R417). -/
inductive TeamMode where
  | running
  | saved
  | lost
  deriving DecidableEq, Repr

/-- A debug step or a run asked of a team and not yet made (R424, R425, R430). -/
inductive DebugAsk where
  | step (lane : Bool) (sel : Word)
  | run (parked : Bool)
  deriving DecidableEq, Repr

/-- A team (R18). -/
structure Team where
  ref : TRef
  grid : Nat
  kernel : KernelDecl
  /-- Virtual address of its code version, and the address of the kernel's entry clause. -/
  codeVa : Nat
  entryVa : Nat
  x : Nat
  y : Nat
  z : Nat
  /-- Dimensions of its grid (R18). -/
  nx : Nat
  ny : Nat
  nz : Nat
  cores : List Nat
  /-- Phase numbers of b0 to b15 (R277). -/
  phases : SMap Word
  shared : SMap Byte
  /-- Poisoned sectors of team shared memory, by offset / 32 (R394). -/
  poison : List Nat
  /-- TAIL and HEAD of each queue at its home (R280); its storage shows them. -/
  qcount : SMap (Word × Word)
  /-- Slots waiting to put into or get from each queue, in the order in which they began to wait (R281). -/
  putters : SMap (List (Nat × SlotId))
  getters : SMap (List (Nat × SlotId))
  /-- Slots waiting on gauge words (R299): the word's place, `%gid` and slot. -/
  gaugers : List (Loc × Nat × SlotId)
  counts : List Nat
  cluster : Option (Word × Nat)
  /-- Members' windows revoked from it (R109). -/
  revoked : List Nat
  /-- Accumulator elements (R48), at ((core index × 4 + sub-core) × 2 + tile) × 16384 + row × 128 + column. -/
  tiles : SMap Word
  passes : SMap (List Pass)
  mode : TeamMode
  /-- Its core-cycles have been counted up to this cycle (R321), and it has been resident since `placed`. -/
  since : Nat
  placed : Nat
  /-- CYCLE / 2^20 of its lowest core when it last wrote a sample or was placed, and the issue clocks spent since (R361). -/
  sampled : Nat
  clocks : Nat
  /-- Samples that are due and not yet written: their boundaries and records, oldest first (R361). -/
  samples : List (Nat × List Byte)
  die : Nat
  /-- A pre-emption request and its cycle (R200); true when it is forced at once (R202, R442). -/
  request : Option (Nat × Bool)
  /-- The team is at a barrier stop or a forced stop (R200, R202). -/
  stop : Option Bool
  /-- A team halt is under way: the WHY that its other groups record (R416). -/
  halting : Option Nat
  /-- Halted: every group of it is (R417). -/
  halted : Bool
  /-- Resident for debug steps since this cycle (R425). -/
  stepSince : Option Nat
  /-- Debug steps and runs asked of it and not yet made, in the order in which they were asked (R430). -/
  steps : List DebugAsk
  /-- Firmware ends the team once its jobs have resolved (R370). -/
  ending : Bool
  /-- The pieces of the save area that hold its record while it is saved: offset and length (R178, R180). -/
  saved : List (Nat × Nat)
  /-- It is relaunched once its jobs have resolved (R401). -/
  relaunch : Bool
  /-- Its canaries of scope 0 while it is saved (R178, R423). -/
  bank : SMap Canary
  /-- Handles of the transcode and unbind jobs that it has issued (R25, R152, R154). -/
  dieJobs : List Dword
  passSerial : Nat
  deriving DecidableEq, Repr

/-! ### Jobs, grids and devices -/

/-- A region of a footprint (R135): its space code and virtual or space addresses. -/
structure Region where
  space : Nat
  lo : Nat
  hi : Nat
  deriving DecidableEq, Repr

/-- What a job does (R161, R312, R152, R154, R181). -/
inductive JobKind where
  | cpy | cpym | fill | rowcpy | mstore (sub : Nat) (tile : Bool) (slot : Nat)
  deriving DecidableEq, Repr

/-- A bucket job (R161 to R163). -/
structure Job where
  handle : Dword
  kind : JobKind
  team : TRef
  gid : Nat
  core : Nat
  /-- Place of that core in the team, which a move of the team keeps. -/
  place : Nat
  card : BitVec 512
  reads : List Region
  writes : List Region
  /-- Handles of the unfinished jobs it follows (R135). -/
  preds : List Dword
  started : Bool
  /-- Bytes of it that have moved, and of those the bytes its gauge has counted. -/
  moved : Nat
  counted : Nat
  /-- Status bits FB and GD (R165) and a code when it has failed. -/
  fb : Bool
  gd : Bool
  code : Nat
  /-- The copy has finished and the command of a `cpym` has been sent (R166). -/
  sent : Bool
  cancel : Bool
  t0 : Nat
  t1 : Nat
  /-- Passes queued ahead of an `mstore` (R312). -/
  behind : List Nat
  deriving DecidableEq, Repr

/-- A loaded code version (R47): its kernel numbers, declarations and the place of its words. -/
structure Code where
  serial : Nat
  kernels : List (Nat × KernelDecl)
  va : Nat
  pa : Nat
  size : Nat
  deriving DecidableEq, Repr

/-- A grid (R18, R184). -/
structure Grid where
  serial : Nat
  code : Nat
  kernel : Nat
  prio : Nat
  nx : Nat
  ny : Nat
  nz : Nat
  /-- Linear index of the next team not yet placed. -/
  next : Nat
  live : Nat
  params : Nat
  paramsLen : Nat
  /-- TAG of a host launch (R345), or the handle of the `launch` that created it. -/
  tag : Option Word
  origin : Dword
  fault : Option Nat
  /-- An `.idem` relaunch has been made in this grid (R401). -/
  relaunched : Bool
  /-- The weight-set generations it pins (R183). -/
  pins : List (Nat × Nat)
  deriving DecidableEq, Repr

/-- A handle of kind 1 (R284): its children, by grid serial. -/
structure Launch where
  handle : Dword
  children : List Nat
  refused : Bool
  removed : Bool
  fault : Option Nat
  deriving DecidableEq, Repr

/-- A binding (R140, R151). Images are the words and tables loaded for each generation. -/
structure Sluice where
  base : Nat
  len : Nat
  bs : Nat
  cur : Nat
  old : Nat
  tc : Bool
  unbinding : Bool
  enc : List (BitVec 32) × List Byte
  dec : List (BitVec 32) × List Byte
  oldEnc : List (BitVec 32) × List Byte
  oldDec : List (BitVec 32) × List Byte
  ctrEnc : Nat
  ctrRawf : Nat
  ctrRaws : Nat
  ctrRawv : Nat
  ctrRawt : Nat
  tcDone : Nat
  /-- Next block of the transcode or unbind job, and its handle. -/
  cursor : Nat
  handle : Dword
  unHandle : Dword
  deriving DecidableEq, Repr

/-- A weight set's current generation (R183). -/
structure Weights where
  gen : Nat
  start : Nat
  len : Nat
  deriving DecidableEq, Repr

/-- An RDMA READ that the intake engine has issued and whose data has not arrived (R352): the tensor it is for, the queue
pairs, the remote key and the remote bytes. -/
structure RdmaRead where
  tensor : Nat
  qpn : Nat
  remoteQpn : Nat
  key : Word
  addr : Nat
  len : Nat
  deriving DecidableEq, Repr

/-- An intake load (R181, R347). -/
structure Load where
  handle : Dword
  tag : Word
  set : Nat
  conn : Nat
  key : Word
  start : Nat
  len : Nat
  tensors : List (List Byte)
  reads : List RdmaRead
  done : List Nat
  qs : Bool
  sb : Bool
  poisoned : Bool
  cancel : Bool
  deriving DecidableEq, Repr

/-- The scheduler of a partition (R197). -/
inductive Sched where
  | allowance | reservation
  deriving DecidableEq, Repr

structure Partition where
  number : Nat
  sched : Sched
  cores : List Nat
  /-- Start of the accounting window and the 1 ms boundaries passed in it (R198). -/
  windowStart : Nat
  boundaries : Nat
  deriving DecidableEq, Repr

/-- The code object being assembled (R346). -/
structure Assembly where
  total : Nat
  next : Nat
  bytes : List Byte
  deriving DecidableEq, Repr

/-- The earliest unplaced team of a device's highest non-empty level (R186): its level and name, since when it is that
team, and whether it holds up the device. A saved or relaunched team is named by its serial, one of a grid by the grid's
serial and its linear index plus one. -/
structure Head where
  level : Nat
  serial : Nat
  index : Nat
  since : Nat
  starved : Bool
  deriving DecidableEq, Repr

/-- A virtual device. -/
structure Device where
  number : Nat
  alive : Bool
  partition : Nat
  w : Nat
  cap : Nat
  t : Nat
  q : Nat
  /-- A changed share takes effect at the next window or period (R438). -/
  newShare : Option (Nat × Nat × Nat × Nat)
  /-- Usage in the window (R198), budget and deadline (R199), and wake time. -/
  usage : Nat
  budget : Nat
  deadline : Nat
  wokeAt : Option Nat
  /-- Since when it has had no resident and no queued team (R198). -/
  idleSince : Option Nat
  gib : Nat
  memPa : Nat
  metaPa : Nat
  ctxPa : Nat
  ctxLen : Nat
  /-- The root table's physical address (R100), and the next free byte for tables. -/
  root : Nat
  tables : Nat
  /-- Cores of the partition when the device was created (R199, R439). -/
  pcores : Nat
  scUnits : List Nat
  scratch : SMap Byte
  scPoison : List Nat
  sumpLimit : Nat
  codes : List Code
  assembling : Option Assembly
  kernelSerial : Nat
  grids : List Grid
  gridSerial : Nat
  /-- Saved, relaunched or returned teams waiting at the head of their level, in order (R203). -/
  waiting : List TRef
  head : Option Head
  teamSerial : Nat
  pool : List (Nat × Nat)
  assay : SMap (BitVec 512)
  bindings : SMap Sluice
  weights : SMap Weights
  /-- Replaced generations that grids may still pin (R182, R183), by set. -/
  oldWeights : List (Nat × Weights)
  loads : List Load
  jobs : List Job
  /-- Handles of jobs of scope `.fab`, whose resolution is observed as an acquire (R136). -/
  fabJobs : List Dword
  launches : List Launch
  /-- Next serial of each origin and kind, at origin × 4 + kind (R164). -/
  serials : SMap Nat
  /-- Status words of resolved handles (R165), newest first. -/
  statuses : List (Dword × Word)
  meters : List Nat
  usageSeq : Nat
  usageHash : List Byte
  stamps : Nat
  logged : Nat
  stops : Nat
  out : Nat
  deriving DecidableEq, Repr

/-! ### Cores, dies and the module -/

structure Core where
  /-- Last reading, in 0.125 degrees (R188, R362). -/
  temp : BitVec 12
  droops : List Nat
  hot : Bool
  withdrawn : Bool
  /-- The failing lane of each sub-core for which it is withdrawn (R402); 64 where several lanes of one fail. -/
  failing : SMap Nat
  /-- Firmware's counts (R402): of each lane, at 64 × sub-core + lane, when its registers had an error corrected within the
  last hour; and the lanes that have had an uncorrectable one. -/
  fixes : SMap (List Nat)
  broken : List Nat
  canaries : SMap Canary
  /-- LSTEER of each sub-core, and the spare lanes' slices, at sub-core × 512 + register (R64). -/
  lsteer : SMap Word
  spare : SMap Word
  deriving DecidableEq, Repr

/-- A die's counters (R392) and process word (R362). -/
structure Die where
  memc : Nat
  linkr : Nat
  sramc : Nat
  unc : Nat
  slcrc : Nat
  vmin : BitVec 16
  ring : BitVec 16
  deriving DecidableEq, Repr

/-- An intake connection (R352). -/
structure Conn where
  number : Nat
  /-- The local queue pair number. -/
  qpn : Nat
  vd : Nat
  payload : List Byte
  deriving DecidableEq, Repr

/-- A message to the host, with its virtual channel (R340, R342, R344, R345). -/
structure Msg where
  channel : Nat
  tag : Word
  cmd : Byte
  vd : Nat
  payload : List Byte
  deriving DecidableEq, Repr

/-- The answer to a peer's access (R443): its virtual channel (R340), whether it is an error response, and the bytes read. -/
structure PeerReply where
  channel : Nat
  error : Bool
  data : List Byte
  /-- Places of the bytes that it carries as poisoned. -/
  poison : List Nat
  deriving DecidableEq, Repr

/-- A block or line in the memory-side cache (R118, R147): its plain bytes. -/
structure Block where
  bytes : List Byte
  dirty : Bool
  /-- Poisoned sectors, by number within the block (R393). -/
  poison : List Nat
  vd : Nat
  /-- Its virtual address in the device. -/
  va : Nat
  /-- In a line of a page with F = 1, the bytes that the die has written (R119, R133). -/
  wrote : List Nat := []
  deriving DecidableEq, Repr

/-- A write-back that waits for an engine (R147, R148): the device, the block's addresses and its snapshot. -/
structure Encode where
  vd : Nat
  pa : Nat
  va : Nat
  bytes : List Byte
  deriving DecidableEq, Repr

/-- Why a sluice program runs. -/
inductive RunFor where
  | idle
  | encode (vd : Nat) (pa : Nat)
  deriving DecidableEq, Repr

inductive RunEnd where
  | running | ended | failed | faulted
  deriving DecidableEq, Repr

/-- One run of a sluice program (R155). -/
structure Run where
  why : RunFor
  words : List (BitVec 32)
  table : List Byte
  bs : Nat
  k : List (BitVec 16)
  input : List Byte
  c : Nat
  out : List Byte
  pc : Nat
  steps : Nat
  fin : RunEnd
  deriving DecidableEq, Repr

/-- Who moves next. -/
inductive Move where
  | event (i : Instr)
  /-- A step of a group or of one of its slots. -/
  | groupEvent (g : GRef) (s : SlotId) (i : Instr)
  | issue (g : GRef) (s : SlotId)
  /-- A step of a sluice engine. -/
  | sluice (engine : Nat)
  deriving DecidableEq, Repr

inductive PortState where
  | up | retraining | down
  deriving DecidableEq, Repr

structure Port where
  mode : PortState
  replays : Nat
  deriving DecidableEq, Repr

/-- The machine. `g`, `team` and `vd` are the group, team and device in focus; the others stand in the lists. -/
structure State where
  g : Group
  slot : SlotId
  team : Team
  vd : Device
  groups : List Group
  teams : List Team
  devices : List Device
  partitions : List Partition
  cores : SMap Core
  dies : SMap Die
  mem : List Host.Cell
  /-- Page-table entries in firmware's part of local memory (R99, R101), by PA / 8. -/
  ptes : SMap Dword
  /-- Poisoned 32-byte sectors of local physical memory (R393), by PA / 32. -/
  poison : List Nat
  /-- 32 KiB spans pending clearing (R104), as ranges of span numbers. -/
  marked : List (Nat × Nat)
  /-- Physical memory in use by devices, as ranges of addresses. -/
  used : List (Nat × Nat)
  /-- Sluiced blocks in the memory-side cache, by physical address (R118). -/
  cache : SMap Block
  /-- Other lines of local main memory in the memory-side cache, by PA / 256: whether dirty. -/
  lines : SMap Bool
  /-- Lines of F = 1 pages, at die × 2^48 + fabric address / 256 (R118), and the peer modules' memory with its poisoned
  sectors, by fabric address / 32. -/
  peerLines : SMap Block
  peer : SMap Byte
  peerPoison : List Nat
  /-- Write-backs waiting for an engine (R147, R148). -/
  encodes : List Encode
  /-- The run in focus, and those of the other devices and engines (R155). -/
  run : Run
  runs : List Run
  /-- The device that each engine served last, plus one (R155). -/
  turns : SMap Nat
  /-- Rows whose refresh class differs from their class at boot (R399), at stack × 2^21 + bank × 2^16 + row. -/
  classes : SMap Nat
  /-- Rows of the shortest class that needed a further correction, as reported to device firmware (R399). -/
  reports : List Nat
  /-- Banks under refresh (R116), at stack × 32 + bank: the row. -/
  refreshing : SMap Nat
  ports : SMap Port
  conns : List Conn
  /-- The firmware measurement (R355) and the hashes of the stages and the blob. -/
  measure : List Byte
  stageHashes : List (List Byte)
  /-- The command port is open (R442), and the module has tripped or failed (R440, R442). -/
  portOpen : Bool
  failed : Bool
  /-- The model's own note that a move needs a port of the fabric while none is up: such a move waits (R440). -/
  stalled : Bool
  /-- Numbers of devices that the module destroyed (R434). -/
  gone : List Nat
  outbox : List Msg
  /-- Answers sent to peer modules (R147, R443). -/
  replies : List PeerReply
  /-- Cycles since reset of the model's common clock (R69, R357); each core's CYCLE differs from it by a free amount. -/
  now : Nat
  /-- The cycle of the root of trust's last millisecond (R353). -/
  meterAt : Nat
  /-- The model's own counter of free values drawn. -/
  draw : Nat
  /-- The model's own list of moves to come; when it is empty the machine chooses (R193). -/
  agenda : List Move
  deriving DecidableEq, Repr

/-! ### Reset -/

def VReg.zero : VReg := { tag := .zero, lanes := List.replicate 32 0 }

def PcSlot.idle : PcSlot :=
  { pc := 0, mask := 0, hdr := 0, head := 0, stand := .header, wait := .running, since := 0, ageless := false, calm := false, waits := none }

/-- No group: every lane exited. Its registers hold the values that R24 and the register maps give. -/
def Group.idle : Group :=
  { ref := { team := { vd := 0, serial := 0 }, gid := 0 }, role := 0, idx := 0, core := 0, sub := 0
    a := .idle, b := .idle, exited := 0xffffffff, returned := 0xf
    vregs := [], sregs := [], hregs := [], flags := 0
    tids := List.range 32, marks := []
    fpc := 0, fps := 0, sts := 0, priv := 0, trappc := 0, trapnext := 0, trapmask := 0, trapcause := 0
    trapdst := 0x3ff, trapaddr := 0, trapvec := 0, nextWritten := false, trapHdr := 0, trapStand := .paused, fwTrap := false
    sumpTop := 0, sumpPa := 0, pendA := none, pendB := none, entry := none
    parked := 0, parkFrom := .A, parkPc := 0, halted := false, haltDue := none, grace := none, stopped := false
    offered := none, offerSlot := .A, stepping := none, inside := [], inflight := [], stores := [] }

/-- The declaration that stands where no team runs. -/
def noKernel : KernelDecl :=
  { entry := 0, codeAt := 0, codeLen := 0, width := 32, cores := 1, shared := 0, ranges := 0, roles := [], queues := [], sump := 4096, local_ := 0
    params := 0, data := [], idem := false, preempt := [], usesArrays := false }

def Team.idle : Team :=
  { ref := { vd := 0, serial := 0 }, grid := 0, kernel := noKernel, codeVa := 0, entryVa := 0, x := 0, y := 0, z := 0, nx := 0, ny := 0
    nz := 0, cores := [], phases := [], shared := []
    poison := [], qcount := [], putters := [], getters := [], gaugers := [], counts := [0, 0, 0], cluster := none, revoked := [], tiles := []
    passes := [], mode := .running, since := 0, placed := 0, sampled := 0, clocks := 0, samples := [], die := 0, request := none, stop := none, halting := none
    halted := false, stepSince := none, steps := [], ending := false
    saved := [], relaunch := false, bank := [], dieJobs := [], passSerial := 0 }

def Device.idle : Device :=
  { number := 0, alive := false, partition := 0, w := 0, cap := 0, t := 0, q := 0, newShare := none, usage := 0
    budget := 0, deadline := 0, wokeAt := none, idleSince := none, gib := 0, memPa := 0, metaPa := 0, ctxPa := 0
    ctxLen := 0, root := 0, tables := 0, pcores := 0, scUnits := [0, 0, 0, 0], scratch := [], scPoison := [], sumpLimit := 0, codes := []
    assembling := none, kernelSerial := 0, grids := [], gridSerial := 0, waiting := [], head := none, teamSerial := 0, pool := []
    assay := [], bindings := [], weights := [], oldWeights := [], loads := [], jobs := [], fabJobs := [], launches := [], serials := []
    statuses := [], meters := List.replicate 8 0, usageSeq := 0, usageHash := List.replicate 48 0, stamps := 0
    logged := 0, stops := 0, out := 0 }

def Core.fresh : Core :=
  { temp := 0, droops := [], hot := false, withdrawn := false, failing := [], fixes := [], broken := [], canaries := [], lsteer := [], spare := [] }

def Die.fresh : Die := { memc := 0, linkr := 0, sramc := 0, unc := 0, slcrc := 0, vmin := 0, ring := 0 }

def Port.fresh : Port := { mode := .up, replays := 0 }

def Run.idle : Run :=
  { why := .idle, words := [], table := [], bs := 64, k := List.replicate 16 0, input := [], c := 0, out := []
    pc := 0, steps := 0, fin := .ended }

/-- The module right after reset: no device, no team and no group; memory, caches and queues empty; the boot ROM has
not yet run (MODULE_RESET is the step in which it does). -/
def State.reset : State :=
  { g := .idle, slot := .A, team := .idle, vd := .idle, groups := [], teams := [], devices := [], partitions := []
    cores := [], dies := [], mem := [], ptes := [], poison := [], marked := [], used := [], cache := [], lines := [], peerLines := []
    peer := [], peerPoison := [], encodes := [], run := .idle, runs := [], turns := [], classes := [], reports := [], refreshing := [], ports := [], conns := []
    measure := List.replicate 48 0, stageHashes := [], portOpen := false, failed := false, stalled := false, gone := []
    outbox := [], replies := [], now := 0, meterAt := 0, draw := 0, agenda := [] }

end Sys2Proof.Machine
end

