-- ==== Sys2Proof/Machine/Maps.lean ====
section
/-!
DEFINITION. Machine/Maps.lean: finite maps in canonical form, byte and bit helpers, and ranges.
-/
namespace Sys2Proof.Machine

/-! ### Maps with a default: no entry equals what an absent key reads as -/

/-- The value at a key, `d` where the key is absent. -/
def mget {α : Type} (d : α) : SMap α → Nat → α
  | [], _ => d
  | (k, v) :: t, n => if n = k then v else mget d t n

/-- The map without the key. -/
def mdel {α : Type} : SMap α → Nat → SMap α
  | [], _ => []
  | (k, v) :: t, n => if n < k then (k, v) :: t else if n = k then t else (k, v) :: mdel t n

/-- The map with the key at a value, in its place. -/
def mins {α : Type} : SMap α → Nat → α → SMap α
  | [], n, x => [(n, x)]
  | (k, v) :: t, n, x =>
      if n < k then (n, x) :: (k, v) :: t else if n = k then (n, x) :: t else (k, v) :: mins t n x

/-- The map with the key at a value; writing the default removes the entry. -/
def mset {α : Type} [DecidableEq α] (d : α) (m : SMap α) (n : Nat) (x : α) : SMap α :=
  if x = d then mdel m n else mins m n x

/-- The value at a key, where there is one. -/
def mget? {α : Type} : SMap α → Nat → Option α
  | [], _ => none
  | (k, v) :: t, n => if n = k then some v else mget? t n

/-- Keys rise strictly. -/
def mrising {α : Type} : SMap α → Bool
  | [] => true
  | [_] => true
  | (k, _) :: (k', v') :: t => decide (k < k') && mrising ((k', v') :: t)

/-- Canonical form: keys rise strictly and no entry equals the default. -/
def mwf {α : Type} [DecidableEq α] (d : α) (m : SMap α) : Bool := mrising m && m.all fun e => decide (e.2 ≠ d)

/-- The entries of a run of values from a key on. -/
def mrun {α : Type} [DecidableEq α] (d : α) : Nat → List α → SMap α
  | _, [] => []
  | n, x :: t => if x = d then mrun d (n + 1) t else (n, x) :: mrun d (n + 1) t

/-- The map with a run of values from a key on. -/
def mputRun {α : Type} [DecidableEq α] (d : α) (m : SMap α) (n : Nat) (xs : List α) : SMap α :=
  (m.filter fun e => decide (e.1 < n)) ++ mrun d n xs ++ m.filter fun e => decide (n + xs.length ≤ e.1)

/-- What a byte of memory that nothing has written reads as (notes/assumptions/2.md). -/
def Memory.unlisted : Byte := 0

/-- Memory's canonical form. -/
def Memory.wf (m : List Host.Cell) : Bool := mwf Memory.unlisted m

/-! ### Bytes and words -/

/-- The value of bytes, least significant first (R2). -/
def leNat : List Byte → Nat
  | [] => 0
  | b :: t => b.toNat + 256 * leNat t

/-- The low `n` bytes of a value, least significant first (R2). -/
def leBytes : Nat → Nat → List Byte
  | 0, _ => []
  | n + 1, x => BitVec.ofNat 8 x :: leBytes n (x / 256)

def w32 (n : Nat) : Word := BitVec.ofNat 32 n
def w64 (n : Nat) : Dword := BitVec.ofNat 64 n

/-- The 32-bit value as a signed number. -/
def sx (w : Word) : Int := w.toInt

/-- Lane `l` is set in a mask. -/
def laneOn (m : Word) (l : Nat) : Bool := m.getLsbD l

/-- The lanes 0 to 31. -/
def lanes32 : List Nat := List.range 32

/-- A word from its bits by lane. -/
def maskOf (f : Nat → Bool) : Word := w32 (lanes32.foldl (fun acc l => if f l then acc + 2 ^ l else acc) 0)

/-- Number of set bits. -/
def popcount (w : Word) : Nat := (lanes32.filter (laneOn w)).length

/-- The lowest set lane. -/
def lowest (w : Word) : Option Nat := lanes32.find? (laneOn w)

/-- Element `i` of a list of words. -/
def laneAt (v : List Word) (l : Nat) : Word := v.getD l 0

/-- A list of 32 lanes from a function. -/
def tabulate (f : Nat → Word) : List Word := lanes32.map f

/-- Element `i` of a list of numbers with a default. -/
def natAt (v : List Nat) (i : Nat) : Nat := v.getD i 0

/-- The list with element `i` changed. -/
def setAt {α : Type} : List α → Nat → α → List α
  | [], _, _ => []
  | _ :: t, 0, x => x :: t
  | a :: t, i + 1, x => a :: setAt t i x

/-! ### Sorted sets of numbers and ranges -/

def sadd : List Nat → Nat → List Nat
  | [], n => [n]
  | k :: t, n => if n < k then n :: k :: t else if n = k then k :: t else k :: sadd t n

def sdel (s : List Nat) (n : Nat) : List Nat := s.filter (· != n)

/-- A number lies in one of the ranges [lo, hi). -/
def inRanges (rs : List (Nat × Nat)) (n : Nat) : Bool := rs.any fun r => decide (r.1 ≤ n) && decide (n < r.2)

/-- The ranges without a number. -/
def cutRange (rs : List (Nat × Nat)) (n : Nat) : List (Nat × Nat) :=
  (rs.map fun r =>
    if r.1 ≤ n ∧ n < r.2 then [(r.1, n), (n + 1, r.2)].filter fun q => decide (q.1 < q.2) else [r]).flatten

/-- The lowest address, a multiple of `al`, at which `n` bytes meet none of the ranges, tried at 0 and at each range's
end, below the bound. -/
def firstFit (rs : List (Nat × Nat)) (n al bound : Nat) : Option Nat :=
  let up (x : Nat) : Nat := (x + al - 1) / al * al
  let tries := up 0 :: rs.map fun r => up r.2
  let ok := tries.filter fun a => decide (a + n ≤ bound) && rs.all fun r => decide (a + n ≤ r.1) || decide (r.2 ≤ a)
  ok.foldl (fun best a => match best with
    | none => some a
    | some b => if a < b then some a else some b) none

end Sys2Proof.Machine
end

