-- ==== Sys2Proof/Machine/SluiceOps.lean ====
section
/-!
DEFINITION. Machine/SluiceOps.lean: one run of a sluice program (R155 to R158), the CRC of R145 and the verified encode
of R150.
-/
namespace Sys2Proof.Machine

/-- The device whose block a run encodes. -/
def RunFor.vd : RunFor → Option Nat
  | .idle => none
  | .encode n _ => some n

/-- The physical address of the block that a run encodes. -/
def RunFor.pa : RunFor → Option Nat
  | .idle => none
  | .encode _ pa => some pa

/-- Register kN of the run. -/
def Run.reg (r : Run) (n : BitVec 4) : BitVec 16 := r.k.getD n.toNat 0

/-- The run with register kN written and pc at the next instruction. -/
def Run.put (r : Run) (n : BitVec 4) (x : BitVec 16) : Run := { r with k := setAt r.k n.toNat x, pc := r.pc + 1 }

/-- A branch, taken or not (R156). -/
def Run.branch (r : Run) (taken : Bool) (o : BitVec 15) : Run :=
  { r with pc := if taken then (r.pc + o.toInt).toNat else r.pc + 1 }

def Run.fault (r : Run) : Run := { r with fin := .faulted }

/-- Input byte `i`. -/
def Run.inByte (r : Run) (i : Nat) : BitVec 16 := BitVec.ofNat 16 (r.input.getD i 0).toNat

/-- Append bytes to the output, or fault past BS (R156). -/
def Run.emit (r : Run) (bs : List Byte) : Run :=
  if r.out.length + bs.length > r.bs then r.fault else { r with out := r.out ++ bs, pc := r.pc + 1 }

/-- The bytes of `copy.back`: each repeats the byte `back` places before it (R156). -/
def backBytes : Nat → List Byte → Nat → List Byte
  | 0, out, _ => out
  | n + 1, out, back => backBytes n (out ++ [out.getD (out.length - back) 0]) back

/-- The ALU operations of op 11 to 17 (R156). -/
def sluiceAlu (op : Nat) (a b : BitVec 16) : BitVec 16 :=
  match op with
  | 11 => a + b
  | 12 => a - b
  | 13 => a &&& b
  | 14 => a ||| b
  | 15 => a ^^^ b
  | 16 => if b.toNat ≥ 16 then 0 else a <<< b.toNat
  | _ => if b.toNat ≥ 16 then 0 else a >>> b.toNat

/-- Steps that the instruction costs (R156). -/
def sluiceCost (i : Instr) (r : Run) : Nat :=
  match i with
  | .sluicePutn _ b | .sluiceCopy b | .sluiceCopyBack _ b => 1 + (r.reg b).toNat / 16
  | _ => 1

def imm16 (i : BitVec 14) : BitVec 16 := BitVec.ofNat 16 i.toNat

/-- The effect of an instruction on the run, without its cost (R156). -/
def sluiceEffect (i : Instr) (r : Run) : Run :=
  match i with
  | .sluiceEnd => { r with fin := .ended }
  | .sluiceFail => { r with fin := .failed }
  | .sluiceGet d => if r.c ≥ r.input.length then r.fault else { r.put d (r.inByte r.c) with c := r.c + 1 }
  | .sluicePeek d n => r.put d (if r.c + n.toNat < r.input.length then r.inByte (r.c + n.toNat) else 0)
  | .sluiceGetw d =>
      if r.c + 2 > r.input.length then r.fault
      else { r.put d (r.inByte r.c + 256 * r.inByte (r.c + 1)) with c := r.c + 2 }
  | .sluicePut a => r.emit [BitVec.ofNat 8 (r.reg a).toNat]
  | .sluicePutw a => r.emit (leBytes 2 (r.reg a).toNat)
  | .sluicePutn a b => r.emit (List.replicate (r.reg b).toNat (BitVec.ofNat 8 (r.reg a).toNat))
  | .sluiceCopy b =>
      let n := (r.reg b).toNat
      if r.c + n > r.input.length then r.fault
      else { r.emit ((r.input.drop r.c).take n) with
             c := if r.out.length + n > r.bs then r.c else r.c + n }
  | .sluiceCopyBack a b =>
      let back := (r.reg a).toNat
      let n := (r.reg b).toNat
      if back = 0 ∨ back > r.out.length ∨ r.out.length + n > r.bs then r.fault
      else { r with out := backBytes n r.out back, pc := r.pc + 1 }
  | .sluiceMovi d n => r.put d (BitVec.ofNat 16 n.toNat)
  | .sluiceMov d a => r.put d (r.reg a)
  | .sluiceAdd d a b => r.put d (sluiceAlu 11 (r.reg a) (r.reg b))
  | .sluiceAddImm d a j => r.put d (sluiceAlu 11 (r.reg a) (imm16 j))
  | .sluiceSub d a b => r.put d (sluiceAlu 12 (r.reg a) (r.reg b))
  | .sluiceSubImm d a j => r.put d (sluiceAlu 12 (r.reg a) (imm16 j))
  | .sluiceAnd d a b => r.put d (sluiceAlu 13 (r.reg a) (r.reg b))
  | .sluiceAndImm d a j => r.put d (sluiceAlu 13 (r.reg a) (imm16 j))
  | .sluiceOr d a b => r.put d (sluiceAlu 14 (r.reg a) (r.reg b))
  | .sluiceOrImm d a j => r.put d (sluiceAlu 14 (r.reg a) (imm16 j))
  | .sluiceXor d a b => r.put d (sluiceAlu 15 (r.reg a) (r.reg b))
  | .sluiceXorImm d a j => r.put d (sluiceAlu 15 (r.reg a) (imm16 j))
  | .sluiceShl d a b => r.put d (sluiceAlu 16 (r.reg a) (r.reg b))
  | .sluiceShlImm d a j => r.put d (sluiceAlu 16 (r.reg a) (imm16 j))
  | .sluiceShr d a b => r.put d (sluiceAlu 17 (r.reg a) (r.reg b))
  | .sluiceShrImm d a j => r.put d (sluiceAlu 17 (r.reg a) (imm16 j))
  | .sluiceBeq a b o => r.branch (r.reg a == r.reg b) o
  | .sluiceBne a b o => r.branch (r.reg a != r.reg b) o
  | .sluiceBlt a b o => r.branch (decide ((r.reg a).toNat < (r.reg b).toNat)) o
  | .sluiceBeof o => r.branch (decide (r.c ≥ r.input.length)) o
  | .sluiceJmp o => r.branch true o
  | .sluiceLoop d o =>
      let x := r.reg d - 1
      { r.branch (x != 0) o with k := setAt r.k d.toNat x }
  | .sluiceTbl d a => r.put d (BitVec.ofNat 16 (r.table.getD ((r.reg a).toNat % 256) 0).toNat)
  | _ => r

/-- The most steps a run may take (R158). -/
def Run.budget (r : Run) : Nat := 8 * r.bs + 64

/-- One step of the run: its cost is counted, and running past the last instruction is a fault (R157). -/
def sluiceStep (i : Instr) (r : Run) : Run :=
  let r' := { sluiceEffect i r with steps := r.steps + sluiceCost i r }
  if r'.fin = .running ∧ r'.pc ≥ r.words.length then r'.fault else r'

/-- The instruction that the run executes next. -/
def Run.next (r : Run) : Option Instr := if r.fin = .running then (r.words[r.pc]?).bind (decodeSluice ·.toNat) else none

/-- The step that R158 stops is not executed. -/
def Run.overBudget (r : Run) (i : Instr) : Bool := decide (r.steps + sluiceCost i r > r.budget)

/-- Run to the end; the fuel is never less than the budget. -/
def Run.finish : Nat → Run → Run
  | 0, r => r
  | n + 1, r =>
      match r.next with
      | none => if r.fin = .running then r.fault else r
      | some i => if r.overBudget i then r.fault else (sluiceStep i r).finish n

/-- A run at its start (R155). -/
def Run.start (why : RunFor) (img : List (BitVec 32) × List Byte) (bs : Nat) (input : List Byte) : Run :=
  { why := why, words := img.1, table := img.2, bs := bs
    k := setAt (setAt (List.replicate 16 0) 14 (BitVec.ofNat 16 bs)) 15 (BitVec.ofNat 16 input.length)
    input := input, c := 0, out := [], pc := 0, steps := 0, fin := .running }

/-- The CRC-8 of R145, polynomial 0x07. -/
def crcBits : Nat → Byte → Byte
  | 0, x => x
  | n + 1, x => crcBits n (if x.msb then (x <<< 1) ^^^ 0x07 else x <<< 1)

def crc8 (bs : List Byte) : Byte := bs.foldl (fun c b => crcBits 8 (c ^^^ b)) 0

/-- A metadata word (R144). -/
def metaWord (crc : Byte) (raw : Bool) (gen len : Nat) : BitVec 16 :=
  BitVec.ofNat 16 (crc.toNat * 256 + raw.toNat * 128 + gen % 4 * 32 + len % 32)

/-- The output of an encode that is stored encoded, padded with zero bytes to whole units (R150). -/
def padded (out : List Byte) : List Byte := out ++ List.replicate ((8 - out.length % 8) % 8) 0

/-- How an encode ends (R150): the bytes and metadata word to store, which counter counts it, and the steps of encoder
and verify decoder. -/
inductive EncCount where
  | enc | rawf | raws | rawv | rawt
  deriving DecidableEq, Repr

structure Encoded where
  bytes : List Byte
  word : BitVec 16
  count : EncCount
  steps : Nat
  deriving DecidableEq, Repr

/-- A block stored raw (R150). -/
def rawBlock (plain : List Byte) (gen : Nat) (c : EncCount) (steps : Nat) : Encoded :=
  { bytes := plain, word := metaWord (crc8 plain) true gen (plain.length / 8 - 1), count := c, steps := steps }

/-- What R150 stores once the encoder's run `e` is done, with verify decoder `dec`. -/
def encodeEnd (dec : List (BitVec 32) × List Byte) (plain : List Byte) (gen : Nat) (e : Run) : Encoded :=
  let bs := plain.length
  match e.fin with
  | .ended =>
      if e.out = [] then rawBlock plain gen .rawf e.steps
      else
        let p := padded e.out
        if p.length < bs then
          let d := (Run.start .idle dec bs p).finish (8 * bs + 65)
          if d.fin = .ended ∧ d.out = plain then
            { bytes := p, word := metaWord (crc8 p) false gen (p.length / 8 - 1), count := .enc
              steps := e.steps + d.steps }
          else rawBlock plain gen .rawv (e.steps + d.steps)
        else rawBlock plain gen .raws e.steps
  | .failed => rawBlock plain gen .rawf e.steps
  | _ => rawBlock plain gen .rawt e.steps

/-- The whole of R150 for one block. -/
def encodeBlock (enc dec : List (BitVec 32) × List Byte) (plain : List Byte) (gen : Nat) : Encoded :=
  encodeEnd dec plain gen ((Run.start .idle enc plain.length plain).finish (8 * plain.length + 65))

/-- The checks at load of an image's words (R159), but for readability. -/
def imageOk (flags : Nat) (words : List (BitVec 32)) : Bool :=
  decide (1 ≤ words.length) && decide (words.length ≤ 128) && decide (flags < 2) &&
    (List.range words.length).all fun p =>
      match decodeSluice (words.getD p 0).toNat with
      | none => false
      | some i =>
          let hits (o : BitVec 15) : Bool := decide (0 ≤ p + o.toInt) && decide (p + o.toInt < words.length)
          match i with
          | .sluiceBeq _ _ o | .sluiceBne _ _ o | .sluiceBlt _ _ o | .sluiceBeof o | .sluiceJmp o | .sluiceLoop _ o =>
              hits o
          | .sluiceTbl _ _ => flags == 1
          | _ => true

end Sys2Proof.Machine
end

