-- ==== Sys2Proof/Machine/Memory.lean ====
section
/-!
DEFINITION. Machine/Memory.lean: physical memory with clearing marks and poison (R99, R104, R393), translation (R100 to
R102), sluiced blocks in the cache (R147), and the bytes of every space.
-/
namespace Sys2Proof.Machine

/-! ### Local physical memory -/

/-- Stack of a local physical address (R99). -/
def stackOf (pa : Nat) : Nat := pa / 2 ^ 36 % 8

/-- Port of a local physical address within its stack (R99). -/
def portOf (pa : Nat) : Nat := (pa / 2 ^ 8 % 16) ^^^ (pa / 2 ^ 16 % 16)

/-- The sluice engine of an address: one at each port of each stack (R13, R99, R155). -/
def engineOf (pa : Nat) : Nat := stackOf pa * Config.hbmPorts + portOf pa

/-- The byte of the array at a physical address (R104). -/
def mainByte (s : State) (pa : Nat) : Byte :=
  if inRanges s.marked (pa / 32768) then 0 else mget Memory.unlisted s.mem pa

/-- Little-endian value of `n` bytes at a physical address (R2). -/
def mainNat (s : State) (pa n : Nat) : Nat := leNat ((List.range n).map fun i => mainByte s (pa + i))

def mainBytes (s : State) (pa n : Nat) : List Byte := (List.range n).map fun i => mainByte s (pa + i)

/-- A 32-byte sector of the array is poisoned (R393). -/
def mainPoison (s : State) (pa : Nat) : Bool := s.poison.contains (pa / 32) && !inRanges s.marked (pa / 32768)

/-- A marked span initialised to zero (R104, R393). -/
def clearSpan (s : State) (n : Nat) : State :=
  if inRanges s.marked n then
    { s with mem := s.mem.filter (fun e => e.1 / 32768 != n), poison := s.poison.filter (· / 1024 != n)
             marked := cutRange s.marked n }
  else s

/-- One byte written to the array. -/
def putMain (s : State) (pa : Nat) (b : Byte) : State :=
  let s := clearSpan s (pa / 32768)
  { s with mem := mset Memory.unlisted s.mem pa b }

/-- The sectors whose 32 bytes are all among the addresses (R393). -/
def wholeSectors (as : List Nat) : List Nat :=
  (as.filter (· % 32 == 0)).filterMap fun a =>
    if (List.range 32).all fun i => as.contains (a + i) then some (a / 32) else none

/-- Bytes written to the array by one instruction or one row of a job; sectors written whole lose their poison (R393). -/
def putMains (s : State) (cells : List (Nat × Byte)) : State :=
  let s := cells.foldl (fun s c => putMain s c.1 c.2) s
  if s.poison = [] then s
  else
    let whole := wholeSectors (cells.map (·.1))
    { s with poison := s.poison.filter fun k => !whole.contains k }

/-- A 32-byte sector of the array becomes poisoned; in a marked span, after its initialisation (R104, R393). -/
def addPoison (s : State) (pa : Nat) : State :=
  let s := clearSpan s (pa / 32768)
  { s with poison := sadd s.poison (pa / 32) }

/-- Bytes at a physical address. -/
def putBytes (s : State) (pa : Nat) (bs : List Byte) : State :=
  putMains s ((List.range bs.length).map fun i => (pa + i, bs.getD i 0))

/-- A long run of bytes at a physical address. -/
def putRun (s : State) (pa : Nat) (bs : List Byte) : State :=
  let s := (List.range ((pa + bs.length + 32767) / 32768 - pa / 32768)).foldl (fun s k => clearSpan s (pa / 32768 + k)) s
  { s with mem := mputRun Memory.unlisted s.mem pa bs
           poison := s.poison.filter fun k => !(decide (pa ≤ 32 * k) && decide (32 * k + 32 ≤ pa + bs.length)) }

/-- Bytes written through the memory-side cache: their lines are dirty in it (R118). -/
def putCached (s : State) (cells : List (Nat × Byte)) : State :=
  { putMains s cells with lines := ((cells.map fun c => c.1 / 256).eraseDups).foldl (fun m k => mins m k true) s.lines }

/-- Bytes at a physical address, written through the cache. -/
def storeBytesAt (s : State) (pa : Nat) (bs : List Byte) : State :=
  putCached s ((List.range bs.length).map fun i => (pa + i, bs.getD i 0))

/-! ### Translation -/

/-- The outcome of a walk (R101): a fault at a level, a poisoned entry (R403), or a leaf. -/
inductive Walk where
  | fault (level : Nat)
  | poisoned (pa : Nat)
  | leaf (pa : Nat) (f x w r : Bool)
  deriving DecidableEq, Repr

/-- The levels of R100 from the root: level, lowest VA bit indexed, number of VA bits indexed. -/
def levels : List (Nat × Nat × Nat) := [(4, 45, 12), (3, 36, 9), (2, 30, 6), (1, 21, 9), (0, 16, 5)]

/-- The page-table entry at a physical address (R99, R101). -/
def tableWord (s : State) (pa : Nat) : Nat :=
  if pa ≥ Config.memBytes then (mget 0 s.ptes (pa / 8)).toNat else mainNat s pa 8

/-- A reserved field of an entry is not zero: [63:56], or [3:2] of a leaf. R4 asks for zero there and R101 does not name
the case; it fails as the cases of R101 do (notes/assumptions/57.md). -/
def reservedEntry (e : Nat) : Bool := e / 2 ^ 56 != 0 || (e % 4 == 2 && e / 4 % 4 != 0)

/-- The entry at a level names a table in local memory, whose bits [7:2] are zero (R101). -/
def pointsOn (lvl e : Nat) : Bool := e % 4 == 1 && lvl != 0 && !reservedEntry e && e / 4 % 64 == 0 && e / 256 % 2 ^ 48 * 256 / 2 ^ 40 == 0

/-- The walk of R101 from a table at `tbl`. -/
def walkFrom (s : State) (va : Nat) : List (Nat × Nat × Nat) → Nat → Walk
  | [], _ => .fault 0
  | (lvl, sh, bits) :: rest, tbl =>
      let at_ := tbl + 8 * (va / 2 ^ sh % 2 ^ bits)
      if mainPoison s at_ then .poisoned at_
      else
        let e := tableWord s at_
        let ty := e % 4
        let addr := e / 256 % 2 ^ 48 * 256
        let f := e / 128 % 2 == 1
        if pointsOn lvl e then walkFrom s va rest addr
        else if ty ≠ 2 ∨ reservedEntry e then .fault lvl
        else if !f && addr / 2 ^ 40 != 0 then .fault lvl
        else if lvl = 4 ∨ addr % 2 ^ sh ≠ 0 then .fault lvl
        else .leaf (addr + va % 2 ^ sh) f (e / 64 % 2 == 1) (e / 32 % 2 == 1) (e / 16 % 2 == 1)

/-- Translation of a virtual address of the device (R100). -/
def walk (s : State) (d : Device) (va : Nat) : Walk := walkFrom s va levels d.root

/-- Permission bits of a leaf: 1 R, 2 W, 4 X (R364). -/
def permBits (x w r : Bool) : Nat := r.toNat + 2 * w.toNat + 4 * x.toNat

/-- Every permission in `need` is among `have_` (R102). -/
def permOk (need have_ : Nat) : Bool := need &&& have_ == need

/-! ### Sluiced blocks -/

/-- The binding whose region holds a virtual address (R140). -/
def bindingAt (d : Device) (va : Nat) : Option (Nat × Sluice) :=
  (d.bindings.find? fun b => decide (b.2.base ≤ va) && decide (va < b.2.base + b.2.len))

/-- Where firmware keeps the metadata words of pages that do not lie in a device's main memory: a part of its own, 2 bytes
for each 64 of physical memory (R142; notes/assumptions/78.md). -/
def outsideMeta : Nat := 2 ^ 41

/-- Physical address of the metadata words of the bytes from a physical address: 2 bytes for each 64 of the device's main
memory (R142). -/
def wordPa (d : Device) (pa : Nat) : Nat :=
  if d.memPa ≤ pa ∧ pa < d.memPa + d.gib * 2 ^ 30 then d.metaPa + (pa - d.memPa) / 32 else outsideMeta + pa / 32

/-- Physical address of the metadata word of the block stored at a physical address (R142). -/
def metaPa (d : Device) (sl : Sluice) (pa : Nat) : Nat := wordPa d (pa / sl.bs * sl.bs)

def metaAt (s : State) (d : Device) (sl : Sluice) (pa : Nat) : Nat := mainNat s (metaPa d sl pa) 2

/-- A filled block: its plain bytes, its poisoned sectors, the steps of its decoder, the stored bytes read, whether the
slot and its metadata were read once more, and whether the block was poisoned (R396). -/
structure Fill where
  bytes : List Byte
  poison : List Nat
  steps : Nat
  read : Nat
  again : Bool
  crcFail : Bool
  deriving DecidableEq, Repr

/-- The whole block poisoned (R396). -/
def failedFill (bytes : List Byte) (steps read : Nat) : Fill :=
  { bytes := bytes, poison := List.range ((bytes.length + 31) / 32), steps := steps, read := read, again := false, crcFail := true }

/-- A CRC mismatch: the slot and the metadata are read once more, and the second read finds what the first one did
(R396). -/
def crcMismatch (bytes : List Byte) (read : Nat) : Fill := { failedFill bytes 0 (2 * read) with again := true }

/-- A fill of the block whose storage slot is at `pa` (R147, R396). -/
def fillBlock (s : State) (d : Device) (sl : Sluice) (pa _va : Nat) : Fill :=
  let bs := sl.bs
  let word := metaAt s d sl pa
  let stored := mainBytes s pa bs
  let bad := (List.range ((bs + 31) / 32)).filter fun k => mainPoison s (pa + 32 * k)
  let len := word % 32
  let gen := word / 32 % 4
  let raw := word / 128 % 2 == 1
  let crc := word / 256
  let good (out : List Byte) (bad : List Nat) (steps n : Nat) : Fill :=
    { bytes := out, poison := bad, steps := steps, read := n, again := false, crcFail := false }
  if mainPoison s (metaPa d sl pa) then failedFill stored 0 bs
  else if raw && len == 0 then good stored bad 0 bs
  else if raw then
    if len ≠ bs / 8 - 1 then failedFill stored 0 bs
    else if (crc8 stored).toNat = crc then good stored bad 0 bs
    else crcMismatch stored bs
  else if len ≥ bs / 8 then failedFill stored 0 bs
  else
    let n := (len + 1) * 8
    let enc := stored.take n
    if (bad.filter fun k => decide (32 * k < n)) ≠ [] then failedFill stored 0 n
    else if ¬ (gen = sl.cur ∨ (sl.tc = true ∧ gen = sl.old)) then failedFill stored 0 n
    else if (crc8 enc).toNat ≠ crc then crcMismatch stored n
    else
      let r := (Run.start .idle (if gen = sl.cur then sl.dec else sl.oldDec) bs enc).finish (8 * bs + 65)
      if r.fin = .ended ∧ r.out.length = bs then good r.out [] r.steps n else failedFill stored r.steps n

/-! ### Meters (R353) -/

/-- Counter `i` of the device in focus advanced. -/
def meter (s : State) (i n : Nat) : State :=
  { s with vd := { s.vd with meters := setAt s.vd.meters i (natAt s.vd.meters i + n) } }

/-- Some port of the Adit fabric is not down (R440). -/
def linked (s : State) : Bool := (List.range Config.aditPorts).any fun n => (mget Port.fresh s.ports n).mode != .down

/-- Some port is up. What comes from outside, and what goes to another module, waits while none is (R440). -/
def linkUp (s : State) : Bool := (List.range Config.aditPorts).any fun n => (mget Port.fresh s.ports n).mode == .up

/-- Bytes of a page with F = 1 that cross the fabric for the device in focus (R353); a move that needs this while no port is
up waits (R440). -/
def cross (s : State) (n : Nat) : State :=
  if linkUp s then meter s 6 n else { meter s 6 n with stalled := true }

/-- Saturating counters of a die (R392). -/
def satAdd (a n hi : Nat) : Nat := min (a + n) hi

def countDie (s : State) (die : Nat) (f : Die → Die) : State :=
  { s with dies := mset Die.fresh s.dies die (f (mget Die.fresh s.dies die)) }

/-- Stack and die of a local physical address (R99): two stacks of a die. -/
def dieOfPa (pa : Nat) : Nat := stackOf pa / 2

/-- A unit of 128 metadata words is cached, by address / 256. How long a unit stays is open (R147;
notes/assumptions/77.md). -/
def metaHeld (s : State) (k : Nat) : Bool := (mget? s.lines k).isSome && Config.freePick s.draw 12 k

/-- A read of the metadata word of a block of the device in focus: its unit crosses the port where it is not cached
(R147). -/
def countMeta (s : State) (sl : Sluice) (pa : Nat) : State :=
  let k := metaPa s.vd sl pa / 256
  if metaHeld s k then s else meter { s with lines := mins s.lines k false } 3 256

/-- The effects of a fill beside its bytes. -/
def countFill (s : State) (sl : Sluice) (pa : Nat) (f : Fill) : State :=
  let s := meter (meter (countMeta s sl pa) 3 (f.read + 256 * f.again.toNat)) 5 f.steps
  if f.crcFail then countDie s (dieOfPa pa) fun d => { d with slcrc := satAdd d.slcrc 1 255 } else s

/-- The block of a sluiced address of the device in focus, cached, filled where it was not (R147). A block that the fill
poisoned is written back as it leaves the cache, with its poison (R393, R396). -/
def cacheBlock (s : State) (sl : Sluice) (pa va : Nat) : State × Block :=
  let off := va % sl.bs
  match mget? s.cache (pa - off) with
  | some b => (s, b)
  | none =>
      let f := fillBlock s s.vd sl (pa - off) (va - off)
      let b : Block := { bytes := f.bytes, dirty := f.crcFail, poison := f.poison, vd := s.vd.number, va := va - off }
      let s := countFill s sl pa f
      ({ s with cache := mins s.cache (pa - off) b }, b)

/-- The plain byte of a sluiced address and whether it is poisoned: from the cache, or decoded at the port (R147). -/
def sluicedByte (s : State) (sl : Sluice) (pa va : Nat) : Byte × Bool :=
  let off := va % sl.bs
  match mget? s.cache (pa - off) with
  | some b => (b.bytes.getD off 0, b.poison.contains (off / 32))
  | none =>
      let f := fillBlock s s.vd sl (pa - off) (va - off)
      (f.bytes.getD off 0, f.poison.contains (off / 32))

/-- What one read without allocation moves through a port, with the blocks already counted (R147, R353). A block whose
fill fails stands in the cache after it, poisoned (R396). -/
def countRead (s : State) (seen : List Nat) (l : Loc) (n : Nat) : State × List Nat :=
  match l.home with
  | .main =>
      match bindingAt s.vd l.va with
      | some (_, sl) =>
          let pa := l.addr - l.va % sl.bs
          if (mget? s.cache pa).isSome || seen.contains pa then (s, seen)
          else
            let f := fillBlock s s.vd sl pa (l.va - l.va % sl.bs)
            if f.crcFail then ((cacheBlock s sl l.addr l.va).1, seen) else (countFill s sl pa f, pa :: seen)
      | none => (if (mget? s.lines (l.addr / 256)).isSome then s else meter s 3 n, seen)
  | .peer die => (if (mget? s.peerLines (die * 2 ^ 48 + l.addr / 256)).isSome then s else cross s n, seen)
  | _ => (s, seen)

/-- What the reads of one instruction, or of one step of an engine, move through the ports. -/
def countReads (s : State) (ls : List (Loc × Nat)) : State :=
  (ls.foldl (fun (r : State × List Nat) e => countRead r.1 r.2 e.1 e.2) (s, [])).1

/-- The sluiced blocks that hold places of a job's source are filled (R147). -/
def fillBlocks (s : State) (ls : List Loc) : State :=
  ls.foldl (fun s l =>
    if l.home = .main then
      match bindingAt s.vd l.va with
      | some (_, sl) => (cacheBlock s sl l.addr l.va).1
      | none => s
    else s) s

/-! ### Bytes of every home -/

/-- A virtual address that lies in no bound region: the raw view of the array. -/
def rawVa : Nat := 2 ^ 60

/-- Team shared memory of a team, in focus or not. -/
def teamOf (s : State) (t : TRef) : Option Team :=
  if t = s.team.ref then some s.team else s.teams.find? fun x => decide (x.ref = t)

/-- The key of a byte of a die's scratchpad. -/
def scKey (die off : Nat) : Nat := die * 2 ^ 28 + off

def lineKey (die fa : Nat) : Nat := die * 2 ^ 48 + fa / 256

/-- The place of a byte of a translated page, as the die of the core in focus reaches it (R118). -/
def pagePlace (s : State) (pa : Nat) (f : Bool) (va : Nat) : Loc :=
  { home := if f then .peer (s.g.core / 128) else .main, addr := pa, va := va }

/-- Sectors of a die's scratchpad become poisoned (R400). -/
def poisonScratch (s : State) (die : Nat) (bad : List Nat) : State :=
  { s with vd := { s.vd with scPoison := bad.foldl (fun p k => sadd p (scKey die (32 * k) / 32)) s.vd.scPoison } }

/-- The byte at a place and whether it is poisoned, as an agent of the device in focus sees it. -/
def locByte (s : State) (l : Loc) : Byte × Bool :=
  match l.home with
  | .main =>
      match bindingAt s.vd l.va with
      | some (_, sl) => sluicedByte s sl l.addr l.va
      | none => (mainByte s l.addr, mainPoison s l.addr)
  | .shared t =>
      match teamOf s t with
      | some x => (mget 0 x.shared l.addr, x.poison.contains (l.addr / 32))
      | none => (0, false)
  | .scratch _ die => (mget 0 s.vd.scratch (scKey die l.addr), s.vd.scPoison.contains (scKey die l.addr / 32))
  | .peer die =>
      match mget? s.peerLines (lineKey die l.addr) with
      | some b => (b.bytes.getD (l.addr % 256) 0, b.poison.contains (l.addr % 256 / 32))
      | none => (mget 0 s.peer l.addr, s.peerPoison.contains (l.addr / 32))

/-- A change of a team, in focus or not. -/
def onTeam (s : State) (t : TRef) (f : Team → Team) : State :=
  if t = s.team.ref then { s with team := f s.team }
  else { s with teams := s.teams.map fun x => if x.ref = t then f x else x }

/-- The line that holds a fabric address, as the peer module has it. -/
def peerLine (s : State) (fa va : Nat) : Block :=
  { bytes := (List.range 256).map fun i => mget 0 s.peer (fa / 256 * 256 + i), dirty := false
    poison := (List.range 8).filter fun k => s.peerPoison.contains (fa / 256 * 8 + k)
    vd := s.vd.number, va := va }

/-- The line of a page with F = 1 that a store of a die needs: one that it does not hold crosses the fabric (R118, R353). -/
def takeLine (s : State) (die : Nat) (l : Loc) : State × Block :=
  match mget? s.peerLines (lineKey die l.addr) with
  | some b => (s, b)
  | none => (cross s 256, peerLine s l.addr l.va)

/-- One byte written at its place. -/
def putLoc (s : State) (l : Loc) (b : Byte) : State :=
  match l.home with
  | .main =>
      match bindingAt s.vd l.va with
      | some (_, sl) =>
          let (s, blk) := cacheBlock s sl l.addr l.va
          let off := l.va % sl.bs
          { s with cache := mins s.cache (l.addr - off) { blk with bytes := setAt blk.bytes off b, dirty := true } }
      | none => { putMain s l.addr b with lines := mins s.lines (l.addr / 256) true }
  | .shared t => onTeam s t fun x => { x with shared := mset 0 x.shared l.addr b }
  | .scratch _ die => { s with vd := { s.vd with scratch := mset 0 s.vd.scratch (scKey die l.addr) b } }
  | .peer die =>
      let k := lineKey die l.addr
      let (s, blk) := takeLine s die l
      let i := l.addr % 256
      { s with peerLines := mins s.peerLines k { blk with bytes := setAt blk.bytes i b, dirty := true, wrote := sadd blk.wrote i } }

/-- Sectors of each home that the cells cover whole lose their poison (R393). -/
def unpoison (s : State) (cells : List (Loc × Byte)) : State :=
  let whole (p : Loc → Option Nat) : List Nat := wholeSectors (cells.filterMap fun c => p c.1)
  let bound (l : Loc) : Bool := (bindingAt s.vd l.va).isSome
  let mains := whole fun l => if l.home = .main && !bound l then some l.addr else none
  let blocks := whole fun l => if l.home = .main && bound l then some l.addr else none
  let s := { s with poison := s.poison.filter fun k => !mains.contains k }
  let s := { s with cache := s.cache.map fun (e : Nat × Block) =>
    (e.1, { e.2 with poison := e.2.poison.filter fun k => !blocks.contains (e.1 / 32 + k) }) }
  let peers := whole fun l => match l.home with
    | .peer die => some (256 * lineKey die l.addr + l.addr % 256)
    | _ => none
  let s := { s with peerLines := s.peerLines.map fun (e : Nat × Block) =>
    (e.1, { e.2 with poison := e.2.poison.filter fun k => !peers.contains (8 * e.1 + k) }) }
  let scs := whole fun l => match l.home with
    | .scratch _ die => some (scKey die l.addr)
    | _ => none
  let s := { s with vd := { s.vd with scPoison := s.vd.scPoison.filter fun k => !scs.contains k } }
  let one (x : Team) : Team :=
    let sh := whole fun l => if l.home = .shared x.ref then some l.addr else none
    { x with poison := x.poison.filter fun k => !sh.contains k }
  { s with team := one s.team, teams := s.teams.map one }

/-- Some sector somewhere is poisoned. -/
def anyPoison (s : State) : Bool :=
  s.poison != [] || s.vd.scPoison != [] || s.team.poison != [] || s.teams.any (·.poison != [])
    || s.cache.any (·.2.poison != []) || s.peerLines.any (·.2.poison != [])

/-- Sluiced blocks that the cells cover whole and that are not cached enter the cache without a fill (R147). -/
def openBlocks (s : State) (cells : List (Loc × Byte)) : State :=
  cells.foldl (fun s c =>
    if c.1.home = .main then
      match bindingAt s.vd c.1.va with
      | some (_, sl) =>
          let pa := c.1.addr
          if c.1.va % sl.bs = 0 ∧ (mget? s.cache pa).isNone ∧
              ((List.range sl.bs).all fun i => cells.any fun e => e.1.home = .main && e.1.addr == pa + i) then
            { s with cache := mins s.cache pa { bytes := List.replicate sl.bs 0, dirty := true, poison := []
                                                vd := s.vd.number, va := c.1.va } }
          else s
      | none => s
    else s) s

/-- The bytes of an access from its first. -/
def locRun (l : Loc) (n : Nat) : List Loc := (List.range n).map fun i => { l with addr := l.addr + i, va := l.va + i }

/-- The cells of an access. -/
def cellsOf (l : Loc) (bs : List Byte) : List (Loc × Byte) :=
  (List.range bs.length).map fun i => ({ l with addr := l.addr + i, va := l.va + i }, bs.getD i 0)

/-- The bytes of one instruction, or of one row of a job, written at their places. -/
def putLocs (s : State) (cells : List (Loc × Byte)) : State :=
  let s := if s.vd.bindings = [] then s else openBlocks s cells
  let s := cells.foldl (fun s c => putLoc s c.1 c.2) s
  if anyPoison s then unpoison s cells else s

end Sys2Proof.Machine
end

