-- ==== Sys2Proof/Machine/Focus.lean ====
section
/-!
DEFINITION. Machine/Focus.lean: which group, slot, team and device a step acts on, the slots of a group, and the clock.
-/
namespace Sys2Proof.Machine

abbrev Out := Host.Outcome State Fault Refusal

/-- A step that cannot be made in this state. -/
def cannot : Out := .refused .notEnabled

/-- The outcome of a step that has a next state where its condition holds. -/
def may (c : Bool) (s : State) : Out := if c then .next s else cannot

/-- The outcome of a step that has a next state where there is one. -/
def maySome : Option State → Out
  | some s => .next s
  | none => cannot

/-! ### Clock -/

/-- CYCLE of a core: 0 at module reset (R69); after it, the core's count differs from the common clock by a free amount. -/
def cycleOf (s : State) (core : Nat) : Nat := if s.now = 0 then 0 else (s.now + Config.coreSkew core) % 2 ^ 64

/-- CYCLE[31:0] of a core. -/
def cycle32 (s : State) (core : Nat) : Nat := cycleOf s core % 2 ^ 32

/-- Time passes by a free amount, at least one cycle. -/
def tick (s : State) : State := { s with now := s.now + 1 + Config.freeTicks s.draw, draw := s.draw + 1 }

/-! ### Focus -/

/-- Nothing in focus: the group, team and device stand in their lists. -/
def stash (s : State) : State :=
  { s with
    groups := if s.g.ref.team.serial = 0 then s.groups else s.g :: s.groups, g := .idle
    teams := if s.team.ref.serial = 0 then s.teams else s.team :: s.teams, team := .idle
    devices := if s.vd.alive then s.vd :: s.devices else s.devices, vd := .idle }

/-- The first element that satisfies a test, and the others. -/
def pick {α : Type} (p : α → Bool) : List α → Option (α × List α)
  | [] => none
  | x :: t => if p x then some (x, t) else (pick p t).map fun r => (r.1, x :: r.2)

/-- The device with this number in focus. -/
def focusDevice (s : State) (n : Nat) : Option State :=
  if s.vd.alive && s.vd.number == n then some s
  else
    let s := stash s
    (pick (fun d => d.number == n) s.devices).map fun r => { s with vd := r.1, devices := r.2 }

/-- The team with this reference in focus, with its device. -/
def focusTeam (s : State) (t : TRef) : Option State :=
  if t.serial = 0 then none
  else if s.team.ref = t then some s
  else
    (focusDevice (stash s) t.vd).bind fun s =>
      (pick (fun x => decide (x.ref = t)) s.teams).map fun r => { s with team := r.1, teams := r.2 }

/-- The group with this reference in focus, with its team and device. -/
def focusGroup (s : State) (r : GRef) : Option State :=
  if r.team.serial = 0 then none
  else if s.g.ref = r then some s
  else
    (focusTeam s r.team).bind fun s =>
      let gs := if s.g.ref.team.serial = 0 then s.groups else s.g :: s.groups
      (pick (fun x => decide (x.ref = r)) gs).map fun q => { s with g := q.1, groups := q.2 }

/-- The groups of the machine. -/
def allGroups (s : State) : List Group := if s.g.ref.team.serial = 0 then s.groups else s.g :: s.groups

/-- The teams of the machine. -/
def allTeams (s : State) : List Team := if s.team.ref.serial = 0 then s.teams else s.team :: s.teams

def allDevices (s : State) : List Device := if s.vd.alive then s.vd :: s.devices else s.devices

/-- A change of every group that satisfies a test. -/
def onGroups (s : State) (p : Group → Bool) (f : Group → Group) : State :=
  let h (g : Group) : Group := if p g then f g else g
  { s with g := h s.g, groups := s.groups.map h }

/-- A change of every team that satisfies a test. -/
def onTeams (s : State) (p : Team → Bool) (f : Team → Team) : State :=
  let h (t : Team) : Team := if p t then f t else t
  { s with team := h s.team, teams := s.teams.map h }

def onDevice (s : State) (n : Nat) (f : Device → Device) : State :=
  let h (d : Device) : Device := if d.alive && d.number == n then f d else d
  { s with vd := h s.vd, devices := s.devices.map h }

def onCore (s : State) (n : Nat) (f : Core → Core) : State :=
  { s with cores := mset Core.fresh s.cores n (f (mget Core.fresh s.cores n)) }

def coreAt (s : State) (n : Nat) : Core := mget Core.fresh s.cores n

/-- The team holds cores. -/
def Team.resident (t : Team) : Bool := t.mode == .running && t.ref.serial != 0

/-- The groups of a team. -/
def groupsOf (s : State) (t : TRef) : List Group := (allGroups s).filter fun g => decide (g.ref.team = t)

/-- The group has a lane that has not exited. -/
def Group.active (g : Group) : Bool := g.exited != 0xffffffff

/-- Lanes that have not exited. -/
def Group.present (g : Group) : Word := ~~~g.exited

/-! ### Slots -/

def Group.slot (g : Group) : SlotId → PcSlot
  | .A => g.a
  | .B => g.b

def Group.setSlot (g : Group) (i : SlotId) (p : PcSlot) : Group :=
  match i with
  | .A => { g with a := p }
  | .B => { g with b := p }

/-- A slot is live when its mask is not zero (R26). -/
def PcSlot.live (p : PcSlot) : Bool := p.mask != 0

/-- The slot waits at a barrier instruction; one held at `bar.arr` has not executed it yet (R200, R278). -/
def PcSlot.atBarrier (p : PcSlot) : Bool :=
  match p.wait with
  | .barrier _ _ => p.live
  | _ => false

def slotBit : SlotId → Nat
  | .A => 0
  | .B => 1

/-- The issuing slot. -/
def cur (s : State) : PcSlot := s.g.slot s.slot

def setCur (s : State) (p : PcSlot) : State := { s with g := s.g.setSlot s.slot p }

/-- `%exec` (R26). -/
def execMask (s : State) : Word := (cur s).mask

/-- The group's role. -/
def roleOf (s : State) : RoleDecl := s.team.kernel.roles.getD s.g.role { groups := 0, vregs := 0, sregs := 0 }

/-- What decoding checks words of the group against. -/
def budgetOf (s : State) : Budget :=
  { v := (roleOf s).vregs, s := (roleOf s).sregs, queues := s.team.kernel.queues.map fun q => q.entry / 4 }

/-! ### Clause position (R204, R209) -/

/-- Number of instructions of the clause under which the slot stands. -/
def PcSlot.count (p : PcSlot) : Nat := p.head.toNat / 2 ^ 52 % 16 + 1

/-- Address of the word after the clause. -/
def PcSlot.after (p : PcSlot) : Addr := p.hdr + BitVec.ofNat 57 (8 * (p.count + 1))

/-- The next address of the instruction at the slot's pc (R209). -/
def nextAddr (i : Instr) (p : PcSlot) : Addr := if i.endsClause then p.after else p.pc + 8

/-- The slot at an address in sequence: still in its clause, or at the following header. -/
def PcSlot.moveTo (p : PcSlot) (now : Nat) (a : Addr) : PcSlot :=
  if a = p.after then
    { p with pc := a, stand := .header, wait := .running, since := now, ageless := p.head.toNat / 2 ^ 27 % 2 == 1, waits := none }
  else { p with pc := a, wait := .running, since := now }

/-- The slot at a branch target, which is checked when it is next considered (R210). -/
def PcSlot.jump (p : PcSlot) (now : Nat) (a : Addr) : PcSlot :=
  { p with pc := a, stand := .arrived, wait := .running, since := now
           ageless := p.head.toNat / 2 ^ 27 % 2 == 1, waits := none }

/-- The slot waiting at its instruction, its port released (R195); the rest of its clause is a candidate anew (R208). -/
def PcSlot.pause (p : PcSlot) (w : Wait) : PcSlot := { p with stand := .paused, wait := w, waits := none }

/-- The slot's first instruction since `dbg.run` has issued (R429); one that waits to be executed again is still that one. -/
def PcSlot.uncalm (p : PcSlot) : PcSlot :=
  match p.wait with
  | .running | .join | .sift | .branchSift => { p with calm := false }
  | _ => p

/-- The slot inside its clause, its port released. -/
def PcSlot.release (p : PcSlot) : PcSlot := if p.stand = .issuing then { p with stand := .paused } else p

/-- The group holds no port. -/
def Group.release (g : Group) : Group := { g with a := g.a.release, b := g.b.release }

end Sys2Proof.Machine
end

