-- ==== Sys2Proof/Machine/Ops.lean ====
section
/-!
DEFINITION. Machine/Ops.lean: the named operations over registers, stores, records and handles; taking an exception
(R366 to R370) as one shared operation, and the return from one (R318) beside it.
-/
namespace Sys2Proof.Machine

/-! ### Registers (R48 to R63) -/

def vreg (g : Group) (n : Nat) : VReg := mget VReg.zero g.vregs n

def sreg (g : Group) (n : Nat) : Word := mget 0 g.sregs n

def hreg (g : Group) (n : Nat) : Dword := mget 0 g.hregs n

def setSreg (g : Group) (n : Nat) (x : Word) : Group := { g with sregs := mset 0 g.sregs n x }

def setHreg (g : Group) (n : Nat) (x : Dword) : Group := { g with hregs := mset 0 g.hregs n x }

/-- A scalar pair (R49). -/
def spair (g : Group) (n : Nat) : Dword := (sreg g (n + 1)) ++ (sreg g n)

def setSpair (g : Group) (n : Nat) (x : Dword) : Group :=
  setSreg (setSreg g n (x.truncate 32)) (n + 1) ((x >>> 32).truncate 32)

/-- The lanes of `new` where the mask is set and of `old` elsewhere (R63). -/
def mergeLanes (mask : Word) (old new : List Word) : List Word :=
  tabulate fun l => if laneOn mask l then laneAt new l else laneAt old l

/-- The register with lanes and tag written; with no lane set nothing changes (R52). -/
def setVreg (g : Group) (n : Nat) (mask : Word) (lanes : List Word) (tag : Tag) : Group :=
  if mask = 0 then g
  else { g with vregs := mset VReg.zero g.vregs n { tag := tag, lanes := mergeLanes mask (vreg g n).lanes lanes } }

/-- One register write applied. -/
def applyWrite (g : Group) : RegWrite → Group
  | .vec n mask lanes tag => setVreg g n mask lanes tag
  | .sca n x => setSreg g n x
  | .hnd n x => setHreg g n x

def applyWrites (g : Group) (ws : List RegWrite) : Group := ws.foldl applyWrite g

/-- Two writes have one destination register. -/
def RegWrite.same : RegWrite → RegWrite → Bool
  | .vec n _ _ _, .vec m _ _ _ => n == m
  | .sca n _, .sca m _ => n == m
  | .hnd n _, .hnd m _ => n == m
  | _, _ => false

/-- In-flight writes to the destination of `w` land before it does (R62). -/
def settle (g : Group) (w : RegWrite) : Group :=
  let due := (g.inflight.map fun i => i.writes.filter (·.same w)).flatten
  if due = [] then g
  else
    { applyWrites g due with
      inflight := g.inflight.map fun i => { i with writes := i.writes.filter fun x => !x.same w } }

/-- A register write made at once, after earlier ones to its destination (R62). -/
def putReg (g : Group) (w : RegWrite) : Group := applyWrite (settle g w) w

def putRegs (g : Group) (ws : List RegWrite) : Group := ws.foldl putReg g

/-- The in-flight value of a register's lane, newest first. -/
def pendingLane (g : Group) (n l : Nat) : Option Word :=
  g.inflight.reverse.findSome? fun i => i.writes.reverse.findSome? fun w =>
    match w with
    | .vec m mask lanes _ => if m = n ∧ laneOn mask l then some (laneAt lanes l) else none
    | _ => none

def pendingTag (g : Group) (n : Nat) : Option Tag :=
  g.inflight.reverse.findSome? fun i => i.writes.reverse.findSome? fun w =>
    match w with
    | .vec m mask _ t => if m = n ∧ mask ≠ 0 then some t else none
    | _ => none

def pendingSca (g : Group) (n : Nat) : Option Word :=
  g.inflight.reverse.findSome? fun i => i.writes.reverse.findSome? fun w =>
    match w with
    | .sca m x => if m = n then some x else none
    | _ => none

def pendingHnd (g : Group) (n : Nat) : Option Dword :=
  g.inflight.reverse.findSome? fun i => i.writes.reverse.findSome? fun w =>
    match w with
    | .hnd m x => if m = n then some x else none
    | _ => none

/-- An early read of a register with an incomplete write returns the old or the new value (R62). -/
def early {α : Type} (s : State) (key l : Nat) (old : α) (new : Option α) : α :=
  match new with
  | none => old
  | some x => if Config.freePick s.draw key l then x else old

/-- Lane `l` of a vector register as an instruction reads it. -/
def readV (s : State) (n l : Nat) : Word := early s n l (laneAt (vreg s.g n).lanes l) (pendingLane s.g n l)

def readTag (s : State) (n : Nat) : Tag := early s n 32 (vreg s.g n).tag (pendingTag s.g n)

def readS (s : State) (n : Nat) : Word := early s (512 + n) 0 (sreg s.g n) (pendingSca s.g n)

def readH (s : State) (n : Nat) : Dword := early s (1024 + n) 0 (hreg s.g n) (pendingHnd s.g n)

/-- Lane `l` of a register as another lane reads it: 0 once its slice has returned (R58). -/
def readVCross (s : State) (n l : Nat) : Word := if s.g.returned.getLsbD (l / 8) then 0 else readV s n l

/-! ### Code (R204) -/

/-- A word of code at a virtual address, or the cause that its fetch raises (R390): a fetch needs X alone (R102). The word of
a page with F = 1 comes from the peer module, or from the line of it that the die holds. A poisoned word is not taken for a
value: its fetch consumes poison of `.g` (R394, R404; notes/assumptions/100.md). -/
def fetchWord (s : State) (a : Addr) : Except (Nat × Nat) Dword :=
  match walk s s.vd a.toNat with
  | .fault lvl => .error (0x400, lvl)
  | .poisoned _ => .error (0x406, 8)
  | .leaf pa f x _ _ =>
      if !x then .error (0x401, 4)
      else if f then
        let bs := (locRun (pagePlace s pa true a.toNat) 8).map (locByte s)
        if bs.any (·.2) then .error (0x406, 0) else .ok (w64 (leNat (bs.map (·.1))))
      else if mainPoison s pa then .error (0x406, 0)
      else .ok (w64 (mainNat s pa 8))

/-- The word has the mark of a clause header (R210). -/
def marked (w : Dword) : Bool := w.toNat / 2 ^ 56 == 0xca

/-! ### Messages and records (R345, R358, R371, R419) -/

/-- A message to the host, dropped where every port is down (R440). -/
def send (s : State) (tag : Word) (cmd : Byte) (vd : Nat) (payload : List Byte) : State :=
  { s with outbox := if linked s then s.outbox ++ [{ channel := 0, tag := tag, cmd := cmd, vd := vd, payload := payload }] else s.outbox }

/-- A message about the device in focus: its bytes cross the fabric for the device (R345, R353). -/
def sendFor (s : State) (tag : Word) (cmd : Byte) (payload : List Byte) : State :=
  send (meter s 6 (16 + payload.length)) tag cmd s.vd.number payload

/-- Sizes of the parts of a context region, in the order of R180, each on a page of its own. -/
def ctxParts (cores sump : Nat) : List Nat :=
  let page (n : Nat) : Nat := (n + 65535) / 65536 * 65536
  [page (5242880 * cores), page (2097152 * cores), page (64 * sump * cores), 16777216, 65536, 4259840, 131072, 65536]

/-- Physical address of part `i` of the device's context region (R180). -/
def ctxPart (d : Device) (i : Nat) : Nat := d.ctxPa + ((ctxParts d.pcores d.sumpLimit).take i).foldl (· + ·) 0

def sumpPart : Nat := 2
def poolPart : Nat := 3
def stampPart : Nat := 5
def logPart : Nat := 6
def mailPart : Nat := 7

/-- Virtual addresses at which firmware maps the views of the context region (R351, R358, R371, R419), the parameter
pool and the code versions. -/
def stampVa : Nat := 2 ^ 56
def logVa : Nat := 2 ^ 56 + 0x800000
def mailVa : Nat := 2 ^ 56 + 0xc00000
def poolVa : Nat := 2 ^ 56 + 0x10000000
def codeBase : Nat := 2 ^ 56 + 0x40000000

/-- Fields packed from the low end: each is a value and its width in bits. -/
def pack : List (Nat × Nat) → Nat
  | [] => 0
  | (x, w) :: t => x % 2 ^ w + 2 ^ w * pack t

/-- A record written to a ring of the context region, and the count before it (R359). -/
def writeRing (s : State) (part off size slots i : Nat) (bytes : List Byte) : State :=
  let pa := ctxPart s.vd part
  let s := storeBytesAt s (pa + off + size * (i % slots)) bytes
  storeBytesAt s pa (leBytes 8 (i + 1))

/-- A 32-byte stamp record enters the buffer (R358, R359). -/
def writeStamp (s : State) (bytes : List Byte) : State :=
  let i := s.vd.stamps
  writeRing { s with vd := { s.vd with stamps := i + 1 } } stampPart 65536 32 131072 i bytes

/-- The stamp record of R176. -/
def stampRecord (t : Team) (core kind tile t0 t1 t2 t3 : Nat) : List Byte :=
  leBytes 32 (pack [(t.z, 16), (t.y, 16), (t.x, 31), (0, 37), (kind, 3), (core, 9), (tile, 16), (t0, 32), (t1, 32),
    (t2, 32), (t3, 32)])

/-- An error log record is written and sent to the host (R371 to R373). -/
def writeLog (s : State) (cyc pc addr cause mask act core gid x y z : Nat) : State :=
  let i := s.vd.logged
  let bytes := leBytes 64 (pack [(0, 96), (z, 16), (y, 16), (x, 31), (0, 1), (gid, 9), (s.vd.number, 6), (core, 9),
    (act, 8), (mask, 32), (cause, 32), (addr, 64), (pc, 64), (cyc, 64), (i, 64)])
  let s := writeRing { s with vd := { s.vd with logged := i + 1 } } logPart 4096 64 1024 i bytes
  sendFor s 0 0xe0 bytes

/-- A stop record of a group is written and sent to the host (R419, R421). -/
def writeStop (s : State) (g : Group) (why wp : Nat) (hits : Word) : State :=
  let i := s.vd.stops
  let t := s.team
  let pcOf (p : PcSlot) : Nat := if p.live then p.pc.toNat else 0
  let bytes := leBytes 128 (pack ([(0, 232), (t.z, 16), (t.y, 16), (t.x, 31), (0, 1), (g.ref.gid, 9), (s.vd.number, 6),
    (g.core, 9), (wp, 8), (why, 8), (0, 16), (g.exited.toNat, 32), (hits.toNat, 32), (g.parked.toNat, 32),
    (g.a.mask.toNat, 32), (g.b.mask.toNat, 32), (pcOf g.a, 64), (pcOf g.b, 64), (cycleOf s g.core, 64), (i, 64)]
    ++ (List.range 16).map fun n => ((mget 0 t.phases n).toNat, 16)))
  let s := writeRing { s with vd := { s.vd with stops := i + 1 } } mailPart 4096 128 256 i bytes
  sendFor s 0 0xe2 bytes

/-- A write that changes OUT of the debug mailbox sends the records it publishes (R420); one with a poisoned byte is not sent,
since that byte is no value (R404; notes/assumptions/101.md). -/
def checkOut (s : State) : State :=
  if s.vd.alive then
    let pa := ctxPart s.vd mailPart
    let o := mainNat s (pa + 8) 8
    if o = s.vd.out then s
    else
      let n := (o + 2 ^ 64 - s.vd.out) % 2 ^ 64
      let s' := if n ≤ 256 then
          (List.range n).foldl (fun t j =>
            let at_ := pa + 36864 + 64 * ((s.vd.out + j) % 256)
            if mainPoison s at_ || mainPoison s (at_ + 32) then t else sendFor t 0 0xe1 (mainBytes s at_ 64)) s
        else s
      { s' with vd := { s'.vd with out := o } }
  else s

/-- The home without the die that caches it. -/
def Home.store : Home → Home
  | .peer _ => .peer 0
  | h => h

/-- Two places are one byte of one view: the raw views of R96 are apart from the plain one. -/
def Loc.same (a b : Loc) : Bool :=
  decide (a.home.store = b.home.store) && a.addr == b.addr && decide (rawVa ≤ a.va) == decide (rawVa ≤ b.va)

/-- Some `gauge.wait` is pending on the word. -/
def gaugePending (s : State) (l : Loc) : Bool := (allTeams s).any fun t => t.gaugers.any fun w => w.1.same l

/-- The 16-byte word that holds a place. -/
def Loc.word (l : Loc) : Loc := { l with addr := l.addr - l.addr % 16, va := l.va - l.addr % 16 }

/-- The bits [126:102] of a gauge word in its byte `i` (R111). -/
def gaugeKept (i : Nat) : Byte := if i = 12 then 0xc0 else if i = 15 then 0x7f else if i = 13 ∨ i = 14 then 0xff else 0

/-- The bits of a byte in memory that are RO to a program's writes: a queue's header (R280), the stop records of the debug
mailbox (R421), and W and the reserved bits of a gauge word on which a wait is pending (R111; notes/assumptions/58.md). -/
def readOnlyBits (s : State) (l : Loc) : Byte :=
  let gauge : Byte := if gaugeKept (l.addr % 16) ≠ 0 ∧ gaugePending s l.word = true then gaugeKept (l.addr % 16) else 0
  match l.home with
  | .shared t =>
      if (teamOf s t).any fun x => x.kernel.queues.any fun q => decide (q.base ≤ l.addr) && decide (l.addr < q.base + 16) then 0xff
      else gauge
  | .main =>
      let rec_ := ctxPart s.vd mailPart + 4096
      if s.vd.alive && decide (rec_ ≤ l.addr) && decide (l.addr < rec_ + 32768) then 0xff else gauge
  | _ => gauge

/-- What a program's write makes of a byte: its RO bits stay (R5). -/
def keepReadOnly (s : State) (c : Loc × Byte) : Loc × Byte :=
  let m := readOnlyBits s c.1
  if m = 0 then c else (c.1, ((locByte s c.1).1 &&& m) ||| (c.2 &&& ~~~m))

/-- Bytes of the device in focus that become visible together. -/
def putAll (s : State) (cells : List (Loc × Byte)) : State := checkOut (putLocs s cells)

/-- The same of a program's write, by an instruction, a job or a peer. -/
def putVisible (s : State) (cells : List (Loc × Byte)) : State := putAll s (cells.map (keepReadOnly s))

/-! ### Stores of a group (R126) -/

/-- The oldest queued store becomes visible. -/
def popStore (s : State) : State :=
  match s.g.stores with
  | [] => s
  | q :: rest => putVisible { s with g := { s.g with stores := rest } } q.cells

/-- The store queue drains: every queued store becomes visible, oldest first. -/
def drainStores (s : State) : State :=
  s.g.stores.foldl (fun s q => putVisible s q.cells) { s with g := { s.g with stores := [] } }

/-- The byte that the group's own queue holds for a place, newest first (R126). -/
def queuedByte (g : Group) (l : Loc) : Option Byte :=
  g.stores.reverse.findSome? fun q => q.cells.reverse.findSome? fun c => if c.1.same l then some c.2 else none

/-- The byte that a load of the group sees, and whether it is poisoned. -/
def loadByte (s : State) (l : Loc) : Byte × Bool :=
  match queuedByte s.g l with
  | some b => (b, false)
  | none => locByte s l

/-! ### Gauge words (R111, R299) -/

/-- The 128 bits of a gauge word. -/
def gaugeAt (s : State) (l : Loc) : Nat := leNat ((locRun l 16).map fun x => (locByte s x).1)

/-- A byte of the gauge word is poisoned. -/
def gaugePoison (s : State) (l : Loc) : Bool := (locRun l 16).any fun x => (locByte s x).2

def putGauge (s : State) (l : Loc) (g : Nat) : State := putAll s (cellsOf l (leBytes 16 g))

/-- A gauge word with a field replaced: its lowest bit, its width and its value. -/
def setField (g lo w x : Nat) : Nat := g - g / 2 ^ lo % 2 ^ w * 2 ^ lo + x % 2 ^ w * 2 ^ lo

/-- W of the word follows whether a wait is pending (R299). -/
def showPending (s : State) (l : Loc) : State :=
  putGauge s l (setField (gaugeAt s l) 126 1 (gaugePending s l).toNat)

/-- Waits of the team in focus on gauge words are over: the words' W bits follow (R299). -/
def dropWaits (s : State) (p : Loc × Nat × SlotId → Bool) : State :=
  let gone := s.team.gaugers.filter p
  gone.foldl (fun s w => showPending s w.1) { s with team := { s.team with gaugers := s.team.gaugers.filter fun w => !p w } }

/-! ### Handles (R164, R165) -/

def handleWord (vd origin kind serial : Nat) : Dword :=
  w64 (pack [(serial, 47), (kind, 2), (origin, 9), (vd, 6)])

def handleKind (h : Dword) : Nat := h.toNat / 2 ^ 47 % 4
def handleOrigin (h : Dword) : Nat := h.toNat / 2 ^ 49 % 512
def handleVd (h : Dword) : Nat := h.toNat / 2 ^ 58
def handleSerial (h : Dword) : Nat := h.toNat % 2 ^ 47

/-- The serial that the next handle of an origin and kind takes; serials start at 1. -/
def nextSerial (d : Device) (origin kind : Nat) : Nat := mget 1 d.serials (origin * 4 + kind)

/-- A new handle of the device in focus. -/
def newHandle (s : State) (origin kind : Nat) : State × Dword :=
  let n := nextSerial s.vd origin kind
  ({ s with vd := { s.vd with serials := mset 1 s.vd.serials (origin * 4 + kind) (n + 1) } },
   handleWord s.vd.number origin kind n)

/-- A status word (R165). -/
def statusWord (state : Nat) (fb gd sb qs : Bool) (code : Nat) : Word :=
  w32 (state * 2 ^ 30 + fb.toNat * 2 ^ 28 + gd.toNat * 2 ^ 27 + sb.toNat * 2 ^ 26 + qs.toNat * 2 ^ 25 + code)

/-- Work named by the handle has not finished. -/
def unresolved (d : Device) (h : Dword) : Bool :=
  d.jobs.any (fun j => j.handle = h) || d.launches.any (fun j => j.handle = h) || d.loads.any (fun j => j.handle = h)
    || d.bindings.any fun b => (b.2.handle = h && b.2.tc) || (b.2.unHandle = h && b.2.unbinding)

/-- The status word that a reader of the device in focus gets (R165). -/
def statusOf (s : State) (h : Dword) : Word :=
  if h = 0 then 0x40000000
  else if handleVd h ≠ s.vd.number ∨ handleSerial h = 0
      ∨ handleSerial h ≥ nextSerial s.vd (handleOrigin h) (handleKind h) then statusWord 3 false false false false 0x504
  else if handleSerial h + Config.statusesKept < nextSerial s.vd (handleOrigin h) (handleKind h) then 0x60000000
  else if unresolved s.vd h then 0
  else match s.vd.statuses.find? fun e => e.1 = h with
    | some e => e.2
    | none => 0x60000000

/-- The handle is resolved when its STATE is not 0 (R165). -/
def resolved (s : State) (h : Dword) : Bool := (statusOf s h).toNat / 2 ^ 30 != 0

/-- A handle resolves with a status word: its work is no longer held, and later jobs no longer follow it (R135). -/
def resolve (d : Device) (h : Dword) (w : Word) : Device :=
  { d with
    jobs := (d.jobs.filter fun j => j.handle ≠ h).map fun j => { j with preds := j.preds.filter (· ≠ h) }
    launches := d.launches.filter fun j => j.handle ≠ h
    loads := d.loads.filter fun j => j.handle ≠ h
    statuses := (h, w) :: d.statuses }

/-- What `hcancel` and the ending of a team do to a job (R307): one that has not started resolves at once with STATE 2,
one that runs is asked to stop, and a sent follow-on is left. -/
def cancelJob (d : Device) (j : Job) : Device :=
  if j.sent then d
  else if j.started then { d with jobs := d.jobs.map fun k => if k.handle = j.handle then { k with cancel := true } else k }
  else resolve d j.handle (statusWord 2 false false false false 0)

/-! ### Grids and the ending of a team (R370) -/

def Grid.total (g : Grid) : Nat := g.nx * g.ny * g.nz

/-- Every team of the grid has been placed or discarded and none is left. -/
def Grid.ended (g : Grid) : Bool := decide (g.total ≤ g.next) && g.live == 0

/-- A launch execution resolves once every child has ended (R284, R307, R370); of a fault of one child and the removal of
another the fault is told (notes/assumptions/111.md). -/
def settleLaunches (d : Device) : Device :=
  d.launches.foldl (fun d l =>
    if l.children = [] then
      resolve d l.handle
        (if l.refused then statusWord 3 false false false false 0x506
         else match l.fault with
           | some c => statusWord 3 false false false false c
           | none => statusWord (if l.removed then 2 else 1) false false false false 0)
    else d) d

/-- Grids that have ended leave the device: their parameter areas return, the host is told (R345), and the launches that
made them take note (R370). -/
def settleGrids (s : State) : State :=
  let done := s.vd.grids.filter Grid.ended
  let s := done.foldl (fun s g =>
    match g.tag with
    | some t => sendFor s t 0xd0 (leBytes 4 (g.fault.getD 0) ++ leBytes 4 0)
    | none => s) s
  let gone (n : Nat) : Bool := done.any (·.serial == n)
  let d := s.vd
  let d := { d with
    grids := d.grids.filter fun g => !g.ended
    pool := d.pool.filter fun r => !(done.any fun g => g.params == r.1)
    launches := d.launches.map fun l =>
      { l with children := l.children.filter fun n => !gone n } }
  { s with vd := settleLaunches d }

/-- A grid marked faulted: its first fault stays and its unplaced teams are discarded; an execution of `launch` keeps the
first fault among its children (R370). -/
def faultGrid (d : Device) (n code : Nat) : Device :=
  { d with
    grids := d.grids.map fun g =>
      if g.serial = n then { g with fault := some (g.fault.getD code), next := max g.next g.total } else g
    launches := d.launches.map fun l =>
      if l.children.contains n then { l with fault := some (l.fault.getD code) } else l }

/-! ### The queue (R184, R186, R203) -/

def gridOf (d : Device) (n : Nat) : Option Grid := d.grids.find? fun g => g.serial == n

/-- A team of the queue: its level, its serial or that of its grid, and for a grid its linear index plus one. -/
structure Cand where
  level : Nat
  serial : Nat
  index : Nat
  deriving DecidableEq, Repr

/-- The teams that the headframe considers, in its order: of each grid its earliest unplaced team. -/
def candidates (s : State) : List Cand :=
  let lvl (t : TRef) : Nat :=
    (((teamOf s t).bind fun x => gridOf s.vd x.grid).map (·.prio)).getD 0
  ((List.range 8).reverse.map fun p =>
    ((s.vd.waiting.filter fun t => lvl t == p).map fun t => { level := p, serial := t.serial, index := 0 })
      ++ ((s.vd.grids.filter fun g => g.prio == p && decide (g.next < g.total)).map fun g =>
        { level := p, serial := g.serial, index := g.next + 1 })).flatten

/-- The device in focus takes note of its earliest unplaced team (R186) and of having nothing to do (R198). -/
def settleQueue (s : State) : State :=
  let cs := candidates s
  let busy : Bool := cs != [] || (allTeams s).any fun t => t.ref.vd == s.vd.number && t.resident
  let head : Option Head :=
    match cs with
    | [] => none
    | c :: _ =>
        match s.vd.head with
        | some h =>
            if h.level = c.level ∧ h.serial = c.serial ∧ h.index = c.index then some h
            else some { level := c.level, serial := c.serial, index := c.index, since := s.now, starved := false }
        | none => some { level := c.level, serial := c.serial, index := c.index, since := s.now, starved := false }
  { s with vd := { s.vd with head := head, idleSince := if busy then none else some (s.vd.idleSince.getD s.now) } }

/-! ### Teams that end (R370, R405) -/

/-- Every queued store of the groups of the team in focus is performed (R405). -/
def drainTeam (s : State) : State :=
  let s := (groupsOf s s.team.ref).foldl (fun s g => g.stores.foldl (fun s q => putVisible s q.cells) s) s
  onGroups s (fun g => decide (g.ref.team = s.team.ref)) fun g => { g with stores := [] }

/-- The passes that go on when their team ends: a follow-on that has been sent retires and resolves its handle (R307,
R370). -/
def sentPasses (ps : SMap (List Pass)) : SMap (List Pass) :=
  (ps.map fun e => (e.1, e.2.filter fun p => p.handle ≠ 0)).filter fun e => e.2 ≠ []

/-- Lane-instructions counted for the team and the device (R321, R353). -/
def countLanes (s : State) (n : Nat) : State :=
  if n = 0 then s
  else meter { s with team := { s.team with counts := setAt s.team.counts 2 (natAt s.team.counts 2 + n) } } 2 n

/-- A canary whose `wp.set` completes applies from now on (R423). -/
def Canary.set (c : Canary) (mark now : Nat) : Canary := if c.placing = some mark then { c with placing := none, since := now } else c

/-- The canaries that a `wp.set` has placed apply from now on, wherever they stand: in the banks of cores and in the records
of saved teams (R423). -/
def setCanaries (s : State) (mark : Nat) : State :=
  let bank (b : SMap Canary) : SMap Canary := b.map fun e => (e.1, e.2.set mark s.now)
  onTeams { s with cores := s.cores.map fun (e : Nat × Core) => (e.1, { e.2 with canaries := bank e.2.canaries }) } (fun _ => true)
    fun t => { t with bank := bank t.bank }

/-- What the completion of an instruction does beside the group's registers: the lanes it counts, and the canaries it has
placed. -/
def landOutside (s : State) (f : InFlight) : State := (f.arm.map (setCanaries (countLanes s f.lanes))).getD (countLanes s f.lanes)

/-- The instructions in flight in the team in focus that have acted on memory or on the device complete; the others have no
effect (R405; notes/assumptions/79.md). -/
def landActed (s : State) : State :=
  ((groupsOf s s.team.ref).map (·.inflight)).flatten.foldl (fun s f => if f.acted then landOutside s f else s) s

/-- The team in focus stops and its jobs are cancelled (R370, R405); TEAM_END frees it once they have resolved. With
`again`, it is relaunched then (R401). A cause of kind S that waits for its group to drain is still delivered to firmware
(R369, R371). -/
def endTeam (s : State) (code : Nat) (again : Bool) : State :=
  let s := landActed (dropWaits (drainTeam s) fun _ => true)
  let s := onGroups s (fun g => decide (g.ref.team = s.team.ref)) fun g =>
    { g with inflight := [], entry := g.entry.filter fun c => decide (c.kind = .sup), pendA := none, pendB := none }
  let js := s.vd.jobs.filter fun j => decide (j.team = s.team.ref)
  let d := js.foldl cancelJob s.vd
  let d := if again then { d with grids := d.grids.map fun g =>
      if g.serial = s.team.grid then { g with relaunched := true } else g }
    else faultGrid d s.team.grid code
  settleQueue { s with vd := d, team := { s.team with ending := true, relaunch := again, passes := sentPasses s.team.passes } }

/-- An intake load resolves with a status word, and the host is told (R343, R345). -/
def resolveLoad (s : State) (l : Load) (w : Word) : State :=
  sendFor { s with vd := resolve s.vd l.handle w } l.tag 0xd1
    (leBytes 8 l.handle.toNat ++ leBytes 4 w.toNat ++ leBytes 4 0)

/-- The physical ranges that a device holds (R142, R180, R351). -/
def rangesOf (d : Device) : List (Nat × Nat) :=
  [(d.memPa, d.memPa + d.gib * 2 ^ 30), (d.metaPa, d.metaPa + d.gib * 2 ^ 25), (d.ctxPa, d.ctxPa + d.ctxLen)]
    ++ d.codes.map fun c => (c.pa, c.pa + c.size)

/-- A device is destroyed (R351, R371, R443): its teams stop and their queued stores are dropped, its jobs and loads are
cancelled, its cached lines are discarded, one record is logged, and its memory, connections, cores and number are
free. -/
def dropDevice (s : State) (n : Nat) : State :=
  match focusDevice (stash s) n with
  | none => s
  | some s =>
      let d := s.vd
      let s := d.loads.foldl (fun s l => resolveLoad s l (statusWord 2 false false false false 0)) s
      let s := writeLog s (cycleOf s 0) 0 0 0 0 3 0 0 0 0 0
      let rs := rangesOf d
      let mine (r : Run) : Bool := r.why.vd == some n
      { s with
        vd := .idle
        groups := s.groups.filter fun g => g.ref.team.vd != n
        teams := s.teams.filter fun t => t.ref.vd != n
        partitions := s.partitions.filter fun p => p.number != d.partition || s.devices.any fun e => e.partition == p.number
        cores := s.cores.foldl (fun m e => mset Core.fresh m e.1
          { e.2 with canaries := e.2.canaries.filter fun (c : Nat × Canary) => c.2.vd != n }) []
        used := s.used.filter fun r => !rs.contains r
        cache := s.cache.filter fun (e : Nat × Block) => e.2.vd != n
        lines := s.lines.filter fun (e : Nat × Bool) => !inRanges rs (256 * e.1)
        peerLines := s.peerLines.filter fun (e : Nat × Block) => e.2.vd != n
        encodes := s.encodes.filter fun e => e.vd != n
        run := if mine s.run then .idle else s.run
        runs := s.runs.filter fun r => !mine r
        conns := s.conns.filter fun c => c.vd != n }

/-- The module destroys a device: later commands for it receive status 10 (R434). -/
def loseDevice (s : State) (n : Nat) : State := { dropDevice s n with gone := sadd s.gone n }

/-- Whether firmware's repair of a page table fails is open (R403). -/
def repairFails (s : State) : Bool := Config.freePick s.draw 9 0

/-- Firmware rewrites a poisoned page-table entry from the device's template; when that fails, the module destroys the
device (R403, R442). -/
def repairTable (s : State) (pa : Nat) : State :=
  if repairFails s then loseDevice s s.vd.number else { s with poison := sdel s.poison (pa / 32) }

/-- Firmware repairs every poisoned entry that a walk of the device in focus meets (R403), one for each level of the walk. -/
def repairWalk : Nat → Nat → State → State
  | 0, _, s => s
  | n + 1, va, s =>
      match walk s s.vd va with
      | .poisoned pa => repairWalk n va (repairTable s pa)
      | _ => s

/-- A cause 0x600 relaunches a team of an `.idem` kernel the first time in its grid (R401). -/
def relaunches (s : State) (code : Nat) : Bool :=
  code == 0x600 && s.team.kernel.idem && s.vd.grids.any fun g => g.serial == s.team.grid && !g.relaunched

/-! ### Locked B registers (R168, R171) -/

def cmdBits (w : Word) (lo n : Nat) : Nat := w.toNat / 2 ^ lo % 2 ^ n

/-- The first B register of a command. -/
def Pass.breg (p : Pass) : Nat := 16 * cmdBits p.m2 25 5

/-- A pass of a group's quad that has started, or that a restore has put back, holds some of the registers v`n` to
v`n + k - 1` (R62, R171, R178). -/
def locksB (t : Team) (g : Group) (n k : Nat) : Bool :=
  (mget [] t.passes (t.cores.idxOf g.core)).any fun p =>
    p.locked && p.zero.isNone && p.role == g.role && p.quad == g.idx / 4 && decide (p.breg < n + k) && decide (n < p.breg + 16)

/-! ### Taking an exception (R366 to R370) -/

/-- TRAPCAUSE of a cause (R71). -/
def causeWord (c : Cause) (svc : Nat) : Word :=
  w32 (pack [(c.code, 12), (0, 3), (slotBit c.slot, 1), (c.detail.toNat, 8), (svc, 8)])

/-- The trap registers as entry writes them (R366). -/
def writeTrapRegs (g : Group) (c : Cause) (svc : Nat) : Group :=
  { g with
    trappc := w64 c.pc.toNat, trapnext := w64 (c.next.toNat / 8 * 8), trapmask := c.mask, trapcause := causeWord c svc
    trapdst := c.dst, trapaddr := c.addr.getD g.trapaddr, nextWritten := false }

/-- A user trap handler runs (R70). -/
def inHandler (g : Group) : Bool := g.priv.getLsbD 1

def setHandler (g : Group) (b : Bool) : Group :=
  { g with priv := if b then g.priv ||| 2 else g.priv &&& ~~~(2 : Word) }

/-- The slot whose cause the handler serves (R71). -/
def trapSlot (g : Group) : SlotId := if g.trapcause.getLsbD 15 then .B else .A

/-- The handler's address (R71). -/
def handlerPc (g : Group) : Addr := BitVec.ofNat 57 (g.trapvec.toNat / 8 % 2 ^ 54 * 8)

/-- The word at the handler has the mark of a header (R366). -/
def handlerOk (s : State) : Bool :=
  match fetchWord s (handlerPc s.g) with
  | .ok w => marked w
  | .error _ => false

/-- Why the cause goes to device firmware (R369): SVC, or 0 when the user handler takes it. -/
def serviceOf (s : State) (c : Cause) : Nat :=
  if c.kind = .sup then 3
  else if inHandler s.g then 2
  else if !s.g.trapvec.getLsbD 0 then 1
  else if !handlerOk s then 4
  else 0

/-- Entry to the user handler would write v511 while a pass holds it: it waits (R171, R366). -/
def detailLocked (s : State) (c : Cause) : Bool :=
  (roleOf s).vregs == 512 && serviceOf s c == 0 && locksB s.team s.g 511 1

/-- The group has drained: its causes can be entered (R366). -/
def drained (s : State) (c : Cause) : Bool := s.g.inflight == [] && !detailLocked s c

/-- Entry to the user handler (R366): the trap registers are written, v511 receives each lane's detail where the budget
holds it, PRIV.TRAP is set and the slot stands at the handler's header. -/
def enterUser (s : State) (c : Cause) : State :=
  let g := writeTrapRegs s.g c 0
  let g := if (roleOf s).vregs = 512 then setVreg g 511 g.present c.lanes .general else g
  let p := g.slot c.slot
  let g := { setHandler g true with trapHdr := p.hdr, trapStand := p.stand }
  let g := g.setSlot c.slot { p with pc := handlerPc g, stand := .header, wait := .running, since := s.now, waits := none }
  { s with g := g.release }

/-- Supervisor entry (R369, R370): the trap registers are written when no user handler runs, the error log takes one
record, and firmware resumes the group, relaunches its team or ends it. A poisoned page-table entry is the one cause
firmware resumes from (R403): it rewrites the entry, where another entry to it has not done so, and the slot executes its
instruction again, unless its team has been ended meanwhile. -/
def enterSupervisor (s : State) (c : Cause) (svc : Nat) : State :=
  let g := if inHandler s.g then s.g else writeTrapRegs s.g c svc
  let s := { s with g := { g with fwTrap := inHandler s.g } }
  let repair := c.code == 0x406 && c.detail == 8
  let again := if s.team.ending then s.team.relaunch else relaunches s c.code
  let t := s.team
  let torn : Option Nat := match walk s s.vd (c.addr.getD 0).toNat with
    | .poisoned pa => some pa
    | _ => none
  let act : Nat :=
    if t.ending || !repair then (if again then 2 else 1) else (torn.isSome && repairFails s).toNat
  let s := writeLog s (cycleOf s s.g.core) c.pc.toNat ((c.addr.getD 0).toNat) (causeWord c svc).toNat c.mask.toNat
    act s.g.core s.g.ref.gid t.x t.y t.z
  if repair then (torn.map (repairTable s)).getD s
  else if t.ending then s
  else endTeam s c.code again

/-- An uncommitted sift of the group's team, role and core is abandoned: its participants execute it again (R43). -/
def abandonSift (s : State) : State :=
  let drop (p : PcSlot) : PcSlot :=
    if p.wait = .sift ∨ p.wait = .branchSift then { p with wait := .running } else p
  onGroups s (fun g => decide (g.ref.team = s.g.ref.team) && g.role == s.g.role && g.core == s.g.core)
    fun g => { g with a := drop g.a, b := drop g.b }

/-- The poisoned page-table entry that the fetch of the handler's first word meets. -/
def tornHandler (s : State) : Option Nat :=
  match walk s s.vd (handlerPc s.g).toNat with
  | .poisoned pa => some pa
  | _ => none

/-- The cause is entered: the group's instructions in flight have completed. Where the handler's fetch meets a poisoned
page-table entry, firmware rewrites it and the cause waits to be entered again (R403; notes/assumptions/102.md). -/
def enter (s : State) (c : Cause) : State :=
  let s := abandonSift { s with g := { s.g with entry := none } }
  let svc := serviceOf s c
  if svc = 0 then enterUser s c
  else match if svc = 4 then tornHandler s else none with
    | some pa => repairTable { s with g := { s.g with entry := some c } } pa
    | none => enterSupervisor s c svc

def pendOf (g : Group) : SlotId → Option Cause
  | .A => g.pendA
  | .B => g.pendB

def setPend (g : Group) (i : SlotId) (c : Option Cause) : Group :=
  match i with
  | .A => { g with pendA := c }
  | .B => { g with pendB := c }

/-- The group stops for a cause, which is entered at once when nothing is in flight, or at TRAP_ENTRY or SUPERVISOR_ENTRY
once the group has drained and v511 can be written (R171, R366). A cause that already waits stays, but for one of kind S,
which ends the team: a slot that waits for trap entry has raised its one cause (R365, R375). -/
def stopFor (s : State) (c : Cause) : State :=
  if s.g.entry.isSome && decide (c.kind ≠ .sup) then s
  else if drained s c then enter s c else { s with g := { s.g with entry := some c } }

/-- A cause is raised (R366, R367). While the partner's cause is being entered or handled, a cause of kind T is held, one
of kind F is dropped, and one of kind S goes to firmware at once. Otherwise both slots stop issuing and the cause is
entered. -/
def raise (s : State) (c : Cause) : State :=
  let other := (s.g.entry.any fun e => decide (e.slot ≠ c.slot)) || (inHandler s.g && decide (trapSlot s.g ≠ c.slot))
  if other then
    match c.kind with
    | .sup => enterSupervisor (abandonSift s) c 3
    | .trap => { s with g := setPend s.g c.slot (some c) }
    | .fault => abandonSift s
  else stopFor s c

/-- A held cause of kind T is entered before its slot issues anything (R367, R368). -/
def releasePending (s : State) : State :=
  match s.g.pendA with
  | some c => stopFor { s with g := { s.g with pendA := none } } c
  | none =>
      match s.g.pendB with
      | some c => stopFor { s with g := { s.g with pendB := none } } c
      | none => s

/-- Return from a user trap handler (R318): PRIV.TRAP is cleared, the partner is released, and the slot resumes at
TRAPNEXT, inside its old clause, or as at a branch target when `ctl.wr` has written TRAPNEXT. -/
def returnFromTrap (s : State) : State :=
  let g := setHandler s.g false
  let a : Addr := BitVec.ofNat 57 (g.trapnext.toNat / 8 * 8)
  let p := g.slot s.slot
  let p' := if g.nextWritten then p.jump s.now a
    else
      match fetchWord s g.trapHdr with
      | .ok w =>
          let q := { p with hdr := g.trapHdr, head := w, stand := .paused, wait := .running, since := s.now, waits := none }
          if g.trapStand = .arrived ∨ g.trapStand = .header then { q with pc := a, stand := g.trapStand }
          else q.moveTo s.now a
      | .error _ => p.jump s.now a
  releasePending { s with g := g.setSlot s.slot p' }

/-! ### Causes of an instruction -/

/-- What a meaning raises: the code, its DETAIL, the lanes that raised it, and the address and per-lane detail where the
code delivers them (R366). -/
structure Raise where
  code : Nat
  detail : Nat
  mask : Word
  addr : Option Nat
  lanes : List Word
  deriving DecidableEq, Repr

/-- A cause without lanes or address. -/
def Raise.plain (code detail : Nat) : Raise := { code := code, detail := detail, mask := 0, addr := none, lanes := [] }

/-- An address as TRAPADDR holds it: 57 bits (R71). -/
def addrWord (a : Nat) : Dword := w64 (a % 2 ^ 57)

/-- The kind of a code that an instruction raises (R364). -/
def codeKind (code : Nat) : CauseKind :=
  if code < 0x100 then .trap
  else if code = 0x204 ∨ code = 0x205 ∨ code = 0x406 ∨ code = 0x600 then .sup
  else .fault

/-- The cause of the issuing slot at its pc. -/
def causeHere (s : State) (r : Raise) (next : Addr) (dst : Word) : Cause :=
  let k := codeKind r.code
  { code := r.code, kind := k, detail := BitVec.ofNat 8 r.detail, slot := s.slot, pc := (cur s).pc
    next := if k = .trap then next else (cur s).pc, mask := r.mask, dst := dst
    addr := r.addr.map addrWord, lanes := r.lanes }

end Sys2Proof.Machine
end

