-- ==== Sys2Proof/Machine/Flags.lean ====
section
/-!
DEFINITION. Machine/Flags.lean: the exception and status flags and every way an instruction writes them (R67 to R69,
R87, R90, R234).
-/
namespace Sys2Proof.Machine

/-- An exception set: NV, DZ, OF, UF, NX in bits 4 to 0 (R68). -/
abbrev FpFlags := BitVec 5

def flagNV : FpFlags := 16
def flagDZ : FpFlags := 8
def flagOF : FpFlags := 4
def flagUF : FpFlags := 2
def flagNX : FpFlags := 1

def flagIf (c : Bool) (f : FpFlags) : FpFlags := if c then f else 0

/-- STS.E and STS.X (R69). -/
def stsE : Word := 1
def stsX : Word := 2

/-- FPC.FTZ, FPC.RND and FPC.TE (R68). -/
def ftz (g : Group) : Bool := g.fpc.getLsbD 12
def rndField (g : Group) : Nat := g.fpc.toNat / 1024 % 4
def trapEnables (g : Group) : FpFlags := g.fpc.truncate 5

/-- The OR of the exception sets of all lanes (R90). -/
def orFlags (fs : List FpFlags) : FpFlags := fs.foldl (· ||| ·) 0

/-- FPS after flags are ORed in (R90). -/
def addFps (g : Group) (f : FpFlags) : Group := { g with fps := g.fps ||| f.setWidth 32 }

/-- STS after sticky bits are ORed in (R69). -/
def addSts (g : Group) (x : Word) : Group := { g with sts := g.sts ||| x }

/-- Lanes that raised a flag whose trap enable is set (R90). -/
def enabledLanes (te : FpFlags) (fp : List FpFlags) : Word := maskOf fun l => (fp.getD l 0) &&& te != 0

/-- DETAIL of a floating-point trap: every flag that the lanes of the mask raised (R90). -/
def laneFlags (mask : Word) (fp : List FpFlags) : FpFlags :=
  orFlags (lanes32.map fun l => if laneOn mask l then fp.getD l 0 else 0)

/-- The floating-point trap that completion of an instruction takes, if any (R90, R234): `te` is FPC.TE at its issue (R320), `fp` holds the flags of each
lane of a vector instruction, `sfp` those of a scalar instruction, whose trap has TRAPMASK 0. -/
def fpTrap (te : FpFlags) (fp : List FpFlags) (sfp : FpFlags) : Option Raise :=
  let m := enabledLanes te fp
  if m ≠ 0 then some { Raise.plain 0x002 (laneFlags m fp).toNat with mask := m, lanes := fp.map (·.setWidth 32) }
  else if sfp &&& te ≠ 0 then some (Raise.plain 0x002 sfp.toNat)
  else none

end Sys2Proof.Machine
end

