-- ==== Sys2Proof/Machine/Fp.lean ====
section
/-!
DEFINITION. Machine/Fp.lean: numbers to the last bit (R72 to R93): formats, exact values, rounding and narrowing,
the arithmetic of one element, conversions, seeds and special functions.
-/
namespace Sys2Proof.Machine

/-! ### Formats and values (R73, R74) -/

/-- A floating-point format: fraction bits, bias, largest finite pattern, and whether it has infinities. -/
structure FpFmt where
  frac : Nat
  bias : Nat
  width : Nat
  top : Nat
  inf : Bool
  /-- The canonical NaN, where the format has one. -/
  nan : Option Nat
  deriving DecidableEq, Repr

def fp32 : FpFmt := ⟨23, 127, 32, 0x7f7fffff, true, some 0x7fc00000⟩
def fp16 : FpFmt := ⟨10, 15, 16, 0x7bff, true, some 0x7e00⟩
def bf16 : FpFmt := ⟨7, 127, 16, 0x7f7f, true, some 0x7fc0⟩
def e4m3 : FpFmt := ⟨3, 7, 8, 0x7e, false, some 0x7f⟩
def e5m2 : FpFmt := ⟨2, 15, 8, 0x7b, true, some 0x7e⟩
def e2m1 : FpFmt := ⟨1, 1, 4, 7, false, none⟩

/-- A value: a NaN, an infinity, or ±m × 2^e; a zero has m = 0. -/
inductive Fv where
  | nan (signalling : Bool)
  | inf (neg : Bool)
  | fin (neg : Bool) (m : Nat) (e : Int)
  deriving DecidableEq, Repr

/-- The sign bit of a pattern as a number's sign. -/
def FpFmt.signBit (F : FpFmt) : Nat := 2 ^ (F.width - 1)

/-- Exponent of the last fraction bit of a subnormal. -/
def FpFmt.low (F : FpFmt) : Int := 1 - (F.bias : Int) - (F.frac : Int)

/-- The value of a pattern (R73). -/
def FpFmt.value (F : FpFmt) (x : Nat) : Fv :=
  let neg := x / F.signBit % 2 == 1
  let p := x % F.signBit
  let f := p % 2 ^ F.frac
  let e := p / 2 ^ F.frac
  if p ≤ F.top then
    if e = 0 then .fin neg f F.low else .fin neg (f + 2 ^ F.frac) (F.low + (e - 1 : Nat))
  else if F.inf && p == F.top + 1 then .inf neg
  else .nan (F.inf && F.width != 8 && f / 2 ^ (F.frac - 1) == 0)

/-- A pattern with a sign. -/
def FpFmt.signed (F : FpFmt) (neg : Bool) (p : Nat) : Nat := if neg then p + F.signBit else p

def FpFmt.canon (F : FpFmt) : Nat := F.nan.getD 0

def FpFmt.infinity (F : FpFmt) (neg : Bool) : Nat := F.signed neg (F.top + 1)

def FpFmt.largest (F : FpFmt) (neg : Bool) : Nat := F.signed neg F.top

def FpFmt.zero (F : FpFmt) (neg : Bool) : Nat := F.signed neg 0

/-- The value of an E8M0 scale (R73). -/
def e8m0Value (x : Nat) : Fv := if x % 256 = 255 then .nan false else .fin false 1 ((x % 256 : Nat) - 127)

def Fv.isNan : Fv → Bool
  | .nan _ => true
  | _ => false

def Fv.isSig : Fv → Bool
  | .nan s => s
  | _ => false

def Fv.isInf : Fv → Bool
  | .inf _ => true
  | _ => false

def Fv.isZero : Fv → Bool
  | .fin _ 0 _ => true
  | _ => false

def Fv.neg : Fv → Bool
  | .nan _ => false
  | .inf n => n
  | .fin n _ _ => n

/-! ### Exact numbers -/

/-- The number m × 2^e. -/
structure Dy where
  m : Int
  e : Int
  deriving DecidableEq, Repr

def Dy.add (a b : Dy) : Dy :=
  let e := min a.e b.e
  { m := a.m * 2 ^ (a.e - e).toNat + b.m * 2 ^ (b.e - e).toNat, e := e }

def Dy.mul (a b : Dy) : Dy := { m := a.m * b.m, e := a.e + b.e }

/-- a < b. -/
def Dy.lt (a b : Dy) : Bool :=
  let e := min a.e b.e
  decide (a.m * 2 ^ (a.e - e).toNat < b.m * 2 ^ (b.e - e).toNat)

def Fv.dy : Fv → Dy
  | .fin n m e => { m := if n then -(m : Int) else m, e := e }
  | _ => { m := 0, e := 0 }

/-- Number of bits of a value: structural in the fuel. -/
def bitLenFuel : Nat → Nat → Nat
  | 0, _ => 0
  | k + 1, n => if n = 0 then 0 else 1 + bitLenFuel k (n / 2)

def bitLen (n : Nat) : Nat := if n = 0 then 0 else Nat.log2 n + 1

/-! ### Rounding (R80, R81) -/

/-- A rounding mode once `dyn` is resolved. -/
inductive Mode where
  | rn | rz | ru | rd
  deriving DecidableEq, Repr

/-- The mode in FPC.RND (R68). -/
def dynMode (g : Group) : Mode :=
  match rndField g with
  | 0 => .rn
  | 1 => .rz
  | 2 => .ru
  | _ => .rd

def modeOf (g : Group) : Rnd → Mode
  | .rn => .rn
  | .rz => .rz
  | .ru => .ru
  | .rd => .rd
  | .dyn => dynMode g

/-- Whether a truncated magnitude goes up: `odd` is its last bit, `half` compares the discarded part with one half. -/
def roundsUp (md : Mode) (neg odd : Bool) (half : Ordering) (exact : Bool) : Bool :=
  match md with
  | .rn => half == .gt || (half == .eq && odd)
  | .rz => false
  | .ru => !neg && !exact
  | .rd => neg && !exact

/-- The magnitude m × 2^e, and a part below its last bit when `sticky`, cut at weight 2^q: the rounded multiple of 2^q,
and whether it is exact. With `sticky`, q must be above e. -/
def cutAt (md : Mode) (neg : Bool) (m : Nat) (e : Int) (sticky : Bool) (q : Int) : Nat × Bool :=
  if q ≤ e then (m * 2 ^ (e - q).toNat, !sticky)
  else
    let s := (q - e).toNat
    let t := m / 2 ^ s
    let rest := m % 2 ^ s
    let exact := rest == 0 && !sticky
    let half := if 2 * rest = 2 ^ s then (if sticky then .gt else .eq) else compare (2 * rest) (2 ^ s)
    (if roundsUp md neg (t % 2 == 1) half exact then t + 1 else t, exact)

/-- `round` (R81) of a magnitude: the pattern of the magnitude with an unbounded exponent, whether it is exact, and
whether it is tiny. -/
def FpFmt.roundMag (F : FpFmt) (md : Mode) (neg : Bool) (m : Nat) (e : Int) (sticky : Bool) : Nat × Bool × Bool :=
  let full : Int := (bitLen m : Int) + e - ((F.frac : Int) + 1)
  let q := max full F.low
  let r := cutAt md neg m e sticky q
  let u := cutAt md neg m e sticky full
  let tiny := decide (bitLen u.1 + full ≤ 1 - (F.bias : Int))
  ((q - F.low).toNat * 2 ^ F.frac + r.1, r.2, tiny)

/-- UF and NX of `round` (R81). -/
def roundFlags (p : Nat) (exact tiny : Bool) : FpFlags :=
  flagIf (!exact) flagNX ||| flagIf (p != 0 && tiny && !exact) flagUF

/-- `fit` (R81) of a number with a magnitude. -/
def FpFmt.fitMag (F : FpFmt) (md : Mode) (neg : Bool) (m : Nat) (e : Int) (sticky : Bool) : Nat × FpFlags :=
  let r := F.roundMag md neg m e sticky
  if r.1 > F.top then
    let toInf := match md with
      | .rn => true
      | .rz => false
      | .ru => !neg
      | .rd => neg
    (if toInf then F.infinity neg else F.largest neg, flagOF ||| flagNX)
  else (F.signed neg r.1, roundFlags r.1 r.2.1 r.2.2)

/-- `fit` of an exact number that is not zero. -/
def FpFmt.fit (F : FpFmt) (md : Mode) (x : Dy) : Nat × FpFlags :=
  F.fitMag md (decide (x.m < 0)) x.m.natAbs x.e false

/-- A rounding to an integer: the integer and whether it is exact. -/
def roundInt (md : Mode) (x : Dy) : Int × Bool :=
  let neg := decide (x.m < 0)
  let r := cutAt md neg x.m.natAbs x.e false 0
  (if neg then -(r.1 : Int) else r.1, r.2)

/-! ### Flushing (R84) -/

/-- A flushed FP32 source. -/
def flushSrc (on : Bool) (x : Fv) : Fv :=
  match x with
  | .fin n m e => if on && decide (m < 2 ^ 23) && e == -149 then .fin n 0 e else .fin n m e
  | y => y

/-- A flushed FP32 result, with the flags a flush adds. -/
def flushRes (on : Bool) (r : Nat × FpFlags) : Nat × FpFlags :=
  let p := r.1 % 2 ^ 31
  if on && p != 0 && decide (p < 2 ^ 23) then (r.1 - p, r.2 ||| flagUF ||| flagNX) else r

/-! ### Arithmetic of one element (R85, R253 to R257) -/

/-- The zero that an exact zero sum gives (R85): the operands' common sign, or +0, or −0 under rd. -/
def zeroSum (md : Mode) (neg1 neg2 : Bool) : Bool := if neg1 == neg2 then neg1 else md == .rd

/-- A NaN result with NV where an operand is signalling or the operation is invalid (R85). -/
def FpFmt.nanOf (F : FpFmt) (nv : Bool) : Nat × FpFlags := (F.canon, flagIf nv flagNV)

/-- a + b for values that are not NaN. -/
def FpFmt.sum (F : FpFmt) (md : Mode) (a b : Fv) : Nat × FpFlags :=
  match a, b with
  | .inf n, .inf k => if n == k then (F.infinity n, 0) else F.nanOf true
  | .inf n, _ => (F.infinity n, 0)
  | _, .inf n => (F.infinity n, 0)
  | _, _ =>
      let s := a.dy.add b.dy
      if s.m = 0 then (F.zero (zeroSum md a.neg b.neg), 0) else F.fit md s

/-- The exact product of values that are not NaN; none when it is 0 × ∞. -/
def Fv.times (a b : Fv) : Option Fv :=
  let n := a.neg != b.neg
  if a.isInf || b.isInf then if a.isZero || b.isZero then none else some (.inf n)
  else
    match a, b with
    | .fin _ m e, .fin _ k f => some (.fin n (m * k) (e + f))
    | _, _ => none

def Fv.flip : Fv → Fv
  | .nan s => .nan s
  | .inf n => .inf (!n)
  | .fin n m e => .fin (!n) m e

/-- `fadd` of two values. -/
def FpFmt.fadd (F : FpFmt) (md : Mode) (a b : Fv) : Nat × FpFlags :=
  if a.isNan || b.isNan then F.nanOf (a.isSig || b.isSig) else F.sum md a b

/-- `fsub`: a NaN keeps its kind under the change of sign. -/
def FpFmt.fsub (F : FpFmt) (md : Mode) (a b : Fv) : Nat × FpFlags := F.fadd md a b.flip

/-- `fma`, with one rounding. -/
def FpFmt.fma (F : FpFmt) (md : Mode) (a b c : Fv) : Nat × FpFlags :=
  let nan := a.isNan || b.isNan || c.isNan
  let sig := a.isSig || b.isSig || c.isSig
  if a.isNan || b.isNan then F.nanOf sig
  else match a.times b with
    | none => F.nanOf true
    | some p => if nan then F.nanOf sig else F.sum md p c

def FpFmt.fmul (F : FpFmt) (md : Mode) (a b : Fv) : Nat × FpFlags :=
  if a.isNan || b.isNan then F.nanOf (a.isSig || b.isSig)
  else match a.times b with
    | none => F.nanOf true
    | some (.fin n m e) => if m = 0 then (F.zero n, 0) else F.fitMag md n m e false
    | some (.inf n) => (F.infinity n, 0)
    | some (.nan _) => F.nanOf true

/-- a < b in the order of numbers, zeros equal; neither is NaN. -/
def Fv.lt (a b : Fv) : Bool :=
  match a, b with
  | .inf n, .inf k => n && !k
  | .inf n, _ => n
  | _, .inf k => !k
  | _, _ => a.dy.lt b.dy

def Fv.eq (a b : Fv) : Bool := !a.lt b && !b.lt a

/-- A value that has a pattern in F, as that pattern. -/
def FpFmt.pattern (F : FpFmt) (x : Fv) : Nat :=
  match x with
  | .nan _ => F.canon
  | .inf n => F.infinity n
  | .fin n m e => if m = 0 then F.zero n else (F.fitMag .rn n m e false).1

/-- `fmin` and `fmax` (R254). -/
def FpFmt.fminmax (F : FpFmt) (max : Bool) (a b : Fv) : Nat × FpFlags :=
  let nv := flagIf (a.isSig || b.isSig) flagNV
  if a.isNan && b.isNan then (F.canon, nv)
  else if a.isNan then (F.pattern b, nv)
  else if b.isNan then (F.pattern a, nv)
  else
    let aLess := a.lt b || (a.eq b && a.neg && !b.neg)
    (F.pattern (if aLess != max then a else b), nv)

/-- A comparison of floating-point values under a condition (R218, R243): its truth and its flags. -/
def fvCompare (cc : Cond) (a b : Fv) : Bool × FpFlags :=
  let un := a.isNan || b.isNan
  let sig := a.isSig || b.isSig
  let lt := !un && a.lt b
  let gt := !un && b.lt a
  let eq := !un && !lt && !gt
  match cc with
  | .eq => (eq, flagIf sig flagNV)
  | .ne => (lt || gt, flagIf sig flagNV)
  | .lt => (lt, flagIf un flagNV)
  | .le => (lt || eq, flagIf un flagNV)
  | .gt => (gt, flagIf un flagNV)
  | .ge => (gt || eq, flagIf un flagNV)
  | .num => (!un, flagIf sig flagNV)
  | .nan => (un, flagIf sig flagNV)
  | .equ => (un || eq, flagIf sig flagNV)
  | .neu => (un || !eq, flagIf sig flagNV)
  | .ltu => (un || lt, flagIf sig flagNV)
  | .leu => (un || lt || eq, flagIf sig flagNV)
  | .gtu => (un || gt, flagIf sig flagNV)
  | .geu => (un || gt || eq, flagIf sig flagNV)

/-- Integer square root, bit by bit from `k`. -/
def isqrtFrom : Nat → Nat → Nat → Nat
  | 0, _, r => r
  | k + 1, n, r =>
      let t := r + 2 ^ k
      isqrtFrom k n (if t * t ≤ n then t else r)

def isqrt (n : Nat) : Nat := isqrtFrom (bitLen n / 2 + 1) n 0

/-- `fsqrt` (R257). -/
def fsqrtOf (md : Mode) (a : Fv) : Nat × FpFlags :=
  match a with
  | .nan s => fp32.nanOf s
  | .inf n => if n then fp32.nanOf true else (fp32.infinity false, 0)
  | .fin n m e =>
      if m = 0 then (fp32.zero n, 0)
      else if n then fp32.nanOf true
      else
        let sh : Nat := if (e % 2 == 0) then 64 else 65
        let x := m * 2 ^ sh
        let r := isqrt x
        fp32.fitMag md false r ((e - sh) / 2) (r * r != x)

/-- `frnd` (R257). -/
def FpFmt.frnd (F : FpFmt) (md : Mode) (a : Fv) : Nat × FpFlags :=
  match a with
  | .nan s => F.nanOf s
  | .inf n => (F.infinity n, 0)
  | .fin n m e =>
      let r := cutAt md n m e false 0
      (F.pattern (.fin n r.1 0), 0)

/-- `fclass` (R257). -/
def fclassOf (x : Word) : Word :=
  match fp32.value x.toNat with
  | .nan s => if s then 0x100 else 0x200
  | .inf n => if n then 1 else 0x80
  | .fin n m e =>
      if m = 0 then (if n then 8 else 0x10)
      else if e = fp32.low ∧ m < 2 ^ 23 then (if n then 4 else 0x20)
      else if n then 2 else 0x40

/-- `fscale` (R93). -/
def fscaleOf (md : Mode) (a : Fv) (n : Int) : Nat × FpFlags :=
  match a with
  | .nan s => fp32.nanOf s
  | .inf k => (fp32.infinity k, 0)
  | .fin k m e =>
      if m = 0 then (fp32.zero k, 0)
      else if e + n > 200 then fp32.fitMag md k 1 200 false
      else if e + n < -400 then fp32.fitMag md k 1 (-400) false
      else fp32.fitMag md k m (e + n) false

/-- `fexpo` (R93). -/
def fexpoOf (a : Fv) : Word × FpFlags :=
  match a with
  | .nan s => (0x7fffffff, flagIf s flagNV)
  | .inf _ => (0x7fffffff, 0)
  | .fin _ m e => if m = 0 then (0x80000000, flagDZ) else (BitVec.ofInt 32 ((bitLen m : Int) - 1 + e), 0)

/-! ### Seeds (R91) -/

/-- A magnitude truncated to 12 significant bits. -/
def seed12 (neg : Bool) (q : Nat) (e : Int) : Nat × FpFlags :=
  let s := bitLen q - 12
  let t := q / 2 ^ s
  let r := fp32.roundMag .rz neg t (e + s) false
  if r.1 > fp32.top then (fp32.signed neg 0x7f7ff000, flagOF) else (fp32.signed neg r.1, 0)

def frcpOf (a : Fv) : Nat × FpFlags :=
  match a with
  | .nan s => fp32.nanOf s
  | .inf n => (fp32.zero n, 0)
  | .fin n m e =>
      if m = 0 then (fp32.infinity n, flagDZ)
      else
        let k := bitLen m + 20
        seed12 n (2 ^ k / m) (-(k : Int) - e)

def frsqOf (a : Fv) : Nat × FpFlags :=
  match a with
  | .nan s => fp32.nanOf s
  | .inf n => if n then fp32.nanOf true else (fp32.zero false, 0)
  | .fin n m e =>
      if m = 0 then (fp32.infinity n, flagDZ)
      else if n then fp32.nanOf true
      else
        let odd := e % 2 != 0
        let m := if odd then 2 * m else m
        let e := if odd then e - 1 else e
        seed12 false (isqrt (2 ^ 80 / m)) (-40 - e / 2)

/-! ### Special functions (R92)

Each is computed in fixed point far below the last place, cut toward zero, and moved by a free amount that keeps it
within 2 units in the last place of the exact result. -/

/-- Fraction bits of the fixed-point arithmetic. -/
def fixBits : Nat := 400
/-- π × 2^512 and ln 2 × 2^512. -/
def piFix : Nat :=
  0x3243f6a8885a308d313198a2e03707344a4093822299f31d0082efa98ec4e6c89452821e638d01377be5466cf34e90c6cc0ac29b7c97c50dd3f84d5b5b5470917
def ln2Fix : Nat :=
  0xb17217f7d1cf79abc9e3b39803f2f6af40f343267298b62d8a0d175b8baafa2be7b876206debac98559552fb4afa1b10ed2eae35c138214427573b291169b825

/-- Σ x^k ÷ k! over k = i, i + 2, … with alternating signs when `alt`, or over every k: the term t is carried. -/
def expSeries : Nat → Nat → Int → Int → Int → Int
  | 0, _, _, _, acc => acc
  | n + 1, k, x, t, acc => expSeries n (k + 1) x (t * x / (2 ^ fixBits : Int) / ((k : Int) + 1)) (acc + t)

/-- sin or cos of a fixed-point argument by its series, from term t of degree k. -/
def trigSeries : Nat → Nat → Int → Int → Int → Int
  | 0, _, _, _, acc => acc
  | n + 1, k, x2, t, acc =>
      trigSeries n (k + 2) x2 (-(t * x2 / (2 ^ fixBits : Int) / (((k : Int) + 1) * ((k : Int) + 2)))) (acc + t)

/-- 2 × artanh(z) in fixed point. -/
def logSeries : Nat → Nat → Int → Int → Int → Int
  | 0, _, _, _, acc => 2 * acc
  | n + 1, k, z2, t, acc => logSeries n (k + 2) z2 (t * z2 / (2 ^ fixBits : Int)) (acc + t / (k : Int))

/-- The exponent of the unit in the last place of an FP32 magnitude. -/
def unitExp (p : Nat) : Int := ((max (p / 2 ^ 23) 1 : Nat) : Int) - 150

/-- The FP32 magnitude `p` is within 2 units in the last place of m × 2^e, whose magnitude cut toward zero is `t` (R92). -/
def nearExact (t m : Nat) (e : Int) (p : Nat) : Bool :=
  let lo := min e (min (unitExp t) (unitExp p))
  let x := m * 2 ^ (e - lo).toNat
  let y := (if p < 2 ^ 23 then p else p % 2 ^ 23 + 2 ^ 23) * 2 ^ (unitExp p - lo).toNat
  decide (max x y - min x y ≤ 2 * 2 ^ (unitExp t - lo).toNat)

/-- A result that is not exact: the magnitude cut toward zero, moved by the free amount where that leaves it within R92's
bound, with the flags that fit raises for it (notes/assumptions/9.md). `x` is the source. -/
def freeResult (op : Nat) (x : Word) (neg : Bool) (m : Nat) (e : Int) : Nat × FpFlags :=
  let t := (fp32.roundMag .rz neg m e true).1
  let q := t + Config.freeUlp op x % 8 - 4
  let p := if nearExact t m e q then q else t
  if p > fp32.top then (fp32.infinity neg, flagOF ||| flagNX)
  else (fp32.signed neg p, flagNX ||| flagIf (decide (p < 2 ^ 23) && p != 0) flagUF)

/-- The number m × 2^e in fixed point, cut. -/
def toFix (m : Nat) (e : Int) : Int := (cutAt .rz false m e false (-(fixBits : Int))).1

def fexp2Of (x : Word) (a : Fv) : Nat × FpFlags :=
  match a with
  | .nan s => fp32.nanOf s
  | .inf n => if n then (0, 0) else (fp32.infinity false, 0)
  | .fin n m e =>
      if m = 0 then (0x3f800000, 0)
      else
        let d := a.dy
        let whole := roundInt .rd d
        if whole.1 > 128 then (fp32.infinity false, flagOF ||| flagNX)
        else if whole.1 < -200 then
          if whole.2 then fp32.fitMag .rn false 1 (-200) false else freeResult 0 x false (2 ^ 100) (-300)
        else if whole.2 then fp32.fitMag .rn false 1 whole.1 false
        else
          let f := (if n then -(toFix m e) else toFix m e) - whole.1 * 2 ^ fixBits
          let y := f * (ln2Fix / 2 ^ (512 - fixBits) : Nat) / (2 ^ fixBits : Int)
          let r := expSeries 90 0 y (2 ^ fixBits : Int) 0
          freeResult 0 x false r.toNat (whole.1 - fixBits)

def flog2Of (x : Word) (a : Fv) : Nat × FpFlags :=
  match a with
  | .nan s => fp32.nanOf s
  | .inf n => if n then fp32.nanOf true else (fp32.infinity false, 0)
  | .fin n m e =>
      if m = 0 then (fp32.infinity true, flagDZ)
      else if n then fp32.nanOf true
      else
        let k := bitLen m - 1
        if m = 2 ^ k then fp32.fitMag .rn (decide (k + e < 0)) (k + e).natAbs 0 false |> fun r =>
          if k + e = 0 then (0, 0) else r
        else
          -- u in [3/4, 3/2) with x = u × 2^j
          let big := decide (2 * m ≥ 3 * 2 ^ k)
          let j : Int := (k : Int) + e + (if big then 1 else 0)
          let one : Int := 2 ^ fixBits
          let u : Int := (m : Int) * one / 2 ^ (if big then k + 1 else k)
          let z := (u - one) * one / (u + one)
          let ln := logSeries 120 1 (z * z / one) z 0
          let r := j * one + ln * one / (ln2Fix / 2 ^ (512 - fixBits) : Nat)
          freeResult 1 x (decide (r < 0)) r.natAbs (-(fixBits : Int))

/-- The argument reduced by a multiple of π/2: the quadrant and the remainder in fixed point. -/
def reduceArg (n : Bool) (m : Nat) (e : Int) : Nat × Int :=
  let scale : Int := 512
  let v : Int := (cutAt .rz false m e false (-scale)).1
  let v := if n then -v else v
  let half : Int := (piFix : Int)
  -- v × 2^-512 over π/2 = piFix × 2^-513
  let q := (2 * v + half / 2) / half
  let r := 2 * v - q * half
  ((q % 4).toNat, r / 2 ^ (513 - fixBits))

/-- sin (quadrant 0) or cos (quadrant 1) of a reduced argument. -/
def trigAt (q : Nat) (r : Int) : Int :=
  let one : Int := 2 ^ fixBits
  let x2 := r * r / one
  let y := if q % 2 = 0 then trigSeries 60 1 x2 r 0 else trigSeries 60 0 x2 one 0
  if q % 4 < 2 then y else -y

def ftrigOf (op : Nat) (cosine : Bool) (x : Word) (a : Fv) : Nat × FpFlags :=
  match a with
  | .nan s => fp32.nanOf s
  | .inf _ => fp32.nanOf true
  | .fin n m e =>
      if m = 0 then (if cosine then (0x3f800000, 0) else (fp32.zero n, 0))
      else if !cosine && decide ((bitLen m : Int) + e < -40) then freeResult op x n (m * 2 ^ 40 - 1) (e - 40)
      else
        let r := reduceArg n m e
        let y := trigAt (r.1 + cosine.toNat) r.2
        freeResult op x (decide (y < 0)) y.natAbs (-(fixBits : Int))

/-! ### Integers (R72, R233) -/

/-- Width in bits of an integer type. -/
def Ty.width : Ty → Nat
  | .s8 | .n8 => 8
  | .s16 | .n16 => 16
  | .s64 | .n64 => 64
  | _ => 32

def Ty.isSigned : Ty → Bool
  | .s8 | .s16 | .s32 | .s64 => true
  | _ => false

def tyWidth (t : Ty) : Nat := Ty.width t
def tySigned (t : Ty) : Bool := Ty.isSigned t

/-- `val` (R233): the integer that an operand contributes. -/
def intVal (t : Ty) (x : Dword) : Int :=
  let w := tyWidth t
  let n := x.toNat % 2 ^ w
  if tySigned t && decide (n ≥ 2 ^ (w - 1)) then (n : Int) - 2 ^ w else n

/-- `wrap` (R233): the pattern modulo 2^w. -/
def intWrap (t : Ty) (v : Int) : Dword := BitVec.ofInt 64 (v % 2 ^ tyWidth t)

def tyMin (t : Ty) : Int := if tySigned t then -(2 ^ (tyWidth t - 1)) else 0
def tyMax (t : Ty) : Int := if tySigned t then 2 ^ (tyWidth t - 1) - 1 else 2 ^ tyWidth t - 1

/-- `clamp` (R233). -/
def intClamp (t : Ty) (v : Int) : Int := max (tyMin t) (min (tyMax t) v)

/-! ### Conversions (R82, R83, R258, R259) -/

/-- A side of a conversion. -/
inductive Side where
  | int (t : Ty)
  | flt (F : FpFmt)
  | scale
  deriving DecidableEq, Repr

/-- The format of the elements of a type. -/
def tyFmt : Ty → FpFmt
  | .bf16x2 => bf16
  | .f16x2 => fp16
  | _ => fp32

def tySide (t : Ty) : Side :=
  match t with
  | .f32 | .bf16x2 | .f16x2 => .flt (tyFmt t)
  | _ => .int t

def narrowSide : Narrow → Side
  | .e4m3 => .flt e4m3
  | .e5m2 => .flt e5m2
  | .e2m1 => .flt e2m1
  | .e8m0 => .scale
  | .bpi => .int .s8

/-- Source and destination of a conversion (R258). -/
def cvtSides (ty : Ty) : CvtCode → Side × Side
  | .src t => (tySide t, tySide ty)
  | .narrowSrc n => (narrowSide n, tySide ty)
  | .narrowDst n => (tySide ty, narrowSide n)

/-- The exact value of a source (R259). -/
def sideValue (flush : Bool) (sd : Side) (x : Dword) : Fv :=
  match sd with
  | .int t => let v := intVal t x; .fin (decide (v < 0)) v.natAbs 0
  | .flt F => if F = fp32 then flushSrc flush (F.value (x.toNat % 2 ^ 32)) else F.value (x.toNat % 2 ^ F.width)
  | .scale => e8m0Value x.toNat

/-- The source is an integer of more bits than a type. -/
def Side.widerThan (t : Ty) : Side → Bool
  | .int u => decide (tyWidth t < tyWidth u)
  | _ => false

/-- Every value of the source format, infinities included, is a value of the destination (R259). -/
def widens (a b : FpFmt) : Bool := a.inf && b.inf && decide (a.frac ≤ b.frac) && decide (b.low ≤ a.low)
  && decide (a.top / 2 ^ a.frac - a.bias ≤ b.top / 2 ^ b.frac - b.bias)

/-- `sat_narrow` into an integer type (R82), or a clamp without a flag where the source is a wider integer (R259). -/
def toInt (t : Ty) (fromWider : Bool) (md : Mode) (x : Fv) : Dword × FpFlags :=
  match x with
  | .nan _ => (0, flagNV)
  | .inf n => (intWrap t (if n then tyMin t else tyMax t), 0)
  | .fin _ _ _ =>
      let r := roundInt md x.dy
      if fromWider then (intWrap t (intClamp t r.1), 0)
      else if r.1 < tyMin t ∨ tyMax t < r.1 then (intWrap t (intClamp t r.1), flagNV)
      else (intWrap t r.1, flagIf (!r.2) flagNX)

/-- `sat_narrow` into a floating-point format (R82). -/
def FpFmt.satNarrow (F : FpFmt) (keepInf : Bool) (md : Mode) (x : Fv) : Nat × FpFlags :=
  match x with
  | .nan s => match F.nan with
    | some c => (c, flagIf s flagNV)
    | none => (0, flagNV)
  | .inf n => (if keepInf then F.infinity n else F.largest n, 0)
  | .fin n m e =>
      if m = 0 then (F.zero n, 0)
      else
        let r := F.roundMag md n m e false
        if r.1 > F.top then (F.largest n, flagOF ||| flagNX)
        else (F.signed n r.1, roundFlags r.1 r.2.1 r.2.2)

/-- Conversion to E8M0 (R83). -/
def toScale (x : Fv) : Nat × FpFlags :=
  match x with
  | .nan s => (0xff, flagIf s flagNV)
  | .inf _ => (0xfe, 0)
  | .fin _ m e => if m = 0 then (0, 0) else ((max 0 (min 254 ((bitLen m : Int) - 1 + e + 127))).toNat, 0)

/-- One conversion (R259). -/
def convert (flush : Bool) (src dst : Side) (md : Mode) (x : Dword) : Dword × FpFlags :=
  let v := sideValue flush src x
  match dst with
  | .int t => toInt t (src.widerThan t) md v
  | .scale => let r := toScale v; (w64 r.1, r.2)
  | .flt F =>
      let keep := match src with
        | .flt S => widens S F
        | _ => false
      let r := F.satNarrow keep md v
      let r := if F = fp32 then flushRes flush r else r
      (w64 r.1, r.2)

end Sys2Proof.Machine
end

