-- ==== Sys2Proof/Machine/Operands.lean ====
section
/-!
DEFINITION. Machine/Operands.lean: every operand form: lanes, pairs and uniform values of registers and specials (R53,
R54, R231), the tag of each write (R52), and what of an instruction trap entry reports (R366).
-/
namespace Sys2Proof.Machine

/-! ### Sources by lane (R54, R231) -/

/-- The value of a special that is the same in every lane; `%tid`, `%lane` and operands that are no special give 0. -/
def uniformSpecial (s : State) : Opnd → Word
  | .exec => execMask s
  | .gid => w32 s.g.ref.gid
  | .role => w32 s.g.role
  | .teamX => w32 s.team.x
  | .teamY => w32 s.team.y
  | .teamZ => w32 s.team.z
  | .nteamX => w32 s.team.nx
  | .nteamY => w32 s.team.ny
  | .nteamZ => w32 s.team.nz
  | _ => 0

/-- What the operand contributes in lane `l`; 0x3ff reads as 0. -/
def srcLane (s : State) (o : Opnd) (l : Nat) : Word :=
  match o with
  | .v n => readV s n l
  | .s n => readS s n
  | .lane => w32 l
  | .tid => w32 (natAt s.g.tids l)
  | o => uniformSpecial s o

/-- The 64-bit value in lane `l` of a pair, or of a special, which is zero-extended. -/
def srcPair (s : State) (o : Opnd) (l : Nat) : Dword :=
  match o with
  | .v n => readV s (n + 1) l ++ readV s n l
  | .s n => readS s (n + 1) ++ readS s n
  | o => (srcLane s o l).setWidth 64

/-- The value in lane `l` under a type: a pair where the type is 64 bits wide (R233). -/
def srcTy (s : State) (ty : Ty) (o : Opnd) (l : Nat) : Dword :=
  if ty.regs = 2 then srcPair s o l else (srcLane s o l).setWidth 64

/-- Lane `l` of the operand as another lane reads it (R58). -/
def crossLane (s : State) (o : Opnd) (l : Nat) : Word :=
  match o with
  | .v n => readVCross s n l
  | o => srcLane s o l

def crossPair (s : State) (o : Opnd) (l : Nat) : Dword :=
  match o with
  | .v n => readVCross s (n + 1) l ++ readVCross s n l
  | o => srcPair s o l

/-! ### Tags of sources (R52, R54) -/

/-- The tag of a value that is the same in every lane. -/
def uniTag (x : Word) : Tag := if x = 0 then .zero else .uniform x

/-- The tag that an operand reads as. -/
def srcTag (s : State) (o : Opnd) : Tag :=
  match o with
  | .v n => readTag s n
  | .s n => .uniform (readS s n)
  | .zero => .zero
  | .lane => .affine 0 1
  | .tid => .general
  | o => .uniform (uniformSpecial s o)

/-- The tags of the registers of an operand. -/
def srcTags (s : State) (pr : Bool) (o : Opnd) : List Tag :=
  match o, pr with
  | .v n, true => [readTag s n, readTag s (n + 1)]
  | o, _ => [srcTag s o]

def Tag.isUniform : Tag → Bool
  | .uniform _ | .zero => true
  | _ => false

/-- Base and stride of an affine operand. -/
def Tag.isAffine : Tag → Option (Word × Word)
  | .affine b d => some (b, d)
  | _ => none

/-- The value of a uniform or zero tag. -/
def Tag.value : Tag → Word
  | .uniform u => u
  | _ => 0

/-- The stride rule (R52). -/
def strideTag (b d : Word) : Tag := if d = 0 then uniTag b else .affine b d

/-! ### Sources that take one value (R53) -/

/-- A register's uniform value, or the operand-shape fault with its field number. -/
def uniReg (s : State) (field n : Nat) : Except Raise Word :=
  let t := readTag s n
  if t.isUniform then .ok t.value else .error (.plain 0x200 field)

/-- The uniform value of an operand; `field` is its number in the DETAIL of cause 0x200. -/
def uni (s : State) (field : Nat) (o : Opnd) : Except Raise Word :=
  match o with
  | .v n => uniReg s field n
  | .lane | .tid => .error (.plain 0x200 field)
  | o => .ok (srcLane s o 0)

/-- The uniform value of a pair. -/
def uniPair (s : State) (field : Nat) (o : Opnd) : Except Raise Dword :=
  match o with
  | .v n => do
      let lo ← uniReg s field n
      let hi ← uniReg s field (n + 1)
      .ok (hi ++ lo)
  | .lane | .tid => .error (.plain 0x200 field)
  | o => .ok (srcPair s o 0)

/-- The uniform value of an operand, of a pair where `pr`. -/
def uniW (s : State) (field : Nat) (pr : Bool) (o : Opnd) : Except Raise Dword :=
  if pr then uniPair s field o else (uni s field o).map (·.setWidth 64)

/-! ### The tag of a write (R52) -/

/-- The tag where the general rows do not decide: `affine` is the result of an affine row, `special` replaces the rows
below it, `all` says that every source is uniform or zero, and `x` is the value written. -/
def tagOfWrite (s : State) (affine : Option Tag) (all : Bool) (x : Word) : Tag :=
  if execMask s ≠ s.g.present then .general
  else match affine with
    | some t => t
    | none => if all then uniTag x else .general

/-- The affine row of `add` and `sub`. -/
def affineAdd (sub : Bool) (a b : Tag) : Option Tag :=
  let op (x y : Word) : Word := if sub then x - y else x + y
  match a, b with
  | .affine b1 d1, .affine b2 d2 => some (strideTag (op b1 b2) (op d1 d2))
  | .affine b1 d1, .uniform u => some (strideTag (op b1 u) (op d1 0))
  | .affine b1 d1, .zero => some (strideTag (op b1 0) (op d1 0))
  | .uniform u, .affine b2 d2 => some (strideTag (op u b2) (op 0 d2))
  | .zero, .affine b2 d2 => some (strideTag (op 0 b2) (op 0 d2))
  | _, _ => none

/-- The affine row of `mul`. -/
def affineMul : Tag → Tag → Option Tag
  | .affine b d, .uniform u => some (strideTag (b * u) (d * u))
  | .uniform u, .affine b d => some (strideTag (u * b) (u * d))
  | _, _ => none

/-- The affine row of `shl`. -/
def affineShl : Tag → Tag → Option Tag
  | .affine b d, .uniform u => some (strideTag (b <<< u.toNat) (d <<< u.toNat))
  | _, _ => none

/-- The write of one register of a vector result: lanes from `f`, in the active lanes. -/
def vecWrite (s : State) (d : Nat) (tag : Word → Tag) (f : Nat → Word) : RegWrite :=
  let m := execMask s
  let r := tabulate fun l => if laneOn m l then f l else 0
  .vec d m r (tag (laneAt r ((lowest m).getD 0)))

/-- The register number of an operand. -/
def Opnd.reg : Opnd → Nat
  | .v n | .s n | .h n => n
  | _ => 0

def regNo (o : Opnd) : Nat := Opnd.reg o

/-- The writes of a vector result to `d`, or to the pair at `d`: each half is tagged on its own. -/
def vecWrites (s : State) (d : Opnd) (pr : Bool) (affine : Option Tag) (all : Bool) (f : Nat → Dword) :
    List RegWrite :=
  let r := lanes32.map f
  let at_ (l : Nat) : Dword := r.getD l 0
  let lo := vecWrite s (regNo d) (tagOfWrite s affine all) fun l => (at_ l).setWidth 32
  if pr then [lo, vecWrite s (regNo d + 1) (tagOfWrite s none all) fun l => (at_ l >>> 32).setWidth 32] else [lo]

/-- Writes with tag 0 (R52, R235). -/
def vecGeneral (s : State) (d : Opnd) (pr : Bool) (f : Nat → Dword) : List RegWrite := vecWrites s d pr none false f

/-- Every source is uniform or zero, both halves of a pair (R52). -/
def allUniform (s : State) (pr : Bool) (os : List Opnd) : Bool := os.all fun o => (srcTags s pr o).all Tag.isUniform

/-- The writes of a scalar result. -/
def scaWrites (d : Opnd) (pr : Bool) (x : Dword) : List RegWrite :=
  let lo := RegWrite.sca (regNo d) (x.setWidth 32)
  if pr then [lo, .sca (regNo d + 1) ((x >>> 32).setWidth 32)] else [lo]

/-- Consecutive words written to scalar registers from `n`. -/
def scaRun (n : Nat) (xs : List Word) : List RegWrite := (List.range xs.length).map fun i => .sca (n + i) (xs.getD i 0)

/-- Consecutive scalar registers from `n`. -/
def readRun (s : State) (n k : Nat) : List Word := (List.range k).map fun i => readS s (n + i)

/-- The value of words, the first lowest. -/
def wordsNat : List Word → Nat
  | [] => 0
  | w :: t => w.toNat + 2 ^ 32 * wordsNat t

/-- The words of a value, lowest first. -/
def natWords : Nat → Nat → List Word
  | 0, _ => []
  | k + 1, n => w32 n :: natWords k (n / 2 ^ 32)

/-! ### What an instruction is (R221, R321, R366) -/

/-- The operand that names an instruction's destination, and whether the value written there is 64 bits wide (R366). -/
def Instr.dest : Instr → Opnd × Bool
  | .sAdd pr d .. | .sSub pr d .. | .sMul pr d .. | .sAnd pr d .. | .sOr pr d .. | .sXor pr d .. | .sNot pr d ..
  | .sShl pr d .. | .sShr pr d .. | .sSar pr d .. | .sSel pr d .. | .sMov pr d .. => (d, pr)
  | .sMin ty d .. | .sMax ty d .. | .add ty _ d .. | .sub ty _ d .. | .mul ty d .. | .and ty d .. | .or ty d ..
  | .xor ty d .. | .not ty d .. | .shl ty d .. | .shr ty d .. | .sar ty d .. | .min ty d .. | .max ty d ..
  | .abs ty d .. | .sel ty d .. | .mov ty d .. => (d, ty.regs == 2)
  | .sAddI d .. | .sSubI d .. | .sMulI d .. | .sMulh _ d .. | .sMulhI _ d .. | .sMad d .. | .sAndI d .. | .sOrI d ..
  | .sXorI d .. | .sShlI d .. | .sShrI d .. | .sSarI d .. | .sMinI _ d .. | .sMaxI _ d .. | .sCmp _ _ d ..
  | .sMovi _ d _ | .sBfe _ d .. | .sBfi d .. | .sPopc d _ | .sClz d _ | .sAddc _ d .. | .sAddcI d .. | .sFadd _ d ..
  | .sFaddI _ d .. | .sFmul _ d .. | .sFmulI _ d .. | .sFma _ d .. | .sGetl d .. | .addI _ d .. | .subI _ d ..
  | .mulI _ d .. | .mulh _ d .. | .mulhI _ d .. | .mad _ d .. | .andI _ d .. | .orI _ d .. | .xorI _ d ..
  | .shlI _ d .. | .shrI _ d .. | .sarI _ d .. | .minI _ d .. | .maxI _ d .. | .bfe _ d .. | .bfi d .. | .popc d _
  | .clz d _ | .cmp _ _ d .. | .movI _ d _ | .putl d .. | .shape d _ | .addc _ _ d .. | .addcI _ d .. | .lsel _ _ d ..
  | .prmt d .. | .fadd _ _ d .. | .faddI _ d .. | .fsub _ _ d .. | .fsubI _ d .. | .fmul _ _ d .. | .fmulI _ d ..
  | .fma _ _ d .. | .fmin _ d .. | .fminI _ d .. | .fmax _ d .. | .fmaxI _ d .. | .fcmp _ _ d .. | .frcpSeed d _
  | .frsqSeed d _ | .fsqrt _ d _ | .fexp2 d _ | .flog2 d _ | .fsin d _ | .fcos d _ | .frnd _ _ d _ | .fclass d _
  | .fscale _ d .. | .fexpo d _ | .bpack d _ | .bunpack _ d _ | .fdot2 _ _ d .. | .vote _ _ d .. | .red _ _ _ d ..
  | .scan _ _ _ _ d .. | .matchOp _ _ d .. | .cmpct _ d .. | .execGet d | .mAnd d .. | .mOr d .. | .mXor d ..
  | .mNot d _ | .mFfs d _ | .launch d _ | .qGet _ d | .clJoin d _ | .cpy d _ | .cpym d _ | .fill d _ | .rowcpy d _
  | .htest d _ | .hld _ d _ | .mstore _ _ d .. | .mrd _ d _ | .assayGet d _ | .slBind d _ | .slUnbind d _
  | .slStat d _ | .wpSet d .. | .wpClr d .. | .wpRd d .. | .dbgRd d .. | .dbgWr d .. | .dbgList d .. => (d, false)
  | .sCvt ty _ cv d _ | .cvt ty _ cv d .. => (d, cvtDstRegs ty cv == 2)
  | .shfl _ _ wide d .. => (d, wide)
  | .sLd _ w d .. | .ld _ w d .. => (d, w == .b64)
  | .atom _ wide _ _ d .. | .atomCas _ wide d .. => (d, wide)
  | .pop d _ => (d, false)
  | .call l _ => (l, true)
  | .ctlRd d r => (d, r.regs == 2)
  | .meterRd d _ => (d, true)
  | _ => (.none, false)

/-- TRAPDST of an instruction (R366). -/
def trapDst (i : Instr) : Word :=
  let d := Instr.dest i
  w32 (Opnd.code d.1 + 1024 * d.2.toNat)

/-- The long-latency instructions (R221). -/
def isLong : Instr → Bool
  | .sLd .. | .sSt .. | .frcpSeed .. | .frsqSeed .. | .fsqrt .. | .fexp2 .. | .flog2 .. | .fsin .. | .fcos ..
  | .shfl .. | .vote .. | .red .. | .scan .. | .matchOp .. | .cmpct .. | .qPut .. | .qGet .. | .launch ..
  | .ld .. | .st .. | .atom .. | .atomCas .. | .fence .. | .wb .. | .inv .. | .gaugeSet .. | .gaugeSetOff ..
  | .gaugeWait .. | .gaugeAdd .. | .clJoin .. | .clLeave | .push .. | .pop .. | .pfetch ..
  | .cpy .. | .cpym .. | .fill .. | .rowcpy .. | .htest .. | .hcancel .. | .hst .. | .hld .. | .mma .. | .mmaG ..
  | .mzero .. | .mstore .. | .mrd .. | .assaySet .. | .assayGet .. | .assayInv ..
  | .ctlRd .. | .meterRd .. | .slBind .. | .slUnbind .. | .slStat .. | .stamp .. | .stampSync ..
  | .wpSet .. | .wpClr .. | .wpRd .. | .dbgRd .. | .dbgWr .. | .dbgList .. => true
  | _ => false

/-- The instructions that act per lane and count as lane-instructions (R321). -/
def perLane : Instr → Bool
  | .add .. | .addI .. | .sub .. | .subI .. | .mul .. | .mulI .. | .mulh .. | .mulhI .. | .mad .. | .and .. | .andI ..
  | .or .. | .orI .. | .xor .. | .xorI .. | .not .. | .shl .. | .shlI .. | .shr .. | .shrI .. | .sar .. | .sarI ..
  | .min .. | .minI .. | .max .. | .maxI .. | .abs .. | .bfe .. | .bfi .. | .popc .. | .clz .. | .cmp .. | .sel ..
  | .mov .. | .movI .. | .movx .. | .putl .. | .addc .. | .addcI .. | .lsel .. | .prmt ..
  | .fadd .. | .faddI .. | .fsub .. | .fsubI .. | .fmul .. | .fmulI .. | .fma .. | .fmin .. | .fminI .. | .fmax ..
  | .fmaxI .. | .fcmp .. | .frcpSeed .. | .frsqSeed .. | .fsqrt .. | .fexp2 .. | .flog2 .. | .fsin .. | .fcos ..
  | .frnd .. | .fclass .. | .fscale .. | .fexpo .. | .cvt .. | .bpack .. | .bunpack .. | .fdot2 ..
  | .shfl .. | .vote .. | .red .. | .scan .. | .matchOp .. | .ld .. | .st .. | .atom .. | .atomCas .. | .pfetch ..
  | .cmpct .. | .mrd .. => true
  | _ => false

/-- The instruction can raise a floating-point flag (R365). -/
def raisesFp : Instr → Bool
  | .sFadd .. | .sFaddI .. | .sFmul .. | .sFmulI .. | .sFma .. | .sCvt .. | .fadd .. | .faddI .. | .fsub .. | .fsubI ..
  | .fmul .. | .fmulI .. | .fma .. | .fmin .. | .fminI .. | .fmax .. | .fmaxI .. | .fcmp .. | .frcpSeed ..
  | .frsqSeed .. | .fsqrt .. | .fexp2 .. | .flog2 .. | .fsin .. | .fcos .. | .frnd .. | .fscale .. | .fexpo ..
  | .cvt .. | .fdot2 .. => true
  | .sCmp ty .. | .cmp ty .. => ty.floating
  | .red op .. | .scan op .. => op == .fadd || op == .fmin || op == .fmax
  | _ => false

/-- The long-latency instructions that act on memory, on their queue of stores, on their team or on the device as they
issue: only results are still to come (R405). -/
def actsAtIssue : Instr → Bool
  | .sSt .. | .st .. | .hst .. | .push .. | .atom .. | .atomCas .. | .fence .. | .wb .. | .inv .. | .pfetch ..
  | .gaugeSet .. | .gaugeSetOff .. | .gaugeAdd .. | .clJoin .. | .clLeave | .qPut .. | .qGet .. | .launch ..
  | .cpy .. | .cpym .. | .fill .. | .rowcpy .. | .mstore .. | .hcancel .. | .assaySet .. | .assayInv ..
  | .slBind .. | .slUnbind .. | .stamp .. | .stampSync .. | .wpSet .. | .wpClr .. | .dbgRd .. | .dbgWr .. | .dbgList .. => true
  | _ => false

/-- The instruction makes one event for each active lane, not one for the group (R232, R286, R411): those that count as
lane-instructions, and those that act for the lanes of their slot's mask without a rule that they act once per issue. -/
def actsPerLane : Instr → Bool
  | .br .. | .bz .. | .bnz .. | .bexz .. | .brs .. | .brsSift .. | .join .. | .call .. | .ret .. | .exit
  | .sift .. | .barArr .. | .barWait .. | .barSync .. | .launch .. => true
  | i => perLane i

end Sys2Proof.Machine
end

