-- ==== Sys2Proof/Machine/Canary.lean ====
section
/-!
DEFINITION. Machine/Canary.lean: the canary bank of a core and the halting of groups and teams (R409 to R417).
-/
namespace Sys2Proof.Machine

/-! ### Halting (R415, R416) -/

/-- The group in focus halts, with its stop record, and its team begins to halt where the halt is a team's (R416). -/
def haltNow (s : State) (h : Halt) : State :=
  let s := abandonSift { s with g := { s.g.release with halted := true, haltDue := none, grace := none } }
  let s := writeStop s s.g h.why h.wp h.hits
  if h.team && s.team.halting.isNone then
    onGroups { s with team := { s.team with halting := some 4 } }
      (fun g => decide (g.ref.team = s.g.ref.team) && !g.halted) fun g => { g with grace := some 3 }
  else s

/-- The slot stands inside its clause, and does not wait there while its partner stands at a clause boundary that it may not
leave: then the group is at a boundary (R416; notes/assumptions/80.md). -/
def midClause (g : Group) (i : SlotId) : Bool :=
  let p := g.slot i
  let q := g.slot i.partner
  p.live && (p.stand == .issuing || p.stand == .paused)
    && !(decide (p.wait ≠ .running) && q.live && (q.stand == .header || q.stand == .arrived))

/-- A triggered halt takes effect once trap entry has been made and its boundary is reached (R414, R416); the record of
a debug step, once its instruction has completed, unless firmware has ended the team (R425). -/
def settleHalt (s : State) : State :=
  match s.g.haltDue with
  | none => s
  | some h =>
      if s.team.ending then { s with g := { s.g with haltDue := none } }
      else if s.g.entry.isSome || (h.clauseOf.any (midClause s.g)) || (h.why == 5 && s.g.inflight != []) then s
      else haltNow s h

/-- Two halts of one group, the first triggered before the second: it halts at the sooner boundary, with the record of the
halt that names it, and its team halts where either asks for it (R416, R428; notes/assumptions/81.md). -/
def Halt.and (a b : Halt) : Halt :=
  { (if a.clauseOf.isSome && b.clauseOf.isNone then b else a) with team := a.team || b.team }

/-- The group halts at the next boundary that the halt names. -/
def haltGroup (s : State) (h : Halt) : State :=
  if s.g.halted then s else { s with g := { s.g with haltDue := some ((s.g.haltDue.map (·.and h)).getD h) } }

/-! ### The canary word (R409) -/

def Canary.bits (c : Canary) (lo w : Nat) : Nat := c.word.toNat / 2 ^ lo % 2 ^ w

def Canary.val0 (c : Canary) : Nat := c.bits 71 57
def Canary.val1 (c : Canary) : Nat := c.bits 48 23
def Canary.lmask (c : Canary) : Word := w32 (c.bits 16 32)
def Canary.armed (c : Canary) : Bool := c.bits 15 1 == 1
def Canary.chain (c : Canary) : Bool := c.bits 14 1 == 1
def Canary.act (c : Canary) : Nat := c.bits 11 3
def Canary.wide (c : Canary) : Bool := c.bits 10 1 == 1
def Canary.src (c : Canary) : Nat := c.bits 7 3
def Canary.space (c : Canary) : Nat := c.bits 4 3
def Canary.cmp (c : Canary) : Nat := c.bits 2 2
def Canary.width (c : Canary) : Nat := c.bits 0 2

/-- No reserved bit or code, and SPACE and WIDTH as the source allows (R409, R423). -/
def Canary.valid (c : Canary) : Bool :=
  decide (c.act ≤ 4) && decide (c.src ≤ 5) && c.space != 6
    && (!(c.src == 0 || c.src == 5) || c.space == 7)
    && (if c.src = 3 ∨ c.src = 4 then c.width != 3 else c.width == 0)

def Canary.none_ : Canary := { word := 0, hits := 0, vd := 0, team := none, since := 0, placing := none }

/-- The width of the operand in an event (R410). -/
def Canary.opWidth (c : Canary) (w : Watch) : Nat :=
  match c.src with
  | 0 => 57
  | 1 | 2 => if w.space = 0 ∨ w.space = 4 ∨ w.space = 5 then 57 else 32
  | 5 => 5
  | _ => if c.width = 0 then 8 else if c.width = 1 then 16 else 32

/-- The comparison of R410. -/
def Canary.compare (c : Canary) (x w : Nat) : Bool :=
  let x := x % 2 ^ w
  let v := c.val0 % 2 ^ w
  match c.cmp with
  | 0 => x == v
  | 1 => x != v
  | 2 => decide ((x + 2 ^ w - v) % 2 ^ w ≤ c.val1)
  | _ =>
      let m := (2 ^ w - 1) - (2 ^ 23 - 1 - c.val1) % 2 ^ w
      (x ^^^ v) &&& m == 0

/-- One event matches the canary. -/
def Canary.matches (c : Canary) (w : Watch) : Bool :=
  w.src == c.src && (c.space == 7 || w.space == c.space)
    && (!(c.src == 3 || c.src == 4) || decide (8 * w.size ≥ c.opWidth w)) && c.compare w.x (c.opWidth w)

/-! ### Chains (R411 to R413) -/

/-- The chains of a bank: runs of slot numbers; a run that w15 leaves open is none. -/
def chainsFrom (bank : SMap Canary) : Nat → Nat → List Nat → List (List Nat)
  | 0, _, _ => []
  | k + 1, n, open_ =>
      let c := mget Canary.none_ bank n
      if c.chain then chainsFrom bank k (n + 1) (open_ ++ [n]) else (open_ ++ [n]) :: chainsFrom bank k (n + 1) []

def chains (bank : SMap Canary) : List (List Nat) := chainsFrom bank 16 0 []

/-- When a chain is evaluated: 0 before the instruction, 1 as it completes its issue, 2 when a load's value or an
exception set is there. -/
def chainPhase (cs : List Canary) : Nat :=
  if cs.all fun c => c.src == 0 then 0
  else if cs.any fun c => c.src == 3 || c.src == 5 then 2
  else 1

/-- A chain that matched: the number of its first member that takes the action, the action, its hitting lanes, and
whether an event of the group as a whole matched. -/
structure Hit where
  num : Nat
  act : Nat
  lanes : Word
  whole : Bool
  late : Bool
  deriving DecidableEq, Repr

/-- The canary applies to an instruction that issued at time `at_` (R423). -/
def Canary.applies (c : Canary) (at_ : Nat) : Bool := c.placing.isNone && decide (c.since ≤ at_)

/-- The canary watches groups of this device and team (R411). -/
def Canary.watches (c : Canary) (g : Group) : Bool :=
  c.armed && c.vd == g.ref.team.vd && (c.wide || decide (c.team = some g.ref.team))

/-- What a chain does on the events of one instruction that issued at time `at_`. -/
def chainHit (g : Group) (bank : SMap Canary) (at_ : Nat) (nums : List Nat) (evs : List Watch) (phases : List Nat) : Option Hit :=
  let cs := nums.map fun n => mget Canary.none_ bank n
  match cs.getLast?, nums.getLast? with
  | some last, some num =>
      if cs.all Canary.armed && cs.all (fun c => c.vd == g.ref.team.vd && c.applies at_) && last.watches g
          && phases.contains (chainPhase cs) then
        let lanes := maskOf fun l => laneOn last.lmask l && cs.all fun c =>
          evs.any fun e => e.lane == some l && c.matches e
        let whole := last.lmask != 0 && cs.all fun c => evs.any fun e => e.lane.isNone && c.matches e
        if lanes = 0 ∧ whole = false then none
        else some { num := num, act := last.act, lanes := lanes, whole := whole
                    late := cs.any fun c => c.src == 3 }
      else none
  | _, _ => none

/-- The instruction's event of source 0 (R410, R411): one per active lane, or one for the group. -/
def pcEvents (i : Instr) (pc : Addr) (mask : Word) : List Watch :=
  if actsPerLane i then
    lanes32.filterMap fun l =>
      if laneOn mask l then some { src := 0, space := 7, lane := some l, x := pc.toNat, size := 8 } else none
  else [{ src := 0, space := 7, lane := none, x := pc.toNat, size := 8 }]

/-- Hit counts advanced by the chains whose action is count (R413). -/
def countHits (s : State) (hs : List Hit) : State :=
  hs.foldl (fun s h =>
    if h.act = 0 then
      onCore s s.g.core fun c =>
        let x := mget Canary.none_ c.canaries h.num
        let n := min (x.hits.toNat + popcount h.lanes + h.whole.toNat) 0xffffffff
        { c with canaries := mins c.canaries h.num { x with hits := w32 n } }
    else s) s

/-- The lanes that park leave the slot's mask, and a slot that they leave empty waits no more (R299). A park without lanes
halts the group as its source does (R414, R416); lanes that hit at another PC halt it at once and stay in their slot (R415). -/
def parkLanes (s : State) (i : SlotId) (pc : Addr) (h : Hit) : State :=
  if h.lanes = 0 then
    haltGroup s { why := 0, wp := h.num, hits := 0, team := false, clauseOf := if h.late then some i else none }
  else if s.g.parked ≠ 0 ∧ (s.g.parkPc ≠ pc ∨ s.g.parkFrom ≠ i) then
    haltGroup s { why := 3, wp := 0xff, hits := 0, team := false, clauseOf := none }
  else
    let p := s.g.slot i
    let lanes := h.lanes &&& p.mask
    let g := s.g.setSlot i { p with mask := p.mask &&& ~~~lanes }
    let s := { s with g := { g with parked := g.parked ||| lanes, parkFrom := i, parkPc := pc } }
    if p.mask &&& ~~~lanes = 0 then dropWaits s fun w => decide (w.2 = (s.g.ref.gid, i)) else s

/-- The actions of the chains that match on the events of an instruction of slot `i` that issued at time `at_` (R413, R414,
R423). `c` is the cause that a trap raises but for its code. An instruction that has raised a cause (`told`), and a slot
whose cause waits to be entered, raise no second one (R375; notes/assumptions/65.md); the partner's is held (R367). -/
def watchSince (s : State) (told : Bool) (at_ : Nat) (i : SlotId) (evs : List Watch) (phases : List Nat) (c : Cause) : State :=
  let bank := (coreAt s s.g.core).canaries
  if bank = [] then s
  else
    let hs := (chains bank).filterMap fun ns => chainHit s.g bank at_ ns evs phases
    let s := countHits s hs
    let best (act : Nat) : Option Hit :=
      match hs.filter fun h => h.act == act with
      | [] => none
      | h :: t => some { h with lanes := t.foldl (fun m x => m ||| x.lanes) h.lanes }
    match best 4, best 3, best 1, best 2 with
    | some h, _, _, _ =>
        haltGroup s { why := 0, wp := h.num, hits := h.lanes, team := true
                      clauseOf := if h.late then some i else none }
    | none, some h, _, _ =>
        haltGroup s { why := 0, wp := h.num, hits := h.lanes, team := false
                      clauseOf := if h.late then some i else none }
    | none, none, some h, _ =>
        if told || s.g.entry.any fun e => decide (e.slot = i) then s
        else raise s { c with code := 0x003, detail := BitVec.ofNat 8 h.num, mask := h.lanes, addr := none, lanes := [] }
    | none, none, none, some h => parkLanes s i c.next h
    | none, none, none, none => s

/-- The same for an instruction that issues now. -/
def watchEvents (s : State) (i : SlotId) (evs : List Watch) (phases : List Nat) (c : Cause) : State :=
  watchSince s false s.now i evs phases c

/-- A chain with a member of the source and one of the actions watches what the group issues at time `at_` (R411, R412,
R423). -/
def watchedFor (s : State) (g : Group) (src : Nat) (acts : List Nat) (at_ : Nat) : Bool :=
  let bank := (coreAt s g.core).canaries
  bank != [] && (chains bank).any fun ns =>
    let cs := ns.map fun n => mget Canary.none_ bank n
    cs.all (fun c => c.armed && c.vd == g.ref.team.vd && c.applies at_) && cs.any (fun c => c.src == src)
      && cs.getLast?.any fun l => l.watches g && acts.contains l.act

end Sys2Proof.Machine
end

