-- ==== Sys2Proof/Machine/Effect.lean ====
section
/-!
DEFINITION. Machine/Effect.lean: how an instruction issues and completes: its effect, the flag that covers it (R61,
R207), the traps of its completion (R90, R234, R365), and what its lanes count (R321, R353).
-/
namespace Sys2Proof.Machine

/-- What an instruction does: the state after everything but its register writes and flags, its writes, the
floating-point flags of its lanes or of a scalar instruction, STS bits, the accesses that canaries watch, and what
completes it. -/
structure Effect where
  st : State
  writes : List RegWrite
  fp : List FpFlags
  sfp : FpFlags
  sts : Word
  events : List Watch
  /-- The mark of the canaries that apply from the completion on (R423). -/
  arm : Option Nat
  until_ : Until

/-- An effect that only changes state. -/
def Effect.of (s : State) : Effect :=
  { st := s, writes := [], fp := [], sfp := 0, sts := 0, events := [], arm := none, until_ := .now }

/-- An effect that only writes registers. -/
def Effect.write (s : State) (ws : List RegWrite) : Effect := { Effect.of s with writes := ws }

/-- Events of source 5 (R410): the flags of each active lane, or of a scalar instruction. -/
def flagEvents (i : Instr) (mask : Word) (fp : List FpFlags) (sfp : FpFlags) : List Watch :=
  if raisesFp i then
    if actsPerLane i then
      lanes32.filterMap fun l =>
        if laneOn mask l then some { src := 5, space := 7, lane := some l, x := (fp.getD l 0).toNat, size := 1 } else none
    else [{ src := 5, space := 7, lane := none, x := sfp.toNat, size := 1 }]
  else []

/-- The cause of an instruction that has completed (kind T). -/
def trapCause (slot : SlotId) (pc next : Addr) (dst : Word) (r : Raise) : Cause :=
  { code := r.code, kind := .trap, detail := BitVec.ofNat 8 r.detail, slot := slot, pc := pc, next := next
    mask := r.mask, dst := dst, addr := r.addr.map addrWord, lanes := r.lanes }

/-- A trap of completion is raised, if there is one (R90). -/
def raiseTrap (s : State) (slot : SlotId) (pc next : Addr) (dst : Word) : Option Raise → State
  | none => s
  | some r => raise s (trapCause slot pc next dst r)

/-- The writes and flags of a short instruction, which completes as it issues. -/
def landShort (i : Instr) (e : Effect) : Group :=
  let s := e.st
  let g := addSts (addFps (putRegs s.g e.writes) (orFlags e.fp ||| e.sfp)) e.sts
  g.setSlot s.slot ((g.slot s.slot).moveTo s.now (nextAddr i (g.slot s.slot)))

/-- The instruction's own event of source 0, which a step and the first instruction after `dbg.run` do not make (R429). -/
def ownPc (i : Instr) (s : State) : List Watch :=
  if (cur s).calm || s.g.stepping == some s.slot then [] else pcEvents i (cur s).pc (cur s).mask

/-- A short instruction completes. -/
def finishShort (i : Instr) (e : Effect) : State :=
  let p := cur e.st
  let next := nextAddr i p
  let s := countLanes { e.st with g := landShort i e } (if perLane i then popcount p.mask else 0)
  let t := fpTrap (trapEnables s.g) e.fp e.sfp
  let s := raiseTrap s e.st.slot p.pc next (trapDst i) t
  watchSince s t.isSome s.now e.st.slot (ownPc i e.st ++ e.events ++ flagEvents i p.mask e.fp e.sfp) [1, 2]
    (trapCause e.st.slot p.pc next (trapDst i) (.plain 0x003 0))

/-- SETA or SETB of the slot's clause, where it names a flag (R205). -/
def setFlag (p : PcSlot) (lo : Nat) : Option Nat :=
  let n := p.head.toNat / 2 ^ lo % 16
  if n < 12 then some n else none

/-- The instruction at an address of the slot's clause is long-latency. -/
def longAt (s : State) (p : PcSlot) (a : Addr) : Bool :=
  match fetchWord s a with
  | .ok w =>
      match decodeWord (budgetOf s) (p.head.toNat / 2 ^ 49 % 8) w.toNat with
      | .ok i => isLong i
      | .error _ => false
  | .error _ => false

/-- No earlier instruction of the clause is long-latency (R207). -/
def firstLong (s : State) (p : PcSlot) : Bool :=
  (List.range 16).all fun k =>
    let a : Addr := p.hdr + BitVec.ofNat 57 (8 * (k + 1))
    decide (8 * (k + 1) ≥ (p.pc - p.hdr).toNat) || !longAt s p a

/-- The flag that covers a long-latency instruction at the slot's pc (R207). -/
def coverFlag (s : State) (p : PcSlot) : Option Nat :=
  match setFlag p 33, setFlag p 29 with
  | some a, some b => if firstLong s p then some a else some b
  | some a, none => some a
  | none, b => b

def setFlagBit (g : Group) (f : Option Nat) : Group :=
  match f with
  | some n => { g with flags := g.flags ||| BitVec.ofNat 12 (2 ^ n) }
  | none => g

/-- What stays in flight of a long-latency instruction. -/
def flightOf (i : Instr) (e : Effect) : InFlight :=
  let s := e.st
  let p := cur s
  { slot := s.slot, flag := coverFlag s p, pc := p.pc, next := nextAddr i p, mask := p.mask, dst := trapDst i
    writes := e.writes, fp := e.fp, te := trapEnables s.g, lanes := if perLane i then popcount p.mask else 0, sts := e.sts
    loads := ownPc i s ++ e.events ++ flagEvents i p.mask e.fp e.sfp, arm := e.arm, issued := s.now
    until_ := e.until_, acted := actsAtIssue i }

/-- A long-latency instruction issues: its flag is marked and its results are in flight. -/
def launchLong (i : Instr) (e : Effect) : State :=
  let f := flightOf i e
  let p := cur e.st
  let g := setFlagBit e.st.g f.flag
  let g := g.setSlot e.st.slot (p.moveTo e.st.now f.next)
  let s := { e.st with g := { g with inflight := g.inflight ++ [f] } }
  watchEvents s e.st.slot f.loads [1] (trapCause f.slot f.pc f.next f.dst (.plain 0x003 0))

/-- The outcome of an instruction of the slot in focus: a cause, or its effect. -/
def issue (i : Instr) (r : Except Raise Effect) (s : State) : Out :=
  match r with
  | .error r => .next (raise s (causeHere s r (nextAddr i (cur s)) (trapDst i)))
  | .ok e => .next (if isLong i then launchLong i e else finishShort i e)

/-- A slot that holds its port in the middle of its clause has still to issue an instruction that flag `n` covers. -/
def coversYet (s : State) (n : Nat) (p : PcSlot) : Bool :=
  p.live && p.stand == .issuing && (setFlag p 33 == some n || setFlag p 29 == some n)
    && (List.range p.count).any fun k =>
      let a : Addr := p.hdr + BitVec.ofNat 57 (8 * (k + 1))
      decide (8 * (k + 1) ≥ (p.pc - p.hdr).toNat) && longAt s p a && coverFlag s { p with pc := a } == some n

/-- A flag stays marked while a clause that is issuing has still to issue an instruction that it covers (R61, R207). In a
slot that waits without a port, in a group that stops and in one that enters a trap, all that has issued decides (R38,
R177, R192, R195, R366, R416; notes/assumptions/76.md). -/
def stillCovers (s : State) (f : Option Nat) : Bool :=
  s.g.entry.isNone && f.any fun n => coversYet s n s.g.a || coversYet s n s.g.b

/-- A flag clears when no instruction in flight is covered by it (R61). -/
def clearFlagBit (g : Group) (f : Option Nat) : Group :=
  match f with
  | some n =>
      if g.inflight.any fun i => i.flag == some n then g
      else { g with flags := g.flags &&& ~~~(BitVec.ofNat 12 (2 ^ n)) }
  | none => g

/-- The list without element `k`. -/
def dropAt {α : Type} : List α → Nat → List α
  | [], _ => []
  | _ :: t, 0 => t
  | a :: t, k + 1 => a :: dropAt t k

/-- The registers after in-flight instruction `k` of the group has landed: earlier writes to its destinations land
first (R62). Its flag stays marked where its clause still covers something (`held`). -/
def landFlight (g : Group) (k : Nat) (f : InFlight) (held : Bool) : Group :=
  let before := g.inflight.take k
  let due := (before.map fun i => i.writes.filter fun w => f.writes.any w.same).flatten
  let before := before.map fun i => { i with writes := i.writes.filter fun w => !f.writes.any w.same }
  let g := applyWrites (applyWrites g due) f.writes
  let g := addSts (addFps g (orFlags f.fp)) f.sts
  clearFlagBit { g with inflight := before ++ g.inflight.drop (k + 1) } (if held then none else f.flag)

/-- In-flight instruction `k` of the group in focus completes (R207). -/
def landAt (s : State) (k : Nat) : State :=
  match s.g.inflight[k]? with
  | none => s
  | some f =>
      let s := landOutside { s with g := landFlight s.g k f (stillCovers s f.flag) } f
      let t := fpTrap f.te f.fp 0
      let s := raiseTrap s f.slot f.pc f.next f.dst t
      watchSince s t.isSome f.issued f.slot f.loads [2] (trapCause f.slot f.pc f.next f.dst (.plain 0x003 0))

/-- Completions of the slot's own instructions that need nothing else, oldest first. -/
def landOwnFrom : Nat → Nat → State → State
  | 0, _, s => s
  | n + 1, k, s =>
      match s.g.inflight[k]? with
      | none => s
      | some f =>
          if f.slot = s.slot ∧ f.until_ = .now then landOwnFrom n k (landAt s k) else landOwnFrom n (k + 1) s

/-- The slot's earlier instructions complete before one that waits for them (R67). -/
def landOwn (s : State) : State := landOwnFrom s.g.inflight.length 0 s

/-- An earlier instruction of the slot is incomplete. -/
def ownPending (s : State) : Bool := s.g.inflight.any fun f => decide (f.slot = s.slot)

end Sys2Proof.Machine
end

