-- ==== Sys2Proof/Machine/Alu.lean ====
section
/-!
DEFINITION. Machine/Alu.lean: the results of the integer and floating-point instructions on one lane's values, shared
by the vector and scalar families (R237 to R243, R249, R252 to R259).
-/
namespace Sys2Proof.Machine

/-! ### Integers: values are 64-bit patterns of which a type reads its low bits (R233) -/

/-- The type of an I form (R212). -/
def tselTy (t : Tsel) : Ty := Tsel.ty t

/-- The type of a scalar form without a suffix (R249). -/
def prTy (pr : Bool) : Ty := if pr then .n64 else .b32

def aluAdd (t : Ty) (sat : Bool) (a b : Dword) : Dword :=
  let x := intVal t a + intVal t b
  intWrap t (if sat then intClamp t x else x)

def aluSub (t : Ty) (sat : Bool) (a b : Dword) : Dword :=
  let x := intVal t a - intVal t b
  intWrap t (if sat then intClamp t x else x)

def aluMul (t : Ty) (a b : Dword) : Dword := intWrap t (intVal t a * intVal t b)

/-- The high word of the 64-bit product. -/
def aluMulh (t : Ty) (a b : Dword) : Dword := intWrap t (intVal t a * intVal t b / 2 ^ 32)

def aluMad (t : Ty) (a b c : Dword) : Dword := intWrap t (intVal t a * intVal t b + intVal t c)

def aluAnd (a b : Dword) : Dword := a &&& b
def aluOr (a b : Dword) : Dword := a ||| b
def aluXor (a b : Dword) : Dword := a ^^^ b
def aluNot (t : Ty) (a : Dword) : Dword := intWrap t ((~~~a).toNat)

/-- The unsigned value of a pattern under a type's width. -/
def rawVal (t : Ty) (a : Dword) : Nat := a.toNat % 2 ^ tyWidth t

/-- The value of a pattern as a signed number of the type's width. -/
def signedVal (t : Ty) (a : Dword) : Int :=
  let n := rawVal t a
  if n ≥ 2 ^ (tyWidth t - 1) then (n : Int) - 2 ^ tyWidth t else n

def aluShl (t : Ty) (a : Dword) (n : Nat) : Dword := if n ≥ tyWidth t then 0 else intWrap t (rawVal t a * 2 ^ n : Nat)

def aluShr (t : Ty) (a : Dword) (n : Nat) : Dword := if n ≥ tyWidth t then 0 else w64 (rawVal t a / 2 ^ n)

def aluSar (t : Ty) (a : Dword) (n : Nat) : Dword :=
  let x := signedVal t a
  intWrap t (if n ≥ tyWidth t then (if x < 0 then -1 else 0) else x / 2 ^ n)

def aluMin (t : Ty) (a b : Dword) : Dword := intWrap t (min (intVal t a) (intVal t b))
def aluMax (t : Ty) (a b : Dword) : Dword := intWrap t (max (intVal t a) (intVal t b))
def aluAbs (t : Ty) (a : Dword) : Dword := intWrap t (intVal t a).natAbs

/-- Position and length that `bfe` and `bfi` take from their last operand (R239). -/
def fieldPos (b : Dword) : Nat := min (b.toNat % 256) 32
def fieldLen (b : Dword) : Nat := min (b.toNat / 256 % 256) (32 - fieldPos b)

def aluBfe (t : Ty) (a b : Dword) : Dword :=
  let len := fieldLen b
  let f : Nat := a.toNat % 2 ^ 32 / 2 ^ fieldPos b % 2 ^ len
  if len = 0 then 0
  else if tySigned t && decide (f ≥ 2 ^ (len - 1)) then intWrap t ((f : Int) - 2 ^ len) else w64 f

def aluBfi (a b c : Dword) : Dword :=
  let pos := fieldPos c
  let len := fieldLen c
  let m : Word := BitVec.ofNat 32 ((2 ^ len - 1) * 2 ^ pos)
  let x : Word := (a.setWidth 32) <<< pos
  ((((b.setWidth 32 : Word) &&& ~~~m) ||| (x &&& m)) : Word).setWidth 64

def aluPopc (a : Dword) : Dword := w64 (popcount (a.setWidth 32))
def aluClz (a : Dword) : Dword := w64 (32 - bitLen (a.toNat % 2 ^ 32))

/-- `addc`: the exact sum with the carry in bit 0 of C; its low word, or its carry out (R240). -/
def aluAddc (co : Bool) (a b c : Dword) : Dword :=
  let t := a.toNat % 2 ^ 32 + b.toNat % 2 ^ 32 + c.toNat % 2
  w64 (if co then t / 2 ^ 32 else t % 2 ^ 32)

/-- `lsel` (R241). -/
def aluLsel (hi lo : BitVec 4) (a b c : Dword) : Dword :=
  let f (i : Nat) : Bool :=
    let k := 2 * (a.getLsbD i).toNat + (b.getLsbD i).toNat
    if c.getLsbD i then hi.getLsbD k else lo.getLsbD k
  (maskOf f).setWidth 64

/-- `prmt` (R242). -/
def aluPrmt (a b c : Dword) : Dword :=
  let src : Nat := a.toNat % 2 ^ 32 + 2 ^ 32 * (b.toNat % 2 ^ 32)
  let byte (i : Nat) : Nat :=
    let k := c.toNat / 16 ^ i % 16
    let x := src / 256 ^ (k % 8) % 256
    if k ≥ 8 then (if x ≥ 128 then 255 else 0) else x
  w64 (byte 0 + 256 * byte 1 + 65536 * byte 2 + 16777216 * byte 3)

/-- An integer comparison (R243); conditions of the floating types do not occur. -/
def intCompare (t : Ty) (cc : Cond) (a b : Dword) : Bool :=
  let x := intVal t a
  let y := intVal t b
  match cc with
  | .eq => x == y
  | .ne => x != y
  | .lt => decide (x < y)
  | .le => decide (x ≤ y)
  | .gt => decide (y < x)
  | .ge => decide (y ≤ x)
  | _ => false

/-! ### Floating point: elements of a register (R75, R252) -/

/-- Elements of a type in a register. -/
def elems (ty : Ty) : Nat := if ty.packed then 2 else 1

/-- Element `e` of a register under a floating type, its FP32 source flushed. -/
def elemOf (flush : Bool) (ty : Ty) (x : Word) (e : Nat) : Fv :=
  let F := tyFmt ty
  let v := F.value (x.toNat / 2 ^ (16 * e) % 2 ^ F.width)
  if F = fp32 then flushSrc flush v else v

/-- The register of elements, and the OR of their flags; an FP32 result is flushed. -/
def packElems (flush : Bool) (ty : Ty) (f : Nat → Nat × FpFlags) : Word × FpFlags :=
  if ty.packed then
    let r0 := f 0
    let r1 := f 1
    (w32 (r0.1 + 65536 * r1.1), r0.2 ||| r1.2)
  else
    let r := flushRes flush (f 0)
    (w32 r.1, r.2)

/-- An operation of two sources on each element. -/
def fp2 (flush : Bool) (ty : Ty) (f : FpFmt → Fv → Fv → Nat × FpFlags) (a b : Word) : Word × FpFlags :=
  packElems flush ty fun e => f (tyFmt ty) (elemOf flush ty a e) (elemOf flush ty b e)

def fp3 (flush : Bool) (ty : Ty) (f : FpFmt → Fv → Fv → Fv → Nat × FpFlags) (a b c : Word) : Word × FpFlags :=
  packElems flush ty fun e => f (tyFmt ty) (elemOf flush ty a e) (elemOf flush ty b e) (elemOf flush ty c e)

def fp1 (flush : Bool) (ty : Ty) (f : FpFmt → Fv → Nat × FpFlags) (a : Word) : Word × FpFlags :=
  packElems flush ty fun e => f (tyFmt ty) (elemOf flush ty a e)

/-- The pattern of 1.0 (R255). -/
def oneOf (F : FpFmt) : Nat := F.bias * 2 ^ F.frac

/-- `fcmp` (R255). -/
def fpCompare (flush : Bool) (ty : Ty) (cc : Cond) (a b : Word) : Word × FpFlags :=
  let F := tyFmt ty
  let r (e : Nat) : Bool × FpFlags := fvCompare cc (elemOf flush ty a e) (elemOf flush ty b e)
  if ty.packed then
    let r0 := r 0
    let r1 := r 1
    (w32 ((if r0.1 then oneOf F else 0) + 65536 * (if r1.1 then oneOf F else 0)), r0.2 ||| r1.2)
  else
    let x := r 0
    (if x.1 then w32 (oneOf F) else 0, x.2)

/-- The truth of each element and the flags of `cmp` (R243). -/
def cmpElems (flush : Bool) (ty : Ty) (cc : Cond) (a b : Dword) : Bool × Bool × FpFlags :=
  if ty.floating then
    let r (e : Nat) : Bool × FpFlags :=
      fvCompare cc (elemOf flush ty (a.setWidth 32) e) (elemOf flush ty (b.setWidth 32) e)
    if ty.packed then ((r 0).1, (r 1).1, (r 0).2 ||| (r 1).2) else ((r 0).1, false, (r 0).2)
  else (intCompare ty cc a b, false, 0)

/-- `fdot2` (R256): the exact sum of two products and an addend, rounded once. -/
def fdot2Of (flush : Bool) (md : Mode) (f16 : Bool) (a b c : Word) : Word × FpFlags :=
  let ty : Ty := if f16 then .f16x2 else .bf16x2
  let a0 := elemOf false ty a 0
  let a1 := elemOf false ty a 1
  let b0 := elemOf false ty b 0
  let b1 := elemOf false ty b 1
  let c := elemOf flush .f32 c 0
  let all := [a0, a1, b0, b1, c]
  let nan := all.any Fv.isNan
  let sig := all.any Fv.isSig
  let prod (x y : Fv) : Option Fv := if x.isNan || y.isNan then some (.fin false 0 0) else x.times y
  let r : Nat × FpFlags :=
    match prod a0 b0, prod a1 b1 with
    | some p, some q =>
        let terms := [p, q, c]
        let pos := terms.any fun t => decide (t = .inf false)
        let neg := terms.any fun t => decide (t = .inf true)
        if pos && neg then fp32.nanOf true
        else if nan then fp32.nanOf sig
        else if pos then (fp32.infinity false, 0)
        else if neg then (fp32.infinity true, 0)
        else
          let x := (p.dy.add q.dy).add c.dy
          if x.m = 0 then
            let allNeg := terms.all Fv.neg
            let allPos := terms.all fun t => !t.neg
            (fp32.zero (if allNeg then true else if allPos then false else md == .rd), 0)
          else fp32.fit md x
    | _, _ => fp32.nanOf true
  let r := flushRes flush r
  (w32 r.1, r.2)

/-- `cvt` of one lane (R258, R259): a packed destination takes element 1 from B, or +0 without one. -/
def cvtLane (flush : Bool) (ty : Ty) (md : Mode) (cv : CvtCode) (a : Dword) (b : Option Dword) : Dword × FpFlags :=
  let sd := cvtSides ty cv
  let r0 := convert flush sd.1 sd.2 md a
  if cv.packedDst ty then
    match b with
    | some b =>
        let r1 := convert flush sd.1 sd.2 md b
        (w64 (r0.1.toNat + 65536 * r1.1.toNat), r0.2 ||| r1.2)
    | none => r0
  else r0

end Sys2Proof.Machine
end

