-- ==== Sys2Proof/Machine/Scalar.lean ====
section
/-!
DEFINITION. Machine/Scalar.lean: the scalar instructions (R249, R250); `s.ld` and `s.st` stand with the memory family.
-/
namespace Sys2Proof.Machine

/-! ### The scalar mould: each source once, in field order (R53, R375), and one result -/

/-- A result of one source, a pair where `pa`. -/
def sca1 (s : State) (pa : Bool) (a : Opnd) (f : Dword → Dword) : Except Raise Dword := (uniW s 1 pa a).map f

/-- A result of two sources, pairs where `pa` and `pb`. -/
def sca2 (s : State) (pa pb : Bool) (a b : Opnd) (f : Dword → Dword → Dword) : Except Raise Dword :=
  (uniW s 1 pa a).bind fun x => (uniW s 2 pb b).map (f x)

/-- A result of three sources; the first two are pairs where `pr`. -/
def sca3 (s : State) (pr : Bool) (a b c : Opnd) (f : Dword → Dword → Dword → Dword) : Except Raise Dword :=
  (uniW s 1 pr a).bind fun x => (uniW s 2 pr b).bind fun y => (uniW s 3 false c).map (f x y)

/-- The instruction writes its result to its scalar destination. -/
def scaIssue (i : Instr) (d : Opnd) (pr : Bool) (r : Except Raise Dword) (s : State) : Out :=
  issue i (r.map fun x => Effect.write s (scaWrites d pr x)) s

/-- The instruction writes its result and raises its flags once (R234). -/
def scaFp (i : Instr) (d : Opnd) (pr : Bool) (r : Except Raise (Dword × FpFlags)) (s : State) : Out :=
  issue i (r.map fun x => { Effect.write s (scaWrites d pr x.1) with sfp := x.2 }) s

def imm64 (imm : Word) : Dword := imm.setWidth 64

/-- A literal of an I form as an addend, shift count or factor. -/
def scaImm (s : State) (a : Opnd) (imm : Word) (f : Dword → Dword → Dword) : Except Raise Dword :=
  sca1 s false a fun x => f x (imm64 imm)

/-! ### Issue and the integer instructions (R249) -/

/-- `nop` (R211). -/
def execNop (s : State) : Out := issue .nop (.ok (.of s)) s

/-- `s.add` (R249). -/
def execSAdd (pr : Bool) (d a b : Opnd) (s : State) : Out :=
  scaIssue (.sAdd pr d a b) d pr (sca2 s pr pr a b (aluAdd (prTy pr) false)) s
/-- `s.add` with a literal (R249). -/
def execSAddI (d a : Opnd) (imm : Word) (s : State) : Out :=
  scaIssue (.sAddI d a imm) d false (scaImm s a imm (aluAdd .b32 false)) s
/-- `s.sub` (R249). -/
def execSSub (pr : Bool) (d a b : Opnd) (s : State) : Out :=
  scaIssue (.sSub pr d a b) d pr (sca2 s pr pr a b (aluSub (prTy pr) false)) s
/-- `s.sub` with a literal (R249). -/
def execSSubI (d a : Opnd) (imm : Word) (s : State) : Out :=
  scaIssue (.sSubI d a imm) d false (scaImm s a imm (aluSub .b32 false)) s
/-- `s.mul` (R249). -/
def execSMul (pr : Bool) (d a b : Opnd) (s : State) : Out :=
  scaIssue (.sMul pr d a b) d pr (sca2 s pr pr a b (aluMul (prTy pr))) s
/-- `s.mul` with a literal (R249). -/
def execSMulI (d a : Opnd) (imm : Word) (s : State) : Out :=
  scaIssue (.sMulI d a imm) d false (scaImm s a imm (aluMul .b32)) s
/-- `s.mulh` (R249). -/
def execSMulh (ty : Ty) (d a b : Opnd) (s : State) : Out :=
  scaIssue (.sMulh ty d a b) d false (sca2 s false false a b (aluMulh ty)) s
/-- `s.mulh` with a literal (R249). -/
def execSMulhI (ts : Tsel) (d a : Opnd) (imm : Word) (s : State) : Out :=
  scaIssue (.sMulhI ts d a imm) d false (scaImm s a imm (aluMulh (tselTy ts))) s
/-- `s.mad` (R249). -/
def execSMad (d a b c : Opnd) (s : State) : Out :=
  scaIssue (.sMad d a b c) d false (sca3 s false a b c (aluMad .b32)) s
/-- `s.and` (R249). -/
def execSAnd (pr : Bool) (d a b : Opnd) (s : State) : Out :=
  scaIssue (.sAnd pr d a b) d pr (sca2 s pr pr a b aluAnd) s
/-- `s.and` with a literal (R249). -/
def execSAndI (d a : Opnd) (imm : Word) (s : State) : Out :=
  scaIssue (.sAndI d a imm) d false (scaImm s a imm aluAnd) s
/-- `s.or` (R249). -/
def execSOr (pr : Bool) (d a b : Opnd) (s : State) : Out :=
  scaIssue (.sOr pr d a b) d pr (sca2 s pr pr a b aluOr) s
/-- `s.or` with a literal (R249). -/
def execSOrI (d a : Opnd) (imm : Word) (s : State) : Out :=
  scaIssue (.sOrI d a imm) d false (scaImm s a imm aluOr) s
/-- `s.xor` (R249). -/
def execSXor (pr : Bool) (d a b : Opnd) (s : State) : Out :=
  scaIssue (.sXor pr d a b) d pr (sca2 s pr pr a b aluXor) s
/-- `s.xor` with a literal (R249). -/
def execSXorI (d a : Opnd) (imm : Word) (s : State) : Out :=
  scaIssue (.sXorI d a imm) d false (scaImm s a imm aluXor) s
/-- `s.not` (R249). -/
def execSNot (pr : Bool) (d a : Opnd) (s : State) : Out :=
  scaIssue (.sNot pr d a) d pr (sca1 s pr a (aluNot (prTy pr))) s
/-- `s.shl`: the count is a single register (R238). -/
def execSShl (pr : Bool) (d a b : Opnd) (s : State) : Out :=
  scaIssue (.sShl pr d a b) d pr (sca2 s pr false a b fun x n => aluShl (prTy pr) x n.toNat) s
/-- `s.shl` by a literal. -/
def execSShlI (d a : Opnd) (imm : Word) (s : State) : Out :=
  scaIssue (.sShlI d a imm) d false (scaImm s a imm fun x n => aluShl .b32 x n.toNat) s
/-- `s.shr` (R238). -/
def execSShr (pr : Bool) (d a b : Opnd) (s : State) : Out :=
  scaIssue (.sShr pr d a b) d pr (sca2 s pr false a b fun x n => aluShr (prTy pr) x n.toNat) s
/-- `s.shr` by a literal. -/
def execSShrI (d a : Opnd) (imm : Word) (s : State) : Out :=
  scaIssue (.sShrI d a imm) d false (scaImm s a imm fun x n => aluShr .b32 x n.toNat) s
/-- `s.sar` (R238). -/
def execSSar (pr : Bool) (d a b : Opnd) (s : State) : Out :=
  scaIssue (.sSar pr d a b) d pr (sca2 s pr false a b fun x n => aluSar (prTy pr) x n.toNat) s
/-- `s.sar` by a literal. -/
def execSSarI (d a : Opnd) (imm : Word) (s : State) : Out :=
  scaIssue (.sSarI d a imm) d false (scaImm s a imm fun x n => aluSar .b32 x n.toNat) s
/-- `s.min` (R249). -/
def execSMin (ty : Ty) (d a b : Opnd) (s : State) : Out :=
  scaIssue (.sMin ty d a b) d (ty.regs == 2) (sca2 s (ty.regs == 2) (ty.regs == 2) a b (aluMin ty)) s
/-- `s.min` with a literal (R249). -/
def execSMinI (ts : Tsel) (d a : Opnd) (imm : Word) (s : State) : Out :=
  scaIssue (.sMinI ts d a imm) d false (scaImm s a imm (aluMin (tselTy ts))) s
/-- `s.max` (R249). -/
def execSMax (ty : Ty) (d a b : Opnd) (s : State) : Out :=
  scaIssue (.sMax ty d a b) d (ty.regs == 2) (sca2 s (ty.regs == 2) (ty.regs == 2) a b (aluMax ty)) s
/-- `s.max` with a literal (R249). -/
def execSMaxI (ts : Tsel) (d a : Opnd) (imm : Word) (s : State) : Out :=
  scaIssue (.sMaxI ts d a imm) d false (scaImm s a imm (aluMax (tselTy ts))) s

/-- 1 or 0. -/
def truth (b : Bool) : Dword := if b then 1 else 0

/-- `s.cmp` (R243, R249): 1 or 0, with the flags of a comparison of f32. -/
def execSCmp (ty : Ty) (cc : Cond) (d a b : Opnd) (s : State) : Out :=
  let pr := ty.regs == 2
  let r := (uniW s 1 pr a).bind fun x => (uniW s 2 pr b).map fun y =>
    let r := cmpElems (ftz s.g) ty cc x y
    (truth r.1, r.2.2)
  scaFp (.sCmp ty cc d a b) d false r s
/-- `s.sel` (R249). -/
def execSSel (pr : Bool) (d a b c : Opnd) (s : State) : Out :=
  scaIssue (.sSel pr d a b c) d pr (sca3 s pr a b c fun x y z => if z ≠ 0 then x else y) s
/-- `s.mov` (R249). -/
def execSMov (pr : Bool) (d a : Opnd) (s : State) : Out :=
  scaIssue (.sMov pr d a) d pr (sca1 s pr a id) s
/-- `s.movi` (R250). -/
def execSMovi (ts : Tsel) (d : Opnd) (imm : Word) (s : State) : Out :=
  scaIssue (.sMovi ts d imm) d false (.ok (imm64 imm)) s
/-- `s.bfe` (R239). -/
def execSBfe (ty : Ty) (d a b : Opnd) (s : State) : Out :=
  scaIssue (.sBfe ty d a b) d false (sca2 s false false a b (aluBfe ty)) s
/-- `s.bfi` (R239). -/
def execSBfi (d a b c : Opnd) (s : State) : Out :=
  scaIssue (.sBfi d a b c) d false (sca3 s false a b c aluBfi) s
/-- `s.popc` (R237). -/
def execSPopc (d a : Opnd) (s : State) : Out := scaIssue (.sPopc d a) d false (sca1 s false a aluPopc) s
/-- `s.clz` (R237). -/
def execSClz (d a : Opnd) (s : State) : Out := scaIssue (.sClz d a) d false (sca1 s false a aluClz) s
/-- `s.addc` (R240). -/
def execSAddc (co : Bool) (d a b c : Opnd) (s : State) : Out :=
  scaIssue (.sAddc co d a b c) d false (sca3 s false a b c (aluAddc co)) s
/-- `s.addc` with a literal; C reads as 0 (R236, R240). -/
def execSAddcI (d a : Opnd) (imm : Word) (s : State) : Out :=
  scaIssue (.sAddcI d a imm) d false (scaImm s a imm fun x y => aluAddc false x y 0) s

/-- `s.getl` (R250): a lane of a vector register, active or not. -/
def execSGetl (d a b : Opnd) (s : State) : Out :=
  scaIssue (.sGetl d a b) d false
    ((uni s 2 b).map fun l => (crossLane s a (l.toNat % 32)).setWidth 64) s

/-! ### Floating point (R249, R253) -/

/-- A scalar floating-point result of two sources. -/
def scaFp2 (s : State) (a b : Opnd) (f : FpFmt → Fv → Fv → Nat × FpFlags) : Except Raise (Dword × FpFlags) :=
  (uni s 1 a).bind fun x => (uni s 2 b).map fun y =>
    let r := fp2 (ftz s.g) .f32 f x y
    (r.1.setWidth 64, r.2)

/-- A scalar floating-point result of a source and a literal. -/
def scaFpI (s : State) (a : Opnd) (imm : Word) (f : FpFmt → Fv → Fv → Nat × FpFlags) :
    Except Raise (Dword × FpFlags) :=
  (uni s 1 a).map fun x =>
    let r := fp2 (ftz s.g) .f32 f x imm
    (r.1.setWidth 64, r.2)

/-- The mode of an I form: rn, or dyn where M is 1 (R212). -/
def immMode (g : Group) (dyn : Bool) : Mode := if dyn then dynMode g else .rn

/-- `s.fadd` (R253). -/
def execSFadd (m : Rnd) (d a b : Opnd) (s : State) : Out :=
  scaFp (.sFadd m d a b) d false (scaFp2 s a b fun F => F.fadd (modeOf s.g m)) s
/-- `s.fadd` with a literal (R253). -/
def execSFaddI (dyn : Bool) (d a : Opnd) (imm : Word) (s : State) : Out :=
  scaFp (.sFaddI dyn d a imm) d false (scaFpI s a imm fun F => F.fadd (immMode s.g dyn)) s
/-- `s.fmul` (R253). -/
def execSFmul (m : Rnd) (d a b : Opnd) (s : State) : Out :=
  scaFp (.sFmul m d a b) d false (scaFp2 s a b fun F => F.fmul (modeOf s.g m)) s
/-- `s.fmul` with a literal (R253). -/
def execSFmulI (dyn : Bool) (d a : Opnd) (imm : Word) (s : State) : Out :=
  scaFp (.sFmulI dyn d a imm) d false (scaFpI s a imm fun F => F.fmul (immMode s.g dyn)) s
/-- `s.fma` (R253). -/
def execSFma (m : Rnd) (d a b c : Opnd) (s : State) : Out :=
  let r := (uni s 1 a).bind fun x => (uni s 2 b).bind fun y => (uni s 3 c).map fun z =>
    let r := fp3 (ftz s.g) .f32 (fun F => F.fma (modeOf s.g m)) x y z
    (r.1.setWidth 64, r.2)
  scaFp (.sFma m d a b c) d false r s
/-- `s.cvt` (R258). -/
def execSCvt (ty : Ty) (m : Rnd) (cv : CvtCode) (d a : Opnd) (s : State) : Out :=
  let r := (uniW s 1 (cvtSrcRegs ty cv == 2) a).map fun x => cvtLane (ftz s.g) ty (modeOf s.g m) cv x none
  scaFp (.sCvt ty m cv d a) d (cvtDstRegs ty cv == 2) r s

end Sys2Proof.Machine
end

