-- ==== Sys2Proof/Machine/Vector.lean ====
section
/-!
DEFINITION. Machine/Vector.lean: the vector integer instructions, comparison, selection, moves and bit planes (R237 to
R248, R260, R261).
-/
namespace Sys2Proof.Machine

/-! ### The vector mould (R231 to R235) -/

/-- The instruction writes lanes computed from one source. -/
def vec1 (i : Instr) (ty : Ty) (d a : Opnd) (f : Dword → Dword) (s : State) : Out :=
  let pr := ty.regs == 2
  issue i (.ok (.write s (vecWrites s d pr none (allUniform s pr [a]) fun l => f (srcTy s ty a l)))) s

/-- Types on which the affine rows of R52 act. -/
def affineTy (ty : Ty) : Bool := ty == .b32 || ty == .s32 || ty == .n32

/-- The instruction writes lanes computed from two sources; `aff` is its affine row. -/
def vec2 (i : Instr) (ty : Ty) (aff : Tag → Tag → Option Tag) (d a b : Opnd) (f : Dword → Dword → Dword) (s : State) :
    Out :=
  let pr := ty.regs == 2
  let t := if affineTy ty then aff (srcTag s a) (srcTag s b) else none
  issue i (.ok (.write s (vecWrites s d pr t (allUniform s pr [a, b]) fun l => f (srcTy s ty a l) (srcTy s ty b l)))) s

/-- The instruction of an I form. -/
def vecI (i : Instr) (aff : Tag → Tag → Option Tag) (d a : Opnd) (imm : Word) (f : Dword → Dword → Dword) (s : State) :
    Out :=
  let t := aff (srcTag s a) (.uniform imm)
  issue i (.ok (.write s (vecWrites s d false t (allUniform s false [a]) fun l =>
    f ((srcLane s a l).setWidth 64) (imm64 imm)))) s

/-- The instruction writes lanes computed from three single registers. -/
def vec3 (i : Instr) (d a b c : Opnd) (f : Dword → Dword → Dword → Dword) (s : State) : Out :=
  issue i (.ok (.write s (vecWrites s d false none (allUniform s false [a, b, c]) fun l =>
    f ((srcLane s a l).setWidth 64) ((srcLane s b l).setWidth 64) ((srcLane s c l).setWidth 64)))) s

/-- A shift: the count is a single register (R238). -/
def vecShift (i : Instr) (ty : Ty) (aff : Tag → Tag → Option Tag) (d a b : Opnd) (f : Dword → Nat → Dword) (s : State) :
    Out :=
  let pr := ty.regs == 2
  let t := if affineTy ty then aff (srcTag s a) (srcTag s b) else none
  let all := allUniform s pr [a] && allUniform s false [b]
  issue i (.ok (.write s (vecWrites s d pr t all fun l => f (srcTy s ty a l) (srcLane s b l).toNat))) s

def noAffine (_ _ : Tag) : Option Tag := none

/-! ### Integer arithmetic (R237 to R242) -/

/-- `add` (R237). -/
def execAdd (ty : Ty) (sat : Bool) (d a b : Opnd) (s : State) : Out :=
  vec2 (.add ty sat d a b) ty (affineAdd false) d a b (aluAdd ty sat) s
/-- `add` with a literal. -/
def execAddI (ts : Tsel) (d a : Opnd) (imm : Word) (s : State) : Out :=
  vecI (.addI ts d a imm) (affineAdd false) d a imm (aluAdd (tselTy ts) false) s
/-- `sub` (R237). -/
def execSub (ty : Ty) (sat : Bool) (d a b : Opnd) (s : State) : Out :=
  vec2 (.sub ty sat d a b) ty (affineAdd true) d a b (aluSub ty sat) s
/-- `sub` with a literal. -/
def execSubI (ts : Tsel) (d a : Opnd) (imm : Word) (s : State) : Out :=
  vecI (.subI ts d a imm) (affineAdd true) d a imm (aluSub (tselTy ts) false) s
/-- `mul` (R237). -/
def execMul (ty : Ty) (d a b : Opnd) (s : State) : Out :=
  vec2 (.mul ty d a b) ty affineMul d a b (aluMul ty) s
/-- `mul` with a literal. -/
def execMulI (ts : Tsel) (d a : Opnd) (imm : Word) (s : State) : Out :=
  vecI (.mulI ts d a imm) affineMul d a imm (aluMul (tselTy ts)) s
/-- `mulh` (R237). -/
def execMulh (ty : Ty) (d a b : Opnd) (s : State) : Out := vec2 (.mulh ty d a b) ty noAffine d a b (aluMulh ty) s
/-- `mulh` with a literal. -/
def execMulhI (ts : Tsel) (d a : Opnd) (imm : Word) (s : State) : Out :=
  vecI (.mulhI ts d a imm) noAffine d a imm (aluMulh (tselTy ts)) s
/-- `mad` (R237). -/
def execMad (ty : Ty) (d a b c : Opnd) (s : State) : Out := vec3 (.mad ty d a b c) d a b c (aluMad ty) s
/-- `and` (R237). -/
def execAnd (ty : Ty) (d a b : Opnd) (s : State) : Out := vec2 (.and ty d a b) ty noAffine d a b aluAnd s
/-- `and` with a literal. -/
def execAndI (ts : Tsel) (d a : Opnd) (imm : Word) (s : State) : Out := vecI (.andI ts d a imm) noAffine d a imm aluAnd s
/-- `or` (R237). -/
def execOr (ty : Ty) (d a b : Opnd) (s : State) : Out := vec2 (.or ty d a b) ty noAffine d a b aluOr s
/-- `or` with a literal. -/
def execOrI (ts : Tsel) (d a : Opnd) (imm : Word) (s : State) : Out := vecI (.orI ts d a imm) noAffine d a imm aluOr s
/-- `xor` (R237). -/
def execXor (ty : Ty) (d a b : Opnd) (s : State) : Out := vec2 (.xor ty d a b) ty noAffine d a b aluXor s
/-- `xor` with a literal. -/
def execXorI (ts : Tsel) (d a : Opnd) (imm : Word) (s : State) : Out := vecI (.xorI ts d a imm) noAffine d a imm aluXor s
/-- `not` (R237). -/
def execNot (ty : Ty) (d a : Opnd) (s : State) : Out := vec1 (.not ty d a) ty d a (aluNot ty) s
/-- `shl` (R238). -/
def execShl (ty : Ty) (d a b : Opnd) (s : State) : Out := vecShift (.shl ty d a b) ty affineShl d a b (aluShl ty) s
/-- `shl` by a literal. -/
def execShlI (ts : Tsel) (d a : Opnd) (imm : Word) (s : State) : Out :=
  vecI (.shlI ts d a imm) affineShl d a imm (fun x n => aluShl (tselTy ts) x n.toNat) s
/-- `shr` (R238). -/
def execShr (ty : Ty) (d a b : Opnd) (s : State) : Out := vecShift (.shr ty d a b) ty noAffine d a b (aluShr ty) s
/-- `shr` by a literal. -/
def execShrI (ts : Tsel) (d a : Opnd) (imm : Word) (s : State) : Out :=
  vecI (.shrI ts d a imm) noAffine d a imm (fun x n => aluShr (tselTy ts) x n.toNat) s
/-- `sar` (R238). -/
def execSar (ty : Ty) (d a b : Opnd) (s : State) : Out := vecShift (.sar ty d a b) ty noAffine d a b (aluSar ty) s
/-- `sar` by a literal. -/
def execSarI (ts : Tsel) (d a : Opnd) (imm : Word) (s : State) : Out :=
  vecI (.sarI ts d a imm) noAffine d a imm (fun x n => aluSar (tselTy ts) x n.toNat) s
/-- `min` (R237). -/
def execMin (ty : Ty) (d a b : Opnd) (s : State) : Out := vec2 (.min ty d a b) ty noAffine d a b (aluMin ty) s
/-- `min` with a literal. -/
def execMinI (ts : Tsel) (d a : Opnd) (imm : Word) (s : State) : Out :=
  vecI (.minI ts d a imm) noAffine d a imm (aluMin (tselTy ts)) s
/-- `max` (R237). -/
def execMax (ty : Ty) (d a b : Opnd) (s : State) : Out := vec2 (.max ty d a b) ty noAffine d a b (aluMax ty) s
/-- `max` with a literal. -/
def execMaxI (ts : Tsel) (d a : Opnd) (imm : Word) (s : State) : Out :=
  vecI (.maxI ts d a imm) noAffine d a imm (aluMax (tselTy ts)) s
/-- `abs` (R237). -/
def execAbs (ty : Ty) (d a : Opnd) (s : State) : Out := vec1 (.abs ty d a) ty d a (aluAbs ty) s
/-- `bfe` (R239). -/
def execBfe (ty : Ty) (d a b : Opnd) (s : State) : Out := vec2 (.bfe ty d a b) ty noAffine d a b (aluBfe ty) s
/-- `bfi` (R239). -/
def execBfi (d a b c : Opnd) (s : State) : Out := vec3 (.bfi d a b c) d a b c aluBfi s
/-- `popc` (R237). -/
def execPopc (d a : Opnd) (s : State) : Out := vec1 (.popc d a) .b32 d a aluPopc s
/-- `clz` (R237). -/
def execClz (d a : Opnd) (s : State) : Out := vec1 (.clz d a) .b32 d a aluClz s
/-- `addc` (R240). -/
def execAddc (ty : Ty) (co : Bool) (d a b c : Opnd) (s : State) : Out :=
  vec3 (.addc ty co d a b c) d a b c (aluAddc co) s
/-- `addc` with a literal; C reads as 0 (R236, R240). -/
def execAddcI (ts : Tsel) (d a : Opnd) (imm : Word) (s : State) : Out :=
  vecI (.addcI ts d a imm) noAffine d a imm (fun x y => aluAddc false x y 0) s
/-- `lsel` (R241). -/
def execLsel (hi lo : BitVec 4) (d a b c : Opnd) (s : State) : Out :=
  vec3 (.lsel hi lo d a b c) d a b c (aluLsel hi lo) s
/-- `prmt` (R242). -/
def execPrmt (d a b c : Opnd) (s : State) : Out := vec3 (.prmt d a b c) d a b c aluPrmt s

/-! ### Comparison, selection and moves (R243 to R248) -/

/-- `cmp` (R243): per lane into a vector register, or a mask of the active lanes into a scalar register. -/
def execCmp (ty : Ty) (cc : Cond) (d a b : Opnd) (s : State) : Out :=
  let pr := ty.regs == 2
  let m := execMask s
  let r := lanes32.map fun l => cmpElems (ftz s.g) ty cc (srcTy s ty a l) (srcTy s ty b l)
  let at_ (l : Nat) : Bool × Bool × FpFlags := r.getD l (false, false, 0)
  let fp := lanes32.map fun l => if laneOn m l then (at_ l).2.2 else 0
  let ws : List RegWrite :=
    match d with
    | .s n => if m = 0 then [] else [.sca n (maskOf fun l => laneOn m l && (at_ l).1)]
    | d => vecWrites s d false none (allUniform s pr [a, b]) fun l =>
        if ty.packed then w64 ((at_ l).1.toNat + 65536 * (at_ l).2.1.toNat) else truth (at_ l).1
  issue (.cmp ty cc d a b) (.ok { Effect.write s ws with fp := fp }) s

/-- `sel` (R244): a vector selector chooses by its lane's value, a scalar one by its bit, with tag 0 (R235). -/
def execSel (ty : Ty) (d a b c : Opnd) (s : State) : Out :=
  let pr := ty.regs == 2
  let byLane : Bool := match c with
    | .v _ => true
    | _ => false
  let pick (l : Nat) : Bool := if byLane then srcLane s c l != 0 else laneOn (srcLane s c l) l
  let all := byLane && allUniform s pr [a, b] && allUniform s false [c]
  issue (.sel ty d a b c)
    (.ok (.write s (vecWrites s d pr none all fun l => if pick l then srcTy s ty a l else srcTy s ty b l))) s

/-- The tag that `mov` passes on (R245). -/
def movTag (s : State) (t : Tag) (_ : Word) : Tag :=
  if execMask s ≠ s.g.present then .general
  else match t with
    | .uniform u => uniTag u
    | .affine b d => .affine b d
    | .zero => .zero
    | .general => .general

/-- `mov` (R245): the value and the tag that the source reads as, for each half of a pair, so that a half which is affine
stays so in a 64-bit move too (R52; notes/assumptions/94.md). -/
def execMov (ty : Ty) (d a : Opnd) (s : State) : Out :=
  let lo := vecWrite s (regNo d) (movTag s (srcTag s a)) fun l => srcLane s a l
  let hiTag : Tag := match a with
    | .v n => readTag s (n + 1)
    | .s n => .uniform (readS s (n + 1))
    | .tid => .general
    | _ => .zero
  let hi := vecWrite s (regNo d + 1) (movTag s hiTag) fun l => (srcPair s a l >>> 32).setWidth 32
  issue (.mov ty d a) (.ok (.write s (if ty.regs = 2 then [lo, hi] else [lo]))) s

/-- `mov` of a literal (R245). -/
def execMovI (ts : Tsel) (d : Opnd) (imm : Word) (s : State) : Out :=
  issue (.movI ts d imm) (.ok (.write s [vecWrite s (regNo d) (movTag s (.uniform imm)) fun _ => imm])) s

/-- A register named at run time is even where it must be (R246). -/
def evenIf (pr : Bool) (n : Nat) : Bool := !pr || n % 2 == 0

/-- The writes of `movx` (R246), or the cause it raises. R246 asks an even B of a vector target only: for a scalar target B
and the next register are read as they stand, though the next one lie past the budget (notes/assumptions/108.md). -/
def movxWrites (s : State) (name : Word) (b : Opnd) : Except Raise (List RegWrite) :=
  let pr := name.getLsbD 10
  let top (n : Nat) : Nat := n + pr.toNat
  let bEven : Bool := match b with
    | .v n | .s n => evenIf pr n
    | _ => !pr
  match Opnd.ofCode (name.toNat % 1024) with
  | .v n =>
      if top n < (roleOf s).vregs ∧ evenIf pr n ∧ bEven then .ok (vecGeneral s (.v n) pr fun l => srcPair s b l)
      else .error (.plain 0x201 0)
  | .s n =>
      if top n < (roleOf s).sregs ∧ evenIf pr n then (uniW s 2 pr b).map (scaWrites (.s n) pr)
      else .error (.plain 0x201 0)
  | _ => .error (.plain 0x201 0)

/-- `movx` (R246); with no active lane it has no effect and raises nothing (R232, R375). -/
def execMovx (a b : Opnd) (s : State) : Out :=
  let r : Except Raise Effect :=
    if execMask s = 0 then .ok (.of s)
    else (uni s 1 a).bind fun name => (movxWrites s name b).map (Effect.write s)
  issue (.movx a b) r s

/-- `putl` (R247): one lane, with tag 0, where it is active. -/
def execPutl (d a b : Opnd) (s : State) : Out :=
  let r : Except Raise Effect :=
    if execMask s = 0 then .ok (.of s)
    else (uni s 1 a).bind fun x => (uni s 2 b).map fun l =>
      let k := l.toNat % 32
      Effect.write s
        (if laneOn (execMask s) k then [.vec (regNo d) (w32 (2 ^ k)) (List.replicate 32 x) .general] else [])
  issue (.putl d a b) r s

/-- The number of a tag (R51). -/
def Tag.code : Tag → Nat
  | .general => 0
  | .uniform _ => 1
  | .affine _ _ => 2
  | .zero => 3

/-- `shape` (R248). -/
def execShape (d a : Opnd) (s : State) : Out :=
  scaIssue (.shape d a) d false (.ok (w64 (srcTag s a).code)) s

/-! ### Bit planes (R260, R261) -/

/-- `bpack` (R260). -/
def execBpack (d a : Opnd) (s : State) : Out :=
  let m := execMask s
  let word (k : Nat) : Word := maskOf fun j => laneOn m j && (srcLane s a j).getLsbD (7 - k)
  issue (.bpack d a) (.ok (.write s (vecGeneral s d false fun l => if l < 8 then (word l).setWidth 64 else 0))) s

/-- `bunpack` (R261); plane count code 0 means 8. -/
def execBunpack (n : Nat) (d a : Opnd) (s : State) : Out :=
  let p := if n = 0 then 8 else n
  let plane (k : Nat) : Word := crossLane s a k
  let val (l : Nat) : Nat :=
    (List.range p).foldl (fun u k => 2 * u + ((plane k).getLsbD l).toNat) 0
  let out (l : Nat) : Dword := intWrap .s32 (if (plane 0).getLsbD l then (val l : Int) - 2 ^ p else val l)
  issue (.bunpack n d a) (.ok (.write s (vecGeneral s d false out))) s

end Sys2Proof.Machine
end

