-- ==== Sys2Proof/Machine/Float.lean ====
section
/-!
DEFINITION. Machine/Float.lean: the vector floating-point instructions and conversions (R252 to R259).
-/
namespace Sys2Proof.Machine

/-- Lanes and flags written by an instruction that computes both per active lane. -/
def vecFlagged (i : Instr) (d : Opnd) (pr all : Bool) (f : Nat → Dword × FpFlags) (s : State) : Out :=
  let m := execMask s
  let r := lanes32.map fun l => if laneOn m l then f l else (0, 0)
  issue i (.ok { Effect.write s (vecWrites s d pr none all fun l => (r.getD l (0, 0)).1) with fp := r.map (·.2) }) s

/-- A result and its flags as a 64-bit value. -/
def wide (r : Word × FpFlags) : Dword × FpFlags := (r.1.setWidth 64, r.2)

/-- An element-wise instruction of two sources. -/
def vecFp2 (i : Instr) (ty : Ty) (d a b : Opnd) (f : FpFmt → Fv → Fv → Nat × FpFlags) (s : State) : Out :=
  vecFlagged i d false (allUniform s false [a, b])
    (fun l => wide (fp2 (ftz s.g) ty f (srcLane s a l) (srcLane s b l))) s

/-- Its I form, of f32. -/
def vecFpI (i : Instr) (d a : Opnd) (imm : Word) (f : FpFmt → Fv → Fv → Nat × FpFlags) (s : State) : Out :=
  vecFlagged i d false (allUniform s false [a]) (fun l => wide (fp2 (ftz s.g) .f32 f (srcLane s a l) imm)) s

/-- An element-wise instruction of one source. -/
def vecFp1 (i : Instr) (ty : Ty) (d a : Opnd) (f : FpFmt → Fv → Nat × FpFlags) (s : State) : Out :=
  vecFlagged i d false (allUniform s false [a]) (fun l => wide (fp1 (ftz s.g) ty f (srcLane s a l))) s

/-- An instruction of one f32 source that ignores FTZ (R84). -/
def vecRaw (i : Instr) (d a : Opnd) (f : Word → Word × FpFlags) (s : State) : Out :=
  vecFlagged i d false (allUniform s false [a]) (fun l => wide (f (srcLane s a l))) s

/-- `fadd` (R253). -/
def execFadd (ty : Ty) (m : Rnd) (d a b : Opnd) (s : State) : Out :=
  vecFp2 (.fadd ty m d a b) ty d a b (fun F => F.fadd (modeOf s.g m)) s
/-- `fadd` with a literal. -/
def execFaddI (dyn : Bool) (d a : Opnd) (imm : Word) (s : State) : Out :=
  vecFpI (.faddI dyn d a imm) d a imm (fun F => F.fadd (immMode s.g dyn)) s
/-- `fsub` (R253). -/
def execFsub (ty : Ty) (m : Rnd) (d a b : Opnd) (s : State) : Out :=
  vecFp2 (.fsub ty m d a b) ty d a b (fun F => F.fsub (modeOf s.g m)) s
/-- `fsub` with a literal. -/
def execFsubI (dyn : Bool) (d a : Opnd) (imm : Word) (s : State) : Out :=
  vecFpI (.fsubI dyn d a imm) d a imm (fun F => F.fsub (immMode s.g dyn)) s
/-- `fmul` (R253). -/
def execFmul (ty : Ty) (m : Rnd) (d a b : Opnd) (s : State) : Out :=
  vecFp2 (.fmul ty m d a b) ty d a b (fun F => F.fmul (modeOf s.g m)) s
/-- `fmul` with a literal. -/
def execFmulI (dyn : Bool) (d a : Opnd) (imm : Word) (s : State) : Out :=
  vecFpI (.fmulI dyn d a imm) d a imm (fun F => F.fmul (immMode s.g dyn)) s
/-- `fma` (R253). -/
def execFma (ty : Ty) (m : Rnd) (d a b c : Opnd) (s : State) : Out :=
  vecFlagged (.fma ty m d a b c) d false (allUniform s false [a, b, c])
    (fun l => wide (fp3 (ftz s.g) ty (fun F => F.fma (modeOf s.g m)) (srcLane s a l) (srcLane s b l) (srcLane s c l))) s
/-- `fmin` (R254). -/
def execFmin (ty : Ty) (d a b : Opnd) (s : State) : Out :=
  vecFp2 (.fmin ty d a b) ty d a b (fun F => F.fminmax false) s
/-- `fmin` with a literal. -/
def execFminI (dyn : Bool) (d a : Opnd) (imm : Word) (s : State) : Out :=
  vecFpI (.fminI dyn d a imm) d a imm (fun F => F.fminmax false) s
/-- `fmax` (R254). -/
def execFmax (ty : Ty) (d a b : Opnd) (s : State) : Out :=
  vecFp2 (.fmax ty d a b) ty d a b (fun F => F.fminmax true) s
/-- `fmax` with a literal. -/
def execFmaxI (dyn : Bool) (d a : Opnd) (imm : Word) (s : State) : Out :=
  vecFpI (.fmaxI dyn d a imm) d a imm (fun F => F.fminmax true) s
/-- `fcmp` (R255). -/
def execFcmp (ty : Ty) (cc : Cond) (d a b : Opnd) (s : State) : Out :=
  vecFlagged (.fcmp ty cc d a b) d false (allUniform s false [a, b])
    (fun l => wide (fpCompare (ftz s.g) ty cc (srcLane s a l) (srcLane s b l))) s
/-- A seed's result (R91). -/
def seedOf (f : Fv → Nat × FpFlags) (x : Word) : Word × FpFlags :=
  let r := f (fp32.value x.toNat)
  (w32 r.1, r.2)
/-- `frcp.seed` (R91). -/
def execFrcpSeed (d a : Opnd) (s : State) : Out := vecRaw (.frcpSeed d a) d a (seedOf frcpOf) s
/-- `frsq.seed` (R91). -/
def execFrsqSeed (d a : Opnd) (s : State) : Out := vecRaw (.frsqSeed d a) d a (seedOf frsqOf) s
/-- `fsqrt` (R257). -/
def execFsqrt (m : Rnd) (d a : Opnd) (s : State) : Out :=
  vecFp1 (.fsqrt m d a) .f32 d a (fun _ => fsqrtOf (modeOf s.g m)) s

/-- A special function's result, its source and result flushed under FTZ (R84, R92). -/
def specialOf (flush : Bool) (f : Word → Fv → Nat × FpFlags) (x : Word) : Word × FpFlags :=
  let r := flushRes flush (f x (flushSrc flush (fp32.value x.toNat)))
  (w32 r.1, r.2)
/-- `fexp2` (R92). -/
def execFexp2 (d a : Opnd) (s : State) : Out := vecRaw (.fexp2 d a) d a (specialOf (ftz s.g) fexp2Of) s
/-- `flog2` (R92). -/
def execFlog2 (d a : Opnd) (s : State) : Out := vecRaw (.flog2 d a) d a (specialOf (ftz s.g) flog2Of) s
/-- `fsin` (R92). -/
def execFsin (d a : Opnd) (s : State) : Out := vecRaw (.fsin d a) d a (specialOf (ftz s.g) (ftrigOf 2 false)) s
/-- `fcos` (R92). -/
def execFcos (d a : Opnd) (s : State) : Out := vecRaw (.fcos d a) d a (specialOf (ftz s.g) (ftrigOf 3 true)) s
/-- `frnd` (R257). -/
def execFrnd (ty : Ty) (m : Rnd) (d a : Opnd) (s : State) : Out :=
  vecFp1 (.frnd ty m d a) ty d a (fun F => F.frnd (modeOf s.g m)) s
/-- `fclass` (R257). -/
def execFclass (d a : Opnd) (s : State) : Out := vecRaw (.fclass d a) d a (fun x => (fclassOf x, 0)) s
/-- `fscale` (R93). -/
def execFscale (m : Rnd) (d a b : Opnd) (s : State) : Out :=
  vecFlagged (.fscale m d a b) d false (allUniform s false [a, b])
    (fun l => wide (fp1 (ftz s.g) .f32 (fun _ x => fscaleOf (modeOf s.g m) x (sx (srcLane s b l))) (srcLane s a l))) s
/-- `fexpo` (R93). -/
def execFexpo (d a : Opnd) (s : State) : Out := vecRaw (.fexpo d a) d a (fun x => fexpoOf (fp32.value x.toNat)) s
/-- `fdot2` (R256). -/
def execFdot2 (m : Rnd) (f16 : Bool) (d a b c : Opnd) (s : State) : Out :=
  vecFlagged (.fdot2 m f16 d a b c) d false (allUniform s false [a, b, c])
    (fun l => wide (fdot2Of (ftz s.g) (modeOf s.g m) f16 (srcLane s a l) (srcLane s b l) (srcLane s c l))) s

/-- The source of a conversion in a lane (R258). -/
def cvtSrc (s : State) (ty : Ty) (cv : CvtCode) (o : Opnd) (l : Nat) : Dword :=
  if cvtSrcRegs ty cv = 2 then srcPair s o l else (srcLane s o l).setWidth 64

/-- `cvt` (R258, R259). -/
def execCvt (ty : Ty) (m : Rnd) (cv : CvtCode) (d a b : Opnd) (s : State) : Out :=
  let srcs := if b = .none then [a] else [a, b]
  vecFlagged (.cvt ty m cv d a b) d (cvtDstRegs ty cv == 2) (allUniform s (cvtSrcRegs ty cv == 2) srcs)
    (fun l => cvtLane (ftz s.g) ty (modeOf s.g m) cv (cvtSrc s ty cv a l)
      (if b = .none then none else some (cvtSrc s ty cv b l))) s

end Sys2Proof.Machine
end

