-- ==== Sys2Proof/Machine/Lanes.lean ====
section
/-!
DEFINITION. Machine/Lanes.lean: the cross-lane instructions (R262 to R269) with the reduction tree and the scan network
(R87 to R89).
-/
namespace Sys2Proof.Machine

/-- Width of a sub-group (R219). -/
def subWidth : SubW → Nat
  | .w32 => 32
  | .w2 => 2
  | .w4 => 4
  | .w8 => 8
  | .w16 => 16

/-- log2 of the width. -/
def subLog : SubW → Nat
  | .w32 => 5
  | .w2 => 1
  | .w4 => 2
  | .w8 => 3
  | .w16 => 4

/-- The lanes of lane `l`'s sub-group. -/
def subLanes (w l : Nat) : List Nat := (List.range w).map fun i => l / w * w + i

/-- The member set (R263) with the member mask where one is given, or the membership fault. -/
def members (s : State) (c : Opnd) : Except Raise (Option Word) :=
  if c = .none then .ok none
  else (uni s 3 c).bind fun m =>
    let out := execMask s &&& ~~~m
    if out ≠ 0 then .error { Raise.plain 0x202 0 with mask := out } else .ok (some m)

/-- STS.X where the member mask names an exited lane (R263). -/
def memberSts (s : State) : Option Word → Word
  | some m => if m &&& s.g.exited ≠ 0 then stsX else 0
  | none => 0

/-- Lanes that are active and members. -/
def memberLanes (s : State) : Option Word → Word
  | some m => execMask s &&& m
  | none => execMask s

/-- A cross-lane instruction: without an active lane it changes nothing but the given STS bits (R262). -/
def crossIssue (i : Instr) (c : Opnd) (idle : Word) (f : Option Word → Except Raise (List RegWrite × Word × List FpFlags))
    (s : State) : Out :=
  let r : Except Raise Effect :=
    if execMask s = 0 then .ok { Effect.of s with sts := idle }
    else (members s c).bind fun m => (f m).map fun r =>
      { Effect.write s r.1 with sts := memberSts s m ||| r.2.1, fp := r.2.2 }
  issue i r s

/-- The source lane of `shfl` (R265). -/
def shflSource (md : ShflMode) (w l n : Nat) : Nat :=
  let i := l % w
  let base := l - i
  match md with
  | .idx => base + n % w
  | .up => if n ≤ i then l - n else l
  | .down => if i + n < w then l + n else l
  | .xor => base + (i ^^^ (n % w))

/-- `shfl` (R265). Of `%lane` and `%tid` lane l gets the source lane's value, as the pseudocode has it
(notes/assumptions/109.md). -/
def execShfl (md : ShflMode) (w : SubW) (pr : Bool) (d a b c : Opnd) (s : State) : Out :=
  crossIssue (.shfl md w pr d a b c) c 0 (fun m =>
    let out (l : Nat) : Dword :=
      let src := shflSource md (subWidth w) l (srcLane s b l).toNat
      let missing := m.any fun k => !laneOn k src || laneOn s.g.exited src
      let k := if missing then l else src
      if pr then crossPair s a k else (crossLane s a k).setWidth 64
    .ok (vecGeneral s d pr out, 0, [])) s

/-- `vote` (R266). A member that has exited contributes false to `.any` and `.ballot`, and is not among the lanes that
`.all` asks (notes/assumptions/93.md). -/
def execVote (md : VoteMode) (w : SubW) (d a c : Opnd) (s : State) : Out :=
  crossIssue (.vote md w d a c) c 0 (fun m =>
    let on := memberLanes s m
    let hit := maskOf fun l => laneOn on l && srcLane s a l != 0
    let out (l : Nat) : Dword :=
      let ls := subLanes (subWidth w) l
      match md with
      | .any => truth (ls.any (laneOn hit))
      | .all => truth (ls.all fun k => !laneOn on k || laneOn hit k)
      | .ballot => (maskOf fun k => ls.contains k && laneOn hit k).setWidth 64
    .ok (vecWrites s d false none (w == .w32) out, 0, [])) s

/-- `match` (R267): one register, for n64 too. -/
def execMatchOp (w : SubW) (pr : Bool) (d a c : Opnd) (s : State) : Out :=
  crossIssue (.matchOp w pr d a c) c 0 (fun m =>
    let on := memberLanes s m
    let x (l : Nat) : Dword := if pr then srcPair s a l else (srcLane s a l).setWidth 64
    let xs := lanes32.map x
    let at_ (l : Nat) : Dword := xs.getD l 0
    let out (l : Nat) : Dword :=
      (maskOf fun k => k / subWidth w == l / subWidth w && laneOn on k && at_ k == at_ l).setWidth 64
    .ok (vecGeneral s d false out, 0, [])) s

/-- `cmpct` (R268). -/
def execCmpct (w : SubW) (d a b c : Opnd) (s : State) : Out :=
  let r : Except Raise Effect :=
    if execMask s = 0 then .ok (.of s)
    else (uni s 2 b).bind fun sel => (members s c).map fun m =>
      let on := memberLanes s m &&& sel
      let out (l : Nat) : Dword :=
        let ks := (subLanes (subWidth w) l).filter (laneOn on)
        match ks[l % subWidth w]? with
        | some k => (srcLane s a k).setWidth 64
        | none => 0
      { Effect.write s (vecGeneral s d false out) with sts := memberSts s m }
  issue (.cmpct w d a b c) r s

/-! ### Reductions and scans (R87 to R89, R269) -/

/-- The operation of a node. -/
def redNode (op : RedOp) (flush : Bool) (ty : Ty) (a b : Word) : Word × FpFlags :=
  let x : Dword := a.setWidth 64
  let y : Dword := b.setWidth 64
  match op with
  | .add => ((aluAdd ty false x y).setWidth 32, 0)
  | .and => (a &&& b, 0)
  | .or => (a ||| b, 0)
  | .xor => (a ^^^ b, 0)
  | .min => ((aluMin ty x y).setWidth 32, 0)
  | .max => ((aluMax ty x y).setWidth 32, 0)
  | .fadd => fp2 flush .f32 (fun F => F.fadd .rn) a b
  | .fmin => fp2 flush .f32 (fun F => F.fminmax false) a b
  | .fmax => fp2 flush .f32 (fun F => F.fminmax true) a b

/-- The identity of an operation (R87). -/
def redId (op : RedOp) (ty : Ty) : Word :=
  match op with
  | .add | .or | .xor => 0
  | .and => 0xffffffff
  | .min => if tySigned ty then 0x7fffffff else 0xffffffff
  | .max => if tySigned ty then 0x80000000 else 0
  | .fadd => 0x80000000
  | .fmin => 0x7f800000
  | .fmax => 0xff800000

/-- Flags added to the lanes lo to hi − 1 of a list. -/
def flagSpan (fp : List FpFlags) (lo hi : Nat) (f : FpFlags) : List FpFlags :=
  if f = 0 then fp else (List.range fp.length).map fun l =>
    let x := fp.getD l 0
    if lo ≤ l ∧ l < hi then x ||| f else x

/-- The node of level `d` whose first lane is `lo`: its value, and the flags of each lane so far (R87, R89). -/
def redTree (f : Word → Word → Word × FpFlags) (t0 : List Word) : Nat → Nat → List FpFlags → Word × List FpFlags
  | 0, lo, fp => (laneAt t0 lo, fp)
  | d + 1, lo, fp =>
      let l := redTree f t0 d lo fp
      let r := redTree f t0 d (lo + 2 ^ d) l.2
      let x := f l.1 r.1
      (x.1, flagSpan r.2 lo (lo + 2 ^ (d + 1)) x.2)

/-- The first lanes of the sub-groups. -/
def subFirsts (w : Nat) : List Nat := (List.range (32 / w)).map (· * w)

/-- Flags of the active lanes only (R89). -/
def onlyActive (s : State) (fp : List FpFlags) : List FpFlags :=
  lanes32.map fun l => if laneOn (execMask s) l then fp.getD l 0 else 0

/-- `red` (R269). -/
def execRed (op : RedOp) (w : SubW) (ty : Ty) (d a c : Opnd) (s : State) : Out :=
  crossIssue (.red op w ty d a c) c stsE (fun m =>
    let on := memberLanes s m
    let t0 := tabulate fun l => if laneOn on l then srcLane s a l else redId op ty
    let f := redNode op (ftz s.g) ty
    let r := (subFirsts (subWidth w)).foldl (fun (acc : List Word × List FpFlags) lo =>
      let x := redTree f t0 (subLog w) lo acc.2
      (acc.1 ++ [x.1], x.2)) ([], List.replicate 32 0)
    let out (l : Nat) : Dword := (r.1.getD (l / subWidth w) 0).setWidth 64
    let empty := (subFirsts (subWidth w)).any fun lo => (subLanes (subWidth w) lo).all fun l => !laneOn on l
    .ok (vecWrites s d false none (w == .w32) out, if empty then stsE else 0, onlyActive s r.2)) s

/-- One step of distance `d` of the scan network in sub-groups of `w` lanes (R88, R89). A lane that no step combines keeps
its value as it is: R74 would make a NaN there canonical and R84 would flush a subnormal, while R88 copies it
(notes/assumptions/72.md). -/
def scanStep (f : Word → Word → Word × FpFlags) (w d : Nat) (t : List Word × List FpFlags) : List Word × List FpFlags :=
  let r := lanes32.map fun l => if l % w ≥ d then f (laneAt t.1 (l - d)) (laneAt t.1 l) else (laneAt t.1 l, 0)
  let at_ (l : Nat) : Word × FpFlags := r.getD l (0, 0)
  (r.map (·.1), lanes32.foldl (fun fp l =>
    let first := max (l / w * w) (l + 1 - 2 * d)
    flagSpan fp first (l + 1) (at_ l).2) t.2)

/-- `scan` (R269); the first lane of a sub-group is copied, a NaN included (notes/assumptions/72.md). -/
def execScan (op : RedOp) (excl : Bool) (w : SubW) (ty : Ty) (d a c : Opnd) (s : State) : Out :=
  crossIssue (.scan op excl w ty d a c) c 0 (fun m =>
    let on := memberLanes s m
    let t0 := tabulate fun l => if laneOn on l then srcLane s a l else redId op ty
    let f := redNode op (ftz s.g) ty
    let r := (List.range (subLog w)).foldl (fun t k => scanStep f (subWidth w) (2 ^ k) t) (t0, List.replicate 32 0)
    let out (l : Nat) : Dword :=
      (if excl then (if l % subWidth w = 0 then redId op ty else laneAt r.1 (l - 1)) else laneAt r.1 l).setWidth 64
    .ok (vecGeneral s d false out, 0, onlyActive s r.2)) s

end Sys2Proof.Machine
end

