-- ==== Sys2Proof/Machine/Access.lean ====
section
/-!
DEFINITION. Machine/Access.lean: forming and checking the addresses of an access (R95, R102, R108, R381), reading and
writing its bytes (R105, R106, R126), and consuming poison (R394, R400).
-/
namespace Sys2Proof.Machine

/-! ### Addresses (R95) -/

def spaceCode : Space → Nat
  | .g => 0
  | .sh => 1
  | .sc => 2
  | .sp => 3
  | .enc => 4
  | .metaV => 5

/-- Spaces of 57-bit addresses. -/
def wideSpace : Space → Bool
  | .g | .enc | .metaV => true
  | _ => false

/-- Bytes of an access (R219). -/
def widthBytes : MWidth → Nat
  | .n8 | .s8 => 1
  | .n16 | .s16 => 2
  | .b32 => 4
  | .b64 => 8
  | .b128 => 16

/-- The base of an access; 0x3ff reads as 0. -/
def baseOf (s : State) (spc : Space) (base : Opnd) : Except Raise Dword :=
  if base = .none then .ok 0 else uniW s 2 (wideSpace spc) base

/-- The effective address from base, index and immediate (R95). -/
def effAddr (spc : Space) (base : Dword) (idx : Word) (imm : BitVec 16) : Nat :=
  if wideSpace spc then (base + idx.signExtend 64 + imm.signExtend 64).toNat
  else ((base.setWidth 32 : Word) + idx + imm.signExtend 32).toNat

/-! ### Checks of one access (R95, R102, R381) -/

/-- A check that an access fails: its place in the order of R95, its cause and DETAIL. -/
structure Chk where
  rank : Nat
  code : Nat
  detail : Nat
  deriving DecidableEq, Repr

/-- The member of the team's cluster that holds a window (R108). -/
def windowOwner (s : State) (m : Nat) : Option Team :=
  match s.team.cluster with
  | some (k, _) => (allTeams s).find? fun t =>
      decide (t.cluster = some (k, m)) && t.ref.vd == s.team.ref.vd && t.die == s.team.die
  | none => none

/-- Translation of one access that needs the permission bits `need`. -/
def translate (s : State) (va need : Nat) : Except Chk (Nat × Bool) :=
  match walk s s.vd va with
  | .fault lvl => .error ⟨3, 0x400, lvl⟩
  | .poisoned _ => .error ⟨3, 0x406, 8⟩
  | .leaf pa f x w r => if permOk need (permBits x w r) then .ok (pa, f) else .error ⟨4, 0x401, need⟩

/-- Bytes of the device's allocation on a die (R97). -/
def scBytes (d : Device) (die : Nat) : Nat := natAt d.scUnits die * 0x200000

/-- The place of the first byte of an access of `n` bytes at an address of a space, after the checks of R95 and R102. -/
def resolveAt (s : State) (spc : Space) (ea n need : Nat) : Except Chk Loc :=
  let code := spaceCode spc
  let t := s.team
  let bound : Bool × Bool :=
    match spc with
    | .g | .enc | .metaV => (decide (ea < 2 ^ 57), false)
    | .sh =>
        if ea < 0x1000000 then (decide (ea + n ≤ t.kernel.shared), false)
        else
          let m := (ea - 0x1000000) / 0x200000
          let live := decide (m < 16) && (windowOwner s m).any fun o => decide (ea % 0x200000 + n ≤ o.kernel.shared)
          (live || t.revoked.contains m, !live)
    | .sc => (decide (ea + n ≤ scBytes s.vd t.die), false)
    | .sp => (decide (ea + n ≤ t.kernel.sump), false)
  if !bound.1 then .error ⟨0, 0x402, code⟩
  else if ea % n ≠ 0 then .error ⟨1, 0x403, code⟩
  else if bound.2 then .error ⟨5, 0x404, 0⟩
  else
    match spc with
    | .g => (translate s ea need).map fun r => pagePlace s r.1 r.2 ea
    | .enc | .metaV =>
        match bindingAt s.vd ea with
        | some (_, sl) =>
            if sl.unbinding then .error ⟨2, 0x405, code⟩
            else (translate s ea need).map fun r =>
              { home := .main, addr := if spc = .enc then r.1 else metaPa s.vd sl r.1 + ea % 2, va := rawVa }
        | none => .error ⟨2, 0x405, code⟩
    | .sh =>
        if ea < 0x1000000 then .ok { home := .shared t.ref, addr := ea, va := 0 }
        else
          match windowOwner s ((ea - 0x1000000) / 0x200000) with
          | some o => .ok { home := .shared o.ref, addr := ea % 0x200000, va := 0 }
          | none => .error ⟨5, 0x404, 0⟩
    | .sc => .ok { home := .scratch s.vd.number t.die, addr := ea, va := 0 }
    | .sp => .ok { home := .main, addr := s.g.sumpPa + ea, va := rawVa }

/-- The places of an access of the group as a whole, or its cause with TRAPMASK 0 (R251, R286). -/
def resolveOne (s : State) (spc : Space) (ea n need : Nat) : Except Raise Loc :=
  match resolveAt s spc ea n need with
  | .ok l => .ok l
  | .error c => .error { code := c.code, detail := c.detail, mask := 0, addr := some ea, lanes := [] }

/-- The places of each active lane's access, or the earliest check that any lane fails with every lane that fails it
(R381). -/
def resolveLanes (s : State) (spc : Space) (ea : Nat → Nat) (n need : Nat) : Except Raise (List (Nat × Loc)) :=
  let m := execMask s
  let rs := (lanes32.filter (laneOn m)).map fun l => (l, resolveAt s spc (ea l) n need)
  let bad : List (Nat × Chk) := rs.filterMap fun r => match r.2 with
    | .error c => some (r.1, c)
    | .ok _ => none
  if bad = [] then
    .ok (rs.filterMap fun r => match r.2 with
      | .ok x => some (r.1, x)
      | .error _ => none)
  else
    let first := bad.foldl (fun k b => min k b.2.rank) 9
    let hit := bad.filter fun b => b.2.rank == first
    let lane := (hit.head?.map (·.1)).getD 0
    let c := (hit.head?.map (·.2)).getD ⟨0, 0, 0⟩
    .error { code := c.code, detail := c.detail, mask := maskOf fun l => hit.any fun b => b.1 == l
             addr := some (ea lane), lanes := tabulate fun l => if laneOn m l then w32 (ea l) else 0 }

/-! ### Reading (R126, R147, R394) -/

/-- The bytes of one naturally aligned access, with a mark on each poisoned one. A sluiced block that is not cached is
decoded once, at the port. -/
def accessBytes (s : State) (l : Loc) (n : Nat) : List (Byte × Bool) :=
  let plain := (locRun l n).map (loadByte s)
  match l.home, bindingAt s.vd l.va with
  | .main, some (_, sl) =>
      let off := l.va % sl.bs
      if (mget? s.cache (l.addr - off)).isSome then plain
      else
        let f := fillBlock s s.vd sl (l.addr - off) (l.va - off)
        (List.range n).map fun i =>
          match queuedByte s.g { l with addr := l.addr + i, va := l.va + i } with
          | some b => (b, false)
          | none => (f.bytes.getD (off + i) 0, f.poison.contains ((off + i) / 32))
  | _, _ => plain

/-- Events of one load access (R410): the address and the value of each piece. -/
def readEvents (spc : Space) (lane : Option Nat) (ea : Nat) (bs : List Byte) : List Watch :=
  let n := bs.length
  let p := min n 4
  ((List.range (n / p)).map fun k =>
    [{ src := 1, space := spaceCode spc, lane := lane, x := ea + p * k, size := p },
     { src := 3, space := spaceCode spc, lane := lane, x := leNat ((bs.drop (p * k)).take p), size := p }]).flatten

/-- Events of one store access. -/
def writeEvents (spc : Space) (lane : Option Nat) (ea : Nat) (bs : List Byte) : List Watch :=
  let n := bs.length
  let p := min n 4
  ((List.range (n / p)).map fun k =>
    [{ src := 2, space := spaceCode spc, lane := lane, x := ea + p * k, size := p },
     { src := 4, space := spaceCode spc, lane := lane, x := leNat ((bs.drop (p * k)).take p), size := p }]).flatten

/-- The cause of consuming poison in a space (R394). -/
def poisonRaise (spc : Space) (mask : Word) (addr : Nat) (lanes : List Word) : Raise :=
  { code := if spc = .sh ∨ spc = .sc then 0x600 else 0x406, detail := spaceCode spc, mask := mask, addr := some addr
    lanes := lanes }

/-! ### Losing a team (R400, R401) -/

/-- The focus of `s` again, where no group is in it: its team, or its device. -/
def refocus (s r : State) : State :=
  if r.team.ref = s.team.ref then r
  else match focusTeam r s.team.ref with
    | some r' => if s.g.ref.team.serial = 0 then { r' with g := s.g, slot := s.slot } else r'
    | none => (focusDevice (stash r) s.vd.number).getD r

/-- A change made with another team in focus; the focus returns to the group, or the team, that it was on. -/
def withTeam (s : State) (t : TRef) (f : State → State) : State :=
  match focusTeam s t with
  | none => s
  | some s' =>
      let r := f s'
      match focusGroup r s.g.ref with
      | some r' => { r' with slot := s.slot }
      | none => refocus s r

/-- A change made with another group in focus; the focus returns to the group and slot it was on. -/
def withGroup (s : State) (r : GRef) (f : State → State) : State :=
  match focusGroup s r with
  | none => s
  | some s' =>
      let t := f s'
      match focusGroup t s.g.ref with
      | some u => { u with slot := s.slot }
      | none => t

/-- The group of a team with the lowest `%gid`. -/
def lowestGroup (s : State) (t : TRef) : Option Group :=
  (groupsOf s t).foldl (fun b g => match b with
    | none => some g
    | some x => if g.ref.gid < x.ref.gid then some g else some x) none

/-- The team is lost without a supervisor entry of its own: one log record with PC, ADDR and MASK 0, and it is
relaunched or ended (R371, R401). -/
def loseTeam (s : State) (t : TRef) (code detail : Nat) : State :=
  withTeam s t fun s =>
    if s.team.ending then s
    else
      let again := relaunches s code
      let g := (lowestGroup s t).getD .idle
      let s := writeLog s (cycleOf s g.core) 0 0 (code + 65536 * detail) 0 (if again then 2 else 1) g.core g.ref.gid
        s.team.x s.team.y s.team.z
      endTeam s code again

/-- The owner of the first poisoned byte that lies in another team's window, if one does. -/
def poisonedWindow (s : State) (ls : List (Loc × Nat)) : Option TRef :=
  (ls.filter fun e => (accessBytes s e.1 e.2).any (·.2)).findSome? fun e =>
    match e.1.home with
    | .shared t => if t = s.team.ref then none else some t
    | _ => none

/-! ### Writing (R126) -/

/-- One store of the group enters its store queue; a store to the sump is made at once (R30, R126). -/
def pushStore (s : State) (spc : Space) (cells : List (Loc × Byte)) : State :=
  if cells = [] then s
  else if spc = .sp then putLocs s cells
  else { s with g := { s.g with stores := s.g.stores ++ [{ cells := cells }] } }

/-- The queue drains where the access is a release (R126, R130). -/
def releaseIf (s : State) (o : Ordf) : State :=
  match o with
  | .qual _ => drainStores s
  | _ => s

/-! ### The sump (R27, R28) -/

def sumpBytes (s : State) (off n : Nat) : List Byte := mainBytes s (s.g.sumpPa + off) n

/-- Bytes that one instruction writes to the sump, at their offsets; the sump is cached as `.g` is (R30, R98). -/
def putSumps (s : State) (cells : List (Nat × Byte)) : State :=
  putCached s (cells.map fun c => (s.g.sumpPa + c.1, c.2))

def putSump (s : State) (off : Nat) (bs : List Byte) : State :=
  putSumps s ((List.range bs.length).map fun i => (off + i, bs.getD i 0))

/-- A sump entry or frame header: bits [63:0], MASK, WHY and OWN. -/
structure SumpEntry where
  low : Nat
  mask : Word
  why : Nat
  own : SlotId
  deriving DecidableEq, Repr

def slotOfBit (n : Nat) : SlotId := if n % 2 = 1 then .B else .A

/-- The entry or frame header at an offset of the sump. -/
def stackEntry (s : State) (off : Nat) : SumpEntry :=
  let x := leNat (sumpBytes s off 16)
  { low := x % 2 ^ 64, mask := w32 (x / 2 ^ 64), why := x / 2 ^ 96 % 16, own := slotOfBit (x / 2 ^ 100) }

/-- The entry at the sump top, where there is one. -/
def sumpTopEntry (s : State) : Option SumpEntry := if s.g.sumpTop < 16 then none else some (stackEntry s (s.g.sumpTop - 16))

/-- The word, entry or header at an offset of the sump lies in a poisoned sector. -/
def sumpPoison (s : State) (off : Nat) : Bool := mainPoison s (s.g.sumpPa + off)

/-- The cause of an instruction that reads a poisoned entry or header of the sump: a poisoned byte is never taken for a value
(R394, R404; notes/assumptions/83.md). -/
def sumpRaise (off : Nat) : Raise := poisonRaise .sp 0 off []

def entryBytes (e : SumpEntry) : List Byte :=
  leBytes 16 (pack [(e.low, 64), (e.mask.toNat, 32), (e.why, 4), (slotBit e.own, 1)])

/-- Bytes that the stack may use (R27, R380). -/
def sumpRoom (s : State) : Nat := s.team.kernel.sump - s.team.kernel.local_

/-- An entry pushed on the sump. -/
def pushEntry (s : State) (e : SumpEntry) : State :=
  let s' := putSump s s.g.sumpTop (entryBytes e)
  { s' with g := { s'.g with sumpTop := s'.g.sumpTop + 16 } }

def popEntry (s : State) : State := { s with g := { s.g with sumpTop := s.g.sumpTop - 16 } }

/-- The offsets of the entries and frame headers on the stack from the top down: spill frames are passed over whole (R29,
R303). The fuel bounds the walk. -/
def sumpOffs (s : State) : Nat → Nat → List Nat
  | 0, _ => []
  | n + 1, top =>
      if top < 16 then []
      else
        let e := stackEntry s (top - 16)
        let body : Nat :=
          if e.why ≠ 3 then 0
          else
            let count := e.low / 2 ^ 43 % 16 + 1
            if e.low / 2 ^ 47 % 1024 < 512 then 128 * count else (4 * count + 15) / 16 * 16
        (top - 16) :: sumpOffs s n (top - 16 - body)

/-- The offsets of everything on the group's stack. -/
def stackOffs (s : State) : List Nat := sumpOffs s (s.g.sumpTop / 16 + 1) s.g.sumpTop

/-- Path entries of the group (WHY 1 or 2). -/
def pathEntries (s : State) : List SumpEntry := ((stackOffs s).map (stackEntry s)).filter fun e => e.why == 1 || e.why == 2

end Sys2Proof.Machine
end

