-- ==== Sys2Proof/Machine/Control.lean ====
section
/-!
DEFINITION. Machine/Control.lean: masks, branches, split and join, barriers, `yield` and the stage queues (R26 to R29,
R271 to R281).
-/
namespace Sys2Proof.Machine

/-! ### Clauses and positions -/

/-- The header of the clause that holds an instruction address: the nearest marked word before it whose count reaches
the address. -/
def headerOf (s : State) (a : Addr) : Option (Addr × Dword) :=
  (List.range 16).findSome? fun k =>
    let h : Addr := a - BitVec.ofNat 57 (8 * (k + 1))
    match fetchWord s h with
    | .ok w => if marked w && decide (k ≤ w.toNat / 2 ^ 52 % 16) then some (h, w) else none
    | .error _ => none

/-- The slot standing at an instruction address of its own or of another clause. -/
def PcSlot.standAt (s : State) (p : PcSlot) (a : Addr) : PcSlot :=
  let off := (a - p.hdr).toNat
  if 0 < off ∧ off ≤ 8 * p.count then { p with pc := a }
  else
    match headerOf s a with
    | some (h, w) => { p with pc := a, hdr := h, head := w, waits := none }
    | none => { p with pc := a }

/-- A control instruction moves its slot itself: a cause, or the state after it. -/
def control (i : Instr) (r : Except Raise State) (s : State) : Out :=
  match r with
  | .error r => .next (raise s (causeHere s r (nextAddr i (cur s)) (trapDst i)))
  | .ok s' => .next s'

/-- The target of a branch (R210). -/
def branchTarget (p : PcSlot) (off : Word) : Addr := p.hdr + off.signExtend 57 * 8

/-- The slot goes to the target, or to the header after its clause. -/
def branchTo (s : State) (taken : Bool) (off : Word) : State :=
  let p := cur s
  setCur s (if taken then p.jump s.now (branchTarget p off) else p.moveTo s.now p.after)

/-! ### Masks within a slot (R271, R272) -/

/-- Lanes claimed by the partner slot, by path entries and by parking (R271, R415). -/
def claimed (s : State) : Word :=
  (pathEntries s).foldl (fun m e => m ||| e.mask) ((s.g.slot s.slot.partner).mask ||| s.g.parked)

/-- The issuing slot's mask becomes `m`, or the empty-mask fault. -/
def maskIssue (i : Instr) (r : Except Raise Word) (s : State) : Out :=
  issue i (r.bind fun m =>
    if m = 0 then .error (.plain 0x203 0) else .ok (.of (setCur s { cur s with mask := m }))) s

/-- `exec.get` (R271). -/
def execExecGet (d : Opnd) (s : State) : Out :=
  scaIssue (.execGet d) d false (.ok ((execMask s).setWidth 64)) s
/-- `exec.set` (R271). -/
def execExecSet (a : Opnd) (s : State) : Out :=
  maskIssue (.execSet a) ((uni s 1 a).bind fun x =>
    match (stackOffs s).find? (sumpPoison s) with
    | some off => .error (sumpRaise off)
    | none => .ok (x &&& ~~~s.g.exited &&& ~~~(claimed s))) s
/-- `exec.and` (R271). -/
def execExecAnd (a : Opnd) (s : State) : Out := maskIssue (.execAnd a) ((uni s 1 a).map fun x => execMask s &&& x) s
/-- `exec.andn` (R271). -/
def execExecAndn (a : Opnd) (s : State) : Out :=
  maskIssue (.execAndn a) ((uni s 1 a).map fun x => execMask s &&& ~~~x) s
/-- `m.and` (R272). -/
def execMAnd (d a b : Opnd) (s : State) : Out := scaIssue (.mAnd d a b) d false (sca2 s false false a b aluAnd) s
/-- `m.or` (R272). -/
def execMOr (d a b : Opnd) (s : State) : Out := scaIssue (.mOr d a b) d false (sca2 s false false a b aluOr) s
/-- `m.xor` (R272). -/
def execMXor (d a b : Opnd) (s : State) : Out := scaIssue (.mXor d a b) d false (sca2 s false false a b aluXor) s
/-- `m.not` (R272). -/
def execMNot (d a : Opnd) (s : State) : Out :=
  scaIssue (.mNot d a) d false ((uni s 1 a).map fun x => (execMask s &&& ~~~x).setWidth 64) s
/-- `m.ffs` (R272). -/
def execMFfs (d a : Opnd) (s : State) : Out :=
  scaIssue (.mFfs d a) d false ((uni s 1 a).map fun x => w64 ((lowest x).getD 32)) s

/-! ### Branches (R273 to R275) -/

/-- `br` (R274). -/
def execBr (off : Word) (s : State) : Out := control (.br off) (.ok (branchTo s true off)) s
/-- `bz` (R274). -/
def execBz (c : Opnd) (off : Word) (s : State) : Out :=
  control (.bz c off) ((uni s 4 c).map fun x => branchTo s (x == 0) off) s
/-- `bnz` (R274). -/
def execBnz (c : Opnd) (off : Word) (s : State) : Out :=
  control (.bnz c off) ((uni s 4 c).map fun x => branchTo s (x != 0) off) s
/-- `bexz` (R274). -/
def execBexz (c : Opnd) (off : Word) (s : State) : Out :=
  control (.bexz c off) ((uni s 4 c).map fun x => branchTo s (x &&& execMask s == 0) off) s

/-- A slot that `brs` makes live at its target: neither the hint of the clause that it leaves (R196) nor a `dbg.run` before it
(R429; notes/assumptions/103.md) concerns it. -/
def PcSlot.branchOff (p : PcSlot) (now : Nat) (a : Addr) (mask : Word) : PcSlot :=
  { p.jump now a with mask := mask, ageless := false, calm := false }

/-- The effect of `brs` with a condition mask (R28, R380). -/
def splitOn (s : State) (cond : Word) (off : Word) : Except Raise State :=
  let p := cur s
  let taken := p.mask &&& cond
  let fall := p.mask &&& ~~~cond
  let q := s.g.slot s.slot.partner
  let here := p.moveTo s.now p.after
  if taken = 0 then .ok (setCur s here)
  else if fall = 0 then .ok (branchTo s true off)
  else if !q.live then
    let g := s.g.setSlot s.slot.partner (p.branchOff s.now (branchTarget p off) taken)
    .ok { s with g := g.setSlot s.slot { here with mask := fall } }
  else if s.g.sumpTop + 16 > sumpRoom s then .error (.plain 0x300 0)
  else
    let s := pushEntry s { low := (branchTarget p off).toNat, mask := taken, why := 1, own := s.slot }
    .ok (setCur s { here with mask := fall })

/-- `brs` (R28). -/
def execBrs (c : Opnd) (off : Word) (s : State) : Out :=
  control (.brs c off) ((uni s 4 c).bind fun x => splitOn s x off) s

/-- `call` (R275). -/
def execCall (l : Opnd) (off : Word) (s : State) : Out :=
  let ret := (cur s).after
  control (.call l off) (.ok (branchTo { s with g := putRegs s.g (scaWrites l true (w64 ret.toNat)) } true off)) s

/-- `ret` (R275): what stands at the address is checked on arrival (R210). -/
def execRet (l : Opnd) (s : State) : Out :=
  control (.ret l) ((uniPair s 4 l).map fun x => setCur s ((cur s).jump s.now (x.setWidth 57))) s

/-! ### Join and exit (R29, R58, R276) -/

/-- The slices of lane blocks all of whose lanes have exited return when the group is not split (R58). -/
def settleSlices (s : State) : State :=
  if s.g.b.live || pathEntries s != [] then s
  else
    let gone (k : Nat) : Bool := s.g.exited.toNat / 2 ^ (8 * k) % 256 == 255
    let r : BitVec 4 := BitVec.ofNat 4 ((List.range 4).foldl (fun n k => if gone k then n + 2 ^ k else n) 0)
    { s with g := { s.g with returned := s.g.returned ||| r } }

/-- The slot waits at a `join`. -/
def PcSlot.atJoin (p : PcSlot) (a : Addr) : Bool := p.live && p.wait == .join && p.pc == a

/-- The steps of R29 for slot `i` at address `j`, or at none after `exit`; or the cause of a poisoned entry on top. -/
def joinSteps : Nat → SlotId → Option Addr → State → Except Raise State
  | 0, _, _, s => .ok s
  | n + 1, i, j, s =>
      let p := s.g.slot i
      let q := s.g.slot i.partner
      let pops (e : SumpEntry) : Bool :=
        decide (e.own = i) && e.why == 2 && (j.isNone || j == some (BitVec.ofNat 57 e.low))
      match sumpTopEntry s with
      | some e =>
          if sumpPoison s (s.g.sumpTop - 16) then .error (sumpRaise (s.g.sumpTop - 16))
          else if pops e then
            let a : Addr := BitVec.ofNat 57 e.low
            let s := popEntry s
            joinSteps n i (some a) { s with g := s.g.setSlot i { p.standAt s a with mask := p.mask ||| e.mask } }
          else if e.own = i ∧ e.why = 1 then
            let inner := s.g.inside.contains (s.g.sumpTop - 16)
            let s := popEntry s
            let s := { s with g := { s.g with inside := sdel s.g.inside s.g.sumpTop } }
            let s := if p.mask = 0 then s
              else pushEntry s { low := (j.getD 0).toNat, mask := p.mask, why := 2, own := i }
            let a : Addr := BitVec.ofNat 57 e.low
            let q : PcSlot := if inner then { p.standAt s a with stand := .paused, wait := .running, since := s.now }
              else p.jump s.now a
            .ok { s with g := s.g.setSlot i { q with mask := e.mask } }
          else .ok (joinEnd i j s p q)
      | none => .ok (joinEnd i j s p q)
where
  /-- The steps that take no entry: the group becomes unsplit, and what both slots have issued was issued by the one slot that
  goes on (R208); or the slot waits, or goes on. -/
  joinEnd (i : SlotId) (j : Option Addr) (s : State) (p q : PcSlot) : State :=
    match j with
    | none => { s with g := s.g.setSlot i { p with mask := 0, wait := .running, stand := .paused } }
    | some a =>
        if q.atJoin a then
          let both := s.g.a.mask ||| s.g.b.mask
          let pa := (s.g.a.standAt s a).moveTo s.now (a + 8)
          { s with g := { s.g with a := { pa with mask := both, stand := if pa.stand = .issuing ∧ i = .B then .paused else pa.stand }
                                   b := { s.g.b with mask := 0, wait := .running, stand := .paused }
                                   inflight := s.g.inflight.map fun f => { f with slot := .A } } }
        else if q.live then
          { s with g := s.g.setSlot i { p.standAt s a with wait := .join, stand := .paused } }
        else { s with g := s.g.setSlot i ((p.standAt s a).moveTo s.now (a + 8)) }

/-- The most steps that R29 can take. -/
def joinFuel (s : State) : Nat := s.g.sumpTop / 16 + 2

/-- Both slots wait at different addresses and neither's steps change anything (R29). -/
def joinStuck (s : State) : Bool :=
  let waits (i : SlotId) : Bool := (s.g.slot i).live && (s.g.slot i).wait == .join
  let fixed (i : SlotId) : Bool := match sumpTopEntry s with
    | some e => !(decide (e.own = i) && (e.why == 1 || (e.why == 2 && e.low == (s.g.slot i).pc.toNat)))
    | none => true
  waits .A && waits .B && s.g.a.pc != s.g.b.pc && fixed .A && fixed .B

/-- R29 applied for a slot at its join, with the join-mismatch fault (R378). -/
def joinAt (s : State) (i : SlotId) : Except Raise State :=
  (joinSteps (joinFuel s) i (some (s.g.slot i).pc) s).bind fun t =>
    let s' := settleSlices t
    if joinStuck s' then .error (.plain 0x205 0) else .ok s'

/-- `join` (R29). -/
def execJoin (s : State) : Out := control .join (joinAt s s.slot) s

/-- A barrier phase in which every non-exited thread of the team has arrived is complete (R277). -/
def settleBarriers (s : State) : State :=
  let gs := (groupsOf s s.team.ref).filter Group.active
  if gs = [] then s
  else
    (List.range 16).foldl (fun s n =>
      let p := mget 0 s.team.phases n
      let all := gs.all fun g => lanes32.all fun l => laneOn g.exited l || mget? g.marks (32 * n + l) == some p
      if all then { s with team := { s.team with phases := mset 0 s.team.phases n (p + 1) } } else s) s

/-- Lanes are left in no slot and no path entry (R276). -/
def lanesLost (s : State) : Bool :=
  s.g.exited != 0xffffffff && !s.g.a.live && !s.g.b.live && pathEntries s == [] && s.g.parked == 0

/-- A user handler that ends by `exit` clears PRIV.TRAP and releases the partner (R368). -/
def leaveHandler (s : State) : State :=
  if inHandler s.g && decide (trapSlot s.g = s.slot) then releasePending { s with g := setHandler s.g false } else s

/-- The state after the lanes of the slot have exited (R25, R276). -/
def exitLanes (s : State) : Except Raise State :=
  let p := cur s
  let s := { s with g := { s.g with exited := s.g.exited ||| p.mask } }
  let s := setCur s { p with mask := 0 }
  (joinSteps (joinFuel s) s.slot none s).map fun t => settleBarriers (settleSlices t)

/-- `exit` (R276, R368). -/
def execExit (s : State) : Out :=
  let cause (r : Raise) : Cause := causeHere s r (nextAddr .exit (cur s)) (trapDst .exit)
  match exitLanes s with
  | .error r => .next (raise s (cause r))
  | .ok s' => .next (if lanesLost s' then raise s' (cause (.plain 0x204 0)) else leaveHandler s')

/-! ### Barriers (R277, R278) -/

/-- Some active thread of the slot has arrived in the current phase of barrier n. -/
def someArrived (s : State) (n : Nat) : Bool :=
  let p := mget 0 s.team.phases n
  lanes32.any fun l => laneOn (execMask s) l && mget? s.g.marks (32 * n + l) == some p

/-- The active threads of the slot that have not arrived in the current phase arrive. -/
def arrive (s : State) (n : Nat) : State :=
  let p := mget 0 s.team.phases n
  let m := lanes32.foldl (fun m l => if laneOn (execMask s) l then mins m (32 * n + l) p else m) s.g.marks
  settleBarriers { s with g := { s.g with marks := m } }

/-- The slot waits at its instruction. -/
def pauseAs (s : State) (w : Wait) : State := setCur s ((cur s).pause w)

/-- `bar.arr` (R278); an arrival is a release (R134). -/
def execBarArr (n : BitVec 4) (s : State) : Out :=
  if someArrived s n.toNat then .next (pauseAs s (.barrier n.toNat true))
  else issue (.barArr n) (.ok (.of (arrive (drainStores s) n.toNat))) s

/-- `bar.wait` (R278). -/
def execBarWait (n : BitVec 4) (s : State) : Out :=
  if someArrived s n.toNat then .next (pauseAs s (.barrier n.toNat false))
  else issue (.barWait n) (.ok (.of s)) s

/-- `bar.sync` (R278): threads that have arrived are skipped, and a slot that already waits only waits on. -/
def execBarSync (n : BitVec 4) (s : State) : Out :=
  let s' := if (cur s).wait = .barrier n.toNat false then s else arrive (drainStores s) n.toNat
  if someArrived s' n.toNat then .next (pauseAs s' (.barrier n.toNat false))
  else issue (.barSync n) (.ok (.of s')) s

/-- `yield` (R279): the port is released at the next instruction, whose age begins when it is ready. -/
def execYield (s : State) : Out :=
  let p := (cur s).moveTo s.now (nextAddr .yield (cur s))
  .next (setCur s { p with stand := if p.stand = .issuing then .paused else p.stand, ageless := true })

/-! ### Stage queues (R280, R281) -/

def queueAt (s : State) (q : Nat) : QueueDecl :=
  s.team.kernel.queues.getD q { src := 0, dst := 0, depth := 0, entry := 0, base := 0 }

/-- Entries that have been put and not taken (R191). -/
def occupancy (t : Team) (q : Nat) : Nat :=
  let c := mget (0, 0) t.qcount q
  (c.1 - c.2).toNat

/-- Bytes at an offset of the team's shared memory. -/
def sharedCells (s : State) (off : Nat) (bs : List Byte) : List (Loc × Byte) :=
  cellsOf { home := .shared s.team.ref, addr := off, va := 0 } bs

/-- Bytes written to the team's shared memory. -/
def putShared (s : State) (off : Nat) (bs : List Byte) : State := putLocs s (sharedCells s off bs)

/-- TAIL and HEAD of a queue, shown in its storage (R280). -/
def setQueue (s : State) (q : Nat) (tail head : Word) : State :=
  let s := { s with team := { s.team with qcount := mset (0, 0) s.team.qcount q (tail, head) } }
  putShared s (queueAt s q).base (leBytes 4 tail.toNat ++ leBytes 4 head.toNat)

/-- The slot in focus, among the waiters of its team. -/
def me (s : State) : Nat × SlotId := (s.g.ref.gid, s.slot)

/-- A slot of the team in focus waits at an instruction on a queue. -/
def waitsAt (s : State) (q : Nat) (putting : Bool) (w : Nat × SlotId) : Bool :=
  (groupsOf s s.team.ref).any fun g =>
    g.ref.gid == w.1 && (g.slot w.2).live && decide ((g.slot w.2).wait = .queue q putting)

/-- The slot is served now: nobody who still waits began to wait before it (R281). -/
def firstInLine (s : State) (q : Nat) (putting : Bool) (ws : List (Nat × SlotId)) : Bool :=
  (ws.find? fun w => decide (w = me s) || waitsAt s q putting w).all fun w => decide (w = me s)

/-- The slot stands in the line from when it began to wait. -/
def joinLine (s : State) (ws : List (Nat × SlotId)) : List (Nat × SlotId) :=
  if (cur s).wait ≠ .running ∧ ws.contains (me s) then ws else ws.filter (· ≠ me s) ++ [me s]

/-- `q.put` (R281): a release (R134), one atomic step at the home. -/
def execQPut (q : BitVec 3) (a : Opnd) (s : State) : Out :=
  let k := q.toNat
  let d := queueAt s k
  let ws := mget [] s.team.putters k
  if s.g.role ≠ d.src then issue (.qPut q a) (.error (.plain 0x209 k)) s
  else if occupancy s.team k < d.depth ∧ firstInLine s k true ws then
    let c := mget (0, 0) s.team.qcount k
    let xs := readRun s (regNo a) (d.entry / 4)
    let s' := drainStores s
    let s' := putShared s' (d.base + 16 + c.1.toNat % d.depth * d.entry) ((xs.map fun x => leBytes 4 x.toNat).flatten)
    let s' := setQueue s' k (c.1 + 1) c.2
    issue (.qPut q a)
      (.ok (.of { s' with team := { s'.team with putters := mset [] s'.team.putters k (ws.filter (· ≠ me s)) } })) s
  else
    .next (pauseAs { s with team := { s.team with putters := mset [] s.team.putters k (joinLine s ws) } } (.queue k true))

/-- The cause of an instruction that takes bytes of the team's shared memory as a value where one is poisoned (R394, R400,
R404; notes/assumptions/83.md). -/
def sharedPoison (s : State) (off n : Nat) : Option Raise :=
  ((List.range n).find? fun i => s.team.poison.contains ((off + i) / 32)).map fun i => poisonRaise .sh 0 (off + i) []

/-- `q.get` (R281). -/
def execQGet (q : BitVec 3) (dst : Opnd) (s : State) : Out :=
  let k := q.toNat
  let d := queueAt s k
  let ws := mget [] s.team.getters k
  if s.g.role ≠ d.dst then issue (.qGet q dst) (.error (.plain 0x209 k)) s
  else if 0 < occupancy s.team k ∧ firstInLine s k false ws then
    let c := mget (0, 0) s.team.qcount k
    let off := d.base + 16 + c.2.toNat % d.depth * d.entry
    let bs := (List.range d.entry).map fun i => mget 0 s.team.shared (off + i)
    let xs := (List.range (d.entry / 4)).map fun i => w32 (leNat ((bs.drop (4 * i)).take 4))
    let s' := setQueue s k c.1 (c.2 + 1)
    issue (.qGet q dst)
      (match sharedPoison s off d.entry with
       | some r => .error r
       | none => .ok (.write { s' with team := { s'.team with getters := mset [] s'.team.getters k (ws.filter (· ≠ me s)) } }
           (scaRun (regNo dst) xs))) s
  else
    .next (pauseAs { s with team := { s.team with getters := mset [] s.team.getters k (joinLine s ws) } } (.queue k false))

end Sys2Proof.Machine
end

