-- ==== Sys2Proof/Machine/MemSide.lean ====
section
/-!
DEFINITION. Machine/MemSide.lean: what leaves the memory-side cache: encoding, write-back, eviction and maintenance of
ranges (R118 to R121, R146 to R151, R397).
-/
namespace Sys2Proof.Machine

/-- A change of binding `slot` of the device in focus. -/
def onBinding (s : State) (slot : Nat) (f : Sluice → Sluice) : State :=
  match mget? s.vd.bindings slot with
  | some sl => { s with vd := { s.vd with bindings := mins s.vd.bindings slot (f sl) } }
  | none => s

/-- A binding counts an encode (R151); the counters saturate. -/
def countEncode (c : EncCount) (sl : Sluice) : Sluice :=
  let up (n : Nat) : Nat := satAdd n 1 0xffffffff
  match c with
  | .enc => { sl with ctrEnc := up sl.ctrEnc }
  | .rawf => { sl with ctrRawf := up sl.ctrRawf }
  | .raws => { sl with ctrRaws := up sl.ctrRaws }
  | .rawv => { sl with ctrRawv := up sl.ctrRawv }
  | .rawt => { sl with ctrRawt := up sl.ctrRawt }

/-- Stored bytes and a metadata word written to memory (R146, R353). -/
def storeSlot (s : State) (sl : Sluice) (pa _va : Nat) (bytes : List Byte) (word : BitVec 16) : State :=
  let s := putBytes s pa bytes
  let s := putBytes s (metaPa s.vd sl pa) (leBytes 2 word.toNat)
  meter s 4 (bytes.length + 2)

/-- A block stored raw without running the encoder: a block with poison (R397), or one of a region being unbound
(R154). -/
def storeRaw (s : State) (sl : Sluice) (pa va : Nat) (plain : List Byte) (poison : List Nat) : State :=
  let s := storeSlot s sl pa va plain (metaWord (crc8 plain) true sl.cur (plain.length / 8 - 1))
  poison.foldl (fun s k => addPoison s (pa + 32 * k)) s

/-- A block stored as R150 says, given how its encode ended; `metered` steps of it have been counted already. -/
def storeEncoded (s : State) (slot : Nat) (sl : Sluice) (pa va : Nat) (e : Encoded) (metered : Nat) : State :=
  let s := storeSlot s sl pa va e.bytes e.word
  meter (onBinding s slot (countEncode e.count)) 5 (e.steps - metered)

/-- A plain block of a bound region written to memory (R150, R154, R397). -/
def storeBlock (s : State) (slot : Nat) (sl : Sluice) (pa va : Nat) (plain : List Byte) (poison : List Nat) : State :=
  if sl.unbinding || poison != [] then storeRaw s sl pa va plain poison
  else storeEncoded s slot sl pa va (encodeBlock sl.enc sl.dec plain sl.cur) 0

/-- The block's write-back, whole (R147). -/
def writeBack (s : State) (pa : Nat) (b : Block) : State :=
  if b.dirty then
    let s := { s with cache := mins s.cache pa { b with dirty := false } }
    match bindingAt s.vd b.va with
    | some (slot, sl) => storeBlock s slot sl pa b.va b.bytes b.poison
    | none => b.poison.foldl (fun s k => addPoison s (pa + 32 * k)) (putBytes s pa b.bytes)
  else s

/-- Every run in progress or ended and not yet consumed: the one in focus first. -/
def allRuns (s : State) : List Run := if s.run.why = .idle then s.runs else s.run :: s.runs

/-- The runs without the one of a block. -/
def dropRun (s : State) (pa : Nat) : State :=
  let mine (r : Run) : Bool := decide (r.why = .encode s.vd.number pa)
  { s with run := if mine s.run then .idle else s.run, runs := s.runs.filter fun r => !mine r }

/-- A run enters the machine, in focus where nothing else is. -/
def addRun (s : State) (r : Run) : State := if s.run.why = .idle then { s with run := r } else { s with runs := s.runs ++ [r] }

/-- A run serves the device in focus at an engine. -/
def servesHere (s : State) (e : Nat) (r : Run) : Bool :=
  r.why.vd == some s.vd.number && r.why.pa.any fun pa => engineOf pa == e

/-- The device's next encode at an engine begins when the device has no run there (R148, R155): a device has one run at
a time at each engine (notes/assumptions/59.md). -/
def startEncode (s : State) (e : Nat) : State :=
  if (allRuns s).any (servesHere s e) then s
  else
    match s.encodes.find? fun x => x.vd == s.vd.number && engineOf x.pa == e with
    | some x =>
        match bindingAt s.vd x.va with
        | some (_, sl) => addRun s (Run.start (.encode x.vd x.pa) sl.enc x.bytes.length x.bytes)
        | none => s
    | none => s

/-- The block of a finished write-back leaves the cache unless a later store made it dirty (R147, R148). -/
def leaveClean (s : State) (pa : Nat) : State :=
  match mget? s.cache pa with
  | some b => if b.dirty then s else { s with cache := mdel s.cache pa }
  | none => s

/-- A write-back that waits for an engine is encoded and stored whole, and the engine goes on (R147, R148). -/
def finishEncode (s : State) (x : Encode) : State :=
  let s := { s with encodes := s.encodes.filter fun e => !(e.vd == x.vd && e.pa == x.pa) }
  let t := match bindingAt s.vd x.va with
    | some (slot, sl) =>
        match (allRuns s).find? fun r => decide (r.why = .encode x.vd x.pa) with
        | some r =>
            if sl.unbinding then storeBlock s slot sl x.pa x.va x.bytes []
            else
              storeEncoded s slot sl x.pa x.va
                (encodeEnd sl.dec x.bytes sl.cur (r.finish (8 * x.bytes.length + 65))) r.steps
        | none => storeBlock s slot sl x.pa x.va x.bytes []
    | none => putBytes s x.pa x.bytes
  startEncode (leaveClean (dropRun t x.pa) x.pa) (engineOf x.pa)

/-- Write-backs of the device in focus that wait for an engine and satisfy a test are finished. -/
def finishWhere (s : State) (p : Encode → Bool) : State :=
  (s.encodes.filter fun e => e.vd == s.vd.number && p e).foldl finishEncode s

/-- A block leaves the cache: a clean one at once, a dirty one through an engine with its bytes as a snapshot (R147,
R148); a block with poison is stored raw at once (R397). An encode of the block that is under way ends first, so that
the newer bytes are stored after it. -/
def evictBlock (s : State) (pa : Nat) : State :=
  let s := finishWhere s fun e => e.pa == pa
  match mget? s.cache pa with
  | none => s
  | some b =>
      if !b.dirty then { s with cache := mdel s.cache pa }
      else if b.poison != [] || (bindingAt s.vd b.va).all (·.2.unbinding) then
        let s := writeBack s pa b
        { s with cache := mdel s.cache pa }
      else
        startEncode { s with cache := mins s.cache pa { b with dirty := false }
                             encodes := s.encodes ++ [{ vd := s.vd.number, pa := pa, va := b.va, bytes := b.bytes }] }
          (engineOf pa)

/-- Poisoned sectors of the peer modules after a line's write-back: a sector of it that holds written bytes is poisoned
where the line has it poisoned, and is no longer poisoned where all of its bytes were written (R393). -/
def peerMarks (marks : List Nat) (key : Nat) (b : Block) : List Nat :=
  (List.range 8).foldl (fun m k =>
    let mine := b.wrote.filter fun i => i / 32 == k
    let at_ := key % 2 ^ 48 * 8 + k
    if mine = [] then m
    else if b.poison.contains k then sadd m at_
    else if mine.length = 32 then sdel m at_ else m) marks

/-- A line of a page with F = 1 written back to the peer module: the bytes that the die has written (R118, R119, R133). -/
def writePeer (s : State) (key : Nat) (b : Block) : State :=
  if b.dirty then
    let base := key % 2 ^ 48 * 256
    let s := { s with peer := b.wrote.foldl (fun m i => mset 0 m (base + i) (b.bytes.getD i 0)) s.peer
                      peerPoison := peerMarks s.peerPoison key b
                      peerLines := mins s.peerLines key { b with dirty := false, wrote := [] } }
    cross s b.wrote.length
  else s

/-- A line of a page with F = 1 leaves the cache of a die. -/
def evictPeer (s : State) (key : Nat) : State :=
  match mget? s.peerLines key with
  | some b => let s := writePeer s key b
              { s with peerLines := mdel s.peerLines key }
  | none => s

/-- The place of an atomic at its home: a die's own line of a page with F = 1 leaves its cache, so that the peer module's
bytes are read and written (R125). -/
def atHome (s : State) (l : Loc) : State :=
  match l.home with
  | .peer die => evictPeer s (lineKey die l.addr)
  | _ => s

/-- Bytes written at their home (R125). -/
def putHome (s : State) (l : Loc) (cells : List (Loc × Byte)) : State := atHome (putVisible s cells) l

/-! ### Ranges (R119, R120, R296) -/

/-- The parts of a range of virtual addresses, page by page: start and length. -/
def rangePages (lo len : Nat) : List (Nat × Nat) :=
  if len = 0 then []
  else (List.range ((lo + len - 1) / 65536 - lo / 65536 + 1)).map fun k =>
    let a := if k = 0 then lo else (lo / 65536 + k) * 65536
    (a, min (lo + len) ((lo / 65536 + k + 1) * 65536) - a)

/-- Write-backs that wait for an engine and overlap the physical range are finished. -/
def finishEncodes (s : State) (lo hi : Nat) : State :=
  finishWhere s fun e => decide (lo ≤ e.pa) && decide (e.pa < hi)

/-- Every dirty line of a range of physical addresses written back, and discarded where `drop`. -/
def cleanRange (s : State) (lo hi : Nat) (drop : Bool) : State :=
  let lo := lo / 256 * 256
  let hi := (hi + 255) / 256 * 256
  let s := finishEncodes s lo hi
  let blocks := s.cache.filter fun (e : Nat × Block) => decide (lo ≤ e.1) && decide (e.1 < hi)
  let s := blocks.foldl (fun s e => writeBack s e.1 e.2) s
  let inLines (k : Nat) : Bool := decide (lo ≤ 256 * k) && decide (256 * k < hi)
  let n := (s.lines.filter fun (e : Nat × Bool) => inLines e.1 && e.2).length
  let s := meter s 4 (256 * n)
  if drop then
    { s with lines := s.lines.filter fun (e : Nat × Bool) => !inLines e.1
             cache := s.cache.filter fun (e : Nat × Block) => !(decide (lo ≤ e.1) && decide (e.1 < hi)) }
  else { s with lines := s.lines.map fun (e : Nat × Bool) => (e.1, if inLines e.1 then false else e.2) }

/-- The same for lines of pages with F = 1 that a die holds, or every die. -/
def cleanPeer (s : State) (die : Option Nat) (lo hi : Nat) (drop : Bool) : State :=
  let hit (k : Nat) : Bool :=
    die.all (· == k / 2 ^ 48) && decide (lo / 256 ≤ k % 2 ^ 48) && decide (256 * (k % 2 ^ 48) < hi)
  let s := (s.peerLines.filter fun (e : Nat × Block) => hit e.1).foldl (fun s e => writePeer s e.1 e.2) s
  if drop then { s with peerLines := s.peerLines.filter fun (e : Nat × Block) => !hit e.1 } else s

/-- `wb` and `inv` over a range whose pages are readable (R119, R120). -/
def cleanVirtual (s : State) (lo len : Nat) (drop : Bool) : State :=
  (rangePages lo len).foldl (fun s p =>
    match walk s s.vd p.1 with
    | .leaf pa f _ _ _ => if f then cleanPeer s none pa (pa + p.2) drop else cleanRange s pa (pa + p.2) drop
    | _ => s) s

/-- The check that a page of a range fails, with the lowest address of the range in it. -/
def pageFault (s : State) (need : Nat) (p : Nat × Nat) : Option (Chk × Nat) :=
  if p.1 + p.2 > 2 ^ 57 then some (⟨0, 0x402, 0⟩, p.1)
  else
    match translate s p.1 need with
    | .ok _ => none
    | .error c => some (c, p.1)

/-- The earliest check, in the order of R95, that any page of a range of `.g` fails, at the lowest page that fails it
(R375, R381). -/
def readFault (s : State) (lo n need : Nat) : Option (Chk × Nat) :=
  let bad := (rangePages lo n).filterMap (pageFault s need)
  bad.find? fun b => bad.all fun c => decide (b.1.rank ≤ c.1.rank)

/-- The cause of a range that cannot be read whole (R296, R366). -/
def rangeFault (s : State) (lo len : Nat) : Option Raise :=
  (readFault s lo len 1).map fun f => { code := f.1.code, detail := f.1.detail, mask := 0, addr := some f.2, lanes := [] }

/-! ### Fills (R147) -/

/-- The line or block of a virtual address filled into the cache, where the address can be read (R295). -/
def fillLine (s : State) (va : Nat) : State :=
  match walk s s.vd va with
  | .leaf pa f _ _ r =>
      if !r then s
      else if f then
        let k := lineKey (s.g.core / 128) pa
        if (mget? s.peerLines k).isSome then s
        else cross { s with peerLines := mins s.peerLines k (peerLine s pa va) } 256
      else
        match bindingAt s.vd va with
        | some (_, sl) =>
            let first := va / 256 * 256
            (List.range (256 / sl.bs)).foldl (fun s k =>
              (cacheBlock s sl (pa / 256 * 256 + sl.bs * k) (first + sl.bs * k)).1) s
        | none =>
            if (mget? s.lines (pa / 256)).isSome then s
            else meter { s with lines := mins s.lines (pa / 256) false } 3 256
  | _ => s

end Sys2Proof.Machine
end

