-- ==== Sys2Proof/Machine/MemInstr.lean ====
section
/-!
DEFINITION. Machine/MemInstr.lean: the memory family: loads, stores, atomics, fences, range maintenance, gauge words,
clusters, spill frames and prefetch (R251, R285 to R303).
-/
namespace Sys2Proof.Machine

/-! ### Ordering (R126, R130, R133) -/

/-- Above every physical and fabric address. -/
def everyAddress : Nat := 2 ^ 57

/-- An acquire at `.fab` scope discards the die's lines of pages with F = 1 (R133). -/
def acquireAt (s : State) (sc : Scope) : State :=
  if sc = .fab then cleanPeer s (some (s.g.core / 128)) 0 everyAddress true else s

/-- A release drains the group's queue, and at `.fab` scope writes back the lines of pages with F = 1 (R126, R133). -/
def releaseAt (s : State) (sc : Scope) : State :=
  let s := drainStores s
  if sc = .fab then cleanPeer s (some (s.g.core / 128)) 0 everyAddress false else s

/-- The acquire of a qualified load. -/
def acquireOf (s : State) : Ordf → State
  | .qual sc => acquireAt s sc
  | _ => s

/-- The release of a qualified store, which has entered the queue. -/
def releaseOf (s : State) : Ordf → State
  | .qual sc => releaseAt s sc
  | _ => s

/-! ### Places and bytes of one instruction -/

/-- The effective addresses of the lanes, from a checked base (R95). -/
def laneEa (s : State) (spc : Space) (base : Dword) (idx : Opnd) (imm : BitVec 16) (l : Nat) : Nat :=
  effAddr spc base (srcLane s idx l) imm

/-- The base and the places of the active lanes' accesses (R95, R102, R381). -/
def placeLanes (s : State) (spc : Space) (base idx : Opnd) (imm : BitVec 16) (n need : Nat) :
    Except Raise (Dword × List (Nat × Loc)) := do
  let b ← baseOf s spc base
  let ls ← resolveLanes s spc (laneEa s spc b idx imm) n need
  .ok (b, ls)

/-- The address and the place of the one access of a group; `idx` is read as one uniform value (R251, R285). -/
def placeOne (s : State) (spc : Space) (base idx : Opnd) (imm : BitVec 16) (n need : Nat) : Except Raise (Nat × Loc) := do
  let b ← baseOf s spc base
  let x ← uni s 3 idx
  let ea : Nat := effAddr spc b x imm
  let l ← resolveOne s spc ea n need
  .ok (ea, l)

/-- The bytes of each lane's access, or the cause of consuming poison in the lanes that would (R394). -/
def lanesBytes (s : State) (spc : Space) (ea : Nat → Nat) (n : Nat) (ls : List (Nat × Loc)) :
    Except Raise (List (Nat × List Byte)) :=
  let rs := ls.map fun e => (e.1, accessBytes s e.2 n)
  let bad := rs.filter fun r => r.2.any (·.2)
  match bad.head? with
  | none => .ok (rs.map fun r => (r.1, r.2.map (·.1)))
  | some b =>
      .error (poisonRaise spc (maskOf fun l => bad.any fun r => r.1 == l) (ea b.1)
        (tabulate fun l => if ls.any fun e => e.1 == l then w32 (ea l) else 0))

/-- The bytes of one access of the group, or the cause of consuming poison, with TRAPMASK 0. -/
def oneBytes (s : State) (spc : Space) (ea n : Nat) (l : Loc) : Except Raise (List Byte) :=
  let bs := accessBytes s l n
  if bs.any (·.2) then .error (poisonRaise spc 0 ea []) else .ok (bs.map (·.1))

/-- An instruction that reads places issues; where one is a poisoned sector in another team's window, that team is lost
and the instruction stays (R400). -/
def issueRead (i : Instr) (ls : List (Loc × Nat)) (r : Except Raise Effect) (s : State) : Out :=
  match poisonedWindow s ls with
  | some t => .next (loseTeam s t 0x600 1)
  | none => issue i r s

/-- With no active lane nothing changes and the flag clears at once (R286). -/
def issueIdle (i : Instr) (s : State) : Out := .next (finishShort i (.of s))

/-- Registers that an access width fills. -/
def widthRegs : MWidth → Nat
  | .b64 => 2
  | .b128 => 4
  | _ => 1

/-- Register `k` of the value that a load's bytes give (R287). -/
def loadValue (w : MWidth) (bs : List Byte) (k : Nat) : Word :=
  match w with
  | .s8 => (BitVec.ofNat 8 (leNat bs)).signExtend 32
  | .s16 => (BitVec.ofNat 16 (leNat bs)).signExtend 32
  | _ => w32 (leNat ((bs.drop (4 * k)).take 4))

/-- The value of lane `l` in a list of lanes and values. -/
def laneBytes (rs : List (Nat × List Byte)) (l : Nat) : List Byte :=
  ((rs.find? fun r => r.1 == l).map (·.2)).getD []

/-! ### `ld` and `st` (R287, R288) -/

/-- The effect of a load of the active lanes. -/
def loadEffect (s : State) (spc : Space) (w : MWidth) (data : Opnd) (ea : Nat → Nat) (ls : List (Nat × Loc)) :
    Except Raise Effect := do
  let n : Nat := widthBytes w
  let rs ← lanesBytes s spc ea n ls
  let ws := (List.range (widthRegs w)).map fun k =>
    vecWrite s (regNo data + k) (fun _ => .general) fun l => loadValue w (laneBytes rs l) k
  .ok { Effect.write s ws with
        events := (rs.map fun r => readEvents spc (some r.1) (ea r.1) r.2).flatten }

/-- `ld` (R286, R287). -/
def execLd (spc : Space) (w : MWidth) (data base idx : Opnd) (imm : BitVec 16) (o : Ordf) (s : State) : Out :=
  let i : Instr := .ld spc w data base idx imm o
  if execMask s = 0 then issueIdle i s
  else
    match placeLanes s spc base idx imm (widthBytes w) 1 with
    | .error r => issue i (.error r) s
    | .ok (b, ls) =>
        let s' := countReads (acquireOf s o) (ls.map fun e => (e.2, widthBytes w))
        issueRead i (ls.map fun e => (e.2, widthBytes w)) (loadEffect s' spc w data (laneEa s spc b idx imm) ls) s'

/-- The bytes that lane `l` stores (R288). -/
def storeBytes (s : State) (w : MWidth) (data : Opnd) (l : Nat) : List Byte :=
  match w with
  | .b64 => leBytes 8 (srcPair s data l).toNat
  | .b128 => ((List.range 4).map fun k => leBytes 4 (readV s (regNo data + k) l).toNat).flatten
  | w => leBytes (widthBytes w) (srcLane s data l).toNat

/-- The effect of a store of the active lanes; where lanes meet on a byte the higher one's value stands (R106). -/
def storeEffect (s : State) (spc : Space) (w : MWidth) (data : Opnd) (ea : Nat → Nat) (o : Ordf)
    (ls : List (Nat × Loc)) : Effect :=
  let s' := pushStore s spc (ls.map fun e => cellsOf e.2 (storeBytes s w data e.1)).flatten
  { Effect.of (releaseOf s' o) with
    events := (ls.map fun e => writeEvents spc (some e.1) (ea e.1) (storeBytes s w data e.1)).flatten }

/-- `st` (R286, R288). -/
def execSt (spc : Space) (w : MWidth) (data base idx : Opnd) (imm : BitVec 16) (o : Ordf) (s : State) : Out :=
  let i : Instr := .st spc w data base idx imm o
  if execMask s = 0 then issueIdle i s
  else
    issue i ((placeLanes s spc base idx imm (widthBytes w) 2).map fun r =>
      storeEffect s spc w data (laneEa s spc r.1 idx imm) o r.2) s

/-- The value that a scalar store stores (R251); a vector register or pair is read as one uniform value (R53). -/
def scaBytes (s : State) (w : MWidth) (data : Opnd) : Except Raise (List Byte) :=
  match w with
  | .b64 => (uniPair s 1 data).map fun x => leBytes 8 x.toNat
  | .b128 => .ok ((readRun s (regNo data) 4).map fun x => leBytes 4 x.toNat).flatten
  | w => (uni s 1 data).map fun x => leBytes (widthBytes w) x.toNat

/-- The effect of a scalar load. -/
def scaLoadEffect (s : State) (spc : Space) (w : MWidth) (data : Opnd) (ea : Nat) (l : Loc) : Except Raise Effect := do
  let bs ← oneBytes s spc ea (widthBytes w) l
  .ok { Effect.write s (scaRun (regNo data) ((List.range (widthRegs w)).map (loadValue w bs))) with
        events := readEvents spc none ea bs }

/-- `s.ld` (R251). -/
def execSLd (spc : Space) (w : MWidth) (data base idx : Opnd) (imm : BitVec 16) (o : Ordf) (s : State) : Out :=
  let i : Instr := .sLd spc w data base idx imm o
  match placeOne s spc base idx imm (widthBytes w) 1 with
  | .error r => issue i (.error r) s
  | .ok (ea, l) =>
      let s' := countReads (acquireOf s o) [(l, widthBytes w)]
      issueRead i [(l, widthBytes w)] (scaLoadEffect s' spc w data ea l) s'

/-- `s.st` (R251). -/
def execSSt (spc : Space) (w : MWidth) (data base idx : Opnd) (imm : BitVec 16) (o : Ordf) (s : State) : Out :=
  issue (.sSt spc w data base idx imm o) (do
    let bs ← scaBytes s w data
    let r ← placeOne s spc base idx imm (widthBytes w) 2
    .ok { Effect.of (releaseOf (pushStore s spc (cellsOf r.2 bs)) o) with events := writeEvents spc none r.1 bs }) s

/-! ### Atomics (R290 to R293) -/

/-- The new value of an atomic of `n` bytes (R291). -/
def atomValue (op : AOp) (sgn : Bool) (n old x : Nat) : Nat :=
  let key (v : Nat) : Int := if sgn ∧ v ≥ 2 ^ (8 * n - 1) then (v : Int) - 2 ^ (8 * n) else v
  match op with
  | .add => (old + x) % 2 ^ (8 * n)
  | .and => old &&& x
  | .or => old ||| x
  | .xor => old ^^^ x
  | .min => if key x < key old then x else old
  | .max => if key old < key x then x else old
  | .exch => x

/-- A place ready for an atomic (R125, R147): its sluiced block is filled into the cache, and a die's own line of a page
with F = 1 is gone. -/
def readyAtomic (s : State) (l : Loc) : State :=
  match l.home, bindingAt s.vd l.va with
  | .main, some (_, sl) => (cacheBlock s sl l.addr l.va).1
  | _, _ => atHome s l

/-- One lane after another reads its place and writes what `f` makes of the old value, if anything (R293): the state, the
old values and the events. -/
def atomLanes (s : State) (spc : Space) (ea : Nat → Nat) (n : Nat) (f : Nat → Nat → Option Nat)
    (ls : List (Nat × Loc)) : State × List (Nat × Nat) × List Watch :=
  ls.foldl (fun r e =>
    let bs := (accessBytes r.1 e.2 n).map (·.1)
    let old : Nat := leNat bs
    let seen := r.2.2 ++ readEvents spc (some e.1) (ea e.1) bs
    let olds := r.2.1 ++ [(e.1, old)]
    match f e.1 old with
    | some x =>
        (putHome r.1 e.2 (cellsOf e.2 (leBytes n x)), olds, seen ++ writeEvents spc (some e.1) (ea e.1) (leBytes n x))
    | none => (r.1, olds, seen)) (s, [], [])

/-- The places of an atomic's lanes are ready, and what it reads has moved (R125, R147, R353). -/
def readyLanes (s : State) (n : Nat) (ls : List (Nat × Loc)) : State :=
  countReads (ls.foldl (fun s e => readyAtomic s e.2) s) (ls.map fun e => (e.2, n))

/-- The effect of an atomic, in the state in which the group's queue has drained and its places are ready. -/
def atomEffect (s : State) (spc : Space) (data : Opnd) (ea : Nat → Nat) (n : Nat) (f : Nat → Nat → Option Nat)
    (ls : List (Nat × Loc)) : Except Raise Effect := do
  let _ ← lanesBytes s spc ea n ls
  let r := atomLanes s spc ea n f ls
  let old (l : Nat) : Nat := ((r.2.1.find? fun x => x.1 == l).map (·.2)).getD 0
  let ws := (List.range (n / 4)).map fun k =>
    vecWrite s (regNo data + k) (fun _ => .general) fun l => w32 (old l / 2 ^ (32 * k))
  .ok { Effect.write r.1 ws with events := r.2.2 }

/-- The ordering of an atomic: it drains the queue, and a qualified one is an acquire, a release or both (R126, R291). -/
def atomOrder (s : State) (k : AKind) (o : Ordf) : State :=
  let s := drainStores s
  match o, k with
  | .qual sc, .acq => acquireAt s sc
  | .qual sc, .rel => releaseAt s sc
  | .qual sc, .ar => acquireAt (releaseAt s sc) sc
  | _, _ => s

/-- An atomic of the active lanes. -/
def atomIssue (i : Instr) (spc : Space) (data base idx : Opnd) (n : Nat) (k : AKind) (o : Ordf)
    (f : Nat → Nat → Option Nat) (s : State) : Out :=
  if execMask s = 0 then issueIdle i s
  else
    match placeLanes s spc base idx 0 n 3 with
    | .error r => issue i (.error r) s
    | .ok (b, ls) =>
        let s' := readyLanes (atomOrder s k o) n ls
        issueRead i (ls.map fun e => (e.2, n)) (atomEffect s' spc data (laneEa s spc b idx 0) n f ls) s'

/-- `atom` (R291). -/
def execAtom (spc : Space) (wide : Bool) (op : AOp) (sgn : Bool) (data base idx : Opnd) (k : AKind) (o : Ordf)
    (s : State) : Out :=
  let n : Nat := if wide then 8 else 4
  let x (l : Nat) : Nat := if wide then (srcPair s data l).toNat else (srcLane s data l).toNat
  atomIssue (.atom spc wide op sgn data base idx k o) spc data base idx n k o
    (fun l old => some (atomValue op sgn n old (x l))) s

/-- `atom.cas` (R292). -/
def execAtomCas (spc : Space) (wide : Bool) (data base idx : Opnd) (k : AKind) (o : Ordf) (s : State) : Out :=
  let d : Nat := regNo data
  let cmp (l : Nat) : Nat := if wide then (srcPair s data l).toNat else (srcLane s data l).toNat
  let new (l : Nat) : Nat := if wide then (srcPair s (.v (d + 2)) l).toNat else (readV s (d + 1) l).toNat
  atomIssue (.atomCas spc wide data base idx k o) spc data base idx (if wide then 8 else 4) k o
    (fun l old => if old = cmp l then some (new l) else none) s

/-! ### Fences and ranges (R294, R296) -/

/-- `fence` (R294). -/
def execFence (k : FKind) (sc : Scope) (s : State) : Out :=
  let s' := drainStores s
  let s' := if k = .acq then s' else releaseAt s' sc
  let s' := if k = .rel then s' else acquireAt s' sc
  issue (.fence k sc) (.ok (.of s')) s

/-- `wb` and `inv`: the queue drains before any line is looked at (R296). -/
def rangeIssue (i : Instr) (len base : Opnd) (imm : BitVec 16) (drop : Bool) (s : State) : Out :=
  issue i (do
    let n ← uni s 1 len
    let b ← uniPair s 2 base
    let lo : Nat := effAddr .g b 0 imm
    match rangeFault s lo n.toNat with
    | some r => .error r
    | none => .ok (.of (cleanVirtual (drainStores s) lo n.toNat drop))) s

/-- `wb` (R119, R296). -/
def execWb (len base : Opnd) (imm : BitVec 16) (s : State) : Out := rangeIssue (.wb len base imm) len base imm false s
/-- `inv` (R120, R296). -/
def execInv (len base : Opnd) (imm : BitVec 16) (s : State) : Out := rangeIssue (.inv len base imm) len base imm true s

/-! ### Gauge words (R111 to R113, R297 to R299) -/

/-- The word after an arrival of `n` bytes from device `vd`, or none where it is discarded (R112). -/
def gaugeArrive (g vd n : Nat) : Option Nat :=
  if g / 2 ^ 127 % 2 = 0 ∨ g / 2 ^ 96 % 64 ≠ vd then none
  else
    let target : Nat := g % 2 ^ 32
    let count : Nat := (g / 2 ^ 32 % 2 ^ 32 + n) % 2 ^ 32
    let laps : Nat := if target = 0 then 0 else count / target
    some (setField (setField g 32 32 (count - laps * target)) 64 32 (g / 2 ^ 64 % 2 ^ 32 + laps))

/-- The place of a gauge word ready for an update, and what its read moves (R125, R147, R353). -/
def readyGauge (s : State) (l : Loc) : State := countReads (readyAtomic s l) [(l, 16)]

/-- An instruction on a gauge word: its place, and its effect once the queue has drained and the word is at its home. -/
def gaugeIssue (i : Instr) (spc : Space) (x : Except Raise Word) (base idx : Opnd) (imm : BitVec 16)
    (f : State → Nat → Loc → Word → Effect) (s : State) : Out :=
  match (do let v ← x; let p ← placeOne s spc base idx imm 16 3; .ok (v, p)) with
  | .error r => issue i (.error r) s
  | .ok (v, ea, l) =>
      let s' := readyGauge (drainStores s) l
      issueRead i [(l, 16)] ((oneBytes s' spc ea 16 l).map fun _ => f s' ea l v) s'

/-- `gauge.set` (R297). -/
def execGaugeSet (spc : Space) (t base idx : Opnd) (imm : BitVec 16) (s : State) : Out :=
  gaugeIssue (.gaugeSet spc t base idx imm) spc (uni s 1 t) base idx imm
    (fun s _ l x =>
      let g : Nat := setField (setField (gaugeAt s l) 0 32 x.toNat) 32 32 0
      .of (putGauge s l (setField (setField g 96 6 s.vd.number) 127 1 1))) s

/-- `gauge.set.off` (R297). -/
def execGaugeSetOff (spc : Space) (base idx : Opnd) (imm : BitVec 16) (s : State) : Out :=
  gaugeIssue (.gaugeSetOff spc base idx imm) spc (.ok 0) base idx imm
    (fun s _ l _ => .of (putGauge s l (setField (gaugeAt s l) 127 1 0))) s

/-- `gauge.add` (R298): an atomic on the word (R125), so a load of it and, where it writes it, a store (R410;
notes/assumptions/84.md). -/
def execGaugeAdd (spc : Space) (n base idx : Opnd) (imm : BitVec 16) (s : State) : Out :=
  gaugeIssue (.gaugeAdd spc n base idx imm) spc (uni s 1 n) base idx imm
    (fun s ea l x =>
      let old : Nat := gaugeAt s l
      let seen := readEvents spc none ea (leBytes 16 old)
      match gaugeArrive old s.vd.number x.toNat with
      | some g => { Effect.of (putGauge s l g) with events := seen ++ writeEvents spc none ea (leBytes 16 g) }
      | none => { Effect.of s with events := seen }) s

/-- The generation that a wait needs has come (R112). -/
def gaugeReached (g : Nat) (w : Word) : Bool := decide (0 ≤ (w32 (g / 2 ^ 64) - w).toInt)

/-- The waits on gauge words of the slot in focus are over: the words' W bits follow (R299). -/
def dropGauger (s : State) : State := dropWaits s fun w => decide (w.2 = me s)

/-- `gauge.wait` (R299): the slot waits with its port released until the generation has come, or the word proves poisoned
(R394, R404). -/
def execGaugeWait (spc : Space) (w base idx : Opnd) (imm : BitVec 16) (s : State) : Out :=
  let i : Instr := .gaugeWait spc w base idx imm
  match (do let v ← uni s 1 w; let p ← placeOne s spc base idx imm 16 1; .ok (v, p)) with
  | .error r => issue i (.error r) (dropGauger s)
  | .ok (v, ea, l) =>
      let s' := dropGauger (drainStores s)
      if gaugePoison s' l ∨ gaugeReached (gaugeAt s' l) v then
        let s' := countReads s' [(l, 16)]
        issueRead i [(l, 16)] ((oneBytes s' spc ea 16 l).map fun _ => .of s') s'
      else
        let s' := readyGauge s' l
        let s' := { s' with team := { s'.team with gaugers := s'.team.gaugers ++ [(l, me s')] } }
        .next (pauseAs (showPending s' l) .gauge)

/-! ### Clusters (R107 to R110, R300) -/

/-- The members of the cluster of a key on the die of the team in focus. -/
def clusterOf (s : State) (k : Word) : List (TRef × Nat) :=
  (allTeams s).filterMap fun t =>
    match t.cluster with
    | some (k', m) => if k' = k ∧ t.ref.vd = s.team.ref.vd ∧ t.die = s.team.die then some (t.ref, m) else none
    | none => none

/-- The teams that are pre-empted, saved and resumed together with one (R110). -/
def together (s : State) (t : Team) : List TRef :=
  match t.cluster with
  | none => [t.ref]
  | some (k, _) => ((allTeams s).filter fun x =>
      x.ref.vd == t.ref.vd && x.die == t.die && (x.cluster.map (·.1) == some k)).map (·.ref)

/-- A pre-emption request for a team and those of its cluster: groups that wait at a barrier stop (R200). -/
def requestStop (s : State) (t : TRef) (at_ : Nat) (forced : Bool) : State :=
  match teamOf s t with
  | none => s
  | some x =>
      let ts := (together s x).filter fun r => (teamOf s r).any Team.resident
      let s := onTeams s (fun y => ts.contains y.ref && (y.request.isNone || forced)) fun y => { y with request := some (at_, forced) }
      onGroups s (fun g => ts.contains g.ref.team && (g.a.atBarrier || g.b.atBarrier)) fun g => { g.release with stopped := true }

/-- A pre-emption request for a member of the team's cluster becomes one for all of it (R110). -/
def spreadRequest (s : State) : State :=
  match (together s s.team).findSome? fun r => (teamOf s r).bind (·.request) with
  | some (at_, forced) => requestStop s s.team.ref at_ forced
  | none => s

/-- `cl.join` (R107, R300). It drains the queue as an atomic does, whatever its result (R125, R126). A team that joins members
which are saved goes on while they stay so, and reaches their windows (R110; notes/assumptions/38.md). -/
def execClJoin (d k : Opnd) (s : State) : Out :=
  issue (.clJoin d k) (do
    let key ← uni s 2 k
    let give (s : State) (x : Word) : Except Raise Effect := .ok (.write s [.sca (regNo d) x])
    let s := drainStores s
    match s.team.cluster with
    | some (k', m) => if k' = key then give s (w32 m) else .error (.plain 0x20a 0)
    | none =>
        let ms := clusterOf s key
        match (List.range 16).find? fun m => !(ms.any fun e => e.2 == m) with
        | none => give s 0xffffffff
        | some m =>
            let s := onTeams s (fun t => ms.any fun e => decide (e.1 = t.ref)) fun t =>
              { t with revoked := sdel t.revoked m }
            give (spreadRequest { s with team := { s.team with cluster := some (key, m), revoked := [] } }) (w32 m)) s

/-- The team in focus leaves its cluster, after the accesses that are under way (R109). -/
def leaveCluster (s : State) : State :=
  match s.team.cluster with
  | none => s
  | some (k, m) =>
      let ms := (clusterOf s k).map (·.1)
      let s := ms.foldl (fun s t => withTeam s t drainTeam) s
      let s := onTeams s (fun t => ms.contains t.ref) fun t => { t with revoked := sadd t.revoked m }
      { s with team := { s.team with cluster := none, revoked := List.range 16 } }

/-- `cl.leave` (R109, R300). -/
def execClLeave (s : State) : Out := issue .clLeave (.ok (.of (leaveCluster s))) s

/-! ### Spill frames (R301 to R303) -/

/-- Bytes of the body of a frame of `n` registers from an operand. -/
def frameBody (o : Opnd) (n : Nat) : Nat :=
  match o with
  | .v _ => 128 * n
  | _ => (4 * n + 15) / 16 * 16

/-- The header of a frame (R301). -/
def frameHeader (s : State) (o : Opnd) (nm1 : BitVec 4) : SumpEntry :=
  { low := pack [(0, 43), (nm1.toNat, 4), (Opnd.code o, 10)]
    mask := match o with
      | .v _ => execMask s
      | _ => 0
    why := 3, own := s.slot }

/-- The words of a frame's body that a push writes: offset in the body and value (R302). -/
def frameWords (s : State) (o : Opnd) (n : Nat) : List (Nat × Word) :=
  ((List.range n).map fun k =>
    match o with
    | .v r => (lanes32.filter (laneOn (execMask s))).map fun l => (128 * k + 4 * l, readV s (r + k) l)
    | o => [(4 * k, readS s (regNo o + k))]).flatten

/-- The words of a frame's header at an offset of the sump: their offsets and values (R301). -/
def headerWords (top : Nat) (e : SumpEntry) : List (Nat × List Byte) :=
  (List.range 4).map fun k => (top + 4 * k, ((entryBytes e).drop (4 * k)).take 4)

/-- The bytes of a frame that a push writes, at their offsets on the sump: its words and its header (R301, R302). -/
def frameCells (top body : Nat) (ws : List (Nat × Word)) (e : SumpEntry) : List (Nat × Byte) :=
  let at_ (off : Nat) (bs : List Byte) : List (Nat × Byte) := (List.range bs.length).map fun i => (off + i, bs.getD i 0)
  (ws.map fun w => at_ (top + w.1) (leBytes 4 w.2.toNat)).flatten ++ at_ (top + body) (entryBytes e)

/-- `push` (R302): one instruction writes the words and the header, so sectors that they cover whole lose their poison
(R393), and all of them are stores to `.sp` that canaries see (R410). -/
def execPush (a : Opnd) (nm1 : BitVec 4) (s : State) : Out :=
  let n : Nat := nm1.toNat + 1
  let top : Nat := s.g.sumpTop
  let body : Nat := frameBody a n
  issue (.push a nm1)
    (if top + body + 16 > sumpRoom s then .error (.plain 0x300 0)
     else
       let ws := frameWords s a n
       let s' := putSumps s (frameCells top body ws (frameHeader s a nm1))
       .ok { Effect.of { s' with g := { s'.g with sumpTop := top + body + 16 } } with
             events := ((ws.map fun w => (top + w.1, leBytes 4 w.2.toNat)) ++ headerWords (top + body) (frameHeader s a nm1)).flatMap
               fun w => writeEvents .sp none w.1 w.2 }) s

/-- The registers that a `pop` restores from a body at `base`, and the offsets it reads by lane (R303). -/
def popWrites (s : State) (o : Opnd) (n base : Nat) : List RegWrite :=
  let word (k : Nat) : Word := w32 (leNat (sumpBytes s (base + k) 4))
  match o with
  | .v r => (List.range n).map fun k => vecWrite s (r + k) (fun _ => .general) fun l => word (128 * k + 4 * l)
  | o => scaRun (regNo o) ((List.range n).map fun k => word (4 * k))

/-- The offsets in the body that a `pop` reads, with the lane where it is a vector frame. -/
def popReads (s : State) (o : Opnd) (n : Nat) : List (Option Nat × Nat) :=
  ((List.range n).map fun k =>
    match o with
    | .v _ => (lanes32.filter (laneOn (execMask s))).map fun l => (some l, 128 * k + 4 * l)
    | _ => [(none, 4 * k)]).flatten

/-- The poison that a `pop` would consume in a frame's body: the lanes that read it, and the address of the lowest of them
(R394). -/
def popPoison (s : State) (o : Opnd) (n base : Nat) : Option Raise :=
  let bad := (popReads s o n).filter fun r => sumpPoison s (base + r.2)
  let lanes := maskOf fun l => bad.any fun x => x.1 == some l
  (bad.find? fun r => r.1 == lowest lanes).map fun r => poisonRaise .sp lanes (base + r.2) []

/-- NM1 and FIRST of a frame header, which a `pop` compares (R301, R303). -/
def SumpEntry.frame (e : SumpEntry) : Nat := e.low / 2 ^ 43 % 2 ^ 14

/-- `pop` (R303, R380): what it reads of the body and the header are loads of `.sp` (R410). -/
def execPop (d : Opnd) (nm1 : BitVec 4) (s : State) : Out :=
  let n : Nat := nm1.toNat + 1
  let top : Nat := s.g.sumpTop
  let base : Nat := top - (frameBody d n + 16)
  issue (.pop d nm1)
    (match sumpTopEntry s with
     | none => .error (.plain 0x301 0)
     | some e =>
         if sumpPoison s (top - 16) then .error (sumpRaise (top - 16))
         else if e.why ≠ 3 ∨ e.own ≠ s.slot ∨ e.frame ≠ (frameHeader s d nm1).frame then .error (.plain 0x302 0)
         else
           match popPoison s d n base with
           | some r => .error r
           | none =>
               .ok { Effect.write { s with g := { s.g with sumpTop := base } } (popWrites s d n base) with
                     events := ((popReads s d n).map (fun r => base + r.2) ++ (List.range 4).map fun k => top - 16 + 4 * k).flatMap
                       fun off => readEvents .sp none off (sumpBytes s off 4) }) s

/-! ### Prefetch (R295) -/

/-- `pfetch` (R295): a line is filled where the address can be read, and dropped elsewhere; it never faults past decode
(R381), so a base that is not uniform prefetches nothing (notes/assumptions/60.md). -/
def execPfetch (base idx : Opnd) (imm : BitVec 16) (o : Ordf) (s : State) : Out :=
  let i : Instr := .pfetch base idx imm o
  if execMask s = 0 then issueIdle i s
  else
    issue i (.ok (.of (match baseOf s .g base with
      | .ok b => (lanes32.filter (laneOn (execMask s))).foldl (fun t l =>
          let ea : Nat := laneEa s .g b idx imm l
          if ea < 2 ^ 57 then fillLine t ea else t) s
      | .error _ => s))) s

end Sys2Proof.Machine
end

