-- ==== Sys2Proof/Machine/Record.lean ====
section
/-!
DEFINITION. Machine/Record.lean: the bytes of a saved team (R57, R178): group records, the team record and what follows them.
-/
namespace Sys2Proof.Machine

/-- A team reference (R418). -/
def refWord (t : TRef) : Dword := w64 (t.vd * 2 ^ 58 + t.serial)

/-- The key of an accumulator element. -/
def tileKey (c sub tile row col : Nat) : Nat := ((c * 4 + sub) * 2 + tile) * 16384 + row * 128 + col

def tileAt (t : Team) (c sub tile row col : Nat) : Word := mget 0 t.tiles (tileKey c sub tile row col)

def wordBytes (ws : List Word) : List Byte := (ws.map fun w => leBytes 4 w.toNat).flatten

/-- Bytes with zeros up to a length. -/
def padTo (n : Nat) (bs : List Byte) : List Byte := bs ++ List.replicate (n - bs.length) 0

def budgetIn (t : Team) (g : Group) : RoleDecl := t.kernel.roles.getD g.role { groups := 0, vregs := 0, sregs := 0 }

/-! ### Group records -/

/-- A pending cause as a group record holds it: its fields from offset 256 of the header. -/
def pendingBytes (g : Group) : List Byte :=
  match g.pendA <|> g.pendB with
  | none => List.replicate 64 0
  | some c =>
      leBytes 64 (pack [((causeWord c 0).toNat, 32), (c.mask.toNat, 32), (c.pc.toNat, 64), (c.next.toNat, 64), (c.dst.toNat, 32),
        (pack (lanes32.map fun l => ((laneAt c.lanes l).toNat, 5)), 160)])

/-- The 320-byte header of a group record (R178), in the privileged view, in which PRIV.SUP is 1 (R66, R70). -/
def recordHeader (g : Group) : List Byte :=
  let at_ (p : PcSlot) : Nat :=
    if p.live then (if p.stand = .arrived ∨ p.stand = .header then p.pc else p.hdr).toNat else 0
  let parked := decide (g.parked ≠ 0)
  leBytes 256 (pack ([(g.a.pc.toNat, 64), (g.a.mask.toNat, 32), (g.b.mask.toNat, 32), (g.b.pc.toNat, 64),
    (g.exited.toNat, 32), (g.idx, 16), (g.role, 16)] ++ ((List.range 16).map fun n => ((hreg g n).toNat, 64))
    ++ [(g.trappc.toNat, 64), (g.trapnext.toNat, 64), (g.trapaddr.toNat, 64), (g.trapvec.toNat, 64), (g.fpc.toNat, 32),
      (g.fps.toNat, 32), (g.sts.toNat, 32), ((g.priv ||| 1).toNat, 32), (g.trapmask.toNat, 32), (g.trapcause.toNat, 32),
      (g.trapdst.toNat, 32), (g.sumpTop, 32), (g.parked.toNat, 32),
      ((if parked then slotBit g.parkFrom else 0) + 2 * g.halted.toNat, 32), (if parked then g.parkPc.toNat else 0, 64),
      (at_ g.a, 64), (at_ g.b, 64)]))
    ++ pendingBytes g

/-- The descriptor code of a slice of eight lanes (R55, R178): how wide every lane's distance from the first is. -/
def sliceCode (xs : List Word) : Nat :=
  let near (w : Nat) : Bool := xs.all fun x => let d := (x - xs.headD 0).toInt; decide (-(2 ^ (w - 1)) ≤ d) && decide (d < 2 ^ (w - 1))
  if near 8 then 0 else if near 16 then 1 else 2

/-- The bytes of a slice. -/
def sliceBytes (xs : List Word) : List Byte :=
  let base := xs.headD 0
  let deltas (n : Nat) : List Byte := (xs.map fun x => leBytes n (x - base).toNat).flatten
  match sliceCode xs with
  | 0 => leBytes 4 base.toNat ++ deltas 1
  | 1 => leBytes 4 base.toNat ++ deltas 2
  | _ => wordBytes xs

/-- The image of a vector register of a group (R57, R178). -/
def regImage (g : Group) (r : VReg) : List Byte :=
  match r.tag with
  | .uniform u => leBytes 4 u.toNat
  | .affine b d => leBytes 4 b.toNat ++ leBytes 4 d.toNat
  | .zero => []
  | .general =>
      let slice (k : Nat) : List Word := (List.range 8).map fun i => laneAt r.lanes (8 * k + i)
      let ks := (List.range 4).filter fun k => (List.range 8).any fun i => laneOn g.present (8 * k + i)
      leBytes 1 (ks.foldl (fun n k => n + 4 ^ k * sliceCode (slice k)) 0) ++ (ks.map fun k => sliceBytes (slice k)).flatten

/-- The record of a group of a team. -/
def groupRecord (t : Team) (g : Group) : List Byte :=
  let b := budgetIn t g
  let rs := (List.range b.vregs).map (vreg g)
  recordHeader g ++ wordBytes ((List.range b.sregs).map (sreg g)) ++ leBytes (b.vregs / 4) (pack (rs.map fun r => (r.tag.code, 2)))
    ++ (rs.map (regImage g)).flatten

/-! ### The team record -/

/-- What a save holds of a team's shared memory and tiles: blocks of 256 bytes by number, and tiles by number. -/
structure SaveSet where
  blocks : List Nat
  tiles : List Nat
  deriving DecidableEq, Repr

/-- The sequencer state of a sub-core: its queued passes. A queued `mzero`, for which R178 names no field, is a valid entry
whose M0 to M2 are zero (notes/assumptions/86.md). -/
def sequencerBytes (t : Team) (c sub : Nat) : List Byte :=
  let ps := ((mget [] t.passes c).filter fun p => p.subs.contains sub).take 4
  padTo 128 (ps.map fun p => leBytes 32 (pack [(p.m0.toNat, 32), (p.m1.toNat, 32), (p.m2.toNat, 32),
    (p.step % 256 + (if p.handle = 0 then 0 else 2 ^ 30) + 2 ^ 31, 32), (p.handle.toNat, 64)])).flatten

/-- Arrival marks of a thread: a bit for each barrier at which it has arrived in the current phase. -/
def markBits (t : Team) (g : Group) (l : Nat) : Nat :=
  (List.range 16).foldl (fun n k =>
    if mget? g.marks (32 * k + l) = some (mget 0 t.phases k) then n + 2 ^ k else n) 0

/-- Threads of a team (R19, R20). -/
def Team.threads (t : Team) : Nat := 32 * t.cores.length * (t.kernel.roles.foldl (fun n r => n + r.groups) 0)

/-- The arrival marks in `%tid` order; a lane that holds no thread has none. -/
def markBytes (t : Team) (gs : List Group) : List Byte :=
  let all : SMap Nat := gs.foldl (fun m g => lanes32.foldl (fun m l => mins m (natAt g.tids l) (markBits t g l)) m) []
  ((List.range t.threads).map fun n => leBytes 2 (mget 0 all n)).flatten

/-- The header part of the team record, padded to a multiple of 256 bytes. -/
def teamHeader (t : Team) (gs : List Group) (bank : SMap Canary) (keep : SaveSet) : List Byte :=
  let c := t.cores.length
  let bs := leBytes 128 (pack ([((refWord t.ref).toNat, 64)] ++ (List.range 3).map (fun k => (natAt t.counts k, 64))
      ++ (List.range 16).map (fun n => ((mget 0 t.phases n).toNat, 32))
      ++ [((t.cluster.map fun x => x.1.toNat).getD 0, 32), ((t.cluster.map fun x => 2 ^ 31 + x.2).getD 0, 32), (c, 16), (gs.length, 16),
        (keep.tiles.foldl (fun n k => n + 2 ^ k) 0, 32)]))
    ++ ((List.range 16).map fun n => match mget? bank n with
      | some x => leBytes 16 x.word.toNat ++ leBytes 4 x.hits.toNat
      | none => List.replicate 20 0).flatten
    ++ leBytes (128 * c) (keep.blocks.foldl (fun n k => n + 2 ^ k) 0)
    ++ ((List.range c).map fun i => ((List.range 4).map (sequencerBytes t i)).flatten).flatten
    ++ markBytes t gs
  padTo ((bs.length + 255) / 256 * 256) bs

/-- The bytes of a saved team: its group records, its record, the saved blocks of shared memory and the saved tiles. -/
def teamImage (t : Team) (gs : List Group) (bank : SMap Canary) (keep : SaveSet) : List Byte :=
  (gs.map (groupRecord t)).flatten ++ teamHeader t gs bank keep
    ++ (keep.blocks.map fun k => (List.range 256).map fun i => mget 0 t.shared (256 * k + i)).flatten
    ++ ((List.range t.cores.length).map fun c => ((List.range 4).map fun sub => (keep.tiles.map fun tile =>
        wordBytes ((List.range 16384).map fun n => tileAt t c sub tile (n / 128) (n % 128))).flatten).flatten).flatten

/-! ### The save area (R179, R180) -/

def savePart : Nat := 0

/-- A length in whole blocks of the save area. -/
def saveBlocks (n : Nat) : Nat := (n + 255) / 256 * 256

/-- The free pieces of the range from `lo` to `hi`, beside taken ones, which rise: start and length. -/
def gapsFrom (hi : Nat) : Nat → SMap Nat → List (Nat × Nat)
  | lo, [] => if lo < hi then [(lo, hi - lo)] else []
  | lo, (a, b) :: t => (if lo < a then [(lo, a - lo)] else []) ++ gapsFrom hi (max lo b) t

/-- The first of the pieces, `n` bytes in all where they hold so much. -/
def takePieces : Nat → List (Nat × Nat) → List (Nat × Nat)
  | _, [] => []
  | n, (a, k) :: t => if n = 0 then [] else if n ≤ k then [(a, n)] else (a, k) :: takePieces (n - k) t

/-- Room for `n` bytes in the save area of the device in focus, in the pieces that other saves leave. A record needs no one
gap (R179; notes/assumptions/87.md). -/
def saveRoom (s : State) (n : Nat) : List (Nat × Nat) :=
  let used := (((allTeams s).filter fun t => t.ref.vd == s.vd.number).map (·.saved)).flatten
  takePieces n (gapsFrom (5242880 * s.vd.pcores) 0 (used.foldl (fun m p => mins m p.1 (p.1 + saveBlocks p.2)) []))

/-- The hoist writes bytes to the save area; the write crosses the memory ports (R353). -/
def writeSave (s : State) (off : Nat) (bs : List Byte) : State := meter (putRun s (ctxPart s.vd savePart + off) bs) 4 bs.length

/-- The hoist writes a record to its pieces of the save area. -/
def writePieces : List (Nat × Nat) → List Byte → State → State
  | [], _, s => s
  | (a, k) :: t, bs, s => writePieces t (bs.drop k) (writeSave s a (bs.take k))

end Sys2Proof.Machine
end

