-- ==== Sys2Proof/Machine/Sched.lean ====
section
/-!
DEFINITION. Machine/Sched.lean: placement (R184 to R190), the start, stop, save, restore and end of teams (R24, R25,
R177, R178, R200 to R203, R401), and the device schedulers (R197 to R199).
-/
namespace Sys2Proof.Machine

/-! ### Time (R188, R198, R202) -/

def us (n : Nat) : Nat := Config.cyclesPerUs * n
def ms (n : Nat) : Nat := us (1000 * n)

/-! ### Usage (R198, R199, R321, R353) -/

/-- Team-core-cycles of a team that have not been counted yet. -/
def unpaid (s : State) (t : Team) : Nat := if t.resident then t.cores.length * (s.now - t.since) else 0

/-- Uncounted team-core-cycles of a device. -/
def unpaidOf (s : State) (n : Nat) : Nat :=
  ((allTeams s).filter fun t => t.ref.vd == n).foldl (fun a t => a + unpaid s t) 0

/-- Every team's core-cycles up to now are counted for it and for its device. -/
def accrue (s : State) : State :=
  let pay (d : Device) : Device :=
    let n := unpaidOf s d.number
    { d with meters := setAt d.meters 0 (natAt d.meters 0 + n), usage := d.usage + n, budget := d.budget - n }
  let count (t : Team) : Team :=
    if t.resident then { t with counts := setAt t.counts 0 (natAt t.counts 0 + unpaid s t), since := s.now } else t
  { s with vd := pay s.vd, devices := s.devices.map pay, team := count s.team, teams := s.teams.map count }

/-- The usage of a device in the window. -/
def usageNow (s : State) (d : Device) : Nat := d.usage + unpaidOf s d.number

/-- The budget left to a device in the period. -/
def budgetNow (s : State) (d : Device) : Nat := d.budget - unpaidOf s d.number

/-! ### Cores (R188 to R190) -/

/-- A core is hot now: a hot core becomes eligible once it is at most 90 °C and has had no droop for 4 ms. -/
def hotNow (s : State) (c : Core) : Bool :=
  c.hot && !(decide (c.temp.toNat ≤ 720) && !(c.droops.any fun t => decide (s.now ≤ t + ms 4)))

/-- The core's hot state after a reading and an event: it becomes hot where `enter` holds, and stays hot until its reading
is at most 90 °C with no droop for 4 ms (R188). -/
def nextHot (s : State) (c : Core) (x : BitVec 12) (enter : Bool) : Bool := enter || hotNow s { c with hot := hotNow s c, temp := x }

/-- DROOP of a core (R362). -/
def droopCount (s : State) (c : Core) : Nat := min ((c.droops.filter fun t => decide (s.now ≤ t + ms 4)).length) 127

/-- The monitor register of a core and the process word of a die, as the management interface presents them (R362). -/
def cmonOf (s : State) (core : Nat) : Word :=
  let c := coreAt s core
  w32 (pack [(c.temp.toNat, 12), (droopCount s c, 7), ((hotNow s c).toNat, 1)])

def dprocOf (s : State) (die : Nat) : Word :=
  let d := mget Die.fresh s.dies die
  d.vmin ++ d.ring

/-- The counter word ECNT of a die (R392). -/
def ecntOf (s : State) (die : Nat) : Dword :=
  let d := mget Die.fresh s.dies die
  w64 (pack [(d.slcrc, 8), (d.unc, 8), (d.sramc, 16), (d.linkr, 16), (d.memc, 16)])

/-- The score of a core (R190, R362). -/
def scoreOf (s : State) (c : Core) : Nat := c.temp.toNat / 8 + 2 * droopCount s c

/-- Cores of the same die that are adjacent to one (R10). -/
def neighbours (n : Nat) : List Nat :=
  (if n % 8 = 0 then [] else [n - 1]) ++ (if n % 8 = 7 then [] else [n + 1])
    ++ (if n / 8 % 16 = 0 then [] else [n - 8]) ++ (if n / 8 % 16 = 15 then [] else [n + 8])

/-- The adjacent sets of `k` of the cores, each in ascending order. -/
def adjacentSets (ok : List Nat) : Nat → List (List Nat)
  | 0 => []
  | 1 => ok.map fun c => [c]
  | k + 1 =>
      ((adjacentSets ok k).map fun set =>
        (((set.map neighbours).flatten).filter fun n => ok.contains n && !set.contains n).map (sadd set)).flatten

/-- The sooner set in the order of R190, of sets with one sum of scores. -/
def setBefore : List Nat → List Nat → Bool
  | a :: s, b :: t => if a = b then setBefore s t else decide (a < b)
  | _, _ => false

/-! ### Fitting (R20, R22, R57, R58, R189) -/

/-- Group slots and register bytes that a group takes. -/
def storageOf (s : State) (g : Group) : Nat :=
  let b := (((teamOf s g.ref.team).map fun t => t.kernel.roles).getD [])
  let v := (b.getD g.role { groups := 0, vregs := 0, sregs := 0 }).vregs
  32 * v * (4 - ((List.range 4).filter fun k => g.returned.getLsbD k).length)

def isResident (s : State) (t : TRef) : Bool := (teamOf s t).any Team.resident

/-- Slots and bytes that resident groups take on a sub-core. -/
def takenOn (s : State) (core sub : Nat) : Nat × Nat :=
  ((allGroups s).filter fun g => g.core == core && g.sub == sub && g.active && isResident s g.ref.team).foldl
    (fun a g => (a.1 + 1, a.2 + storageOf s g)) (0, 0)

/-- Slots and bytes that a fresh team takes on sub-core `sub` of each of its cores. -/
def freshWants (k : KernelDecl) (sub : Nat) : Nat × Nat :=
  k.roles.foldl (fun a r =>
    let n := ((List.range r.groups).filter fun j => j % 4 == sub).length
    (a.1 + n, a.2 + 128 * r.vregs * n)) (0, 0)

/-- Shared memory of a team that lies on its core number `i` (R22). -/
def sharedPart (k : KernelDecl) (i : Nat) : Nat := min Config.sharedBytes (k.shared - i * Config.sharedBytes)

/-- Resident teams that hold a core. -/
def teamsOn (s : State) (core : Nat) : List Team := (allTeams s).filter fun t => t.resident && t.cores.contains core

def sharedTaken (s : State) (core : Nat) : Nat :=
  (teamsOn s core).foldl (fun a t => a + sharedPart t.kernel (t.cores.idxOf core)) 0

/-- Core `core` can be core number `i` of a team that takes `want i sub` on each sub-core. -/
def coreHolds (s : State) (k : KernelDecl) (want : Nat → Nat → Nat × Nat) (i core : Nat) : Bool :=
  ((List.range 4).all fun sub =>
      let a := takenOn s core sub
      let w := want i sub
      decide (a.1 + w.1 ≤ Config.groupSlots) && decide (a.2 + w.2 ≤ Config.regBytes))
    && decide (sharedTaken s core + sharedPart k i ≤ Config.sharedBytes)
    && !(k.usesArrays && (teamsOn s core).any fun t => t.kernel.usesArrays)

/-- The set that the headframe chooses, of sets with scores. -/
def bestSet (s : State) (sets : List (List Nat)) : Option (List Nat) :=
  let score (x : List Nat) : Nat := x.foldl (fun a c => a + scoreOf s (coreAt s c)) 0
  sets.foldl (fun b x =>
    match b with
    | none => some x
    | some y =>
        if score x < score y ∨ (score x = score y ∧ setBefore x y = true) then some x else b) none

def partitionOf (s : State) (n : Nat) : Option Partition := s.partitions.find? fun p => p.number == n

/-- Cores of the device's partition that accept new teams, on one die where `die` names it. -/
def openCores (s : State) (d : Device) (die : Option Nat) : List Nat :=
  (((partitionOf s d.partition).map (·.cores)).getD []).filter fun c =>
    let x := coreAt s c
    !x.withdrawn && !hotNow s x && die.all fun k => c / 128 == k

/-- The set on which a team is placed, where one fits (R189, R190). -/
def chooseCores (s : State) (d : Device) (k : KernelDecl) (want : Nat → Nat → Nat × Nat) (die : Option Nat) :
    Option (List Nat) :=
  bestSet s ((adjacentSets (openCores s d die) k.cores).filter fun set =>
    (List.range set.length).all fun i => coreHolds s k want i (set.getD i 0))

/-- A kernel's teams can fit the partition with every core that is not withdrawn taken as eligible and empty (R187). -/
def canEverFit (s : State) (d : Device) (k : KernelDecl) : Bool :=
  let cores := (((partitionOf s d.partition).map (·.cores)).getD []).filter fun c => !(coreAt s c).withdrawn
  let room : Bool := (List.range 4).all fun sub =>
    decide ((freshWants k sub).1 ≤ Config.groupSlots) && decide ((freshWants k sub).2 ≤ Config.regBytes)
  room && decide (k.shared ≤ k.cores * Config.sharedBytes) && adjacentSets cores k.cores != []

/-! ### The sump area (R180) -/

/-- Physical address of sump slot `k` of the device. -/
def sumpSlot (d : Device) (k : Nat) : Nat := ctxPart d sumpPart + k * d.sumpLimit

/-- Where firmware keeps sumps beside the sump area: of device `n`, from `n` × 2^36 in a part of its own. -/
def spareSumps (n : Nat) : Nat := 2 ^ 50 + n * 2 ^ 36

/-- The lowest `n` free sump slots of the device in focus. The groups of a saved team keep theirs, so a team that fits may find
the sump area full: then its groups have sumps beside it (notes/assumptions/85.md). -/
def freeSumps (s : State) (n : Nat) : List Nat :=
  let used := ((allGroups s).filter fun g => g.ref.team.vd == s.vd.number && g.active).map (·.sumpPa)
  let area := (List.range (64 * s.vd.pcores)).map (sumpSlot s.vd)
  let beside := (List.range (used.length + n)).map fun k => spareSumps s.vd.number + k * s.vd.sumpLimit
  ((area ++ beside).filter fun a => !used.contains a).take n

/-! ### The queue (R186) -/

/-- The earliest unplaced team has waited 4 ms (R186). -/
def isStarved (s : State) : Bool := s.vd.head.any fun h => h.starved || decide (s.now ≥ h.since + ms 4)

/-! ### Starting a team (R20, R24) -/

/-- The declared groups of one team core: role, role-local index and place in the order of `%gid`. -/
def groupPlan (k : KernelDecl) : List (Nat × Nat × Nat) :=
  ((List.range k.roles.length).map fun r =>
    let base := ((k.roles.take r).foldl (fun a x => a + x.groups) 0)
    (List.range (k.roles.getD r { groups := 0, vregs := 0, sregs := 0 }).groups).map fun j => (r, j, base + j)).flatten

/-- Virtual address of a grid's parameter area (R180). -/
def paramVa (g : Grid) : Nat := poolVa + g.params

/-- A group at its team's start (R24). -/
def startGroup (s : State) (t : Team) (g : Grid) (core i : Nat) (p : Nat × Nat × Nat) (sump : Nat) : Group :=
  let gid := i * (groupPlan t.kernel).length + p.2.2
  let entry : Addr := BitVec.ofNat 57 t.entryVa
  let x := { Group.idle with
    ref := { team := t.ref, gid := gid }, role := p.1, idx := p.2.1, core := core, sub := p.2.1 % 4
    a := { PcSlot.idle with pc := entry, mask := 0xffffffff, hdr := entry, since := s.now }
    exited := 0, returned := 0, tids := lanes32.map fun l => 32 * gid + l, sumpPa := sump }
  setSpair x 0 (w64 (paramVa g))

/-- The groups of a team at its start. -/
def startGroups (s : State) (t : Team) (g : Grid) (sumps : List Nat) : List Group :=
  let plan := groupPlan t.kernel
  ((List.range t.cores.length).map fun i =>
    (List.range plan.length).map fun k =>
      startGroup s t g (t.cores.getD i 0) i (plan.getD k (0, 0, 0)) (sumps.getD (i * plan.length + k) 0)).flatten

/-- A team starts on its cores. -/
def startTeam (s : State) (t : Team) (g : Grid) (cores : List Nat) : State :=
  let t := { t with cores := cores, die := cores.headD 0 / 128, mode := .running, since := s.now, placed := s.now
                    sampled := cycleOf s (cores.headD 0) / 2 ^ 20, clocks := 0 }
  { s with teams := t :: s.teams
           groups := startGroups s t g (freeSumps s (cores.length * (groupPlan t.kernel).length)) ++ s.groups }

/-- The team of a grid at a linear index (R186). -/
def teamAt (d : Device) (g : Grid) (c : Code) (k : KernelDecl) (i serial : Nat) : Team :=
  { Team.idle with
    ref := { vd := d.number, serial := serial }, grid := g.serial, kernel := k, codeVa := c.va, entryVa := c.va + k.entry
    x := i % g.nx, y := i / g.nx % g.ny, z := i / (g.nx * g.ny), nx := g.nx, ny := g.ny, nz := g.nz }

/-- The code version and the declaration that a grid runs (R47). -/
def codeOf (d : Device) (g : Grid) : Option (Code × KernelDecl) :=
  (d.codes.find? fun c => c.serial == g.code).bind fun c =>
    (c.kernels.find? fun k => k.1 == g.kernel).map fun k => (c, k.2)

/-- The device in focus places the earliest unplaced team of a grid, where it fits. -/
def placeFresh (s : State) (g : Grid) : Option State := do
  let (c, k) ← codeOf s.vd g
  let cores ← chooseCores s s.vd k (fun _ => freshWants k) none
  let serial := s.vd.teamSerial + 1
  let s' := startTeam s (teamAt s.vd g c k g.next serial) g cores
  some { s' with vd := { s'.vd with
    teamSerial := serial
    grids := s'.vd.grids.map fun x => if x.serial = g.serial then { x with next := x.next + 1, live := x.live + 1 } else x } }

/-- A lost team starts again on the die where it first started (R401). -/
def placeAgain (s : State) (t : Team) : Option State := do
  let g ← gridOf s.vd t.grid
  let cores ← chooseCores s s.vd t.kernel (fun _ => freshWants t.kernel) (some t.die)
  let s := { s with teams := s.teams.filter fun x => decide (x.ref ≠ t.ref)
                    vd := { s.vd with waiting := s.vd.waiting.filter (· ≠ t.ref) } }
  some (startTeam s { Team.idle with
    ref := t.ref, grid := t.grid, kernel := t.kernel, codeVa := t.codeVa, entryVa := t.entryVa, x := t.x, y := t.y
    z := t.z, nx := t.nx, ny := t.ny, nz := t.nz } g cores)

/-! ### Pre-emption (R200 to R202) -/

/-- The queues and gauges that a team's slots wait in line for are left (R202, R299). -/
def leaveLines (s : State) (t : TRef) : State :=
  withTeam (onTeam s t fun x => { x with putters := [], getters := [] }) t fun s => dropWaits s fun _ => true

/-- A slot that waits at its instruction executes it again on resume; at a barrier it keeps what has arrived (R200,
R202). -/
def PcSlot.again (p : PcSlot) : PcSlot :=
  match p.wait with
  | .barrier _ _ => p
  | _ => { p with wait := .running, stand := if p.stand = .issuing then .paused else p.stand }

/-- Every group of the team in focus stops at its instruction boundary (R202). A debug step that has not issued its
instruction goes on when the team is placed again (R430; notes/assumptions/97.md). -/
def stopAll (s : State) (t : TRef) : State :=
  onGroups (leaveLines s t) (fun g => decide (g.ref.team = t)) fun g =>
    { g with stopped := true, a := g.a.again, b := g.b.again, offered := none }

/-! ### Saving and restoring (R177, R178, R201, R203) -/

/-- The `.preempt` entry of a group's stop site, where each live slot stands at one. -/
def siteEntries (t : Team) (g : Group) : Option (List PreemptEntry) :=
  let one (p : PcSlot) : Option PreemptEntry := t.kernel.preempt.find? fun e => t.codeVa + e.site == p.pc.toNat
  ([g.a, g.b].filter PcSlot.live).mapM one

/-- The registers that a save keeps (R178). -/
def keepRegs (es : List PreemptEntry) (g : Group) : Group :=
  { g with
    vregs := g.vregs.filter fun e => es.any fun x => laneOn x.vlive (e.1 / 16)
    sregs := g.sregs.filter fun e => es.any fun x => x.slive.getLsbD (e.1 / 16) }

/-- Shared memory, its poison and the tiles that a save keeps: the union over the stop sites (R201). -/
def keepShared (es : List PreemptEntry) (t : Team) : Team :=
  let live (a : Nat) : Bool := es.any fun e =>
    (decide (e.shoff0 ≤ a) && decide (a < e.shoff0 + e.shlen0)) || (decide (e.shoff1 ≤ a) && decide (a < e.shoff1 + e.shlen1))
  let tile (k : Nat) : Bool := es.any fun e => e.acc.getLsbD (k / 16384 % 2)
  { t with
    shared := t.shared.filter fun e => live e.1
    poison := t.poison.filter fun k => live (32 * k)
    tiles := t.tiles.filter fun e => tile e.1 }

/-- The registers outside a stop site's live ranges are not kept where the stop was one at a barrier (R201, R202, R417). -/
def savesLive (t : Team) : Bool := t.stop == some false && !t.halted

/-- The save of the registers, shared memory and tiles of a team: only what its stop sites mark live, unless the stop was
forced, the team is halted, or a site has no entry (R201, R202, R417). -/
def saveLive (s : State) (t : Team) : State :=
  if savesLive t then
    let gs := (groupsOf s t.ref).filter Group.active
    let s := onGroups s (fun g => decide (g.ref.team = t.ref) && g.active) fun g =>
      match siteEntries t g with
      | some es => keepRegs es g
      | none => g
    match gs.mapM (siteEntries t) with
    | some ess => onTeam s t.ref (keepShared ess.flatten)
    | none => s
  else s

/-- The canaries of scope 0 armed for a team, from a core's bank. -/
def teamBank (s : State) (t : Team) : SMap Canary :=
  (coreAt s (t.cores.headD 0)).canaries.filter fun e => decide (e.2.team = some t.ref)

/-- A team's canaries leave the banks of its cores. -/
def clearBank (s : State) (t : Team) : State :=
  t.cores.foldl (fun s c => onCore s c fun x =>
    { x with canaries := x.canaries.filter fun e => decide (e.2.team ≠ some t.ref) }) s

/-- Hit counts of a team's canary in slot `n`, summed over its cores (R423). -/
def hitSum (s : State) (t : Team) (n : Nat) : Nat :=
  t.cores.foldl (fun a c => a + (match mget? (coreAt s c).canaries n with
    | some x => if x.team = some t.ref then x.hits.toNat else 0
    | none => 0)) 0

/-- The bank that travels with a saved team: each canary with its hit count. -/
def savedBank (s : State) (t : Team) : SMap Canary :=
  (teamBank s t).map fun e => (e.1, { e.2 with hits := w32 (min (hitSum s t e.1) 0xffffffff) })

/-- The follow-on of a job is queued or running in its team (R166). -/
def Team.follows (t : Team) (h : Dword) : Bool := t.passes.any fun e => e.2.any fun p => p.handle = h

/-- A job does nothing more to its team's shared memory before its follow-on pass retires: its copy is whole and, where its
gauge lies there (GSP 1 of its card), counted (R166, R177). -/
def restsOnPass (t : Team) (j : Job) : Bool :=
  j.sent && t.follows j.handle && (j.card.toNat / 2 ^ 21 % 4 != 1 || j.counted == j.moved)

/-- A team has stopped and nothing of it is in flight (R177): a barrier stop waits for its passes to retire; a forced stop
and a halt only for step boundaries, and save the remaining steps with the pass. -/
def canSave (s : State) (t : Team) : Bool :=
  t.resident && (t.stop.isSome || (t.halted && t.stepSince.isNone)) && !t.ending
    && ((groupsOf s t.ref).all fun g => g.entry.isNone && g.inflight.all fun f => f.until_ != .now)
    && (t.stop != some false || t.passes.all fun e => e.2 == [])
    && s.vd.jobs.all fun j => decide (j.team ≠ t.ref) || restsOnPass t j || !((j.reads ++ j.writes).any fun r => r.space == 1)

/-- The shared blocks and tiles that a save holds: those of its stop sites, or all (R201, R202). -/
def saveSet (s : State) (t : Team) : SaveSet :=
  let all : SaveSet := { blocks := List.range ((t.kernel.shared + 255) / 256), tiles := if t.kernel.usesArrays then [0, 1] else [] }
  if savesLive t then
    match ((groupsOf s t.ref).filter Group.active).mapM (siteEntries t) with
    | some ess =>
        let es := ess.flatten
        { blocks := all.blocks.filter fun k => es.any fun e =>
            (decide (e.shoff0 ≤ 256 * k) && decide (256 * k < e.shoff0 + e.shlen0))
              || (decide (e.shoff1 ≤ 256 * k) && decide (256 * k < e.shoff1 + e.shlen1))
          tiles := all.tiles.filter fun k => es.any fun e => e.acc.getLsbD k }
    | none => all
  else all

/-- Groups of a team in ascending `%gid`. -/
def inOrder (gs : List Group) : List Group := (gs.foldl (fun m g => mins m g.ref.gid g) ([] : SMap Group)).map (·.2)

/-- The record of the team in focus is written to the save area (R57, R178, R179); its groups hold what it shows until the
restore (notes/assumptions/39.md). -/
def writeRecord (s : State) (bank : SMap Canary) (keep : SaveSet) : State :=
  let bs := teamImage s.team (inOrder (groupsOf s s.team.ref)) bank keep
  let room := saveRoom s bs.length
  writePieces room bs { s with team := { s.team with saved := room } }

/-- The samples of the team in focus that are due are written (R361). -/
def flushSamples (s : State) : State :=
  s.team.samples.foldl (fun s x => writeStamp s x.2) { s with team := { s.team with samples := [] } }

/-- The debug steps of a team whose instruction has issued end with their records (R425). -/
def closeSteps (s : State) (t : TRef) : State :=
  ((groupsOf s t).filter fun g => g.haltDue.any fun h => h.why == 5).foldl (fun s g => withGroup s g.ref settleHalt) s

/-- The hoist saves one team and frees its cores (R177); a team that was not halted goes back to the head of its level
(R203). A save that reads an uncorrectable error loses the team (R436). -/
def saveOne (s : State) (r : TRef) : State :=
  match focusTeam s r with
  | none => s
  | some s =>
      let s := flushSamples (accrue (drainTeam s))
      let t := s.team
      let keep := saveSet s t
      let s := saveLive s t
      if s.team.poison != [] then loseTeam s r 0x600 1 else
      let bank := savedBank s t
      let s := clearBank s t
      let s := onGroups s (fun g => decide (g.ref.team = r)) fun g => { g with stopped := false, inflight := [], flags := 0 }
      let s := writeRecord (closeSteps s r) bank keep
      let s := { s with team := { s.team with mode := .saved, bank := bank, request := none, stop := none, stepSince := none } }
      settleQueue { s with vd := { s.vd with waiting := if t.halted then s.vd.waiting else s.vd.waiting ++ [r] } }

/-- What a saved team takes on its cores: its groups that have not exited. -/
def savedWants (s : State) (t : Team) (i sub : Nat) : Nat × Nat :=
  ((groupsOf s t.ref).filter fun g => g.active && g.sub == sub && t.cores.idxOf g.core == i).foldl
    (fun a g => (a.1 + 1, a.2 + storageOf s g)) (0, 0)

/-- A saved team is placed again: the hoist reads its record (R353), its groups resume where they stopped, and the B
registers of its queued passes are locked again (R178, R203). -/
def restoreOne (s : State) (r : TRef) : Option State := do
  let t ← teamOf s r
  let cores ← chooseCores s s.vd t.kernel (savedWants s t) (some t.die)
  let core (c : Nat) : Nat := cores.getD (t.cores.idxOf c) 0
  let s := onGroups s (fun g => decide (g.ref.team = r)) fun g => { g with core := core g.core }
  let s := onTeam s r fun t =>
    { t with
      cores := cores, mode := .running, since := s.now, placed := s.now, bank := [], saved := []
      passes := t.passes.map fun e => (e.1, e.2.map fun p => { p with locked := true })
      sampled := cycleOf s (cores.headD 0) / 2 ^ 20 }
  let s := cores.foldl (fun s c => onCore s c fun x =>
    { x with canaries := t.bank.foldl (fun b e =>
        mins b e.1 { e.2 with hits := if c = cores.headD 0 then e.2.hits else 0 }) x.canaries }) s
  let s := meter s 3 (t.saved.foldl (fun n p => n + p.2) 0)
  some { s with vd := { s.vd with waiting := s.vd.waiting.filter (· ≠ r) } }

/-- A saved team and those of its cluster are placed together, or none is (R110). -/
def restoreAll (s : State) (t : Team) : Option State :=
  ((together s t).filter fun r => (teamOf s r).any fun x => x.mode == .saved).foldlM restoreOne s

/-! ### Placing (R186) -/

/-- The headframe places one candidate of the device in focus, where it fits. -/
def placeCand (s : State) (c : Cand) : Option State :=
  if c.index = 0 then
    (teamOf s { vd := s.vd.number, serial := c.serial }).bind fun t =>
      match t.mode with
      | .lost => placeAgain s t
      | _ => restoreAll s t
  else (gridOf s.vd c.serial).bind (placeFresh s)

/-- The placement that the headframe makes next for the device in focus (R186): once its earliest unplaced team has
waited 4 ms no other team is placed. -/
def placeNext (s : State) : Option State :=
  let s := settleQueue s
  ((if isStarved s then (candidates s).take 1 else candidates s).findSome? (placeCand s)).map settleQueue

/-- Nothing of the device is in focus but the device itself. -/
def deviceOnly (s : State) (n : Nat) : Option State := focusDevice (stash s) n

/-- `n`'s placement, or none where no team of it fits. -/
def placeOf (s : State) (n : Nat) : Option State := (deviceOnly s n).bind placeNext

/-! ### The schedulers (R197 to R199) -/

def deviceAt (s : State) (n : Nat) : Option Device := (allDevices s).find? fun d => d.number == n

/-- A device woke less than 1 ms ago. -/
def isAwake (s : State) (d : Device) : Bool := d.wokeAt.any fun t => decide (s.now ≤ t + ms 1)

/-- Core-cycles that a device's cap allows it in a window (R198). -/
def capCycles (d : Device) : Nat := d.cap * d.pcores * ms 10 / 100

/-- The device may place teams: it is below its cap, or has budget. -/
def hasShare (s : State) (p : Partition) (d : Device) : Bool :=
  match p.sched with
  | .allowance => decide (usageNow s d < capCycles d)
  | .reservation => decide (0 < budgetNow s d)

/-- `a` is chosen ahead of `b` (R198, R199). -/
def chosenAhead (s : State) (p : Partition) (a b : Device) : Bool :=
  match p.sched with
  | .allowance =>
      let x := isAwake s a
      let y := isAwake s b
      let ua := usageNow s a * b.w
      let ub := usageNow s b * a.w
      if x != y then x else decide (ua < ub) || (ua == ub && decide (a.number < b.number))
  | .reservation => decide (a.deadline < b.deadline) || (a.deadline == b.deadline && decide (a.number < b.number))

/-- Devices of a partition. -/
def devicesOf (s : State) (p : Partition) : List Device := (allDevices s).filter fun d => d.partition == p.number

/-- A device has a team in its queue. -/
def hasWaiting (s : State) (n : Nat) : Bool := (deviceOnly s n).any fun s => candidates s != []

/-- The device is the scheduler's choice: no device ahead of it has a team that can be placed; one whose teams fit no set is
passed over (R198; notes/assumptions/88.md). -/
def isChosen (s : State) (p : Partition) (d : Device) : Bool :=
  hasShare s p d && (devicesOf s p).all fun e =>
    !(chosenAhead s p e d && hasShare s p e) || (placeOf s e.number).isNone

/-- The team of a device that has been resident longest. -/
def oldestTeam (s : State) (n : Nat) : Option Team :=
  ((allTeams s).filter fun t => t.ref.vd == n && t.resident).foldl (fun b t => match b with
    | none => some t
    | some x => if t.placed < x.placed then some t else some x) none

/-- A request is pending for some team of the device. -/
def requestPending (s : State) (n : Nat) : Bool := (allTeams s).any fun t => t.ref.vd == n && t.resident && t.request.isSome

/-- Some resident team of the device has had no request. -/
def runsFree (s : State) (n : Nat) : Bool := (allTeams s).any fun t => t.ref.vd == n && t.resident && t.request.isNone

/-- Pre-emption is requested of every team of the device. -/
def requestAll (s : State) (n : Nat) : State :=
  ((allTeams s).filter fun t => t.ref.vd == n && t.resident).foldl (fun s t => requestStop s t.ref s.now false) s

/-- The resident team of the device that has the latest deadline, after `d`'s (R199): its longest resident, where no request
is pending for that device (notes/assumptions/107.md). -/
def latestVictim (s : State) (p : Partition) (d : Device) : Option TRef :=
  (((devicesOf s p).filter fun e => decide (e.deadline > d.deadline)).foldl
    (fun (b : Option (Device × Team)) e => match b, oldestTeam s e.number with
      | b, none => b
      | none, some t => some (e, t)
      | some x, some t => if e.deadline > x.1.deadline then some (e, t) else some x) none).bind fun x =>
    if requestPending s x.1.number then none else some x.2.ref

/-- The device has a waiting team that fits no set. -/
def hasMisfit (s : State) (n : Nat) : Bool :=
  (deviceOnly s n).any fun s => (candidates s).any fun c => (placeCand s c).isNone

/-- The pre-emption that a reservation device asks for where a team of it fits no set (R199). -/
def askRoom (s : State) (p : Partition) (d : Device) : Option State :=
  if p.sched = .reservation ∧ hasMisfit s d.number then (latestVictim s p d).map fun t => requestStop s t s.now false else none

/-- `TEAM_PLACEMENT`: a placement for the device; under reservation, where a team of it fits no set, pre-emption of a team
of the device of the latest deadline (R186, R197, R199). -/
def execTeamPlacement (n : Nat) (s : State) : Out :=
  match deviceAt s n with
  | none => cannot
  | some d =>
      match partitionOf s d.partition with
      | none => cannot
      | some p =>
          if s.failed || !isChosen s p d then cannot
          else
            match placeOf s n with
            | some s' => .next ((askRoom s' p d).getD s')
            | none => maySome (askRoom s p d)

/-- `PLACEMENT_STARVATION` (R186). -/
def execPlacementStarvation (n : Nat) (s : State) : Out :=
  maySome ((focusDevice s n).bind fun s => s.vd.head.bind fun h =>
    if s.now ≥ h.since + ms 4 ∧ !h.starved then some { s with vd := { s.vd with head := some { h with starved := true } } }
    else none)

/-! ### Temperature and droop (R188) -/

/-- A core number of the module. -/
def isCore (n : Nat) : Bool := decide (n < Config.cores)

/-- A reading of a core. -/
def readTemp (s : State) (n : Nat) (x : BitVec 12) : State :=
  onCore s n fun c => { c with temp := x, hot := nextHot s c x (decide (x.toNat ≥ 760)) }

/-- `DROOP_EVENT` (R188): three events within 1 ms make the core hot. The die's lowest supply may fall (R362). -/
def execDroopEvent (n : Nat) (s : State) : Out :=
  if isCore n then
    let s := onCore s n fun c =>
      let old := c.droops.filter fun t => decide (s.now ≤ t + ms 4)
      let near := (old.filter fun t => decide (s.now ≤ t + ms 1)).length
      { c with hot := nextHot s c c.temp (decide (near ≥ 2)), droops := old ++ [s.now] }
    let v : BitVec 16 := BitVec.ofNat 16 (Config.freeNat s.draw 0)
    .next (countDie s (n / 128) fun d => { d with vmin := if v < d.vmin then v else d.vmin })
  else .fault .noSuchPlace

/-! ### Windows and periods (R198, R199) -/

/-- A changed share takes effect (R438). -/
def adoptShare (d : Device) : Device :=
  match d.newShare with
  | some (w, cap, t, q) => { d with w := w, cap := cap, t := t, q := q, newShare := none }
  | none => d

def onPartition (s : State) (n : Nat) (f : Partition → Partition) : State :=
  { s with partitions := s.partitions.map fun p => if p.number = n then f p else p }

/-- `ACCOUNTING_WINDOW` (R198). -/
def execAccountingWindow (n : Nat) (s : State) : Out :=
  match partitionOf s n with
  | none => cannot
  | some p =>
      if p.sched ≠ .allowance ∨ s.now < p.windowStart + ms 10 then cannot
      else
        let s := accrue s
        let fresh (d : Device) : Device := if d.alive && d.partition == n then { adoptShare d with usage := 0 } else d
        .next (onPartition { s with vd := fresh s.vd, devices := s.devices.map fresh } n fun p =>
          { p with windowStart := p.windowStart + ms 10, boundaries := 0 })

/-- What a 1 ms boundary does: a device that is chosen ahead of one whose team has been resident for 1 ms has it
requested (R198). -/
def boundaryRequests (s : State) (p : Partition) : State :=
  let ds := devicesOf s p
  let waiting := ds.filter fun d => hasWaiting s d.number && hasShare s p d
  ds.foldl (fun s e =>
    if waiting.any (fun d => chosenAhead s p d e) && !requestPending s e.number then
      match oldestTeam s e.number with
      | some t => if s.now ≥ t.placed + ms 1 then requestStop s t.ref s.now false else s
      | none => s
    else s) s

/-- `MILLISECOND_BOUNDARY` (R198). -/
def execMillisecondBoundary (n : Nat) (s : State) : Out :=
  match partitionOf s n with
  | none => cannot
  | some p =>
      if p.sched ≠ .allowance ∨ s.now < p.windowStart + ms (p.boundaries + 1) then cannot
      else .next (onPartition (boundaryRequests s p) n fun p => { p with boundaries := p.boundaries + 1 })

/-- `CAP_REACHED` (R198). -/
def execCapReached (n : Nat) (s : State) : Out :=
  match deviceAt s n with
  | none => cannot
  | some d =>
      match partitionOf s d.partition with
      | none => cannot
      | some p => may (p.sched == .allowance && decide (usageNow s d ≥ capCycles d) && runsFree s n) (requestAll s n)

/-- `PERIOD_START` (R199): the budget is renewed and what was left is lost. -/
def execPeriodStart (n : Nat) (s : State) : Out :=
  match deviceAt s n with
  | none => cannot
  | some d =>
      match partitionOf s d.partition with
      | none => cannot
      | some p =>
          may (p.sched == .reservation && decide (s.now ≥ d.deadline)) (onDevice (accrue s) n fun d =>
            let d := adoptShare d
            { d with budget := us d.q, deadline := d.deadline + us d.t })

/-- `BUDGET_EXHAUSTED` (R199). -/
def execBudgetExhausted (n : Nat) (s : State) : Out :=
  match deviceAt s n with
  | none => cannot
  | some d =>
      match partitionOf s d.partition with
      | none => cannot
      | some p => may (p.sched == .reservation && budgetNow s d == 0 && runsFree s n) (requestAll s n)

/-! ### Events of one team -/

/-- `PREEMPTION_REQUEST` (R200): it names a resident team. -/
def execPreemptionRequest (t : TRef) (s : State) : Out :=
  may ((teamOf s t).any fun x => x.resident && x.request.isNone) (requestStop s t s.now false)

/-- A group has stopped, is halted, or has exited. -/
def Group.still (g : Group) : Bool := !g.active || g.stopped || g.halted

/-- `BARRIER_STOP` (R200): a debug step that is under way ends first (R425). -/
def execBarrierStop (t : TRef) (s : State) : Out :=
  may ((teamOf s t).any fun x => x.resident && x.request.isSome && x.stop.isNone && !x.ending
      && (groupsOf s t).all fun g => g.still && g.entry.isNone && g.stepping.isNone)
    (onTeam (leaveLines s t) t fun x => { x with stop := some false })

/-- `FORCED_STOP` (R202): 2 ms after the request, or at once where it is forced (R442). -/
def execForcedStop (t : TRef) (s : State) : Out :=
  may ((teamOf s t).any fun x => x.resident && x.stop.isNone && !x.ending
      && x.request.any fun r => r.2 || decide (s.now ≥ r.1 + ms 2))
    (onTeam (stopAll s t) t fun x => { x with stop := some true })

/-- `TEAM_SAVE` (R177, R110). -/
def execTeamSave (t : TRef) (s : State) : Out :=
  maySome ((focusTeam s t).bind fun s =>
    let ts := together s s.team
    if ts.all fun r => (teamOf s r).any fun x => canSave s x || (x.mode == .saved && r != t) then
      if canSave s s.team then some ((ts.filter fun r => (teamOf s r).any Team.resident).foldl saveOne s) else none
    else none)

/-- `TEAM_RESTORE` (R198, R199, R203): the device is the scheduler's choice and the saved team is the next that the headframe
places. -/
def execTeamRestore (t : TRef) (s : State) : Out :=
  maySome ((deviceAt s t.vd).bind fun d => (partitionOf s d.partition).bind fun p =>
    if s.failed || !isChosen s p d then none
    else (deviceOnly s t.vd).bind fun s =>
      let s := settleQueue s
      let cs := if isStarved s then (candidates s).take 1 else candidates s
      match cs.find? fun c => (placeCand s c).isSome with
      | some c =>
          if c.index = 0 ∧ c.serial = t.serial ∧ (teamOf s t).any (fun x => x.mode == .saved) then
            (placeCand s c).map settleQueue
          else none
      | none => none)

/-- Nothing of the team remains to be waited for: no cause to be entered, and no job of it, a transcode or an unbinding
among them (R25, R154, R164, R370). -/
def canEnd (s : State) (t : Team) : Bool :=
  t.ref.serial != 0 && t.mode != .lost && ((groupsOf s t.ref).all fun g => g.entry.isNone)
    && (t.ending || (groupsOf s t.ref).all fun g => !g.active && g.inflight == [] && g.stores == [])
    && !(s.vd.jobs.any fun j => decide (j.team = t.ref)) && t.dieJobs.all (resolved s)

/-- The team in focus has gone: it leaves its cluster (R109), its canaries, its waits on gauge words (R299) and its groups. -/
def freeTeam (s : State) : State :=
  let t := s.team
  let s := flushSamples (accrue (leaveCluster s))
  let s := clearBank s t
  let s := { s with team := { s.team with gaugers := [] } }
  let s := t.gaugers.foldl (fun s w => showPending s w.1) s
  { s with groups := s.groups.filter fun g => decide (g.ref.team ≠ t.ref), g := .idle }

/-- `TEAM_END` (R25, R370, R401): the team's storage is freed; its grid goes on, ends, or has the team again. -/
def execTeamEnd (t : TRef) (s : State) : Out :=
  maySome ((focusTeam s t).bind fun s =>
    if canEnd s s.team then
      let s := freeTeam s
      let x := s.team
      if x.relaunch then
        some (settleQueue { s with
          teams := { x with mode := .lost, ending := false, relaunch := false, cluster := none, passes := [] } :: s.teams
          team := .idle, vd := { s.vd with waiting := t :: s.vd.waiting } })
      else
        let d := { s.vd with
          waiting := s.vd.waiting.filter (· ≠ t)
          grids := s.vd.grids.map fun g => if g.serial = x.grid then { g with live := g.live - 1 } else g }
        some (settleQueue (settleGrids { s with team := .idle, vd := d }))
    else none)

/-- The lanes whose registers have had an uncorrectable error are noted for the withdrawal of their cores (R402): core,
sub-core and lane. -/
def noteBroken (s : State) (ls : List (Nat × Nat × Nat)) : State :=
  ls.foldl (fun s x => onCore s x.1 fun c => { c with broken := sadd c.broken (64 * x.2.1 + x.2.2) }) s

/-- `TEAM_LOST`: an uncorrectable error of team storage, which the die counts (R392, R400). An error that was found in shared
memory or in the scratchpad poisons its sectors there; one in registers is noted for its core (R402). -/
def execTeamLost (t : TRef) (l : Loss) (s : State) : Out :=
  maySome ((focusTeam s t).bind fun s =>
    let d := l.detail.toNat
    if s.team.mode != .lost && !s.team.ending && (d == 1 || d == 2 || d == 6 || d == 7) then
      let s := match d with
        | 1 => { s with team := { s.team with poison := l.bad.foldl sadd s.team.poison } }
        | 2 => poisonScratch s s.team.die l.bad
        | 6 => noteBroken s (l.lanes.filter fun x => s.team.cores.contains x.1 && decide (x.2.1 < 4) && decide (x.2.2 < 32))
        | _ => s
      some (loseTeam (countDie s s.team.die fun d => { d with unc := satAdd d.unc 1 255 }) t 0x600 d)
    else none)

end Sys2Proof.Machine
end

