-- ==== Sys2Proof/Machine/Launch.lean ====
section
/-!
DEFINITION. Machine/Launch.lean: grids that enter the queue (R35, R180, R183 to R187) and `launch` (R282 to R284).
-/
namespace Sys2Proof.Machine

/-! ### Parameter areas (R180, R183) -/

/-- Bytes of a grid parameter area. -/
def areaBytes (k : KernelDecl) : Nat := (128 + k.params + k.data.length + 255) / 256 * 256

/-- Bytes of the parameter pool. -/
def poolBytes : Nat := 0x1000000

/-- Places in the pool for areas of these sizes, if there is room for all. -/
def poolRoom (taken : List (Nat × Nat)) : List Nat → Option (List Nat)
  | [] => some []
  | n :: t => do
      let a ← firstFit taken n 256 poolBytes
      let rest ← poolRoom ((a, a + n) :: taken) t
      some (a :: rest)

/-- The weight table: the start of each set's current extent (R183). -/
def weightTable (d : Device) : List Byte :=
  ((List.range 16).map fun w => leBytes 8 (((mget? d.weights w).map (·.start)).getD 0)).flatten

/-- The generations that a grid's weight table names. -/
def currentPins (d : Device) : List (Nat × Nat) := d.weights.map fun w => (w.1, w.2.gen)

/-- The current version of a kernel number (R47), newest versions first. -/
def kernelOf (d : Device) (n : Nat) : Option (Code × KernelDecl) :=
  d.codes.findSome? fun c => (c.kernels.find? fun k => k.1 == n).map fun k => (c, k.2)

/-- Grids of the queue that have teams not yet placed (R184). -/
def queued (d : Device) : Nat := (d.grids.filter fun g => decide (g.next < g.total)).length

/-! ### Requests for a grid (R283, R343) -/

/-- A grid to be queued: kernel number, priority, dimensions, parameter bytes. -/
structure Ask where
  kernel : Nat
  prio : Nat
  nx : Nat
  ny : Nat
  nz : Nat
  params : List Byte
  deriving DecidableEq, Repr

/-- Dimensions within the limits of R18. -/
def Ask.sized (a : Ask) : Bool :=
  decide (1 ≤ a.nx) && decide (a.nx < 2 ^ 31) && decide (1 ≤ a.ny) && decide (a.ny < 2 ^ 16) && decide (1 ≤ a.nz)
    && decide (a.nz < 2 ^ 16)

/-- A grid enters the queue of the device in focus with its parameter area at offset `off` of the pool (R183, R184); a
device that had nothing to do for 1 ms wakes (R198). -/
def queueGrid (s : State) (a : Ask) (c : Code) (k : KernelDecl) (off : Nat) (tag : Option Word) (origin : Dword) :
    State × Nat :=
  let bytes := weightTable s.vd ++ a.params ++ k.data
  let area := bytes ++ List.replicate (areaBytes k - bytes.length) 0
  let s := storeBytesAt s (ctxPart s.vd poolPart + off) area
  let n := s.vd.gridSerial + 1
  let g : Grid :=
    { serial := n, code := c.serial, kernel := a.kernel, prio := a.prio, nx := a.nx, ny := a.ny, nz := a.nz, next := 0
      live := 0, params := off, paramsLen := areaBytes k, tag := tag, origin := origin, fault := none
      relaunched := false, pins := currentPins s.vd }
  let woke := s.vd.idleSince.any fun t => decide (s.now ≥ t + ms 1)
  (settleQueue { s with vd := { s.vd with
    gridSerial := n, grids := s.vd.grids ++ [g], pool := (off, off + areaBytes k) :: s.vd.pool
    wokeAt := if woke then some s.now else s.vd.wokeAt } }, n)

/-! ### Reading main memory for a device instruction (R102, R284, R394) -/

/-- The bytes of a range of `.g`, each with its poison; an unreadable byte reads as 0. -/
def rangeBytes (s : State) (lo n : Nat) : List (Byte × Bool) :=
  (List.range n).map fun i =>
    match walk s s.vd (lo + i) with
    | .leaf pa f _ _ _ => loadByte s (pagePlace s pa f (lo + i))
    | _ => (0, false)

/-- A device instruction reads a range of `.g`: what moves through the ports (R147, R353). -/
def countRange (s : State) (lo n : Nat) : State :=
  countReads s ((List.range n).filterMap fun i => match walk s s.vd (lo + i) with
    | .leaf pa f _ _ _ => some (pagePlace s pa f (lo + i), 1)
    | _ => none)

/-! ### Descriptors (R283, R284) -/

/-- A descriptor's fields: the address of its parameters and the grid it asks for, less its parameter bytes. -/
structure LaunchDesc where
  word : Nat
  deriving DecidableEq, Repr

def LaunchDesc.bits (d : LaunchDesc) (lo w : Nat) : Nat := d.word / 2 ^ lo % 2 ^ w
def LaunchDesc.plen (d : LaunchDesc) : Nat := d.bits 160 16
def LaunchDesc.pva (d : LaunchDesc) : Nat := d.bits 0 64
def LaunchDesc.clean (d : LaunchDesc) : Bool := d.bits 176 336 == 0 && d.bits 147 13 == 0 && d.bits 95 1 == 0
def LaunchDesc.ask (d : LaunchDesc) (params : List Byte) : Ask :=
  { kernel := d.bits 128 16, prio := d.bits 144 3, nx := d.bits 64 31, ny := d.bits 96 16, nz := d.bits 112 16
    params := params }

/-- The kernel that a valid descriptor launches (R284). -/
def LaunchDesc.kernel (s : State) (d : LaunchDesc) : Option (Code × KernelDecl) :=
  (kernelOf s.vd (d.bits 128 16)).filter fun k =>
    d.clean && (d.ask []).sized && d.plen == k.2.params && d.pva % 4 == 0 && canEverFit s s.vd k.2

/-- What lane `l` of a `launch` reads: its descriptor, or a failing check or poisoned byte and its address. -/
structure LaneRead where
  lane : Nat
  desc : LaunchDesc
  params : List Byte
  bad : Option (Chk × Nat)
  deriving DecidableEq, Repr

def readDesc (s : State) (base l : Nat) : LaneRead :=
  let a : Nat := (base + 64 * l) % 2 ^ 64
  match readFault s a 64 1 with
  | some f => { lane := l, desc := ⟨0⟩, params := [], bad := some f }
  | none =>
      let bs := rangeBytes s a 64
      let d : LaunchDesc := ⟨leNat (bs.map (·.1))⟩
      if bs.any (·.2) then { lane := l, desc := d, params := [], bad := some (⟨6, 0x406, 0⟩, a) }
      else
        match readFault s d.pva d.plen 1 with
        | some f => { lane := l, desc := d, params := [], bad := some f }
        | none =>
            let ps := rangeBytes s d.pva d.plen
            { lane := l, desc := d, params := ps.map (·.1)
              bad := if ps.any (·.2) then some (⟨6, 0x406, 0⟩, d.pva) else none }

/-- What the lanes of a `launch` have read: each its descriptor and its parameters, where it came to them. -/
def countDescs (s : State) (base : Nat) (rs : List LaneRead) : State :=
  rs.foldl (fun s r =>
    let a : Nat := (base + 64 * r.lane) % 2 ^ 64
    if (readFault s a 64 1).isSome then s else countRange (countRange s a 64) r.desc.pva r.params.length) s

/-- The cause of a `launch` that cannot read: the earliest failing check, with every lane that fails it (R284, R381). -/
def launchFault (s : State) (base : Nat) (rs : List LaneRead) : Option Raise :=
  let bad := rs.filterMap fun r => r.bad.map fun b => (r.lane, b)
  match bad with
  | [] => none
  | _ =>
      let first := bad.foldl (fun k b => min k b.2.1.rank) 9
      let hit := bad.filter fun b => b.2.1.rank == first
      hit.head?.map fun h =>
        { code := h.2.1.code, detail := h.2.1.detail, mask := maskOf fun l => hit.any fun b => b.1 == l
          addr := some h.2.2
          lanes := tabulate fun l => if laneOn (execMask s) l then w32 (base + 64 * l) else 0 }

/-- The children of one execution are queued in ascending lane order. -/
def queueChildren (s : State) (h : Dword) : List (Ask × Code × KernelDecl × Nat) → State × List Nat
  | [] => (s, [])
  | (a, c, k, off) :: t =>
      let r := queueGrid s a c k off none h
      let q := queueChildren r.1 h t
      (q.1, r.2 :: q.2)

/-- `launch` once the queue and the pool have room: the children, and the handle's execution. -/
def launchNow (s : State) (d : Opnd) (refused : Bool) (kids : List (Ask × Code × KernelDecl × Nat)) : Effect :=
  let s := releaseAt s .pkg
  let (s, h) := newHandle s s.g.core 1
  let (s, ns) := queueChildren s h kids
  let l : Launch := { handle := h, children := ns, refused := refused, removed := false, fault := none }
  .write { s with vd := settleLaunches { s.vd with launches := s.vd.launches ++ [l] } } [.hnd (regNo d) h]

/-- The valid children of the lanes read: what is asked, and the version that runs it. -/
def childrenOf (s : State) (rs : List LaneRead) : List (Ask × Code × KernelDecl) :=
  rs.filterMap fun r => (LaunchDesc.kernel s r.desc).map fun k => (r.desc.ask r.params, k.1, k.2)

/-- The children with their places in the pool, once queue and pool have room for all of them (R180, R185). -/
def launchRoom (s : State) (kids : List (Ask × Code × KernelDecl)) : Option (List (Ask × Code × KernelDecl × Nat)) :=
  if queued s.vd + kids.length > Config.gridQueue then none
  else
    (poolRoom s.vd.pool (kids.map fun k => areaBytes k.2.2)).map fun offs =>
      (kids.zip offs).map fun e => (e.1.1, e.1.2.1, e.1.2.2, e.2)

/-- `launch` (R284). -/
def execLaunch (d a : Opnd) (s : State) : Out :=
  let i : Instr := .launch d a
  if execMask s = 0 then issue i (.ok (.write s [.hnd (regNo d) 0])) s
  else
    match uniPair s 1 a with
    | .error r => issue i (.error r) s
    | .ok base =>
        let rs := (lanes32.filter (laneOn (execMask s))).map (readDesc s base.toNat)
        match launchFault s base.toNat rs with
        | some r => issue i (.error r) (countDescs s base.toNat rs)
        | none =>
            let kids := childrenOf s rs
            match launchRoom s kids with
            | none => .next (pauseAs s .launch)
            | some ks =>
                let s' := countDescs s base.toNat rs
                issue i (.ok (launchNow s' d (decide (kids.length < rs.length)) ks)) s'

/-- The children of an execution that have not started are removed (R307). -/
def cancelLaunch (s : State) (h : Dword) : State :=
  match s.vd.launches.find? fun l => l.handle = h with
  | none => s
  | some l =>
      let waits (g : Grid) : Bool := l.children.contains g.serial && g.next == 0
      let gone := s.vd.grids.any waits
      let d := s.vd
      let d := { d with
        grids := d.grids.map fun g => if waits g then { g with next := g.total } else g
        launches := d.launches.map fun x => if x.handle = h then { x with removed := x.removed || gone } else x }
      settleQueue (settleGrids { s with vd := d })

end Sys2Proof.Machine
end

