-- ==== Sys2Proof/Machine/Sift.lean ====
section
/-!
DEFINITION. Machine/Sift.lean: `sift` and `brs.sift` (R37 to R44, R270, R379).
-/
namespace Sys2Proof.Machine

/-! ### Participants (R37, R38) -/

/-- The non-exited groups of the team, role and core of the group in focus, in ascending `%gid`. -/
def participants (s : State) : List Group :=
  let ps := (allGroups s).filter fun g =>
    decide (g.ref.team = s.g.ref.team) && g.role == s.g.role && g.core == s.g.core && g.active
  (ps.foldl (fun m g => mins m g.ref.gid g) ([] : SMap Group)).map (·.2)

/-- Path entries of a group, in focus or not. -/
def pathsOf (s : State) (g : Group) : List SumpEntry := pathEntries { s with g := g }

/-- The slot whose mask is the group's set of non-exited lanes, when the group meets R38. -/
def siftSlot (s : State) (g : Group) : Option SlotId :=
  if pathsOf s g != [] then none
  else if g.a.live && !g.b.live && g.a.mask == g.present then some .A
  else if g.b.live && !g.a.live && g.b.mask == g.present then some .B
  else none

/-- A slot waits at a sift of either form. -/
def PcSlot.atSift (p : PcSlot) : Bool := p.live && (p.wait == .sift || p.wait == .branchSift)

/-- The group has a slot that waits at a sift. -/
def siftWaits (g : Group) : Bool := g.a.atSift || g.b.atSift

/-- Every participant waits at a sift (R37). -/
def allArrived (s : State) : Bool := (participants s) != [] && (participants s).all siftWaits

/-- `sift` (R270): the group meets R38 and waits for the others, or faults. -/
def execSift (home : Bool) (a : Opnd) (n : Nat) (s : State) : Out :=
  let i : Instr := .sift home a n
  if siftSlot s s.g = some s.slot then .next (pauseAs s .sift) else issue i (.error (.plain 0x207 0)) s

/-- `brs.sift` (R44): the group waits for the others; a debug step of a group that breaks R38 branches at once (R425). -/
def execBrsSift (c : Opnd) (off : Word) (s : State) : Out :=
  let i : Instr := .brsSift c off
  match uni s 4 c with
  | .error r => control i (.error r) s
  | .ok x =>
      if s.g.stepping.isSome && (siftSlot s s.g).isNone then control i (splitOn s x off) s
      else .next (pauseAs s .branchSift)

/-! ### Regrouping (R39 to R42) -/

/-- A thread of a sift: its old group, its old lane and its key. -/
structure Thread where
  from_ : Group
  lane : Nat
  key : Nat
  deriving DecidableEq, Repr

/-- The threads in ascending order of (key, old `%gid`, old lane): `ts` is in order of `%gid` and lane. -/
def byKey (ts : List Thread) : List Thread := ts.mergeSort fun a b => decide (a.key ≤ b.key)

/-- Threads in runs of 32 from lane 0. -/
def inGroups (ts : List Thread) : List (List (Option Thread)) :=
  (List.range ((ts.length + 31) / 32)).map fun j => lanes32.map fun l => ts[32 * j + l]?

/-- The keys of threads that are in key order, each once. -/
def keysOf (ts : List Thread) : List Nat := (ts.map (·.key)).foldl sadd []

/-- The new groups of a sift of `g` participants: by lane, the thread that each lane receives (R39). -/
def regroup (home : Bool) (g : Nat) (ts : List Thread) : List (List (Option Thread)) :=
  let ord := byKey ts
  if home then
    let col (l : Nat) : List Thread := ord.filter fun t => t.lane == l
    let most := lanes32.foldl (fun n l => max n (col l).length) 0
    (List.range most).map fun j => lanes32.map fun l => (col l)[j]?
  else
    let packed := ((keysOf ord).map fun k => inGroups (ord.filter fun t => t.key == k)).flatten
    if packed.length ≤ g then packed else inGroups ord

/-- A register of a new group (R40). A lane that receives no thread holds the value of a uniform register, and 0 in any
other (notes/assumptions/66.md). -/
def siftReg (ls : List (Option Thread)) (k : Nat) : VReg :=
  let val (t : Thread) : Word := laneAt (vreg t.from_ k).lanes t.lane
  let ts := ls.filterMap id
  let uniform : Bool := ts.all fun t => (vreg t.from_ k).tag.isUniform
  let x : Word := ((ts.head?).map val).getD 0
  let one := uniform && ts.all (fun t => val t == x)
  { tag := if one then uniTag x else .general, lanes := ls.map fun t => (t.map val).getD (if one then x else 0) }

/-- The arrival marks of a new group (R42). -/
def siftMarks (ls : List (Option Thread)) : SMap Word :=
  (List.range 16).foldl (fun m n =>
    lanes32.foldl (fun m l =>
      match (ls.getD l none).bind fun t => mget? t.from_.marks (32 * n + t.lane) with
      | some a => mins m (32 * n + l) a
      | none => m) m) []

/-- What stands for the `%tid` of a lane that holds no thread: no thread has it, and it reads as 0. -/
def noThread : Nat := 2 ^ 32

/-- The halt that is due in the participants, where one is: every new group halts by it, at the boundary of its slot A
(R43, R416; notes/assumptions/82.md). -/
def siftHalt (ps : List Group) : Option Halt :=
  (ps.foldl (fun (d : Option Halt) g => match d, g.haltDue with
    | some a, some b => some (a.and b)
    | none, h => h
    | d, none => d) none).map fun h => { h with clauseOf := h.clauseOf.map fun _ => .A }

/-- New group `j` of a sift (R40, R41): `base` is the participant of the lowest old `%gid`, `first` the `%gid` of
role-local index 0, and `p` the slot at the instruction. -/
def siftGroup (base : Group) (first n j : Nat) (sump : Nat) (p : PcSlot) (ls : List (Option Thread)) : Group :=
  let mask := maskOf fun l => (ls.getD l none).isSome
  let tid (l : Nat) : Nat := ((ls.getD l none).map fun t => natAt t.from_.tids t.lane).getD noThread
  { base with
    ref := { base.ref with gid := first + j }, idx := j, sub := j % 4
    a := { p with mask := mask }, b := .idle, exited := ~~~mask, returned := 0
    vregs := (List.range n).foldl (fun m k => mset VReg.zero m k (siftReg ls k)) []
    hregs := [], flags := 0, inside := [], tids := lanes32.map tid, marks := siftMarks ls, sumpTop := 0, sumpPa := sump
    inflight := [], stores := [] }

/-- A slot splits on a condition, in a group whose other slot is not live (R28). -/
def branchGroup (g : Group) (now : Nat) (cond : Word) (off : Word) : Group :=
  let p := g.a
  let taken := p.mask &&& cond
  let fall := p.mask &&& ~~~cond
  if taken = 0 then { g with a := p.moveTo now p.after }
  else if fall = 0 then { g with a := p.jump now (branchTarget p off) }
  else { g with a := { p.moveTo now p.after with mask := fall }, b := p.branchOff now (branchTarget p off) taken }

/-- The instruction at which a slot waits. -/
def instrAt (s : State) (p : PcSlot) : Option Instr :=
  match fetchWord s p.pc with
  | .ok w =>
      match decodeWord (budgetOf s) (p.head.toNat / 2 ^ 49 % 8) w.toNat with
      | .ok i => some i
      | .error _ => none
  | .error _ => none

/-- The slot of a participant that waits at a sift. -/
def waitingSlot (g : Group) : SlotId := if g.a.atSift then .A else .B

/-- A participant with its waiting slot in focus, for the reading of its operands. -/
def asParticipant (s : State) (g : Group) : State := { s with g := g, slot := waitingSlot g }

/-- The condition mask that a participant of a `brs.sift` reads in its own slot (R274). -/
def condOf (s : State) (g : Group) (c : Opnd) : Word :=
  match uni (asParticipant s g) 4 c with
  | .ok x => x
  | .error _ => 0

/-- Keys of the threads of a participant. -/
def threadsOf (g : Group) (key : Nat → Nat) : List Thread :=
  (lanes32.filter (laneOn g.present)).map fun l => { from_ := g, lane := l, key := key l }

/-- The group in focus has exited and leaves its place to a new group of a sift: what it has issued is done (R41). -/
def clearOut (s : State) : State := s.g.inflight.foldl landOutside (drainStores s)

/-- The participants replaced by new groups, the first of them in focus (R39 to R43). Exited groups of the role on the core
have returned their slots, and leave too. New group `j` has the sump region of the `j`-th participant
(notes/assumptions/67.md). -/
def commitWith (s : State) (ps : List Group) (home : Bool) (n : Nat) (key : Group → Nat → Nat)
    (move : Group → List (Option Thread) → Group) : Option State := do
  let base ← ps.head?
  let slot ← siftSlot s base
  let s := ps.foldl (fun s g => withGroup s g.ref drainStores) s
  let of_ (g : Group) : Bool := decide (g.ref.team = base.ref.team) && g.role == base.role && g.core == base.core
  let s := ((allGroups s).filter fun g => of_ g && !g.active).foldl (fun s g => withGroup s g.ref clearOut) s
  let ls := regroup home ps.length ((ps.map fun g => threadsOf g (key g)).flatten)
  let sumps := ps.map (·.sumpPa)
  let first := base.ref.gid - base.idx
  let new := (List.range ls.length).map fun j =>
    let l := ls.getD j []
    move (siftGroup { base with haltDue := siftHalt ps } first n j (sumps.getD j 0) (base.slot slot) l) l
  let others := (allGroups s).filter fun g => !of_ g
  let g ← new.head?
  let settle (g : Group) : Group := (settleSlices { s with g := g }).g
  some { s with g := settle g, slot := .A, groups := new.tail.map settle ++ others }

/-- The sift of every participant at one instruction takes effect. -/
def siftNow (s : State) (ps : List Group) (i : Instr) : Option State :=
  match i with
  | .sift home a n =>
      commitWith s ps home n (fun g l => (srcLane (asParticipant s g) a l).toNat)
        fun g _ => { g with a := g.a.moveTo s.now (nextAddr i g.a) }
  | .brsSift c off =>
      let key (g : Group) (l : Nat) : Nat := (laneOn (condOf s g c) l).toNat
      commitWith s ps true (roleOf s).vregs key fun g ls =>
        branchGroup g s.now (maskOf fun l => (ls.getD l none).any fun t => t.key == 1) off
  | _ => none

/-- A slot that waits at a sift that cannot take effect: a `sift` diverges, and a `brs.sift` branches (R44, R379). -/
def siftFails (s : State) (r : GRef) (i : SlotId) : State :=
  withGroup s r fun s =>
    let s := { s with slot := i }
    let s := setCur s { cur s with wait := .running }
    match instrAt s (cur s) with
    | some (.brsSift c off) =>
        match (uni s 4 c).bind fun x => splitOn s x off with
        | .ok s' => s'
        | .error e => raise s (causeHere s e (cur s).after 0x3ff)
    | _ => raise s (causeHere s (.plain 0x206 0) (cur s).pc 0x3ff)

/-- Every participant waits at one instruction and meets R38 (R37, R44). -/
def siftAgrees (s : State) (ps : List Group) : Bool :=
  ps.all fun g => (siftSlot s g).isSome && decide ((g.slot (waitingSlot g)).pc = (s.g.slot (waitingSlot s.g)).pc)

/-- Nothing of the participants is in flight, their handles have resolved, and no pass holds registers of theirs (R38,
R62, R171). -/
def siftQuiet (s : State) (ps : List Group) : Bool :=
  ps.all fun g => g.inflight == [] && g.entry.isNone && (g.hregs.all fun h => resolved s h.2)
    && !locksB s.team g 0 512

/-- The groups of a core have their slots and their register storage on each of its sub-cores (R20, R57). -/
def siftFits (core : Nat) (s : State) : Bool :=
  (List.range 4).all fun sub =>
    let a := takenOn s core sub
    decide (a.1 ≤ Config.groupSlots) && decide (a.2 ≤ Config.regBytes)

/-- `SIFT_COMMIT`: every participant of the group in focus has arrived; the sift takes effect, or it fails (R37, R43,
R379). New groups that need storage which has returned and another team has taken wait for it (R57;
notes/assumptions/104.md). -/
def execSiftCommit (s : State) : Out :=
  let ps := participants s
  if !allArrived s || ps.any (fun g => g.halted || g.stopped) then cannot
  else if siftAgrees s ps then
    if siftQuiet s ps then
      maySome (((instrAt s (s.g.slot (waitingSlot s.g))).bind (siftNow s ps)).filter (siftFits s.g.core))
    else cannot
  else
    let ws := (ps.map fun g => [(g.ref, SlotId.A, g.a), (g.ref, SlotId.B, g.b)].filter fun w => w.2.2.atSift).flatten
    .next (ws.foldl (fun s w => siftFails s w.1 w.2.1) s)

end Sys2Proof.Machine
end

