-- ==== Sys2Proof/Machine/Matrix.lean ====
section
/-!
DEFINITION. Machine/Matrix.lean: assay entries, the arrays and their sequencers (R77 to R79, R86, R167 to R175, R309 to
R314, R382).
-/
namespace Sys2Proof.Machine

/-! ### Assay entries (R175) -/

/-- An assay entry as a number. -/
structure Entry where
  word : Nat
  deriving DecidableEq, Repr

def Entry.bits (e : Entry) (lo w : Nat) : Nat := e.word / 2 ^ lo % 2 ^ w
def Entry.fmt (e : Entry) : Nat := e.bits 268 4
def Entry.planesRead (e : Entry) : Nat := e.bits 264 4
def Entry.planesStored (e : Entry) : Nat := e.bits 260 4
def Entry.space (e : Entry) : Nat := e.bits 256 3
def Entry.columns (e : Entry) : Nat := 32 * (e.bits 240 16 + 1)
def Entry.rows (e : Entry) : Nat := e.bits 224 16 + 1
def Entry.stride (e : Entry) : Nat := e.bits 192 32
def Entry.colScale (e : Entry) : Nat := e.bits 128 64
def Entry.rowScale (e : Entry) : Nat := e.bits 64 64
def Entry.base (e : Entry) : Nat := e.bits 0 64

/-- The reserved bits of an entry are zero. -/
def Entry.clean (e : Entry) : Bool := e.bits 272 240 == 0 && e.bits 259 1 == 0

def entryAt (d : Device) (slot : Nat) : Entry := ⟨(mget 0 d.assay slot).toNat⟩

/-- No reserved value: the formats of the array, and FP32 for a `store`, a space, and for BPI the numbers of planes. An
`mstore` asks all of it of its entry, not the format alone (R312; notes/assumptions/112.md). -/
def Entry.valid (e : Entry) (store : Bool) : Bool :=
  let f := e.fmt
  decide (1 ≤ f) && decide (f ≤ 6) && (store || f != 6) && decide (e.space ≤ 2) && e.clean
    && (f != 5 || (decide (2 ≤ e.planesStored) && decide (e.planesStored ≤ 8) && decide (2 ≤ e.planesRead)
      && decide (e.planesRead ≤ e.planesStored)))

/-- Bits of an element of a format that is stored row by row. -/
def fmtBits : Nat → Nat
  | 1 => 4
  | 2 | 3 => 8
  | 4 => 16
  | _ => 32

/-- The format of the floating-point codes. -/
def fmtOf : Nat → FpFmt
  | 1 => e2m1
  | 2 => e4m3
  | 3 => e5m2
  | 4 => bf16
  | _ => fp32

/-- Width of B's elements in its registers (R167). -/
def bWidth (e : Entry) : Nat :=
  if e.fmt = 1 ∨ (e.fmt = 5 ∧ e.planesRead ≤ 4) then 4 else if e.fmt = 4 then 16 else 8

/-- Tile depth K (R167). -/
def tileDepth (e : Entry) : Nat := 512 / bWidth e

/-- The effective value of the p-bit integer `v` of a BPI element (R78). A field of B in which the bits above those are not
its sign is read by its low p bits (notes/assumptions/73.md). -/
def bpiValue (p : Nat) (v : Nat) : Fv :=
  let x : Int := if v % 2 ^ p ≥ 2 ^ (p - 1) then (v % 2 ^ p : Nat) - (2 ^ p : Int) else (v % 2 ^ p : Nat)
  .fin (decide (x < 0)) x.natAbs (8 - p : Nat)

/-! ### Bytes that engines read (R102, R390) -/

def spaceOfCode : Nat → Space
  | 1 => .sh
  | 2 => .sc
  | _ => .g

/-- A byte at an address of a space as a pass of the team in focus reads it. A byte that lies outside `.sh` or `.sc` has
no stated value, and R382 lets the accepted pass go on: it is a free value (notes/assumptions/61.md). -/
def engineByte (s : State) (spc : Nat) (a : Nat) : Byte × Bool :=
  match resolveAt s (spaceOfCode spc) a 1 1 with
  | .ok l => locByte s l
  | .error _ => (BitVec.ofNat 8 (Config.freeNat s.draw (16 + a)), false)

/-- Addresses of the bytes of element (i, k) (R77, R175), each with the bit it starts at and the number of bits. -/
def elementBytes (e : Entry) (i k : Nat) : List Nat :=
  if e.fmt = 5 then
    (List.range e.planesRead).map fun p => e.base + p * e.stride + (i * e.columns + k) / 8
  else
    let b := fmtBits e.fmt
    (List.range ((b + 7) / 8)).map fun n => e.base + i * e.stride + k * b / 8 + n

/-- The value of element (i, k) of a tensor, from a reader of its bytes. -/
def elementValue (e : Entry) (rd : Nat → Byte) (i k : Nat) : Fv :=
  let bs := (elementBytes e i k).map rd
  if e.fmt = 5 then
    let n := i * e.columns + k
    bpiValue e.planesRead (bs.foldl (fun v b => 2 * v + b.toNat / 2 ^ (n % 8) % 2) 0)
  else
    let b := fmtBits e.fmt
    let x := leNat bs / 2 ^ (k * b % 8) % 2 ^ b
    (fmtOf e.fmt).value x

/-- The exponent code of entry `n` of a scale vector (R79, R175). -/
def scaleCode (addr : Nat) (rd : Nat → Byte) (n : Nat) : Nat := if addr = 0 then 0x7f else (rd (addr + n)).toNat

/-! ### Matrix commands (R168) -/

def Pass.gathered (p : Pass) : Bool := cmdBits p.m2 31 1 == 1
def Pass.tile (p : Pass) : Nat := cmdBits p.m2 30 1
def Pass.listAt (p : Pass) : Nat := 8 * cmdBits p.m2 0 19
def Pass.kg0 (p : Pass) : Nat := cmdBits p.m1 20 12
def Pass.bcol0 (p : Pass) : Nat := cmdBits p.m1 4 16
def Pass.aslot (p : Pass) : Nat := cmdBits p.m0 24 8
def Pass.bslot (p : Pass) : Nat := cmdBits p.m0 16 8
def Pass.arow0 (p : Pass) : Nat := cmdBits p.m0 0 16

/-- The 256 entries of a gathered pass's lists: rows, then targets (R170). -/
def readLists (s : State) (p : Pass) : List Nat :=
  if p.gathered then
    (List.range 256).map fun n =>
      (mget (0 : Byte) s.team.shared (p.listAt + 2 * n)).toNat
        + 256 * (mget (0 : Byte) s.team.shared (p.listAt + 2 * n + 1)).toNat
  else []

/-- The first poisoned byte of a gathered pass's lists: they are no values then (R394, R404; notes/assumptions/96.md). -/
def listPoison (s : State) (p : Pass) : Option Nat :=
  if p.gathered then
    ((List.range 512).find? fun n => s.team.poison.contains ((p.listAt + n) / 32)).map fun n => p.listAt + n
  else none

/-- Entry `e` of a list is live. -/
def listLive (ls : List Nat) (e : Nat) : Bool := natAt ls e != 0xffff

/-- The lists of a gathered pass lie in the team's shared memory, and every live entry names a row of A and a target of
its sub-core (R170). -/
def listsOk (s : State) (p : Pass) (a : Entry) (ls : List Nat) : Bool :=
  !p.gathered || (decide (p.listAt + 512 ≤ s.team.kernel.shared) && (List.range 128).all fun e =>
    !listLive ls e || (decide (p.arow0 + natAt ls e < a.rows) && natAt ls (128 + e) / 128 == e / 32))

/-- The entries of a command are valid and hold what it uses (R175). -/
def entriesOk (p : Pass) (a b : Entry) : Bool :=
  let k := tileDepth b
  a.valid false && b.valid false && (p.gathered || decide (p.arow0 + 512 ≤ a.rows))
    && decide (32 * p.kg0 + k ≤ a.columns) && decide (32 * p.kg0 + k ≤ b.rows) && decide (p.bcol0 + 128 ≤ b.columns)

/-- A command passes the checks of R170 and R175 against the entries of its slots now; poisoned lists are met when they are
taken. -/
def passOk (s : State) (p : Pass) : Bool :=
  let a := entryAt s.vd p.aslot
  let b := entryAt s.vd p.bslot
  entriesOk p a b && ((listPoison s p).isSome || listsOk s p a (readLists s p))

/-! ### Quads and sequencers (R21, R172) -/

/-- The group of a team with a role and role-local index on a core. -/
def groupAt (s : State) (t : TRef) (core role idx : Nat) : Option Group :=
  (allGroups s).find? fun g => decide (g.ref.team = t) && g.core == core && g.role == role && g.idx == idx

/-- The four groups of a quad, all non-exited. -/
def quadOf (s : State) (t : TRef) (core role quad : Nat) : Option (List Group) :=
  ((List.range 4).map fun j => groupAt s t core role (4 * quad + j)).mapM fun g => g.filter Group.active

/-- The groups of a quad that a pass uses from its acceptance on, whether or not a member has exited since (R166, R171):
the quad is tested when the command is accepted or sent, and never again. -/
def quadGroups (s : State) (t : TRef) (core role quad : Nat) : List (Option Group) :=
  (List.range 4).map fun j => groupAt s t core role (4 * quad + j)

/-- The passes queued at core `c` of the team in focus. -/
def passesAt (s : State) (c : Nat) : List Pass := mget [] s.team.passes c

def setPasses (s : State) (c : Nat) (ps : List Pass) : State :=
  { s with team := { s.team with passes := mset [] s.team.passes c ps } }

/-- Place of a core in the team in focus. -/
def coreIdx (s : State) (core : Nat) : Nat := s.team.cores.idxOf core

/-- A sequencer of the core has no room for a pass on these sub-cores (R172). -/
def sequencersFull (s : State) (c : Nat) (subs : List Nat) : Bool :=
  subs.any fun u => decide (((passesAt s c).filter fun p => p.subs.contains u).length ≥ Config.sequencerPasses)

/-- A pass that joins the queues. -/
def newPass (s : State) (role quad : Nat) (subs : List Nat) (m0 m1 m2 : Word) (zero : Option Bool) (h : Dword) : Pass :=
  { serial := s.team.passSerial + 1, role := role, quad := quad, subs := subs, m0 := m0, m1 := m1, m2 := m2, zero := zero
    handle := h, ready := none, started := false, locked := false, step := 0, steps := 0, aEntry := 0, bEntry := 0, list := [], t2 := 0, t3 := 0
    failed := none }

def queuePass (s : State) (c : Nat) (p : Pass) : State :=
  let s := setPasses s c (passesAt s c ++ [p])
  { s with team := { s.team with passSerial := s.team.passSerial + 1 } }

/-! ### `mma` and `mma.g` (R171, R309, R382) -/

/-- The command fields meet R309 for an instruction. -/
def commandOk (s : State) (g : Bool) (m1 m2 : Word) : Bool :=
  (cmdBits m2 31 1 == g.toNat) && cmdBits m2 21 4 == 0 && cmdBits m2 19 2 == 0 && (g || cmdBits m2 0 19 == 0)
    && cmdBits m1 0 4 == 0 && decide (16 * cmdBits m2 25 5 + 16 ≤ (roleOf s).vregs)

/-- A cause in a group that waits for its quad. -/
def matrixRaise (s : State) (r : GRef) (x : Raise) : State :=
  withGroup s r fun s =>
    let i := s.g.offerSlot
    let s := setCur { s with slot := i, g := { s.g with offered := none } } { s.g.slot i with wait := .running }
    raise s (causeHere s x (cur s).pc 0x3ff)

/-- The cause 0x20c in a group that waits for its quad. -/
def matrixFault (s : State) (r : GRef) (detail : Nat) : State := matrixRaise s r (.plain 0x20c detail)

/-- A group of an accepted command: its instruction is in flight until the pass retires. -/
def acceptGroup (i : Instr) (core serial : Nat) (s : State) (r : GRef) : State :=
  withGroup s r fun s =>
    let s := { s with slot := s.g.offerSlot, g := { s.g with offered := none } }
    let t := launchLong i { Effect.of s with until_ := .pass core serial }
    setCur t (cur t).uncalm

/-- The quad of which a group is a member, where it is complete. -/
def quadHere (s : State) : Option (List Group) := quadOf s s.g.ref.team s.g.core s.g.role (s.g.idx / 4)

/-- The members of the group's quad that wait for it, itself included. -/
def quadWaiters (s : State) : List Group :=
  ((List.range 4).filterMap fun j => groupAt s s.g.ref.team s.g.core s.g.role (s.g.idx / 4 * 4 + j)).filter fun g =>
    g.offered.isSome

/-- The command of a group is offered to its quad and accepted once the four have issued it. A slot that waits for its quad
has released its port (notes/assumptions/91.md). -/
def matrixIssue (i : Instr) (gathered : Bool) (a : Opnd) (s : State) : Out :=
  let m := readRun s (regNo a) 3
  let cmd : Bool × Word × Word × Word := (gathered, m.getD 0 0, m.getD 1 0, m.getD 2 0)
  if s.g.offered.isSome && s.g.offerSlot != s.slot then .next (pauseAs s .accept)
  else
    let s' := pauseAs { s with g := { s.g with offered := some (s.g.offered.getD cmd), offerSlot := s.slot } } .accept
    match quadHere s' with
    | none => .next ((quadWaiters s').foldl (fun s g => matrixFault s g.ref 1) s')
    | some gs =>
        if gs.any fun g => g.offered.isNone then .next s'
        else if gs.any fun g => g.offered.map (·.2) != s'.g.offered.map (·.2) then
          .next (gs.foldl (fun s g => matrixFault s g.ref 2) s')
        else
          let c := (s'.g.offered.getD cmd).2
          let forms := gs.all fun g => commandOk s' (g.offered.getD cmd).1 c.2.1 c.2.2
          let k := coreIdx s' s'.g.core
          let p := newPass s' s'.g.role (s'.g.idx / 4) [0, 1, 2, 3] c.1 c.2.1 c.2.2 none 0
          if forms && (listPoison s' p).isSome then
            .next (gs.foldl (fun s g => matrixRaise s g.ref (poisonRaise .sh 0 ((listPoison s' p).getD 0) [])) s')
          else if !(forms && passOk s' p) then
            .next (gs.foldl (fun s g => matrixFault s g.ref 3) s')
          else if sequencersFull s' k [0, 1, 2, 3] then .next (pauseAs s' .pass)
          else
            let s' := gs.foldl (fun s g => withGroup s g.ref drainStores) s'
            .next (gs.foldl (fun s g => acceptGroup i k p.serial s g.ref) (queuePass s' k p))

/-- `mma` (R309). -/
def execMma (a : Opnd) (s : State) : Out := matrixIssue (.mma a) false a s
/-- `mma.g` (R309). -/
def execMmaG (a : Opnd) (s : State) : Out := matrixIssue (.mmaG a) true a s

/-- `mzero` (R310): it waits while its sequencer is full (R172). -/
def execMzero (t : Bool) (s : State) : Out :=
  let k := coreIdx s s.g.core
  if sequencersFull s k [s.g.sub] then .next (pauseAs s .pass)
  else
    let p := newPass s 0 0 [s.g.sub] 0 0 0 (some t) 0
    issue (.mzero t) (.ok { Effect.of (queuePass s k p) with until_ := .pass k p.serial }) s

/-! ### Accumulator tiles (R311) -/

/-- The row that `mrd` names. It never faults past decode (R385), so a register that is not uniform names a free row
(notes/assumptions/62.md). -/
def mrdRow (s : State) (a : Opnd) : Nat :=
  match uni s 1 a with
  | .ok x => x.toNat % 128
  | .error _ => Config.freeNat s.draw 11 % 128

/-- `mrd` (R311). -/
def execMrd (t : Bool) (d a : Opnd) (s : State) : Out :=
  issue (.mrd t d a) (.ok (.write s ((List.range 4).map fun k =>
    vecWrite s (regNo d + k) (fun _ => .general) fun l =>
      tileAt s.team (coreIdx s s.g.core) s.g.sub t.toNat (mrdRow s a) (32 * k + l)))) s

/-! ### Assay instructions (R313) -/

/-- `assay.set` (R313). -/
def execAssaySet (a : Opnd) (slot : Byte) (s : State) : Out :=
  let w : Nat := wordsNat (readRun s (regNo a) 16)
  issue (.assaySet a slot)
    (if (Entry.mk w).clean then
       .ok (.of { s with vd := { s.vd with assay := mset 0 s.vd.assay slot.toNat (BitVec.ofNat 512 w) } })
     else .error (.plain 0x20d 0)) s
/-- `assay.get` (R313). -/
def execAssayGet (d : Opnd) (slot : Byte) (s : State) : Out :=
  issue (.assayGet d slot) (.ok (.write s (scaRun (regNo d) (natWords 16 (mget 0 s.vd.assay slot.toNat).toNat)))) s
/-- `assay.inv` (R313). -/
def execAssayInv (slot : Byte) (s : State) : Out :=
  issue (.assayInv slot) (.ok (.of { s with vd := { s.vd with assay := mset 0 s.vd.assay slot.toNat 0 } })) s

/-! ### Passes (R86, R169 to R174) -/

/-- The element B[k][j] from the quad's registers (R167): 0 in a lane whose slice has returned, as for the instructions that
R58 names (notes/assumptions/95.md). -/
def bElement (e : Entry) (breg : Nat) (quad : List (Option Group)) (k j : Nat) : Fv :=
  let w := bWidth e
  let x := match quad.getD (j / 32) none with
    | some g => if g.returned.getLsbD (j % 32 / 8) then 0 else (laneAt (vreg g (breg + k * w / 32)).lanes (j % 32)).toNat / 2 ^ (k * w % 32) % 2 ^ w
    | none => 0
  if e.fmt = 5 then bpiValue e.planesRead x else (fmtOf e.fmt).value x

/-- The product of two elements with the sum of their four scale codes: a NaN where a scale or an element is one, and for
zero times infinity (R79, R86). -/
def term (a b : Fv) (scales : List Nat) : Fv :=
  if scales.any (· == 255) || a.isNan || b.isNan then .nan false
  else match a.times b with
    | some (.fin n m e) => .fin n m (e + (scales.foldl (· + ·) 0 : Nat) - 508)
    | some x => x
    | none => .nan false

/-- One group of R86 applied to an accumulator. -/
def accumulate (acc : Word) (ts : List Fv) : Word :=
  let c := fp32.value acc.toNat
  let all := c :: ts
  let pos := all.any fun x => x == .inf false
  let neg := all.any fun x => x == .inf true
  if all.any Fv.isNan || (pos && neg) then w32 fp32.canon
  else if pos then w32 (fp32.infinity false)
  else if neg then w32 (fp32.infinity true)
  else
    let x : Dy := all.foldl (fun a t => a.add t.dy) { m := 0, e := 0 }
    if x.m = 0 then w32 (fp32.zero (all.all fun t => t.isZero && t.neg)) else w32 (fp32.fit .rn x).1

/-- Addresses that step `g` of a pass reads for row `r` of A and its scales. -/
def rowBytes (p : Pass) (a : Entry) (g r : Nat) : List Nat :=
  ((List.range 32).map fun kk => elementBytes a r (32 * (p.kg0 + g) + kk)).flatten
    ++ (if a.rowScale = 0 then [] else [a.rowScale + r]) ++ (if a.colScale = 0 then [] else [a.colScale + p.kg0 + g])

/-- Addresses in B's space that step `g` reads. -/
def bBytes (p : Pass) (b : Entry) (g : Nat) : List Nat :=
  (if b.rowScale = 0 then [] else [b.rowScale + p.kg0 + g])
    ++ (if b.colScale = 0 then [] else (List.range 128).map fun j => b.colScale + p.bcol0 + j)

/-- Rows of A that a pass uses. -/
def passRows (p : Pass) : List Nat :=
  if p.gathered then
    ((List.range 128).filter (listLive p.list)).map fun e => p.arow0 + natAt p.list e
  else (List.range 512).map fun r => p.arow0 + r

def Pass.entryA (p : Pass) : Entry := ⟨p.aEntry.toNat⟩
def Pass.entryB (p : Pass) : Entry := ⟨p.bEntry.toNat⟩

/-- Space code and address of every byte that step `g` reads. -/
def stepReads (p : Pass) (g : Nat) : List (Nat × Nat) :=
  (((passRows p).map (rowBytes p p.entryA g)).flatten.map fun a => (p.entryA.space, a))
    ++ (bBytes p p.entryB g).map fun a => (p.entryB.space, a)

/-- The new value of an accumulator element after step `g` with row `r` of A. -/
def stepElement (s : State) (p : Pass) (quad : List (Option Group)) (g r j : Nat) (acc : Word) : Word :=
  let a := p.entryA
  let b := p.entryB
  let ra (x : Nat) : Byte := (engineByte s a.space x).1
  let rb (x : Nat) : Byte := (engineByte s b.space x).1
  let scales := [scaleCode a.rowScale ra r, scaleCode a.colScale ra (p.kg0 + g), scaleCode b.rowScale rb (p.kg0 + g),
    scaleCode b.colScale rb (p.bcol0 + j)]
  accumulate acc ((List.range 32).map fun kk =>
    term (elementValue a ra r (32 * (p.kg0 + g) + kk)) (bElement b p.breg quad (32 * g + kk) j) scales)

/-- One row of a tile after a step with row `r` of A. -/
def stepRow (s : State) (p : Pass) (quad : List (Option Group)) (g r c sub row : Nat) (t : Team) : Team :=
  (List.range 128).foldl (fun t j =>
    let x : Word := stepElement s p quad g r j (tileAt t c sub p.tile row j)
    { t with tiles := mset 0 t.tiles (tileKey c sub p.tile row j) x }) t

/-- Step `g` of a pass at core `c` (R169, R170). -/
def stepTiles (s : State) (p : Pass) (quad : List (Option Group)) (g c : Nat) : Team :=
  if p.gathered then
    ((List.range 128).filter (listLive p.list)).foldl (fun t e =>
      stepRow s p quad g (p.arow0 + natAt p.list e) c (e / 32) (natAt p.list (128 + e) % 128) t) s.team
  else
    (List.range 512).foldl (fun t i => stepRow s p quad g (p.arow0 + i) c (i / 128) (i % 128) t) s.team

/-- Pass `k` of the team's core `c`, with the team in focus and no group but that core's: its accesses are that die's
(R118, R133). -/
def focusPass (s : State) (t : TRef) (c k : Nat) : Option (State × Pass) :=
  (focusTeam (stash s) t).bind fun s => ((passesAt s c)[k]?).map fun p =>
    ({ s with g := { Group.idle with core := natAt s.team.cores c } }, p)

def replacePass (s : State) (c k : Nat) (p : Pass) : State := setPasses s c (setAt (passesAt s c) k p)

/-- A write to the pass's B registers is in flight in a group of its quad (R171). -/
def bInFlight (p : Pass) (g : Group) : Bool :=
  g.inflight.any fun i => i.writes.any fun w => match w with
    | .vec n m _ _ => m != 0 && decide (p.breg ≤ n) && decide (n < p.breg + 16)
    | _ => false

/-- Firmware has repaired the poisoned page-table entries that walks to bytes of `.g` meet; the pass waits for it (R403). -/
def repairReads (s : State) (reads : List (Nat × Nat)) : State :=
  reads.foldl (fun s r =>
    if r.1 != 0 then s else repairWalk levels.length r.2 s) s

/-- The bytes that the steps of a pass read. -/
def passReads (p : Pass) : List (Nat × Nat) := ((List.range p.steps).map fun g => stepReads p g).flatten

/-- The first byte of `.g` that a pass will read and that fails translation or permission, with its check (R382). An
address past the 57 bits is one that no table covers. -/
def passFault (s : State) (p : Pass) : Option (Chk × Nat) :=
  ((passReads p).filter fun r => r.1 == 0).findSome? fun r =>
    if r.2 ≥ 2 ^ 57 then some (⟨3, 0x400, 4⟩, r.2)
    else match translate s r.2 1 with
      | .error c => if c.code = 0x406 then none else some (c, r.2)
      | .ok _ => none

/-- The first poisoned byte that step `g` would read (R394). -/
def passPoison (s : State) (p : Pass) (g : Nat) : Option (Nat × Nat) :=
  (stepReads p g).find? fun r => (engineByte s r.1 r.2).2

/-- The cause of a pass in a group of its quad: it names the instruction in flight where the pass has one (R366, R382,
R394). -/
def passCause (g : Group) (p : Pass) (c code detail addr : Nat) : Cause :=
  let f := g.inflight.find? fun i => i.until_ == .pass c p.serial
  let pc := (f.map (·.pc)).getD g.a.pc
  { code := code, kind := .sup, detail := BitVec.ofNat 8 detail, slot := (f.map (·.slot)).getD .A, pc := pc, next := pc
    mask := 0, dst := 0x3ff, addr := some (addrWord addr), lanes := [] }

/-- Every group of the pass's quad takes its cause, once what it has in flight has completed (R366); each cause is formed
before the first is entered, which ends the team. -/
def passRaise (s : State) (p : Pass) (c code detail addr : Nat) : State :=
  let gs := ((quadGroups s s.team.ref (natAt s.team.cores c) p.role p.quad).filterMap id).filter Group.active
  (gs.map fun g => (g.ref, passCause g p c code detail addr)).foldl
    (fun s e => withGroup s e.1 fun s => raise s e.2) s

/-- The pass takes what its slots hold as it starts (R169, R170, R382). -/
def startedPass (s : State) (p : Pass) : Pass :=
  let ls := readLists s p
  let a := entryAt s.vd p.aslot
  let b := entryAt s.vd p.bslot
  let ok := entriesOk p a b && listsOk s p a ls
  { p with started := true, locked := ok, aEntry := BitVec.ofNat 512 a.word, bEntry := BitVec.ofNat 512 b.word, list := ls
           steps := if ok then tileDepth b / 32 else 0, failed := if ok then none else some (0x503, 0) }

/-- The A data of a follow-on lies in its job's destination extent or extra region (R174). -/
def insideFootprint (p : Pass) (j : Job) : Bool :=
  (List.range (32 * p.steps)).all fun k =>
    (((passRows p).map fun r => elementBytes p.entryA r (32 * p.kg0 + k)).flatten).all fun a =>
      (j.writes ++ j.reads.drop 1).any fun r => r.space == p.entryA.space && decide (r.lo ≤ a) && decide (a < r.hi)

/-- Two passes of a core keep the order of their arrival: they are of one quad, or one of them zeroes a tile of a sub-core
that the other occupies (R172, R310). -/
def inTurn (p q : Pass) : Bool :=
  q.subs.any p.subs.contains && (q.zero.isSome || p.zero.isSome || (q.role == p.role && q.quad == p.quad))

/-- Pass `q`, at place `i`, became ready before pass `p`, at place `k` (R172). -/
def readyBefore (q p : Pass) (i k : Nat) : Bool :=
  match q.ready, p.ready with
  | none, _ => false
  | some _, none => true
  | some a, some b => decide (a < b) || (a == b && decide (i < k))

/-- Pass `k` of a core's queue must wait for pass `i` of it: the sub-core is at work on that one, or they keep the order of
their arrival and it stands earlier, or it became ready before (R172, R310). -/
def waitsFor (ps : List Pass) (k i : Nat) : Bool :=
  match ps[k]?, ps[i]? with
  | some p, some q =>
      i != k && q.subs.any p.subs.contains && (q.started || (if inTurn p q then decide (i < k) else readyBefore q p i k))
  | _, _ => false

/-- A pass can become ready: no write to its B registers is in flight, and the passes whose turn comes before are ready
(R171, R172). -/
def canReady (s : State) (t : Team) (c : Nat) (before : List Pass) (p : Pass) : Bool :=
  p.ready.isNone && !p.started && (before.all fun q => !inTurn p q || q.started || q.ready.isSome)
    && (p.zero.isSome || !((quadGroups s t.ref (natAt t.cores c) p.role p.quad).any fun g => g.any (bInFlight p)))

/-- The passes of core `c` of a team, each that has become ready noted. -/
def readyPasses (s : State) (t : Team) (c : Nat) (ps : List Pass) : List Pass :=
  ps.foldl (fun done p => done ++ [if canReady s t c done p then { p with ready := some s.now } else p]) []

/-- The passes of the machine that have become ready by now (R172). -/
def noteReady (s : State) : State :=
  onTeams s (fun t => t.passes != []) fun t => { t with passes := t.passes.map fun e => (e.1, readyPasses s t e.1 e.2) }

/-- The core whose CYCLE a pass's stamps take: its job's, as the four times of a record come from one core (R176, R357). -/
def stampCore (s : State) (p : Pass) (core : Nat) : Nat :=
  ((s.vd.jobs.find? fun j => j.handle = p.handle && p.handle != 0).map (·.core)).getD core

/-- `PASS_START` (R171, R172, R174, R382, R383): no write to its B registers is in flight and its sub-cores are free. A pass that
fails takes no step; one sent by instruction whose pages fail ends its team. -/
def execPassStart (t : TRef) (c k : Nat) (s : State) : Out :=
  maySome ((focusPass s t c k).bind fun (s, p) =>
    let ps := passesAt s c
    let core := natAt s.team.cores c
    let now := cycle32 s (stampCore s p core)
    if p.started || (List.range ps.length).any (waitsFor ps k) || s.team.mode != .running then none
    else if p.zero.isSome then some (replacePass s c k { p with started := true, steps := 1, t2 := now })
    else if (quadGroups s t core p.role p.quad).any fun g => g.any (bInFlight p) then none
    else
      let q := { startedPass s p with t2 := now }
      let job := s.vd.jobs.find? fun j => j.handle = p.handle && p.handle != 0
      match listPoison s p with
      | some a =>
          let q := { q with steps := 0, locked := false, failed := some (0x406, w64 a) }
          some (passRaise (replacePass s c k q) q c 0x600 1 a)
      | none =>
      if q.failed.isSome then some (replacePass s c k q)
      else if job.any fun j => !insideFootprint q j then
        some (replacePass s c k { q with steps := 0, locked := false, failed := some (0x501, 0) })
      else
        let s := repairReads s (passReads q)
        match passFault s q with
        | some (f, a) =>
            let q := { q with steps := 0, locked := false, failed := some (f.code, w64 a) }
            let s := replacePass s c k q
            some (if p.handle = 0 then passRaise s q c f.code f.detail a else s)
        | none => some (replacePass s c k q))

/-- Cell-cycles counted for a step (R321, R353). -/
def countCells (s : State) (n : Nat) : State :=
  meter { s with team := { s.team with counts := setAt s.team.counts 1 (natAt s.team.counts 1 + n) } } 1 n

/-- The other team in whose window a byte of `.sh` lies (R108). -/
def otherOwner (s : State) (spc a : Nat) : Option TRef :=
  match resolveAt s (spaceOfCode spc) a 1 1 with
  | .ok l => match l.home with
      | .shared t => if t = s.team.ref then none else some t
      | _ => none
  | .error _ => none

/-- What a step reads moves through the ports (R147, R155, R353). -/
def countStep (s : State) (reads : List (Nat × Nat)) : State :=
  countReads s (reads.filterMap fun r => match resolveAt s (spaceOfCode r.1) r.2 1 1 with
    | .ok l => some (l, 1)
    | .error _ => none)

/-- `PASS_STEP` (R169, R170, R172): one step, applied whole; a step that would read poison ends the pass (R394), or loses the
other team in whose window the poison lies (R400). -/
def execPassStep (t : TRef) (c k : Nat) (s : State) : Out :=
  maySome ((focusPass s t c k).bind fun (s, p) =>
    let core := natAt s.team.cores c
    let now := cycle32 s (stampCore s p core)
    if !p.started || decide (p.step ≥ p.steps) || p.failed.isSome || s.team.mode != .running then none
    else
      match p.zero with
      | some tile =>
          let sub := p.subs.headD 0
          let tiles := s.team.tiles.filter fun e => e.1 / 16384 != (c * 4 + sub) * 2 + tile.toNat
          some (replacePass { s with team := { s.team with tiles := tiles } } c k { p with step := 1, t3 := now })
      | none =>
          let s := repairReads s (stepReads p p.step)
          let s := countStep s (stepReads p p.step)
          match passPoison s p p.step with
          | some (spc, a) =>
              match otherOwner s spc a with
              | some o => some (loseTeam s o 0x600 1)
              | none =>
              let q := { p with failed := some (0x406, w64 a) }
              let s := replacePass s c k q
              some (passRaise s q c (if spc = 0 then 0x406 else 0x600) spc a)
          | none =>
              let s := { s with team := stepTiles s p (quadGroups s t core p.role p.quad) p.step c }
              some (countCells (replacePass s c k { p with step := p.step + 1, t3 := now })
                (if p.gathered then 32768 else 131072)))

/-- A pass is over: its steps are done or it has failed. -/
def Pass.over (p : Pass) : Bool := p.started && (p.failed.isSome || decide (p.step ≥ p.steps))

/-- `PASS_RETIRE` (R171): the pass leaves the sequencers; its groups' flags clear at FLAG_CLEAR. A follow-on's job takes
its outcome. A follow-on that took no step writes its stamp too, with T2 the attempt to start it and T3 its retirement
(R176; notes/assumptions/90.md). -/
def execPassRetire (t : TRef) (c k : Nat) (s : State) : Out :=
  maySome ((focusPass s t c k).bind fun (s, p) =>
    if p.over then
      let s := setPasses s c (dropAt (passesAt s c) k)
      some (if p.handle = 0 then s
        else
          let d := { s.vd with jobs := s.vd.jobs.map fun j =>
            if j.handle = p.handle then { j with behind := [], code := match p.failed with
              | some f => f.1
              | none => j.code } else j }
          let s := { s with vd := d }
          match s.vd.jobs.find? fun j => j.handle = p.handle with
          | some j =>
              let card : Nat := j.card.toNat
              if card / 2 ^ 20 % 2 = 1 then
                writeStamp s (stampRecord s.team j.core 0 (card / 2 ^ 80 % 2 ^ 16) j.t0 j.t1 p.t2
                  (if p.step = 0 then cycle32 s j.core else p.t3))
              else s
          | none => s)
    else none)

end Sys2Proof.Machine
end

