-- ==== Sys2Proof/Machine/Engine.lean ====
section
/-!
DEFINITION. Machine/Engine.lean: job cards and the copy engines (R114, R135, R136, R160 to R166, R395), handles, and
`mstore` (R304 to R308, R312).
-/
namespace Sys2Proof.Machine

/-! ### Cards (R160) -/

/-- A job card as a number. -/
structure Card where
  word : Nat
  deriving DecidableEq, Repr

def Card.bits (c : Card) (lo w : Nat) : Nat := c.word / 2 ^ lo % 2 ^ w
def Card.src (c : Card) : Nat := c.bits 224 64
def Card.dst (c : Card) : Nat := c.bits 160 64
def Card.sstride (c : Card) : Nat := c.bits 128 32
def Card.dstride (c : Card) : Nat := c.bits 96 32
def Card.rows (c : Card) : Nat := c.bits 64 16 + 1
def Card.rowlen (c : Card) : Nat := c.bits 32 32
def Card.scope (c : Card) : Nat := c.bits 29 3
def Card.dsp (c : Card) : Nat := c.bits 27 2
def Card.ssp (c : Card) : Nat := c.bits 25 2
def Card.exsp (c : Card) : Nat := c.bits 23 2
def Card.gsp (c : Card) : Nat := c.bits 21 2
def Card.gauge (c : Card) : Nat := c.bits 288 32
def Card.init (c : Card) : Bool := c.bits 19 1 == 1
def Card.psz (c : Card) : Nat := c.bits 16 3
def Card.exlen (c : Card) : Nat := c.bits 384 32
def Card.exbase (c : Card) : Nat := c.bits 320 64

/-- The extent of rows (R161). -/
def Card.extent (c : Card) (spc start stride : Nat) : Region :=
  { space := spc, lo := start, hi := start + (c.rows - 1) * stride + c.rowlen }

def Card.dstExtent (c : Card) : Region := c.extent c.dsp c.dst c.dstride
def Card.srcExtent (c : Card) : Region := c.extent c.ssp c.src c.sstride

/-- The job copies from a source. -/
def Card.copies (c : Card) (k : JobKind) : Bool := k == .cpy || k == .cpym || (k == .rowcpy && !c.init)

/-- The regions a job reads: its source, then its extra region (R161). -/
def Card.readRegions (c : Card) (k : JobKind) : List Region :=
  (if c.copies k then [c.srcExtent] else [])
    ++ (if c.exlen = 0 then [] else [{ space := c.exsp, lo := c.exbase, hi := c.exbase + c.exlen }])

def Region.meets (a b : Region) : Bool := a.space == b.space && decide (a.lo < b.hi) && decide (b.lo < a.hi)

/-- Bytes from an offset lie at valid addresses of a space that is not main memory (R94). An offset in a live cluster
window is a valid address of `.sh`, for a gauge word as for an extent (notes/assumptions/63.md). -/
def inSpace (s : State) (spc lo hi : Nat) : Bool :=
  match spc with
  | 0 => true
  | 1 =>
      if lo < 0x1000000 then decide (hi ≤ s.team.kernel.shared)
      else
        let m := (lo - 0x1000000) / 0x200000
        decide (m < 16) && (windowOwner s m).any fun o => decide (lo % 0x200000 + (hi - lo) ≤ o.kernel.shared)
  | _ => decide (hi ≤ scBytes s.vd s.team.die)

/-- The card is accepted (R162). -/
def cardOk (s : State) (k : JobKind) (c : Card) : Bool :=
  c.bits 0 16 == 0 && decide (1 ≤ c.scope) && decide (c.scope ≤ 5) && c.dsp != 3 && (k == .rowcpy && c.init || c.ssp != 3)
    && c.exsp != 3 && c.gsp != 3 && (k == .cpym || (c.bits 416 96 == 0 && c.bits 20 1 == 0))
    && (k == .rowcpy || !c.init) && (if k = .fill then decide (c.psz ≤ 3) else c.psz == 0)
    && decide (1 ≤ c.rowlen) && decide (c.rowlen ≤ 2 ^ 24) && (c.rows == 1 || decide (c.dstride ≥ c.rowlen))
    && !(c.copies k && c.srcExtent.meets c.dstExtent)
    && (k != .fill || (c.dst % 2 ^ c.psz == 0 && c.dstride % 2 ^ c.psz == 0 && c.rowlen % 2 ^ c.psz == 0))
    && (k != .rowcpy || (c.dsp == 0 && (c.init || c.ssp == 0)))
    && (c.gsp == 0 || (c.gauge % 16 == 0 && inSpace s c.gsp c.gauge (c.gauge + 16)))

/-- Every extent in `.sh` or `.sc` lies at valid addresses (R162). -/
def extentsOk (s : State) (k : JobKind) (c : Card) : Bool :=
  (c.dstExtent :: c.readRegions k).all fun r => inSpace s r.space r.lo r.hi

/-! ### Edges (R135) -/

/-- Regions of two jobs are compared: `.sh` regions of one team only. -/
def sameSpace (a b : TRef) (r q : Region) : Bool := r.meets q && (r.space != 1 || decide (a = b))

/-- An earlier job with an edge to a later one. -/
def edge (team : TRef) (reads writes : List Region) (j : Job) : Bool :=
  let hit (xs ys : List Region) : Bool := xs.any fun x => ys.any (sameSpace j.team team x)
  hit j.writes reads || hit j.reads writes || hit j.writes writes

/-- Handles of the unfinished jobs of the device and die that a new job follows. -/
def predsOf (s : State) (reads writes : List Region) : List Dword :=
  (s.vd.jobs.filter fun j => j.core / 128 == s.g.core / 128 && edge s.team.ref reads writes j).map (·.handle)

/-- Jobs that the core's bucket holds (R163). -/
def bucketCount (s : State) (core : Nat) : Nat :=
  (allDevices s).foldl (fun n d => n + (d.jobs.filter fun j => j.core == core).length) 0

/-- A job of the group in focus that has been taken. -/
def newJob (s : State) (h : Dword) (k : JobKind) (card : BitVec 512) (reads writes : List Region) (behind : List Nat) :
    Job :=
  { handle := h, kind := k, team := s.team.ref, gid := s.g.ref.gid, core := s.g.core, place := coreIdx s s.g.core, card := card, reads := reads
    writes := writes, preds := predsOf s reads writes, started := false, moved := 0, counted := 0, fb := false
    gd := false, code := 0, sent := false, cancel := false, t0 := cycle32 s s.g.core, t1 := 0, behind := behind }

def scopeOf : Nat → Scope
  | 1 => .core
  | 2 => .team
  | 3 => .die
  | 4 => .pkg
  | 5 => .fab
  | _ => .grp

/-- The card's job, or its rejection, with a new handle (R305). -/
def takeCard (s : State) (k : JobKind) (w : Nat) : State × Dword :=
  let c : Card := ⟨w⟩
  let s := releaseAt s (scopeOf c.scope)
  let (s, h) := newHandle s s.g.core 0
  if !cardOk s k c then ({ s with vd := resolve s.vd h (statusWord 3 false false false false 0x500) }, h)
  else if !extentsOk s k c then ({ s with vd := resolve s.vd h (statusWord 3 false false false false 0x402) }, h)
  else
    let j := newJob s h k (BitVec.ofNat 512 w) (c.readRegions k) [c.dstExtent] []
    ({ s with vd := { s.vd with
      jobs := s.vd.jobs ++ [j], fabJobs := if c.scope = 5 then s.vd.fabJobs ++ [h] else s.vd.fabJobs } }, h)

/-- An instruction that issues a card (R305): it waits while the bucket is full. -/
def cardIssue (i : Instr) (d a : Opnd) (k : JobKind) (s : State) : Out :=
  if bucketCount s s.g.core ≥ Config.bucketJobs then .next (pauseAs s .jobIssue)
  else
    let r := takeCard s k (wordsNat (readRun s (regNo a) 16))
    issue i (.ok (.write r.1 [.hnd (regNo d) r.2])) s

/-- `cpy` (R161, R305). -/
def execCpy (d a : Opnd) (s : State) : Out := cardIssue (.cpy d a) d a .cpy s
/-- `cpym` (R161, R166, R305). -/
def execCpym (d a : Opnd) (s : State) : Out := cardIssue (.cpym d a) d a .cpym s
/-- `fill` (R161, R305). -/
def execFill (d a : Opnd) (s : State) : Out := cardIssue (.fill d a) d a .fill s
/-- `rowcpy` (R114, R161, R305). -/
def execRowcpy (d a : Opnd) (s : State) : Out := cardIssue (.rowcpy d a) d a .rowcpy s

/-! ### `mstore` (R312) -/

/-- ROW0 and COL0 of an `mstore`, whose card holds its two registers. -/
def Card.row0 (c : Card) : Nat := c.bits 0 32
def Card.col0 (c : Card) : Nat := c.bits 32 16
def Card.tileNo (c : Card) : Nat := c.bits 48 16
def Card.stamped (c : Card) : Bool := c.bits 64 1 == 1

/-- The entry and the place meet R312. -/
def mstoreOk (e : Entry) (c : Card) : Bool :=
  e.valid true && decide (c.row0 + 128 ≤ e.rows) && decide (c.col0 + 128 ≤ e.columns) && c.col0 % 32 == 0

/-- The write region of an `mstore` (R312). -/
def mstoreRegion (e : Entry) (c : Card) : Region :=
  if e.fmt = 5 then { space := e.space, lo := e.base, hi := e.base + e.planesStored * e.stride }
  else
    { space := e.space, lo := e.base + c.row0 * e.stride
      hi := e.base + (c.row0 + 127) * e.stride + e.columns * fmtBits e.fmt / 8 }

/-- `mstore` (R312). -/
def execMstore (stamp t : Bool) (d a : Opnd) (slot : Byte) (s : State) : Out :=
  if bucketCount s s.g.core ≥ Config.bucketJobs then .next (pauseAs s .jobIssue)
  else
    let w : Nat := wordsNat (readRun s (regNo a) 2) + stamp.toNat * 2 ^ 64
    let e := entryAt s.vd slot.toNat
    let writes := if e.valid true then [mstoreRegion e ⟨w⟩] else []
    let s' := releaseAt s .pkg
    let (s', h) := newHandle s' s.g.core 0
    let behind := ((passesAt s' (coreIdx s' s.g.core)).filter fun p =>
      p.subs.contains s.g.sub && (match p.zero with
        | some z => z == t
        | none => p.tile == t.toNat)).map (·.serial)
    let j := newJob s' h (.mstore s.g.sub t slot.toNat) (BitVec.ofNat 512 w) [] writes behind
    issue (.mstore stamp t d a slot)
      (.ok (.write { s' with vd := { s'.vd with jobs := s'.vd.jobs ++ [j] } } [.hnd (regNo d) h])) s

/-! ### Handles (R306 to R308) -/

/-- Observing that a handle has resolved is an acquire at its job's scope (R136). -/
def observe (s : State) (h : Dword) : State :=
  if s.vd.fabJobs.contains h && resolved s h then acquireAt s .fab else s

/-- `htest` (R306). -/
def execHtest (d a : Opnd) (s : State) : Out :=
  let h := readH s (regNo a)
  issue (.htest d a) (.ok (.write (observe s h) [.sca (regNo d) (statusOf s h)])) s

/-- What `hcancel` asks of the work that a handle names (R307). -/
def cancelWork (s : State) (h : Dword) : State :=
  match s.vd.jobs.find? fun j => j.handle = h with
  | some j => { s with vd := cancelJob s.vd j }
  | none =>
      if s.vd.launches.any fun l => l.handle = h then cancelLaunch s h
      else match s.vd.loads.find? fun l => l.handle = h with
        | some l => resolveLoad s l (statusWord 2 false false false false 0)
        | none => s

/-- `hcancel` (R307). -/
def execHcancel (a : Opnd) (s : State) : Out := issue (.hcancel a) (.ok (.of (cancelWork s (readH s (regNo a))))) s

def hspace : HSpace → Space
  | .g => .g
  | .sh => .sh
  | .sc => .sc

/-- The address and place of an `hst` or `hld` (R308). -/
def handlePlace (s : State) (spc : HSpace) (a : Opnd) (need : Nat) : Except Raise (Nat × Loc) := do
  let b ← uniW s 1 (spc == .g) a
  let ea : Nat := effAddr (hspace spc) b 0 0
  let l ← resolveOne s (hspace spc) ea 8 need
  .ok (ea, l)

/-- `hst` (R308). -/
def execHst (spc : HSpace) (a b : Opnd) (s : State) : Out :=
  issue (.hst spc a b) ((handlePlace s spc a 2).map fun r =>
    let bs := leBytes 8 (readH s (regNo b)).toNat
    { Effect.of (pushStore s (hspace spc) (cellsOf r.2 bs)) with events := writeEvents (hspace spc) none r.1 bs }) s

/-- `hld` (R308). -/
def execHld (spc : HSpace) (d a : Opnd) (s : State) : Out :=
  let i : Instr := .hld spc d a
  match handlePlace s spc a 1 with
  | .error r => issue i (.error r) s
  | .ok (ea, l) =>
      let s' := countReads s [(l, 8)]
      issueRead i [(l, 8)] ((oneBytes s' (hspace spc) ea 8 l).map fun bs =>
        { Effect.write s' [.hnd (regNo d) (w64 (leNat bs))] with events := readEvents (hspace spc) none ea bs }) s'

/-! ### Moving bytes (R161, R393, R395) -/

/-- The sectors of places become poisoned (R395). -/
def poisonLoc (s : State) (l : Loc) : State :=
  match l.home with
  | .main =>
      match bindingAt s.vd l.va with
      | some (_, sl) =>
          let (s, b) := cacheBlock s sl l.addr l.va
          let off := l.va % sl.bs
          { s with cache := mins s.cache (l.addr - off) { b with poison := sadd b.poison (off / 32), dirty := true } }
      | none => addPoison s l.addr
  | .shared t => onTeam s t fun x => { x with poison := sadd x.poison (l.addr / 32) }
  | .scratch _ die => { s with vd := { s.vd with scPoison := sadd s.vd.scPoison (scKey die l.addr / 32) } }
  | .peer die =>
      let k := lineKey die l.addr
      match mget? s.peerLines k with
      | some b => { s with peerLines := mins s.peerLines k { b with poison := sadd b.poison (l.addr % 256 / 32) } }
      | none => s

/-- The place of one byte that a job reads or writes. A poisoned page-table entry is repaired while the job waits
(R403). -/
def jobPlace (s : State) (spc a need : Nat) : State × Except Nat Loc :=
  match resolveAt s (spaceOfCode spc) a 1 need with
  | .ok l => (s, .ok l)
  | .error c =>
      if c.code = 0x406 then
        let s := repairWalk levels.length a s
        match resolveAt s (spaceOfCode spc) a 1 need with
        | .ok l => (s, .ok l)
        | .error c => (s, .error c.code)
      else (s, .error c.code)

/-- Places of `n` bytes from an address, up to the first that fails, with its cause. -/
def jobPlaces (s : State) (spc a need : Nat) : Nat → State × List Loc × Option Nat
  | 0 => (s, [], none)
  | n + 1 =>
      let r := jobPlaces s spc a need n
      match r.2.2 with
      | some c => (r.1, r.2.1, some c)
      | none =>
          let q := jobPlace r.1 spc (a + n) need
          match q.2 with
          | .ok l => (q.1, r.2.1 ++ [l], none)
          | .error c => (q.1, r.2.1, some c)

/-- A job's bytes of one row, or of a part of one, written from bytes with their poison. -/
def writeRow (s : State) (ls : List Loc) (bs : List (Byte × Bool)) : State :=
  let pairs := ls.zip bs
  let s := putVisible s (pairs.map fun x => (x.1, x.2.1))
  (pairs.filter fun x => x.2.2).foldl (fun s x => poisonLoc s x.1) s

/-- The bytes that row `r` of a job writes, from byte `off` of the row, `n` of them; a cause stops them early. The blocks of
its source are read through the cache (R147). -/
def rowBytesOf (s : State) (j : Job) (r off n : Nat) : State × List (Byte × Bool) × Option Nat :=
  let c : Card := ⟨j.card.toNat⟩
  if c.copies j.kind then
    let q := jobPlaces s c.ssp (c.src + r * c.sstride + off) 1 n
    let t := countReads (fillBlocks q.1 q.2.1) (q.2.1.map fun l => (l, 1))
    (t, q.2.1.map (locByte t), q.2.2)
  else if j.kind = .fill then
    (s, (List.range n).map fun i => (BitVec.ofNat 8 (c.src / 2 ^ (8 * ((off + i) % 2 ^ c.psz))), false), none)
  else (s, List.replicate n (0, false), none)

/-- A 32 KiB span is done in the array (R114). -/
def spanInArray (s : State) (c : Card) (dva sva : Nat) : Bool :=
  let plain (va need : Nat) : Option Nat := match translate s va need with
    | .ok (pa, f) => if f || (bindingAt s.vd va).isSome then none else some pa
    | .error _ => none
  let row (pa : Nat) : Nat × Nat × Nat := (pa / 2 ^ 36 % 8, pa / 2 ^ 29 % 2 ^ 7, pa / 2 ^ 15 % 32)
  match plain dva 2 with
  | none => false
  | some d => d % 32768 == 0 && (c.init || match plain sva 1 with
      | some p => p % 32768 == 0 && row p == row d
      | none => false)

/-- The parts of a row: a `rowcpy` row that starts on a span boundary goes span by span (R114), and what is left at its end is
a part of its own; one that starts elsewhere is one part, and is not divided (notes/assumptions/92.md). -/
def rowParts (j : Job) (r : Nat) : List (Nat × Nat) :=
  let c : Card := ⟨j.card.toNat⟩
  if j.kind = .rowcpy ∧ (c.dst + r * c.dstride) % 32768 = 0 then
    (List.range ((c.rowlen + 32767) / 32768)).map fun k => (32768 * k, min (32768 * (k + 1)) c.rowlen)
  else [(0, c.rowlen)]

/-- The part of a `rowcpy` row that holds byte `off` is done in the array: a whole span that meets R114. -/
def partInArray (s : State) (j : Job) (r off : Nat) : Bool :=
  let c : Card := ⟨j.card.toNat⟩
  (rowParts j r).any fun p =>
    decide (p.1 ≤ off) && decide (off < p.2) && decide (p.2 = p.1 + 32768)
      && spanInArray s c (c.dst + r * c.dstride + p.1) (c.src + r * c.sstride + p.1)

/-- The job has met a cause that stops it: any but poison. -/
def Job.halted (j : Job) : Bool := j.code != 0 && j.code != 0x406

/-- Before an in-array span, its cached lines are written back and discarded (R115). -/
def dropLines (s : State) (va need : Nat) : State :=
  match translate s va need with
  | .ok (pa, _) => cleanRange s pa (pa + 32768) true
  | .error _ => s

/-- The job moves `n` bytes of row `r` from byte `off` of it. -/
def moveBytes (s : State) (j : Job) (r off n : Nat) : State × Job :=
  let c : Card := ⟨j.card.toNat⟩
  let src := rowBytesOf s j r off n
  let dst := jobPlaces src.1 c.dsp (c.dst + r * c.dstride + off) 2 n
  let m := min src.2.1.length dst.2.1.length
  let s := writeRow dst.1 (dst.2.1.take m) (src.2.1.take m)
  let bad := (src.2.1.take m).any (·.2)
  let stop := if m = n then none else match src.2.2, dst.2.2 with
    | some x, some y => if src.2.1.length ≤ dst.2.1.length then some x else some y
    | some x, none => some x
    | none, y => y
  (s, { j with
    moved := j.moved + m, fb := j.fb || (j.kind == .rowcpy && m != 0 && !partInArray s j r off)
    code := match stop with
      | some x => x
      | none => if bad then 0x406 else j.code })

/-- The job moves a part of row `r`; a span that is done in the array goes past the cache and the ports (R114, R115). -/
def moveRow (s : State) (j : Job) (r off n : Nat) : State × Job :=
  let c : Card := ⟨j.card.toNat⟩
  let dva : Nat := c.dst + r * c.dstride + off
  let sva : Nat := c.src + r * c.sstride + off
  if j.halted || n == 0 then (s, j)
  else if j.kind == .rowcpy && n == 32768 && spanInArray s c dva sva then
    let clean (s : State) : State := if c.init then dropLines s dva 2 else dropLines (dropLines s dva 2) sva 1
    let s := clean s
    let q := moveBytes s j r off n
    let t := clean q.1
    ({ t with vd := { t.vd with meters := s.vd.meters } }, q.2)
  else moveBytes s j r off n

/-- Bytes of a job in all. -/
def Job.total (j : Job) : Nat :=
  let c : Card := ⟨j.card.toNat⟩
  match j.kind with
  | .mstore _ _ _ => 0
  | _ => c.rows * c.rowlen

/-- The job moves its bytes up to `upto`, row by row; the moment at which the last one is visible is kept (R176). -/
def moveTo (s : State) (j : Job) (upto : Nat) : State × Job :=
  let c : Card := ⟨j.card.toNat⟩
  let q := (List.range c.rows).foldl (fun q r =>
    (rowParts j r).foldl (fun q p =>
      let lo := max (r * c.rowlen + p.1) q.2.moved
      let hi := min (r * c.rowlen + p.2) upto
      moveRow q.1 q.2 r (lo - r * c.rowlen) (hi - lo)) q) (s, j)
  if j.moved < j.total ∧ q.2.moved = j.total then (q.1, { q.2 with t1 := cycle32 q.1 j.core }) else q

/-- Bytes up to the end of the row that holds byte `n - 1`. -/
def wholeRows (j : Job) (n : Nat) : Nat :=
  let c : Card := ⟨j.card.toNat⟩
  min j.total ((n + c.rowlen - 1) / c.rowlen * c.rowlen)

/-! ### The tile of an `mstore` (R312) -/

/-- The value that an `mstore` stores, before narrowing. -/
def mstoreValue (x : Word) (er ec : Nat) : Fv :=
  if er = 255 ∨ ec = 255 then .nan false
  else match fp32.value x.toNat with
    | .fin n m e => .fin n m (e + 254 - (er : Int) - (ec : Int))
    | v => v

/-- The stored code of an element: a pattern of the format, or v8 of a BPI element. -/
def mstoreCode (fmt : Nat) (v : Fv) : Nat :=
  if fmt = 5 then (toInt .s8 false .rn v).1.toNat % 256
  else if fmt = 6 then
    match v with
    | .fin n m e => if m = 0 then fp32.zero n else (fp32.fitMag .rn n m e false).1
    | .inf n => fp32.infinity n
    | .nan _ => fp32.canon
  else ((fmtOf fmt).satNarrow false .rn v).1

/-- The bytes of one destination row: the group of 32 columns, the address and the byte. For BPI only the bytes that hold
the elements are written: padding up to the plane stride keeps what it held (notes/assumptions/64.md). -/
def mstoreRow (e : Entry) (row col0 : Nat) (codes : List Nat) : List ((Nat × Nat) × Byte) :=
  if e.fmt = 5 then
    ((List.range e.planesStored).map fun p =>
      (List.range 16).map fun b =>
        let n := row * e.columns + col0 + 8 * b
        ((b / 4, e.base + p * e.stride + n / 8),
          BitVec.ofNat 8 ((List.range 8).foldl (fun x i => x + natAt codes (8 * b + i) / 2 ^ (7 - p) % 2 * 2 ^ i) 0))).flatten
  else
    let w := fmtBits e.fmt
    let x := (codes.foldr (fun c acc => c + 2 ^ w * acc) 0)
    (List.range (128 * w / 8)).map fun i =>
      ((i / (4 * w), e.base + row * e.stride + col0 * w / 8 + i), BitVec.ofNat 8 (x / 2 ^ (8 * i)))

/-- Cells of bytes that a job writes, up to the first address that fails, with its cause (R390). -/
def engineCells (s : State) (spc : Nat) (xs : List (Nat × Byte)) : State × List (Loc × Byte) × Option Nat :=
  xs.foldl (fun q x =>
    match q.2.2 with
    | some _ => q
    | none =>
        let r := jobPlace q.1 spc x.1 2
        match r.2 with
        | .ok l => (r.1, q.2.1 ++ [(l, x.2)], none)
        | .error c => (r.1, q.2.1, some c)) (s, [], none)

/-- Entry `n` of a scale vector as a job reads it: its code and whether it is poisoned, or the cause of a page that
fails (R102, R390, R395). -/
def scaleRead (s : State) (spc addr n : Nat) : State × Except Nat (Nat × Bool) :=
  if addr = 0 then (s, .ok (0x7f, false))
  else
    let r := jobPlace s spc (addr + n) 1
    match r.2 with
    | .error c => (r.1, .error c)
    | .ok l =>
        let t := countReads r.1 [(l, 1)]
        let b := locByte t l
        (t, .ok (b.1.toNat, b.2))

/-- The scale codes that row `i` of an `mstore` uses: its row's, then those of its four groups of columns. -/
def rowScales (s : State) (e : Entry) (c : Card) (i : Nat) : State × Except Nat (List (Nat × Bool)) :=
  ((e.rowScale, c.row0 + i) :: (List.range 4).map fun k => (e.colScale, c.col0 / 32 + k)).foldl (fun q x =>
    match q.2 with
    | .error k => (q.1, .error k)
    | .ok xs =>
        let r := scaleRead q.1 e.space x.1 x.2
        (r.1, r.2.map fun y => xs ++ [y])) (s, .ok [])

/-- What an `mstore` stores of one row: the codes of its elements, and the groups of 32 columns whose scale was poisoned. A NaN
passes to FP32 unchanged. -/
structure TileRow where
  codes : List Nat
  bad : List Nat

def tileRow (s : State) (j : Job) (sub : Nat) (tile : Bool) (e : Entry) (i : Nat) (scales : List (Nat × Bool)) : TileRow :=
  let at_ (n : Nat) : Nat × Bool := scales.getD n (0, false)
  { codes := (List.range 128).map fun col =>
      let x := tileAt s.team j.place sub tile.toNat i col
      if e.fmt = 6 ∧ (fp32.value x.toNat).isNan then x.toNat
      else mstoreCode e.fmt (mstoreValue x (at_ 0).1 (at_ (1 + col / 32)).1)
    bad := (List.range 4).filter fun g => (at_ 0).2 || (at_ (1 + g)).2 }

/-- The rows of an `mstore`, up to the first whose scales cannot be read, with the cause. -/
def tileRows (s : State) (j : Job) (sub : Nat) (tile : Bool) (e : Entry) : State × List TileRow × Option Nat :=
  (List.range 128).foldl (fun q i =>
    match q.2.2 with
    | some _ => q
    | none =>
        let sc := rowScales q.1 e ⟨j.card.toNat⟩ i
        match sc.2 with
        | .error x => (sc.1, q.2.1, some x)
        | .ok xs => (sc.1, q.2.1 ++ [tileRow sc.1 j sub tile e i xs], none)) (s, [], none)

/-- The parts in which an `mstore` writes, each a plane and a row, in ascending order of address (R390). -/
def tileParts (e : Entry) : List (Nat × Nat) :=
  ((List.range (if e.fmt = 5 then e.planesStored else 1)).map fun p => (List.range 128).map fun i => (p, i)).flatten

/-- One part of an `mstore` (R312, R395): the bytes below an address that fails are written, and a sector that would receive an
element scaled by a poisoned byte is poisoned. -/
def storePart (s : State) (j : Job) (e : Entry) (x : Nat × Nat) (r : TileRow) : State × Job :=
  let c : Card := ⟨j.card.toNat⟩
  let row := mstoreRow e (c.row0 + x.2) c.col0 r.codes
  let bytes := if e.fmt = 5 then (row.drop (16 * x.1)).take 16 else row
  if !(bytes.all fun b => j.writes.any fun r => r.space == e.space && decide (r.lo ≤ b.1.2) && decide (b.1.2 < r.hi)) then
    (s, { j with code := 0x501 })
  else
    let w := engineCells s e.space (bytes.map fun b => (b.1.2, b.2))
    let t := putVisible w.1 w.2.1
    let hit := (bytes.zip w.2.1).filter fun y => r.bad.contains y.1.1.1
    (hit.foldl (fun t y => poisonLoc t y.2.1) t,
      { j with code := match w.2.2 with
        | some k => k
        | none => if hit = [] then j.code else 0x406 })

/-- An `mstore` writes its rows (R312); its bytes lie in its footprint (R135). It stops at the first address that fails
(R390). -/
def storeTile (s : State) (j : Job) (sub : Nat) (tile : Bool) (e : Entry) : State × Job :=
  let q := tileRows s j sub tile e
  let parts := (tileParts e).takeWhile fun x => decide (x.2 < q.2.1.length)
  let r := parts.foldl (fun r x =>
    if r.2.halted then r else storePart r.1 r.2 e x (q.2.1.getD x.2 { codes := [], bad := [] })) (q.1, j)
  match q.2.2 with
  | some k => if r.2.halted then r else (r.1, { r.2 with code := k })
  | none => r

/-! ### Events of jobs -/

def hrefWord (h : HRef) : Dword := handleWord h.vd h.origin h.kind h.serial

/-- A job with its team in focus and no group but its core's. -/
def focusJob (s : State) (h : HRef) : Option (State × Job) :=
  (deviceOnly s h.vd).bind fun s =>
    (s.vd.jobs.find? fun j => j.handle = hrefWord h).bind fun j =>
      (focusTeam s j.team).map fun s => ({ s with g := { Group.idle with core := j.core } }, j)

def putJob (s : State) (j : Job) : State :=
  { s with vd := { s.vd with jobs := s.vd.jobs.map fun x => if x.handle = j.handle then j else x } }

/-- Passes that an `mstore` waits behind are still queued. -/
def stillBehind (s : State) (j : Job) : Bool :=
  (passesAt s j.place).any fun p => j.behind.contains p.serial

/-- The scratchpad sectors that prove uncorrectable as a job reads its source are poisoned and counted (R392, R400). -/
def strikeJob (s : State) (j : Job) (bad : List Nat) : State :=
  match bad.filter fun k => j.reads.any fun r => r.space == 2 && decide (r.lo < 32 * k + 32) && decide (32 * k < r.hi) with
  | [] => s
  | bad => countDie (poisonScratch s (j.core / 128) bad) (j.core / 128) fun d => { d with unc := satAdd d.unc bad.length 255 }

/-- `JOB_START` (R135): every job that it follows has finished. -/
def execJobStart (x : JobAt) (s : State) : Out :=
  maySome ((focusJob s x.h).bind fun (s, j) =>
    if j.started || j.preds != [] || stillBehind s j then none
    else
      let s := strikeJob s j x.bad
      match j.kind with
      | .mstore sub tile slot =>
          let e := entryAt s.vd slot
          let j := { j with started := true, t1 := cycle32 s j.core }
          if mstoreOk e ⟨j.card.toNat⟩ then
            let r := storeTile s j sub tile e
            some (putJob r.1 r.2)
          else some (putJob s { j with code := 0x503 })
      | _ => some (putJob (acquireAt s (scopeOf (Card.scope ⟨j.card.toNat⟩))) { j with started := true }))

/-- The word of a card's gauge (R160), or the cause of a window that has been revoked (R109). -/
def jobGauge (s : State) (j : Job) : Option (Except Nat Loc) :=
  let c : Card := ⟨j.card.toNat⟩
  match j.kind with
  | .mstore _ _ _ => none
  | _ =>
      if c.gsp = 0 then none
      else some (match resolveAt s (spaceOfCode c.gsp) c.gauge 16 3 with
        | .ok l => .ok l
        | .error k => .error k.code)

/-- Landed bytes that have not been counted arrive at the gauge, `n` of them (R112, R163), which is an update of the word at its
home (R125, R147). An arrival at a window that
has been revoked fails, is not performed, and fails the job (R109); so does one at a poisoned word, with 0x406 (R395, R404). -/
def arriveBytes (s : State) (j : Job) (n : Nat) : State × Job :=
  if n = 0 then (s, j)
  else match jobGauge s j with
    | none => (s, { j with counted := j.counted + n })
    | some (.error k) => (s, { j with counted := j.counted + n, code := if j.code = 0 then k else j.code })
    | some (.ok l) =>
        let s := readyGauge s l
        if gaugePoison s l then (s, { j with counted := j.counted + n, code := if j.code = 0 then 0x406 else j.code })
        else match gaugeArrive (gaugeAt s l) s.vd.number n with
        | some g => (putGauge s l g, { j with counted := j.counted + n })
        | none => (s, { j with counted := j.counted + n, gd := true })

/-- `GAUGE_ARRIVAL` (R112, R113, R163): bytes that have landed are counted. -/
def execGaugeArrival (h : HRef) (n : Word) (s : State) : Out :=
  maySome ((focusJob s h).bind fun (s, j) =>
    if !j.started || n == 0 || (jobGauge s j).isNone || decide (j.counted + n.toNat > j.total) then none
    else
      let r := if j.moved < j.counted + n.toNat then moveTo s j (wholeRows j (j.counted + n.toNat)) else (s, j)
      if r.2.counted + n.toNat ≤ r.2.moved then
        let q := arriveBytes r.1 r.2 n.toNat
        some (putJob q.1 q.2)
      else none)

/-- A job ends: its writes are released at its scope, what it landed is counted, its handle resolves, and an `mstore` with
a stamp writes its record, whose T3 is when its bytes became visible (R136, R163, R165, R312). An `mstore` that fails or is
cancelled writes no record (notes/assumptions/105.md). -/
def endJob (s : State) (j : Job) (cancelled : Bool) : State :=
  let c : Card := ⟨j.card.toNat⟩
  let s := match j.kind with
    | .mstore _ _ _ => s
    | _ => releaseAt s (scopeOf c.scope)
  let r := arriveBytes s j (j.moved - j.counted)
  let j := r.2
  let s := r.1
  let s := match j.kind with
    | .mstore _ _ _ =>
        if c.stamped && !cancelled && j.code == 0 then
          writeStamp s (stampRecord s.team j.core 1 c.tileNo j.t0 j.t1 j.t1 j.t1)
        else s
    | _ => s
  let state := if cancelled then 2 else if j.code = 0 then 1 else 3
  { s with vd := resolve s.vd j.handle (statusWord state j.fb j.gd false false (if state = 3 then j.code else 0)) }

/-- Bytes of a job that it has still to move land (R161). -/
def moveAll (s : State) (j : Job) : State × Job :=
  match j.kind with
  | .mstore _ _ _ => (s, j)
  | _ => moveTo s j j.total

/-- The follow-on of a job is queued or running (R166). -/
def followOn (s : State) (j : Job) : Bool := s.team.follows j.handle

/-- The command that a `cpym` sends, as a pass of its team (R166). -/
def followPass (s : State) (j : Job) : Pass :=
  let c : Card := ⟨j.card.toNat⟩
  let m2 := w32 (c.bits 480 32)
  newPass s (cmdBits m2 19 2) (cmdBits m2 21 4) [0, 1, 2, 3] (w32 (c.bits 416 32)) (w32 (c.bits 448 32)) m2 none j.handle

/-- A byte of the A data of a pass is poisoned. -/
def aPoisoned (s : State) (p : Pass) : Bool :=
  let q := startedPass s p
  (List.range (32 * q.steps)).any fun k =>
    ((passRows q).map fun r => elementBytes q.entryA r (32 * q.kg0 + k)).flatten.any fun a => (engineByte s q.entryA.space a).2

/-- The job's copy is followed by a pass: it has met no cause, or poison that left its A data clean (R166, R395). -/
def follows (s : State) (j : Job) : Bool :=
  j.kind == .cpym && (j.code == 0 || (j.code == 0x406 && !aPoisoned s (followPass s j)))

/-- `JOB_FINISH` (R136, R166): a `cpym` finishes once its pass has retired, or at once where its copy failed. -/
def execJobFinish (h : HRef) (s : State) : Out :=
  maySome ((focusJob s h).bind fun (s, j) =>
    if !j.started || (j.cancel && !j.sent) then none
    else if j.sent then if followOn s j then none else some (endJob s j false)
    else
      let r := moveAll s j
      if follows r.1 r.2 then none else some (endJob r.1 r.2 false))

/-- `JOB_CANCEL_STOP` (R307): a running job stops at a 256-byte unit of transfer. -/
def execJobCancelStop (h : HRef) (bytes : Nat) (s : State) : Out :=
  maySome ((focusJob s h).bind fun (s, j) =>
    if !j.started || !j.cancel || j.sent then none
    else
      match j.kind with
      | .mstore _ _ _ => some (endJob s j true)
      | _ =>
          if j.moved ≤ bytes ∧ bytes ≤ j.total ∧ (bytes % 256 = 0 ∨ bytes = j.total ∨ bytes = j.moved) then
            let r := moveTo s j bytes
            some (endJob r.1 r.2 true)
          else none)

/-- The command of a follow-on meets R309, R170 and R175. -/
def followOk (s : State) (p : Pass) : Bool :=
  let vregs := (s.team.kernel.roles.getD p.role { groups := 0, vregs := 0, sregs := 0 }).vregs
  cmdBits p.m1 0 4 == 0 && (p.gathered || cmdBits p.m2 0 19 == 0) && decide (p.breg + 16 ≤ vregs) && passOk s p

/-- `FOLLOW_ON_SEND` (R166): every byte of the copy is visible; the command goes to its quad's sequencers. -/
def execFollowOnSend (h : HRef) (s : State) : Out :=
  maySome ((focusJob s h).bind fun (s, j) =>
    if !j.started || j.sent || j.cancel || !s.team.resident || sequencersFull s j.place [0, 1, 2, 3] then none
    else
      let r := moveAll s j
      let s := r.1
      let j : Job := r.2
      let p := followPass s j
      if !follows s j then none
      else if (quadOf s s.team.ref (natAt s.team.cores j.place) p.role p.quad).isNone then
        some (endJob s { j with code := 0x502 } false)
      else if !followOk s p then some (endJob s { j with code := 0x503 } false)
      else some (queuePass (putJob s { j with sent := true }) j.place p))

end Sys2Proof.Machine
end

