-- ==== Sys2Proof/Machine/System.lean ====
section
/-!
DEFINITION. Machine/System.lean: traps and the return from them, control registers, team counts, sluice control and stamps
(R65 to R71, R140, R141, R151 to R154, R315 to R326).
-/
namespace Sys2Proof.Machine

/-! ### Traps (R317, R318) -/

/-- `trap` (R317): kind T, with `%exec` in TRAPMASK. -/
def execTrap (n : Byte) (s : State) : Out :=
  let i : Instr := .trap n
  let p := cur s
  let next := nextAddr i p
  let c : Cause :=
    { code := 0x001, kind := .trap, detail := n, slot := s.slot, pc := p.pc, next := next, mask := p.mask, dst := 0x3ff
      addr := none, lanes := [] }
  .next (raise (setCur s (p.moveTo s.now next)) c)

/-- An instruction that waits for the slot's earlier ones (R67): they complete first, and a trap of one comes before it. While
a pass of one has not retired it keeps its port (R193, R195). -/
def afterOwn (s : State) (f : State → Out) : Out :=
  let s' := landOwn s
  if s'.g.entry.isSome || inHandler s'.g != inHandler s.g || s'.team.ending != s.team.ending then .next s'
  else if ownPending s' then .next s'
  else f s'

/-- `rti` (R318): it waits for the slot's earlier instructions, and outside a handler it faults. -/
def execRti (s : State) : Out :=
  if inHandler s.g ∧ trapSlot s.g = s.slot then afterOwn s fun s => .next (returnFromTrap s)
  else control .rti (.error (.plain 0x208 0)) s

/-! ### Control registers (R65 to R71, R319, R320) -/

/-- The register as a view reads it (R5, R66): the privileged one shows PRIV.SUP, VDID.CORE and TRAPCAUSE.SVC (R70, R71). -/
def ctlView (s : State) (sup : Bool) : CReg → Dword
  | .fpc => s.g.fpc.setWidth 64
  | .fps => s.g.fps.setWidth 64
  | .sts => s.g.sts.setWidth 64
  | .cycle => w64 (cycleOf s s.g.core)
  | .vdid => w64 (s.vd.number % 64 + if sup then 65536 * (s.g.core % 512) else 0)
  | .priv => s.g.priv.setWidth 64 ||| (if sup then 1 else 0)
  | .trappc => s.g.trappc
  | .trapnext => s.g.trapnext
  | .trapmask => s.g.trapmask.setWidth 64
  | .trapcause => (if sup then s.g.trapcause else s.g.trapcause &&& 0x00ffffff).setWidth 64
  | .trapdst => s.g.trapdst.setWidth 64
  | .trapaddr => s.g.trapaddr
  | .trapvec => s.g.trapvec

/-- The register as a program of a device reads it: in the unprivileged view (R66, R319). -/
def ctlRead (s : State) (r : CReg) : Dword := ctlView s false r

/-- The group after a write to the RW fields of a register in the unprivileged view (R320). -/
def ctlWrite (g : Group) (r : CReg) (x : Dword) : Group :=
  let w : Word := x.setWidth 32
  match r with
  | .fpc => { g with fpc := w &&& 0x1c1f }
  | .fps => { g with fps := w &&& 0x1f }
  | .sts => { g with sts := w &&& 3 }
  | .trapnext => { g with trapnext := x &&& 0x01fffffffffffff8, nextWritten := true }
  | .trapvec => { g with trapvec := x &&& 0x01fffffffffffff9 }
  | _ => g

/-- `ctl.rd` (R319). -/
def execCtlRd (d : Opnd) (r : CReg) (s : State) : Out :=
  afterOwn s fun s => issue (.ctlRd d r) (.ok (.write s (scaWrites d (r.regs == 2) (ctlRead s r)))) s
/-- `ctl.wr` (R320). -/
def execCtlWr (r : CReg) (a : Opnd) (s : State) : Out :=
  afterOwn s fun s =>
    issue (.ctlWr r a) ((uniW s 1 (r.regs == 2) a).map fun x => .of { s with g := ctlWrite s.g r x }) s

/-- Team count `n` up to now (R321). -/
def teamCount (s : State) (n : Nat) : Nat := natAt s.team.counts n + if n = 0 then unpaid s s.team else 0

/-- `meter.rd` (R322). -/
def execMeterRd (d : Opnd) (n : Nat) (s : State) : Out :=
  issue (.meterRd d n) (.ok (.write s (scaWrites d true (w64 (teamCount s n))))) s

/-! ### Binding descriptors (R140, R141) -/

/-- A binding descriptor as a number. -/
structure BindDesc where
  word : Nat
  deriving DecidableEq, Repr

def BindDesc.bits (b : BindDesc) (lo w : Nat) : Nat := b.word / 2 ^ lo % 2 ^ w
def BindDesc.base (b : BindDesc) : Nat := b.bits 0 64
def BindDesc.len (b : BindDesc) : Nat := b.bits 64 64
def BindDesc.encImg (b : BindDesc) : Nat := b.bits 128 64
def BindDesc.decImg (b : BindDesc) : Nat := b.bits 192 64
def BindDesc.bsCode (b : BindDesc) : Nat := b.bits 256 2
def BindDesc.bs (b : BindDesc) : Nat := 64 * 2 ^ b.bsCode
def BindDesc.tc (b : BindDesc) : Bool := b.bits 259 1 == 1
def BindDesc.slot (b : BindDesc) : Nat := b.bits 260 4

/-- Reserved fields zero, the block size assigned, and BASE and LEN as R140 gives them. -/
def BindDesc.clean (b : BindDesc) : Bool :=
  b.bits 264 56 == 0 && b.bits 258 1 == 0 && b.bsCode != 3 && b.len != 0 && b.len % 0x200000 == 0
    && b.base % 0x200000 == 0 && decide (b.base < 2 ^ 57) && decide (b.base + b.len ≤ 2 ^ 57)

/-- A program image in main memory, when it passes the checks at load (R159). One with a poisoned byte is not readable in
full (notes/assumptions/69.md). -/
def readImage (s : State) (va : Nat) : Option (List (BitVec 32) × List Byte) :=
  let rd (a n : Nat) : Option (List Byte) :=
    if (readFault s a n 1).isSome then none
    else
      let bs := rangeBytes s a n
      if bs.any (·.2) then none else some (bs.map (·.1))
  if va % 8 ≠ 0 then none
  else
    (rd va 8).bind fun h =>
      let n := leNat (h.take 4)
      let flags := leNat (h.drop 4)
      if n = 0 ∨ n > 128 ∨ flags > 1 then none
      else
        (rd (va + 8) (4 * n + 256 * flags)).bind fun b =>
          let ws := (List.range n).map fun i => w32 (leNat ((b.drop (4 * i)).take 4))
          if imageOk flags ws then some (ws, if flags = 1 then b.drop (4 * n) else List.replicate 256 0) else none

/-- The reads of a program image move through the ports (R353): its header, and its words and table where the header names
them. -/
def countImage (s : State) (va : Nat) : State :=
  if va % 8 ≠ 0 ∨ (readFault s va 8 1).isSome then s
  else
    let h := (rangeBytes s va 8).map (·.1)
    let n := leNat (h.take 4)
    let flags := leNat (h.drop 4)
    let s := countRange s va 8
    let len := 4 * n + 256 * flags
    if n = 0 ∨ n > 128 ∨ flags > 1 ∨ (readFault s (va + 8) len 1).isSome then s else countRange s (va + 8) len

/-- The reads that an `sl.bind` makes for its two images. -/
def countImages (s : State) (b : BindDesc) : State := if b.clean then countImage (countImage s b.encImg) b.decImg else s

/-- A transcode or an unbinding of the team in focus is a job of it (R25, R152, R154). -/
def addDieJob (s : State) (h : Dword) : State :=
  if h = 0 then s else { s with team := { s.team with dieJobs := s.team.dieJobs ++ [h] } }

/-- Every page of a region is mapped with R and W, and with F = 0 (R141). -/
def regionMapped (s : State) (base len : Nat) : Bool :=
  (List.range (len / 65536)).all fun k => match translate s (base + 65536 * k) 3 with
    | .ok (_, f) => !f
    | .error _ => false

/-- The metadata of a page of a new region: 0x0080 in the word of each block (R143). -/
def metaPage (sl : Sluice) : List Byte :=
  ((List.range 1024).map fun k => if k % (sl.bs / 64) = 0 then [0x80, 0x00] else [0x00, 0x00]).flatten

/-- Every metadata word of a region becomes 0x0080 (R143); the metadata of a page is written whole, and crosses the port
(R353, R393). -/
def initMeta (s : State) (sl : Sluice) : State :=
  (List.range (sl.len / 65536)).foldl (fun s k => match walk s s.vd (sl.base + 65536 * k) with
    | .leaf pa _ _ _ _ => meter (putRun s (metaPa s.vd sl pa) (metaPage sl)) 4 (2 * (65536 / sl.bs))
    | _ => s) s

/-- A line of a page of a new region that is cached stays cached, as blocks of the region: a dirty one is encoded when it is
written back (R143, R147). `va` is the line's virtual address. -/
def adoptLine (s : State) (sl : Sluice) (va : Nat) (e : Nat × Bool) : State :=
  (List.range (256 / sl.bs)).foldl (fun s k =>
    let pa : Nat := 256 * e.1 + sl.bs * k
    let b : Block := { bytes := mainBytes s pa sl.bs, dirty := e.2
                       poison := (List.range ((sl.bs + 31) / 32)).filter fun i => mainPoison s (pa + 32 * i)
                       vd := s.vd.number, va := va + sl.bs * k }
    { s with cache := mins s.cache pa b }) { s with lines := mdel s.lines e.1 }

/-- The cached lines of a new region. -/
def adoptLines (s : State) (sl : Sluice) : State :=
  (List.range (sl.len / 65536)).foldl (fun s k =>
    let va : Nat := sl.base + 65536 * k
    match walk s s.vd va with
    | .leaf pa _ _ _ _ =>
        (s.lines.filter fun (e : Nat × Bool) => decide (pa ≤ 256 * e.1) && decide (256 * e.1 < pa + 65536)).foldl
          (fun s e => adoptLine s sl (va + (256 * e.1 - pa)) e) s
    | _ => s) s

/-- A binding as a new one starts (R151, R152). -/
def newBinding (b : BindDesc) (enc dec : List (BitVec 32) × List Byte) : Sluice :=
  { base := b.base, len := b.len, bs := b.bs, cur := 0, old := 0, tc := false, unbinding := false, enc := enc, dec := dec
    oldEnc := ([], []), oldDec := ([], []), ctrEnc := 0, ctrRawf := 0, ctrRaws := 0, ctrRawv := 0, ctrRawt := 0
    tcDone := 0, cursor := 0, handle := 0, unHandle := 0 }

/-- What `sl.bind` does with a descriptor, in the state in which the group's queue has drained: the state and hD, or none
where it is refused (R141, R143, R152, R323). Before a new codec pair is current, the encodes under way have ended (R150). -/
def bindRegion (s : State) (b : BindDesc) : Option (State × Dword) := do
  if !b.clean then none
  let enc ← readImage s b.encImg
  let dec ← readImage s b.decImg
  match mget? s.vd.bindings b.slot with
  | none =>
      if b.tc || s.vd.bindings.any (fun e => decide (e.2.base < b.base + b.len) && decide (b.base < e.2.base + e.2.len))
          || !regionMapped s b.base b.len then none
      else
        let sl := newBinding b enc dec
        let s := adoptLines (initMeta s sl) sl
        some ({ s with vd := { s.vd with bindings := mins s.vd.bindings b.slot sl } }, 0)
  | some sl =>
      if !b.tc || sl.base != b.base || sl.len != b.len || sl.bs != b.bs || sl.tc || sl.unbinding then none
      else
        let s := finishWhere s fun e => decide (b.base ≤ e.va) && decide (e.va < b.base + b.len)
        let (s, h) := newHandle s s.team.die 2
        some (onBinding s b.slot fun sl =>
          { sl with oldEnc := sl.enc, oldDec := sl.dec, enc := enc, dec := dec, old := sl.cur, cur := (sl.cur + 1) % 4
                    tc := true, tcDone := 0, cursor := 0, handle := h }, h)

/-- The address of a range at which its walk meets a poisoned page-table entry. -/
def tornRange (s : State) (va n : Nat) : Option Nat :=
  (readFault s va n 1).bind fun f => if f.1.code = 0x406 then some f.2 else none

/-- The same of a program image: of its header, and of its words and table where the header names them (R159). -/
def tornImage (s : State) (va : Nat) : Option Nat :=
  if va % 8 ≠ 0 then none
  else if (readFault s va 8 1).isSome then tornRange s va 8
  else
    let h := (rangeBytes s va 8).map (·.1)
    let n := leNat (h.take 4)
    let flags := leNat (h.drop 4)
    if n = 0 ∨ n > 128 ∨ flags > 1 then none else tornRange s (va + 8) (4 * n + 256 * flags)

/-- The address at which a walk of `sl.bind` meets a poisoned page-table entry (R403): in an image, or in the region of a new
binding. -/
def tornBind (s : State) (b : BindDesc) : Option Nat :=
  if !b.clean then none
  else
    tornImage s b.encImg <|> tornImage s b.decImg <|>
      (if b.tc || (mget? s.vd.bindings b.slot).isSome then none
       else ((List.range (b.len / 65536)).map fun k => b.base + 65536 * k).find? fun va =>
         match walk s s.vd va with
         | .poisoned _ => true
         | _ => false)

/-- The cause of an instruction of the group as a whole whose walk meets a poisoned page-table entry (R403). -/
def tornRaise (va : Nat) : Raise := { code := 0x406, detail := 8, mask := 0, addr := some va, lanes := [] }

/-- `sl.bind` (R323). A walk that meets a poisoned page-table entry has firmware repair it, and the instruction is executed
again (R403). -/
def execSlBind (d a : Opnd) (s : State) : Out :=
  let b : BindDesc := ⟨wordsNat (readRun s (regNo a) 10)⟩
  match tornBind s b with
  | some va => issue (.slBind d a) (.error (tornRaise va)) s
  | none =>
      let s := countImages s b
      issue (.slBind d a) (match bindRegion (drainStores s) b with
        | some r => .ok (.write (addDieJob r.1 r.2) [.hnd (regNo d) r.2])
        | none => .error (.plain 0x20b b.slot)) s

/-- `sl.unbind` (R154, R324). -/
def execSlUnbind (d : Opnd) (n : BitVec 4) (s : State) : Out :=
  issue (.slUnbind d n) (match mget? s.vd.bindings n.toNat with
    | some sl =>
        if sl.unbinding then .error (.plain 0x20b n.toNat)
        else
          let r := newHandle s s.team.die 2
          .ok (.write (addDieJob (onBinding r.1 n.toNat fun sl =>
            { sl with unbinding := true, unHandle := r.2, cursor := if sl.tc then sl.cursor else 0 }) r.2) [.hnd (regNo d) r.2])
    | none => .error (.plain 0x20b n.toNat)) s

/-- The status record of a binding (R151). OLD reads 0 while no transcode is in progress (notes/assumptions/70.md). -/
def bindStatus (sl : Sluice) : Nat :=
  pack [(1, 1), (Nat.log2 (sl.bs / 64), 2), (sl.tc.toNat, 1), (if sl.tc then sl.old else 0, 2), (sl.cur, 2), (0, 24), (sl.ctrEnc, 32),
    (sl.ctrRawf, 32), (sl.ctrRaws, 32), (sl.ctrRawv, 32), (sl.ctrRawt, 32), (sl.tcDone, 32)]

/-- `sl.stat` (R325). -/
def execSlStat (d : Opnd) (n : BitVec 4) (s : State) : Out :=
  issue (.slStat d n) (.ok (.write s (scaRun (regNo d)
    (natWords 8 (((mget? s.vd.bindings n.toNat).map bindStatus).getD 0))))) s

/-! ### Stamp marks (R176, R326) -/

/-- The record of a `stamp` is written. -/
def stampMark (s : State) (x : Word) : State :=
  let t := cycle32 s s.g.core
  writeStamp s (stampRecord s.team s.g.core 2 (x.toNat % 2 ^ 16) t t t t)

/-- `stamp` (R326). -/
def execStamp (a : Opnd) (s : State) : Out := issue (.stamp a) ((uni s 1 a).map fun x => .of (stampMark s x)) s
/-- `stamp.sync` (R326). -/
def execStampSync (a : Opnd) (s : State) : Out :=
  afterOwn s fun s => issue (.stampSync a) ((uni s 1 a).map fun x => .of (stampMark s x)) s

end Sys2Proof.Machine
end

