-- ==== Sys2Proof/Machine/Debug.lean ====
section
/-!
DEFINITION. Machine/Debug.lean: the debug instructions (R418 to R430, R437): canaries, halts, runs and steps of teams, and
the reading and writing of a halted team's state.
-/
namespace Sys2Proof.Machine

/-! ### Team references (R418, R422) -/

/-- The team that a reference names: one of the device in focus that has been placed and has not ended. -/
def namedTeam (s : State) (x : Dword) : Option Team :=
  if x.toNat / 2 ^ 48 % 2 ^ 10 ≠ 0 ∨ x.toNat / 2 ^ 58 ≠ s.vd.number then none
  else (teamOf s { vd := s.vd.number, serial := x.toNat % 2 ^ 48 }).filter fun t => t.ref.serial != 0 && !t.ending

/-- The team of a reference operand: the issuing team where it is 0x3ff. -/
def refTeam (s : State) (b : Opnd) : Except Raise (Option Team) :=
  if b = .none then .ok (some s.team) else (uniPair s 2 b).map (namedTeam s)

/-! ### Canaries (R409, R423) -/

/-- Cores of the device's partition. -/
def partitionCores (s : State) : List Nat := ((partitionOf s s.vd.partition).map (·.cores)).getD []

def canaryAt (s : State) (core n : Nat) : Option Canary := mget? (coreAt s core).canaries n

/-- The device's canary of scope 1 in slot `n`, armed or not, on the first core that holds one. -/
def wideCanary (s : State) (n : Nat) (armed : Bool) : Option Canary :=
  (partitionCores s).findSome? fun c => (canaryAt s c n).filter fun x => x.vd == s.vd.number && x.team.isNone && x.armed == armed

/-- The canary of scope 0 that a team has in slot `n`: on its cores, or in its record while it is saved. -/
def teamCanary (s : State) (t : Team) (n : Nat) : Option Canary :=
  if t.resident then (canaryAt s (t.cores.headD 0) n).filter fun x => decide (x.team = some t.ref) else mget? t.bank n

/-- Slot `n` of a core is armed for another device or team: by a canary that is being placed as by one in place. -/
def armedForOther (s : State) (t : Option TRef) (n core : Nat) : Bool :=
  (canaryAt s core n).any fun x => x.armed && (x.vd != s.vd.number || decide (x.team ≠ t))

/-- Slot `n` of some saved team of the device is armed. -/
def armedInRecord (s : State) (n : Nat) : Bool :=
  (allTeams s).any fun t => t.ref.vd == s.vd.number && (mget? t.bank n).any Canary.armed

/-- The status of a `wp.set` (R423). -/
def setStatus (s : State) (c : Canary) (t : Option Team) (n : Nat) : Nat :=
  if !c.valid then 3
  else if c.wide then
    if (partitionCores s).any (armedForOther s none n) || armedInRecord s n then 1 else 0
  else
    match t with
    | none => 2
    | some t =>
        if (if t.resident then t.cores.any (armedForOther s (some t.ref) n) else (wideCanary s n true).isSome) then 1
        else 0

/-- Where a canary is placed: cores, or the record of a saved team. -/
def placesOf (s : State) (wide : Bool) (t : Option Team) : List Nat :=
  if wide then partitionCores s else ((t.filter Team.resident).map (·.cores)).getD []

/-- A canary placed in slot `n` of cores. -/
def placeOn (s : State) (cores : List Nat) (n : Nat) (c : Canary) : State :=
  cores.foldl (fun s k => onCore s k fun x => { x with canaries := mins x.canaries n c }) s

/-- A canary in the record of a saved team. -/
def bankCanary (s : State) (t : Option Team) (n : Nat) (c : Canary) : State :=
  match t with
  | some t => if t.resident then s else onTeam s t.ref fun x => { x with bank := mins x.bank n c }
  | none => s

/-- `wp.set` (R423): the canary takes its slots as the status is made, so that no other `wp.set` is given them, and applies
once the flag has cleared (notes/assumptions/50.md). -/
def execWpSet (d : Opnd) (n : BitVec 4) (a b : Opnd) (s : State) : Out :=
  issue (.wpSet d n a b) ((refTeam s b).map fun t =>
    let c : Canary :=
      { word := BitVec.ofNat 128 (wordsNat (readRun s (regNo a) 4)), hits := 0, vd := s.vd.number, team := none
        since := s.now, placing := some s.draw }
    let st : Nat := setStatus s c t n.toNat
    let t := if c.wide then none else t
    let c : Canary := { c with team := t.map (·.ref) }
    let done : Effect := .write s [.sca (regNo d) (w32 st)]
    if st = 0 then
      { done with
        st := placeOn (if c.wide then s else bankCanary s t n.toNat c) (placesOf s c.wide t) n.toNat c
        arm := some s.draw }
    else done) s

/-- The canary word with EN = 0. -/
def Canary.disarm (c : Canary) : Canary := { c with word := c.word &&& ~~~(0x8000 : BitVec 128) }

/-- Slot `n` disarmed on cores where it is the device's canary of this scope. -/
def disarmOn (s : State) (cores : List Nat) (t : Option TRef) (n : Nat) : State :=
  cores.foldl (fun s k => match canaryAt s k n with
    | some x =>
        if x.vd = s.vd.number ∧ x.team = t then onCore s k fun c => { c with canaries := mins c.canaries n x.disarm } else s
    | none => s) s

/-- The canary that `wp.clr` and `wp.rd` act on, or the status that stops them (R423): the device's armed one of scope 1, or
the team's. What a disarmed one of scope 1 has left on some cores comes last. -/
def reached (s : State) (t : Option Team) (n : Nat) : Except Nat (Option Canary) :=
  match wideCanary s n true <|> t.bind (fun t => teamCanary s t n) <|> wideCanary s n false with
  | some c => .ok (some c)
  | none =>
      match t with
      | none => .error 2
      | some t => if t.resident && t.cores.any (armedForOther s (some t.ref) n) then .error 1 else .ok none

/-- `wp.clr` (R423). -/
def execWpClr (d : Opnd) (n : BitVec 4) (b : Opnd) (s : State) : Out :=
  issue (.wpClr d n b) ((refTeam s b).map fun t =>
    let k := n.toNat
    match reached s t k with
    | .error st => .write s [.sca (regNo d) (w32 st)]
    | .ok none => .write s [.sca (regNo d) 0]
    | .ok (some c) =>
        let t := if c.team.isNone then none else t
        let s' := disarmOn s (placesOf s c.team.isNone t) c.team k
        .write (bankCanary s' t k c.disarm) [.sca (regNo d) 0]) s

/-- Hit counts of a canary over its slots (R423). -/
def hitsOf (s : State) (t : Option Team) (c : Canary) (n : Nat) : Nat :=
  match c.team with
  | none => (partitionCores s).foldl (fun a k => a + (match canaryAt s k n with
      | some x => if x.vd = s.vd.number ∧ x.team.isNone then x.hits.toNat else 0
      | none => 0)) 0
  | some _ => match t with
      | some t => if t.resident then hitSum s t n else c.hits.toNat
      | none => 0

/-- `wp.rd` (R423). -/
def execWpRd (d : Opnd) (n : BitVec 4) (b : Opnd) (s : State) : Out :=
  issue (.wpRd d n b) ((refTeam s b).map fun t =>
    let words : Nat := match reached s t n.toNat with
      | .error st => st * 2 ^ 160
      | .ok none => 0
      | .ok (some c) => c.word.toNat + min (hitsOf s t c n.toNat) 0xffffffff * 2 ^ 128
    .write s (scaRun (regNo d) (natWords 8 words))) s

/-! ### Halting a team (R416, R424, R428) -/

/-- The team begins to halt: each of its groups may issue 3 more instructions (R416). -/
def startHalt (s : State) (t : TRef) (why : Nat) : State :=
  onGroups (onTeam s t fun x => { x with halting := some why }) (fun g => decide (g.ref.team = t) && !g.halted)
    fun g => { g with grace := some 3 }

/-- `dbg.halt` (R424). -/
def execDbgHalt (b : Opnd) (s : State) : Out :=
  issue (.dbgHalt b) ((refTeam s b).map fun t => match t with
    | some t =>
        .of (if t.ref = s.team.ref ∨ t.halted ∨ t.halting.isSome ∨ t.mode = .lost then s else startHalt s t.ref 2)
    | none => .of s) s

/-- `brk` (R428): while ARMED is 0 it raises a cause of kind T. -/
def execBrk (s : State) : Out :=
  if mainNat s (ctxPart s.vd mailPart + 16) 4 = 0 then
    let p := cur s
    let next := nextAddr .brk p
    .next (raise (setCur s (p.moveTo s.now next)) (trapCause s.slot p.pc next (trapDst .brk) (.plain 0x004 0)))
  else .next (haltGroup (finishShort .brk (.of s)) { why := 1, wp := 0xff, hits := 0, team := true, clauseOf := none })

/-! ### Running a halted team (R424, R429) -/

/-- A canary of source 0 does not match the next instruction of a slot that a release of the device releases, which a slot
that is not live is not (R429; notes/assumptions/103.md). -/
def Group.calmed (g : Group) : Group := { g with a := { g.a with calm := g.a.live }, b := { g.b with calm := g.b.live } }

/-- An entry pushed for lanes that wait at an address (R424, R425). -/
def pushPath (s : State) (i : SlotId) (pc : Addr) (mask : Word) (inner : Bool) : State :=
  let at_ := s.g.sumpTop
  let s := pushEntry s { low := pc.toNat, mask := mask, why := 1, own := i }
  { s with g := { s.g with inside := if inner then sadd s.g.inside at_ else s.g.inside } }

/-- The parked lanes of the group in focus wait on the sump; where their slot is not live they run at once (R29). -/
def unpark (s : State) : State :=
  if s.g.parked = 0 then s
  else
    let inner := match fetchWord s s.g.parkPc with
      | .ok w => !marked w
      | .error _ => false
    let i := s.g.parkFrom
    let s := pushPath s i s.g.parkPc s.g.parked inner
    let s := { s with g := { s.g with parked := 0 } }
    let s := { s with slot := i }
    if (s.g.slot i).live then s
    else match joinSteps (joinFuel s) i none s with
      | .ok t => t
      | .error r => raise s (causeHere s r (cur s).pc 0x3ff)

/-- Every push of an unparking run fits its group's sump (R424). -/
def unparkFits (s : State) (t : Team) : Bool :=
  (groupsOf s t.ref).all fun g => !g.active || g.parked == 0 || decide (g.sumpTop + 16 ≤ t.kernel.sump - t.kernel.local_)

/-- The groups of a halted team are released; a saved team is placed again under R203. -/
def runTeam (s : State) (t : Team) (parked : Bool) : State :=
  let gs := (groupsOf s t.ref).filter Group.active
  let s := if parked then gs.foldl (fun s g => withGroup s g.ref unpark) s else s
  let s := onGroups s (fun g => decide (g.ref.team = t.ref)) fun g =>
    { g.calmed with halted := false, haltDue := none, stepping := none, grace := none }
  let s := onTeam s t.ref fun x => { x with halted := false, halting := none, stepSince := none }
  if t.mode = .saved then settleQueue { s with vd := { s.vd with waiting := s.vd.waiting ++ [t.ref] } } else s

/-! ### Steps (R425, R430, R437) -/

/-- The slot that a selector names, and the lane. -/
def stepSlot (sel : Word) : SlotId := slotOfBit (sel.toNat / 512)

/-- A step of the group in focus begins: in lane mode the other lanes of the slot wait on the sump. -/
def beginIn (lane : Bool) (sel : Word) (s : State) : State :=
  let i := stepSlot sel
  let p := s.g.slot i
  let one : Word := w32 (2 ^ (sel.toNat / 1024 % 32))
  let s :=
    if lane ∧ p.mask ≠ one then
      let s := pushPath s i p.pc (p.mask &&& ~~~one) (p.stand == .issuing || p.stand == .paused)
      { s with g := s.g.setSlot i { s.g.slot i with mask := one } }
    else s
  { s with g := { s.g with stepping := some i } }

/-- The step can be made in a group: no bit of the selector is out of place, the slot is live and, in lane mode, holds the
lane and the push fits. -/
def stepOk (t : Team) (g : Group) (lane : Bool) (sel : Word) : Bool :=
  let p := g.slot (stepSlot sel)
  let l := sel.toNat / 1024 % 32
  decide (sel.toNat < if lane then 2 ^ 15 else 2 ^ 10) && g.active && p.live
    && (!lane || (laneOn p.mask l && (decide (p.mask = w32 (2 ^ l)) || decide (g.sumpTop + 16 ≤ t.kernel.sump - t.kernel.local_))))

/-- The team is on cores for a step, placed again where it was saved, and stays there (R425); none where no set fits. -/
def placeForStep (s : State) (t : Team) : Option State :=
  (if t.mode = .saved then restoreAll s t else some s).map fun s => onTeam s t.ref fun x => { x with stepSince := some s.now }

/-- One step asked of a halted team, which is placed first where it is saved; a step that cannot be made is none, and so is
one of a team that finds no cores at that moment (R425, R437). -/
def beginStep (s : State) (t : Team) (lane : Bool) (sel : Word) : State :=
  match (groupsOf s t.ref).find? fun g => g.ref.gid == sel.toNat % 512 with
  | none => s
  | some g =>
      if !stepOk t g lane sel then s
      else ((placeForStep s t).map fun s => withGroup s g.ref (beginIn lane sel)).getD s

/-- What `dbg.step` or `dbg.run` asks of a team is made, where the team is halted (R424, R425). -/
def makeAsk (s : State) (t : Team) (a : DebugAsk) : State :=
  if !t.halted || t.ending then s
  else match a with
    | .step lane sel => beginStep s t lane sel
    | .run parked => if parked && !unparkFits s t then s else runTeam s t parked

/-- A step of the team is under way. -/
def stepRuns (s : State) (t : TRef) : Bool :=
  (groupsOf s t).any fun g => g.stepping.isSome || g.haltDue.any fun h => h.why == 5

/-- What is asked of a team is made in order, each once the step before it has ended and the team is not being saved
(R430; notes/assumptions/97.md). -/
def nextSteps : Nat → State → TRef → State
  | 0, s, _ => s
  | n + 1, s, r =>
      match teamOf s r with
      | none => s
      | some t =>
          match t.steps with
          | [] => s
          | a :: rest =>
              if stepRuns s r || t.stop.isSome then s
              else nextSteps n (makeAsk (onTeam s r fun x => { x with steps := rest }) t a) r

/-- A step that a save has cut off before its instruction issued (R430). -/
def stepCut (s : State) (t : Team) : Bool :=
  t.mode == .saved && t.halted && (groupsOf s t.ref).any fun g => g.stepping.isSome

/-- Such a step goes on once its team finds cores (notes/assumptions/97.md). -/
def goOnStep (s : State) (t : Team) : State := if stepCut s t then (placeForStep s t).getD s else s

/-- Steps that were cut off go on, and asks that wait are made, as soon as they can be. -/
def resumeAsks (s : State) : State :=
  ((allTeams s).filter fun t => t.steps != [] || stepCut s t).foldl (fun s t =>
    withTeam s t.ref fun s => nextSteps t.steps.length (goOnStep s t) t.ref) s

/-- A step or a run is asked of a halted team other than the issuing one. -/
def askTeam (s : State) (t : Option Team) (a : DebugAsk) : Effect :=
  match t with
  | none => .of s
  | some t =>
      if t.ref = s.team.ref ∨ !t.halted then .of s
      else .of (nextSteps (t.steps.length + 1) (onTeam s t.ref fun x => { x with steps := x.steps ++ [a] }) t.ref)

/-- `dbg.run` in either form: a release at `.pkg` of the issuing group's accesses (R424). -/
def runIssue (i : Instr) (b : Opnd) (parked : Bool) (s : State) : Out :=
  issue i ((refTeam s b).map fun t => askTeam (if t.any fun t => t.halted then releaseAt s .pkg else s) t (.run parked)) s

/-- `dbg.run` (R424). -/
def execDbgRun (b : Opnd) (s : State) : Out := runIssue (.dbgRun b) b false s
/-- `dbg.run.unpark` (R424). -/
def execDbgRunUnpark (b : Opnd) (s : State) : Out := runIssue (.dbgRunUnpark b) b true s

/-- `dbg.step` in either form. -/
def stepIssue (i : Instr) (b c : Opnd) (lane : Bool) (s : State) : Out :=
  issue i (do
    let t ← refTeam s b
    let sel ← uni s 3 c
    .ok (askTeam s t (.step lane sel))) s

/-- `dbg.step.path` (R425). -/
def execDbgStep (b c : Opnd) (s : State) : Out := stepIssue (.dbgStep b c) b c false s
/-- `dbg.step.lane` (R425). -/
def execDbgStepLane (b c : Opnd) (s : State) : Out := stepIssue (.dbgStepLane b c) b c true s

/-- `STEP_IDLE_TIMEOUT` (R425): a stepped team is saved again. -/
def execStepIdleTimeout (t : TRef) (s : State) : Out :=
  maySome ((focusTeam s t).bind fun s =>
    if s.team.halted && !stepRuns s t && s.team.stepSince.any (fun n => decide (s.now ≥ n + ms 10)) then
      let s := { s with team := { s.team with stepSince := none } }
      if canSave s s.team then some (saveOne s t) else none
    else none)

/-! ### Units of a halted team's state (R178, R426) -/

/-- KIND, `%gid` and INDEX of a selector. -/
def selKind (sel : Word) : Nat := sel.toNat / 2 ^ 28
def selGid (sel : Word) : Nat := sel.toNat / 2 ^ 19 % 512
def selIndex (sel : Word) : Nat := sel.toNat % 2 ^ 19

/-- Bytes of a unit of each kind. -/
def unitBytes : Nat → Nat
  | 0 | 5 => 128
  | 1 => 64
  | 4 => 512
  | _ => 256

/-- The unit that a selector names in a group is one of the group's (R426). -/
def unitOk (t : Team) (g : Group) (kind i : Nat) : Bool :=
  match kind with
  | 0 => decide (i < (budgetIn t g).vregs)
  | 1 => decide (16 * i < (budgetIn t g).sregs)
  | 2 => decide (i ≤ 1)
  | 3 => decide (256 * i < t.kernel.shared)
  | 4 => decide (i < 256)
  | 5 => decide (i < 16)
  | 6 => decide (256 * i < t.kernel.sump)
  | _ => false

/-- The bytes of a unit. -/
def unitRead (s : State) (t : Team) (g : Group) (kind i : Nat) : List Byte :=
  match kind with
  | 0 => wordBytes ((List.range 32).map fun l => if g.returned.getLsbD (l / 8) then 0 else laneAt (vreg g i).lanes l)
  | 1 => wordBytes ((List.range 16).map fun k => if 16 * i + k < (budgetIn t g).sregs then sreg g (16 * i + k) else 0)
  | 2 => if i = 0 then (recordHeader g).take 256 else padTo 256 ((recordHeader g).drop 256)
  | 3 => (List.range 256).map fun k => if 256 * i + k < t.kernel.shared then mget 0 t.shared (256 * i + k) else 0
  | 4 => wordBytes ((List.range 128).map (tileAt t (t.cores.idxOf g.core) g.sub (i / 128) (i % 128)))
  | 5 => wordBytes ((List.range 32).map fun l => (mget? g.marks (32 * i + l)).getD 0xffffffff)
  | _ => (List.range 256).map fun k => if 256 * i + k < t.kernel.sump then mainByte s (g.sumpPa + 256 * i + k) else 0

/-- The group of a halted team that a selector names, or the status that stops the instruction. -/
def unitOf (s : State) (t : Option Team) (sel : Word) : Except Nat (Team × Group) :=
  match t with
  | none => .error 2
  | some t =>
      if !t.halted then .error 4
      else match (groupsOf s t.ref).find? fun g => g.ref.gid == selGid sel with
        | none => .error 3
        | some g => if unitOk t g (selKind sel) (selIndex sel) then .ok (t, g) else .error 3

/-! ### `dbg.rd` and `dbg.list` (R426, R427, R430) -/

/-- The cause of a buffer of `n` bytes that needs permissions. -/
def bufferFault (s : State) (a n need : Nat) : Option Raise :=
  (readFault s a n need).map fun f => { code := f.1.code, detail := f.1.detail, mask := 0, addr := some a, lanes := [] }

/-- Bytes that the group in focus stores to a buffer in main memory, as plain stores. -/
def storeBuffer (s : State) (a : Nat) (bs : List Byte) : State :=
  pushStore s .g (((List.range bs.length).filterMap fun i => match walk s s.vd (a + i) with
    | .leaf pa f _ _ _ => some (pagePlace s pa f (a + i), bs.getD i 0)
    | _ => none))

/-- A buffer written, with a result in a scalar register: its stores are events of the issuing group, word by word (R410,
R430; notes/assumptions/84.md). -/
def bufferEffect (s : State) (d : Opnd) (a : Nat) (bs : List Byte) (x : Nat) : Except Raise Effect :=
  match bufferFault s a bs.length 2 with
  | some r => .error r
  | none => .ok { Effect.write (storeBuffer s a bs) [.sca (regNo d) (w32 x)] with events := writeEvents .g none a bs }

/-- `dbg.rd` (R426). -/
def execDbgRd (d a b c : Opnd) (s : State) : Out :=
  issue (.dbgRd d a b c) (do
    let buf ← uniPair s 1 a
    let t ← refTeam s b
    let sel ← uni s 3 c
    match unitOf s t sel with
    | .error st => .ok (.write s [.sca (regNo d) (w32 st)])
    | .ok (t, g) =>
        let i := selIndex sel
        let tag : Nat := if selKind sel = 0 then 256 * (vreg g i).tag.code else 0
        bufferEffect s d buf.toNat (unitRead s t g (selKind sel) i) tag) s

/-- The state byte of a team in a list (R427). -/
def listState (t : Team) : Nat :=
  if t.halted then (if t.resident then 1 else 2) else if t.resident then 0 else 3

/-- The entry of a team in a list (R427). -/
def listEntry (s : State) (t : Team) : List Byte :=
  let k : Nat := ((gridOf s.vd t.grid).map (·.kernel)).getD 0
  leBytes 32 (pack [((refWord t.ref).toNat, 64), (t.x, 31), (0, 1), (t.y, 16), (t.z, 16), (k, 16), (listState t, 8)])

/-- The teams of the device in focus in ascending serial order. -/
def teamsInOrder (s : State) : List Team :=
  ((((allTeams s).filter fun t => t.ref.vd == s.vd.number).foldl (fun m t => mins m t.ref.serial t) ([] : SMap Team))).map (·.2)

/-- `dbg.list` (R427). -/
def execDbgList (d a c : Opnd) (s : State) : Out :=
  issue (.dbgList d a c) (do
    let buf ← uniPair s 1 a
    let most ← uni s 3 c
    let ts := (teamsInOrder s).take most.toNat
    bufferEffect s d buf.toNat (ts.map (listEntry s)).flatten ts.length) s

/-! ### `dbg.wr` (R426) -/

/-- The value of `n` bytes of a buffer from an offset. -/
def bufNat (bs : List Byte) (off n : Nat) : Nat := leNat ((bs.drop off).take n)

def bufWords (bs : List Byte) (n : Nat) : List Word := (List.range n).map fun i => w32 (bufNat bs (4 * i) 4)

/-- A slot of the group in focus with a new PC and mask: at a header, or inside the clause that holds the address; none
where the PC is no instruction address: no clause reaches it. What its old clause waited for is no longer waited for (R208). -/
def placeSlot (s : State) (p : PcSlot) (pc mask : Nat) : Option PcSlot :=
  let q : PcSlot := { p with mask := w32 mask }
  if mask = 0 ∨ (pc = p.pc.toNat ∧ p.live = true) then some { q with pc := BitVec.ofNat 57 pc }
  else if pc % 8 ≠ 0 ∨ pc ≥ 2 ^ 57 then none
  else
    let a : Addr := BitVec.ofNat 57 pc
    match fetchWord s a with
    | .error _ => none
    | .ok w =>
        if marked w then some { q with pc := a, stand := .header, wait := .running, since := s.now, waits := none }
        else if (headerOf s a).isSome then some { q.standAt s a with stand := .paused, wait := .running, since := s.now, waits := none }
        else none

/-- The group in focus with the fields of its record header that are written (R426). A slot that is moved or emptied no longer
waits (R299). -/
def writeHeader (s : State) (bs : List Byte) : Option State := do
  let g := s.g
  let ma := bufNat bs 8 4
  let mb := bufNat bs 12 4
  let a ← placeSlot s g.a (bufNat bs 0 8) ma
  let b ← placeSlot s g.b (bufNat bs 16 8) mb
  if (w32 ma ||| w32 mb) &&& g.exited ≠ 0 then none
  let next := w64 (bufNat bs 168 8)
  let g := { g with a := a, b := b }
  let g := if next = g.trapnext then g else ctlWrite g .trapnext next
  let g := ctlWrite (ctlWrite (ctlWrite (ctlWrite g .trapvec (w64 (bufNat bs 184 8))) .fpc (w64 (bufNat bs 192 4))) .fps
    (w64 (bufNat bs 196 4))) .sts (w64 (bufNat bs 200 4))
  let waits (w : Loc × Nat × SlotId) : Bool := (g.slot w.2.2).live && decide ((g.slot w.2.2).wait = .gauge)
  some (dropWaits { s with g := g } fun w => w.2.1 == g.ref.gid && !waits w)

/-- The bytes of a path entry: WHY 1 or 2, its reserved bits zero and no exited lane. -/
def entryOk (g : Group) (x : Nat) : Bool :=
  let why := x / 2 ^ 96 % 16
  (why == 1 || why == 2) && x / 2 ^ 101 == 0 && x % 2 ^ 64 < 2 ^ 57 && (w32 (x / 2 ^ 64) &&& g.exited) == 0

/-- Sump offsets of the path entries on the stack of the group in focus. -/
def pathOffsets (s : State) : List Nat := (stackOffs s).filter fun o => (stackEntry s o).why != 3

/-- The path entries of a 256-byte block of the sump, written (R426). -/
def writeEntries (s : State) (i : Nat) (bs : List Byte) : Option State :=
  let offs := (pathOffsets s).filter fun o => o / 256 == i
  if offs.all fun o => entryOk s.g (bufNat bs (o % 256) 16) then
    some (offs.foldl (fun s o => putSump s o ((bs.drop (o % 256)).take 16)) s)
  else none

/-- The unit of the group in focus written from a buffer, or none where the write is invalid. -/
def unitWrite (s : State) (kind i : Nat) (bs : List Byte) : Option State :=
  let t := s.team
  match kind with
  | 0 => some { s with g := { s.g with
      vregs := mset VReg.zero s.g.vregs i { tag := .general, lanes := bufWords bs 32 } } }
  | 1 => some { s with g := (List.range 16).foldl (fun g k =>
      if 16 * i + k < (budgetIn t g).sregs then setSreg g (16 * i + k) (w32 (bufNat bs (4 * k) 4)) else g) s.g }
  | 2 => if i = 0 then writeHeader s bs else some s
  | 3 => some (putLocs s ((sharedCells s (256 * i) (bs.take (t.kernel.shared - 256 * i))).map (keepReadOnly s)))
  | 4 =>
      let c := t.cores.idxOf s.g.core
      some { s with team := { t with tiles := (List.range 128).foldl (fun m k =>
        mset 0 m (tileKey c s.g.sub (i / 128) (i % 128) k) (w32 (bufNat bs (4 * k) 4))) t.tiles } }
  | 6 => writeEntries s i bs
  | _ => none

/-- A write into a group, or none where it is invalid. -/
def writeGroup (s : State) (r : GRef) (kind i : Nat) (bs : List Byte) : Option State :=
  (focusGroup s r).bind fun s' => (unitWrite s' kind i bs).map fun _ =>
    withGroup s r fun s => (unitWrite s kind i bs).getD s

/-- The reads of the buffer of a `dbg.wr` move through the ports (R353). -/
def countBuffer (s : State) (a b c : Opnd) : State :=
  match uniPair s 1 a, refTeam s b, uni s 3 c with
  | .ok buf, .ok t, .ok sel =>
      let n := unitBytes (selKind sel)
      if (unitOf s t sel).toOption.isNone || selKind sel == 5 || (bufferFault s buf.toNat n 1).isSome then s
      else countRange s buf.toNat n
  | _, _, _ => s

/-- `dbg.wr` (R426). -/
def execDbgWr (d a b c : Opnd) (s : State) : Out :=
  let s := countBuffer s a b c
  issue (.dbgWr d a b c) (do
    let buf ← uniPair s 1 a
    let t ← refTeam s b
    let sel ← uni s 3 c
    let done (s : State) (st : Nat) : Except Raise Effect := .ok (.write s [.sca (regNo d) (w32 st)])
    match unitOf s t sel with
    | .error st => done s st
    | .ok (_, g) =>
        if selKind sel = 5 then done s 3
        else
          let n := unitBytes (selKind sel)
          match bufferFault s buf.toNat n 1 with
          | some r => .error r
          | none =>
              let bs := rangeBytes s buf.toNat n
              if bs.any (·.2) then .error (poisonRaise .g 0 buf.toNat [])
              else match writeGroup s g.ref (selKind sel) (selIndex sel) (bs.map (·.1)) with
                | some s' => done s' 0
                | none => done s 3) s

end Sys2Proof.Machine
end

