-- ==== Sys2Proof/Machine/Issue.lean ====
section
/-!
DEFINITION. Machine/Issue.lean: when a clause is ready, which clause a port takes and what a slot does when it issues (R191
to R196, R204 to R211, R365, R375, R415), and the steps that end waits, flights, traps and halts.
-/
namespace Sys2Proof.Machine

/-! ### Clauses (R205, R210, R211) -/

/-- WAIT of a header, and the bits of its two set-flags. -/
def waitFlags (w : Dword) : BitVec 12 := BitVec.ofNat 12 (w.toNat / 2 ^ 37)

def setFlags (p : PcSlot) : BitVec 12 :=
  let bit (o : Option Nat) : Nat := match o with
    | some n => 2 ^ n
    | none => 0
  BitVec.ofNat 12 (bit (setFlag p 33) ||| bit (setFlag p 29))

/-- A header that R211 accepts. -/
def headerGood (w : Dword) : Bool :=
  let n := w.toNat
  let flag (lo : Nat) : Bool := let x := n / 2 ^ lo % 16; decide (x < 12) || x == 15
  marked w && decide (n / 2 ^ 49 % 8 < 5) && flag 33 && flag 29 && n % 2 ^ 27 == 0

/-- The cause of a fetch at an address, for the group as a whole (R366, R390). -/
def fetchRaise (e : Nat × Nat) (a : Addr) : Raise :=
  { code := e.1, detail := e.2, mask := 0, addr := some a.toNat, lanes := [] }

/-- The slot in the clause whose header it has reached, or the cause that arrival raises (R210, R211). -/
def arrive? (s : State) (p : PcSlot) : Except Raise PcSlot :=
  if p.stand = .arrived ∧ p.pc.toNat % 8 ≠ 0 then .error (.plain 0x103 0)
  else
    match fetchWord s p.pc with
    | .error e => .error (fetchRaise e p.pc)
    | .ok w =>
        if p.stand = .arrived ∧ !marked w then .error (.plain 0x103 0)
        else if !headerGood w then .error (.plain 0x102 0)
        else .ok { p with hdr := p.pc, head := w }

/-- The first word of the clause that cannot be fetched. -/
def fetchFails (s : State) (p : PcSlot) : Option Raise :=
  (List.range p.count).findSome? fun k =>
    let a : Addr := p.hdr + BitVec.ofNat 57 (8 * (k + 1))
    match fetchWord s a with
    | .error e => some (fetchRaise e a)
    | .ok _ => none

/-! ### Readiness (R192, R208) -/

/-- Handle registers that an instruction names as source operands (R60). -/
def handleSources : Instr → List Nat
  | .htest _ (.h n) => [n]
  | .hcancel (.h n) => [n]
  | .hst _ _ (.h n) => [n]
  | _ => []

/-- The instructions of the slot's clause. -/
def clauseInstrs (s : State) (p : PcSlot) : List Instr :=
  (List.range p.count).filterMap fun k => instrAt s { p with pc := p.hdr + BitVec.ofNat 57 (8 * (k + 1)) }

/-- The handles that the handle-wait of R208 names. -/
def waitHandles (s : State) (p : PcSlot) : List Dword :=
  let named := ((clauseInstrs s p).map handleSources).flatten
  (if named = [] then List.range 16 else named).map (hreg s.g)

/-- An instruction of the slot that writes a handle register has not written it. -/
def handlePending (g : Group) (i : SlotId) : Bool :=
  g.inflight.any fun f => decide (f.slot = i) && f.writes.any fun w => match w with
    | .hnd _ _ => true
    | _ => false

/-- The handle-wait of R208 is met: the handles are those that the slot noted as its clause became a candidate. -/
def handlesReady (s : State) (i : SlotId) (p : PcSlot) : Bool :=
  p.head.toNat / 2 ^ 28 % 2 == 0 || (!handlePending s.g i && (p.waits.getD (waitHandles s p)).all (resolved s))

/-- The conditions of R192 on flags and handles. -/
def clauseReady (s : State) (i : SlotId) (p : PcSlot) : Bool :=
  s.g.flags &&& (waitFlags p.head ||| setFlags p) == 0 && handlesReady s i p

/-- The slot may issue at all: its team runs, its group is neither halted nor stopped, no cause waits to be entered, and a
partner that handles a trap does not hold it (R192, R366, R416). -/
def canAct (s : State) (i : SlotId) : Bool :=
  let g := s.g
  (g.slot i).live && s.team.resident && !s.team.ending && g.entry.isNone && !g.stopped
    && (!g.halted || g.stepping == some i) && g.grace != some 0 && !(inHandler g && decide (trapSlot g ≠ i))

/-- A triggered halt lets the slot go on within its clause only (R416). -/
def clauseMayStart (g : Group) : Bool := g.haltDue.isNone
def clauseMayGoOn (g : Group) : Bool := g.haltDue.all fun h => h.clauseOf.isSome

/-! ### Waiting instructions (R195) -/

/-- What an instruction that waits does when it is executed again. -/
def retry (i : Instr) (s : State) : Option Out :=
  match i with
  | .barArr n => some (execBarArr n s)
  | .barWait n => some (execBarWait n s)
  | .barSync n => some (execBarSync n s)
  | .qPut q a => some (execQPut q a s)
  | .qGet q d => some (execQGet q d s)
  | .gaugeWait spc w b x m => some (execGaugeWait spc w b x m s)
  | .launch d a => some (execLaunch d a s)
  | .cpy d a => some (execCpy d a s)
  | .cpym d a => some (execCpym d a s)
  | .fill d a => some (execFill d a s)
  | .rowcpy d a => some (execRowcpy d a s)
  | .mstore st t d a n => some (execMstore st t d a n s)
  | .mma a => some (execMma a s)
  | .mmaG a => some (execMmaG a s)
  | .mzero t => some (execMzero t s)
  | _ => none

/-- The instruction at which the slot in focus waits can proceed. A slot at a join or a sift goes on at JOIN_RESUME or
SIFT_COMMIT only. -/
def proceeds (s : State) : Bool :=
  match (cur s).wait with
  | .running => true
  | .join | .sift | .branchSift => false
  | _ =>
      match (instrAt s (cur s)).bind fun i => retry i s with
      | some (.next t) =>
          let q := t.g.slot s.slot
          !(decide (q.pc = (cur s).pc) && decide (q.wait ≠ .running))
      | _ => true

/-! ### Candidates (R208) -/

/-- The handles that slot `i` of the group in focus is to note: its clause has a handle-wait and is now a candidate, as the
slot stands at it, or, for the rest of a clause, as the instruction at which it waits can proceed. -/
def candidateWaits (s : State) (i : SlotId) : Option (List Dword) :=
  let p := s.g.slot i
  if !p.live || p.waits.isSome || p.stand == .issuing || handlePending s.g i then none
  else
    let q : Option PcSlot := match p.stand with
      | .paused => if p.head.toNat / 2 ^ 28 % 2 = 1 ∧ proceeds { s with slot := i } then some p else none
      | _ => (arrive? s p).toOption.filter fun q => q.head.toNat / 2 ^ 28 % 2 == 1
    q.map (waitHandles s)

/-- Slots whose clauses have become candidates note their handles. -/
def noteWaits (s : State) : State :=
  (allGroups s).foldl (fun s g =>
    match focusGroup s g.ref with
    | none => s
    | some u => [SlotId.A, SlotId.B].foldl (fun s i => match candidateWaits u i with
        | some hs => onGroups s (fun x => decide (x.ref = g.ref)) fun x => x.setSlot i { x.slot i with waits := some hs }
        | none => s) s) s

/-! ### Ports (R191, R193, R196) -/

/-- The weight of a role (R191). -/
def weightOf (t : Team) (r : Nat) : Nat :=
  1 + ((List.range t.kernel.queues.length).filter fun q =>
    let d := t.kernel.queues.getD q { src := 0, dst := 0, depth := 0, entry := 0, base := 0 }
    (d.dst == r && occupancy t q == d.depth) || (d.src == r && occupancy t q == 0)).length

/-- A clause that a port can take. -/
structure Ready where
  group : GRef
  slot : SlotId
  age : Nat
  weight : Nat
  deriving DecidableEq

/-- The slot in focus is ready to take a port: at a header or target, or at an instruction within its clause. A word that
is no good header needs no more than the slot's arrival. -/
def wantsPort (s : State) : Bool :=
  let p := cur s
  let i := s.slot
  canAct s i && (match p.stand with
    | .issuing => false
    | .paused => clauseMayGoOn s.g && (s.g.stepping == some i || proceeds s) && clauseReady s i p
    | _ => clauseMayStart s.g && (match arrive? s p with
        | .error _ => true
        | .ok q => clauseReady s i q))

/-- The age of a slot's clause (R193): none before it is ready where the yield hint says so (R196). -/
def ageOf (s : State) (p : PcSlot) : Nat := if p.ageless then 0 else s.now - p.since

/-- Groups on a sub-core. -/
def groupsOn (s : State) (core sub : Nat) : List Group := (allGroups s).filter fun g => g.core == core && g.sub == sub

/-- The clauses that a port of a sub-core can take. -/
def readyOn (s : State) (core sub : Nat) : List Ready :=
  ((groupsOn s core sub).map fun g =>
    match focusGroup s g.ref with
    | none => []
    | some s => ([SlotId.A, SlotId.B].filter fun i => wantsPort { s with slot := i }).map fun i =>
        { group := g.ref, slot := i, age := ageOf s (s.g.slot i), weight := weightOf s.team s.g.role }).flatten

/-- `a` is chosen before `b` (R193). -/
def chosenBefore (a b : Ready) : Bool :=
  let old (r : Ready) : Bool := decide (r.age ≥ 1024)
  if old a != old b then old a
  else if !old a && a.weight != b.weight then decide (a.weight > b.weight)
  else if a.age ≠ b.age then decide (a.age > b.age)
  else if a.group.gid ≠ b.group.gid then decide (a.group.gid < b.group.gid)
  else decide (a.slot = .A) && decide (b.slot = .B)

/-- Ports of a sub-core that are taken. -/
def portsHeld (s : State) (core sub : Nat) : Nat :=
  ((groupsOn s core sub).filter fun g =>
      (teamOf s g.ref.team).any fun t => t.resident && !t.ending).foldl
    (fun n g => n + ([g.a, g.b].filter fun p => p.live && p.stand == .issuing).length) 0

/-- A port is free and the slot in focus is what it takes. -/
def takesPort (s : State) : Bool :=
  decide (portsHeld s s.g.core s.g.sub < 4) && (match (readyOn s s.g.core s.g.sub) with
    | rs => rs.any (fun r => decide (r.group = s.g.ref) && decide (r.slot = s.slot) && !(rs.any fun q => chosenBefore q r)))

/-! ### After a step of a group -/

/-- A team all of whose non-exited groups are halted is halted: its accesses are released, it leaves the queue, and the
members of its cluster are pre-empted with it (R110, R417). -/
def settleTeam (s : State) : State :=
  let t := s.team
  let gs := (groupsOf s t.ref).filter Group.active
  if t.ref.serial == 0 || t.ending || t.halted || gs == [] || !(gs.all (·.halted)) then s
  else
    let s := drainTeam { s with team := { t with halted := true, halting := none } }
    let s := settleQueue { s with vd := { s.vd with waiting := s.vd.waiting.filter (· ≠ t.ref) } }
    if t.cluster.isSome then requestStop s t.ref s.now false else s

/-- Halts that are due, and the debug steps that wait for them. -/
def afterStep (s : State) : State :=
  let s := settleTeam (settleHalt s)
  if s.team.steps = [] then s else nextSteps s.team.steps.length s s.team.ref

/-- The instruction of a debug step has issued: the step ends, with its record, once the slot stops (R425). -/
def closeStep (s : State) : State :=
  if s.g.stepping = some s.slot then
    { s with g := { s.g with stepping := none, haltDue := some { why := 5, wp := 0xff, hits := 0, team := false, clauseOf := none } } }
  else s

/-- What follows an instruction: it was the first since `dbg.run`, a debug step ends, and the instructions left to a group of
a halting team fall by one. -/
def closeIssue (s : State) : State :=
  let s := closeStep (setCur s (cur s).uncalm)
  afterStep { s with g := { s.g with grace := s.g.grace.map (· - 1) } }

/-- A cause of arrival at a header or target. -/
def raiseHere (s : State) (r : Raise) : State := afterStep (closeStep (raise s (causeHere s r (cur s).pc 0x3ff)))

/-! ### CLAUSE_ISSUE and CLAUSE_RESUME (R193, R195) -/

/-- The words of a clause cross a memory port where their lines are not cached (R353); caches of instructions are open
(notes/assumptions/68.md). -/
def countFetch (s : State) (p : PcSlot) : State :=
  (List.range (p.count + 1)).foldl (fun s k =>
    match walk s s.vd (p.hdr.toNat + 8 * k) with
    | .leaf pa f _ _ _ =>
        (countRead s [] (if f then pagePlace s pa true (p.hdr.toNat + 8 * k) else { home := .main, addr := pa, va := rawVa }) 8).1
    | _ => s) s

/-- A clause with a handle-wait observes that its handles have resolved (R136, R208). -/
def observeWaits (s : State) (p : PcSlot) : State :=
  if p.head.toNat / 2 ^ 28 % 2 = 0 || s.vd.fabJobs = [] then s else (p.waits.getD (waitHandles s p)).foldl observe s

/-- `CLAUSE_ISSUE`: the slot in focus, at a header, takes a port, or arrival raises a cause (R193, R210, R211). -/
def execClauseIssue (s : State) : Out :=
  let p := cur s
  if !(p.stand == .arrived || p.stand == .header) || !wantsPort s then cannot
  else
    match arrive? s p with
    | .error r => .next (raiseHere s r)
    | .ok q =>
        if !takesPort s then cannot
        else
          match fetchFails s q with
          | some r => .next (raiseHere s r)
          | none =>
              let s := observeWaits (countFetch s q) q
              .next (setCur s { q with pc := q.pc + 8, stand := .issuing, wait := .running, since := s.now, ageless := false })

/-- `CLAUSE_RESUME`: the rest of the clause of the slot in focus takes a port (R195), its handle-wait over as at a clause's
start (R136, R208). -/
def execClauseResume (s : State) : Out :=
  may ((cur s).stand == .paused && wantsPort s && takesPort s)
    (let t := observeWaits s (cur s)
     setCur t { cur t with stand := .issuing, ageless := false })

/-! ### What an instruction meets before it executes -/

/-- The barrier instructions. -/
def isBarrier : Instr → Bool
  | .barArr _ => true
  | .barWait _ => true
  | .barSync _ => true
  | _ => false

/-- The member operand of a cross-lane instruction (R263). -/
def memberOpnd : Instr → Option Opnd
  | .shfl _ _ _ _ _ _ c => some c
  | .vote _ _ _ _ c => some c
  | .red _ _ _ _ _ c => some c
  | .scan _ _ _ _ _ _ c => some c
  | .matchOp _ _ _ _ c => some c
  | .cmpct _ _ _ _ c => some c
  | _ => none

/-- An instruction before which a park escalates to a halt of the group (R415). -/
def escalates (s : State) (i : Instr) : Bool :=
  s.g.parked != 0 && (isBarrier i || (match i with
    | .join => decide (s.g.parkFrom = s.slot)
    | .exit => decide (s.g.parkFrom = s.slot)
    | .rti => decide (s.g.parkFrom = s.slot)
    | .sift _ _ _ => true
    | .brsSift _ _ => true
    | i => match memberOpnd i with
        | none => false
        | some .none => true
        | some c => match uni s 3 c with
            | .ok m => m &&& s.g.parked != 0
            | .error _ => false))

/-- The first vector register that an instruction writes, and how many. -/
def vectorRun (s : State) (i : Instr) : Option (Nat × Nat) :=
  match i with
  | .ld _ w (.v n) _ _ _ _ => some (n, widthRegs w)
  | .mrd _ (.v n) _ => some (n, 4)
  | .pop (.v n) k => some (n, k.toNat + 1)
  | .movx a _ => match uni s 1 a with
      | .ok x => match Opnd.ofCode (x.toNat % 1024) with
          | .v n => some (n, 1 + (x.getLsbD 10).toNat)
          | _ => none
      | .error _ => none
  | i => match Instr.dest i with
      | (.v n, pr) => some (n, 1 + pr.toNat)
      | _ => none

/-- The instruction would write a B register that a started pass of a group's quad holds: it waits (R62, R171). -/
def writesLocked (s : State) (i : Instr) : Bool :=
  match i with
  | .dbgWr _ _ b c =>
      match refTeam s b, uni s 3 c with
      | .ok t, .ok sel =>
          match unitOf s t sel with
          | .ok (t, g) => selKind sel == 0 && locksB t g (selIndex sel) 1
          | .error _ => false
      | _, _ => false
  | i => (vectorRun s i).any fun r => locksB s.team s.g r.1 r.2

/-- The instruction waits for one of its slot whose pass has not retired, and keeps its port (R67, R193). -/
def waitsOwn (s : State) (i : Instr) : Bool :=
  let own (f : InFlight) : Bool := decide (f.slot = s.slot) && f.until_ != .now
  match i with
  | .rti => inHandler s.g && decide (trapSlot s.g = s.slot) && s.g.inflight.any own
  | .ctlRd _ _ => s.g.inflight.any own
  | .ctlWr _ _ => s.g.inflight.any own
  | .stampSync _ => s.g.inflight.any own
  | _ => false

/-- While a trap on a flag is enabled or watched, nothing issues after an instruction that can raise one until it has
completed (R365, R416); nor after a load whose value a canary would trap on or park lanes for, since that trap is precise too
and parked lanes stay at the load's next address (R365, R414, R415; notes/assumptions/98.md). -/
def flagsPending (s : State) : Bool :=
  s.g.inflight.any fun f => decide (f.slot = s.slot)
    && (((f.te ||| trapEnables s.g != 0 || watchedFor s s.g 5 [1, 3, 4] f.issued) && f.loads.any fun w => w.src == 5)
      || (watchedFor s s.g 3 [1, 2] f.issued && f.loads.any fun w => w.src == 3))

/-- Canaries of source 0 at the slot's instruction (R410 to R414, R429): one of a step, the first after a run, and one that
has begun to wait are not watched. -/
def watchPc (s : State) (evs : List Watch) (dst : Word) : State :=
  let p := cur s
  if p.calm || s.g.stepping == some s.slot || p.wait != .running then s
  else watchEvents s s.slot evs [0] { trapCause s.slot p.pc p.pc dst (.plain 0x003 0) with kind := .fault }

/-- What the canaries of source 0 did leaves the slot at its instruction, with lanes, but for a halt. -/
def haltsOnly (s t : State) : Bool :=
  decide (t.g.entry = s.g.entry) && decide (t.g.priv = s.g.priv) && t.team.ending == s.team.ending && (cur t).live

/-- The slot goes on at its instruction. -/
def goesOn (s t : State) : Bool := haltsOnly s t && decide (t.g.haltDue = s.g.haltDue)

/-- What the slot in focus does at its instruction: it stays for a cause, a stop or a halt, it executes, or it halts unless
the instruction faults (R389). -/
inductive Plan where
  | done (s : State)
  | run (i : Instr) (s : State)
  | held (i : Instr) (s : State) (h : Option Halt)

/-- The cause of a word that does not decode (R222, R223, R376). -/
def decodeRaise : DecodeErr → Raise
  | .opcode op => .plain 0x100 op
  | .encoding k => .plain 0x101 k

/-- The slot in focus issues its instruction, where it may. -/
def planIssue (s : State) : Option Plan :=
  let p := cur s
  if !(canAct s s.slot && clauseMayGoOn s.g && p.stand == .issuing) || flagsPending s then none
  else
    match fetchWord s p.pc with
    | .error e => some (.done (closeIssue (raise s (causeHere s (fetchRaise e p.pc) p.pc 0x3ff))))
    | .ok w =>
        match decodeWord (budgetOf s) (p.head.toNat / 2 ^ 49 % 8) w.toNat with
        | .error e =>
            let t := watchPc s [{ src := 0, space := 7, lane := none, x := p.pc.toNat, size := 8 }] 0x3ff
            some (.done (closeIssue (if haltsOnly s t then raise t (causeHere t (decodeRaise e) p.pc 0x3ff) else t)))
        | .ok i =>
            if isBarrier i ∧ s.team.request.isSome ∧ s.g.stepping.isNone then
              some (.done { s with g := { s.g.release with stopped := true } })
            else if writesLocked s i || waitsOwn s i then none
            else if escalates s i then
              some (.done (closeIssue (haltGroup s { why := 3, wp := 0xff, hits := 0, team := false, clauseOf := none })))
            else
              let t := watchPc s (pcEvents i p.pc p.mask) (trapDst i)
              if goesOn s t then some (.run i t)
              else if haltsOnly s t then some (.held i { t with g := { t.g with haltDue := s.g.haltDue } } t.g.haltDue)
              else some (.done (closeIssue t))

/-- What executing an instruction from `s` gave is a fault (R374, R389): a cause other than one of kind T is entered, waits
or ends the team. -/
def faulted (s t : State) : Bool :=
  let fresh := decide (t.g.trapcause ≠ s.g.trapcause) || inHandler t.g != inHandler s.g
  match t.g.entry with
  | some c => s.g.entry.isNone && c.kind != .trap
  | none =>
      if t.team.ending && !s.team.ending then !fresh || codeKind (t.g.trapcause.toNat % 4096) != .trap
      else fresh && codeKind (t.g.trapcause.toNat % 4096) != .trap && inHandler t.g

/-- The outcome of an instruction that a source-0 canary halts: a fault of it is entered, and the halt follows; anything
else it would do is not done (R389, R411, R414). -/
def afterHeld (s : State) (h : Option Halt) : Out → Out
  | .next t =>
      if faulted s t then .next (closeIssue { t with g := { t.g with haltDue := h } })
      else .next (closeIssue { s with g := { s.g with haltDue := h } })
  | _ => .next (closeIssue { s with g := { s.g with haltDue := h } })

/-! ### Waits that end -/

/-- `JOIN_RESUME`: the steps of R29 for the slot in focus, where they change something. -/
def execJoinResume (s : State) : Out :=
  if canAct s s.slot && clauseMayGoOn s.g && (cur s).wait == .join then
    match joinAt s s.slot with
    | .error r => .next (afterStep (raise s (causeHere s r (cur s).pc 0x3ff)))
    | .ok t => may (decide (t.g ≠ s.g)) t
  else cannot

/-- `FLAG_CLEAR`: in-flight instruction `k` of the group in focus completes: one of a pass once the pass has retired (R61,
R171, R207). -/
def execFlagClear (k : Nat) (s : State) : Out :=
  match s.g.inflight[k]? with
  | none => cannot
  | some f =>
      let ready : Bool := match f.until_ with
        | .now => true
        | .pass c n => !((passesAt s c).any fun p => p.serial == n)
      may ready (afterStep (landAt s k))

/-- `STORE_VISIBLE` (R126). -/
def execStoreVisible (s : State) : Out := may (s.g.stores != []) (popStore s)

/-- The entries that a walk reads, each with its level (R101). -/
def walkEntries (s : State) (va : Nat) : List (Nat × Nat × Nat) → Nat → List (Nat × Nat)
  | [], _ => []
  | (lvl, sh, bits) :: rest, tbl =>
      let at_ := tbl + 8 * (va / 2 ^ sh % 2 ^ bits)
      let e := tableWord s at_
      (lvl, at_) :: if !mainPoison s at_ && pointsOn lvl e then walkEntries s va rest (e / 256 % 2 ^ 48 * 256) else []

/-- `PAGE_WALK` (R101, R353, R391, R403): a walk reads the table levels; those that lie in main memory cross a port
(notes/assumptions/68.md). What it finds is kept nowhere that an access could tell from a walk of its own, but an entry
that proves uncorrectable is poisoned. -/
def execPageWalk (n : Nat) (w : WalkAt) (s : State) : Out :=
  maySome ((deviceAt s n).bind fun d =>
    let es := walkEntries s w.va levels d.root
    let read := (es.filter fun e => decide (e.2 < Config.memBytes)).length
    let s := onDevice s n fun d => { d with meters := setAt d.meters 3 (natAt d.meters 3 + 8 * read) }
    if w.va ≥ 2 ^ 57 then none
    else match w.bad with
      | none => some s
      | some lvl => (es.find? fun e => e.1 == lvl).map fun e =>
          addPoison (countDie s (dieOfPa e.2) fun d => { d with unc := satAdd d.unc 1 255 }) e.2)

/-! ### Traps and halts -/

/-- The cause of the group in focus that can be entered: every instruction in flight has completed and v511 can be
written (R171, R366). -/
def entryReady (s : State) : Option Cause := s.g.entry.filter (drained s)

/-- `TRAP_ENTRY` (R366). -/
def execTrapEntry (s : State) : Out :=
  match entryReady s with
  | some c => may (serviceOf s c == 0) (afterStep (enter s c))
  | none => cannot

/-- The group resumes after a supervisor entry that did not end it: a held cause of the partner is entered (R367, R369). -/
def afterService (s : State) : State := if inHandler s.g || s.team.ending || s.g.entry.isSome then s else releasePending s

/-- `SUPERVISOR_ENTRY` (R369, R370). -/
def execSupervisorEntry (s : State) : Out :=
  match entryReady s with
  | some c => may (serviceOf s c != 0) (afterStep (afterService (enter s c)))
  | none => cannot

/-- `TEAM_HALT`: the groups of a halting team that still run stop at instruction boundaries (R416). -/
def execTeamHalt (t : TRef) (s : State) : Out :=
  maySome ((focusTeam s t).bind fun s =>
    match s.team.halting with
    | none => none
    | some why =>
        if s.team.ending || s.team.mode == .lost then none
        else
          let gs := inOrder ((groupsOf s t).filter fun g => g.active && !g.halted)
          let s := gs.foldl (fun s g => withGroup s g.ref fun s =>
            haltNow s { why := why, wp := 0xff, hits := 0, team := false, clauseOf := none }) s
          some (afterStep { s with team := { s.team with halting := none } }))

end Sys2Proof.Machine
end

