-- ==== Sys2Proof/Machine/SluiceInstr.lean ====
section
/-!
DEFINITION. Machine/SluiceInstr.lean: the instructions of the sluice engines as steps of the run in progress (R155 to
R158).
-/
namespace Sys2Proof.Machine

/-- Steps of a run are counted for its device (R353). -/
def meterSteps (s : State) (n : Nat) : State :=
  match s.run.why.vd with
  | none => s
  | some vd => onDevice s vd fun d => { d with meters := setAt d.meters 5 (natAt d.meters 5 + n) }

/-- One step of the run in progress, while its budget lasts (R156 to R158). -/
def sluiceRun (i : Instr) (s : State) : Out :=
  may (s.run.fin == .running && !s.run.overBudget i)
    (meterSteps { s with run := sluiceStep i s.run } (sluiceCost i s.run))

/-- `end`. -/
def execSluiceEnd (s : State) : Out := sluiceRun .sluiceEnd s
/-- `fail`. -/
def execSluiceFail (s : State) : Out := sluiceRun .sluiceFail s
/-- `get`. -/
def execSluiceGet (d : BitVec 4) (s : State) : Out := sluiceRun (.sluiceGet d) s
/-- `peek`. -/
def execSluicePeek (d : BitVec 4) (n : BitVec 15) (s : State) : Out := sluiceRun (.sluicePeek d n) s
/-- `getw`. -/
def execSluiceGetw (d : BitVec 4) (s : State) : Out := sluiceRun (.sluiceGetw d) s
/-- `put`. -/
def execSluicePut (a : BitVec 4) (s : State) : Out := sluiceRun (.sluicePut a) s
/-- `putw`. -/
def execSluicePutw (a : BitVec 4) (s : State) : Out := sluiceRun (.sluicePutw a) s
/-- `putn`. -/
def execSluicePutn (a b : BitVec 4) (s : State) : Out := sluiceRun (.sluicePutn a b) s
/-- `copy`. -/
def execSluiceCopy (b : BitVec 4) (s : State) : Out := sluiceRun (.sluiceCopy b) s
/-- `copy.back`. -/
def execSluiceCopyBack (a b : BitVec 4) (s : State) : Out := sluiceRun (.sluiceCopyBack a b) s
/-- `movi`. -/
def execSluiceMovi (d : BitVec 4) (n : BitVec 15) (s : State) : Out := sluiceRun (.sluiceMovi d n) s
/-- `mov`. -/
def execSluiceMov (d a : BitVec 4) (s : State) : Out := sluiceRun (.sluiceMov d a) s
/-- `add`. -/
def execSluiceAdd (d a b : BitVec 4) (s : State) : Out := sluiceRun (.sluiceAdd d a b) s
/-- `add` with an immediate. -/
def execSluiceAddImm (d a : BitVec 4) (imm : BitVec 14) (s : State) : Out := sluiceRun (.sluiceAddImm d a imm) s
/-- `sub`. -/
def execSluiceSub (d a b : BitVec 4) (s : State) : Out := sluiceRun (.sluiceSub d a b) s
/-- `sub` with an immediate. -/
def execSluiceSubImm (d a : BitVec 4) (imm : BitVec 14) (s : State) : Out := sluiceRun (.sluiceSubImm d a imm) s
/-- `and`. -/
def execSluiceAnd (d a b : BitVec 4) (s : State) : Out := sluiceRun (.sluiceAnd d a b) s
/-- `and` with an immediate. -/
def execSluiceAndImm (d a : BitVec 4) (imm : BitVec 14) (s : State) : Out := sluiceRun (.sluiceAndImm d a imm) s
/-- `or`. -/
def execSluiceOr (d a b : BitVec 4) (s : State) : Out := sluiceRun (.sluiceOr d a b) s
/-- `or` with an immediate. -/
def execSluiceOrImm (d a : BitVec 4) (imm : BitVec 14) (s : State) : Out := sluiceRun (.sluiceOrImm d a imm) s
/-- `xor`. -/
def execSluiceXor (d a b : BitVec 4) (s : State) : Out := sluiceRun (.sluiceXor d a b) s
/-- `xor` with an immediate. -/
def execSluiceXorImm (d a : BitVec 4) (imm : BitVec 14) (s : State) : Out := sluiceRun (.sluiceXorImm d a imm) s
/-- `shl`. -/
def execSluiceShl (d a b : BitVec 4) (s : State) : Out := sluiceRun (.sluiceShl d a b) s
/-- `shl` with an immediate. -/
def execSluiceShlImm (d a : BitVec 4) (imm : BitVec 14) (s : State) : Out := sluiceRun (.sluiceShlImm d a imm) s
/-- `shr`. -/
def execSluiceShr (d a b : BitVec 4) (s : State) : Out := sluiceRun (.sluiceShr d a b) s
/-- `shr` with an immediate. -/
def execSluiceShrImm (d a : BitVec 4) (imm : BitVec 14) (s : State) : Out := sluiceRun (.sluiceShrImm d a imm) s
/-- `beq`. -/
def execSluiceBeq (a b : BitVec 4) (o : BitVec 15) (s : State) : Out := sluiceRun (.sluiceBeq a b o) s
/-- `bne`. -/
def execSluiceBne (a b : BitVec 4) (o : BitVec 15) (s : State) : Out := sluiceRun (.sluiceBne a b o) s
/-- `blt`. -/
def execSluiceBlt (a b : BitVec 4) (o : BitVec 15) (s : State) : Out := sluiceRun (.sluiceBlt a b o) s
/-- `beof`. -/
def execSluiceBeof (o : BitVec 15) (s : State) : Out := sluiceRun (.sluiceBeof o) s
/-- `jmp`. -/
def execSluiceJmp (o : BitVec 15) (s : State) : Out := sluiceRun (.sluiceJmp o) s
/-- `loop`. -/
def execSluiceLoop (d : BitVec 4) (o : BitVec 15) (s : State) : Out := sluiceRun (.sluiceLoop d o) s
/-- `tbl`. -/
def execSluiceTbl (d a : BitVec 4) (s : State) : Out := sluiceRun (.sluiceTbl d a) s

/-- `SLUICE_STEP_BUDGET` (R158): the step that would exceed the budget is not executed; the run ends as by a fault. -/
def execSluiceStepBudget (s : State) : Out :=
  match s.run.next with
  | some i => may (s.run.overBudget i) { s with run := s.run.fault }
  | none => cannot

end Sys2Proof.Machine
end

