-- ==== Sys2Proof/Machine/MemEvents.lean ====
section
/-!
DEFINITION. Machine/MemEvents.lean: the steps of the memory side: fills and evictions, the sluice engines' background jobs,
refresh and scrub, clearing, shootdowns, peers and ports (R103, R104, R114 to R121, R147 to R154, R340, R391 to R403,
R440, R443).
-/
namespace Sys2Proof.Machine

/-! ### The memory-side cache (R118, R121, R147) -/

/-- The device in focus, with a free one of the dies as the die that acts. -/
def onSomeDie (s : State) : State := { s with g := { Group.idle with core := 128 * (Config.freeNat s.draw 0 % 4) } }

/-- A sector that an error leaves uncorrectable is poisoned where it is held; a cached copy of it is written back with its
poison as it leaves the cache (R393). -/
def Block.strike (b : Block) (k : Nat) : Block := { b with poison := sadd b.poison k, dirty := true }

/-- The same in a line of a page with F = 1, whose sector goes back to the peer module whole. -/
def Block.strikePeer (b : Block) (k : Nat) : Block :=
  { b.strike k with wrote := (List.range 32).foldl (fun w i => sadd w (32 * k + i)) b.wrote }

/-- A sector of a line that an error leaves uncorrectable is poisoned: in a cached block or line, else in the array (R391,
R393). -/
def strikeSector (s : State) (pa va k : Nat) (f : Bool) : State :=
  let at_ := pa / 256 * 256 + 32 * k
  if f then
    let key := lineKey (s.g.core / 128) pa
    match mget? s.peerLines key with
    | some b => { s with peerLines := mins s.peerLines key (b.strikePeer k) }
    | none => s
  else
    match bindingAt s.vd va with
    | some (_, sl) =>
        let base := at_ - (va / 256 * 256 + 32 * k) % sl.bs
        match mget? s.cache base with
        | some b => { s with cache := mins s.cache base (b.strike ((at_ - base) / 32)) }
        | none => addPoison s at_
    | none =>
        let held := (mget? s.lines (pa / 256)).isSome
        addPoison { s with lines := if held then mins s.lines (pa / 256) true else s.lines } at_

/-- Times that the transfers of a line's beats were retried: at most 8 of each (R391). -/
def retriesOf (e : StoreErrs) : Nat := e.beats.foldl (fun n b => n + min b.2 8) 0

/-- The sectors of a line that its errors leave uncorrectable: those found so, and on the port of a stack those with a beat
whose eighth retry has failed (R391). -/
def lostSectors (e : StoreErrs) (f : Bool) : List Nat :=
  let failed := if f then [] else (e.beats.filter fun b => decide (8 < b.2)).map (·.1)
  (e.bad ++ failed).eraseDups.filter (· < 8)

/-- The sectors of a line that the array's code corrected. -/
def mendedSectors (e : StoreErrs) (f : Bool) : Nat := if f then 0 else (e.fixed.eraseDups.filter (· < 8)).length

/-- Storage errors met on the line of an address: retries and corrections are counted by the die, and each uncorrectable
sector is poisoned and counted (R391, R392). -/
def strikeLine (s : State) (pa va : Nat) (f : Bool) (e : StoreErrs) : State :=
  let s := (lostSectors e f).foldl (fun s k => strikeSector s pa va k f) s
  countDie s (if f then s.g.core / 128 else dieOfPa pa) fun d =>
    { d with memc := satAdd d.memc (mendedSectors e f) 0xffff, linkr := satAdd d.linkr (retriesOf e) 0xffff
             sramc := satAdd d.sramc e.soft 0xffff, unc := satAdd d.unc (lostSectors e f).length 255 }

/-- A block of a bound region is wanted in the cache: a store to it is queued, or a job that has started has bytes of it to
move. Nothing else brings one there (R147, R339). -/
def wanted (s : State) (sl : Sluice) (pa va : Nat) : Bool :=
  let near (l : Loc) : Bool := l.home = .main && decide (pa ≤ l.addr) && decide (l.addr < pa + sl.bs)
  let meets (r : Region) : Bool := r.space == 0 && decide (r.lo < va + sl.bs) && decide (va < r.hi)
  (s.groups.any fun g => g.ref.team.vd == s.vd.number && g.stores.any fun q => q.cells.any fun c => near c.1)
    || s.vd.jobs.any fun j => j.started && decide (j.moved < j.total) && (j.reads ++ j.writes).any meets

/-- Physical and virtual addresses of the blocks in the line of an address. -/
def lineBlocks (sl : Sluice) (pa va : Nat) : List (Nat × Nat) :=
  (List.range (256 / sl.bs)).map fun k => (pa / 256 * 256 + sl.bs * k, va / 256 * 256 + sl.bs * k)

/-- The wanted blocks of a line of a bound region are filled. -/
def fillWanted (s : State) (sl : Sluice) (pa va : Nat) : State :=
  ((lineBlocks sl pa va).filter fun b => wanted s sl b.1 b.2).foldl (fun s b => (cacheBlock s sl b.1 b.2).1) s

/-- `CACHE_FILL` (R147, R391): errors of the array and of its port are met before the fill, those of a line from another
module after it. Of a bound region a line with a wanted or cached block is filled, and of it the wanted blocks. -/
def execCacheFill (n : Nat) (l : LineAt) (s : State) : Out :=
  maySome ((deviceOnly s n).bind fun s =>
    match walk s s.vd l.va with
    | .leaf pa true _ _ true => some { strikeLine (fillLine (onSomeDie s) l.va) pa l.va true l.errs with g := .idle }
    | .leaf pa false _ _ true =>
        let t := strikeLine s pa l.va false l.errs
        match bindingAt s.vd l.va with
        | some (_, sl) =>
            if (lineBlocks sl pa l.va).any fun b => (mget? s.cache b.1).isSome || wanted s sl b.1 b.2 then
              some (fillWanted t sl pa l.va)
            else none
        | none => some (fillLine t l.va)
    | _ => none)

/-- Keys of the lines that the dies hold of a fabric address. -/
def peerKeys (s : State) (pa : Nat) : List Nat :=
  ((List.range 4).map fun die => lineKey die pa).filter fun k => (mget? s.peerLines k).isSome

/-- Blocks of the device in focus in a line of local main memory. -/
def blocksIn (s : State) (pa : Nat) : List (Nat × Block) :=
  s.cache.filter fun (e : Nat × Block) => e.1 / 256 == pa / 256 && e.2.vd == s.vd.number

/-- A line of local main memory leaves the memory-side cache. -/
def evictLine (s : State) (pa : Nat) : Option State :=
  match blocksIn s pa, mget? s.lines (pa / 256) with
  | [], none => none
  | [], some dirty => some (meter { s with lines := mdel s.lines (pa / 256) } 4 (if dirty then 256 else 0))
  | bs, _ => some (bs.foldl (fun s e => evictBlock s e.1) s)

/-- The line of a page with F = 1 that leaves: that of one of the dies which hold it. -/
def somePeerKey (s : State) (ks : List Nat) : Nat := ks.getD (Config.freeNat s.draw 0 % ks.length) 0

/-- `CACHE_EVICTION` (R121, R147, R391): errors of the cache are met as the line is read out. -/
def execCacheEviction (n : Nat) (l : LineAt) (s : State) : Out :=
  maySome ((deviceOnly s n).bind fun s =>
    match walk s s.vd l.va with
    | .leaf pa true _ _ _ =>
        match peerKeys s pa with
        | [] => none
        | ks =>
            let k := somePeerKey s ks
            let t := strikeLine { s with g := { Group.idle with core := 128 * (k / 2 ^ 48) } } pa l.va true l.errs
            some (evictPeer { t with g := .idle } k)
    | .leaf pa false _ _ _ => evictLine (strikeLine s pa l.va false l.errs) pa
    | _ => none)

/-! ### The sluice engines (R147 to R150) -/

/-- `SLUICE_ENCODE` (R150): the write-back that waits is encoded, verified and stored. -/
def execSluiceEncode (n pa : Nat) (s : State) : Out :=
  maySome ((deviceOnly s n).bind fun s =>
    (s.encodes.find? fun e => e.vd == n && e.pa == pa).map (finishEncode s))

/-- The binding and virtual address of the block that is stored at a physical address. -/
def sluicedVa (s : State) (d : Device) (pa : Nat) : Option (Sluice × Nat) :=
  d.bindings.findSome? fun b =>
    (List.range (b.2.len / 65536)).findSome? fun k =>
      let va : Nat := b.2.base + 65536 * k
      match walk s d va with
      | .leaf p false _ _ _ => if p ≤ pa ∧ pa < p + 65536 then some (b.2, va + (pa - p)) else none
      | _ => none

/-- `SLUICE_DECODE` (R147, R396): a wanted block that is not cached is fetched, checked and decoded at its port, and filled
into the cache. -/
def execSluiceDecode (n pa : Nat) (s : State) : Out :=
  maySome ((deviceOnly s n).bind fun s =>
    (sluicedVa s s.vd pa).bind fun e =>
      let off := e.2 % e.1.bs
      if (mget? s.cache (pa - off)).isNone && wanted s e.1 (pa - off) (e.2 - off) then some (cacheBlock s e.1 pa e.2).1 else none)

/-! ### Transcode and unbind jobs (R152 to R154, R397) -/

/-- A block's place, its plain bytes and poisoned sectors, for a background job that reads its metadata word, and the block
without allocation: from the cache, or from memory, with the counts that this takes (R147, R353). -/
def visitBlock (s : State) (sl : Sluice) (pa va : Nat) : State × List Byte × List Nat :=
  match mget? s.cache pa with
  | some b => (countMeta s sl pa, b.bytes, b.poison)
  | none =>
      let f := fillBlock s s.vd sl pa va
      (countFill s sl pa f, f.bytes, f.poison)

/-- The block of a cache entry is clean once it has been stored. -/
def markClean (s : State) (pa : Nat) : State :=
  match mget? s.cache pa with
  | some b => { s with cache := mins s.cache pa { b with dirty := false } }
  | none => s

/-- The metadata word shows a block stored encoded by the current generation (R152). -/
def isCurrent (s : State) (sl : Sluice) (pa : Nat) : Bool :=
  let w := metaAt s s.vd sl pa
  !mainPoison s (metaPa s.vd sl pa) && w / 128 % 2 == 0 && w / 32 % 4 == sl.cur

/-- The stored block is raw. -/
def isRaw (s : State) (sl : Sluice) (pa : Nat) : Bool :=
  !mainPoison s (metaPa s.vd sl pa) && metaAt s s.vd sl pa / 128 % 2 == 1

/-- The cache holds the block with a poisoned sector. -/
def holdsPoison (s : State) (pa : Nat) : Bool := (mget? s.cache pa).any (·.poison != [])

/-- One block of the transcode job (R152, R397). -/
def transcodeOne (s : State) (slot : Nat) (sl : Sluice) (pa va : Nat) : State :=
  let s := finishEncodes s pa (pa + sl.bs)
  if isCurrent s sl pa && !holdsPoison s pa then countMeta s sl pa
  else
    let r := visitBlock s sl pa va
    let s := markClean (storeBlock r.1 slot sl pa va r.2.1 r.2.2) pa
    onBinding s slot fun x => { x with tcDone := satAdd x.tcDone 1 0xffffffff }

/-- A background job of a binding goes on with its next block, `one` being what it does to a block; it waits while firmware
repairs a poisoned entry that the walk meets (R403). -/
def nextBlock (s : State) (slot : Nat) (sl : Sluice) (one : State → Nat → Nat → State) : State :=
  let va : Nat := sl.base + sl.bs * sl.cursor
  let past (s : State) : State := onBinding s slot fun x => { x with cursor := x.cursor + 1 }
  match walk s s.vd va with
  | .leaf pa false _ _ _ => past (one s pa va)
  | .poisoned at_ => repairTable s at_
  | _ => past s

/-- `TRANSCODE_BLOCK` (R152, R397). -/
def execTranscodeBlock (n slot : Nat) (s : State) : Out :=
  maySome ((deviceOnly s n).bind fun s =>
    (mget? s.vd.bindings slot).bind fun sl =>
      if sl.tc ∧ sl.bs * sl.cursor < sl.len then some (nextBlock s slot sl fun s => transcodeOne s slot sl) else none)

/-- `TRANSCODE_END` (R152): the old pair is dropped and the handle resolves. -/
def execTranscodeEnd (n slot : Nat) (s : State) : Out :=
  maySome ((deviceOnly s n).bind fun s =>
    (mget? s.vd.bindings slot).bind fun sl =>
      if sl.tc ∧ sl.bs * sl.cursor ≥ sl.len then
        let s := onBinding s slot fun x => { x with tc := false, oldEnc := ([], []), oldDec := ([], []), cursor := 0 }
        some { s with vd := resolve s.vd sl.handle (statusWord 1 false false false false 0) }
      else none)

/-- One block of the unbind job (R154, R397): a dirty cached block is written back raw, and so is a poisoned one; a block that
is not raw is stored in plain form. -/
def unbindOne (s : State) (sl : Sluice) (pa va : Nat) : State :=
  let s := finishEncodes s pa (pa + sl.bs)
  let dirty := (mget? s.cache pa).any (·.dirty)
  if !dirty && !holdsPoison s pa && isRaw s sl pa then countMeta s sl pa
  else
    let r := visitBlock s sl pa va
    markClean (storeRaw r.1 sl pa va r.2.1 r.2.2) pa

/-- `UNBIND_BLOCK` (R154): it waits while the slot transcodes. -/
def execUnbindBlock (n slot : Nat) (s : State) : Out :=
  maySome ((deviceOnly s n).bind fun s =>
    (mget? s.vd.bindings slot).bind fun sl =>
      if sl.unbinding ∧ !sl.tc ∧ sl.bs * sl.cursor < sl.len then some (nextBlock s slot sl fun s => unbindOne s sl) else none)

/-- The cached blocks of a binding become ordinary lines: a block made dirty since the job passed it is written back
raw. -/
def releaseBlocks (s : State) (sl : Sluice) : State :=
  (s.cache.filter fun (e : Nat × Block) =>
      e.2.vd == s.vd.number && decide (sl.base ≤ e.2.va) && decide (e.2.va < sl.base + sl.len)).foldl (fun s e =>
    let s := if e.2.dirty then storeRaw s sl e.1 e.2.va e.2.bytes e.2.poison else s
    { s with cache := mdel s.cache e.1, lines := mins s.lines (e.1 / 256) false }) s

/-- `UNBIND_END` (R154): the slot is freed and the handle resolves. -/
def execUnbindEnd (n slot : Nat) (s : State) : Out :=
  maySome ((deviceOnly s n).bind fun s =>
    (mget? s.vd.bindings slot).bind fun sl =>
      if sl.unbinding ∧ !sl.tc ∧ sl.bs * sl.cursor ≥ sl.len then
        let s := finishWhere s fun e => decide (sl.base ≤ e.va) && decide (e.va < sl.base + sl.len)
        let s := releaseBlocks s sl
        let d := { s.vd with bindings := mdel s.vd.bindings slot }
        some { s with vd := resolve d sl.unHandle (statusWord 1 false false false false 0) }
      else none)

/-! ### Refresh and scrub (R116, R117, R399) -/

/-- The row exists (R13, R114). -/
def isRow (stack bank row : Nat) : Bool :=
  decide (stack < Config.hbmStacks) && decide (bank < Config.banks) && decide (row < Config.rows)

/-- `REFRESH` (R116): the bank is under refresh. -/
def execRefresh (stack bank row : Nat) (s : State) : Out :=
  if isRow stack bank row then .next { s with refreshing := mins s.refreshing (32 * stack + bank) row }
  else .fault .noSuchPlace

/-- `REFRESH_RETRY` (R116): a request that met the bank is reissued once the refresh is over; nothing else changes. -/
def execRefreshRetry (stack bank : Nat) (s : State) : Out :=
  may (mget? s.refreshing (32 * stack + bank)).isSome { s with refreshing := mdel s.refreshing (32 * stack + bank) }

/-- The key of a row's refresh class. -/
def rowKey (stack bank row : Nat) : Nat := stack * 2 ^ 21 + bank * 2 ^ 16 + row

/-- The class at boot: 32, 64 or 128 ms (R117). -/
def bootClassOf (key : Nat) : Nat := 32 * 2 ^ (Config.bootClass key % 3)

def classAt (s : State) (key : Nat) : Nat := (mget? s.classes key).getD (bootClassOf key)

/-- The next shorter class (R399). -/
def demote (c : Nat) : Nat := if c ≤ 32 then 32 else c / 2

/-- A sector, by byte address / 32, lies in the row. -/
def sectorInRow (stack bank row : Nat) (k : Nat) : Bool :=
  let pa : Nat := 32 * k
  pa / 2 ^ 36 % 8 == stack && pa / 2 ^ 15 % 32 == bank && pa / 2 ^ 20 % 2 ^ 16 == row && decide (pa < Config.memBytes)

/-- A row in which scrub has corrected an error: its class becomes shorter, and one of the shortest class is reported to
device firmware (R399). -/
def demoteRow (s : State) (k : Nat) : State :=
  let c := classAt s k
  { s with classes := mins s.classes k (demote c), reports := if c ≤ 32 then sadd s.reports k else s.reports }

/-- `SCRUB_ROW` (R392, R393, R399): corrections are counted and shorten the row's class; an uncorrectable sector is
poisoned and nothing else is reported. -/
def execScrubRow (stack bank row : Nat) (corrected uncorrectable : List Nat) (s : State) : Out :=
  if isRow stack bank row && (corrected ++ uncorrectable).all (sectorInRow stack bank row) then
    let k := rowKey stack bank row
    let s := if corrected = [] then s else demoteRow s k
    let s := countDie s (stack / 2) fun d =>
      { d with memc := satAdd d.memc corrected.length 0xffff, unc := satAdd d.unc uncorrectable.length 255 }
    .next (uncorrectable.foldl (fun s k => addPoison s (32 * k)) s)
  else .fault .noSuchPlace

/-- `SPAN_INITIALISE` (R104, R351). -/
def execSpanInitialise (span : Nat) (s : State) : Out :=
  if 32768 * span < Config.memBytes then may (inRanges s.marked span) (clearSpan s span) else .fault .noSuchPlace

/-! ### Page tables (R103) -/

/-- Bytes of firmware's part of physical memory that hold the tables of one device. -/
def tableBytes : Nat := 2 ^ 26

/-- The place of a page-table entry of the device. -/
def isTableWord (d : Device) (pa : Nat) : Bool := pa % 8 == 0 && decide (d.root ≤ pa) && decide (pa < d.root + tableBytes)

/-- A page-table entry written. -/
def putEntry (s : State) (pa : Nat) (x : Dword) : State := { s with ptes := mset 0 s.ptes (pa / 8) x }

/-- Firmware writes a page-table entry. -/
def editTable (s : State) (e : PtEdit) : State :=
  let s := putEntry s e.pa e.val
  { s with vd := { s.vd with tables := max s.vd.tables ((e.pa + 256) / 256 * 256) } }

/-- The page of a leaf for local memory at a level: its physical address and its size (R100, R101). -/
def leafPage (level e : Nat) : Option (Nat × Nat) :=
  match levels.find? fun l => l.1 == level with
  | some (_, sh, _) =>
      if e % 4 = 2 ∧ e / 128 % 2 = 0 ∧ ¬ reservedEntry e ∧ level < 4 then some (e / 256 % 2 ^ 48 * 256, 2 ^ sh) else none
  | none => none

/-- A page that an edit moves: a leaf for local memory that takes the place of another names the page's new home
(notes/assumptions/74.md): its old address, its new one and its size. -/
def movedPage (s : State) (e : PtEdit) : Option (Nat × Nat × Nat) :=
  match leafPage e.level (tableWord s e.pa), leafPage e.level e.val.toNat with
  | some (a, n), some (b, _) => if a = b then none else some (a, b, n)
  | _, _ => none

/-- The ranges of physical memory that move with a page: its bytes, and the metadata words of its blocks (R142;
notes/assumptions/78.md). -/
def movedRanges (s : State) (m : Nat × Nat × Nat) : List (Nat × Nat × Nat) :=
  [m, (wordPa s.vd m.1, wordPa s.vd m.2.1, m.2.2 / 32)]

/-- What a range of physical memory holds: its bytes that are not 0 and its poisoned sectors, by their distance from the
range's start. -/
structure Held where
  cells : List (Nat × Byte)
  poison : List Nat
  deriving DecidableEq, Repr

def heldIn (s : State) (a n : Nat) : Held :=
  let on (x : Nat) : Bool := decide (a ≤ x) && decide (x < a + n) && !inRanges s.marked (x / 32768)
  { cells := (s.mem.filter fun c => on c.1).map fun c => (c.1 - a, c.2)
    poison := (s.poison.filter fun k => on (32 * k)).map fun k => k - a / 32 }

/-- A range of physical memory made to hold that (R399). -/
def holdAt (s : State) (b n : Nat) (h : Held) : State :=
  let s := (List.range ((b + n + 32767) / 32768 - b / 32768)).foldl (fun s k => clearSpan s (b / 32768 + k)) s
  let out (x : Nat) : Bool := decide (x < b) || decide (b + n ≤ x)
  { s with mem := h.cells.foldl (fun m c => mset Memory.unlisted m (b + c.1) c.2) (s.mem.filter fun c => out c.1)
           poison := h.poison.foldl (fun p k => sadd p (k + b / 32)) (s.poison.filter fun k => out (32 * k)) }

/-- Slots that wait on a gauge word of a moved page wait on it at its new place. -/
def movePlaces (s : State) (ms : List (Nat × Nat × Nat)) : State :=
  let new (a : Nat) : Nat := ((ms.find? fun m => decide (m.1 ≤ a) && decide (a < m.1 + m.2.2)).map fun m => a - m.1 + m.2.1).getD a
  onTeams s (fun t => t.ref.vd == s.vd.number) fun t =>
    { t with gaugers := t.gaugers.map fun w =>
        if w.1.home = .main then ({ w.1 with addr := new w.1.addr }, w.2) else w }

/-- Pages move: their lines are written back and leave the cache, and their bytes, poison and metadata words are copied
(R142, R399), which the array reads and writes (R353). -/
def movePages (s : State) (ms : List (Nat × Nat × Nat)) : State :=
  let rs := (ms.map (movedRanges s)).flatten
  let s := rs.foldl (fun s r => cleanRange (cleanRange s r.1 (r.1 + r.2.2) true) r.2.1 (r.2.1 + r.2.2) true) s
  let held := rs.map fun r => (r, heldIn s r.1 r.2.2)
  let n := rs.foldl (fun n r => n + r.2.2) 0
  movePlaces (held.foldl (fun s h => holdAt s h.1.2.1 h.1.2.2 h.2) (meter (meter s 3 n) 4 n)) ms

/-- A job in the middle of its bytes moves on, so that no page of it is translated by an old entry and a new one (R103):
to its end, or where it is cancelled to its next 256-byte unit, at which it stops (R307). -/
def finishPages (s : State) (h : Dword) : State :=
  match focusJob s { vd := handleVd h, origin := handleOrigin h, kind := handleKind h, serial := handleSerial h } with
  | some (t, j) =>
      if j.started && decide (0 < j.moved) && decide (j.moved < j.total) then
        let r := moveTo t j (if j.cancel then min j.total ((j.moved + 255) / 256 * 256) else j.total)
        if j.cancel then endJob r.1 r.2 true else putJob r.1 r.2
      else s
  | none => s

/-- A pass of a team has translated its pages and has still to read some of them (R382). -/
def readsPages (t : Team) : Bool :=
  t.resident && t.passes.any fun e => e.2.any fun p => p.started && p.zero.isNone && p.failed.isNone && decide (p.step < p.steps)

/-- `TRANSLATION_SHOOTDOWN` (R103): accesses translated by the old entries have been performed; the new ones take
effect. It waits for the passes that have started, which translated their pages as they did (R382). -/
def execTranslationShootdown (n : Nat) (edits : List PtEdit) (s : State) : Out :=
  maySome ((deviceOnly s n).bind fun s =>
    if (s.teams.any fun t => t.ref.vd == n && readsPages t) then none
    else if edits.all fun e => isTableWord s.vd e.pa then
      let s := (s.groups.filter fun g => g.ref.team.vd == n).foldl (fun s g => g.stores.foldl (fun s q => putVisible s q.cells) s) s
      let s := onGroups s (fun g => g.ref.team.vd == n) fun g => { g with stores := [] }
      (deviceOnly ((s.vd.jobs.map (·.handle)).foldl finishPages s) n).map fun s =>
        let ms := edits.filterMap (movedPage s)
        edits.foldl editTable (if ms = [] then s else movePages s ms)
    else none)

/-! ### Peers and ports (R118, R147, R340, R440, R443) -/

/-- The live device whose main memory holds a physical address. -/
def ownerOf (s : State) (pa : Nat) : Option Device :=
  (allDevices s).find? fun d => decide (d.memPa ≤ pa) && decide (pa < d.memPa + d.gib * 2 ^ 30)

/-- The place of a byte of the device in focus at a physical address, as a peer reaches it: in a bound region the peer
sees plain data (R147). An address of no bound region takes the highest virtual address, which the plain view has. -/
def peerPlace (s : State) (pa : Nat) : Loc :=
  { home := .main, addr := pa, va := ((sluicedVa s s.vd pa).map (·.2)).getD (2 ^ 57) }

/-- An answer goes to the peer, on one of the channels of peer traffic (R340); it is dropped where every port is down
(R440). -/
def reply (s : State) (error : Bool) (bs : List (Byte × Bool)) : State :=
  let bad := (List.range bs.length).filter fun i => (bs.getD i (0, false)).2
  let r : PeerReply := { channel := 1 + Config.freeNat s.draw 3 % 3, error := error, data := bs.map (·.1), poison := bad }
  { s with replies := if linked s then s.replies ++ [r] else s.replies }

/-- An atomic that a peer makes at its home (R125, R147): the old value is the answer. -/
def peerAtomic (s : State) (pa n : Nat) (f : Nat → Option Nat) : State :=
  let ls := (List.range n).map fun i => peerPlace s (pa + i)
  let s := ls.foldl readyAtomic s
  let old := ls.map (locByte s)
  let s := countReads s (ls.map fun l => (l, 1))
  let s := if old.any (·.2) then s
    else match f (leNat (old.map (·.1))) with
      | some x => putVisible s (ls.zip (leBytes n x))
      | none => s
  reply (meter s 6 n) false old

/-- What a peer asks of bytes that the device in focus owns (R118, R125, R147). -/
def servePeer (s : State) (pa len : Nat) (op : PeerOp) : State :=
  let ls := (List.range len).map fun i => peerPlace s (pa + i)
  let s := meter s 6 len
  match op with
  | .load => reply (countReads s (ls.map fun l => (l, 1))) false (ls.map (locByte s))
  | .store bs => reply (putVisible s (ls.zip (bs.take len))) false []
  | .atom op t x => peerAtomic s pa len fun old => some (atomValue op (tySigned t) len old (x.toNat % 2 ^ (8 * len)))
  | .cas cmp new => peerAtomic s pa len fun old =>
      if old = cmp.toNat % 2 ^ (8 * len) then some (new.toNat % 2 ^ (8 * len)) else none

/-- The access is one that a peer can make: an atomic is on 4 or 8 aligned bytes (R290). -/
def peerOpOk (pa len : Nat) : PeerOp → Bool
  | .load => len != 0
  | .store bs => len != 0 && bs.length == len
  | .atom _ _ _ | .cas _ _ => (len == 4 || len == 8) && pa % len == 0

/-- `PEER_ACCESS` (R147, R440, R443): as a local access of the same kind; an address that no live device owns gets an error
response. It comes in at a port that is up. -/
def execPeerAccess (pa len : Nat) (op : PeerOp) (s : State) : Out :=
  if !linkUp s || !peerOpOk pa len op then cannot
  else
    match ownerOf s pa with
    | none => .next (reply s true [])
    | some d =>
        if pa + len > d.memPa + d.gib * 2 ^ 30 then .next (reply s true [])
        else maySome ((deviceOnly s d.number).map fun s => servePeer s pa len op)

/-- The line of an address of a page with F = 1, as a read that met no answer leaves it: its sectors are poisoned (R393,
R440). -/
def missedLine (s : State) (pa va : Nat) (sectors : List Nat) : Block :=
  let b := peerLine s pa va
  { b with poison := (sectors.filter (· < 8)).foldl sadd b.poison }

/-- `PEER_UNREACHABLE` (R440): a read of a line that the die does not hold fills its sectors poisoned; a write is dropped and
logged. -/
def execPeerUnreachable (n va : Nat) (how : PeerMiss) (s : State) : Out :=
  maySome ((deviceOnly s n).bind fun s =>
    match walk s s.vd va with
    | .leaf pa true _ _ _ =>
        match how with
        | .write =>
            match (peerKeys s pa).filter fun k => (mget? s.peerLines k).any (·.dirty) with
            | [] => none
            | ks =>
                let s := { s with peerLines := mdel s.peerLines (somePeerKey s ks) }
                some (writeLog s (cycleOf s 0) 0 (va % 2 ^ 57) 0x406 0 0 0 0 0 0 0)
        | .read sectors =>
            let k := lineKey (Config.freeNat s.draw 0 % 4) pa
            if (mget? s.peerLines k).isSome then none
            else some { s with peerLines := mins s.peerLines k (missedLine s pa va sectors) }
    | _ => none)

/-- A port of the Adit fabric (R345). -/
def isPort (n : Nat) : Bool := decide (n < Config.aditPorts)

def portAt (s : State) (n : Nat) : Port := mget Port.fresh s.ports n

def putPort (s : State) (n : Nat) (p : Port) : State := { s with ports := mset Port.fresh s.ports n p }

/-- `FLIT_REPLAY` (R340): a flit whose CRC is bad is discarded and sent again, for at most the eighth time; whether it is
the flit that failed before is open. -/
def execFlitReplay (f : FlitAt) (s : State) : Out :=
  if isPort f.port then
    let p := portAt s f.port
    may (!flitOk f.flit && p.mode == .up && decide (p.replays < 8))
      (putPort s f.port { p with replays := if Config.freePick s.draw f.port 0 then p.replays + 1 else 1 })
  else .fault .noSuchPlace

/-- `PORT_RETRAIN` (R440): the eighth replay of a flit has failed. -/
def execPortRetrain (n : Nat) (s : State) : Out :=
  if isPort n then
    let p := portAt s n
    may (p.mode == .up && decide (p.replays ≥ 8)) (putPort s n { mode := .retraining, replays := 0 })
  else .fault .noSuchPlace

/-- A module event is reported to the host (R345). -/
def moduleEvent (s : State) (kind n : Nat) : State := send s 0 0xe3 0 (leBytes 4 kind ++ leBytes 4 n)

/-- `PORT_RETRAINING_END` (R440): the port is up again, or down until reset, which another port reports where one is not
down. -/
def execPortRetrainingEnd (n : Nat) (ok : Bool) (s : State) : Out :=
  if isPort n then
    let p := portAt s n
    may (p.mode == .retraining)
      (if ok then putPort s n .fresh
       else moduleEvent (putPort s n { mode := .down, replays := 0 }) 2 n)
  else .fault .noSuchPlace

end Sys2Proof.Machine
end

