-- ==== Sys2Proof/Machine/Firmware.lean ====
section
/-!
DEFINITION. Machine/Firmware.lean: what device firmware, recovery, the root of trust and reset do: page tables, code
versions, thermal limits, withdrawn cores, samples and meters (R46, R47, R64, R187, R188, R204, R351, R353, R355, R361, R388,
R402, R439, R440, R442).
-/
namespace Sys2Proof.Machine

/-! ### Page tables (R100, R101, R351) -/

/-- Root of a device's tables in firmware's part of physical memory. -/
def rootOf (n : Nat) : Nat := 2 ^ 39 + n * tableBytes

/-- A leaf entry of a page with F = 0. -/
def leafEntry (pa perm : Nat) : Nat := pa + 16 * perm + 2

/-- An entry written at a level of the device's tables for a virtual address; tables on the way are made where there are
none, each aligned to its own size (R100). -/
def mapFrom (s : State) (va lvl entry : Nat) : List (Nat × Nat × Nat) → Nat → State
  | [], _ => s
  | (l, sh, bits) :: rest, tbl =>
      let at_ := tbl + 8 * (va / 2 ^ sh % 2 ^ bits)
      if l = lvl then putEntry s at_ (w64 entry)
      else
        let e := tableWord s at_
        if e % 4 = 1 then mapFrom s va lvl entry rest (e / 256 % 2 ^ 48 * 256)
        else
          let size : Nat := match rest with
            | [] => 8
            | (_, _, b) :: _ => 8 * 2 ^ b
          let t := (s.vd.tables + size - 1) / size * size
          let s := putEntry { s with vd := { s.vd with tables := t + size } } at_ (w64 (t + 1))
          mapFrom s va lvl entry rest t

/-- A page of the device in focus mapped at a level: 3 is 64 GiB, 2 is 1 GiB, 0 is 64 KiB. -/
def mapPage (s : State) (va pa lvl perm : Nat) : State := mapFrom s va lvl (leafEntry pa perm) levels s.vd.root

/-- A range of whole 64 KiB pages mapped. -/
def mapRange (s : State) (va pa len perm : Nat) : State :=
  (List.range ((len + 65535) / 65536)).foldl (fun s k => mapPage s (va + 65536 * k) (pa + 65536 * k) 0 perm) s

/-- Main memory mapped from virtual address 0, with R and W: 64 GiB leaves where both addresses allow, 1 GiB leaves for the
rest (R351). -/
def mapMain (s : State) (pa gib : Nat) : State :=
  let big (k : Nat) : Bool := decide (k / 64 * 64 + 64 ≤ gib) && (pa + k / 64 * 64 * 2 ^ 30) % 2 ^ 36 == 0
  (List.range gib).foldl (fun s k =>
    if big k then if k % 64 = 0 then mapPage s (k * 2 ^ 30) (pa + k * 2 ^ 30) 3 3 else s
    else mapPage s (k * 2 ^ 30) (pa + k * 2 ^ 30) 2 3) s

/-! ### Physical memory -/

/-- A place for a range of local physical memory. -/
def roomFor (s : State) (n al : Nat) : Option Nat := firstFit s.used n al Config.memBytes

/-- The range is taken, and its spans wait to be cleared (R104, R351). -/
def takeRange (s : State) (pa n : Nat) : State :=
  { s with used := (pa, pa + n) :: s.used, marked := (pa / 32768, (pa + n + 32767) / 32768) :: s.marked }

/-! ### Code objects (R19, R45, R191, R201, R229, R388) -/

/-- The word encodes a barrier instruction. -/
def isBarrierWord (w : Dword) : Bool :=
  match decodeWord Budget.full 3 w.toNat with
  | .ok i => isBarrier i
  | .error _ => false

/-- One entry of a `.preempt` table is well formed. -/
def preemptOk (words : List Dword) (shared : Nat) (e : PreemptEntry) : Bool :=
  let fits (o n : Nat) : Bool := o % 256 == 0 && n % 256 == 0 && decide (o + n ≤ (shared + 255) / 256 * 256)
  e.rsvZero && e.site % 8 == 0 && (words[e.site / 8]?).any isBarrierWord && fits e.shoff0 e.shlen0 && fits e.shoff1 e.shlen1

/-- Numbers rise strictly. -/
def rising : List Nat → Bool
  | a :: b :: t => decide (a < b) && rising (b :: t)
  | _ => true

def roleOk (r : RoleDecl) : Bool :=
  decide (1 ≤ r.groups) && decide (r.groups ≤ 64) && decide (16 ≤ r.vregs) && decide (r.vregs ≤ 512) && r.vregs % 16 == 0
    && decide (8 ≤ r.sregs) && decide (r.sregs ≤ 192) && r.sregs % 8 == 0

def queueOk (k : KernelDecl) (q : QueueDecl) : Bool :=
  decide (2 ≤ q.depth) && decide (q.depth ≤ 256) && q.src != q.dst && decide (q.src < k.roles.length)
    && decide (q.dst < k.roles.length) && decide (4 ≤ q.entry) && decide (q.entry ≤ 64) && q.entry % 4 == 0

/-- The queues of a kernel stand after its shared ranges, each at the next multiple of 16 (R229); the end of the last. -/
def queuesEnd : Nat → List QueueDecl → Option Nat
  | off, [] => some off
  | off, q :: rest =>
      let base := (off + 15) / 16 * 16
      if q.base = base then queuesEnd (base + q.depth * q.entry + 16) rest else none

/-- An instruction that uses the matrix arrays or the accumulator stores (R173). -/
def isArrayInstr : Instr → Bool
  | .mma _ => true
  | .mmaG _ => true
  | .mzero _ => true
  | .mrd _ _ _ => true
  | .mstore _ _ _ _ _ => true
  | .cpym _ _ => true
  | _ => false

/-- The declaration with what its code says of the arrays (R173). -/
def markArrays (words : List Dword) (k : KernelDecl) : KernelDecl :=
  { k with usesArrays := ((words.drop (k.codeAt / 8)).take (k.codeLen / 8)).any fun w =>
      match decodeWord Budget.full (opClass (w.toNat / 2 ^ 56)) w.toNat with
      | .ok i => isArrayInstr i
      | .error _ => false }

def markObject (obj : CodeObj) : CodeObj := { obj with kernels := obj.kernels.map (markArrays obj.words) }

/-- A kernel passes the checks of R388 for a device with this sump limit, and those of R229 on `.params`, sump and local that
R388 does not list (notes/assumptions/110.md). A kernel that declares no `.width` stands in its object with width 32
(notes/assumptions/11.md). -/
def kernelOk (limit : Nat) (words : List Dword) (k : KernelDecl) : Bool :=
  let n := k.roles.foldl (fun a r => a + r.groups) 0
  let loads : Bool := (List.range 4).all fun sub =>
    decide ((freshWants k sub).1 ≤ Config.groupSlots) && decide ((freshWants k sub).2 ≤ Config.regBytes)
  k.width == 32 && decide (1 ≤ k.cores) && decide (k.cores ≤ 6) && decide (1 ≤ k.roles.length)
    && decide (k.roles.length ≤ 4) && k.roles.all roleOk && decide (n ≤ 64) && decide (k.cores * n ≤ 384) && loads
    && decide (k.shared ≤ k.cores * Config.sharedBytes) && decide (k.queues.length ≤ 8) && k.queues.all (queueOk k)
    && (queuesEnd k.ranges k.queues).any (fun n => decide (n ≤ k.shared))
    && decide (k.params ≤ 4096) && k.params % 4 == 0 && decide (k.params + k.data.length ≤ 65536)
    && decide (16 ≤ k.sump) && k.sump % 16 == 0 && decide (k.sump ≤ limit) && decide (k.local_ ≤ k.sump) && k.local_ % 16 == 0
    && k.preempt.all (preemptOk words k.shared) && rising (k.preempt.map (·.site))

/-- Virtual address of the next code version. -/
def nextCodeVa (d : Device) : Nat := d.codes.foldl (fun a c => max a (c.va + c.size)) codeBase

/-- A checked object becomes the current version of the kernels with these numbers (R47): its words are written and its
pages mapped with X and R (R204). None where physical memory has no room. -/
def addCode (s : State) (obj : CodeObj) (numbers : List Nat) : Option State :=
  let size : Nat := max 65536 ((8 * obj.words.length + 65535) / 65536 * 65536)
  (roomFor s size 65536).map fun pa =>
    let va := nextCodeVa s.vd
    let c : Code :=
      { serial := s.vd.codes.length + 1, kernels := numbers.zip obj.kernels, va := va, pa := pa, size := size }
    let s := takeRange s pa size
    let s := meter (putRun s pa ((obj.words.map fun w => leBytes 8 w.toNat).flatten)) 4 (8 * obj.words.length)
    let s := mapRange s va pa size 5
    { s with vd := { s.vd with codes := c :: s.vd.codes } }

/-- `PROFILE_RETRANSLATION` (R46, R47): the next launch of the kernel runs the new version. -/
def execProfileRetranslation (n kernel : Nat) (obj : CodeObj) (s : State) : Out :=
  maySome ((deviceOnly s n).bind fun s =>
    let obj := markObject obj
    match obj.kernels, kernelOf s.vd kernel with
    | [k], some old =>
        if kernelOk s.vd.sumpLimit obj.words k && k.params == old.2.params then addCode s obj [kernel] else none
    | _, _ => none)

/-! ### Module failure and thermal limits (R440, R442) -/

/-- Every device is destroyed; commands receive status 10 until reset. -/
def failModule (s : State) : State :=
  let s := (allDevices s).foldl (fun s d => loseDevice s d.number) s
  { s with failed := true }

/-- `DIE_LINK_FAILURE` (R392, R440): the eight replays are counted by one of the dies. -/
def execDieLinkFailure (s : State) : Out :=
  .next (failModule (countDie s (Config.freeNat s.draw 0 % 4) fun d => { d with linkr := satAdd d.linkr 8 0xffff }))

/-- `COLD_PLATE_FAULT` (R442). -/
def execColdPlateFault (s : State) : Out := .next (failModule s)

/-- 110 and 100 degrees, in eighths. -/
def tripTemp : Nat := 880
def stopTemp : Nat := 800

/-- One hour, over which firmware counts the corrections of a lane, and the number at which it withdraws the core (R402). -/
def hour : Nat := ms 3600000
def fixLimit : Nat := 16

/-- The corrections that firmware still counts of a lane, named by 64 × sub-core + lane (R402). -/
def recentFixes (c : Core) (now k : Nat) : List Nat := (mget [] c.fixes k).filter fun t => decide (now ≤ t + hour)

/-- Corrections of a core's register storage, each by sub-core and lane: counted by the die and, for each lane, by firmware
(R392, R402). -/
def noteFixes (s : State) (n : Nat) (fixes : List (Nat × Nat)) : State :=
  let fixes := fixes.filter fun x => decide (x.1 < 4) && decide (x.2 < 32)
  let s := countDie s (n / 128) fun d => { d with sramc := satAdd d.sramc fixes.length 0xffff }
  onCore s n fun c => fixes.foldl (fun c x =>
    { c with fixes := mset [] c.fixes (64 * x.1 + x.2) (recentFixes c s.now (64 * x.1 + x.2) ++ [s.now]) }) c

/-- `TEMPERATURE_READING` (R188, R402, R442): at 100 °C the teams of the core are pre-empted at once, at 110 °C the module
trips. -/
def execTemperatureReading (n : Nat) (x : Reading) (s : State) : Out :=
  if isCore n then
    let s := noteFixes (readTemp s n x.temp) n x.fixes
    .next (if x.temp.toNat ≥ tripTemp then failModule s
      else if x.temp.toNat ≥ stopTemp then (teamsOn s n).foldl (fun s t => requestStop s t.ref s.now true) s
      else s)
  else .fault .noSuchPlace

/-! ### Withdrawn cores (R64, R187, R402, R439) -/

/-- LSTEER of a sub-core. -/
def lsteerAt (c : Core) (sub : Nat) : Word := mget 0 c.lsteer sub

/-- Queued grids of the device that can no longer be placed end as faulted with 0x506 (R187). -/
def dropMisfits (s : State) (n : Nat) : State :=
  match deviceOnly s n with
  | none => s
  | some s =>
      let bad := s.vd.grids.filter fun g =>
        decide (g.next < g.total) && !((codeOf s.vd g).any fun c => canEverFit s s.vd c.2)
      if bad = [] then s
      else settleQueue (settleGrids { s with vd := bad.foldl (fun d g => faultGrid d g.serial 0x506) s.vd })

/-- A lane of a sub-core fails: its registers have had an uncorrectable error, or 16 corrections within one hour (R402). -/
def laneFails (c : Core) (now k : Nat) : Bool := c.broken.contains k || decide (fixLimit ≤ (recentFixes c now k).length)

/-- Firmware has yet to withdraw the core of a sub-core for a lane. -/
def withdrawalDue (s : State) (core sub lane : Nat) : Bool :=
  let c := coreAt s core
  let noted := mget? c.failing sub
  laneFails c s.now (64 * sub + lane) && noted != some lane && noted != some 64

/-- `CORE_WITHDRAWAL` (R402, R439): the core accepts no team; the host is told when it belongs to a partition and was not
withdrawn before. -/
def execCoreWithdrawal (core sub lane : Nat) (s : State) : Out :=
  if isCore core && decide (sub < 4) && decide (lane < 32) then
    if withdrawalDue s core sub lane then
      let old := (coreAt s core).withdrawn
      let s := onCore s core fun c =>
        { c with withdrawn := true, failing := mins c.failing sub (if (mget? c.failing sub).isSome then 64 else lane) }
      match s.partitions.find? fun p => !old && p.cores.contains core with
      | none => .next s
      | some p =>
          let s := moduleEvent s 1 core
          .next ((devicesOf s p).foldl (fun s d => dropMisfits s d.number) s)
    else cannot
  else .fault .noSuchPlace

/-- `LANE_STEERING` (R64, R402): once the core holds no group, the spare lane takes the failing lane's place, and a core
with no other failing lane returns. The spare slice is written with zero, and what told against the lane is past. -/
def execLaneSteering (core sub lane : Nat) (s : State) : Out :=
  let c := coreAt s core
  may (isCore core && decide (lane < 32) && c.withdrawn && mget? c.failing sub == some lane
      && !(lsteerAt c sub).getLsbD 5 && (teamsOn s core).isEmpty)
    (onCore s core fun c =>
      let f := mdel c.failing sub
      { c with lsteer := mset 0 c.lsteer sub (w32 (32 + lane)), failing := f, withdrawn := !f.isEmpty
               fixes := mdel c.fixes (64 * sub + lane), broken := sdel c.broken (64 * sub + lane)
               spare := c.spare.filter fun e => e.1 / 512 != sub })

/-! ### Samples and meters (R353, R361) -/

/-- Slot `i` of the group in focus waits at a barrier whose phase is not complete. -/
def slotAtBarrier (s : State) (i : SlotId) : Bool :=
  let p := s.g.slot i
  p.live && (match p.wait with
    | .barrier _ _ => !proceeds { s with slot := i }
    | _ => false)

/-- Slot `i` of the group in focus waits on a flag, a handle or a queue: its clause is not ready, or it waits at a queue.
A wait of another kind that is over leaves the rest of the clause to become ready. -/
def slotStalls (s : State) (i : SlotId) : Bool :=
  let p := s.g.slot i
  let on := proceeds { s with slot := i }
  p.live && (match p.wait, p.stand with
    | .running, .issuing => false
    | .running, .paused => !clauseReady s i p
    | .running, _ => match arrive? s p with
        | .ok q => !clauseReady s i q
        | .error _ => false
    | .queue _ _, _ => !on || !clauseReady s i p
    | _, _ => on && !clauseReady s i p)

/-- Groups of a team with a slot that meets a test. -/
def groupsWith (s : State) (t : TRef) (p : State → SlotId → Bool) : Nat :=
  ((groupsOf s t).filter fun g => (focusGroup s g.ref).any fun s => p s .A || p s .B).length

/-- Groups of a team that wait on a flag, a handle or a queue. -/
def stalledGroups (s : State) (t : TRef) : Nat := groupsWith s t slotStalls

/-- Groups of a team that wait at a barrier. -/
def barrierGroups (s : State) (t : TRef) : Nat := groupsWith s t slotAtBarrier

/-- The number of the 2^20 cycles in which a team's lowest core stands. -/
def sampleNow (s : State) (t : Team) : Nat := cycleOf s (t.cores.headD 0) / 2 ^ 20

/-- A boundary of 2^20 cycles of the team's lowest core has passed of which nothing has been noted (R361). -/
def sampleDue (s : State) (t : Team) : Bool := t.resident && sampleNow s t != t.sampled

/-- Those boundaries. -/
def boundaries (s : State) (t : Team) : List Nat :=
  (List.range ((sampleNow s t + 2 ^ 44 - t.sampled) % 2 ^ 44)).map fun k => (t.sampled + 1 + k) % 2 ^ 44

/-- The record of the sample of a team at boundary `n`, with its issue clocks since the one before (R361). -/
def sampleRecord (s : State) (t : Team) (n clocks : Nat) : List Byte :=
  stampRecord t (t.cores.headD 0) 3 ((mget 0 t.phases 0).toNat % 2 ^ 16) (n * 2 ^ 20 % 2 ^ 32) clocks (barrierGroups s t.ref)
    (stalledGroups s t.ref)

/-- The samples of a team that the boundaries have brought, to be written; a halted team passes them without one. -/
def noteSample (s : State) (t : Team) : State :=
  let ns := boundaries s t
  let now := sampleNow s t
  if t.halted then onTeam s t.ref fun t => { t with sampled := now }
  else
    let rs := ns.map fun n => (n, sampleRecord s t n (if some n = ns.head? then t.clocks else 0))
    onTeam s t.ref fun t => { t with samples := t.samples ++ rs, sampled := now, clocks := 0 }

/-- The samples of every team (R361). -/
def noteSamples (s : State) : State := ((allTeams s).filter (sampleDue s)).foldl noteSample s

/-- `PERIODIC_SAMPLE` (R361): the lowest-numbered core of a resident team writes its sample of boundary `n`. -/
def execPeriodicSample (vd serial core n : Nat) (s : State) : Out :=
  maySome ((focusTeam s { vd := vd, serial := serial }).bind fun s =>
    match s.team.samples with
    | x :: rest =>
        if s.team.resident ∧ core = s.team.cores.headD 0 ∧ n = x.1 then some (writeStamp { s with team := { s.team with samples := rest } } x.2)
        else none
    | [] => none)

/-- `METER_TICK` (R353). -/
def execMeterTick (s : State) : Out :=
  let pay (d : Device) : Device := { d with meters := setAt d.meters 7 (natAt d.meters 7 + d.gib) }
  may (decide (s.now ≥ s.meterAt + ms 1))
    { s with vd := pay s.vd, devices := s.devices.map pay, meterAt := s.meterAt + ms 1 }

/-! ### Reset (R117, R188, R355, R442) -/

/-- The measurement after these stages (R355). -/
def measureOf (items : List (List Byte)) : List Byte :=
  items.foldl (fun m x => sha384 (m ++ sha384 x)) (List.replicate 48 0)

/-- The process words of the dies as the first readings give them (R362): open values. -/
def freshDies (draw : Nat) : SMap Die :=
  (List.range 4).foldl (fun m die =>
    mset Die.fresh m die { Die.fresh with
      vmin := BitVec.ofNat 16 (Config.freeNat draw (20 + die)), ring := BitVec.ofNat 16 (Config.freeNat draw (24 + die)) }) []

/-- `MODULE_RESET`: the machine as after reset, measured, with the first reading of every core, which can trip the module;
with `ok` false a signature has failed after `stages`, and the command port stays shut (R188, R442). -/
def execModuleReset (stages : List (List Byte)) (blob : List Byte) (ok : Bool) (temps : List (BitVec 12)) (s : State) : Out :=
  let items := if ok then stages ++ [blob] else stages
  let s' := { State.reset with
    measure := measureOf items, stageHashes := items.map sha384, portOpen := ok, dies := freshDies s.draw, draw := s.draw, agenda := s.agenda }
  let t := (List.range Config.cores).foldl (fun s k => readTemp s k (temps.getD k 0)) s'
  may (temps.length == Config.cores) (if temps.any fun x => decide (x.toNat ≥ tripTemp) then failModule t else t)

end Sys2Proof.Machine
end

