-- ==== Sys2Proof/Machine/Intake.lean ====
section
/-!
DEFINITION. Machine/Intake.lean: intake loads: their transforms, what they write and their commits (R77, R149, R181 to R183,
R347, R398).
-/
namespace Sys2Proof.Machine

/-! ### Tensor entries (R347) -/

/-- A little-endian field of a payload. -/
def byteField (p : List Byte) (off n : Nat) : Nat := leNat ((p.drop off).take n)

/-- The bytes of a field are zero. -/
def zeroField (p : List Byte) (off n : Nat) : Bool := ((p.drop off).take n).all (· == 0)

/-- A tensor entry of 64 bytes. -/
structure Tensor where
  bytes : List Byte
  deriving DecidableEq, Repr

def Tensor.field (t : Tensor) (off n : Nat) : Nat := byteField t.bytes off n
def Tensor.inLen (t : Tensor) : Nat := t.field 8 8
def Tensor.dst (t : Tensor) : Nat := t.field 16 8
def Tensor.outLen (t : Tensor) : Nat := t.field 24 8
def Tensor.kind (t : Tensor) : Nat := t.field 32 1
def Tensor.fmt (t : Tensor) : Nat := t.field 33 1
def Tensor.bf16In (t : Tensor) : Bool := t.field 34 1 == 1
def Tensor.ps (t : Tensor) : Nat := t.field 35 1
def Tensor.rows (t : Tensor) : Nat := t.field 36 4
def Tensor.cols (t : Tensor) : Nat := t.field 40 4
def Tensor.stride (t : Tensor) : Nat := t.field 44 4
def Tensor.slot (t : Tensor) : Nat := t.field 56 1

/-- Bytes that a transform of known size writes: PS planes of the stride, or the elements written densely. -/
def Tensor.written (t : Tensor) : Nat :=
  match t.kind with
  | 1 => t.ps * t.stride
  | 2 => if t.fmt = 5 then t.ps * t.stride else (t.rows * t.cols * fmtBits t.fmt + 7) / 8
  | _ => t.outLen

/-- Fields of an entry that has no rows, columns, planes or scales. -/
def Tensor.plain (t : Tensor) : Bool := zeroField t.bytes 33 23

/-- The entry keeps the layout of R347, for an extent. -/
def Tensor.ok (t : Tensor) (start len : Nat) : Bool :=
  let grid : Bool := t.cols % 32 == 0
  let planes : Bool := if t.fmt = 5 then decide (2 ≤ t.ps) && decide (t.ps ≤ 8) && decide ((t.rows * t.cols + 7) / 8 ≤ t.stride)
    else t.ps == 0 && t.stride == 0
  t.bytes.length == 64 && zeroField t.bytes 57 7 && decide (start ≤ t.dst) && decide (t.dst + max t.outLen t.written ≤ start + len)
    && (match t.kind with
      | 0 => t.plain && t.slot == 0
      | 1 => t.fmt == 5 && !t.bf16In && t.field 34 1 == 0 && grid && planes && zeroField t.bytes 48 8 && t.slot == 0
      | 2 => (t.fmt == 1 || t.fmt == 2 || t.fmt == 3 || t.fmt == 5) && decide (t.field 34 1 ≤ 1) && grid && planes && t.slot == 0
      | 3 => t.plain && decide (t.slot ≤ 15)
      | _ => false)

/-! ### Transforms (R77, R181) -/

/-- The planes of a BPI tensor, each padded with zeros to its stride (R77). -/
def bpiBytes (codes : List Nat) (ps stride : Nat) : List Byte :=
  ((List.range ps).map fun p => (List.range stride).map fun b =>
    BitVec.ofNat 8 ((List.range 8).foldl (fun x i => x + natAt codes (8 * b + i) / 2 ^ (7 - p) % 2 * 2 ^ i) 0)).flatten

/-- Elements of a format written densely. -/
def denseBytes (fmt : Nat) (codes : List Nat) : List Byte :=
  let w := fmtBits fmt
  leBytes ((codes.length * w + 7) / 8) (codes.foldr (fun c acc => c + 2 ^ w * acc) 0)

/-- The element that a quantise writes, and whether it saturated (R82, R181). -/
def quantise (fmt : Nat) (v : Fv) : Nat × Bool :=
  let sat : Bool := match v with
    | .inf _ => true
    | .nan _ => false
    | v => if fmt = 5 then (toInt .s8 false .rn v).2 == flagNV
           else ((fmtOf fmt).satNarrow false .rn v).2 &&& flagOF != 0
  (mstoreCode fmt v, sat)

/-- Element `n` of an input in FP32 or BF16, as FP32. -/
def inputWord (t : Tensor) (data : List Byte) (n : Nat) : Word :=
  if t.bf16In then w32 (byteField data (2 * n) 2 * 65536) else w32 (byteField data (4 * n) 4)

/-- The elements of a quantise. -/
def quantised (t : Tensor) (data rscale cscale : List Byte) : List (Nat × Bool) :=
  (List.range (t.rows * t.cols)).map fun n =>
    quantise t.fmt (mstoreValue (inputWord t data n) (rscale.getD (n / t.cols) 0).toNat
      (cscale.getD (n % t.cols / 32) 0).toNat)

/-- Codes written as the output format says. -/
def outBytes (t : Tensor) (codes : List Nat) : List Byte :=
  if t.fmt = 5 then bpiBytes codes t.ps t.stride else denseBytes t.fmt codes

/-! ### Writing -/

/-- Bytes that the intake writes at a virtual address of the device in focus, or the cause of the first that fails. -/
def intakeWrite (s : State) (va : Nat) (bs : List Byte) : State × Nat :=
  let q := jobPlaces s 0 va 2 bs.length
  (putVisible q.1 (q.2.1.zip bs), q.2.2.getD 0)

/-- A pre-encoded block stored at its slot when the current decoder makes BS bytes of it (R149); false where it does not. A
region that is being unbound takes it too (notes/assumptions/71.md). A poisoned page-table entry is repaired first (R403). -/
def storePre (s : State) (slot : Nat) (va : Nat) (enc : List Byte) : State × Bool :=
  let s := repairWalk levels.length va s
  match mget? s.vd.bindings slot, walk s s.vd va with
  | some sl, .leaf pa false _ true _ =>
      let r := (Run.start .idle sl.dec sl.bs enc).finish (8 * sl.bs + 65)
      let s := meter s 5 r.steps
      if va % sl.bs = 0 ∧ r.fin = .ended ∧ r.out.length = sl.bs ∧ enc.length ≤ sl.bs then
        let s := finishEncodes s pa (pa + sl.bs)
        let s := storeSlot s sl pa va enc (metaWord (crc8 enc) false sl.cur (enc.length / 8 - 1))
        ({ s with cache := mdel s.cache pa }, true)
      else (s, false)
  | _, _ => (s, false)

/-- The blocks of a pre-encoded input, in ascending destination order (R347). -/
def preBlocks : Nat → List Byte → List (List Byte)
  | 0, _ => []
  | n + 1, bs =>
      if bs.length < 8 then []
      else
        let len := 8 * (byteField bs 0 2 + 1)
        (bs.drop 8).take len :: preBlocks n (bs.drop (8 + len))

/-- The blocks stored one after the other; whether one was not written. -/
def storePreAll (s : State) (slot va bs : Nat) : List (List Byte) → State × Bool
  | [] => (s, false)
  | b :: t =>
      let r := storePre s slot va b
      let q := storePreAll r.1 slot (va + bs) bs t
      (q.1, q.2 || !r.2)

/-- What the input of a tensor writes: the state, the code of a cause, and whether an element saturated and a block was
not written. -/
def writeTensor (s : State) (t : Tensor) (data rscale cscale : List Byte) : State × Nat × Bool × Bool :=
  match t.kind with
  | 0 => let r := intakeWrite s t.dst (data.take t.outLen)
         (r.1, r.2, false, false)
  | 1 => let r := intakeWrite s t.dst (outBytes t ((data.take (t.rows * t.cols)).map (·.toNat)))
         (r.1, r.2, false, false)
  | 2 =>
      let es := quantised t data rscale cscale
      let r := intakeWrite s t.dst (outBytes t (es.map (·.1)))
      (r.1, r.2, es.any (·.2), false)
  | _ =>
      match mget? s.vd.bindings t.slot with
      | none => (s, 0, false, true)
      | some sl =>
          let r := storePreAll s t.slot t.dst sl.bs (preBlocks (t.outLen / sl.bs) data)
          (r.1, 0, false, r.2)

/-- The input has the length that the entry gives. -/
def Tensor.takes (t : Tensor) (data rscale cscale : List Byte) : Bool :=
  data.length == t.inLen && (t.kind != 2 || (rscale.length == t.rows && cscale.length == t.cols / 32))
    && (t.kind != 1 || decide (t.rows * t.cols ≤ data.length))
    && (t.kind != 2 || decide ((if t.bf16In then 2 else 4) * (t.rows * t.cols) ≤ data.length))

/-! ### Steps -/

/-- An intake load with its device in focus. -/
def focusLoad (s : State) (h : HRef) : Option (State × Load) :=
  (deviceOnly s h.vd).bind fun s => (s.vd.loads.find? fun l => l.handle = hrefWord h).map fun l => (s, l)

def putLoad (s : State) (l : Load) : State :=
  { s with vd := { s.vd with loads := s.vd.loads.map fun x => if x.handle = l.handle then l else x } }

/-- The reads that the intake engine issues for a load (R347, R352): each tensor's input, and its scale vectors. -/
def readsOf (s : State) (l : Load) : List RdmaRead :=
  match s.conns.find? fun c => c.number == l.conn with
  | none => []
  | some c =>
      let one (i addr len : Nat) : RdmaRead :=
        { tensor := i, qpn := c.qpn, remoteQpn := byteField c.payload 12 3, key := l.key, addr := addr, len := len }
      ((List.range l.tensors.length).map fun i =>
        let t : Tensor := ⟨l.tensors.getD i []⟩
        one i (t.field 0 8) t.inLen :: if t.kind = 2 then [one i (t.field 48 8) (t.rows + t.cols / 32)] else []).flatten

/-- `INTAKE_PACKET` (R149, R181, R352): what was read for one tensor has arrived and is transformed and written. -/
def execIntakePacket (h : HRef) (tensor : Nat) (data rscale cscale : List Byte) (s : State) : Out :=
  maySome ((focusLoad s h).bind fun (s, l) =>
    match l.tensors[tensor]? with
    | none => none
    | some bs =>
        let t : Tensor := ⟨bs⟩
        if !(l.reads.any fun r => r.tensor == tensor) || !t.takes data rscale cscale then none
        else
          let r := writeTensor s t data rscale cscale
          if r.2.1 ≠ 0 then some (resolveLoad r.1 l (statusWord 3 false false (l.sb || r.2.2.2) (l.qs || r.2.2.1) r.2.1))
          else some (putLoad r.1 { l with
            reads := l.reads.filter fun r => r.tensor != tensor, done := sadd l.done tensor
            qs := l.qs || r.2.2.1, sb := l.sb || r.2.2.2 }))

/-- Replaced generations that a grid of the device still pins. -/
def keepPinned (d : Device) (ws : List (Nat × Weights)) : List (Nat × Weights) :=
  ws.filter fun w => d.grids.any fun g => g.pins.contains (w.1, w.2.gen)

/-- `INTAKE_COMMIT` (R183): the load's extent becomes the current generation of its set, and its handle resolves. -/
def execIntakeCommit (h : HRef) (s : State) : Out :=
  maySome ((focusLoad s h).bind fun (s, l) =>
    if (List.range l.tensors.length).all l.done.contains then
      let old := mget? s.vd.weights l.set
      let w : Weights := { gen := (((old.map (·.gen)).getD 0) + 1) % 2 ^ 32, start := l.start, len := l.len }
      let d := { s.vd with
        weights := mins s.vd.weights l.set w
        oldWeights := keepPinned s.vd (((old.map fun o => (l.set, o)).toList) ++ s.vd.oldWeights) }
      some (resolveLoad { s with vd := d } l (statusWord 1 false false l.sb l.qs 0))
    else none)

/-! ### Refusal (R182) -/

/-- Every page of a range is mapped with W. -/
def mappedW (s : State) (lo len : Nat) : Bool :=
  (rangePages lo len).all fun p => match translate s p.1 2 with
    | .ok _ => true
    | .error _ => false

/-- Two ranges of bytes meet. -/
def rangesMeet (a n b m : Nat) : Bool := decide (a < b + m) && decide (b < a + n)

/-- A load is refused before anything is written. -/
def loadRefused (s : State) (l : Load) : Bool :=
  let inUse := s.vd.weights.map (fun w => (w.2.start, w.2.len)) ++ (keepPinned s.vd s.vd.oldWeights).map fun w => (w.2.start, w.2.len)
  let total := l.tensors.foldl (fun a t => a + (Tensor.mk t).outLen) 0
  decide (l.start + l.len > s.vd.gib * 2 ^ 30) || !mappedW s l.start l.len
    || inUse.any (fun r => rangesMeet l.start l.len r.1 r.2) || decide (total > l.len)
    || l.tensors.any fun b =>
      let t : Tensor := ⟨b⟩
      t.kind == 3 && !((mget? s.vd.bindings t.slot).any fun sl =>
        decide (sl.base ≤ t.dst) && decide (t.dst + t.outLen ≤ sl.base + sl.len))

end Sys2Proof.Machine
end

