-- ==== Sys2Proof/Machine/HostCmd.lean ====
section
/-!
DEFINITION. Machine/HostCmd.lean: the commands of the host and their responses (R197, R199, R341 to R356, R434, R438, R441,
R443).
-/
namespace Sys2Proof.Machine

/-! ### Messages (R342 to R344, R434) -/

/-- A command can reach the module: its port is open and some port of the fabric is up (R440, R442). -/
def hears (s : State) : Bool := s.portOpen && linkUp s

/-- The reserved bits of a header are zero and PLEN is the payload's length. -/
def headerClean (m : CmdHdr) (p : List Byte) : Bool :=
  m.rsvHi == 0 && m.rsvLo == 0 && m.plen.toNat == p.length && decide (p.length ≤ 1048576)

/-- A response: its status and, where that is 0, its result. -/
def respond (s : State) (m : CmdHdr) (cmd : Nat) (vd status : Nat) (result : List Byte) : State :=
  send s m.tag (if cmd ≥ 0x80 then 0xff else BitVec.ofNat 8 (0x80 + cmd)) vd
    (leBytes 4 status ++ leBytes 4 0 ++ (if status = 0 then result else []))

/-- A response about the device in focus, whose bytes cross the fabric for it (R344, R353). -/
def answer (s : State) (m : CmdHdr) (cmd status : Nat) (result : List Byte) : State :=
  respond (meter s 6 (24 + (if status = 0 then result.length else 0))) m cmd s.vd.number status result

/-- A refusal with a status. -/
def refuse (s : State) (m : CmdHdr) (cmd status : Nat) : Out := .next (respond s m cmd m.vd.toNat status [])

/-- A command for a device: refused when the port's module has failed, when the device is gone or does not exist, and when
its message is malformed; otherwise performed with the device in focus, which has received the message's bytes (R353). -/
def forDevice (m : CmdHdr) (cmd : Nat) (p : List Byte) (shape : Bool) (s : State) (f : State → Out) : Out :=
  if !hears s then cannot
  else if s.failed then refuse s m cmd 10
  else
    match deviceOnly s m.vd.toNat with
    | none => refuse s m cmd (if s.gone.contains m.vd.toNat then 10 else 2)
    | some t =>
        let t := meter t 6 (16 + p.length)
        if headerClean m p && shape then f t else .next (answer t m cmd 3 [])

/-- `NON_HOST_MESSAGE` (R341): discarded, without a response. -/
def execNonHostMessage (_endpoint : Nat) (_cmd : Byte) (s : State) : Out := .next s

/-- `UNKNOWN_COMMAND` (R343, R344): its bytes and those of its response count for the device that it names, where there is one
(R353). -/
def execUnknownCommand (m : CmdHdr) (cmd : Byte) (s : State) : Out :=
  let st : Nat := if s.failed then 10 else 1
  if !hears s || (decide (1 ≤ cmd.toNat) && decide (cmd.toNat ≤ 9)) then cannot
  else match deviceOnly s m.vd.toNat with
    | some t => .next (answer (meter t 6 (16 + m.plen.toNat)) m cmd.toNat st [])
    | none => refuse s m cmd.toNat st

/-! ### Admission (R197, R199, R438) -/

/-- A reserved share in units of 2^-16, rounded up (R199). -/
def utilisation (t q cores : Nat) : Nat :=
  let n := t * cores
  if n = 0 then 0 else (q * 65536 + n - 1) / n

/-- T and Q of a device as they will be (R438). -/
def futureShare (d : Device) : Nat × Nat :=
  match d.newShare with
  | some (_, _, t, q) => (t, q)
  | none => (d.t, d.q)

/-- The shares of a reservation partition stay within 0.95 with one more. -/
def sharesFit (others : List Device) (cores t q : Nat) : Bool :=
  decide (others.foldl (fun a d => a + utilisation (futureShare d).1 (futureShare d).2 cores) (utilisation t q cores) ≤ 62259)

/-- Weight and cap within their ranges (R198). -/
def capOk (w cap : Nat) : Bool := decide (1 ≤ w) && decide (w ≤ 255) && decide (1 ≤ cap) && decide (cap ≤ 100)

/-- A period within its range (R199). -/
def periodOk (t : Nat) : Bool := decide (100 ≤ t) && decide (t ≤ 1000000)

/-! ### CREATE_DEVICE (R350, R351) -/

/-- A create payload. -/
structure Create where
  bytes : List Byte
  deriving DecidableEq, Repr

def Create.field (c : Create) (off n : Nat) : Nat := byteField c.bytes off n
def Create.fresh (c : Create) : Bool := c.field 0 2 == 0xffff
def Create.w (c : Create) : Nat := c.field 4 1
def Create.cap (c : Create) : Nat := c.field 5 1
def Create.t (c : Create) : Nat := c.field 8 4
def Create.q (c : Create) : Nat := c.field 12 4
def Create.gib (c : Create) : Nat := c.field 16 4
def Create.sc (c : Create) : List Nat := (List.range 4).map fun d => c.field (20 + d) 1
def Create.sump (c : Create) : Nat := if c.field 24 4 = 0 then 4096 else c.field 24 4
def Create.bitmap (c : Create) : Nat := c.field 64 64
def Create.coreList (c : Create) : List Nat := (List.range Config.cores).filter fun n => c.bitmap.testBit n

/-- The partition that the device joins or forms. The first accounting window of a partition begins as it is formed
(R198; notes/assumptions/89.md). -/
def Create.part (s : State) (c : Create) : Option Partition :=
  if c.fresh then
    ((List.range 65535).find? fun n => s.partitions.all fun p => p.number != n).map fun n =>
      { number := n, sched := if c.field 2 1 = 1 then .reservation else .allowance, cores := c.coreList
        windowStart := s.now, boundaries := 0 }
  else partitionOf s (c.field 0 2)

/-- Reserved bytes are zero and every field is in range (R350). -/
def Create.formed (s : State) (c : Create) : Bool :=
  c.bytes.length == 128 && c.field 3 1 == 0 && c.field 6 2 == 0 && zeroField c.bytes 28 36
    && (if c.fresh then decide (c.field 2 1 ≤ 1) && c.bitmap != 0 else c.bitmap == 0)
    && decide (1 ≤ c.gib) && c.sc.all (fun n => decide (n ≤ Config.scratchUnits))
    && decide (4096 ≤ c.sump) && decide (c.sump ≤ 1048576) && c.sump % 16 == 0
    && (match Create.part s c with
      | none => false
      | some p => match p.sched with
        | .allowance => c.t == 0 && c.q == 0
        | .reservation => c.w == 0 && c.cap == 0 && periodOk c.t)

/-- The admission test (R438). -/
def Create.admitted (s : State) (c : Create) (p : Partition) : Bool :=
  let others := devicesOf s p
  (!c.fresh || p.cores.all fun n => !(coreAt s n).withdrawn && s.partitions.all fun q => !q.cores.contains n)
    && (match p.sched with
      | .allowance => capOk c.w c.cap && decide (others.length < 4)
      | .reservation => decide (c.q ≤ c.t * p.cores.length) && sharesFit others p.cores.length c.t c.q)

/-- The lowest free number. -/
def freeNumber (s : State) : Option Nat := (List.range 64).find? fun n => (allDevices s).all fun d => d.number != n

/-- Scratchpad units are free on every die. -/
def scratchFree (s : State) (want : List Nat) : Bool :=
  (List.range 4).all fun k =>
    decide ((allDevices s).foldl (fun a d => a + natAt d.scUnits k) (natAt want k) ≤ Config.scratchUnits)

/-- Main memory, metadata area and context region allocated (R142, R180, R351). -/
structure Places where
  mem : Nat
  md : Nat
  ctx : Nat
  deriving DecidableEq, Repr

def ctxBytes (cores sump : Nat) : Nat := (ctxParts cores sump).foldl (· + ·) 0

/-- Places for a device's memory; main memory of 64 GiB or more on a 64 GiB boundary where one is free. -/
def findPlaces (s : State) (gib cores sump : Nat) : Option Places := do
  let n := gib * 2 ^ 30
  let mem ← (if gib ≥ 64 then roomFor s n (2 ^ 36) else none).orElse fun _ => roomFor s n (2 ^ 30)
  let s := { s with used := (mem, mem + n) :: s.used }
  let md ← roomFor s (gib * 2 ^ 25) 65536
  let s := { s with used := (md, md + gib * 2 ^ 25) :: s.used }
  let ctx ← roomFor s (ctxBytes cores sump) 65536
  some { mem := mem, md := md, ctx := ctx }

/-- A device as it starts (R199, R353, R358, R371, R419). The first period of one with a reservation begins as it is created
(notes/assumptions/106.md). -/
def newDevice (s : State) (c : Create) (p : Partition) (n : Nat) (at_ : Places) : Device :=
  { Device.idle with
    number := n, alive := true, partition := p.number, w := c.w, cap := c.cap, t := c.t, q := c.q
    budget := us c.q, deadline := s.now + us c.t, idleSince := some s.now, gib := c.gib, memPa := at_.mem, metaPa := at_.md
    ctxPa := at_.ctx, ctxLen := ctxBytes p.cores.length c.sump, root := rootOf n, tables := rootOf n + 32768
    pcores := p.cores.length, scUnits := c.sc, sumpLimit := c.sump }

/-- Firmware's spare sumps of device `n` are cleared: nothing of an earlier device of that number is left in them (R104). -/
def clearSpare (s : State) (n : Nat) : State :=
  let out (x : Nat) : Bool := decide (x < spareSumps n) || decide (spareSumps (n + 1) ≤ x)
  { s with mem := s.mem.filter fun c => out c.1, poison := s.poison.filter fun k => out (32 * k)
           lines := s.lines.filter fun (e : Nat × Bool) => out (256 * e.1) }

/-- Steps 2 to 7 of R351. -/
def buildDevice (s : State) (c : Create) (p : Partition) (n : Nat) (at_ : Places) : State :=
  let d := newDevice s c p n at_
  let s := takeRange (takeRange (takeRange (clearSpare s n) at_.mem (c.gib * 2 ^ 30)) at_.md (c.gib * 2 ^ 25)) at_.ctx d.ctxLen
  let s := { s with
    ptes := s.ptes.filter fun e => !(decide (d.root ≤ 8 * e.1) && decide (8 * e.1 < d.root + tableBytes))
    poison := s.poison.filter fun k => !(decide (d.root ≤ 32 * k) && decide (32 * k < d.root + tableBytes))
    partitions := if c.fresh then s.partitions ++ [p] else s.partitions
    gone := sdel s.gone n, vd := d }
  let s := mapMain s at_.mem c.gib
  let s := mapRange s stampVa (ctxPart d stampPart) 4259840 1
  let s := mapRange s logVa (ctxPart d logPart) 69632 1
  let s := mapRange s mailVa (ctxPart d mailPart) 65536 3
  mapRange s poolVa (ctxPart d poolPart) 0x1000000 1

/-- `CREATE_DEVICE` (R350, R351, R434). -/
def execCreateDevice (m : CmdHdr) (p : List Byte) (s : State) : Out :=
  let no (status : Nat) : Out := .next (respond s m 1 0 status [])
  let c : Create := ⟨p⟩
  if !hears s then cannot
  else if s.failed then no 10
  else if !headerClean m p || !Create.formed s c then no 3
  else
    match Create.part s c with
    | none => no 3
    | some q =>
        if !Create.admitted s c q then no 4
        else
          match freeNumber s, findPlaces s c.gib q.cores.length c.sump with
          | some n, some at_ =>
              if scratchFree s c.sc then
                .next (answer (buildDevice (stash s) c q n at_) m 1 0 (leBytes 4 n))
              else no 5
          | _, _ => no 5

/-! ### Usage records and attestation (R353, R354, R356, R441) -/

/-- The body of a usage record. -/
def usageBody (s : State) (nonce : List Byte) (final : Bool) : List Byte :=
  leBytes 8 (s.vd.usageSeq + 1) ++ s.vd.usageHash ++ nonce ++ leBytes 1 s.vd.number ++ leBytes 1 final.toNat ++ leBytes 6 0
    ++ ((List.range 8).map fun i => leBytes 8 (natAt s.vd.meters i)).flatten ++ s.measure ++ leBytes 16 0

/-- A body with both signatures: 384 bytes of RSA-3072 and 16,224 bytes of SLH-DSA (R354). -/
def signed (body : List Byte) : List Byte :=
  body ++ (List.range 384).map (Config.rsaSign body) ++ (List.range 16224).map (Config.slhSign body)

/-- The root of trust verifies what it has signed (R441); whether that fails is open. -/
def signatureGood (s : State) : Bool := Config.signOk s.draw

/-- The record has been sent: the next one chains to it. -/
def chainRecord (s : State) (body : List Byte) : State :=
  { s with vd := { s.vd with usageSeq := s.vd.usageSeq + 1, usageHash := sha384 body } }

/-- `READ_USAGE` (R354, R441). -/
def execReadUsage (m : CmdHdr) (p : List Byte) (s : State) : Out :=
  forDevice m 6 p (p.length == 32) s fun s =>
    let s := accrue s
    if signatureGood s then
      let body := usageBody s p false
      .next (answer (chainRecord s body) m 6 0 (signed body))
    else .next (answer s m 6 9 [])

/-- `ATTEST` (R356, R441). -/
def execAttest (m : CmdHdr) (p : List Byte) (s : State) : Out :=
  forDevice m 7 p (p.length == 32) s fun s =>
    if signatureGood s then
      .next (answer s m 7 0
        (signed (p ++ s.measure ++ s.stageHashes.flatten ++ Config.serialNumber) ++ Config.certChain))
    else .next (answer s m 7 9 [])

/-! ### DESTROY_DEVICE (R351, R441, R443) -/

/-- `DESTROY_DEVICE`: the device goes, and the response carries its final usage record. -/
def execDestroyDevice (m : CmdHdr) (p : List Byte) (s : State) : Out :=
  forDevice m 2 p (p == []) s fun s =>
    let s := accrue s
    let body := usageBody s (List.replicate 32 0) true
    let n := s.vd.number
    let t := dropDevice s n
    if signatureGood s then .next (respond t m 2 n 0 (signed body)) else .next (respond t m 2 n 9 [])

/-! ### LOAD_CODE (R346, R388) -/

/-- A segment keeps R346's layout. -/
def segmentFormed (p : List Byte) : Bool :=
  let total := byteField p 8 4
  decide (p.length ≥ 24) && p.length % 8 == 0 && decide (8 ≤ total) && decide (total ≤ 268435456) && total % 8 == 0
    && decide (byteField p 12 4 ≤ 1)

/-- The object with a segment added, where the segment continues it. -/
def addSegment (a : Option Assembly) (p : List Byte) : Option Assembly :=
  let off := byteField p 0 8
  let total := byteField p 8 4
  let seg := p.drop 16
  let last : Bool := byteField p 12 4 == 1
  let b := a.getD { total := total, next := 0, bytes := [] }
  let end_ := off + seg.length
  if segmentFormed p && b.total == total && b.next == off && decide (end_ ≤ total) && (!last || end_ == total) then
    some { total := total, next := end_, bytes := b.bytes ++ seg }
  else none

/-- The result of a loaded object: the count and the kernel numbers, padded. -/
def kernelNumbers (ns : List Nat) : List Byte :=
  let bs := leBytes 4 ns.length ++ (ns.map fun n => leBytes 2 n).flatten
  bs ++ List.replicate ((8 - bs.length % 8) % 8) 0

/-- The device in focus loads a whole object, where it passes R388 and there is room. -/
def loadObject (s : State) (obj : CodeObj) : Option (State × List Nat) :=
  let ns := (List.range obj.kernels.length).map fun i => s.vd.kernelSerial + i
  let obj := markObject obj
  if obj.kernels.all (kernelOk s.vd.sumpLimit obj.words) && decide (s.vd.kernelSerial + obj.kernels.length ≤ 65536) then
    (addCode s obj ns).map fun s => ({ s with vd := { s.vd with kernelSerial := s.vd.kernelSerial + obj.kernels.length } }, ns)
  else none

/-- `LOAD_CODE` (R346): a segment that does not fit discards the object in progress; the last one makes it current. -/
def execLoadCode (m : CmdHdr) (p : List Byte) (obj : CodeObj) (s : State) : Out :=
  forDevice m 3 p true s fun s =>
    let keep (s : State) (a : Option Assembly) : State := { s with vd := { s.vd with assembling := a } }
    match addSegment s.vd.assembling p with
    | none => .next (answer (keep s none) m 3 3 [])
    | some a =>
        if byteField p 12 4 = 1 then
          match loadObject (keep s none) obj with
          | some r => .next (answer r.1 m 3 0 (kernelNumbers r.2))
          | none => .next (answer (keep s none) m 3 7 [])
        else .next (answer (keep s (some a)) m 3 0 [])

/-! ### HOST_LAUNCH (R283, R343) -/

/-- The kernel of a host launch whose message keeps R283, R284 and R343. -/
def launchKernel (s : State) (p : List Byte) : Option (Ask × Code × KernelDecl) :=
  let d : LaunchDesc := ⟨leNat (p.take 64)⟩
  let a := d.ask (p.drop 64)
  (kernelOf s.vd a.kernel).bind fun k =>
    if d.clean && d.pva == 0 && a.sized && d.plen == k.2.params && p.length == 64 + k.2.params then some (a, k.1, k.2) else none

/-- `HOST_LAUNCH` (R183 to R187, R343). -/
def execHostLaunch (m : CmdHdr) (p : List Byte) (s : State) : Out :=
  forDevice m 4 p true s fun s =>
    let no (status : Nat) : Out := .next (answer s m 4 status [])
    match launchKernel s p with
    | none => no 3
    | some (a, c, k) =>
        if !canEverFit s s.vd k then no 11
        else if queued s.vd ≥ Config.gridQueue then no 6
        else
          match poolRoom s.vd.pool [areaBytes k] with
          | some [off] => .next (answer (queueGrid s a c k off (some m.tag) 0).1 m 4 0 [])
          | _ => no 6

/-! ### LOAD_WEIGHTS (R182, R347) -/

/-- The tensor entries of a payload. -/
def tensorsOf (p : List Byte) : List (List Byte) :=
  (List.range (byteField p 2 2)).map fun i => (p.drop (64 + 64 * i)).take 64

/-- The payload keeps R347's layout. -/
def weightsFormed (s : State) (p : List Byte) : Bool :=
  let m := byteField p 2 2
  let start := byteField p 8 8
  let len := byteField p 16 8
  decide (p.length ≥ 64) && p.length == 64 + 64 * m && decide (byteField p 0 1 ≤ 15) && decide (1 ≤ m) && decide (m ≤ 1024)
    && start % 256 == 0 && len % 256 == 0 && len != 0 && zeroField p 24 40
    && s.conns.any (fun c => c.number == byteField p 1 1 && c.vd == s.vd.number)
    && (tensorsOf p).all fun t => Tensor.ok ⟨t⟩ start len

/-- The load that a payload asks for. -/
def newLoad (m : CmdHdr) (p : List Byte) (h : Dword) : Load :=
  { handle := h, tag := m.tag, set := byteField p 0 1, conn := byteField p 1 1, key := w32 (byteField p 4 4), start := byteField p 8 8
    len := byteField p 16 8, tensors := tensorsOf p, reads := [], done := [], qs := false, sb := false, poisoned := false, cancel := false }

/-- `LOAD_WEIGHTS` (R182, R347, R352): a handle, which resolves at once when the load is refused; else the intake engine
issues the load's reads. -/
def execLoadWeights (m : CmdHdr) (p : List Byte) (s : State) : Out :=
  forDevice m 5 p true s fun s =>
    if !weightsFormed s p then .next (answer s m 5 3 [])
    else
      let (s, h) := newHandle s 0 3
      let l := newLoad m p h
      let l := { l with reads := if loadRefused s l then [] else readsOf s l }
      let s := answer { s with vd := { s.vd with loads := s.vd.loads ++ [l] } } m 5 0 (leBytes 8 h.toNat)
      .next (if loadRefused s l then resolveLoad s l (statusWord 3 false false false false 0x505) else s)

/-! ### OPEN_INTAKE_CONNECTION (R352) -/

/-- The payload keeps R352's layout, but for the port. -/
def connFormed (p : List Byte) : Bool :=
  let v := byteField p 1 1
  p.length == 80 && (v == 4 || v == 6) && decide (1 ≤ byteField p 2 1) && decide (byteField p 2 1 ≤ 3)
    && decide (byteField p 3 1 < 64) && byteField p 15 1 == 0 && byteField p 19 1 == 0 && byteField p 23 1 == 0
    && zeroField p 24 8 && zeroField p 64 16 && (v == 6 || (zeroField p 36 12 && zeroField p 52 12))

/-- The lowest free connection number of the module. -/
def freeConn (s : State) : Option Nat := (List.range 32).find? fun n => s.conns.all fun c => c.number != n

/-- A local queue pair number that no connection has; which one is open. -/
def freeQpn (s : State) : Nat :=
  let first := Config.freeNat s.draw 1
  (((List.range 33).map fun k => (first + k) % 2 ^ 24).find? fun q => s.conns.all fun c => c.qpn != q).getD 0

/-- `OPEN_INTAKE_CONNECTION` (R352). -/
def execOpenIntakeConnection (m : CmdHdr) (p : List Byte) (s : State) : Out :=
  forDevice m 8 p (connFormed p) s fun s =>
    let n := s.vd.number
    match freeConn s with
    | none => .next (answer s m 8 8 [])
    | some k =>
        if byteField p 0 1 > 1 then .next (answer s m 8 8 [])
        else
          .next (answer { s with conns := s.conns ++ [{ number := k, qpn := freeQpn s, vd := n, payload := p }] } m 8 0
            (leBytes 4 k ++ leBytes 4 (freeQpn s)))

/-! ### CHANGE_SHARE (R348, R438) -/

/-- `CHANGE_SHARE`: an accepted share takes effect at the next window or period. -/
def execChangeShare (m : CmdHdr) (p : List Byte) (s : State) : Out :=
  forDevice m 9 p (p.length == 16 && zeroField p 2 2 && zeroField p 12 4) s fun s =>
    let n := s.vd.number
    let w := byteField p 0 1
    let cap := byteField p 1 1
    let t := byteField p 4 4
    let q := byteField p 8 4
    let no (status : Nat) : Out := .next (answer s m 9 status [])
    let yes : Out := .next (answer { s with vd := { s.vd with newShare := some (w, cap, t, q) } } m 9 0 [])
    match partitionOf s s.vd.partition with
    | none => no 3
    | some part =>
        match part.sched with
        | .allowance => if t ≠ 0 ∨ q ≠ 0 then no 3 else if capOk w cap then yes else no 4
        | .reservation =>
            let others := (devicesOf s part).filter fun d => d.number != n
            if w ≠ 0 ∨ cap ≠ 0 then no 3
            else if periodOk t && decide (q ≤ t * s.vd.pcores) && sharesFit others s.vd.pcores t q then yes
            else no 4

end Sys2Proof.Machine
end

