-- ==== Sys2Proof/Machine/Dispatch.lean ====
section
/-!
DEFINITION. Machine/Dispatch.lean: the meaning of every step, one arm per constructor of Instr.
-/
namespace Sys2Proof.Machine

def exec (i : Instr) (s : State) : Host.Outcome State Fault Refusal :=
    match i with
      -- Scalar instructions (R249 to R251). `pr` is true for the 64-bit form, whose operands are pairs.
      | .nop => Sys2Proof.Machine.execNop s
      | .sAdd pr d a b => Sys2Proof.Machine.execSAdd pr d a b s
      | .sAddI d a imm => Sys2Proof.Machine.execSAddI d a imm s
      | .sSub pr d a b => Sys2Proof.Machine.execSSub pr d a b s
      | .sSubI d a imm => Sys2Proof.Machine.execSSubI d a imm s
      | .sMul pr d a b => Sys2Proof.Machine.execSMul pr d a b s
      | .sMulI d a imm => Sys2Proof.Machine.execSMulI d a imm s
      | .sMulh ty d a b => Sys2Proof.Machine.execSMulh ty d a b s
      | .sMulhI ts d a imm => Sys2Proof.Machine.execSMulhI ts d a imm s
      | .sMad d a b c => Sys2Proof.Machine.execSMad d a b c s
      | .sAnd pr d a b => Sys2Proof.Machine.execSAnd pr d a b s
      | .sAndI d a imm => Sys2Proof.Machine.execSAndI d a imm s
      | .sOr pr d a b => Sys2Proof.Machine.execSOr pr d a b s
      | .sOrI d a imm => Sys2Proof.Machine.execSOrI d a imm s
      | .sXor pr d a b => Sys2Proof.Machine.execSXor pr d a b s
      | .sXorI d a imm => Sys2Proof.Machine.execSXorI d a imm s
      | .sNot pr d a => Sys2Proof.Machine.execSNot pr d a s
      | .sShl pr d a b => Sys2Proof.Machine.execSShl pr d a b s
      | .sShlI d a imm => Sys2Proof.Machine.execSShlI d a imm s
      | .sShr pr d a b => Sys2Proof.Machine.execSShr pr d a b s
      | .sShrI d a imm => Sys2Proof.Machine.execSShrI d a imm s
      | .sSar pr d a b => Sys2Proof.Machine.execSSar pr d a b s
      | .sSarI d a imm => Sys2Proof.Machine.execSSarI d a imm s
      | .sMin ty d a b => Sys2Proof.Machine.execSMin ty d a b s
      | .sMinI ts d a imm => Sys2Proof.Machine.execSMinI ts d a imm s
      | .sMax ty d a b => Sys2Proof.Machine.execSMax ty d a b s
      | .sMaxI ts d a imm => Sys2Proof.Machine.execSMaxI ts d a imm s
      | .sCmp ty cc d a b => Sys2Proof.Machine.execSCmp ty cc d a b s
      | .sSel pr d a b c => Sys2Proof.Machine.execSSel pr d a b c s
      | .sMov pr d a => Sys2Proof.Machine.execSMov pr d a s
      | .sMovi ts d imm => Sys2Proof.Machine.execSMovi ts d imm s
      | .sBfe ty d a b => Sys2Proof.Machine.execSBfe ty d a b s
      | .sBfi d a b c => Sys2Proof.Machine.execSBfi d a b c s
      | .sPopc d a => Sys2Proof.Machine.execSPopc d a s
      | .sClz d a => Sys2Proof.Machine.execSClz d a s
      | .sLd spc w data base idx imm o => Sys2Proof.Machine.execSLd spc w data base idx imm o s
      | .sSt spc w data base idx imm o => Sys2Proof.Machine.execSSt spc w data base idx imm o s
      | .sAddc co d a b c => Sys2Proof.Machine.execSAddc co d a b c s
      | .sAddcI d a imm => Sys2Proof.Machine.execSAddcI d a imm s
      | .sFadd m d a b => Sys2Proof.Machine.execSFadd m d a b s
      | .sFaddI dyn d a imm => Sys2Proof.Machine.execSFaddI dyn d a imm s
      | .sFmul m d a b => Sys2Proof.Machine.execSFmul m d a b s
      | .sFmulI dyn d a imm => Sys2Proof.Machine.execSFmulI dyn d a imm s
      | .sFma m d a b c => Sys2Proof.Machine.execSFma m d a b c s
      | .sCvt ty m cv d a => Sys2Proof.Machine.execSCvt ty m cv d a s
      | .sGetl d a b => Sys2Proof.Machine.execSGetl d a b s
      -- Vector integer instructions (R237 to R248).
      | .add ty sat d a b => Sys2Proof.Machine.execAdd ty sat d a b s
      | .addI ts d a imm => Sys2Proof.Machine.execAddI ts d a imm s
      | .sub ty sat d a b => Sys2Proof.Machine.execSub ty sat d a b s
      | .subI ts d a imm => Sys2Proof.Machine.execSubI ts d a imm s
      | .mul ty d a b => Sys2Proof.Machine.execMul ty d a b s
      | .mulI ts d a imm => Sys2Proof.Machine.execMulI ts d a imm s
      | .mulh ty d a b => Sys2Proof.Machine.execMulh ty d a b s
      | .mulhI ts d a imm => Sys2Proof.Machine.execMulhI ts d a imm s
      | .mad ty d a b c => Sys2Proof.Machine.execMad ty d a b c s
      | .and ty d a b => Sys2Proof.Machine.execAnd ty d a b s
      | .andI ts d a imm => Sys2Proof.Machine.execAndI ts d a imm s
      | .or ty d a b => Sys2Proof.Machine.execOr ty d a b s
      | .orI ts d a imm => Sys2Proof.Machine.execOrI ts d a imm s
      | .xor ty d a b => Sys2Proof.Machine.execXor ty d a b s
      | .xorI ts d a imm => Sys2Proof.Machine.execXorI ts d a imm s
      | .not ty d a => Sys2Proof.Machine.execNot ty d a s
      | .shl ty d a b => Sys2Proof.Machine.execShl ty d a b s
      | .shlI ts d a imm => Sys2Proof.Machine.execShlI ts d a imm s
      | .shr ty d a b => Sys2Proof.Machine.execShr ty d a b s
      | .shrI ts d a imm => Sys2Proof.Machine.execShrI ts d a imm s
      | .sar ty d a b => Sys2Proof.Machine.execSar ty d a b s
      | .sarI ts d a imm => Sys2Proof.Machine.execSarI ts d a imm s
      | .min ty d a b => Sys2Proof.Machine.execMin ty d a b s
      | .minI ts d a imm => Sys2Proof.Machine.execMinI ts d a imm s
      | .max ty d a b => Sys2Proof.Machine.execMax ty d a b s
      | .maxI ts d a imm => Sys2Proof.Machine.execMaxI ts d a imm s
      | .abs ty d a => Sys2Proof.Machine.execAbs ty d a s
      | .bfe ty d a b => Sys2Proof.Machine.execBfe ty d a b s
      | .bfi d a b c => Sys2Proof.Machine.execBfi d a b c s
      | .popc d a => Sys2Proof.Machine.execPopc d a s
      | .clz d a => Sys2Proof.Machine.execClz d a s
      | .cmp ty cc d a b => Sys2Proof.Machine.execCmp ty cc d a b s
      | .sel ty d a b c => Sys2Proof.Machine.execSel ty d a b c s
      | .mov ty d a => Sys2Proof.Machine.execMov ty d a s
      | .movI ts d imm => Sys2Proof.Machine.execMovI ts d imm s
      | .movx a b => Sys2Proof.Machine.execMovx a b s
      | .putl d a b => Sys2Proof.Machine.execPutl d a b s
      | .shape d a => Sys2Proof.Machine.execShape d a s
      | .addc ty co d a b c => Sys2Proof.Machine.execAddc ty co d a b c s
      | .addcI ts d a imm => Sys2Proof.Machine.execAddcI ts d a imm s
      | .lsel hi lo d a b c => Sys2Proof.Machine.execLsel hi lo d a b c s
      | .prmt d a b c => Sys2Proof.Machine.execPrmt d a b c s
      -- Floating point (R252 to R261).
      | .fadd ty m d a b => Sys2Proof.Machine.execFadd ty m d a b s
      | .faddI dyn d a imm => Sys2Proof.Machine.execFaddI dyn d a imm s
      | .fsub ty m d a b => Sys2Proof.Machine.execFsub ty m d a b s
      | .fsubI dyn d a imm => Sys2Proof.Machine.execFsubI dyn d a imm s
      | .fmul ty m d a b => Sys2Proof.Machine.execFmul ty m d a b s
      | .fmulI dyn d a imm => Sys2Proof.Machine.execFmulI dyn d a imm s
      | .fma ty m d a b c => Sys2Proof.Machine.execFma ty m d a b c s
      | .fmin ty d a b => Sys2Proof.Machine.execFmin ty d a b s
      | .fminI dyn d a imm => Sys2Proof.Machine.execFminI dyn d a imm s
      | .fmax ty d a b => Sys2Proof.Machine.execFmax ty d a b s
      | .fmaxI dyn d a imm => Sys2Proof.Machine.execFmaxI dyn d a imm s
      | .fcmp ty cc d a b => Sys2Proof.Machine.execFcmp ty cc d a b s
      | .frcpSeed d a => Sys2Proof.Machine.execFrcpSeed d a s
      | .frsqSeed d a => Sys2Proof.Machine.execFrsqSeed d a s
      | .fsqrt m d a => Sys2Proof.Machine.execFsqrt m d a s
      | .fexp2 d a => Sys2Proof.Machine.execFexp2 d a s
      | .flog2 d a => Sys2Proof.Machine.execFlog2 d a s
      | .fsin d a => Sys2Proof.Machine.execFsin d a s
      | .fcos d a => Sys2Proof.Machine.execFcos d a s
      | .frnd ty m d a => Sys2Proof.Machine.execFrnd ty m d a s
      | .fclass d a => Sys2Proof.Machine.execFclass d a s
      | .fscale m d a b => Sys2Proof.Machine.execFscale m d a b s
      | .fexpo d a => Sys2Proof.Machine.execFexpo d a s
      | .cvt ty m cv d a b => Sys2Proof.Machine.execCvt ty m cv d a b s
      | .bpack d a => Sys2Proof.Machine.execBpack d a s
      | .bunpack n d a => Sys2Proof.Machine.execBunpack n d a s
      | .fdot2 m f16 d a b c => Sys2Proof.Machine.execFdot2 m f16 d a b c s
      -- Cross-lane instructions (R262 to R270).
      | .shfl md w wide d a b c => Sys2Proof.Machine.execShfl md w wide d a b c s
      | .vote md w d a c => Sys2Proof.Machine.execVote md w d a c s
      | .red op w ty d a c => Sys2Proof.Machine.execRed op w ty d a c s
      | .scan op excl w ty d a c => Sys2Proof.Machine.execScan op excl w ty d a c s
      | .matchOp w wide d a c => Sys2Proof.Machine.execMatchOp w wide d a c s
      | .sift home a n => Sys2Proof.Machine.execSift home a n s
      | .cmpct w d a b c => Sys2Proof.Machine.execCmpct w d a b c s
      -- Masks, branches, barriers, launch and queues (R271 to R284).
      | .execGet d => Sys2Proof.Machine.execExecGet d s
      | .execSet a => Sys2Proof.Machine.execExecSet a s
      | .execAnd a => Sys2Proof.Machine.execExecAnd a s
      | .execAndn a => Sys2Proof.Machine.execExecAndn a s
      | .mAnd d a b => Sys2Proof.Machine.execMAnd d a b s
      | .mOr d a b => Sys2Proof.Machine.execMOr d a b s
      | .mXor d a b => Sys2Proof.Machine.execMXor d a b s
      | .mNot d a => Sys2Proof.Machine.execMNot d a s
      | .mFfs d a => Sys2Proof.Machine.execMFfs d a s
      | .br off => Sys2Proof.Machine.execBr off s
      | .bz c off => Sys2Proof.Machine.execBz c off s
      | .bnz c off => Sys2Proof.Machine.execBnz c off s
      | .bexz c off => Sys2Proof.Machine.execBexz c off s
      | .brs c off => Sys2Proof.Machine.execBrs c off s
      | .brsSift c off => Sys2Proof.Machine.execBrsSift c off s
      | .join => Sys2Proof.Machine.execJoin s
      | .call l off => Sys2Proof.Machine.execCall l off s
      | .ret l => Sys2Proof.Machine.execRet l s
      | .exit => Sys2Proof.Machine.execExit s
      | .barArr n => Sys2Proof.Machine.execBarArr n s
      | .barWait n => Sys2Proof.Machine.execBarWait n s
      | .barSync n => Sys2Proof.Machine.execBarSync n s
      | .yield => Sys2Proof.Machine.execYield s
      | .launch d a => Sys2Proof.Machine.execLaunch d a s
      | .qPut q a => Sys2Proof.Machine.execQPut q a s
      | .qGet q d => Sys2Proof.Machine.execQGet q d s
      -- Memory family (R285 to R303).
      | .ld spc w data base idx imm o => Sys2Proof.Machine.execLd spc w data base idx imm o s
      | .st spc w data base idx imm o => Sys2Proof.Machine.execSt spc w data base idx imm o s
      | .atom spc wide op sgn data base idx k o => Sys2Proof.Machine.execAtom spc wide op sgn data base idx k o s
      | .atomCas spc wide data base idx k o => Sys2Proof.Machine.execAtomCas spc wide data base idx k o s
      | .fence k sc => Sys2Proof.Machine.execFence k sc s
      | .wb len base imm => Sys2Proof.Machine.execWb len base imm s
      | .inv len base imm => Sys2Proof.Machine.execInv len base imm s
      | .gaugeSet spc t base idx imm => Sys2Proof.Machine.execGaugeSet spc t base idx imm s
      | .gaugeSetOff spc base idx imm => Sys2Proof.Machine.execGaugeSetOff spc base idx imm s
      | .gaugeWait spc w base idx imm => Sys2Proof.Machine.execGaugeWait spc w base idx imm s
      | .gaugeAdd spc n base idx imm => Sys2Proof.Machine.execGaugeAdd spc n base idx imm s
      | .clJoin d k => Sys2Proof.Machine.execClJoin d k s
      | .clLeave => Sys2Proof.Machine.execClLeave s
      | .push a nm1 => Sys2Proof.Machine.execPush a nm1 s
      | .pop d nm1 => Sys2Proof.Machine.execPop d nm1 s
      | .pfetch base idx imm o => Sys2Proof.Machine.execPfetch base idx imm o s
      -- Engine, matrix and assay instructions (R304 to R314).
      | .cpy d a => Sys2Proof.Machine.execCpy d a s
      | .cpym d a => Sys2Proof.Machine.execCpym d a s
      | .fill d a => Sys2Proof.Machine.execFill d a s
      | .rowcpy d a => Sys2Proof.Machine.execRowcpy d a s
      | .htest d a => Sys2Proof.Machine.execHtest d a s
      | .hcancel a => Sys2Proof.Machine.execHcancel a s
      | .hst spc a b => Sys2Proof.Machine.execHst spc a b s
      | .hld spc d a => Sys2Proof.Machine.execHld spc d a s
      | .mma a => Sys2Proof.Machine.execMma a s
      | .mmaG a => Sys2Proof.Machine.execMmaG a s
      | .mzero t => Sys2Proof.Machine.execMzero t s
      | .mstore stamp t d a slot => Sys2Proof.Machine.execMstore stamp t d a slot s
      | .mrd t d a => Sys2Proof.Machine.execMrd t d a s
      | .assaySet a slot => Sys2Proof.Machine.execAssaySet a slot s
      | .assayGet d slot => Sys2Proof.Machine.execAssayGet d slot s
      | .assayInv slot => Sys2Proof.Machine.execAssayInv slot s
      -- System instructions (R315 to R327).
      | .trap n => Sys2Proof.Machine.execTrap n s
      | .rti => Sys2Proof.Machine.execRti s
      | .ctlRd d r => Sys2Proof.Machine.execCtlRd d r s
      | .ctlWr r a => Sys2Proof.Machine.execCtlWr r a s
      | .meterRd d n => Sys2Proof.Machine.execMeterRd d n s
      | .slBind d a => Sys2Proof.Machine.execSlBind d a s
      | .slUnbind d n => Sys2Proof.Machine.execSlUnbind d n s
      | .slStat d n => Sys2Proof.Machine.execSlStat d n s
      | .stamp a => Sys2Proof.Machine.execStamp a s
      | .stampSync a => Sys2Proof.Machine.execStampSync a s
      -- Debug instructions (R422 to R428).
      | .wpSet d n a b => Sys2Proof.Machine.execWpSet d n a b s
      | .wpClr d n b => Sys2Proof.Machine.execWpClr d n b s
      | .wpRd d n b => Sys2Proof.Machine.execWpRd d n b s
      | .dbgHalt b => Sys2Proof.Machine.execDbgHalt b s
      | .dbgRun b => Sys2Proof.Machine.execDbgRun b s
      | .dbgRunUnpark b => Sys2Proof.Machine.execDbgRunUnpark b s
      | .dbgStep b c => Sys2Proof.Machine.execDbgStep b c s
      | .dbgStepLane b c => Sys2Proof.Machine.execDbgStepLane b c s
      | .dbgRd d a b c => Sys2Proof.Machine.execDbgRd d a b c s
      | .dbgWr d a b c => Sys2Proof.Machine.execDbgWr d a b c s
      | .dbgList d a c => Sys2Proof.Machine.execDbgList d a c s
      | .brk => Sys2Proof.Machine.execBrk s
      -- Sluice instructions (R156): registers k0 to k15 are named by 4-bit fields.
      | .sluiceEnd => Sys2Proof.Machine.execSluiceEnd s
      | .sluiceFail => Sys2Proof.Machine.execSluiceFail s
      | .sluiceGet d => Sys2Proof.Machine.execSluiceGet d s
      | .sluicePeek d n => Sys2Proof.Machine.execSluicePeek d n s
      | .sluiceGetw d => Sys2Proof.Machine.execSluiceGetw d s
      | .sluicePut a => Sys2Proof.Machine.execSluicePut a s
      | .sluicePutw a => Sys2Proof.Machine.execSluicePutw a s
      | .sluicePutn a b => Sys2Proof.Machine.execSluicePutn a b s
      | .sluiceCopy b => Sys2Proof.Machine.execSluiceCopy b s
      | .sluiceCopyBack a b => Sys2Proof.Machine.execSluiceCopyBack a b s
      | .sluiceMovi d n => Sys2Proof.Machine.execSluiceMovi d n s
      | .sluiceMov d a => Sys2Proof.Machine.execSluiceMov d a s
      | .sluiceAdd d a b => Sys2Proof.Machine.execSluiceAdd d a b s
      | .sluiceAddImm d a imm => Sys2Proof.Machine.execSluiceAddImm d a imm s
      | .sluiceSub d a b => Sys2Proof.Machine.execSluiceSub d a b s
      | .sluiceSubImm d a imm => Sys2Proof.Machine.execSluiceSubImm d a imm s
      | .sluiceAnd d a b => Sys2Proof.Machine.execSluiceAnd d a b s
      | .sluiceAndImm d a imm => Sys2Proof.Machine.execSluiceAndImm d a imm s
      | .sluiceOr d a b => Sys2Proof.Machine.execSluiceOr d a b s
      | .sluiceOrImm d a imm => Sys2Proof.Machine.execSluiceOrImm d a imm s
      | .sluiceXor d a b => Sys2Proof.Machine.execSluiceXor d a b s
      | .sluiceXorImm d a imm => Sys2Proof.Machine.execSluiceXorImm d a imm s
      | .sluiceShl d a b => Sys2Proof.Machine.execSluiceShl d a b s
      | .sluiceShlImm d a imm => Sys2Proof.Machine.execSluiceShlImm d a imm s
      | .sluiceShr d a b => Sys2Proof.Machine.execSluiceShr d a b s
      | .sluiceShrImm d a imm => Sys2Proof.Machine.execSluiceShrImm d a imm s
      | .sluiceBeq a b o => Sys2Proof.Machine.execSluiceBeq a b o s
      | .sluiceBne a b o => Sys2Proof.Machine.execSluiceBne a b o s
      | .sluiceBlt a b o => Sys2Proof.Machine.execSluiceBlt a b o s
      | .sluiceBeof o => Sys2Proof.Machine.execSluiceBeof o s
      | .sluiceJmp o => Sys2Proof.Machine.execSluiceJmp o s
      | .sluiceLoop d o => Sys2Proof.Machine.execSluiceLoop d o s
      | .sluiceTbl d a => Sys2Proof.Machine.execSluiceTbl d a s
      | .sluiceStepBudget => Sys2Proof.Machine.execSluiceStepBudget s
      -- Steps of the groups and their issue ports.
      | .clauseIssue => Sys2Proof.Machine.execClauseIssue s
      | .clauseResume => Sys2Proof.Machine.execClauseResume s
      | .flagClear k => Sys2Proof.Machine.execFlagClear k s
      | .joinResume => Sys2Proof.Machine.execJoinResume s
      | .siftCommit => Sys2Proof.Machine.execSiftCommit s
      | .storeVisible => Sys2Proof.Machine.execStoreVisible s
      | .pageWalk vd w => Sys2Proof.Machine.execPageWalk vd w s
      | .trapEntry => Sys2Proof.Machine.execTrapEntry s
      | .supervisorEntry => Sys2Proof.Machine.execSupervisorEntry s
      -- Steps of storage, headframe, schedulers and hoist.
      | .teamLost t l => Sys2Proof.Machine.execTeamLost t l s
      | .teamPlacement vd => Sys2Proof.Machine.execTeamPlacement vd s
      | .teamEnd t => Sys2Proof.Machine.execTeamEnd t s
      | .placementStarvation vd => Sys2Proof.Machine.execPlacementStarvation vd s
      | .temperatureReading core temp => Sys2Proof.Machine.execTemperatureReading core temp s
      | .droopEvent core => Sys2Proof.Machine.execDroopEvent core s
      | .coldPlateFault => Sys2Proof.Machine.execColdPlateFault s
      | .accountingWindow part => Sys2Proof.Machine.execAccountingWindow part s
      | .millisecondBoundary part => Sys2Proof.Machine.execMillisecondBoundary part s
      | .capReached vd => Sys2Proof.Machine.execCapReached vd s
      | .periodStart vd => Sys2Proof.Machine.execPeriodStart vd s
      | .budgetExhausted vd => Sys2Proof.Machine.execBudgetExhausted vd s
      | .preemptionRequest t => Sys2Proof.Machine.execPreemptionRequest t s
      | .barrierStop t => Sys2Proof.Machine.execBarrierStop t s
      | .forcedStop t => Sys2Proof.Machine.execForcedStop t s
      | .teamSave t => Sys2Proof.Machine.execTeamSave t s
      | .teamRestore t => Sys2Proof.Machine.execTeamRestore t s
      -- Steps of the copy engines, the matrix sequencers and the stamp buffer.
      | .jobStart j => Sys2Proof.Machine.execJobStart j s
      | .jobFinish h => Sys2Proof.Machine.execJobFinish h s
      | .jobCancelStop h bytes => Sys2Proof.Machine.execJobCancelStop h bytes s
      | .gaugeArrival h n => Sys2Proof.Machine.execGaugeArrival h n s
      | .followOnSend h => Sys2Proof.Machine.execFollowOnSend h s
      | .passStart t core k => Sys2Proof.Machine.execPassStart t core k s
      | .passStep t core k => Sys2Proof.Machine.execPassStep t core k s
      | .passRetire t core k => Sys2Proof.Machine.execPassRetire t core k s
      | .periodicSample vd serial core n => Sys2Proof.Machine.execPeriodicSample vd serial core n s
      -- Steps of the memory side.
      | .cacheFill vd l => Sys2Proof.Machine.execCacheFill vd l s
      | .cacheEviction vd l => Sys2Proof.Machine.execCacheEviction vd l s
      | .sluiceEncode vd pa => Sys2Proof.Machine.execSluiceEncode vd pa s
      | .sluiceDecode vd pa => Sys2Proof.Machine.execSluiceDecode vd pa s
      | .transcodeBlock vd slot => Sys2Proof.Machine.execTranscodeBlock vd slot s
      | .transcodeEnd vd slot => Sys2Proof.Machine.execTranscodeEnd vd slot s
      | .unbindBlock vd slot => Sys2Proof.Machine.execUnbindBlock vd slot s
      | .unbindEnd vd slot => Sys2Proof.Machine.execUnbindEnd vd slot s
      | .refresh stack bank row => Sys2Proof.Machine.execRefresh stack bank row s
      | .refreshRetry stack bank => Sys2Proof.Machine.execRefreshRetry stack bank s
      | .scrubRow stack bank row corrected uncorrectable => Sys2Proof.Machine.execScrubRow stack bank row corrected uncorrectable s
      | .spanInitialise span => Sys2Proof.Machine.execSpanInitialise span s
      | .translationShootdown vd edits => Sys2Proof.Machine.execTranslationShootdown vd edits s
      | .peerAccess pa len op => Sys2Proof.Machine.execPeerAccess pa len op s
      | .peerUnreachable vd va how => Sys2Proof.Machine.execPeerUnreachable vd va how s
      | .flitReplay f => Sys2Proof.Machine.execFlitReplay f s
      | .portRetrain port => Sys2Proof.Machine.execPortRetrain port s
      | .dieLinkFailure => Sys2Proof.Machine.execDieLinkFailure s
      | .intakePacket h tensor data rscale cscale => Sys2Proof.Machine.execIntakePacket h tensor data rscale cscale s
      | .intakeCommit h => Sys2Proof.Machine.execIntakeCommit h s
      | .coreWithdrawal core sub lane => Sys2Proof.Machine.execCoreWithdrawal core sub lane s
      | .laneSteering core sub lane => Sys2Proof.Machine.execLaneSteering core sub lane s
      -- Steps of debugging, firmware, the root of trust and module reset.
      | .teamHalt t => Sys2Proof.Machine.execTeamHalt t s
      | .stepIdleTimeout t => Sys2Proof.Machine.execStepIdleTimeout t s
      | .profileRetranslation vd kernel obj => Sys2Proof.Machine.execProfileRetranslation vd kernel obj s
      | .meterTick => Sys2Proof.Machine.execMeterTick s
      | .moduleReset stages blob ok temps => Sys2Proof.Machine.execModuleReset stages blob ok temps s
      -- Host commands (R341 to R352).
      | .nonHostMessage endpoint cmd => Sys2Proof.Machine.execNonHostMessage endpoint cmd s
      | .createDevice m p => Sys2Proof.Machine.execCreateDevice m p s
      | .destroyDevice m p => Sys2Proof.Machine.execDestroyDevice m p s
      | .loadCode m p obj => Sys2Proof.Machine.execLoadCode m p obj s
      | .hostLaunch m p => Sys2Proof.Machine.execHostLaunch m p s
      | .loadWeights m p => Sys2Proof.Machine.execLoadWeights m p s
      | .readUsage m p => Sys2Proof.Machine.execReadUsage m p s
      | .attest m p => Sys2Proof.Machine.execAttest m p s
      | .openIntakeConnection m p => Sys2Proof.Machine.execOpenIntakeConnection m p s
      | .changeShare m p => Sys2Proof.Machine.execChangeShare m p s
      | .unknownCommand m cmd => Sys2Proof.Machine.execUnknownCommand m cmd s
      | .portRetrainingEnd port ok => Sys2Proof.Machine.execPortRetrainingEnd port ok s

end Sys2Proof.Machine
end

