-- ==== Sys2Proof/Machine/Run.lean ====
section
/-!
DEFINITION. Machine/Run.lean: which step the machine makes: the next move of its agenda, or, when the agenda is empty, some
step that its engines, ports, schedulers and clocks can make (R155, R191, R193, R198).
-/
namespace Sys2Proof.Machine

/-! ### Ages (R193, R196) -/

/-- A slot without an age. -/
def PcSlot.young (p : PcSlot) : Bool := p.live && p.ageless

/-- The age of slot `i` of the group in focus begins once it is ready. -/
def beginAge (s : State) (i : SlotId) : State :=
  let p := s.g.slot i
  if p.young && wantsPort { s with slot := i } then { s with g := s.g.setSlot i { p with since := s.now, ageless := false } } else s

/-- Ages begin for slots that have become ready since the yield hint or `yield` took them (R196, R279). -/
def refreshAges (s : State) : State :=
  ((allGroups s).filter fun g => g.a.young || g.b.young).foldl (fun s g =>
    withGroup s g.ref fun s => beginAge (beginAge s .A) .B) s

/-- Marked flags that cover nothing in flight. -/
def staleFlags (g : Group) : List Nat := (List.range 12).filter fun n => g.flags.getLsbD n && g.inflight.all fun f => f.flag != some n

/-- Flags of the group in focus clear whose clauses have left nothing to cover (R61). -/
def clearStale (s : State) : State :=
  (staleFlags s.g).foldl (fun s n => if stillCovers s (some n) then s else { s with g := clearFlagBit s.g (some n) }) s

/-- The same of every group. -/
def settleFlags (s : State) : State :=
  ((allGroups s).filter fun g => staleFlags g != []).foldl (fun s g => withGroup s g.ref clearStale) s

/-- What time alone has brought about before a move: flags clear, clauses become candidates, ages begin, passes become ready,
what waits to be asked of halted teams is made, and samples are taken. -/
def beforeMove (s : State) : State := noteSamples (resumeAsks (noteReady (refreshAges (noteWaits (settleFlags s)))))

/-! ### One move -/

/-- The team's issue clocks with one more (R361). -/
def countClock (s : State) : State := { s with team := { s.team with clocks := satAdd s.team.clocks 1 0xffffffff } }

/-- What follows the instruction that an issuing slot has executed. -/
def afterInstr : Out → Out
  | .next s => .next (closeIssue (if s.team.ref.serial = 0 then s else countClock s))
  | o => o

/-- The slot in focus issues its instruction, with `ex` as the meaning of instructions. -/
def issueWith (ex : Instr → State → Out) (s : State) : Out :=
  match planIssue s with
  | none => cannot
  | some (.done t) => .next t
  | some (.run i t) => afterInstr (ex i t)
  | some (.held i t h) => afterHeld t h (ex i t)

/-- The sluice engine makes the next step of the run in focus. -/
def sluiceMove (ex : Instr → State → Out) (s : State) : Out :=
  match s.run.next with
  | some i => if s.run.overBudget i then ex .sluiceStepBudget s else ex i s
  | none => cannot

/-- The device that a run serves, and its engine (R155). -/
def Run.owner (r : Run) : Nat := r.why.vd.getD 0
def Run.engine (r : Run) : Nat := (r.why.pa.map engineOf).getD 0

/-- The run is in progress at an engine. -/
def Run.worksAt (e : Nat) (r : Run) : Bool := r.fin == .running && r.engine == e

/-- The device whose run an engine steps next: the first in turn among those that have one there (R155). -/
def nextOwner (s : State) (e : Nat) : Option Nat :=
  let ns := ((s.run :: s.runs).filter (Run.worksAt e)).map Run.owner
  let due := ns.filter fun n => decide (mget 0 s.turns e ≤ n)
  (if due = [] then ns else due).foldl (fun b n => some ((b.map fun x => min x n).getD n)) none

/-- The run that an engine steps next in focus. -/
def focusRun (s : State) (e : Nat) : Option State :=
  (nextOwner s e).bind fun n =>
    let mine (r : Run) : Bool := r.worksAt e && r.owner == n
    let s := { s with turns := mset 0 s.turns e (n + 1) }
    if mine s.run then some s
    else (pick mine s.runs).map fun q => { s with run := q.1, runs := if s.run = .idle then q.2 else s.run :: q.2 }

/-- A sluice engine makes the next step of a run. -/
def engineMove (ex : Instr → State → Out) (e : Nat) (s : State) : Out :=
  match focusRun s e with
  | some t => sluiceMove ex t
  | none => cannot

/-- One move. -/
def runMove (ex : Instr → State → Out) (m : Move) (s : State) : Out :=
  match m with
  | .event i => ex i s
  | .groupEvent g i e =>
      match focusGroup s g with
      | some t => ex e { t with slot := i }
      | none => cannot
  | .issue g i =>
      match focusGroup s g with
      | some t => issueWith ex { t with slot := i }
      | none => cannot
  | .sluice e => engineMove ex e s

/-! ### Steps that the machine may make by itself -/

/-- A step that the machine may make without an input from outside it. Each is an arm of `exec`; a list of its own keeps
the choice apart from the inputs. -/
inductive Auto where
  | trapEntry (g : GRef)
  | supervisorEntry (g : GRef)
  | flagClear (g : GRef) (k : Nat)
  | storeVisible (g : GRef)
  | joinResume (g : GRef) (i : SlotId)
  | siftCommit (g : GRef) (i : SlotId)
  | clauseIssue (g : GRef) (i : SlotId)
  | clauseResume (g : GRef) (i : SlotId)
  | issue (g : GRef) (i : SlotId)
  | passStart (t : TRef) (core k : Nat)
  | passStep (t : TRef) (core k : Nat)
  | passRetire (t : TRef) (core k : Nat)
  | teamHalt (t : TRef)
  | barrierStop (t : TRef)
  | forcedStop (t : TRef)
  | teamSave (t : TRef)
  | teamRestore (t : TRef)
  | teamEnd (t : TRef)
  | stepIdleTimeout (t : TRef)
  | periodicSample (t : TRef) (core n : Nat)
  | coreWithdrawal (core sub lane : Nat)
  | laneSteering (core sub lane : Nat)
  | jobStart (h : HRef)
  | gaugeArrival (h : HRef) (bytes : Nat)
  | jobFinish (h : HRef)
  | jobCancelStop (h : HRef) (bytes : Nat)
  | followOnSend (h : HRef)
  | intakeCommit (h : HRef)
  | transcodeBlock (vd slot : Nat)
  | transcodeEnd (vd slot : Nat)
  | unbindBlock (vd slot : Nat)
  | unbindEnd (vd slot : Nat)
  | teamPlacement (vd : Nat)
  | placementStarvation (vd : Nat)
  | capReached (vd : Nat)
  | periodStart (vd : Nat)
  | budgetExhausted (vd : Nat)
  | accountingWindow (part : Nat)
  | millisecondBoundary (part : Nat)
  | sluice (engine : Nat)
  | sluiceEncode (vd pa : Nat)
  | spanInitialise (span : Nat)
  | meterTick
  deriving DecidableEq, Repr

/-- A step with a group and a slot in focus. -/
def onSlot (s : State) (g : GRef) (i : SlotId) (f : State → Out) : Out :=
  match focusGroup s g with
  | some t => f { t with slot := i }
  | none => cannot

/-- One such step. -/
def runAuto (ex : Instr → State → Out) (a : Auto) (s : State) : Out :=
  match a with
  | .trapEntry g => onSlot s g .A execTrapEntry
  | .supervisorEntry g => onSlot s g .A execSupervisorEntry
  | .flagClear g k => onSlot s g .A (execFlagClear k)
  | .storeVisible g => onSlot s g .A execStoreVisible
  | .joinResume g i => onSlot s g i execJoinResume
  | .siftCommit g i => onSlot s g i execSiftCommit
  | .clauseIssue g i => onSlot s g i execClauseIssue
  | .clauseResume g i => onSlot s g i execClauseResume
  | .issue g i => onSlot s g i (issueWith ex)
  | .passStart t c k => execPassStart t c k s
  | .passStep t c k => execPassStep t c k s
  | .passRetire t c k => execPassRetire t c k s
  | .teamHalt t => execTeamHalt t s
  | .barrierStop t => execBarrierStop t s
  | .forcedStop t => execForcedStop t s
  | .teamSave t => execTeamSave t s
  | .teamRestore t => execTeamRestore t s
  | .teamEnd t => execTeamEnd t s
  | .stepIdleTimeout t => execStepIdleTimeout t s
  | .periodicSample t core n => execPeriodicSample t.vd t.serial core n s
  | .coreWithdrawal core sub lane => execCoreWithdrawal core sub lane s
  | .laneSteering core sub lane => execLaneSteering core sub lane s
  | .jobStart h => execJobStart { h := h, bad := [] } s
  | .gaugeArrival h n => execGaugeArrival h (w32 n) s
  | .jobFinish h => execJobFinish h s
  | .jobCancelStop h n => execJobCancelStop h n s
  | .followOnSend h => execFollowOnSend h s
  | .intakeCommit h => execIntakeCommit h s
  | .transcodeBlock n b => execTranscodeBlock n b s
  | .transcodeEnd n b => execTranscodeEnd n b s
  | .unbindBlock n b => execUnbindBlock n b s
  | .unbindEnd n b => execUnbindEnd n b s
  | .teamPlacement n => execTeamPlacement n s
  | .placementStarvation n => execPlacementStarvation n s
  | .capReached n => execCapReached n s
  | .periodStart n => execPeriodStart n s
  | .budgetExhausted n => execBudgetExhausted n s
  | .accountingWindow n => execAccountingWindow n s
  | .millisecondBoundary n => execMillisecondBoundary n s
  | .sluice e => engineMove ex e s
  | .sluiceEncode n pa => execSluiceEncode n pa s
  | .spanInitialise n => execSpanInitialise n s
  | .meterTick => execMeterTick s

/-- The first of the steps that can be made, or else time passes. -/
def firstMove (ex : Instr → State → Out) (s : State) : List Auto → Out
  | [] => .next s
  | a :: t =>
      match runAuto ex a s with
      | .refused _ => firstMove ex s t
      | .next u => if u.stalled then firstMove ex s t else .next u
      | o => o

/-- Steps of one slot. -/
def slotMoves (g : Group) (i : SlotId) : List Auto :=
  let p := g.slot i
  let next : Auto := match p.stand with
    | .issuing => .issue g.ref i
    | .paused => .clauseResume g.ref i
    | _ => .clauseIssue g.ref i
  let again : List Auto := if g.stepping = some i then [next] else []
  if !p.live then []
  else match p.wait with
    | .join => .joinResume g.ref i :: again
    | .sift => .siftCommit g.ref i :: again
    | .branchSift => .siftCommit g.ref i :: again
    | _ => [next]

/-- Steps of one group: causes that wait, instructions in flight, stores, waits, and its slots' issue. -/
def groupMoves (g : Group) : List Auto :=
  (if g.entry.isSome then [.trapEntry g.ref, .supervisorEntry g.ref] else [])
    ++ (List.range g.inflight.length).map (fun k => .flagClear g.ref k)
    ++ (if g.stores = [] then [] else [.storeVisible g.ref])
    ++ slotMoves g .A ++ slotMoves g .B

/-- Steps of one team: its passes, stops, saves and its end. -/
def teamMoves (t : Team) : List Auto :=
  let passes := (t.passes.map fun e => ((List.range e.2.length).map fun k =>
    [Auto.passRetire t.ref e.1 k, .passStep t.ref e.1 k, .passStart t.ref e.1 k]).flatten).flatten
  passes ++ (if t.halting.isSome then [.teamHalt t.ref] else [])
    ++ (if t.request.isSome then [.barrierStop t.ref, .forcedStop t.ref] else [])
    ++ (if t.stop.isSome || t.halted then [.teamSave t.ref] else [])
    ++ (if t.stepSince.isSome then [.stepIdleTimeout t.ref] else [])
    ++ (t.samples.take 1).map (fun x => .periodicSample t.ref (t.cores.headD 0) x.1)
    ++ [.teamEnd t.ref, .teamRestore t.ref]

def hrefOf (h : Dword) : HRef := { vd := handleVd h, origin := handleOrigin h, kind := handleKind h, serial := handleSerial h }

/-- Steps of one device: its jobs, loads, background jobs and schedulers. -/
def deviceMoves (d : Device) : List Auto :=
  let n := d.number
  (d.jobs.map fun j =>
      let h := hrefOf j.handle
      [Auto.jobCancelStop h j.moved, .jobStart h, .followOnSend h, .jobFinish h]
        ++ (if j.sent && decide (j.counted < j.moved) then [.gaugeArrival h (min (j.moved - j.counted) 0xffffffff)] else [])).flatten
    ++ (d.loads.map fun l => Auto.intakeCommit (hrefOf l.handle))
    ++ (d.bindings.map fun b =>
      (if b.2.tc then [Auto.transcodeBlock n b.1, .transcodeEnd n b.1] else [])
        ++ (if b.2.unbinding then [.unbindBlock n b.1, .unbindEnd n b.1] else [])).flatten
    ++ [.capReached n, .periodStart n, .budgetExhausted n, .placementStarvation n, .teamPlacement n]

/-- What firmware may do about the lanes of a core (R402). -/
def coreMoves (n : Nat) (c : Core) : List Auto :=
  ((c.broken ++ c.fixes.map (·.1)).map fun k => Auto.coreWithdrawal n (k / 64) (k % 64))
    ++ c.failing.map fun e => .laneSteering n e.1 e.2

/-- Every step that the machine may be able to make by itself. -/
def allMoves (s : State) : List Auto :=
  ((allGroups s).map groupMoves).flatten
    ++ (((allTeams s).filter fun t => t.ref.serial != 0).map teamMoves).flatten
    ++ ((allDevices s).map deviceMoves).flatten
    ++ (s.cores.map fun e => coreMoves e.1 e.2).flatten
    ++ (((s.run :: s.runs).filter fun r => r.fin == .running).map Run.engine).eraseDups.map Auto.sluice
    ++ (s.encodes.map fun e => .sluiceEncode e.vd e.pa)
    ++ (s.partitions.map fun p => [Auto.accountingWindow p.number, .millisecondBoundary p.number]).flatten
    ++ (s.marked.map fun r => .spanInitialise r.1)
    ++ (if (allDevices s).isEmpty then [] else [.meterTick])

/-- The list begun at place `n`. -/
def rotate {α : Type} (n : Nat) (l : List α) : List α :=
  let k := n % l.length
  l.drop k ++ l.take k

/-- A step that the machine makes by itself: which of those that can be made is open. -/
def autoMove (ex : Instr → State → Out) (s : State) : Out :=
  match allMoves s with
  | [] => .next s
  | l => firstMove ex s (rotate (Config.freeNat s.draw 7) l)

/-- Time passes with a step. One that needs a port of the fabric while none is up cannot be made: it waits (R440). -/
def timed : Out → Out
  | .next s => if s.stalled then cannot else .next (tick s)
  | o => o

/-- The machine's step, with `ex` as the meaning of every move. -/
def runStep (ex : Instr → State → Out) (s : State) : Out :=
  match s.agenda with
  | m :: rest => timed (runMove ex m { beforeMove s with agenda := rest })
  | [] => timed (autoMove ex (beforeMove s))

end Sys2Proof.Machine
end

