-- ==== Sys2Proof/Machine/Fetch.lean ====
section
/-!
DEFINITION. Machine/Fetch.lean: a machine placed so that its next step runs one given instruction
(notes/assumptions/7.md): a team of one group in the middle of a clause, or a sluice engine's run.
-/
namespace Sys2Proof.Machine

/-! ### One group at one instruction (R19, R24, R204, R205) -/

/-- A header of a clause of one instruction, of a class, that waits for nothing and sets no flag (R205). -/
def fetchHeader (cls : Nat) : Nat := 0xca * 2 ^ 56 + cls % 8 * 2 ^ 49 + 15 * 2 ^ 33 + 15 * 2 ^ 29

/-- The kernel of the team: one group with the largest budgets and eight queues. -/
def fetchKernel : KernelDecl :=
  { noKernel with
    shared := 65536, roles := [{ groups := 1, vregs := 512, sregs := 192 }, { groups := 1, vregs := 16, sregs := 8 }]
    queues := (List.range 8).map fun q => { src := 0, dst := 1, depth := 2, entry := 4, base := 1024 * q }
    local_ := 2048, usesArrays := true }

def fetchTeamRef : TRef := { vd := 0, serial := 1 }

def fetchRef : GRef := { team := fetchTeamRef, gid := 0 }

/-- A device whose tables map one page of code, at PA 0, and its main memory. -/
def fetchDevice : Device :=
  { Device.idle with
    number := 0, alive := true, gib := 1, memPa := 2 ^ 30, metaPa := 2 ^ 31, ctxPa := 2 ^ 32, ctxLen := 2 ^ 26
    root := rootOf 0, tables := rootOf 0 + 32768, pcores := 1, sumpLimit := 4096 }

def fetchTeam : Team :=
  { Team.idle with
    ref := fetchTeamRef, kernel := fetchKernel, codeVa := codeBase, entryVa := codeBase, nx := 1, ny := 1, nz := 1
    cores := [0] }

/-- Slot A in the clause at `codeBase`, at its first instruction, holding a port. -/
def fetchSlot (head : Nat) : PcSlot :=
  { PcSlot.idle with
    pc := BitVec.ofNat 57 (codeBase + 8), mask := 0xffffffff, hdr := BitVec.ofNat 57 codeBase, head := w64 head
    stand := .issuing }

def fetchGroup (head : Nat) : Group :=
  { Group.idle with ref := fetchRef, a := fetchSlot head, exited := 0, returned := 0, sumpPa := sumpSlot fetchDevice 0 }

/-- The clause written at PA 0, and the code page and main memory mapped. -/
def fetchMem (s : State) (head w : Nat) : State :=
  let s := mapPage s codeBase 0 2 5
  let s := mapPage s 0 (2 ^ 30) 2 3
  putBytes s 0 (leBytes 8 head ++ leBytes 8 w)

/-- The state with the group, and its slot's issue as the next move. -/
def placeGroupWord (s : State) (w : Nat) : State :=
  let s := stash s
  let head := fetchHeader (opClass (w / 2 ^ 56 % 256))
  let s := { s with
    vd := fetchDevice, team := fetchTeam, g := fetchGroup head, slot := .A
    devices := s.devices.filter fun d => d.number != 0
    teams := s.teams.filter fun t => t.ref.vd != 0
    groups := s.groups.filter fun g => g.ref.team.vd != 0
    marked := [], poison := [], agenda := [.issue fetchRef .A] }
  fetchMem s head w

/-! ### One instruction of a sluice engine (R155) -/

/-- A run of the program whose first word is given and whose second is `end`, the only one at engine 0. -/
def placeSluiceWord (s : State) (w : Nat) : State :=
  { s with run := Run.start .idle ([w32 w, 0], List.replicate 256 0) 64 (List.replicate 64 0)
           runs := s.runs.filter fun r => !r.worksAt 0
           agenda := [.sluice 0] }

/-- The word stored where the next step fetches its instruction. -/
def placeWord (s : State) (nbits w : Nat) : State :=
  if nbits ≤ 32 then placeSluiceWord s w else placeGroupWord s w

end Sys2Proof.Machine
end

