-- ==== Sys2Proof/Machine/Step.lean ====
section
/-!
DEFINITION. Machine/Step.lean: the machine's step, and the placement of one instruction for it.
-/
namespace Sys2Proof.Machine

/-- One step: the next move of the agenda, or a step that the machine makes by itself (notes/assumptions/6.md). -/
def step (s : State) : Host.Outcome State Fault Refusal := runStep exec s

/-- The state whose next step runs the instruction with these bits (notes/assumptions/7.md). -/
def State.withFetchWord (s : State) (nbits w : Nat) : State := placeWord s nbits w

end Sys2Proof.Machine
end

