-- ==== Sys2Proof/Safety.lean ====
section
/-!
DEFINITION. Safety.lean: what counts as a safe run, and the terms in which claims say what one instruction does: the state
in which nothing else acts on the group, and the next state in which nothing but a named part has changed.
-/
namespace Sys2Proof.Machine

/-! ### Safe runs -/

/-- The outcome is no fault: a step goes on, or cannot be made in this state. -/
def Out.isSafe : Out → Bool
  | .fault _ => false
  | _ => true

/-- What every step keeps: main memory is in its canonical form, so that equal memories are equal data. -/
def State.Inv (s : State) : Prop := Memory.wf s.mem = true

/-! ### Nothing else acts on the group -/

/-- The group in focus has nothing in flight, and no canary watches it. -/
abbrev Quiet (s : State) : Prop := s.g.inflight = [] ∧ (coreAt s s.g.core).canaries = []

/-! ### Next states in which only a named part has changed -/

/-- The issuing slot at the instruction's next address (R209), the group otherwise as given, and everything outside the
group as before. -/
def advance (i : Instr) (s : State) (g : Group) : State :=
  { s with g := g.setSlot s.slot ((cur s).moveTo s.now (nextAddr i (cur s))) }

/-- A scalar register, or the pair that begins there, at a value. -/
def putSca (g : Group) (n : Nat) (pr : Bool) (x : Dword) : Group :=
  if pr then setSpair g n x else setSreg g n (x.setWidth 32)

/-- A vector register with the active lanes of the issuing slot at the values of `f` and the tag that the result's lowest
active lane gives; inactive lanes keep their values (R52, R63). -/
def putVec (s : State) (g : Group) (n : Nat) (tag : Word → Tag) (f : Nat → Word) : Group :=
  setVreg g n (execMask s) (tabulate f) (tag (f ((lowest (execMask s)).getD 0)))

/-- A vector register, or the pair that begins there, with lanes from `f`: each half is tagged on its own (R52). -/
def putVecTy (s : State) (n : Nat) (pr : Bool) (affine : Option Tag) (all : Bool) (f : Nat → Dword) : Group :=
  let g := putVec s s.g n (tagOfWrite s affine all) fun l => (f l).setWidth 32
  if pr then putVec s g (n + 1) (tagOfWrite s none all) fun l => (f l >>> 32).setWidth 32 else g

/-- The next state of a short instruction that only writes vector registers: its active lanes are counted (R321, R353). -/
def vecDone (i : Instr) (s : State) (g : Group) : State := countLanes (advance i s g) (popcount (execMask s))

/-- The issuing slot with another mask. -/
def withMask (s : State) (m : Word) : State := setCur s { cur s with mask := m }

/-- The instruction raises a cause at the issuing slot, in the state `st` that what it read before has left. -/
def FaultsIn (i : Instr) (s st : State) (r : Raise) : Prop :=
  exec i s = .next (raise st (causeHere st r (nextAddr i (cur st)) (trapDst i)))

/-- The instruction raises a cause at the issuing slot, with nothing of its effect. -/
abbrev Faults (i : Instr) (s : State) (r : Raise) : Prop := FaultsIn i s s r

/-! ### Sources that take one value (R53, R375) -/

/-- The operand gives no one value: `%lane`, `%tid`, a vector register with tag 0 or 2, or a pair with such a half. -/
def Shapeless (s : State) (pr : Bool) : Opnd → Prop
  | .lane | .tid => True
  | .v n => (readTag s n).code = 0 ∨ (readTag s n).code = 2
      ∨ (pr = true ∧ ((readTag s (n + 1)).code = 0 ∨ (readTag s (n + 1)).code = 2))
  | _ => False

/-- The instruction raises the operand-shape fault for its source in field `k`. -/
abbrev FaultsAt (i : Instr) (s : State) (k : Nat) : Prop := Faults i s (.plain 0x200 k)

/-- The first source without one value is the one whose field a fault names, in a form of one source, of two, of three or of
a source and a literal; `pa` and `pb` say which sources are pairs. -/
def ShapeFaults1 (mk : Opnd → Opnd → Instr) (pa : Bool) : Prop :=
  ∀ (s : State) (d a : Opnd), Shapeless s pa a → FaultsAt (mk d a) s 1

def ShapeFaults2 (mk : Opnd → Opnd → Opnd → Instr) (pa pb : Bool) : Prop :=
  ∀ (s : State) (d a b : Opnd), (Shapeless s pa a → FaultsAt (mk d a b) s 1)
    ∧ (¬ Shapeless s pa a → Shapeless s pb b → FaultsAt (mk d a b) s 2)

def ShapeFaults3 (mk : Opnd → Opnd → Opnd → Opnd → Instr) (pr : Bool) : Prop :=
  ∀ (s : State) (d a b c : Opnd), (Shapeless s pr a → FaultsAt (mk d a b c) s 1)
    ∧ (¬ Shapeless s pr a → Shapeless s pr b → FaultsAt (mk d a b c) s 2)
    ∧ (¬ Shapeless s pr a → ¬ Shapeless s pr b → Shapeless s false c → FaultsAt (mk d a b c) s 3)

def ShapeFaultsI (mk : Opnd → Opnd → Word → Instr) : Prop :=
  ∀ (s : State) (d a : Opnd) (imm : Word), Shapeless s false a → FaultsAt (mk d a imm) s 1

/-! ### Member masks of cross-lane instructions (R263) -/

/-- The member operand gives no mask, or one that names every active lane. -/
def Covers (s : State) (c : Opnd) : Option Word → Prop
  | none => c = .none
  | some m => c ≠ .none ∧ uni s 3 c = .ok m ∧ execMask s &&& ~~~m = 0

/-- A member operand without one value, or a mask that leaves out an active lane, raises its cause. -/
def MemberFaults (mk : Opnd → Instr) (s : State) : Prop :=
  ∀ c : Opnd, execMask s ≠ 0 → c ≠ .none → (Shapeless s false c → FaultsAt (mk c) s 3)
    ∧ ∀ m : Word, uni s 3 c = .ok m → execMask s &&& ~~~m ≠ 0 →
      Faults (mk c) s { Raise.plain 0x202 0 with mask := execMask s &&& ~~~m }

/-! ### Long-latency instructions (R61, R207) -/

/-- The group in focus belongs to the team in focus, which runs and has no debug step or halt ahead of it. -/
abbrev Settled (s : State) : Prop :=
  s.g.ref.team = s.team.ref ∧ s.team.ref.serial ≠ 0 ∧ s.g.active = true ∧ s.g.halted = false ∧ s.g.haltDue = none
    ∧ s.team.steps = []

/-- A quiet group of a running team, none of whose flags is marked. -/
abbrev Idle (s : State) : Prop := Quiet s ∧ Settled s ∧ s.g.flags = 0

/-- Between the issue of a long-latency instruction of a group with nothing in flight and its completion: its flag is
marked, its results are in flight, the slot stands at the next address, and `st` has changed in nothing else. -/
def InFlightOnly (i : Instr) (st t : State) : Prop :=
  ∃ f, t = advance i st { setFlagBit st.g (coverFlag st (cur st)) with inflight := [f] }

/-- The group once an instruction has completed that had nothing else in flight beside it: its flag is clear, or stays marked
while the slot, in the middle of its clause, has still to issue another instruction that the flag covers. -/
def flagsLeft (i : Instr) (st : State) (g : Group) : Group :=
  if stillCovers (advance i st st.g) (coverFlag st (cur st)) then setFlagBit g (coverFlag st (cur st)) else g

/-- A long-latency instruction issues, with `st` for what it does at once, and at FLAG_CLEAR leaves the group as `g`: the
registers, flags and FPS that it writes land then, and its active lanes are counted. -/
def Lands (i : Instr) (s st : State) (g : Group) : Prop :=
  ∃ t, exec i s = .next t ∧ InFlightOnly i st t
    ∧ exec (.flagClear 0) t = .next (countLanes (advance i st (flagsLeft i st g)) (if perLane i then popcount (execMask s) else 0))

/-! ### Shapes of results, each for every state of a quiet group and every operand -/

/-- A scalar result of one source, two, three, or a source and a literal; `pa`, `pb` and `pd` say which are pairs. -/
def ScaOut1 (mk : Opnd → Opnd → Instr) (pa pd : Bool) (f : Dword → Dword) : Prop :=
  ∀ (s : State) (n : Nat) (a : Opnd) (x : Dword), Quiet s → uniW s 1 pa a = .ok x →
    exec (mk (.s n) a) s = .next (advance (mk (.s n) a) s (putSca s.g n pd (f x)))

def ScaOut2 (mk : Opnd → Opnd → Opnd → Instr) (pa pb pd : Bool) (f : Dword → Dword → Dword) : Prop :=
  ∀ (s : State) (n : Nat) (a b : Opnd) (x y : Dword), Quiet s → uniW s 1 pa a = .ok x → uniW s 2 pb b = .ok y →
    exec (mk (.s n) a b) s = .next (advance (mk (.s n) a b) s (putSca s.g n pd (f x y)))

def ScaOut3 (mk : Opnd → Opnd → Opnd → Opnd → Instr) (pr : Bool) (f : Dword → Dword → Dword → Dword) : Prop :=
  ∀ (s : State) (n : Nat) (a b c : Opnd) (x y z : Dword), Quiet s → uniW s 1 pr a = .ok x → uniW s 2 pr b = .ok y →
    uniW s 3 false c = .ok z →
    exec (mk (.s n) a b c) s = .next (advance (mk (.s n) a b c) s (putSca s.g n pr (f x y z)))

def ScaOutI (mk : Opnd → Opnd → Word → Instr) (f : Dword → Dword → Dword) : Prop :=
  ∀ (s : State) (n : Nat) (a : Opnd) (imm : Word) (x : Dword), Quiet s → uniW s 1 false a = .ok x →
    exec (mk (.s n) a imm) s = .next (advance (mk (.s n) a imm) s (putSca s.g n false (f x (imm.setWidth 64))))

/-- The next state of a scalar result with floating-point flags, where no enabled flag is among them. -/
def ScaFpDone (i : Instr) (s : State) (n : Nat) (pd : Bool) (r : Dword × FpFlags) : Prop :=
  r.2 &&& trapEnables s.g = 0 → exec i s = .next (advance i s (addFps (putSca s.g n pd r.1) r.2))

/-- A vector result of one source of a type, two, three single registers, or a source and a literal; `aff` is the affine
row of R52. -/
def VecOut1 (mk : Opnd → Opnd → Instr) (ty : Ty) (f : Dword → Dword) : Prop :=
  ∀ (s : State) (n : Nat) (a : Opnd), Quiet s →
    exec (mk (.v n) a) s = .next (vecDone (mk (.v n) a) s
      (putVecTy s n (ty.regs == 2) none (allUniform s (ty.regs == 2) [a]) fun l => f (srcTy s ty a l)))

def VecOut2 (mk : Opnd → Opnd → Opnd → Instr) (ty : Ty) (aff : Tag → Tag → Option Tag) (f : Dword → Dword → Dword) : Prop :=
  ∀ (s : State) (n : Nat) (a b : Opnd), Quiet s →
    exec (mk (.v n) a b) s = .next (vecDone (mk (.v n) a b) s
      (putVecTy s n (ty.regs == 2) (if affineTy ty then aff (srcTag s a) (srcTag s b) else none)
        (allUniform s (ty.regs == 2) [a, b]) fun l => f (srcTy s ty a l) (srcTy s ty b l)))

def VecShift (mk : Opnd → Opnd → Opnd → Instr) (ty : Ty) (aff : Tag → Tag → Option Tag) (f : Dword → Nat → Dword) : Prop :=
  ∀ (s : State) (n : Nat) (a b : Opnd), Quiet s →
    exec (mk (.v n) a b) s = .next (vecDone (mk (.v n) a b) s
      (putVecTy s n (ty.regs == 2) (if affineTy ty then aff (srcTag s a) (srcTag s b) else none)
        (allUniform s (ty.regs == 2) [a] && allUniform s false [b]) fun l => f (srcTy s ty a l) (srcLane s b l).toNat))

def VecOut3 (mk : Opnd → Opnd → Opnd → Opnd → Instr) (f : Dword → Dword → Dword → Dword) : Prop :=
  ∀ (s : State) (n : Nat) (a b c : Opnd), Quiet s →
    exec (mk (.v n) a b c) s = .next (vecDone (mk (.v n) a b c) s
      (putVecTy s n false none (allUniform s false [a, b, c]) fun l =>
        f ((srcLane s a l).setWidth 64) ((srcLane s b l).setWidth 64) ((srcLane s c l).setWidth 64)))

def VecOutI (mk : Opnd → Opnd → Word → Instr) (aff : Tag → Tag → Option Tag) (f : Dword → Dword → Dword) : Prop :=
  ∀ (s : State) (n : Nat) (a : Opnd) (imm : Word), Quiet s →
    exec (mk (.v n) a imm) s = .next (vecDone (mk (.v n) a imm) s
      (putVecTy s n false (aff (srcTag s a) (.uniform imm)) (allUniform s false [a]) fun l =>
        f ((srcLane s a l).setWidth 64) (imm.setWidth 64)))

/-- The flags that the active lanes raise. -/
def activeFlags (s : State) (f : Nat → Dword × FpFlags) : List FpFlags :=
  lanes32.map fun l => if laneOn (execMask s) l then (f l).2 else 0

/-- The next state of a short vector result with flags, where no lane raises an enabled one. -/
def VecFpDone (i : Instr) (s : State) (n : Nat) (pd all : Bool) (f : Nat → Dword × FpFlags) : Prop :=
  Quiet s → fpTrap (trapEnables s.g) (activeFlags s f) 0 = none →
    exec i s = .next (vecDone i s (addFps (putVecTy s n pd none all fun l => (f l).1) (orFlags (activeFlags s f))))

/-- The same of a long-latency instruction, which lands at FLAG_CLEAR. -/
def VecFpLands (i : Instr) (s : State) (n : Nat) (all : Bool) (f : Nat → Word × FpFlags) : Prop :=
  Idle s → fpTrap (trapEnables s.g) (activeFlags s fun l => wide (f l)) 0 = none →
    Lands i s s (addFps (putVecTy s n false none all fun l => (f l).1.setWidth 64) (orFlags (activeFlags s fun l => wide (f l))))

end Sys2Proof.Machine
end

