-- ==== Sys2Proof/Certificates/Slice0/Obligations.lean ====
section
/-!
DEFINITION. Certificates/Slice0/Obligations.lean: the statements for the provers. Each docstring names the rules of spec/ that
the statement formalises, and the log entry of notes/assumptions/ where a clause is the model's own choice.
-/
open Sys2Proof Sys2Proof.Machine

/-! ### Values of the integer types -/

/-- R233: what a source contributes under an integer type of width w is its low w bits, signed for s8, s16, s32 and s64 and
unsigned for the others, a result is written modulo 2^w, zero-extended to the register or the pair, and a clamp limits a
value to the type's range. -/
def Obligations.IntegerValues : Prop :=
  (∀ x : Dword, intVal .s8 x = (x.setWidth 8).toInt ∧ intVal .s16 x = (x.setWidth 16).toInt
      ∧ intVal .s32 x = (x.setWidth 32).toInt ∧ intVal .s64 x = x.toInt)
    ∧ (∀ x : Dword, intVal .n8 x = (x.setWidth 8).toNat ∧ intVal .n16 x = (x.setWidth 16).toNat
      ∧ intVal .b32 x = (x.setWidth 32).toNat ∧ intVal .n32 x = (x.setWidth 32).toNat ∧ intVal .n64 x = x.toNat)
    ∧ (∀ z : Int, (intWrap .s8 z = (BitVec.ofInt 8 z).setWidth 64 ∧ intWrap .n8 z = (BitVec.ofInt 8 z).setWidth 64)
      ∧ (intWrap .s16 z = (BitVec.ofInt 16 z).setWidth 64 ∧ intWrap .n16 z = (BitVec.ofInt 16 z).setWidth 64)
      ∧ (intWrap .b32 z = (BitVec.ofInt 32 z).setWidth 64 ∧ intWrap .s32 z = (BitVec.ofInt 32 z).setWidth 64
        ∧ intWrap .n32 z = (BitVec.ofInt 32 z).setWidth 64)
      ∧ intWrap .s64 z = BitVec.ofInt 64 z ∧ intWrap .n64 z = BitVec.ofInt 64 z)
    ∧ ∀ z : Int, (intClamp .s8 z = max (-128) (min 127 z) ∧ intClamp .n8 z = max 0 (min 255 z))
      ∧ (intClamp .s16 z = max (-32768) (min 32767 z) ∧ intClamp .n16 z = max 0 (min 65535 z))
      ∧ (intClamp .s32 z = max (-2147483648) (min 2147483647 z) ∧ intClamp .n32 z = max 0 (min 4294967295 z)
        ∧ intClamp .b32 z = max 0 (min 4294967295 z))
      ∧ intClamp .s64 z = max (-2 ^ 63) (min (2 ^ 63 - 1) z) ∧ intClamp .n64 z = max 0 (min (2 ^ 64 - 1) z)

/-! ### Scalar integer instructions (R249, R250) -/

/-- R249 with R237 and R238: the scalar instructions of two sources write the result of the named vector entry to their
scalar register or pair; nothing else changes but the slot's address. R212, R249: the I forms take the literal as their
second source. R237, R239, R240, R249, R250: the other scalar integer instructions; `nop` (R211) changes nothing but the
slot's address. -/
def Obligations.ScalarIntegers : Prop :=
  ((∀ pr : Bool, let t := prTy pr
     ScaOut2 (.sAdd pr) pr pr pr (fun x y => intWrap t (intVal t x + intVal t y))
     ∧ ScaOut2 (.sSub pr) pr pr pr (fun x y => intWrap t (intVal t x - intVal t y))
     ∧ ScaOut2 (.sMul pr) pr pr pr (fun x y => intWrap t (intVal t x * intVal t y))
     ∧ ScaOut2 (.sAnd pr) pr pr pr (fun x y => x &&& y)
     ∧ ScaOut2 (.sOr pr) pr pr pr (fun x y => x ||| y)
     ∧ ScaOut2 (.sXor pr) pr pr pr (fun x y => x ^^^ y)
     ∧ ScaOut2 (.sShl pr) pr false pr (fun x y => aluShl t x y.toNat)
     ∧ ScaOut2 (.sShr pr) pr false pr (fun x y => aluShr t x y.toNat)
     ∧ ScaOut2 (.sSar pr) pr false pr (fun x y => aluSar t x y.toNat))
   ∧ (∀ ty : Ty, ScaOut2 (.sMulh ty) false false false (fun x y => intWrap ty (intVal ty x * intVal ty y / 2 ^ 32))
     ∧ ScaOut2 (.sMin ty) (ty.regs == 2) (ty.regs == 2) (ty.regs == 2) (fun x y => intWrap ty (min (intVal ty x) (intVal ty y)))
     ∧ ScaOut2 (.sMax ty) (ty.regs == 2) (ty.regs == 2) (ty.regs == 2) (fun x y => intWrap ty (max (intVal ty x) (intVal ty y)))
     ∧ ScaOut2 (.sBfe ty) false false false (aluBfe ty)))
  ∧ (ScaOutI .sAddI (fun x y => intWrap .b32 (intVal .b32 x + intVal .b32 y))
     ∧ ScaOutI .sSubI (fun x y => intWrap .b32 (intVal .b32 x - intVal .b32 y))
     ∧ ScaOutI .sMulI (fun x y => intWrap .b32 (intVal .b32 x * intVal .b32 y))
     ∧ ScaOutI .sAndI (fun x y => x &&& y) ∧ ScaOutI .sOrI (fun x y => x ||| y) ∧ ScaOutI .sXorI (fun x y => x ^^^ y)
     ∧ ScaOutI .sShlI (fun x y => aluShl .b32 x y.toNat) ∧ ScaOutI .sShrI (fun x y => aluShr .b32 x y.toNat)
     ∧ ScaOutI .sSarI (fun x y => aluSar .b32 x y.toNat)
     ∧ ScaOutI .sAddcI (fun x y => w64 ((x.toNat % 2 ^ 32 + y.toNat % 2 ^ 32) % 2 ^ 32))
     ∧ (∀ ts : Tsel, ScaOutI (.sMulhI ts) (fun x y => intWrap ts.ty (intVal ts.ty x * intVal ts.ty y / 2 ^ 32))
       ∧ ScaOutI (.sMinI ts) (fun x y => intWrap ts.ty (min (intVal ts.ty x) (intVal ts.ty y)))
       ∧ ScaOutI (.sMaxI ts) (fun x y => intWrap ts.ty (max (intVal ts.ty x) (intVal ts.ty y)))))
  ∧ ((∀ s : State, Quiet s → exec .nop s = .next (advance .nop s s.g))
     ∧ (∀ pr : Bool, ScaOut1 (.sMov pr) pr pr id ∧ ScaOut1 (.sNot pr) pr pr (fun x => intWrap (prTy pr) (~~~x).toNat)
       ∧ ScaOut3 (.sSel pr) pr (fun x y z => if z ≠ 0 then x else y))
     ∧ ScaOut1 .sPopc false false (fun x => w64 (popcount (x.setWidth 32)))
     ∧ ScaOut1 .sClz false false aluClz
     ∧ ScaOut3 .sMad false (fun x y z => intWrap .b32 (intVal .b32 x * intVal .b32 y + intVal .b32 z))
     ∧ ScaOut3 .sBfi false aluBfi ∧ (∀ co : Bool, ScaOut3 (.sAddc co) false (aluAddc co))
     ∧ (∀ (s : State) (ts : Tsel) (n : Nat) (imm : Word), Quiet s →
       exec (.sMovi ts (.s n) imm) s = .next (advance (.sMovi ts (.s n) imm) s (setSreg s.g n imm)))
     ∧ (∀ (s : State) (n : Nat) (a b : Opnd) (l : Word), Quiet s → uni s 2 b = .ok l →
       exec (.sGetl (.s n) a b) s = .next (advance (.sGetl (.s n) a b) s (setSreg s.g n (crossLane s a (l.toNat % 32))))))

/-- R249, R253, R258: the scalar comparison, arithmetic and conversion write their value and OR their flags into FPS, where
no flag is enabled in FPC.TE. R90, R234, R365: an addition that raises a flag enabled in FPC.TE still writes its result and
its flags, and traps with cause 0x002 of kind T, whose TRAPPC is the instruction and TRAPNEXT the address after it. -/
def Obligations.ScalarFloatingPoint : Prop :=
  (∀ (s : State) (n : Nat) (a b c : Opnd), Quiet s →
     (∀ (ty : Ty) (cc : Cond) (x y : Dword), uniW s 1 (ty.regs == 2) a = .ok x → uniW s 2 (ty.regs == 2) b = .ok y →
       ScaFpDone (.sCmp ty cc (.s n) a b) s n false
         (let r := cmpElems (ftz s.g) ty cc x y
          (if r.1 then 1 else 0, r.2.2)))
     ∧ (∀ (m : Rnd) (x y : Word), uni s 1 a = .ok x → uni s 2 b = .ok y →
       ScaFpDone (.sFadd m (.s n) a b) s n false (wide (fp2 (ftz s.g) .f32 (fun F => F.fadd (modeOf s.g m)) x y))
       ∧ ScaFpDone (.sFmul m (.s n) a b) s n false (wide (fp2 (ftz s.g) .f32 (fun F => F.fmul (modeOf s.g m)) x y))
       ∧ ∀ z : Word, uni s 3 c = .ok z →
         ScaFpDone (.sFma m (.s n) a b c) s n false (wide (fp3 (ftz s.g) .f32 (fun F => F.fma (modeOf s.g m)) x y z)))
     ∧ (∀ (dyn : Bool) (imm x : Word), uni s 1 a = .ok x →
       ScaFpDone (.sFaddI dyn (.s n) a imm) s n false (wide (fp2 (ftz s.g) .f32 (fun F => F.fadd (immMode s.g dyn)) x imm))
       ∧ ScaFpDone (.sFmulI dyn (.s n) a imm) s n false (wide (fp2 (ftz s.g) .f32 (fun F => F.fmul (immMode s.g dyn)) x imm)))
     ∧ (∀ (ty : Ty) (m : Rnd) (cv : CvtCode) (x : Dword), uniW s 1 (cvtSrcRegs ty cv == 2) a = .ok x →
       ScaFpDone (.sCvt ty m cv (.s n) a) s n (cvtDstRegs ty cv == 2) (cvtLane (ftz s.g) ty (modeOf s.g m) cv x none)))
  ∧ (∀ (s : State) (m : Rnd) (n : Nat) (a b : Opnd) (x y : Word), Quiet s → uni s 1 a = .ok x → uni s 2 b = .ok y →
       let i : Instr := .sFadd m (.s n) a b
       let r := fp2 (ftz s.g) .f32 (fun F => F.fadd (modeOf s.g m)) x y
       let done := advance i s (addFps (setSreg s.g n r.1) r.2)
       let raised := raise done
         { code := 0x002, kind := .trap, detail := BitVec.ofNat 8 r.2.toNat, slot := s.slot, pc := (cur s).pc
           next := nextAddr i (cur s), mask := 0, dst := trapDst i, addr := none, lanes := [] }
       r.2 &&& trapEnables s.g ≠ 0 →
         exec i s = .next (watchSince raised true raised.now s.slot
           (pcEvents i (cur s).pc (cur s).mask ++ flagEvents i (cur s).mask [] r.2) [1, 2]
           (trapCause s.slot (cur s).pc (nextAddr i (cur s)) (trapDst i) (.plain 0x003 0))))

/-- R53, R375: an operand that takes one value has none exactly where it is `%lane`, `%tid` or a vector register, or half of
a pair, with tag 0 or 2. A scalar instruction, a mask instruction, a branch or a return with such a source raises 0x200 with
the field of the first of them, and writes nothing. R263, R375: so does a cross-lane instruction for its member mask or its
selector, and one whose member mask leaves out an active lane raises 0x202 with the lanes that are missing. -/
def Obligations.OperandFaults : Prop :=
  (∀ (s : State) (k : Nat) (o : Opnd) (pr : Bool),
     (Shapeless s pr o → uniW s k pr o = .error (.plain 0x200 k)) ∧ (¬ Shapeless s pr o → ∃ x, uniW s k pr o = .ok x)
     ∧ (Shapeless s false o → uni s k o = .error (.plain 0x200 k))
     ∧ (¬ Shapeless s false o → uni s k o = .ok (match o with
       | .v n => (readTag s n).value
       | o => srcLane s o 0)))
  ∧ (∀ (pr : Bool) (ty : Ty) (cc : Cond) (m : Rnd) (cv : CvtCode) (co : Bool), let two := ty.regs == 2
     (ShapeFaults2 (.sAdd pr) pr pr ∧ ShapeFaults2 (.sSub pr) pr pr ∧ ShapeFaults2 (.sMul pr) pr pr ∧ ShapeFaults2 (.sAnd pr) pr pr
       ∧ ShapeFaults2 (.sOr pr) pr pr ∧ ShapeFaults2 (.sXor pr) pr pr ∧ ShapeFaults2 (.sShl pr) pr false
       ∧ ShapeFaults2 (.sShr pr) pr false ∧ ShapeFaults2 (.sSar pr) pr false ∧ ShapeFaults2 (.sMulh ty) false false
       ∧ ShapeFaults2 (.sBfe ty) false false ∧ ShapeFaults2 (.sMin ty) two two ∧ ShapeFaults2 (.sMax ty) two two
       ∧ ShapeFaults2 (.sCmp ty cc) two two ∧ ShapeFaults2 (.sFadd m) false false ∧ ShapeFaults2 (.sFmul m) false false)
     ∧ (ShapeFaults3 .sMad false ∧ ShapeFaults3 .sBfi false ∧ ShapeFaults3 (.sAddc co) false ∧ ShapeFaults3 (.sSel pr) pr
       ∧ ShapeFaults3 (.sFma m) false)
     ∧ (ShapeFaults1 (.sMov pr) pr ∧ ShapeFaults1 (.sNot pr) pr ∧ ShapeFaults1 .sPopc false ∧ ShapeFaults1 .sClz false
       ∧ ShapeFaults1 (.sCvt ty m cv) (cvtSrcRegs ty cv == 2))
     ∧ ∀ (s : State) (d a b : Opnd), Shapeless s false b → FaultsAt (.sGetl d a b) s 2)
  ∧ (ShapeFaultsI .sAddI ∧ ShapeFaultsI .sSubI ∧ ShapeFaultsI .sMulI ∧ ShapeFaultsI .sAndI ∧ ShapeFaultsI .sOrI
     ∧ ShapeFaultsI .sXorI ∧ ShapeFaultsI .sShlI ∧ ShapeFaultsI .sShrI ∧ ShapeFaultsI .sSarI ∧ ShapeFaultsI .sAddcI
     ∧ (∀ ts : Tsel, ShapeFaultsI (.sMulhI ts) ∧ ShapeFaultsI (.sMinI ts) ∧ ShapeFaultsI (.sMaxI ts))
     ∧ ∀ dyn : Bool, ShapeFaultsI (.sFaddI dyn) ∧ ShapeFaultsI (.sFmulI dyn))
  ∧ ((ShapeFaults2 .mAnd false false ∧ ShapeFaults2 .mOr false false ∧ ShapeFaults2 .mXor false false
       ∧ ShapeFaults1 .mNot false ∧ ShapeFaults1 .mFfs false)
     ∧ ∀ (s : State) (a : Opnd) (off : Word),
       (Shapeless s false a → FaultsAt (.execSet a) s 1 ∧ FaultsAt (.execAnd a) s 1 ∧ FaultsAt (.execAndn a) s 1
         ∧ FaultsAt (.bz a off) s 4 ∧ FaultsAt (.bnz a off) s 4 ∧ FaultsAt (.bexz a off) s 4 ∧ FaultsAt (.brs a off) s 4)
       ∧ (Shapeless s true a → FaultsAt (.ret a) s 4))
  ∧ ∀ (s : State) (w : SubW) (d a b : Opnd) (pr excl : Bool) (ty : Ty) (op : RedOp) (sm : ShflMode) (vm : VoteMode),
     MemberFaults (.shfl sm w pr d a b) s ∧ MemberFaults (.vote vm w d a) s ∧ MemberFaults (.matchOp w pr d a) s
     ∧ MemberFaults (.red op w ty d a) s ∧ MemberFaults (.scan op excl w ty d a) s
     ∧ (∀ c : Opnd, execMask s ≠ 0 → Shapeless s false b → FaultsAt (.cmpct w d a b c) s 2)
     ∧ (¬ Shapeless s false b → MemberFaults (.cmpct w d a b) s)

/-! ### Vector integer instructions (R237 to R248) -/

/-- R237: the instructions of two sources, in every type; each lane's result is of that lane's sources, the tag is that of
R52, and inactive lanes and other registers keep their values. R212, R237, R238, R240: the I forms take the literal as the
second source of every lane. R52: the tag that `add` and `mul` give where every lane of the group is active: an affine
source and a uniform one give an affine result whose base and stride follow the operation, two uniform sources a uniform
result, and a partly active group tag 0. -/
def Obligations.VectorTwoSources : Prop :=
  (∀ ty : Ty,
     VecOut2 (.add ty false) ty (affineAdd false) (fun x y => intWrap ty (intVal ty x + intVal ty y))
     ∧ VecOut2 (.add ty true) ty (affineAdd false) (fun x y => intWrap ty (intClamp ty (intVal ty x + intVal ty y)))
     ∧ VecOut2 (.sub ty false) ty (affineAdd true) (fun x y => intWrap ty (intVal ty x - intVal ty y))
     ∧ VecOut2 (.sub ty true) ty (affineAdd true) (fun x y => intWrap ty (intClamp ty (intVal ty x - intVal ty y)))
     ∧ VecOut2 (.mul ty) ty affineMul (fun x y => intWrap ty (intVal ty x * intVal ty y))
     ∧ VecOut2 (.mulh ty) ty noAffine (fun x y => intWrap ty (intVal ty x * intVal ty y / 2 ^ 32))
     ∧ VecOut2 (.and ty) ty noAffine (fun x y => x &&& y) ∧ VecOut2 (.or ty) ty noAffine (fun x y => x ||| y)
     ∧ VecOut2 (.xor ty) ty noAffine (fun x y => x ^^^ y)
     ∧ VecOut2 (.min ty) ty noAffine (fun x y => intWrap ty (min (intVal ty x) (intVal ty y)))
     ∧ VecOut2 (.max ty) ty noAffine (fun x y => intWrap ty (max (intVal ty x) (intVal ty y)))
     ∧ VecOut2 (.bfe ty) ty noAffine (aluBfe ty))
  ∧ (∀ ts : Tsel, let ty := ts.ty
       VecOutI (.addI ts) (affineAdd false) (fun x y => intWrap ty (intVal ty x + intVal ty y))
       ∧ VecOutI (.subI ts) (affineAdd true) (fun x y => intWrap ty (intVal ty x - intVal ty y))
       ∧ VecOutI (.mulI ts) affineMul (fun x y => intWrap ty (intVal ty x * intVal ty y))
       ∧ VecOutI (.mulhI ts) noAffine (fun x y => intWrap ty (intVal ty x * intVal ty y / 2 ^ 32))
       ∧ VecOutI (.andI ts) noAffine (fun x y => x &&& y) ∧ VecOutI (.orI ts) noAffine (fun x y => x ||| y)
       ∧ VecOutI (.xorI ts) noAffine (fun x y => x ^^^ y)
       ∧ VecOutI (.minI ts) noAffine (fun x y => intWrap ty (min (intVal ty x) (intVal ty y)))
       ∧ VecOutI (.maxI ts) noAffine (fun x y => intWrap ty (max (intVal ty x) (intVal ty y)))
       ∧ VecOutI (.addcI ts) noAffine (fun x y => w64 ((x.toNat % 2 ^ 32 + y.toNat % 2 ^ 32) % 2 ^ 32)))
  ∧ ((∀ (s : State) (aff : Option Tag) (all : Bool) (x : Word), execMask s ≠ s.g.present → tagOfWrite s aff all x = .general)
     ∧ (∀ (s : State) (x : Word), execMask s = s.g.present →
       tagOfWrite s none true x = (if x = 0 then .zero else .uniform x) ∧ tagOfWrite s none false x = .general)
     ∧ (∀ b d u : Word, affineAdd false (.affine b d) (.uniform u) = some (if d = 0 then uniTag (b + u) else .affine (b + u) d)
       ∧ affineAdd false (.affine b d) .zero = some (if d = 0 then uniTag b else .affine b d)
       ∧ affineAdd true (.uniform u) (.affine b d) = some (if d = 0 then uniTag (u - b) else .affine (u - b) (-d))
       ∧ affineMul (.affine b d) (.uniform u) = some (if d * u = 0 then uniTag (b * u) else .affine (b * u) (d * u)))
     ∧ ∀ b1 d1 b2 d2 : Word, affineAdd false (.affine b1 d1) (.affine b2 d2)
       = some (if d1 + d2 = 0 then uniTag (b1 + b2) else .affine (b1 + b2) (d1 + d2)))

/-- R238: the shifts of a value of width w by a single register read as n32, or by the literal of the I form. R237, R240 to
R242: the instructions of one and of three sources. -/
def Obligations.VectorShiftsAndOthers : Prop :=
  ((∀ ty : Ty, VecShift (.shl ty) ty affineShl (aluShl ty) ∧ VecShift (.shr ty) ty noAffine (aluShr ty)
     ∧ VecShift (.sar ty) ty noAffine (aluSar ty))
   ∧ (∀ ts : Tsel, VecOutI (.shlI ts) affineShl (fun x y => aluShl ts.ty x y.toNat)
     ∧ VecOutI (.shrI ts) noAffine (fun x y => aluShr ts.ty x y.toNat)
     ∧ VecOutI (.sarI ts) noAffine (fun x y => aluSar ts.ty x y.toNat))
   ∧ ∀ (x : Dword) (n : Nat),
     (∀ ty ∈ [Ty.b32, .s32, .n32], aluShl ty x n = ((x.setWidth 32 : Word) <<< n).setWidth 64
       ∧ aluShr ty x n = ((x.setWidth 32 : Word) >>> n).setWidth 64
       ∧ aluSar ty x n = ((x.setWidth 32 : Word).sshiftRight n).setWidth 64)
     ∧ ∀ ty ∈ [Ty.s64, .n64], aluShl ty x n = x <<< n ∧ aluShr ty x n = x >>> n ∧ aluSar ty x n = x.sshiftRight n)
  ∧ ((∀ ty : Ty, VecOut1 (.not ty) ty (fun x => intWrap ty (~~~x).toNat)
       ∧ VecOut1 (.abs ty) ty (fun x => intWrap ty (intVal ty x).natAbs)
       ∧ VecOut3 (.mad ty) (fun x y z => intWrap ty (intVal ty x * intVal ty y + intVal ty z))
       ∧ ∀ co : Bool, VecOut3 (.addc ty co) (aluAddc co))
     ∧ VecOut1 .popc .b32 (fun x => w64 (popcount (x.setWidth 32))) ∧ VecOut1 .clz .b32 aluClz
     ∧ VecOut3 .bfi aluBfi ∧ VecOut3 .prmt aluPrmt ∧ ∀ hi lo : BitVec 4, VecOut3 (.lsel hi lo) (aluLsel hi lo))

/-- R239 to R242, bit by bit: the field instructions, the carry, logic select and byte permutation. -/
def Obligations.BitResults : Prop :=
  (∀ (a b c : Dword) (j : Nat), j < 32 →
    let pos := min (c.toNat % 256) 32
    let len := min (c.toNat / 256 % 256) (32 - pos)
    (aluBfi a b c).getLsbD j = if pos ≤ j ∧ j < pos + len then a.getLsbD (j - pos) else b.getLsbD j)
  ∧ (∀ (a b : Dword) (j : Nat), j < 32 →
    let pos := min (b.toNat % 256) 32
    let len := min (b.toNat / 256 % 256) (32 - pos)
    (aluBfe .n32 a b).getLsbD j = (decide (j < len) && a.getLsbD (pos + j))
    ∧ (aluBfe .s32 a b).getLsbD j = (decide (0 < len) && a.getLsbD (pos + min j (len - 1))))
  ∧ (∀ a b c : Dword, let t := a.toNat % 2 ^ 32 + b.toNat % 2 ^ 32 + c.toNat % 2
    (aluAddc false a b c).toNat = t % 2 ^ 32 ∧ (aluAddc true a b c).toNat = t / 2 ^ 32)
  ∧ (∀ (hi lo : BitVec 4) (a b c : Dword) (j : Nat), j < 32 →
    let k := 2 * (a.getLsbD j).toNat + (b.getLsbD j).toNat
    (aluLsel hi lo a b c).getLsbD j = if c.getLsbD j then hi.getLsbD k else lo.getLsbD k)
  ∧ (∀ (a b c : Dword) (i : Nat), i < 4 →
    let s := c.toNat / 16 ^ i % 16
    let x := (if s % 8 < 4 then a.toNat / 256 ^ (s % 8) else b.toNat / 256 ^ (s % 8 - 4)) % 256
    (aluPrmt a b c).toNat / 256 ^ i % 256 = if s < 8 then x else if x < 128 then 0 else 255)

/-- R243, R244: `cmp` writes each active lane's truth, or the mask of the active lanes to a scalar register; `sel` chooses
by its lane's value, or by the bit of a scalar selector. Flags of a comparison are not enabled in FPC.TE. -/
def Obligations.CompareAndSelect : Prop :=
  (∀ (s : State) (ty : Ty) (cc : Cond) (n : Nat) (a b : Opnd), Quiet s →
    let r (l : Nat) := cmpElems (ftz s.g) ty cc (srcTy s ty a l) (srcTy s ty b l)
    let flags := activeFlags s fun l => (0, (r l).2.2)
    fpTrap (trapEnables s.g) flags 0 = none →
      exec (.cmp ty cc (.s n) a b) s = .next (vecDone (.cmp ty cc (.s n) a b) s
        (addFps (if execMask s = 0 then s.g else setSreg s.g n (maskOf fun l => laneOn (execMask s) l && (r l).1)) (orFlags flags)))
      ∧ exec (.cmp ty cc (.v n) a b) s = .next (vecDone (.cmp ty cc (.v n) a b) s
        (addFps (putVecTy s n false none (allUniform s (ty.regs == 2) [a, b]) fun l =>
          if ty.packed then w64 ((r l).1.toNat + 65536 * (r l).2.1.toNat) else if (r l).1 then 1 else 0) (orFlags flags))))
  ∧ (∀ (s : State) (ty : Ty) (n m : Nat) (a b : Opnd), Quiet s →
    exec (.sel ty (.v n) a b (.v m)) s = .next (vecDone (.sel ty (.v n) a b (.v m)) s
      (putVecTy s n (ty.regs == 2) none (allUniform s (ty.regs == 2) [a, b] && allUniform s false [.v m]) fun l =>
        if readV s m l ≠ 0 then srcTy s ty a l else srcTy s ty b l))
    ∧ exec (.sel ty (.v n) a b (.s m)) s = .next (vecDone (.sel ty (.v n) a b (.s m)) s
      (putVecTy s n (ty.regs == 2) none false fun l =>
        if laneOn (readS s m) l then srcTy s ty a l else srcTy s ty b l)))

/-- R245 to R248, R260, R261: moves, one lane, the tag of a register, and bit planes. That each half of `mov.n64` keeps its
source's tag, an affine one too, is the model's choice beside R52 (notes/assumptions/94.md). R246: `movx` writes the register,
or the pair, that its first source names, with tag 0 for a vector register, and raises 0x201 where it names a register of which
it or its upper half lies beyond the budget, an odd register for a pair, no register, or a vector pair where its source is no
even register. R53: a name, or a value for a scalar register, that is not uniform raises 0x200. Without an active lane it has no
effect (R232, R375). For a scalar pair its source may be an odd register (the model's choice where that is the last of the
budget, notes/assumptions/108.md). -/
def Obligations.MovesAndPlanes : Prop :=
  (∀ (s : State) (n : Nat) (a b : Opnd), Quiet s →
     (exec (.mov .b32 (.v n) a) s = .next (vecDone (.mov .b32 (.v n) a) s (putVec s s.g n (movTag s (srcTag s a)) (srcLane s a)))
     ∧ (∀ m : Nat, exec (.mov .n64 (.v n) (.v m)) s = .next (vecDone (.mov .n64 (.v n) (.v m)) s
       (putVec s (putVec s s.g n (movTag s (readTag s m)) (readV s m)) (n + 1) (movTag s (readTag s (m + 1))) (readV s (m + 1)))))
     ∧ (∀ (ts : Tsel) (imm : Word), exec (.movI ts (.v n) imm) s = .next (vecDone (.movI ts (.v n) imm) s
       (putVec s s.g n (movTag s (.uniform imm)) fun _ => imm)))
     ∧ (∀ x l : Word, uni s 1 a = .ok x → uni s 2 b = .ok l → laneOn (execMask s) (l.toNat % 32) = true →
       exec (.putl (.v n) a b) s = .next (vecDone (.putl (.v n) a b) s
         (setVreg s.g n (w32 (2 ^ (l.toNat % 32))) (List.replicate 32 x) .general)))
     ∧ (∀ x l : Word, uni s 1 a = .ok x → uni s 2 b = .ok l → laneOn (execMask s) (l.toNat % 32) = false →
       exec (.putl (.v n) a b) s = .next (vecDone (.putl (.v n) a b) s s.g))
     ∧ (∀ m : Nat, exec (.shape (.s n) (.v m)) s = .next (advance (.shape (.s n) (.v m)) s
       (setSreg s.g n (w32 (readTag s m).code))))
     ∧ exec (.bpack (.v n) a) s = .next (vecDone (.bpack (.v n) a) s (putVecTy s n false none false fun l =>
       if l < 8 then ((maskOf fun j => laneOn (execMask s) j && (srcLane s a j).getLsbD (7 - l)).setWidth 64) else 0))
     ∧ ∀ c p : Nat, (c = p ∨ (c = 0 ∧ p = 8)) → 2 ≤ p → p ≤ 8 → exec (.bunpack c (.v n) a) s = .next (vecDone (.bunpack c (.v n) a) s
       (putVecTy s n false none false fun l =>
         let u := (List.range p).foldl (fun u k => 2 * u + ((crossLane s a k).getLsbD l).toNat) 0
         intWrap .s32 (if (crossLane s a 0).getLsbD l then (u : Int) - 2 ^ p else u)))))
  ∧ (∀ (s : State) (a b : Opnd) (name : Word) (k : Nat), Quiet s → execMask s ≠ 0 → uni s 1 a = .ok name →
       let named := exec (.movx a b) s
       let fault : Out := .next (raise s (causeHere s (.plain 0x201 0) (nextAddr (.movx a b) (cur s)) (trapDst (.movx a b))))
       (name.toNat % 2048 = k → k < 512 → k < (roleOf s).vregs →
         named = .next (vecDone (.movx a b) s (putVecTy s k false none false (srcPair s b))))
       ∧ (∀ m : Nat, name.toNat % 2048 = 1024 + k → k < 512 → k + 1 < (roleOf s).vregs → k % 2 = 0 → (b = .v m ∨ b = .s m) →
         (m % 2 = 0 → named = .next (vecDone (.movx a b) s (putVecTy s k true none false (srcPair s b))))
         ∧ (m % 2 = 1 → named = fault))
       ∧ (name.toNat % 2048 = 1024 + k → k < 512 → (∀ m : Nat, b ≠ .v m ∧ b ≠ .s m) → named = fault)
       ∧ (name.toNat % 2048 = 1024 + k → k < 512 → (k % 2 = 1 ∨ (roleOf s).vregs ≤ k + 1) → named = fault)
       ∧ (∀ x : Word, name.toNat % 2048 = 0x200 + k → k < 192 → k < (roleOf s).sregs → uni s 2 b = .ok x →
         named = .next (vecDone (.movx a b) s (setSreg s.g k x)))
       ∧ (∀ x : Dword, name.toNat % 2048 = 1024 + 0x200 + k → k < 192 → k + 1 < (roleOf s).sregs → k % 2 = 0 → uniPair s 2 b = .ok x →
         named = .next (vecDone (.movx a b) s (setSpair s.g k x)))
       ∧ (name.toNat % 2048 = 1024 + 0x200 + k → k < 192 → (k % 2 = 1 ∨ (roleOf s).sregs ≤ k + 1) → named = fault)
       ∧ (∀ pr : Bool, name.toNat % 2048 = 1024 * pr.toNat + 0x200 + k → k + pr.toNat < 192 → k + pr.toNat < (roleOf s).sregs →
         (pr = true → k % 2 = 0) → Shapeless s pr b → FaultsAt (.movx a b) s 2)
       ∧ (name.toNat % 1024 = k → k < 512 → (roleOf s).vregs ≤ k → named = fault)
       ∧ (name.toNat % 1024 = 0x200 + k → k < 192 → (roleOf s).sregs ≤ k → named = fault)
       ∧ (0x2c0 ≤ name.toNat % 1024 → named = fault))
  ∧ ∀ (s : State) (a b : Opnd), (execMask s ≠ 0 → Shapeless s false a → FaultsAt (.movx a b) s 1)
    ∧ (execMask s = 0 → Quiet s → exec (.movx a b) s = .next (vecDone (.movx a b) s s.g))

/-! ### Vector floating point (R252 to R259) -/

/-- R253 to R256, R93: the short instructions of two and three sources: each active lane's rounded result, and the OR of the
active lanes' flags in FPS, where no raised flag is enabled. R212, R253, R254: the I forms of f32; the rounding mode is rn,
or FPC's where the form is dynamic. R257 to R259, R93: rounding to an integer, the class, the exponent and the conversions. -/
def Obligations.VectorFloatingPoint : Prop :=
  (∀ (s : State) (n : Nat) (a b c : Opnd),
     let md := modeOf s.g
     let ft := ftz s.g
     let all2 := allUniform s false [a, b]
     let all3 := allUniform s false [a, b, c]
     let two (ty : Ty) (f : FpFmt → Fv → Fv → Nat × FpFlags) (l : Nat) := wide (fp2 ft ty f (srcLane s a l) (srcLane s b l))
     (∀ (ty : Ty) (m : Rnd),
       VecFpDone (.fadd ty m (.v n) a b) s n false all2 (two ty fun F => F.fadd (md m))
       ∧ VecFpDone (.fsub ty m (.v n) a b) s n false all2 (two ty fun F => F.fsub (md m))
       ∧ VecFpDone (.fmul ty m (.v n) a b) s n false all2 (two ty fun F => F.fmul (md m))
       ∧ VecFpDone (.fma ty m (.v n) a b c) s n false all3 (fun l => wide (fp3 ft ty (fun F => F.fma (md m))
         (srcLane s a l) (srcLane s b l) (srcLane s c l)))
       ∧ VecFpDone (.fmin ty (.v n) a b) s n false all2 (two ty fun F => F.fminmax false)
       ∧ VecFpDone (.fmax ty (.v n) a b) s n false all2 (two ty fun F => F.fminmax true)
       ∧ ∀ cc : Cond, VecFpDone (.fcmp ty cc (.v n) a b) s n false all2
         (fun l => wide (fpCompare ft ty cc (srcLane s a l) (srcLane s b l))))
     ∧ (∀ (m : Rnd) (f16 : Bool), VecFpDone (.fdot2 m f16 (.v n) a b c) s n false all3
       (fun l => wide (fdot2Of ft (md m) f16 (srcLane s a l) (srcLane s b l) (srcLane s c l))))
     ∧ ∀ m : Rnd, VecFpDone (.fscale m (.v n) a b) s n false all2
       (fun l => wide (fp1 ft .f32 (fun _ x => fscaleOf (md m) x (sx (srcLane s b l))) (srcLane s a l))))
  ∧ (∀ (s : State) (n : Nat) (a : Opnd) (imm : Word) (dyn : Bool),
       let all := allUniform s false [a]
       let lit (f : FpFmt → Fv → Fv → Nat × FpFlags) (l : Nat) := wide (fp2 (ftz s.g) .f32 f (srcLane s a l) imm)
       let md : Mode := if dyn then dynMode s.g else .rn
       VecFpDone (.faddI dyn (.v n) a imm) s n false all (lit fun F => F.fadd md)
       ∧ VecFpDone (.fsubI dyn (.v n) a imm) s n false all (lit fun F => F.fsub md)
       ∧ VecFpDone (.fmulI dyn (.v n) a imm) s n false all (lit fun F => F.fmul md)
       ∧ VecFpDone (.fminI dyn (.v n) a imm) s n false all (lit fun F => F.fminmax false)
       ∧ VecFpDone (.fmaxI dyn (.v n) a imm) s n false all (lit fun F => F.fminmax true))
  ∧ (∀ (s : State) (n : Nat) (a b : Opnd) (ty : Ty) (m : Rnd) (cv : CvtCode),
       let all := allUniform s false [a]
       VecFpDone (.frnd ty m (.v n) a) s n false all
         (fun l => wide (fp1 (ftz s.g) ty (fun F => F.frnd (modeOf s.g m)) (srcLane s a l)))
       ∧ VecFpDone (.fclass (.v n) a) s n false all (fun l => wide (fclassOf (srcLane s a l), 0))
       ∧ VecFpDone (.fexpo (.v n) a) s n false all (fun l => wide (fexpoOf (fp32.value (srcLane s a l).toNat)))
       ∧ VecFpDone (.cvt ty m cv (.v n) a b) s n (cvtDstRegs ty cv == 2)
         (allUniform s (cvtSrcRegs ty cv == 2) (if b = .none then [a] else [a, b]))
         (fun l => cvtLane (ftz s.g) ty (modeOf s.g m) cv (cvtSrc s ty cv a l) (if b = .none then none else some (cvtSrc s ty cv b l))))

/-- R91, R92, R257: the seeds, the square root and the special functions are long-latency and land at FLAG_CLEAR. A special
function's value within its bound of 2 units in the last place is free (notes/assumptions/9.md). -/
def Obligations.SpecialFunctions : Prop :=
  ∀ (s : State) (n : Nat) (a : Opnd) (m : Rnd),
    let all := allUniform s false [a]
    let raw (f : Word → Word × FpFlags) (l : Nat) := f (srcLane s a l)
    VecFpLands (.frcpSeed (.v n) a) s n all (raw (seedOf frcpOf))
    ∧ VecFpLands (.frsqSeed (.v n) a) s n all (raw (seedOf frsqOf))
    ∧ VecFpLands (.fsqrt m (.v n) a) s n all (raw (fp1 (ftz s.g) .f32 fun _ => fsqrtOf (modeOf s.g m)))
    ∧ VecFpLands (.fexp2 (.v n) a) s n all (raw (specialOf (ftz s.g) fexp2Of))
    ∧ VecFpLands (.flog2 (.v n) a) s n all (raw (specialOf (ftz s.g) flog2Of))
    ∧ VecFpLands (.fsin (.v n) a) s n all (raw (specialOf (ftz s.g) (ftrigOf 2 false)))
    ∧ VecFpLands (.fcos (.v n) a) s n all (raw (specialOf (ftz s.g) (ftrigOf 3 true)))

/-! ### Cross-lane instructions (R262 to R269) -/

/-- R262, R263, R265 to R268: shuffle, vote, match and compact of an active group, without a member mask or with one that
names every active lane, land at FLAG_CLEAR. STS.X is set where the mask names an exited lane; a lane that shuffles from a
lane that is no member or has exited reads its own; a lane outside a sub-group is not read. That `vote.all` asks the active lanes
alone, where the mask names an exited lane too, is the model's choice (notes/assumptions/93.md), and so is what a shuffle of
`%lane` or `%tid` reads (notes/assumptions/109.md). Without an active lane they change
no register. -/
def Obligations.CrossLaneMoves : Prop :=
  (∀ (s : State) (n : Nat) (a b c : Opnd) (w : SubW) (mm : Option Word), Idle s → execMask s ≠ 0 → Covers s c mm →
    let done (g : Group) : Group := addSts g (memberSts s mm)
    (∀ (md : ShflMode) (pr : Bool), let i : Instr := .shfl md w pr (.v n) a b c
      Lands i s s (done (putVecTy s n pr none false fun l =>
        let src := shflSource md (subWidth w) l (srcLane s b l).toNat
        let k := if mm.any fun m => !laneOn m src || laneOn s.g.exited src then l else src
        if pr then crossPair s a k else (crossLane s a k).setWidth 64)))
    ∧ (Lands (.vote .any w (.v n) a c) s s (done (putVecTy s n false none (w == .w32) fun l =>
        truth ((subLanes (subWidth w) l).any fun k => laneOn (execMask s) k && srcLane s a k != 0))))
    ∧ (Lands (.vote .all w (.v n) a c) s s (done (putVecTy s n false none (w == .w32) fun l =>
        truth ((subLanes (subWidth w) l).all fun k => !laneOn (execMask s) k || srcLane s a k != 0))))
    ∧ (Lands (.vote .ballot w (.v n) a c) s s (done (putVecTy s n false none (w == .w32) fun l =>
        (maskOf fun k => k / subWidth w == l / subWidth w && (laneOn (execMask s) k && srcLane s a k != 0)).setWidth 64)))
    ∧ (∀ pr : Bool, Lands (.matchOp w pr (.v n) a c) s s (done (putVecTy s n false none false fun l =>
        let x (k : Nat) : Dword := if pr then srcPair s a k else (srcLane s a k).setWidth 64
        (maskOf fun k => k / subWidth w == l / subWidth w && laneOn (execMask s) k && x k == x l).setWidth 64)))
    ∧ (∀ sel : Word, uni s 2 b = .ok sel → Lands (.cmpct w (.v n) a b c) s s (done (putVecTy s n false none false fun l =>
        match ((subLanes (subWidth w) l).filter (laneOn (execMask s &&& sel)))[l % subWidth w]? with
        | some k => (srcLane s a k).setWidth 64
        | none => 0))))
  ∧ ∀ (s : State) (d a b c : Opnd) (w : SubW) (pr : Bool) (sm : ShflMode) (vm : VoteMode), Idle s → execMask s = 0 →
    Lands (.shfl sm w pr d a b c) s s s.g ∧ Lands (.vote vm w d a c) s s s.g ∧ Lands (.matchOp w pr d a c) s s s.g
    ∧ Lands (.cmpct w d a b c) s s s.g

/-- R87, R89, R263, R269: a reduction of the active lanes, for every operation, width and type, without a member mask or with
one that names every active lane; STS.E is set where a sub-group has no active lane, and a reduction without an active lane
sets it and changes no register. R88, R89, R269: a scan of the active lanes, inclusive or exclusive. -/
def Obligations.ReductionsAndScans : Prop :=
  (∀ (s : State) (n : Nat) (a c : Opnd) (w : SubW) (op : RedOp) (ty : Ty) (mm : Option Word), Idle s → execMask s ≠ 0 →
     Covers s c mm →
     let t0 := tabulate fun l => if laneOn (execMask s) l then srcLane s a l else redId op ty
     let r := (subFirsts (subWidth w)).foldl (fun (acc : List Word × List FpFlags) lo =>
       let x := redTree (redNode op (ftz s.g) ty) t0 (subLog w) lo acc.2
       (acc.1 ++ [x.1], x.2)) ([], List.replicate 32 0)
     let empty := (subFirsts (subWidth w)).any fun lo => (subLanes (subWidth w) lo).all fun l => !laneOn (execMask s) l
     fpTrap (trapEnables s.g) (onlyActive s r.2) 0 = none →
       Lands (.red op w ty (.v n) a c) s s
         (addSts (addFps (putVecTy s n false none (w == .w32) fun l => (r.1.getD (l / subWidth w) 0).setWidth 64)
           (orFlags (onlyActive s r.2))) (memberSts s mm ||| if empty then stsE else 0)))
  ∧ (∀ (s : State) (n : Nat) (a c : Opnd) (w : SubW) (op : RedOp) (ty : Ty) (excl : Bool) (mm : Option Word), Idle s →
       execMask s ≠ 0 → Covers s c mm →
       let t0 := tabulate fun l => if laneOn (execMask s) l then srcLane s a l else redId op ty
       let r := (List.range (subLog w)).foldl (fun t k => scanStep (redNode op (ftz s.g) ty) (subWidth w) (2 ^ k) t)
         (t0, List.replicate 32 0)
       fpTrap (trapEnables s.g) (onlyActive s r.2) 0 = none →
         Lands (.scan op excl w ty (.v n) a c) s s
           (addSts (addFps (putVecTy s n false none false fun l =>
             (if excl then (if l % subWidth w = 0 then redId op ty else laneAt r.1 (l - 1)) else laneAt r.1 l).setWidth 64)
             (orFlags (onlyActive s r.2))) (memberSts s mm)))
  ∧ ∀ (s : State) (d a c : Opnd) (w : SubW) (op : RedOp) (ty : Ty) (excl : Bool), Idle s → execMask s = 0 →
    Lands (.red op w ty d a c) s s (addSts s.g stsE) ∧ Lands (.scan op excl w ty d a c) s s s.g

/-- R87: the integer reduction over all 32 lanes is the operation applied to every lane in turn, in whatever order the tree
takes them. -/
def Obligations.ReductionIsFold : Prop :=
  ∀ t0 : List Word, t0.length = 32 →
    (redTree (redNode .add false .n32) t0 5 0 (List.replicate 32 0)).1 = t0.foldl (· + ·) 0
    ∧ (redTree (redNode .xor false .b32) t0 5 0 (List.replicate 32 0)).1 = t0.foldl (· ^^^ ·) 0
    ∧ (redTree (redNode .or false .b32) t0 5 0 (List.replicate 32 0)).1 = t0.foldl (· ||| ·) 0
    ∧ (redTree (redNode .and false .b32) t0 5 0 (List.replicate 32 0)).1 = t0.foldl (· &&& ·) 0xffffffff

/-! ### Masks, branches, split and join (R26 to R29, R271 to R276) -/

/-- R271: `exec.get` reads the issuing slot's mask, and `exec.set`, `exec.and` and `exec.andn` replace it; `exec.set` leaves
out lanes that have exited, that the partner slot or a path entry holds, or that are parked. An empty mask raises 0x203 and
the mask stays. R394, R404: where an entry of the sump that `exec.set` would read is poisoned, it raises the cause of that
entry (the model's choice of the address and of nothing else done, notes/assumptions/83.md). R272: `m.and`, `m.or` and `m.xor` combine two masks, `m.not` gives the lanes of `%exec` that its source
leaves out, and `m.ffs` the number of the lowest set bit, or 32. -/
def Obligations.MasksOfLanes : Prop :=
  (∀ (s : State) (n : Nat) (a : Opnd) (x : Word), Quiet s → uni s 1 a = .ok x →
     let becomes (i : Instr) (m : Word) : Prop :=
       (m ≠ 0 → exec i s = .next (advance i (withMask s m) (withMask s m).g))
         ∧ (m = 0 → Faults i s (.plain 0x203 0))
     exec (.execGet (.s n)) s = .next (advance (.execGet (.s n)) s (setSreg s.g n (execMask s)))
     ∧ ((stackOffs s).find? (sumpPoison s) = none → becomes (.execSet a) (x &&& ~~~s.g.exited &&& ~~~(claimed s)))
     ∧ (∀ off : Nat, (stackOffs s).find? (sumpPoison s) = some off → Faults (.execSet a) s (sumpRaise off))
     ∧ becomes (.execAnd a) (execMask s &&& x)
     ∧ becomes (.execAndn a) (execMask s &&& ~~~x))
  ∧ (∀ (s : State) (n : Nat) (a b : Opnd) (x y : Word), Quiet s → uni s 1 a = .ok x → uni s 2 b = .ok y →
       let writes (i : Instr) (v : Word) : Prop := exec i s = .next (advance i s (setSreg s.g n v))
       writes (.mAnd (.s n) a b) (x &&& y) ∧ writes (.mOr (.s n) a b) (x ||| y) ∧ writes (.mXor (.s n) a b) (x ^^^ y)
       ∧ writes (.mNot (.s n) a) (execMask s &&& ~~~x)
       ∧ (x = 0 → writes (.mFfs (.s n) a) 32)
       ∧ ∀ k : Nat, k < 32 → x.getLsbD k = true → (∀ j < k, x.getLsbD j = false) →
           writes (.mFfs (.s n) a) (BitVec.ofNat 32 k))

/-- R274: a branch goes to the header address plus eight times its offset, or falls through to the word after the clause;
`bz` is taken on 0, `bnz` on any other value, and `bexz` where no active lane is in the mask. Nothing but the slot changes.
R275: `call` writes the address of the word after its clause to its scalar pair and branches; `ret` goes to the address of
its pair, whatever stands there. R25, R276: `exit` adds the slot's lanes to EXITED and empties the slot; where that leaves
lanes in no slot and no path entry it raises 0x204. R29, R276: beside a live partner, whose slot it leaves as it is, the slot
stays empty unless an entry of its own is on top of the sump: then it takes the lanes of that entry, at the address of the
other path (why 1), or after the join at which they wait (why 2) where the slot has no partner. -/
def Obligations.BranchesAndExits : Prop :=
  (∀ (s : State) (off : Word) (c : Opnd) (x : Word), uni s 4 c = .ok x →
     let p := cur s
     let there : Out := .next (setCur s (p.jump s.now (p.hdr + off.signExtend 57 * 8)))
     let past : Out := .next (setCur s (p.moveTo s.now p.after))
     exec (.br off) s = there
     ∧ (x = 0 → exec (.bz c off) s = there) ∧ (x ≠ 0 → exec (.bz c off) s = past)
     ∧ (x ≠ 0 → exec (.bnz c off) s = there) ∧ (x = 0 → exec (.bnz c off) s = past)
     ∧ (x &&& execMask s = 0 → exec (.bexz c off) s = there) ∧ (x &&& execMask s ≠ 0 → exec (.bexz c off) s = past))
  ∧ ((∀ (s : State) (n : Nat) (off : Word), Quiet s →
       let p := cur s
       exec (.call (.s n) off) s = .next (setCur { s with g := setSpair s.g n (p.after.setWidth 64) }
         (p.jump s.now (p.hdr + off.signExtend 57 * 8))))
     ∧ ∀ (s : State) (l : Opnd) (x : Dword), uniPair s 4 l = .ok x →
       exec (.ret l) s = .next (setCur s ((cur s).jump s.now (x.setWidth 57))))
  ∧ (∀ s : State, s.g.sumpTop = 0 → (s.g.slot s.slot.partner).mask = 0 → s.g.parked = 0 → inHandler s.g = false →
       (s.g.exited ||| (cur s).mask = 0xffffffff → ∃ t, exec .exit s = .next t ∧ t.g.exited = 0xffffffff
         ∧ t.g.a.mask = 0 ∧ t.g.b.mask = 0 ∧ t.g.vregs = s.g.vregs ∧ t.g.sregs = s.g.sregs ∧ t.mem = s.mem)
       ∧ (s.g.exited ||| (cur s).mask ≠ 0xffffffff → ∃ t, t.g.exited = s.g.exited ||| (cur s).mask ∧ t.mem = s.mem
         ∧ exec .exit s = .next (raise t (causeHere t (.plain 0x204 0) (nextAddr .exit (cur s)) (trapDst .exit)))))
  ∧ (∀ s : State, inHandler s.g = false →
       let q := s.g.slot s.slot.partner
       let kept (t : State) : Prop := t.g.exited = s.g.exited ||| (cur s).mask ∧ t.g.slot s.slot.partner = q
         ∧ t.g.vregs = s.g.vregs ∧ t.g.sregs = s.g.sregs ∧ t.mem = s.mem
       (q.mask ≠ 0 → (∀ e, sumpTopEntry s = some e → sumpPoison s (s.g.sumpTop - 16) = false ∧ e.own ≠ s.slot) →
         ∃ t, exec .exit s = .next t ∧ kept t ∧ (t.g.slot s.slot).mask = 0 ∧ t.g.sumpTop = s.g.sumpTop)
       ∧ (∀ e : SumpEntry, sumpTopEntry s = some e → sumpPoison s (s.g.sumpTop - 16) = false → e.own = s.slot → e.mask ≠ 0 →
         (e.why = 1 → s.g.inside = [] → ∃ t, exec .exit s = .next t ∧ kept t ∧ t.g.sumpTop = s.g.sumpTop - 16
           ∧ (t.g.slot s.slot).mask = e.mask ∧ (t.g.slot s.slot).pc = BitVec.ofNat 57 e.low
           ∧ (t.g.slot s.slot).stand = .arrived)
         ∧ (e.why = 2 → s.g.sumpTop = 16 → q.mask = 0 → ∃ t, exec .exit s = .next t ∧ kept t ∧ t.g.sumpTop = 0
           ∧ (t.g.slot s.slot).mask = e.mask ∧ (t.g.slot s.slot).pc = BitVec.ofNat 57 e.low + 8)))

/-- R28, R380: `brs` splits the slot. Where its condition takes no lane or every lane it only branches; otherwise the taken
lanes go to the partner slot when that is not live, which neither the hint of the clause that it leaves nor a `dbg.run` before
it concerns (R196, R429; notes/assumptions/103.md), and onto the sump when it is, unless the sump is full. R29: a slot at
`join`, without path entries: it waits while its partner is elsewhere, meets it in slot A with both masks where the partner
waits at the same `join`, and goes on where it has no partner. With an entry of its own on top it takes the other path
first, and its lanes wait on the sump. JOIN_RESUME takes the same steps for a slot that waits, where they change something
(R29, R378). R394, R404: a poisoned entry on top raises its cause (the model's choice, notes/assumptions/83.md). -/
def Obligations.SplitsAndJoins : Prop :=
  (∀ (s : State) (c : Opnd) (off cond : Word), uni s 4 c = .ok cond →
     let p := cur s
     let target : Addr := p.hdr + off.signExtend 57 * 8
     let taken := p.mask &&& cond
     let fall := p.mask &&& ~~~cond
     let here : PcSlot := p.moveTo s.now p.after
     let q := s.g.slot s.slot.partner
     (taken = 0 → exec (.brs c off) s = .next (setCur s here))
     ∧ (taken ≠ 0 → fall = 0 → exec (.brs c off) s = .next (setCur s (p.jump s.now target)))
     ∧ (taken ≠ 0 → fall ≠ 0 → q.mask = 0 → exec (.brs c off) s = .next { s with
         g := (s.g.setSlot s.slot.partner { p.jump s.now target with mask := taken, ageless := false, calm := false }).setSlot s.slot
           { here with mask := fall } })
     ∧ (taken ≠ 0 → fall ≠ 0 → q.mask ≠ 0 → s.g.sumpTop + 16 ≤ s.team.kernel.sump - s.team.kernel.local_ →
         exec (.brs c off) s = .next (setCur (pushEntry s { low := target.toNat, mask := taken, why := 1, own := s.slot })
           { here with mask := fall }))
     ∧ (taken ≠ 0 → fall ≠ 0 → q.mask ≠ 0 → s.team.kernel.sump - s.team.kernel.local_ < s.g.sumpTop + 16 →
         Faults (.brs c off) s (.plain 0x300 0)))
  ∧ ((∀ s : State, 8 ≤ ((cur s).pc - (cur s).hdr).toNat → ((cur s).pc - (cur s).hdr).toNat ≤ 8 * (cur s).count →
       let p := cur s
       let q := s.g.slot s.slot.partner
       (s.g.sumpTop = 0 → q.mask = 0 → p.mask ≠ 0 → ∃ t, exec .join s = .next t ∧ t.g.slot s.slot = p.moveTo s.now (p.pc + 8)
         ∧ t.mem = s.mem)
       ∧ (s.g.sumpTop = 0 → p.mask ≠ 0 → q.mask ≠ 0 → q.wait ≠ .join →
           exec .join s = .next (setCur s { p with wait := .join, stand := .paused }))
       ∧ (s.g.sumpTop = 0 → q.atJoin p.pc = true → ∃ t, exec .join s = .next t
         ∧ t.g.a.mask = s.g.a.mask ||| s.g.b.mask ∧ t.g.b.mask = 0 ∧ t.g.vregs = s.g.vregs ∧ t.mem = s.mem)
       ∧ (∀ e : SumpEntry, sumpTopEntry s = some e → sumpPoison s (s.g.sumpTop - 16) = true →
         Faults .join s (sumpRaise (s.g.sumpTop - 16)))
       ∧ ∀ e : SumpEntry, sumpTopEntry s = some e → sumpPoison s (s.g.sumpTop - 16) = false → e.own = s.slot → e.why = 1 →
         p.mask ≠ 0 → s.g.inside = [] → ∃ t, exec .join s = .next t ∧ (t.g.slot s.slot).mask = e.mask
             ∧ (t.g.slot s.slot).pc = BitVec.ofNat 57 e.low ∧ (t.g.slot s.slot).stand = .arrived ∧ t.g.sumpTop = s.g.sumpTop)
     ∧ ∀ s : State, canAct s s.slot = true → s.g.haltDue = none → (cur s).wait = .join →
         (∀ t, joinAt s s.slot = .ok t → t.g ≠ s.g → exec .joinResume s = .next t)
         ∧ ∀ r, joinAt s s.slot = .error r → exec .joinResume s = .next (afterStep (raise s (causeHere s r (cur s).pc 0x3ff))))

/-! ### Barriers and queues (R277 to R281) -/

/-- R278, R279: `bar.arr` and `bar.sync` arrive for the slot's threads, which is a release; `bar.wait` passes once no active
thread has arrived in the current phase; a slot that must wait gives up its port and stays. `yield` goes on with its port
given up. -/
def Obligations.Barriers : Prop :=
  (∀ (s : State) (n : BitVec 4), Quiet s →
    let st := arrive (drainStores s) n.toNat
    (someArrived s n.toNat = false → exec (.barArr n) s = .next (advance (.barArr n) st st.g))
    ∧ (someArrived s n.toNat = true → exec (.barArr n) s = .next (setCur s ((cur s).pause (.barrier n.toNat true))))
    ∧ (someArrived s n.toNat = false → exec (.barWait n) s = .next (advance (.barWait n) s s.g))
    ∧ (someArrived s n.toNat = true → exec (.barWait n) s = .next (setCur s ((cur s).pause (.barrier n.toNat false))))
    ∧ ((cur s).wait = .running → someArrived st n.toNat = false → exec (.barSync n) s = .next (advance (.barSync n) st st.g))
    ∧ ((cur s).wait = .running → someArrived st n.toNat = true →
        exec (.barSync n) s = .next (setCur st ((cur st).pause (.barrier n.toNat false)))))
  ∧ ∀ s : State, (cur s).stand = .issuing → ∃ t, exec .yield s = .next t ∧ (t.g.slot s.slot).ageless = true
      ∧ (t.g.slot s.slot).stand ≠ .issuing ∧ (t.g.slot s.slot).pc = nextAddr .yield (cur s) ∧ t.g.vregs = s.g.vregs
      ∧ t.g.sregs = s.g.sregs ∧ t.mem = s.mem

/-- R277: a phase of a barrier completes when every thread of the team that has not exited has arrived in it, and then the
barrier's phase number is one more; a barrier that some thread has not reached stays in its phase. -/
def Obligations.BarrierPhases : Prop :=
  ∀ (s : State) (n : Nat), n < 16 → mrising s.team.phases = true →
    let gs := (groupsOf s s.team.ref).filter Group.active
    let arrived (g : Group) (l : Nat) : Prop := mget? g.marks (32 * n + l) = some (mget 0 s.team.phases n)
    gs ≠ [] →
      ((∀ g ∈ gs, ∀ l < 32, laneOn g.exited l = true ∨ arrived g l) →
        mget 0 (settleBarriers s).team.phases n = mget 0 s.team.phases n + 1)
      ∧ ((∃ g ∈ gs, ∃ l < 32, laneOn g.exited l = false ∧ ¬ arrived g l) →
        mget 0 (settleBarriers s).team.phases n = mget 0 s.team.phases n)

/-- R280, R281: `q.put` of the producer's role writes its registers to the entry at TAIL and advances TAIL; `q.get` of the
consumer's role reads the entry at HEAD and advances HEAD. A slot of another role raises 0x209, and one that finds the queue
full or empty waits. R394, R404: an entry with poison raises its cause and is not taken (the model's choice,
notes/assumptions/83.md). -/
def Obligations.StageQueues : Prop :=
  ∀ (s : State) (q : BitVec 3) (n : Nat), Idle s →
    let k := q.toNat
    let d := queueAt s k
    let c := mget (0, 0) s.team.qcount k
    let put : Instr := .qPut q (.s n)
    let get : Instr := .qGet q (.s n)
    (s.g.role = d.src → occupancy s.team k < d.depth → mget [] s.team.putters k = [] →
      let st := setQueue (putShared (drainStores s) (d.base + 16 + c.1.toNat % d.depth * d.entry)
        ((readRun s n (d.entry / 4)).map fun x => leBytes 4 x.toNat).flatten) k (c.1 + 1) c.2
      ∃ ps, Lands put s { st with team := { st.team with putters := ps } } st.g)
    ∧ (s.g.role = d.dst → 0 < occupancy s.team k → mget [] s.team.getters k = [] →
      let byte (i : Nat) : Byte := mget 0 s.team.shared (d.base + 16 + c.2.toNat % d.depth * d.entry + i)
      let off := d.base + 16 + c.2.toNat % d.depth * d.entry
      let st := setQueue s k c.1 (c.2 + 1)
      (∀ r, sharedPoison s off d.entry = some r → Faults get s r) ∧ (sharedPoison s off d.entry = none → ∃ gs, Lands get s { st with team := { st.team with getters := gs } }
        ((List.range (d.entry / 4)).foldl (fun g i =>
          setSreg g (n + i) (BitVec.ofNat 32 (leNat [byte (4 * i), byte (4 * i + 1), byte (4 * i + 2), byte (4 * i + 3)]))) st.g)))
    ∧ (s.g.role ≠ d.src → Faults put s (.plain 0x209 k))
    ∧ (s.g.role ≠ d.dst → Faults get s (.plain 0x209 k))
    ∧ (s.g.role = d.src → d.depth ≤ occupancy s.team k → ∃ t, exec put s = .next t ∧ (cur t).wait = .queue k true
      ∧ (cur t).pc = (cur s).pc ∧ t.mem = s.mem ∧ t.team.qcount = s.team.qcount)
    ∧ (s.g.role = d.dst → occupancy s.team k = 0 → ∃ t, exec get s = .next t ∧ (cur t).wait = .queue k false
      ∧ (cur t).pc = (cur s).pc ∧ t.mem = s.mem ∧ t.team.qcount = s.team.qcount)

/-! ### Memory (R94 to R106, R118 to R133, R285 to R303) -/

/-- R286: a per-lane memory instruction without an active lane changes nothing but the slot's address. R95, R102, R287,
R381: a load whose lanes all pass the checks reads each active lane's bytes and at FLAG_CLEAR writes them, extended to the
register, to one, two or four vector registers with tag 0; a lane that fails raises the cause of the earliest check. Only
what the read of the memory side counts changes beside the registers. R251: a scalar load reads at one address and writes
one, two or four scalar registers. R366, R394: a load that would take a poisoned byte writes nothing and raises 0x600 for
`.sh` and `.sc` and 0x406 for the other spaces, with the lanes that would take one and the address of the lowest of them;
R400: where it lies in another team's window, that team is lost. -/
def Obligations.Loads : Prop :=
  (∀ (s : State) (spc : Space) (w : MWidth) (wide sgn : Bool) (op : AOp) (d b x : Opnd) (imm : BitVec 16) (o : Ordf) (k : AKind),
     Idle s → execMask s = 0 →
       let still (i : Instr) : Prop := exec i s = .next (advance i s s.g)
       still (.ld spc w d b x imm o) ∧ still (.st spc w d b x imm o) ∧ still (.atom spc wide op sgn d b x k o)
         ∧ still (.atomCas spc wide d b x k o) ∧ still (.pfetch b x imm o))
  ∧ (∀ (s : State) (spc : Space) (w : MWidth) (n : Nat) (base idx : Opnd) (imm : BitVec 16) (o : Ordf), Idle s → execMask s ≠ 0 →
       let i : Instr := .ld spc w (.v n) base idx imm o
       (∀ (b : Dword) (ls : List (Nat × Loc)), placeLanes s spc base idx imm (widthBytes w) 1 = .ok (b, ls) →
         let reads := ls.map fun e => (e.2, widthBytes w)
         let st := countReads (acquireOf s o) reads
         let bytes := lanesBytes st spc (laneEa s spc b idx imm) (widthBytes w) ls
         (∀ rs : List (Nat × List Byte), poisonedWindow st reads = none → bytes = .ok rs →
           Lands i s st ((List.range (widthRegs w)).foldl (fun g k =>
               putVec s g (n + k) (fun _ => .general) fun l => loadValue w (laneBytes rs l) k) s.g)
             ∧ st.mem = s.mem)
         ∧ (∀ r : Raise, poisonedWindow st reads = none → bytes = .error r → FaultsIn i s st r)
         ∧ ∀ t : TRef, poisonedWindow st reads = some t → exec i s = .next (loseTeam st t 0x600 1))
       ∧ ∀ r : Raise, placeLanes s spc base idx imm (widthBytes w) 1 = .error r → Faults i s r)
  ∧ (∀ (s : State) (spc : Space) (w : MWidth) (n : Nat) (base idx : Opnd) (imm : BitVec 16) (o : Ordf), Idle s →
       let i : Instr := .sLd spc w (.s n) base idx imm o
       (∀ (ea : Nat) (l : Loc), placeOne s spc base idx imm (widthBytes w) 1 = .ok (ea, l) →
         let st := countReads (acquireOf s o) [(l, widthBytes w)]
         (∀ bs : List Byte, poisonedWindow st [(l, widthBytes w)] = none → oneBytes st spc ea (widthBytes w) l = .ok bs →
           Lands i s st ((List.range (widthRegs w)).foldl (fun g k => setSreg g (n + k) (loadValue w bs k)) s.g)
             ∧ st.mem = s.mem)
         ∧ (∀ r : Raise, poisonedWindow st [(l, widthBytes w)] = none → oneBytes st spc ea (widthBytes w) l = .error r → FaultsIn i s st r)
         ∧ ∀ t : TRef, poisonedWindow st [(l, widthBytes w)] = some t → exec i s = .next (loseTeam st t 0x600 1))
       ∧ ∀ r : Raise, placeOne s spc base idx imm (widthBytes w) 1 = .error r → Faults i s r)
  ∧ ∀ (s : State) (spc : Space) (ea : Nat → Nat) (n : Nat) (ls : List (Nat × Loc)),
       let eats (l : Loc) : Prop := ∃ b ∈ accessBytes s l n, b.2 = true
       let code : Nat := if spc = .sh ∨ spc = .sc then 0x600 else 0x406
       ((∀ e ∈ ls, ¬ eats e.2) → ∃ rs, lanesBytes s spc ea n ls = .ok rs)
       ∧ (∀ (pre post : List (Nat × Loc)) (e : Nat × Loc), ls = pre ++ e :: post → (∀ d ∈ pre, ¬ eats d.2) → eats e.2 →
         ∃ r, lanesBytes s spc ea n ls = .error r ∧ r.code = code ∧ r.addr = some (ea e.1)
           ∧ ∀ k < 32, laneOn r.mask k = true ↔ ∃ d ∈ ls, d.1 = k ∧ eats d.2)
       ∧ (∀ l : Loc, (¬ eats l → ∃ bs, oneBytes s spc (ea 0) n l = .ok bs)
         ∧ (eats l → ∃ r, oneBytes s spc (ea 0) n l = .error r ∧ r.code = code ∧ r.addr = some (ea 0) ∧ r.mask = 0))

/-- R2, R126, R287: what an access reads where no binding holds its address: each byte is the newest that the group's own
store queue holds for it, or else the byte of memory; the value is little-endian, sign-extended for s8 and s16. R291: the
new value of an atomic of 32 and of 64 bits; `min` and `max` keep the old value where the two are equal. -/
def Obligations.MemoryValues : Prop :=
  ((∀ (s : State) (l : Loc) (n : Nat), (l.home = .main → bindingAt s.vd l.va = none) →
     accessBytes s l n = (List.range n).map fun i =>
       match queuedByte s.g { l with addr := l.addr + i, va := l.va + i } with
       | some b => (b, false)
       | none => locByte s { l with addr := l.addr + i, va := l.va + i })
   ∧ ∀ a b c d : Byte, loadValue .b32 [a, b, c, d] 0 = d ++ c ++ b ++ a
       ∧ loadValue .n16 [a, b] 0 = (b ++ a).setWidth 32 ∧ loadValue .s16 [a, b] 0 = (b ++ a).signExtend 32
       ∧ loadValue .n8 [a] 0 = a.setWidth 32 ∧ loadValue .s8 [a] 0 = a.signExtend 32)
  ∧ ((∀ x y : Word, atomValue .add false 4 x.toNat y.toNat = (x + y).toNat ∧ atomValue .and false 4 x.toNat y.toNat = (x &&& y).toNat
       ∧ atomValue .or false 4 x.toNat y.toNat = (x ||| y).toNat ∧ atomValue .xor false 4 x.toNat y.toNat = (x ^^^ y).toNat
       ∧ atomValue .exch false 4 x.toNat y.toNat = y.toNat
       ∧ atomValue .min false 4 x.toNat y.toNat = (if y.ult x then y else x).toNat
       ∧ atomValue .max false 4 x.toNat y.toNat = (if x.ult y then y else x).toNat
       ∧ atomValue .min true 4 x.toNat y.toNat = (if y.slt x then y else x).toNat
       ∧ atomValue .max true 4 x.toNat y.toNat = (if x.slt y then y else x).toNat)
     ∧ ∀ x y : Dword, atomValue .add false 8 x.toNat y.toNat = (x + y).toNat
       ∧ atomValue .min true 8 x.toNat y.toNat = (if y.slt x then y else x).toNat
       ∧ atomValue .max true 8 x.toNat y.toNat = (if x.slt y then y else x).toNat)

/-- R106, R126, R288, R251: a store enters its group's store queue with its lanes' bytes in lane order, and drains it where
it is qualified; the value of a scalar store is read under R53. No byte of main memory changes before it becomes visible,
except by a store to the sump. -/
def Obligations.Stores : Prop :=
  ∀ (s : State) (spc : Space) (w : MWidth) (d base idx : Opnd) (imm : BitVec 16) (o : Ordf), Idle s →
    (∀ (b : Dword) (ls : List (Nat × Loc)), execMask s ≠ 0 → placeLanes s spc base idx imm (widthBytes w) 2 = .ok (b, ls) →
      let st := releaseOf (pushStore s spc (ls.map fun e => cellsOf e.2 (storeBytes s w d e.1)).flatten) o
      Lands (.st spc w d base idx imm o) s st st.g ∧ (spc ≠ .sp → o = .plain → st.mem = s.mem))
    ∧ (∀ r : Raise, execMask s ≠ 0 → placeLanes s spc base idx imm (widthBytes w) 2 = .error r →
      Faults (.st spc w d base idx imm o) s r)
    ∧ (∀ (bs : List Byte) (ea : Nat) (l : Loc), scaBytes s w d = .ok bs → placeOne s spc base idx imm (widthBytes w) 2 = .ok (ea, l) →
      let st := releaseOf (pushStore s spc (cellsOf l bs)) o
      Lands (.sSt spc w d base idx imm o) s st st.g ∧ (spc ≠ .sp → o = .plain → st.mem = s.mem))
    ∧ (∀ r : Raise, scaBytes s w d = .error r → Faults (.sSt spc w d base idx imm o) s r)
    ∧ ∀ (bs : List Byte) (r : Raise), scaBytes s w d = .ok bs → placeOne s spc base idx imm (widthBytes w) 2 = .error r →
      Faults (.sSt spc w d base idx imm o) s r

/-- R106, R126: STORE_VISIBLE makes the oldest queued store visible: afterwards each byte it covers reads as the last value
that the store has for it, but for its RO bits, and every other byte of main memory reads as before. R5, R421: a store changes
no byte of the device's stop records. Which bits of a gauge word are RO is the model's choice (notes/assumptions/58.md). -/
def Obligations.StoredBytes : Prop :=
  ∀ (s : State) (q : QStore) (rest : List QStore), s.Inv → s.g.stores = q :: rest →
    (∀ c ∈ q.cells, c.1.home = .main ∧ bindingAt s.vd c.1.va = none) →
      ∃ t, exec .storeVisible s = .next t ∧ t.g = { s.g with stores := rest }
        ∧ (∀ a : Nat, (∀ c ∈ q.cells, c.1.addr ≠ a) → mainByte t a = mainByte s a)
        ∧ (∀ (pre post : List (Loc × Byte)) (c : Loc × Byte), q.cells = pre ++ c :: post → (∀ d ∈ post, d.1.addr ≠ c.1.addr) →
            (readOnlyBits s c.1 = 0 → mainByte t c.1.addr = c.2)
            ∧ ∀ i < 8, (mainByte t c.1.addr).getLsbD i
              = if (readOnlyBits s c.1).getLsbD i then (mainByte s c.1.addr).getLsbD i else c.2.getLsbD i)
        ∧ (s.vd.alive = true → let rec_ := ctxPart s.vd mailPart + 4096
            ∀ a : Nat, rec_ ≤ a → a < rec_ + 32768 → mainByte t a = mainByte s a)

/-- R125, R147, R291 to R293: an atomic of the active lanes drains the queue, its places are made ready, and lane after lane
reads its place, writes the new value and keeps the old one, which lands in its register or pair with tag 0. R394: one that
would take a poisoned byte writes no place and no register and raises the cause of the lanes that would; R400: where it lies in
another team's window, that team is lost. -/
def Obligations.Atomics : Prop :=
  ∀ (s : State) (spc : Space) (wide sgn : Bool) (op : AOp) (n : Nat) (base idx : Opnd) (k : AKind) (o : Ordf), Idle s →
    execMask s ≠ 0 →
    let m : Nat := if wide then 8 else 4
    let opnd (r l : Nat) : Nat := if wide then (srcPair s (.v (n + 2 * r)) l).toNat else (readV s (n + r) l).toNat
    let does (i : Instr) (f : Nat → Nat → Option Nat) : Prop :=
      ∀ (b : Dword) (ls : List (Nat × Loc)), placeLanes s spc base idx 0 m 3 = .ok (b, ls) →
        let rd := readyLanes (atomOrder s k o) m ls
        let window := poisonedWindow rd (ls.map fun e => (e.2, m))
        let bytes := lanesBytes rd spc (laneEa s spc b idx 0) m ls
        (∀ rs : List (Nat × List Byte), window = none → bytes = .ok rs →
          let r := atomLanes rd spc (laneEa s spc b idx 0) m f ls
          let old (l : Nat) : Nat := ((r.2.1.find? fun x => x.1 == l).map (·.2)).getD 0
          Lands i s r.1 ((List.range (m / 4)).foldl (fun g j =>
            putVec s g (n + j) (fun _ => .general) fun l => BitVec.ofNat 32 (old l / 2 ^ (32 * j))) r.1.g))
        ∧ (∀ r : Raise, window = none → bytes = .error r → FaultsIn i s rd r)
        ∧ ∀ t : TRef, window = some t → exec i s = .next (loseTeam rd t 0x600 1)
    does (.atom spc wide op sgn (.v n) base idx k o) (fun l old => some (atomValue op sgn m old (opnd 0 l)))
    ∧ does (.atomCas spc wide (.v n) base idx k o) (fun l old => if old = opnd 0 l then some (opnd 1 l) else none)
    ∧ ∀ r : Raise, placeLanes s spc base idx 0 m 3 = .error r →
        Faults (.atom spc wide op sgn (.v n) base idx k o) s r ∧ Faults (.atomCas spc wide (.v n) base idx k o) s r

/-- R119, R120, R133, R294 to R296: a fence drains the store queue, and at `.fab` scope writes back or discards the die's
lines of other modules' memory; `wb` and `inv` write back the lines of a range of readable pages, and `inv` discards them; a
page that fails raises its cause; `pfetch` fills the line of each active lane's address below 2^57, and nothing else changes,
or fills nothing where its base is not uniform (the model's choice, notes/assumptions/60.md); a page walk changes only what is counted, and an entry of it that proves uncorrectable is poisoned (R391, R403). -/
def Obligations.FencesAndRanges : Prop :=
  ∀ (s : State) (sc : Scope) (a b x : Opnd) (imm : BitVec 16) (o : Ordf), Idle s →
    let d := drainStores s
    Lands (.fence .rel sc) s (releaseAt d sc) (releaseAt d sc).g
    ∧ Lands (.fence .acq sc) s (acquireAt d sc) (acquireAt d sc).g
    ∧ Lands (.fence .ar sc) s (acquireAt (releaseAt d sc) sc) (acquireAt (releaseAt d sc) sc).g
    ∧ Lands (.fence .sc sc) s (acquireAt (releaseAt d sc) sc) (acquireAt (releaseAt d sc) sc).g
    ∧ (releaseAt d sc).g.stores = []
    ∧ (∀ (n : Word) (v : Dword), uni s 1 a = .ok n → uniPair s 2 b = .ok v →
      let lo : Nat := (v + imm.signExtend 64).toNat
      (rangeFault s lo n.toNat = none →
        Lands (.wb a b imm) s (cleanVirtual d lo n.toNat false) (cleanVirtual d lo n.toNat false).g
          ∧ Lands (.inv a b imm) s (cleanVirtual d lo n.toNat true) (cleanVirtual d lo n.toNat true).g)
      ∧ ∀ r : Raise, rangeFault s lo n.toNat = some r → Faults (.wb a b imm) s r ∧ Faults (.inv a b imm) s r)
    ∧ (∀ v : Dword, execMask s ≠ 0 → baseOf s .g b = .ok v →
      Lands (.pfetch b x imm o) s ((lanes32.filter (laneOn (execMask s))).foldl (fun t l =>
        if laneEa s .g v x imm l < 2 ^ 57 then fillLine t (laneEa s .g v x imm l) else t) s) s.g)
    ∧ (∀ va : Nat, let t := fillLine s va
      t.g = s.g ∧ t.groups = s.groups ∧ t.team = s.team ∧ t.teams = s.teams ∧ t.mem = s.mem ∧ t.poison = s.poison
        ∧ t.peer = s.peer ∧ t.ptes = s.ptes)
    ∧ (∀ r : Raise, execMask s ≠ 0 → baseOf s .g b = .error r → Lands (.pfetch b x imm o) s s s.g)
    ∧ ∀ (n va : Nat) (dv : Device), deviceAt s n = some dv → va < 2 ^ 57 →
        (∃ t, exec (.pageWalk n { va := va, bad := none }) s = .next t ∧ t.g = s.g ∧ t.team = s.team ∧ t.mem = s.mem ∧ t.ptes = s.ptes ∧ t.poison = s.poison)
        ∧ ∀ e ∈ walkEntries s va levels dv.root, ∃ (t : State) (e' : Nat × Nat), exec (.pageWalk n { va := va, bad := some e.1 }) s = .next t
            ∧ e'.1 = e.1 ∧ e' ∈ walkEntries s va levels dv.root ∧ mainPoison t e'.2 = true ∧ t.g = s.g

/-- R112, R297 to R299: what the gauge instructions make of a gauge word once the group's queue has drained and the word is at
its home (R125, R147): `gauge.set` writes TARGET, COUNT 0, the device and V; `gauge.set.off` clears V; `gauge.add` is an arrival; `gauge.wait` goes on when the
generation has come and waits otherwise: then it is among the waits of its team, and W of the word is 1, the other bytes of
main memory read as before. R394: an update of a poisoned word is not made and raises its cause; so does a wait on one (the
model's choice, notes/assumptions/83.md). -/
def Obligations.GaugeWords : Prop :=
  ∀ (s : State) (spc : Space) (x base idx : Opnd) (imm : BitVec 16) (v : Word) (ea : Nat) (l : Loc), Idle s → uni s 1 x = .ok v →
    (placeOne s spc base idx imm 16 3 = .ok (ea, l) →
      let d := readyGauge (drainStores s) l
      let g := gaugeAt d l
      let done (i : Instr) (st : State) : Prop := Lands i s st st.g
      poisonedWindow d [(l, 16)] = none →
        ((∃ bs, oneBytes d spc ea 16 l = .ok bs) →
          done (.gaugeSet spc x base idx imm)
            (putGauge d l (setField (setField (setField (setField g 0 32 v.toNat) 32 32 0) 96 6 s.vd.number) 127 1 1))
          ∧ done (.gaugeSetOff spc base idx imm) (putGauge d l (setField g 127 1 0))
          ∧ (∀ g', gaugeArrive g s.vd.number v.toNat = some g' → done (.gaugeAdd spc x base idx imm) (putGauge d l g'))
          ∧ (gaugeArrive g s.vd.number v.toNat = none → done (.gaugeAdd spc x base idx imm) d))
        ∧ ∀ r : Raise, oneBytes d spc ea 16 l = .error r →
          FaultsIn (.gaugeSet spc x base idx imm) s d r ∧ FaultsIn (.gaugeSetOff spc base idx imm) s d r
            ∧ FaultsIn (.gaugeAdd spc x base idx imm) s d r)
    ∧ (placeOne s spc base idx imm 16 1 = .ok (ea, l) →
        let i : Instr := .gaugeWait spc x base idx imm
        let w := dropGauger (drainStores s)
        let c := countReads w [(l, 16)]
        (gaugeReached (gaugeAt w l) v = true → poisonedWindow c [(l, 16)] = none → (∃ bs, oneBytes c spc ea 16 l = .ok bs) →
          Lands i s c c.g)
        ∧ (∀ r : Raise, gaugePoison w l = true → poisonedWindow c [(l, 16)] = none → oneBytes c spc ea 16 l = .error r →
          FaultsIn i s c r)
        ∧ (gaugeReached (gaugeAt w l) v = false → gaugePoison w l = false →
          let u := readyGauge w l
          let t := pauseAs (showPending { u with team := { u.team with gaugers := u.team.gaugers ++ [(l, me s)] } } l) .gauge
          exec i s = .next t ∧ (cur t).wait = .gauge ∧ (cur t).pc = (cur s).pc
            ∧ (l, me s) ∈ t.team.gaugers ∧ t.g.vregs = s.g.vregs ∧ t.g.sregs = s.g.sregs
            ∧ (l.home = .main → w.Inv → (∀ k < 16, bindingAt w.vd (l.va + k) = none) →
              gaugeAt t l / 2 ^ 126 % 2 = 1
                ∧ gaugeAt t l % 2 ^ 126 = gaugeAt w l % 2 ^ 126 ∧ gaugeAt t l / 2 ^ 127 = gaugeAt w l / 2 ^ 127
                ∧ ∀ a, (a < l.addr ∨ l.addr + 16 ≤ a) → mainByte t a = mainByte w a)))

/-- R112: an arrival of n bytes is discarded where V is 0 or the word is another device's, and then a job's handle is
marked; otherwise COUNT and GEN advance by it, COUNT staying below a TARGET that is not 0, and nothing else of the word
changes. R109, R163: an arrival at a place that fails its check, as a revoked window does, fails the job. R395, R404: so does one
at a poisoned word, with 0x406. R112: a wait with generation w is over when GEN less w, signed, is 0 or more. -/
def Obligations.GaugeArrivals : Prop :=
  (∀ g vd n : Nat, g < 2 ^ 128 → n < 2 ^ 32 →
    let target := g % 2 ^ 32
    let count := g / 2 ^ 32 % 2 ^ 32
    let gen := g / 2 ^ 64 % 2 ^ 32
    (g / 2 ^ 127 = 0 ∨ g / 2 ^ 96 % 64 ≠ vd → gaugeArrive g vd n = none)
    ∧ (g / 2 ^ 127 = 1 → g / 2 ^ 96 % 64 = vd → ∃ g', gaugeArrive g vd n = some g' ∧ g' % 2 ^ 32 = target
      ∧ g' / 2 ^ 96 = g / 2 ^ 96
      ∧ (target = 0 → g' / 2 ^ 32 % 2 ^ 32 = (count + n) % 2 ^ 32 ∧ g' / 2 ^ 64 % 2 ^ 32 = gen)
      ∧ (target ≠ 0 → g' / 2 ^ 32 % 2 ^ 32 < target
        ∧ ∃ k, (count + n) % 2 ^ 32 = k * target + g' / 2 ^ 32 % 2 ^ 32 ∧ g' / 2 ^ 64 % 2 ^ 32 = (gen + k) % 2 ^ 32))
    ∧ ∀ w : Word, gaugeReached g w = true ↔ 0 ≤ (BitVec.ofNat 32 gen - w).toInt)
  ∧ (∀ (s : State) (j : Job) (n k : Nat), n ≠ 0 → jobGauge s j = some (.error k) →
    arriveBytes s j n = (s, { j with counted := j.counted + n, code := if j.code = 0 then k else j.code }))
  ∧ ∀ (s : State) (j : Job) (l : Loc) (n : Nat), n ≠ 0 → jobGauge s j = some (.ok l) →
    let r := readyGauge s l
    (gaugePoison r l = true →
      arriveBytes s j n = (r, { j with counted := j.counted + n, code := if j.code = 0 then 0x406 else j.code }))
    ∧ (∀ g', gaugePoison r l = false → gaugeArrive (gaugeAt r l) r.vd.number n = some g' →
      arriveBytes s j n = (putGauge r l g', { j with counted := j.counted + n }))
    ∧ (gaugePoison r l = false → gaugeArrive (gaugeAt r l) r.vd.number n = none →
      arriveBytes s j n = (r, { j with counted := j.counted + n, gd := true }))

/-- R107 to R110, R300: a team joins a cluster as the lowest member number that is free, receives 0xffffffff where the
sixteen are taken, reads its number again where it is a member, and raises 0x20a for another key; its store queue drains in
each case (R126). Leaving empties its membership. -/
def Obligations.Clusters : Prop :=
  ∀ (s : State) (n : Nat) (a : Opnd) (key : Word), Idle s → uni s 2 a = .ok key →
    let i : Instr := .clJoin (.s n) a
    let taken (m : Nat) : Bool := (clusterOf s key).any fun e => e.2 == m
    let d := drainStores s
    (∀ m : Nat, s.team.cluster = none → m < 16 → taken m = false → (∀ j < m, taken j = true) →
      ∃ st, Lands i s st (setSreg st.g n (BitVec.ofNat 32 m)) ∧ st.team.cluster = some (key, m) ∧ st.team.revoked = []
        ∧ st.g.stores = [])
    ∧ (s.team.cluster = none → (∀ m < 16, taken m = true) → Lands i s d (setSreg d.g n 0xffffffff))
    ∧ (∀ m : Nat, s.team.cluster = some (key, m) → Lands i s d (setSreg d.g n (BitVec.ofNat 32 m)))
    ∧ (∀ (k : Word) (m : Nat), s.team.cluster = some (k, m) → k ≠ key → Faults i s (.plain 0x20a 0))
    ∧ (s.team.cluster = none → Lands .clLeave s s s.g)
    ∧ (∀ (k : Word) (m : Nat), s.team.cluster = some (k, m) → Idle (leaveCluster s) → execMask (leaveCluster s) = execMask s →
      Lands .clLeave s (leaveCluster s) (leaveCluster s).g ∧ (leaveCluster s).team.cluster = none)

/-- R27, R301 to R303, R380: `push` writes its registers below a frame header, at once and not by the store queue (the model's
choice, notes/assumptions/13.md), and raises 0x300 where they do not fit; `pop`
takes the frame on top when it is the slot's own and its header names the same registers, restores them, and raises 0x301
on an empty stack and 0x302 for another entry. R394, R404: a poisoned word that it would restore raises its cause, and so does
a poisoned header (the model's choice, notes/assumptions/83.md). -/
def Obligations.SpillFrames : Prop :=
  ∀ (s : State) (a : Opnd) (nm1 : BitVec 4), Idle s →
    let n : Nat := nm1.toNat + 1
    let top := s.g.sumpTop
    let body := frameBody a n
    let base := top - (body + 16)
    (top + body + 16 ≤ s.team.kernel.sump - s.team.kernel.local_ →
      let w := putSumps s (frameCells top body (frameWords s a n) (frameHeader s a nm1))
      let st : State := { w with g := { w.g with sumpTop := top + body + 16 } }
      Lands (.push a nm1) s st st.g ∧ st.g.sumpTop = top + body + 16 ∧ st.g.vregs = s.g.vregs ∧ st.g.sregs = s.g.sregs)
    ∧ (s.team.kernel.sump - s.team.kernel.local_ < top + body + 16 → Faults (.push a nm1) s (.plain 0x300 0))
    ∧ (sumpTopEntry s = none → Faults (.pop a nm1) s (.plain 0x301 0))
    ∧ ∀ e : SumpEntry, sumpTopEntry s = some e →
      let own : Prop := e.why = 3 ∧ e.own = s.slot ∧ e.frame = (frameHeader s a nm1).frame
      (sumpPoison s (top - 16) = true → Faults (.pop a nm1) s (sumpRaise (top - 16)))
      ∧ (sumpPoison s (top - 16) = false → ¬ own → Faults (.pop a nm1) s (.plain 0x302 0))
      ∧ (∀ r : Raise, sumpPoison s (top - 16) = false → own → popPoison s a n base = some r → Faults (.pop a nm1) s r)
      ∧ (sumpPoison s (top - 16) = false → own → popPoison s a n base = none →
        let st : State := { s with g := { s.g with sumpTop := base } }
        Lands (.pop a nm1) s st (applyWrites st.g (popWrites s a n base)) ∧ st.mem = s.mem)

/-! ### Regrouping and launches (R37 to R44, R270, R282 to R284) -/

/-- R37 to R44, R270, R379: a group that meets R38 waits at `sift`, and raises 0x207 otherwise; at `brs.sift` it waits. Once
every participant waits, SIFT_COMMIT makes the new groups where all stand at one instruction and meet R38; groups that find no
storage left on their core wait for it (R57; the model's choice, notes/assumptions/104.md). R39: the new
groups of a sift hold each thread of the old ones once, in either form. -/
def Obligations.Sifts : Prop :=
  ((∀ (s : State) (home : Bool) (a c : Opnd) (n : Nat) (off x : Word),
     (siftSlot s s.g = some s.slot → exec (.sift home a n) s = .next (setCur s ((cur s).pause .sift)))
     ∧ (siftSlot s s.g ≠ some s.slot → Faults (.sift home a n) s (.plain 0x207 0))
     ∧ (uni s 4 c = .ok x → s.g.stepping = none → exec (.brsSift c off) s = .next (setCur s ((cur s).pause .branchSift))))
   ∧ ∀ (s t : State) (i : Instr), allArrived s = true → (∀ g ∈ participants s, g.halted = false ∧ g.stopped = false) →
       siftAgrees s (participants s) = true → siftQuiet s (participants s) = true →
       instrAt s (s.g.slot (waitingSlot s.g)) = some i → siftNow s (participants s) i = some t →
         (siftFits s.g.core t = true → exec .siftCommit s = .next t)
         ∧ (siftFits s.g.core t = false → exec .siftCommit s = .refused .notEnabled))
  ∧ (∀ (home : Bool) (g : Nat) (ts : List Thread), (∀ t ∈ ts, t.lane < 32) →
       ((regroup home g ts).flatten.filterMap id).Perm ts)

/-- R282 to R284: `launch` whose descriptors can be read, with room in the queue and the pool, queues one grid for each
valid descriptor, in lane order, and writes a new handle of kind 1, which resolves at once with code 0x506 where none is
valid; without an active lane it writes 0; a descriptor that cannot be read raises its cause; without room it waits. -/
def Obligations.Launches : Prop :=
  ∀ (s : State) (n : Nat) (a : Opnd) (base : Dword), Idle s → uniPair s 1 a = .ok base →
    let i : Instr := .launch (.h n) a
    let rs := (lanes32.filter (laneOn (execMask s))).map (readDesc s base.toNat)
    let kids := childrenOf s rs
    (execMask s = 0 → Lands i s s (setHreg s.g n 0))
    ∧ (∀ r : Raise, execMask s ≠ 0 → launchFault s base.toNat rs = some r → FaultsIn i s (countDescs s base.toNat rs) r)
    ∧ (execMask s ≠ 0 → launchFault s base.toNat rs = none → launchRoom s kids = none →
        exec i s = .next (setCur s ((cur s).pause .launch)))
    ∧ ∀ ks : List (Ask × Code × KernelDecl × Nat), execMask s ≠ 0 → launchFault s base.toNat rs = none →
        launchRoom s kids = some ks →
          let h := handleWord s.vd.number s.g.core 1 (nextSerial s.vd s.g.core 1)
          let st := (launchNow (countDescs s base.toNat rs) (.h n) (decide (kids.length < rs.length)) ks).st
          Lands i s st (setHreg st.g n h) ∧ st.g.stores = [] ∧ st.vd.gridSerial = s.vd.gridSerial + kids.length
            ∧ (∃ gs, st.vd.grids = s.vd.grids ++ gs
              ∧ gs.map (fun g => (g.kernel, g.prio, g.nx, g.ny, g.nz)) = kids.map (fun k => (k.1.kernel, k.1.prio, k.1.nx, k.1.ny, k.1.nz))
              ∧ ∀ g ∈ gs, g.next = 0 ∧ g.live = 0 ∧ g.origin = h)
            ∧ (kids = [] → st.vd.statuses.head? = some (h, 0xc0000506))

/-! ### Engines, matrix and assay instructions (R114, R135, R160 to R175, R304 to R314) -/

/-- R161, R163, R305, R312: an instruction that issues a card takes its words from sixteen scalar registers, and writes the
handle of the job or of its rejection; `mstore` makes a job of two words and its tile, which has not started; while the
bucket is full each waits. R136, R165, R306 to R308: `htest` reads a status word, which for a resolved job of scope `.fab` is
an acquire; `hcancel` resolves a job that has not started, or an intake load, as cancelled, asks a running job to stop,
leaves a sent follow-on, and takes a launch's children without a team off the queue; `hst` stores a handle register and `hld`
loads one. -/
def Obligations.CardsAndHandles : Prop :=
  (∀ (s : State) (n r : Nat), Idle s →
     let w := wordsNat (readRun s r 16)
     let issues (i : Instr) (k : JobKind) : Prop :=
       (bucketCount s s.g.core < Config.bucketJobs → Lands i s (takeCard s k w).1 (setHreg (takeCard s k w).1.g n (takeCard s k w).2))
         ∧ (Config.bucketJobs ≤ bucketCount s s.g.core → exec i s = .next (setCur s ((cur s).pause .jobIssue)))
     issues (.cpy (.h n) (.s r)) .cpy ∧ issues (.cpym (.h n) (.s r)) .cpym ∧ issues (.fill (.h n) (.s r)) .fill
       ∧ issues (.rowcpy (.h n) (.s r)) .rowcpy
       ∧ (∀ (stamp t : Bool) (slot : Byte), bucketCount s s.g.core < Config.bucketJobs →
         ∃ (st : State) (j : Job), Lands (.mstore stamp t (.h n) (.s r) slot) s st
             (setHreg st.g n (handleWord s.vd.number s.g.core 0 (nextSerial s.vd s.g.core 0)))
           ∧ st.vd.jobs = s.vd.jobs ++ [j] ∧ j.kind = .mstore s.g.sub t slot.toNat ∧ j.started = false
           ∧ j.card = BitVec.ofNat 512 (wordsNat (readRun s r 2) + stamp.toNat * 2 ^ 64)
           ∧ j.handle = handleWord s.vd.number s.g.core 0 (nextSerial s.vd s.g.core 0))
       ∧ ∀ (stamp t : Bool) (slot : Byte), Config.bucketJobs ≤ bucketCount s s.g.core →
         exec (.mstore stamp t (.h n) (.s r) slot) s = .next (setCur s ((cur s).pause .jobIssue)))
  ∧ (∀ (s : State) (n m : Nat) (spc : HSpace) (a : Opnd), Idle s →
       let h := readH s m
       (Lands (.htest (.s n) (.h m)) s (observe s h) (setSreg s.g n (statusOf s h)) ∧ (observe s h).mem = s.mem
         ∧ (s.vd.fabJobs.contains h = false → observe s h = s) ∧ (resolved s h = false → observe s h = s))
       ∧ (let st := cancelWork s h
          Lands (.hcancel (.h m)) s st s.g
          ∧ (∀ j, s.vd.jobs.find? (fun j => j.handle = h) = some j →
              (j.sent = true → st = s)
              ∧ (j.sent = false → j.started = true → st.vd.jobs = s.vd.jobs.map fun x => if x.handle = h then { x with cancel := true } else x)
              ∧ (j.sent = false → j.started = false → st.vd.statuses.head? = some (h, 0x80000000) ∧ ∀ x ∈ st.vd.jobs, x.handle ≠ h))
          ∧ ((∀ j ∈ s.vd.jobs, j.handle ≠ h) →
              (∀ l, s.vd.launches.find? (fun l => l.handle = h) = some l →
                ∀ g ∈ st.vd.grids, l.children.contains g.serial = true → g.live = 0 → g.next ≠ 0)
              ∧ ((∀ l ∈ s.vd.launches, l.handle ≠ h) → (∀ l ∈ s.vd.loads, l.handle ≠ h) → st = s)
              ∧ ((∀ l ∈ s.vd.launches, l.handle ≠ h) → (∃ l ∈ s.vd.loads, l.handle = h) → st.vd.statuses.head? = some (h, 0x80000000))))
       ∧ (∀ (ea : Nat) (l : Loc), handlePlace s spc a 2 = .ok (ea, l) →
           let st := pushStore s (hspace spc) (cellsOf l (leBytes 8 (readH s m).toNat))
           Lands (.hst spc a (.h m)) s st st.g ∧ st.mem = s.mem)
       ∧ (∀ (ea : Nat) (l : Loc), handlePlace s spc a 1 = .ok (ea, l) →
           let st := countReads s [(l, 8)]
           (∀ bs : List Byte, poisonedWindow st [(l, 8)] = none → oneBytes st (hspace spc) ea 8 l = .ok bs →
             Lands (.hld spc (.h n) a) s st (setHreg s.g n (BitVec.ofNat 64 (leNat bs))))
           ∧ (∀ r : Raise, poisonedWindow st [(l, 8)] = none → oneBytes st (hspace spc) ea 8 l = .error r →
             FaultsIn (.hld spc (.h n) a) s st r)
           ∧ ∀ t : TRef, poisonedWindow st [(l, 8)] = some t → exec (.hld spc (.h n) a) s = .next (loseTeam st t 0x600 1))
       ∧ (∀ r : Raise, handlePlace s spc a 2 = .error r → Faults (.hst spc a (.h m)) s r)
       ∧ ∀ r : Raise, handlePlace s spc a 1 = .error r → Faults (.hld spc (.h n) a) s r)

/-- R135, R162, R165: a card that R162 does not accept is no job: its handle reads as failed at once, with code 0x500 or, for
an extent outside its space, 0x402; an accepted card is one more job of the device, which has not started, holds the card's
regions, and follows the unfinished jobs of its die that it has an edge with, and no others. Nothing of main memory changes
but by the release of its scope. -/
def Obligations.CardsTaken : Prop :=
  ∀ (s : State) (k : JobKind) (w : Nat), s.vd.number < 64 → s.g.core < 512 → mrising s.vd.serials = true →
    nextSerial s.vd s.g.core 0 < 2 ^ 46 → nextSerial s.vd s.g.core 0 ≠ 0 →
    let h := handleWord s.vd.number s.g.core 0 (nextSerial s.vd s.g.core 0)
    let r := takeCard s k w
    let c : Card := ⟨w⟩
    let d := releaseAt s (scopeOf c.scope)
    let v := (newHandle d s.g.core 0).1
    unresolved s.vd h = false →
      r.2 = h ∧ r.1.mem = d.mem
      ∧ (cardOk v k c = false → statusOf r.1 h = 0xc0000500 ∧ r.1.vd.jobs.length = s.vd.jobs.length)
      ∧ (cardOk v k c = true → extentsOk v k c = false → statusOf r.1 h = 0xc0000402 ∧ r.1.vd.jobs.length = s.vd.jobs.length)
      ∧ (cardOk v k c = true → extentsOk v k c = true →
          statusOf r.1 h = 0 ∧ ∃ j, r.1.vd.jobs = s.vd.jobs ++ [j] ∧ j.handle = h ∧ j.started = false ∧ j.kind = k
            ∧ j.reads = c.readRegions k ∧ j.writes = [c.dstExtent]
            ∧ ∀ x : Dword, x ∈ j.preds ↔ ∃ y ∈ s.vd.jobs, y.handle = x ∧ y.core / 128 = s.g.core / 128
                ∧ edge s.team.ref j.reads j.writes y = true)

/-- R171, R172, R309, R310, R382: a group that issues `mma` or `mma.g` waits for its quad; when the four have issued one
command whose fields and entries pass, and the sequencers have room, the pass is queued and the instruction is in flight in
each of the four; a command that fails R309 or R175 raises 0x20c with DETAIL 3 in each. `mzero` queues its own. R394, R404: a
command whose index lists hold poison raises 0x600 in each (the model's choice, notes/assumptions/96.md). A group of no quad
raises DETAIL 1 in itself and in each member that waits, and commands that differ DETAIL 2 in each, or DETAIL 3 where they differ
in their form alone (M2.G is then wrong for one); while a sequencer is full the slot waits. A slot that waits for its quad has
given up its port (the model's choice, notes/assumptions/91.md). -/
def Obligations.MatrixCommands : Prop :=
  (∀ (s : State) (g : Bool) (r : Nat), (s.g.offered = none ∨ s.g.offerSlot = s.slot) →
    let i : Instr := if g then .mmaG (.s r) else .mma (.s r)
    let m := (readRun s r 3)
    let c : Bool × Word × Word × Word := s.g.offered.getD (g, m.getD 0 0, m.getD 1 0, m.getD 2 0)
    let here := setCur { s with g := { s.g with offered := some c, offerSlot := s.slot } }
      ((Group.slot { s.g with offered := some c, offerSlot := s.slot } s.slot).pause .accept)
    let k := coreIdx here here.g.core
    let p := newPass here here.g.role (here.g.idx / 4) [0, 1, 2, 3] c.2.1 c.2.2.1 c.2.2.2 none 0
    (quadHere here = none → exec i s = .next ((quadWaiters here).foldl (fun t x => matrixFault t x.ref 1) here))
    ∧ ∀ gs : List Group, quadHere here = some gs →
      ((∃ x ∈ gs, x.offered = none) → exec i s = .next here)
      ∧ ((∀ x ∈ gs, x.offered ≠ none) → (∃ x ∈ gs, x.offered.map (·.2) ≠ some c.2) →
          exec i s = .next (gs.foldl (fun t x => matrixFault t x.ref 2) here))
      ∧ ((∀ x ∈ gs, x.offered.map (·.2) = some c.2) → (∃ x ∈ gs, x.offered = some (true, c.2)) →
          (∃ x ∈ gs, x.offered = some (false, c.2)) → exec i s = .next (gs.foldl (fun t x => matrixFault t x.ref 3) here))
      ∧ (∀ a : Nat, (∀ x ∈ gs, x.offered = some c) → gs ≠ [] → commandOk here c.1 c.2.2.1 c.2.2.2 = true → listPoison here p = some a →
          exec i s = .next (gs.foldl (fun t x => matrixRaise t x.ref (poisonRaise .sh 0 a [])) here))
      ∧ ((∀ x ∈ gs, x.offered = some c) → commandOk here c.1 c.2.2.1 c.2.2.2 = true → listPoison here p = none → passOk here p = true →
          (sequencersFull here k [0, 1, 2, 3] = false →
            exec i s = .next (gs.foldl (fun t x => acceptGroup i k p.serial t x.ref)
              (queuePass (gs.foldl (fun t x => withGroup t x.ref drainStores) here) k p)))
          ∧ (sequencersFull here k [0, 1, 2, 3] = true → exec i s = .next (setCur here ((cur here).pause .pass))))
      ∧ ((∀ x ∈ gs, x.offered = some c) → gs ≠ [] →
          (commandOk here c.1 c.2.2.1 c.2.2.2 = false ∨ listPoison here p = none ∧ passOk here p = false) →
          exec i s = .next (gs.foldl (fun t x => matrixFault t x.ref 3) here)))
  ∧ ∀ (s : State) (t : Bool), Idle s →
    let k := coreIdx s s.g.core
    let p := newPass s 0 0 [s.g.sub] 0 0 0 (some t) 0
    (sequencersFull s k [s.g.sub] = false → ∃ u, exec (.mzero t) s = .next u ∧ InFlightOnly (.mzero t) (queuePass s k p) u)
    ∧ (sequencersFull s k [s.g.sub] = true → exec (.mzero t) s = .next (setCur s ((cur s).pause .pass)))

/-- R169 to R174, R311, R382, R383: PASS_START, PASS_STEP and PASS_RETIRE of an `mzero` and of a pass sent by instruction or as
a follow-on: one whose entries or lists fail takes no step; one whose pages fail takes none, and raises the cause in its quad
where it was sent by instruction; a follow-on whose A data lies outside its job's regions takes none and fails with 0x501; and
another takes its steps whole. A list found poisoned as the pass starts raises 0x600 in the quad (the model's choice,
notes/assumptions/96.md). The job of a follow-on takes its outcome and its stamp at the retirement (the stamp of one that took no
step is the model's choice, notes/assumptions/90.md); `mrd` reads one row of 32 columns of an accumulator tile into each of four registers, and never faults (R385; the row
is free where its operand is not uniform, notes/assumptions/62.md). R394, R400: a step that would read poison is not made, and
its quad takes the cause, or the team in whose window the poison lies is lost. R175, R313: `assay.set` writes
an entry whose reserved bits are 0 and raises 0x20d for another; `assay.get` reads it into sixteen scalar registers, and
`assay.inv` clears it. -/
def Obligations.MatrixPasses : Prop :=
  ((∀ (s u : State) (t : TRef) (c k : Nat) (p : Pass), focusPass s t c k = some (u, p) → u.team.mode = .running →
     let core := natAt u.team.cores c
     let now := cycle32 u (stampCore u p core)
     let free : Prop := ∀ i < (passesAt u c).length, waitsFor (passesAt u c) k i = false
     (∀ z : Bool, p.zero = some z → p.started = false → free →
       exec (.passStart t c k) s = .next (replacePass u c k { p with started := true, steps := 1, t2 := now }))
     ∧ (p.zero = none → p.started = false → free →
       (∀ g, some g ∈ quadGroups u t core p.role p.quad → bInFlight p g = false) →
       let job : Option Job := u.vd.jobs.find? fun j => j.handle = p.handle
       let q : Pass := { startedPass u p with t2 := now }
       let v := repairReads u (passReads q)
       let inside : Prop := p.handle = 0 ∨ ∀ j, job = some j → insideFootprint q j = true
       (∀ a : Nat, listPoison u p = some a →
         let b : Pass := { q with steps := 0, locked := false, failed := some (0x406, BitVec.ofNat 64 a) }
         exec (.passStart t c k) s = .next (passRaise (replacePass u c k b) b c 0x600 1 a))
       ∧ (listPoison u p = none → q.failed ≠ none → exec (.passStart t c k) s = .next (replacePass u c k q))
       ∧ (listPoison u p = none → q.failed = none → ¬ inside → exec (.passStart t c k) s
           = .next (replacePass u c k { q with steps := 0, locked := false, failed := some (0x501, 0) }))
       ∧ (listPoison u p = none → q.failed = none → inside → passFault v q = none →
           exec (.passStart t c k) s = .next (replacePass v c k q))
       ∧ ∀ (f : Chk) (a : Nat), listPoison u p = none → q.failed = none → inside → passFault v q = some (f, a) →
         let b : Pass := { q with steps := 0, locked := false, failed := some (f.code, BitVec.ofNat 64 a) }
         exec (.passStart t c k) s = .next (if p.handle = 0 then passRaise (replacePass v c k b) b c f.code f.detail a
           else replacePass v c k b))
     ∧ (∀ z : Bool, p.zero = some z → p.started = true → p.step = 0 → p.steps = 1 → p.failed = none →
       ∃ v, exec (.passStep t c k) s = .next v ∧ (∀ row col : Nat, row < 128 → col < 128 →
         tileAt v.team c (p.subs.headD 0) z.toNat row col = 0))
     ∧ (p.zero = none → p.started = true → p.step < p.steps → p.failed = none →
       let v := countStep (repairReads u (stepReads p p.step)) (stepReads p p.step)
       (passPoison v p p.step = none →
         exec (.passStep t c k) s = .next (countCells
           (replacePass { v with team := stepTiles v p (quadGroups v t core p.role p.quad) p.step c } c k
             { p with step := p.step + 1, t3 := now }) (if p.gathered then 32768 else 131072)))
       ∧ ∀ spc a : Nat, passPoison v p p.step = some (spc, a) →
         (∀ o : TRef, otherOwner v spc a = some o → exec (.passStep t c k) s = .next (loseTeam v o 0x600 1))
         ∧ (otherOwner v spc a = none → let b : Pass := { p with failed := some (0x406, BitVec.ofNat 64 a) }
           exec (.passStep t c k) s = .next (passRaise (replacePass v c k b) b c (if spc = 0 then 0x406 else 0x600) spc a)))
     ∧ (p.started = true → (p.failed ≠ none ∨ p.steps ≤ p.step) →
       let r := setPasses u c (dropAt (passesAt u c) k)
       let took (j : Job) : Job := { j with behind := [], code := (p.failed.map (·.1)).getD j.code }
       let w : State := { r with vd := { r.vd with jobs := r.vd.jobs.map fun j => if j.handle = p.handle then took j else j } }
       let job : Option Job := w.vd.jobs.find? fun j => j.handle = p.handle
       let stamped (j : Job) : Prop := j.card.toNat / 2 ^ 20 % 2 = 1
       (p.handle = 0 → exec (.passRetire t c k) s = .next r)
       ∧ (p.handle ≠ 0 → (∀ j, job = some j → ¬ stamped j) → exec (.passRetire t c k) s = .next w)
       ∧ ∀ j, p.handle ≠ 0 → job = some j → stamped j → exec (.passRetire t c k) s
           = .next (writeStamp w (stampRecord w.team j.core 0 (j.card.toNat / 2 ^ 80 % 2 ^ 16) j.t0 j.t1 p.t2
             (if p.step = 0 then cycle32 w j.core else p.t3)))))
   ∧ ∀ (s : State) (t : Bool) (n : Nat) (a : Opnd), Idle s →
     let reads (row : Nat) : Prop :=
       Lands (.mrd t (.v n) a) s s ((List.range 4).foldl (fun g k => putVec s g (n + k) (fun _ => .general) fun l =>
         tileAt s.team (coreIdx s s.g.core) s.g.sub t.toNat row (32 * k + l)) s.g)
     (∀ x : Word, uni s 1 a = .ok x → reads (x.toNat % 128)) ∧ ∀ r : Raise, uni s 1 a = .error r → ∃ row < 128, reads row)
  ∧ (∀ (s : State) (n : Nat) (slot : Byte), Idle s →
       let w := wordsNat (readRun s n 16)
       let st (x : BitVec 512) : State := { s with vd := { s.vd with assay := mset 0 s.vd.assay slot.toNat x } }
       (Entry.clean ⟨w⟩ = true → Lands (.assaySet (.s n) slot) s (st (BitVec.ofNat 512 w)) s.g)
       ∧ (Entry.clean ⟨w⟩ = false → Faults (.assaySet (.s n) slot) s (.plain 0x20d 0))
       ∧ Lands (.assayInv slot) s (st 0) s.g
       ∧ Lands (.assayGet (.s n) slot) s s ((List.range 16).foldl (fun g k =>
           setSreg g (n + k) (BitVec.ofNat 32 ((mget 0 s.vd.assay slot.toNat).toNat / 2 ^ (32 * k)))) s.g))

/-! ### Traps, control registers and system instructions (R65 to R71, R315 to R327, R363 to R370) -/

/-- R317, R428: `trap` and, while nothing is ARMED, `brk` raise a cause of kind T after the slot has gone on: 0x001 with the
literal as DETAIL and `%exec` in TRAPMASK, and 0x004. `brk` halts the team where ARMED is not 0. R318: `rti` clears
PRIV.TRAP and resumes its slot at TRAPNEXT: inside the clause that trap entry left, or, where `ctl.wr` has written TRAPNEXT,
as at a branch target; outside a handler it raises 0x208. -/
def Obligations.TrapsAndReturns : Prop :=
  (∀ s : State,
     (∀ n : Byte, exec (.trap n) s = .next (raise (setCur s ((cur s).moveTo s.now (nextAddr (.trap n) (cur s))))
       { code := 0x001, kind := .trap, detail := n, slot := s.slot, pc := (cur s).pc, next := nextAddr (.trap n) (cur s)
         mask := execMask s, dst := 0x3ff, addr := none, lanes := [] }))
     ∧ (mainNat s (ctxPart s.vd mailPart + 16) 4 = 0 →
       exec .brk s = .next (raise (setCur s ((cur s).moveTo s.now (nextAddr .brk (cur s))))
         { code := 0x004, kind := .trap, detail := 0, slot := s.slot, pc := (cur s).pc, next := nextAddr .brk (cur s), mask := 0
           dst := 0x3ff, addr := none, lanes := [] }))
     ∧ (mainNat s (ctxPart s.vd mailPart + 16) 4 ≠ 0 → Quiet s →
       exec .brk s = .next (haltGroup (advance .brk s s.g) { why := 1, wp := 0xff, hits := 0, team := true, clauseOf := none })))
  ∧ ((∀ s : State, inHandler s.g = true → trapSlot s.g = s.slot → s.g.inflight = [] → s.g.pendA = none → s.g.pendB = none →
       s.g.entry = none →
       ∃ t, exec .rti s = .next t ∧ inHandler t.g = false ∧ (t.g.slot s.slot).mask = execMask s ∧ t.g.vregs = s.g.vregs
         ∧ t.g.sregs = s.g.sregs ∧ t.g.trappc = s.g.trappc ∧ t.g.fps = s.g.fps ∧ t.mem = s.mem
         ∧ (t.g.slot s.slot).pc = BitVec.ofNat 57 (s.g.trapnext.toNat / 8 * 8)
         ∧ (s.g.nextWritten = true → (t.g.slot s.slot).stand = .arrived)
         ∧ (s.g.nextWritten = false → ∀ w, fetchWord s s.g.trapHdr = .ok w → (t.g.slot s.slot).hdr = s.g.trapHdr))
     ∧ ∀ s : State, inHandler s.g = false → Faults .rti s (.plain 0x208 0))

/-- R366, R71: entry to the user handler writes the trap registers, sets PRIV.TRAP, leaves the masks of the slots, and the
slot stands at the handler's header; TRAPADDR keeps its value where the cause has no address. Nothing of memory changes.
R171, R366, R367: while instructions of the group are in flight, or a pass of its quad locks the v511 that entry writes, a
cause waits, and TRAP_ENTRY enters it once they have completed; while the partner's cause is handled, a cause of kind T is held and one of kind F is dropped. -/
def Obligations.UserTraps : Prop :=
  (∀ (s : State) (c : Cause), drained s c = true → s.g.entry = none → c.kind ≠ .sup → inHandler s.g = false →
     s.g.trapvec.getLsbD 0 = true → handlerOk s = true →
       let t := raise s c
       t.g.trappc = c.pc.setWidth 64 ∧ t.g.trapnext = BitVec.ofNat 64 (c.next.toNat / 8 * 8) ∧ t.g.trapmask = c.mask
       ∧ t.g.trapdst = c.dst
       ∧ t.g.trapaddr = c.addr.getD s.g.trapaddr
       ∧ (c.code < 2 ^ 12 → t.g.trapcause.toNat = c.code + 2 ^ 15 * slotBit c.slot + 2 ^ 16 * c.detail.toNat)
       ∧ inHandler t.g = true ∧ (t.g.slot c.slot).pc = BitVec.ofNat 57 (s.g.trapvec.toNat / 8 % 2 ^ 54 * 8)
       ∧ (t.g.slot c.slot).stand = .header ∧ t.g.a.mask = s.g.a.mask ∧ t.g.b.mask = s.g.b.mask ∧ t.g.sregs = s.g.sregs
       ∧ t.g.hregs = s.g.hregs ∧ t.g.fpc = s.g.fpc ∧ t.g.fps = s.g.fps ∧ t.g.exited = s.g.exited ∧ t.mem = s.mem
       ∧ ((roleOf s).vregs ≠ 512 → t.g.vregs = s.g.vregs))
  ∧ ((∀ (s : State) (c : Cause), drained s c = false → s.g.entry = none → inHandler s.g = false →
       raise s c = { s with g := { s.g with entry := some c } })
     ∧ (∀ (s : State) (c : Cause), drained s c = true ↔ s.g.inflight = [] ∧ ¬ ((roleOf s).vregs = 512 ∧ serviceOf s c = 0
         ∧ ∃ p ∈ mget [] s.team.passes (s.team.cores.idxOf s.g.core), p.locked = true ∧ p.zero = none ∧ p.role = s.g.role
           ∧ p.quad = s.g.idx / 4 ∧ p.breg < 512 ∧ 511 < p.breg + 16))
     ∧ (∀ (s : State) (c : Cause), drained s c = true → s.g.entry = some c → serviceOf s c = 0 →
       exec .trapEntry s = .next (afterStep (enterUser (abandonSift { s with g := { s.g with entry := none } }) c)))
     ∧ ∀ (s : State) (c : Cause), inHandler s.g = true → trapSlot s.g ≠ c.slot →
       (c.kind = .trap → raise s c = { s with g := setPend s.g c.slot (some c) }) ∧ (c.kind = .fault → raise s c = abandonSift s))

/-- R369, R370: a cause goes to device firmware when it is of kind S, inside a user handler, without an enabled handler, or
when the handler's word is no header; that a cause of kind S inside a handler keeps SVC 3 is the model's choice
(notes/assumptions/49.md). Firmware logs a cause and ends the team, and SUPERVISOR_ENTRY does so for one that has waited. R403:
where the handler's fetch meets a poisoned page-table entry, firmware rewrites it, and the cause waits to be entered again (the
model's choice, notes/assumptions/102.md). R394, R404: the fetch of a poisoned word raises 0x406 (the model's choice,
notes/assumptions/100.md). R416: TEAM_HALT stops the groups of a halting team that still run, in the order of `%gid`, and the halt is over. -/
def Obligations.SupervisorEntries : Prop :=
  ((∀ (s : State) (c : Cause), (c.kind = .sup → serviceOf s c = 3)
     ∧ (c.kind ≠ .sup → inHandler s.g = true → serviceOf s c = 2)
     ∧ (c.kind ≠ .sup → inHandler s.g = false → s.g.trapvec.getLsbD 0 = false → serviceOf s c = 1)
     ∧ (c.kind ≠ .sup → inHandler s.g = false → s.g.trapvec.getLsbD 0 = true → handlerOk s = false → serviceOf s c = 4))
   ∧ (∀ (s : State) (c : Cause) (svc : Nat), s.g.ref.team = s.team.ref → s.g.entry = none → s.team.ending = false → (c.code ≠ 0x406 ∨ c.detail ≠ 8) → c.code ≠ 0x600 →
     let t := enterSupervisor s c svc
     t.team.ending = true ∧ t.team.relaunch = false ∧ t.team.passes = sentPasses s.team.passes ∧ t.vd.logged = s.vd.logged + 1 ∧ t.g.entry = none
       ∧ (inHandler s.g = false → t.g.trappc = c.pc.setWidth 64 ∧ t.g.trapmask = c.mask)
       ∧ (inHandler s.g = true → t.g.trappc = s.g.trappc ∧ t.g.trapmask = s.g.trapmask ∧ t.g.trapcause = s.g.trapcause))
   ∧ ∀ (s : State) (c : Cause), s.g.inflight = [] → s.g.entry = some c → serviceOf s c ≠ 0 →
     exec .supervisorEntry s = .next (afterStep (afterService (enter s c))))
  ∧ ((∀ (s : State) (c : Cause) (pa : Nat), drained s c = true → s.g.entry = none → inHandler s.g = false → serviceOf s c = 4 →
       walk s s.vd (BitVec.ofNat 57 (s.g.trapvec.toNat / 8 % 2 ^ 54 * 8) : Addr).toNat = .poisoned pa →
         let u := abandonSift { s with g := { s.g with entry := none } }
         raise s c = repairTable { u with g := { u.g with entry := some c } } pa)
     ∧ (∀ (s : State) (pa : Nat), repairFails s = false → repairTable s pa = { s with poison := sdel s.poison (pa / 32) })
     ∧ ∀ (s : State) (a : Addr) (pa : Nat) (w r : Bool), walk s s.vd a.toNat = .leaf pa false true w r →
       (mainPoison s pa = true → fetchWord s a = .error (0x406, 0))
       ∧ (mainPoison s pa = false → fetchWord s a = .ok (BitVec.ofNat 64 (mainNat s pa 8))))
  ∧ (∀ (s u : State) (t : TRef) (why : Nat), focusTeam s t = some u → u.team.halting = some why → u.team.ending = false →
       u.team.mode ≠ .lost →
         let v := (inOrder ((groupsOf u t).filter fun g => g.active && !g.halted)).foldl (fun s g => withGroup s g.ref fun s =>
           haltNow s { why := why, wp := 0xff, hits := 0, team := false, clauseOf := none }) u
         exec (.teamHalt t) s = .next (afterStep { v with team := { v.team with halting := none } }))

/-- R65 to R71, R319, R320: `ctl.rd` writes what the unprivileged view reads, 64-bit registers to a pair; `ctl.wr` writes
the RW fields of FPC, FPS, STS, TRAPNEXT and TRAPVEC and nothing of the others. R140, R141, R151 to R154, R176, R321 to
R326: `meter.rd` reads a count of the team, `sl.bind` and `sl.unbind` write their handle or raise 0x20b with the slot,
`sl.stat` reads the status record of a slot, or zeros, and the stamps write one record. R403: a walk of `sl.bind` that meets a
poisoned page-table entry raises 0x406, for which firmware rewrites the entry. -/
def Obligations.SystemInstructions : Prop :=
  (∀ (s : State) (n : Nat) (a : Opnd) (r : CReg), Idle s → s.g.entry = none →
     Lands (.ctlRd (.s n) r) s s (putSca s.g n (r.regs == 2) (ctlRead s r))
     ∧ (∀ x : Dword, uniW s 1 (r.regs == 2) a = .ok x → exec (.ctlWr r a) s = .next (advance (.ctlWr r a) s (ctlWrite s.g r x)))
     ∧ ∀ x : Dword,
       (ctlWrite s.g .fpc x).fpc = x.setWidth 32 &&& 0x1c1f ∧ (ctlWrite s.g .fps x).fps = x.setWidth 32 &&& 0x1f
       ∧ (ctlWrite s.g .sts x).sts = x.setWidth 32 &&& 3
       ∧ (ctlWrite s.g .trapnext x).trapnext = x &&& 0x01fffffffffffff8 ∧ (ctlWrite s.g .trapnext x).nextWritten = true
       ∧ (ctlWrite s.g .trapvec x).trapvec = x &&& 0x01fffffffffffff9
       ∧ ∀ q ∈ [CReg.cycle, .vdid, .priv, .trappc, .trapmask, .trapcause, .trapdst, .trapaddr], ctlWrite s.g q x = s.g)
  ∧ (∀ (s : State) (n r : Nat) (a : Opnd) (slot : BitVec 4), Idle s → s.g.entry = none →
       let b : BindDesc := ⟨wordsNat (readRun s r 10)⟩
       (∀ k : Nat, Lands (.meterRd (.s n) k) s s (setSpair s.g n (BitVec.ofNat 64 (teamCount s k))))
       ∧ (∀ va : Nat, tornBind s b = some va → Faults (.slBind (.h n) (.s r)) s (tornRaise va))
       ∧ (tornBind s b = none → let rd := countImages s b
          (∀ (st : State) (h : Dword), bindRegion (drainStores rd) b = some (st, h) →
            Lands (.slBind (.h n) (.s r)) s (addDieJob st h) (setHreg st.g n h))
          ∧ (bindRegion (drainStores rd) b = none → FaultsIn (.slBind (.h n) (.s r)) s rd (.plain 0x20b b.slot)))
       ∧ (∀ sl : Sluice, mget? s.vd.bindings slot.toNat = some sl → sl.unbinding = false →
         ∃ (st : State) (sl' : Sluice), Lands (.slUnbind (.h n) slot) s st
             (setHreg s.g n (handleWord s.vd.number s.team.die 2 (nextSerial s.vd s.team.die 2)))
           ∧ mget? st.vd.bindings slot.toNat = some sl' ∧ sl'.unbinding = true ∧ st.mem = s.mem)
       ∧ (∀ sl : Sluice, mget? s.vd.bindings slot.toNat = some sl → sl.unbinding = true →
         Faults (.slUnbind (.h n) slot) s (.plain 0x20b slot.toNat))
       ∧ (mget? s.vd.bindings slot.toNat = none → Faults (.slUnbind (.h n) slot) s (.plain 0x20b slot.toNat))
       ∧ Lands (.slStat (.s n) slot) s s ((List.range 8).foldl (fun g k => setSreg g (n + k)
           (BitVec.ofNat 32 (((mget? s.vd.bindings slot.toNat).map bindStatus).getD 0 / 2 ^ (32 * k)))) s.g)
       ∧ ∀ x : Word, uni s 1 a = .ok x → Lands (.stamp a) s (stampMark s x) s.g ∧ Lands (.stampSync a) s (stampMark s x) s.g)

/-! ### Debug instructions (R409 to R430) -/

/-- R409, R423: `wp.set` answers a status; the canary takes its slots with it and applies from FLAG_CLEAR on (that the slots are
taken at once is the model's choice, notes/assumptions/50.md); `wp.clr` disarms one; `wp.rd` reads its word, its hits and a
status. -/
def Obligations.CanarySlots : Prop :=
  ∀ (s : State) (n r : Nat) (slot : BitVec 4) (b : Opnd) (t : Option Team), Idle s → refTeam s b = .ok t →
    let c : Canary :=
      { word := BitVec.ofNat 128 (wordsNat (readRun s r 4)), hits := 0, vd := s.vd.number, team := none, since := s.now
        placing := some s.draw }
    (∀ st : Nat, setStatus s c t slot.toNat = st → st ≠ 0 → Lands (.wpSet (.s n) slot (.s r) b) s s (setSreg s.g n (BitVec.ofNat 32 st)))
    ∧ (setStatus s c t slot.toNat = 0 → ∃ u v, exec (.wpSet (.s n) slot (.s r) b) s = .next u ∧ exec (.flagClear 0) u = .next v
        ∧ v.g.sregs = (setSreg s.g n 0).sregs ∧ v.g.vregs = s.g.vregs ∧ v.mem = s.mem
        ∧ ∀ k ∈ placesOf s c.wide (if c.wide then none else t),
            (∃ x, mget? (coreAt u k).canaries slot.toNat = some x ∧ x.word = c.word ∧ ∀ at_, x.applies at_ = false)
            ∧ ∃ x, mget? (coreAt v k).canaries slot.toNat = some x ∧ x.word = c.word ∧ x.hits = 0
              ∧ ∀ at_, x.applies at_ = decide (u.now ≤ at_))
    ∧ (reached s t slot.toNat = .ok none → Lands (.wpClr (.s n) slot b) s s (setSreg s.g n 0))
    ∧ (∀ st : Nat, reached s t slot.toNat = .error st → Lands (.wpClr (.s n) slot b) s s (setSreg s.g n (BitVec.ofNat 32 st))
        ∧ Lands (.wpRd (.s n) slot b) s s
          ((List.range 8).foldl (fun g k => setSreg g (n + k) (BitVec.ofNat 32 (st * 2 ^ 160 / 2 ^ (32 * k)))) s.g))
    ∧ ∀ x : Canary, reached s t slot.toNat = .ok (some x) →
      let own := if x.team.isNone then none else t
      let st := bankCanary (disarmOn s (placesOf s x.team.isNone own) x.team slot.toNat) own slot.toNat x.disarm
      Lands (.wpClr (.s n) slot b) s st (setSreg s.g n 0)
      ∧ Lands (.wpRd (.s n) slot b) s s
        ((List.range 8).foldl (fun g k => setSreg g (n + k)
          (BitVec.ofNat 32 ((x.word.toNat + min (hitsOf s t x slot.toNat) 0xffffffff * 2 ^ 128) / 2 ^ (32 * k)))) s.g)

/-- R416, R424, R425, R429, R430: `dbg.halt` begins the halt of another team, whose groups may issue three more
instructions; `dbg.run`, `dbg.run.unpark` and the steps are asked of a halted team other than the issuing one, and have no
effect on another; what is asked is made in order, each once the step before it has ended (that a run waits so too is the
model's choice, notes/assumptions/97.md). R425, R437: a step of a saved team places it first, and is none where no set fits, where
no group has the number or where the selector does not fit the group. R426, R427: `dbg.rd` stores a unit of a halted team to its buffer and answers the
unit's tag; `dbg.wr` writes one from its buffer; `dbg.list` stores the entries of the device's teams and answers their number.
A team that is not halted answers 4, no team 2, and a unit that is none 3, with nothing stored. -/
def Obligations.DebugInstructions : Prop :=
  (∀ (s : State) (b c : Opnd) (sel : Word), Quiet s → uni s 3 c = .ok sel →
     let does (i : Instr) (st : State) : Prop := Quiet st → exec i s = .next (advance i st st.g)
     (refTeam s b = .ok none → does (.dbgHalt b) s ∧ does (.dbgRun b) s ∧ does (.dbgRunUnpark b) s ∧ does (.dbgStep b c) s
       ∧ does (.dbgStepLane b c) s)
     ∧ ∀ t : Team, refTeam s b = .ok (some t) →
       let d := releaseAt s .pkg
       let asked (u : State) (a : DebugAsk) : State :=
         nextSteps (t.steps.length + 1) (onTeam u t.ref fun x => { x with steps := x.steps ++ [a] }) t.ref
       (t.ref = s.team.ref ∨ t.halted = true ∨ t.halting ≠ none ∨ t.mode = .lost → does (.dbgHalt b) s)
       ∧ (t.ref ≠ s.team.ref → t.halted = false → t.halting = none → t.mode ≠ .lost → does (.dbgHalt b) (startHalt s t.ref 2))
       ∧ (t.halted = false → does (.dbgRun b) s ∧ does (.dbgRunUnpark b) s)
       ∧ (t.halted = false ∨ t.ref = s.team.ref → does (.dbgStep b c) s ∧ does (.dbgStepLane b c) s)
       ∧ (t.halted = true → t.ref = s.team.ref → does (.dbgRun b) d ∧ does (.dbgRunUnpark b) d)
       ∧ (t.halted = true → t.ref ≠ s.team.ref → does (.dbgRun b) (asked d (.run false)) ∧ does (.dbgRunUnpark b) (asked d (.run true))
         ∧ does (.dbgStep b c) (asked s (.step false sel)) ∧ does (.dbgStepLane b c) (asked s (.step true sel))))
  ∧ (∀ (s : State) (t : Team) (a : DebugAsk) (rest : List DebugAsk) (n : Nat), teamOf s t.ref = some t → t.steps = a :: rest →
       ((stepRuns s t.ref = true ∨ t.stop ≠ none) → nextSteps (n + 1) s t.ref = s)
       ∧ (stepRuns s t.ref = false → t.stop = none →
         let u := onTeam s t.ref fun x => { x with steps := rest }
         nextSteps (n + 1) s t.ref = nextSteps n (makeAsk u t a) t.ref))
  ∧ (∀ (s : State) (t : Team), (t.halted = false ∨ t.ending = true → ∀ a : DebugAsk, makeAsk s t a = s)
       ∧ (t.halted = true → t.ending = false → makeAsk s t (.run false) = runTeam s t false
         ∧ (unparkFits s t = true → makeAsk s t (.run true) = runTeam s t true)
         ∧ (unparkFits s t = false → makeAsk s t (.run true) = s)
         ∧ ∀ (lane : Bool) (sel : Word), let made := makeAsk s t (.step lane sel)
           ((∀ g ∈ groupsOf s t.ref, g.ref.gid ≠ sel.toNat % 512) → made = s)
           ∧ ∀ g : Group, (groupsOf s t.ref).find? (fun g => g.ref.gid == sel.toNat % 512) = some g →
             let begun (u : State) : State :=
               withGroup (onTeam u t.ref fun x => { x with stepSince := some u.now }) g.ref (beginIn lane sel)
             (stepOk t g lane sel = false → made = s)
             ∧ (stepOk t g lane sel = true → (t.mode ≠ .saved → made = begun s)
               ∧ (t.mode = .saved → (restoreAll s t = none → made = s) ∧ ∀ u, restoreAll s t = some u → made = begun u))))
  ∧ (∀ (s : State) (n : Nat) (a b c : Opnd) (buf : Dword) (t : Option Team) (sel : Word), Idle s → uniPair s 1 a = .ok buf →
       refTeam s b = .ok t → uni s 3 c = .ok sel →
       (t = none → unitOf s t sel = .error 2) ∧ (∀ x : Team, t = some x → x.halted = false → unitOf s t sel = .error 4)
       ∧ (∀ st : Nat, unitOf s t sel = .error st → Lands (.dbgRd (.s n) a b c) s s (setSreg s.g n (BitVec.ofNat 32 st))
         ∧ Lands (.dbgWr (.s n) a b c) s s (setSreg s.g n (BitVec.ofNat 32 st)))
       ∧ (∀ (x : Team) (g : Group), unitOf s t sel = .ok (x, g) →
         let bs := unitRead s x g (selKind sel) (selIndex sel)
         let tag : Nat := if selKind sel = 0 then 256 * (vreg g (selIndex sel)).tag.code else 0
         (bufferFault s buf.toNat bs.length 2 = none →
           Lands (.dbgRd (.s n) a b c) s (storeBuffer s buf.toNat bs) (setSreg (storeBuffer s buf.toNat bs).g n (BitVec.ofNat 32 tag)))
         ∧ (∀ r : Raise, bufferFault s buf.toNat bs.length 2 = some r → Faults (.dbgRd (.s n) a b c) s r)
         ∧ (selKind sel = 5 → Lands (.dbgWr (.s n) a b c) s s (setSreg s.g n 3))
         ∧ (∀ r : Raise, selKind sel ≠ 5 → bufferFault s buf.toNat (unitBytes (selKind sel)) 1 = some r →
           Faults (.dbgWr (.s n) a b c) s r)
         ∧ (selKind sel ≠ 5 → bufferFault s buf.toNat (unitBytes (selKind sel)) 1 = none →
           let u := countRange s buf.toNat (unitBytes (selKind sel))
           let rd := rangeBytes u buf.toNat (unitBytes (selKind sel))
           let made := writeGroup u g.ref (selKind sel) (selIndex sel) (rd.map (·.1))
           ((∃ y ∈ rd, y.2 = true) → FaultsIn (.dbgWr (.s n) a b c) s u (poisonRaise .g 0 buf.toNat []))
           ∧ ((∀ y ∈ rd, y.2 = false) →
             (made = none → Lands (.dbgWr (.s n) a b c) s u (setSreg u.g n 3))
             ∧ ∀ st : State, made = some st → Idle st → execMask st = execMask s →
               Lands (.dbgWr (.s n) a b c) s st (setSreg st.g n 0))))
       ∧ let es := ((teamsInOrder s).take sel.toNat).map (listEntry s)
         bufferFault s buf.toNat es.flatten.length 2 = none →
           Lands (.dbgList (.s n) a c) s (storeBuffer s buf.toNat es.flatten)
             (setSreg (storeBuffer s buf.toNat es.flatten).g n (BitVec.ofNat 32 es.length)))

/-! ### Sluice programs (R155 to R158) -/

/-- R155 to R157: each sluice instruction of a run that has not ended, whose budget of 8 x BS + 64 steps it keeps: its
registers, its input and output cursors, its next pc and the steps it counts; a read past the input or a write past BS ends
the run by a fault, and so does every instruction but `end` and `fail` after which pc is no instruction's: the last one where it
does not branch back, and a branch that leaves the program. -/
def Obligations.SluiceInstructions : Prop :=
  (∀ (s : State) (d a b : BitVec 4) (n o : BitVec 15) (j : BitVec 14), s.run.fin = .running →
    let r := s.run
    let x := r.reg a
    let y := r.reg b
    let next : Nat := r.pc + 1
    let left : Nat := r.input.length - r.c
    let stray (r' : Run) : Run := if r'.fin = .running ∧ r.words.length ≤ r'.pc then { r' with fin := .faulted } else r'
    let does (i : Instr) (cost : Nat) (r' : Run) : Prop := r.steps + cost ≤ 8 * r.bs + 64 →
      exec i s = .next (meterSteps { s with run := stray { r' with steps := r.steps + cost } } cost)
    let faults : Run := { r with fin := .faulted }
    let sets (v : BitVec 16) : Run := { r with k := setAt r.k d.toNat v, pc := next }
    let emits (bs : List Byte) : Run := { r with out := r.out ++ bs, pc := next }
    let alu (v w : Instr) (f : BitVec 16 → BitVec 16 → BitVec 16) : Prop :=
      does v 1 (sets (f x y)) ∧ does w 1 (sets (f x (j.setWidth 16)))
    let goes (i : Instr) (taken : Prop) : Prop :=
      (taken → does i 1 { r with pc := (r.pc + o.toInt).toNat })
        ∧ (¬ taken → does i 1 { r with pc := next })
    does .sluiceEnd 1 { r with fin := .ended } ∧ does .sluiceFail 1 { r with fin := .failed }
    ∧ (1 ≤ left → does (.sluiceGet d) 1 { sets ((r.input.getD r.c 0).setWidth 16) with c := r.c + 1 })
    ∧ (left = 0 → does (.sluiceGet d) 1 faults)
    ∧ does (.sluicePeek d n) 1 (sets (if n.toNat < left then (r.input.getD (r.c + n.toNat) 0).setWidth 16 else 0))
    ∧ (2 ≤ left → does (.sluiceGetw d) 1 { sets (r.input.getD (r.c + 1) 0 ++ r.input.getD r.c 0) with c := r.c + 2 })
    ∧ (left < 2 → does (.sluiceGetw d) 1 faults)
    ∧ (r.out.length + 1 ≤ r.bs → does (.sluicePut a) 1 (emits [x.setWidth 8]))
    ∧ (r.bs < r.out.length + 1 → does (.sluicePut a) 1 faults)
    ∧ (r.out.length + 2 ≤ r.bs → does (.sluicePutw a) 1 (emits [x.setWidth 8, (x >>> 8).setWidth 8]))
    ∧ (r.bs < r.out.length + 2 → does (.sluicePutw a) 1 faults)
    ∧ (r.out.length + y.toNat ≤ r.bs → does (.sluicePutn a b) (1 + y.toNat / 16) (emits (List.replicate y.toNat (x.setWidth 8))))
    ∧ (r.bs < r.out.length + y.toNat → does (.sluicePutn a b) (1 + y.toNat / 16) faults)
    ∧ (r.c ≤ r.input.length → y.toNat ≤ left → r.out.length + y.toNat ≤ r.bs → does (.sluiceCopy b) (1 + y.toNat / 16)
        { emits ((r.input.drop r.c).take y.toNat) with c := r.c + y.toNat })
    ∧ (r.c ≤ r.input.length → (left < y.toNat ∨ r.bs < r.out.length + y.toNat) → does (.sluiceCopy b) (1 + y.toNat / 16) faults)
    ∧ (1 ≤ x.toNat → x.toNat ≤ r.out.length → r.out.length + y.toNat ≤ r.bs → ∃ bs, bs.length = y.toNat
        ∧ (∀ k < y.toNat, (r.out ++ bs)[r.out.length + k]? = (r.out ++ bs)[r.out.length + k - x.toNat]?)
        ∧ does (.sluiceCopyBack a b) (1 + y.toNat / 16) (emits bs))
    ∧ ((x = 0 ∨ r.out.length < x.toNat ∨ r.bs < r.out.length + y.toNat) → does (.sluiceCopyBack a b) (1 + y.toNat / 16) faults)
    ∧ does (.sluiceMovi d n) 1 (sets (n.setWidth 16)) ∧ does (.sluiceMov d a) 1 (sets x)
    ∧ alu (.sluiceAdd d a b) (.sluiceAddImm d a j) (· + ·) ∧ alu (.sluiceSub d a b) (.sluiceSubImm d a j) (· - ·)
    ∧ alu (.sluiceAnd d a b) (.sluiceAndImm d a j) (· &&& ·) ∧ alu (.sluiceOr d a b) (.sluiceOrImm d a j) (· ||| ·)
    ∧ alu (.sluiceXor d a b) (.sluiceXorImm d a j) (· ^^^ ·)
    ∧ alu (.sluiceShl d a b) (.sluiceShlImm d a j) (fun u v => u <<< v.toNat)
    ∧ alu (.sluiceShr d a b) (.sluiceShrImm d a j) (fun u v => u >>> v.toNat)
    ∧ goes (.sluiceBeq a b o) (x = y) ∧ goes (.sluiceBne a b o) (x ≠ y) ∧ goes (.sluiceBlt a b o) (x.toNat < y.toNat)
    ∧ goes (.sluiceBeof o) (left = 0) ∧ goes (.sluiceJmp o) True
    ∧ (let z := r.reg d - 1
       (z ≠ 0 → does (.sluiceLoop d o) 1 { r with k := setAt r.k d.toNat z, pc := (r.pc + o.toInt).toNat })
       ∧ (z = 0 → does (.sluiceLoop d o) 1 (sets 0)))
    ∧ does (.sluiceTbl d a) 1 (sets ((r.table.getD (x.toNat % 256) 0).setWidth 16)))
  ∧ ∀ (s : State) (d a : BitVec 4), s.run.fin = .running → s.run.pc + 1 = s.run.words.length → s.run.steps < 8 * s.run.bs + 64 →
    ∃ t, exec (.sluiceMov d a) s = .next t ∧ t.run.fin = .faulted

/-- R158: a run takes at most 8 x BS + 64 steps, counted from 0 for each run; the step that would exceed the budget is not
executed, and the run ends by a fault. -/
def Obligations.SluiceBudget : Prop :=
  (∀ (n : Nat) (r : Run), r.steps ≤ 8 * r.bs + 64 → (r.finish n).steps ≤ 8 * r.bs + 64)
  ∧ (∀ (s : State) (i : Instr), s.run.next = some i → 8 * s.run.bs + 64 < s.run.steps + sluiceCost i s.run →
    sluiceMove exec s = .next { s with run := { s.run with fin := .faulted } }
      ∧ exec .sluiceStepBudget s = .next { s with run := { s.run with fin := .faulted } })
  ∧ ∀ (why : RunFor) (img : List (BitVec 32) × List Byte) (bs : Nat) (input : List Byte), (Run.start why img bs input).steps = 0

/-! ### Clauses, teams and schedulers (R184 to R211, R361, R362, R439, R442) -/

/-- R191 to R195, R207, R210, R211: CLAUSE_ISSUE takes a free port for a slot at a good header, and no more than four ports
of a sub-core are taken; the resolutions it observes are acquired (R136), and what its words cross is counted (R353; how words are
fetched for that count is the model's choice, notes/assumptions/68.md); a target that is not aligned or holds no header raises 0x103, and a malformed header 0x102;
CLAUSE_RESUME takes a port again, and acquires what its handle-wait observes; FLAG_CLEAR lands an instruction in flight. -/
def Obligations.ClausesTakePorts : Prop :=
  (∀ (s : State) (q : PcSlot), (cur s).stand = .arrived ∨ (cur s).stand = .header → wantsPort s = true →
    arrive? s (cur s) = .ok q → takesPort s = true → fetchFails s q = none → ∃ t, exec .clauseIssue s = .next t
      ∧ t = setCur (observeWaits (countFetch s q) q)
        { q with pc := q.pc + 8, stand := .issuing, wait := .running, since := s.now, ageless := false }
      ∧ t.mem = s.mem ∧ t.g.sregs = s.g.sregs ∧ t.g.vregs = s.g.vregs
      ∧ portsHeld s s.g.core s.g.sub < 4 ∧ portsHeld t s.g.core s.g.sub ≤ 4)
  ∧ (∀ s : State, (cur s).stand = .paused → wantsPort s = true → takesPort s = true →
    let t := observeWaits s (cur s)
    exec .clauseResume s = .next (setCur t { cur t with stand := .issuing, ageless := false }))
  ∧ (∀ (s : State) (w : Dword), canAct s s.slot = true → s.g.haltDue = none → fetchWord s (cur s).pc = .ok w →
    ((cur s).stand = .arrived → ((cur s).pc.toNat % 8 ≠ 0 ∨ w.toNat / 2 ^ 56 ≠ 0xca) →
        exec .clauseIssue s = .next (raiseHere s (.plain 0x103 0)))
    ∧ ((cur s).stand = .arrived → (cur s).pc.toNat % 8 = 0 → w.toNat / 2 ^ 56 = 0xca → headerGood w = false →
        exec .clauseIssue s = .next (raiseHere s (.plain 0x102 0)))
    ∧ ((cur s).stand = .header → headerGood w = false → exec .clauseIssue s = .next (raiseHere s (.plain 0x102 0))))
  ∧ ∀ (s : State) (k : Nat) (f : InFlight), s.g.inflight[k]? = some f → f.until_ = .now →
    exec (.flagClear k) s = .next (afterStep (landAt s k))

/-- R177, R198 to R203, R299, R425: a pre-emption request marks a team once; BARRIER_STOP and FORCED_STOP stop it when its
groups are still or 2 ms have passed, and it leaves the lines of the queues and gauges it waits in; TEAM_SAVE takes it off its
cores, and TEAM_RESTORE places it again where its device is the scheduler's choice and it is the next that the headframe
places; a team resident for debug steps is saved after 10 ms. -/
def Obligations.TeamStops : Prop :=
  (∀ (s : State) (t : TRef) (x : Team), teamOf s t = some x → x.resident = true → x.request = none → ∃ u,
    exec (.preemptionRequest t) s = .next u ∧ (teamOf u t).map (·.request) = some (some (s.now, false)) ∧ u.mem = s.mem)
  ∧ (∀ (s : State) (t : TRef) (x : Team), teamOf s t = some x → x.resident = true → x.stop = none → x.ending = false →
    (x.request ≠ none → (∀ g ∈ groupsOf s t, g.still = true ∧ g.entry = none ∧ g.stepping = none) → ∃ u, exec (.barrierStop t) s = .next u
      ∧ u = onTeam (leaveLines s t) t (fun y => { y with stop := some false }) ∧ (teamOf u t).map (·.stop) = some (some false)
      ∧ (∀ g, g ∈ allGroups u ↔ g ∈ allGroups s) ∧ (x.gaugers = [] → u.mem = s.mem))
    ∧ (∀ at_ forced, x.request = some (at_, forced) → (forced = true ∨ at_ + ms 2 ≤ s.now) → ∃ u, exec (.forcedStop t) s = .next u
      ∧ u = onTeam (stopAll s t) t (fun y => { y with stop := some true }) ∧ (teamOf u t).map (·.stop) = some (some true)
      ∧ (∀ g ∈ groupsOf u t, g.stopped = true) ∧ (x.gaugers = [] → u.mem = s.mem)))
  ∧ (∀ (s u : State) (t : TRef), focusTeam s t = some u → u.team.cluster = none → canSave u u.team = true →
    ∃ v, exec (.teamSave t) s = .next v ∧ v = saveOne u t
      ∧ (let w := flushSamples (accrue (drainTeam u))
         (saveLive w w.team).team.poison = [] → v.team.ref = t ∧ v.team.mode = .saved ∧ v.team.request = none ∧ v.team.stop = none))
  ∧ (∀ (s u v : State) (t : TRef) (c : Cand) (x : Team) (d : Device) (p : Partition), deviceAt s t.vd = some d →
    partitionOf s d.partition = some p → s.failed = false → isChosen s p d = true → deviceOnly s t.vd = some u →
    let q := settleQueue u
    (if isStarved q then (candidates q).take 1 else candidates q).find? (fun c => (placeCand q c).isSome) = some c →
      c.index = 0 → c.serial = t.serial → teamOf q t = some x → x.mode = .saved → placeCand q c = some v →
        exec (.teamRestore t) s = .next (settleQueue v))
  ∧ ∀ (s u : State) (t : TRef) (n : Nat), focusTeam s t = some u → u.team.halted = true → stepRuns u t = false →
    u.team.stepSince = some n → n + ms 10 ≤ u.now →
      let v : State := { u with team := { u.team with stepSince := none } }
      canSave v v.team = true → exec (.stepIdleTimeout t) s = .next (saveOne v t)

/-- R25, R186, R197, R199, R361, R370, R392, R400 to R402: placement by the scheduler's choice, with pre-emption of the device of
the latest deadline where a team fits no set; starvation; the end; the loss, which its die counts, and which poisons the sectors of shared memory or of the scratchpad in
which an error was found or notes the lanes of registers that had one; and the samples of a team, taken at the boundaries of
2^20 cycles of its lowest core and written one by one. The model's choices here: what a sample counts, and that it is held until
it is written (notes/assumptions/25.md), and that the victim is chosen within TEAM_PLACEMENT (notes/assumptions/38.md) and is the
team that has been resident longest (notes/assumptions/107.md). -/
def Obligations.TeamsComeAndGo : Prop :=
  (∀ (s : State) (n : Nat) (d : Device) (p : Partition), deviceAt s n = some d → partitionOf s d.partition = some p →
    s.failed = false → isChosen s p d = true →
      (∀ v, placeOf s n = some v →
        ((p.sched = .allowance ∨ hasMisfit v n = false ∨ latestVictim v p d = none) → exec (.teamPlacement n) s = .next v)
        ∧ ∀ t, p.sched = .reservation → hasMisfit v n = true → latestVictim v p d = some t →
            exec (.teamPlacement n) s = .next (requestStop v t v.now false))
      ∧ ∀ t, placeOf s n = none → p.sched = .reservation → hasMisfit s n = true → latestVictim s p d = some t →
          exec (.teamPlacement n) s = .next (requestStop s t s.now false))
  ∧ (∀ (s u : State) (n : Nat) (h : Head), focusDevice s n = some u → u.vd.head = some h → h.since + ms 4 ≤ u.now → h.starved = false →
    exec (.placementStarvation n) s = .next { u with vd := { u.vd with head := some { h with starved := true } } })
  ∧ (∀ (s u : State) (t : TRef), focusTeam s t = some u → canEnd u u.team = true → ∃ v, exec (.teamEnd t) s = .next v
    ∧ groupsOf v t = []
    ∧ (u.team.relaunch = false → v.team = .idle ∧ t ∉ v.vd.waiting
      ∧ (u.team.cluster = none → u.team.gaugers = [] → v.teams.map (·.ref) = u.teams.map (·.ref)))
    ∧ (u.team.relaunch = true → t ∈ v.vd.waiting ∧ ∃ x ∈ v.teams, x.ref = t ∧ x.mode = .lost ∧ x.ending = false))
  ∧ (∀ (s u : State) (t : TRef) (bad : List Nat) (ls : List (Nat × Nat × Nat)), focusTeam s t = some u → u.team.mode ≠ .lost →
    u.team.ending = false →
      let loses (d : Byte) (v : State) : Prop := exec (.teamLost t { detail := d, bad := bad, lanes := ls }) s
        = .next (loseTeam (countDie v u.team.die fun x => { x with unc := min (x.unc + 1) 255 }) t 0x600 d.toNat)
      loses 1 { u with team := { u.team with poison := bad.foldl sadd u.team.poison } }
      ∧ loses 2 (poisonScratch u u.team.die bad)
      ∧ loses 6 (noteBroken u (ls.filter fun x => u.team.cores.contains x.1 && decide (x.2.1 < 4) && decide (x.2.2 < 32)))
      ∧ loses 7 u)
  ∧ (∀ (s u : State) (t : TRef) (x : Nat × List Byte) (rest : List (Nat × List Byte)), focusTeam s t = some u →
    u.team.samples = x :: rest → u.team.resident = true → exec (.periodicSample t.vd t.serial (u.team.cores.headD 0) x.1) s
      = .next (writeStamp { u with team := { u.team with samples := rest } } x.2))
  ∧ ∀ (s : State) (t : Team),
    let n := sampleNow s t
    let core := t.cores.headD 0
    (t.halted = true → noteSample s t = onTeam s t.ref fun y => { y with sampled := n })
    ∧ (t.halted = false → t.sampled < 2 ^ 44 → n = (t.sampled + 1) % 2 ^ 44 →
        noteSample s t = onTeam s t.ref fun y => { y with
          samples := y.samples ++ [(n, stampRecord t core 3 ((mget 0 t.phases 0).toNat % 2 ^ 16) (n * 2 ^ 20 % 2 ^ 32) t.clocks
            (barrierGroups s t.ref) (stalledGroups s t.ref))]
          sampled := n, clocks := 0 })

/-- R198, R199, R353: a window begins again with no usage; a 1 ms boundary is passed once; a device at its cap or without
budget has its teams asked to stop; a period renews the budget; each millisecond the meter counts a device's memory. R10,
R64, R188, R355, R402, R439, R440, R442: a reading sets a core's temperature and makes it hot from 95 degrees; at 100 its
teams are asked to stop and at 110 the module fails, as it does when its die link or its cold plate fails; three droops in 1
ms make a core hot, and a hot core stays so until its reading is at most 90 degrees and 4 ms have passed without a droop. Corrections of registers are counted for
their lane, and a lane fails by an uncorrectable error or by 16 corrections in an hour: its core is withdrawn, and takes no team;
steering its one failing lane returns it with the spare slice at zero. After MODULE_RESET the machine is as after reset, measured
(what it keeps of the machine before it, and that memory then lists nothing, are the model's choices, notes/assumptions/26.md and
notes/assumptions/2.md), and a first reading of 110 degrees or more trips it. R392, R440: a failed die link counts its eight
replays at one die (which, is open: notes/assumptions/75.md). The fault at a core, a sub-core or a lane that does not exist is
the model's own stop. The model's choices here: the corrections that a reading carries (notes/assumptions/19.md), and how a
sub-core notes its failing lane, 64 for a second one, and what is not noted again (notes/assumptions/34.md). -/
def Obligations.SchedulersAndCores : Prop :=
  ((∀ (s : State) (n : Nat) (p : Partition), partitionOf s n = some p → p.sched = .allowance →
     (p.windowStart + ms 10 ≤ s.now → ∃ t, exec (.accountingWindow n) s = .next t
       ∧ (∀ d ∈ t.vd :: t.devices, d.alive = true → d.partition = n → d.usage = 0)
       ∧ (partitionOf t n).map (fun q => (q.windowStart, q.boundaries)) = some (p.windowStart + ms 10, 0) ∧ t.mem = s.mem)
     ∧ (p.windowStart + ms (p.boundaries + 1) ≤ s.now → ∃ t, exec (.millisecondBoundary n) s = .next t
       ∧ t = onPartition (boundaryRequests s p) n fun q => { q with boundaries := q.boundaries + 1 }))
   ∧ (∀ (s : State) (n : Nat) (d : Device) (p : Partition), deviceAt s n = some d → partitionOf s d.partition = some p →
     (p.sched = .allowance → d.cap * d.pcores * ms 10 / 100 ≤ usageNow s d → runsFree s n = true →
       exec (.capReached n) s = .next (requestAll s n))
     ∧ (p.sched = .reservation → budgetNow s d = 0 → runsFree s n = true → exec (.budgetExhausted n) s = .next (requestAll s n))
     ∧ (p.sched = .reservation → d.alive = true → d.deadline ≤ s.now → ∃ t, exec (.periodStart n) s = .next t
       ∧ (∀ e, deviceAt t n = some e → e.budget = us e.q ∧ e.deadline = d.deadline + us e.t ∧ e.newShare = none)))
   ∧ ∀ s : State, s.meterAt + ms 1 ≤ s.now → s.vd.meters.length = 8 → ∃ t, exec .meterTick s = .next t ∧ t.meterAt = s.meterAt + ms 1
       ∧ natAt t.vd.meters 7 = natAt s.vd.meters 7 + s.vd.gib ∧ t.devices.length = s.devices.length)
  ∧ ((∀ (s : State) (n : Nat) (x : Reading), n < 512 → mrising s.cores = true →
       let t := noteFixes (readTemp s n x.temp) n x.fixes
       let k := x.temp.toNat
       (coreAt t n).temp = x.temp ∧ (760 ≤ k → (coreAt t n).hot = true)
       ∧ (hotNow s (coreAt s n) = false → k < 760 → (coreAt t n).hot = false)
       ∧ (hotNow s (coreAt s n) = true → 720 < k → (coreAt t n).hot = true)
       ∧ (hotNow s (coreAt s n) = true → k ≤ 720 →
         ((coreAt t n).hot = true ↔ ∃ u ∈ (coreAt s n).droops, s.now ≤ u + ms 4))
       ∧ (k < 800 → exec (.temperatureReading n x) s = .next t)
       ∧ (800 ≤ k → k < 880 → exec (.temperatureReading n x) s
           = .next ((teamsOn t n).foldl (fun s y => requestStop s y.ref s.now true) t))
       ∧ (880 ≤ k → exec (.temperatureReading n x) s = .next (failModule t))
       ∧ ∀ sub lane : Nat, x.fixes = [(sub, lane)] → sub < 4 → lane < 32 → mrising (coreAt s n).fixes = true →
           mget [] (coreAt t n).fixes (64 * sub + lane) = recentFixes (coreAt s n) s.now (64 * sub + lane) ++ [s.now])
     ∧ (∀ s : State, exec .coldPlateFault s = .next (failModule s) ∧ (failModule s).failed = true
       ∧ ∃ die < 4, exec .dieLinkFailure s
         = .next (failModule (countDie s die fun d => { d with linkr := min (d.linkr + 8) 0xffff })))
     ∧ (∀ (s : State) (n : Nat), n < 512 → mrising s.cores = true → ∃ t, exec (.droopEvent n) s = .next t
       ∧ s.now ∈ (coreAt t n).droops ∧ (coreAt t n).temp = (coreAt s n).temp
       ∧ (2 ≤ ((coreAt s n).droops.filter fun u => decide (s.now ≤ u + ms 1)).length → (coreAt t n).hot = true))
     ∧ (∀ (c : Core) (now k : Nat), laneFails c now k = true
       ↔ k ∈ c.broken ∨ 16 ≤ ((mget [] c.fixes k).filter fun u => decide (now ≤ u + ms 3600000)).length)
     ∧ (∀ (s : State) (n sub lane : Nat), n < 512 → sub < 4 → lane < 32 → mrising s.cores = true →
       let noted := mget? (coreAt s n).failing sub
       let u := onCore s n fun c =>
         { c with withdrawn := true, failing := mins c.failing sub (if noted.isSome = true then 64 else lane) }
       (withdrawalDue s n sub lane = true
         ↔ laneFails (coreAt s n) s.now (64 * sub + lane) = true ∧ noted ≠ some lane ∧ noted ≠ some 64)
       ∧ (withdrawalDue s n sub lane = true →
         (((coreAt s n).withdrawn = true ∨ ∀ p ∈ s.partitions, n ∉ p.cores) → exec (.coreWithdrawal n sub lane) s = .next u
           ∧ (coreAt u n).withdrawn = true ∧ u.outbox = s.outbox)
         ∧ ∀ p, (coreAt s n).withdrawn = false → s.partitions.find? (fun q => q.cores.contains n) = some p →
             exec (.coreWithdrawal n sub lane) s
               = .next ((devicesOf s p).foldl (fun s d => dropMisfits s d.number) (moduleEvent u 1 n)))
       ∧ ((coreAt s n).withdrawn = true → mget? (coreAt s n).failing sub = some lane →
           (lsteerAt (coreAt s n) sub).getLsbD 5 = false → teamsOn s n = [] → mrising (coreAt s n).lsteer = true →
           mrising (coreAt s n).failing = true → mrising (coreAt s n).fixes = true → ∃ t, exec (.laneSteering n sub lane) s = .next t
             ∧ lsteerAt (coreAt t n) sub = BitVec.ofNat 32 (32 + lane) ∧ mget? (coreAt t n).failing sub = none
             ∧ ((coreAt s n).failing.length = 1 → (coreAt t n).withdrawn = false)
             ∧ mget [] (coreAt t n).fixes (64 * sub + lane) = []
             ∧ ∀ r < 512, mget 0 (coreAt t n).spare (512 * sub + r) = 0))
     ∧ (∀ (s : State) (stages : List (List Byte)) (blob : List Byte) (ok : Bool) (temps : List (BitVec 12)), temps.length = 512 →
       ∃ t, exec (.moduleReset stages blob ok temps) s = .next t ∧ t.portOpen = ok
         ∧ t.failed = temps.any (fun x => decide (880 ≤ x.toNat)) ∧ t.mem = [] ∧ t.devices = []
         ∧ t.stageHashes = (if ok then stages ++ [blob] else stages).map sha384
       ∧ t.measure = (if ok then stages ++ [blob] else stages).foldl (fun m x => sha384 (m ++ sha384 x)) (List.replicate 48 0)
       ∧ t.now = State.reset.now)
     ∧ ∀ (s : State) (n sub lane : Nat) (x : Reading),
       (512 ≤ n → exec (.temperatureReading n x) s = .fault .noSuchPlace ∧ exec (.droopEvent n) s = .fault .noSuchPlace)
       ∧ ((512 ≤ n ∨ 4 ≤ sub ∨ 32 ≤ lane) → exec (.coreWithdrawal n sub lane) s = .fault .noSuchPlace))

/-! ### Jobs (R112, R135, R136, R161 to R166, R307, R312) -/

/-- R112, R135, R136, R163, R166, R307, R312, R400: a job starts, as an acquire at its scope, once it follows no unfinished job,
and the sectors of the scratchpad that prove uncorrectable as it reads them are poisoned and counted; what
has landed arrives at its gauge; it finishes with every byte landed and its status in the handle, or stops at a unit of
transfer when it is cancelled; the command of a `cpym` is queued once its copy has landed, and where it has no quad or breaks
the rules of a command the handle resolves with 0x502 or 0x503. The model's choices here: the uncorrectable sectors that JOB_START
carries (notes/assumptions/19.md), and the whole rows in which a job's bytes land (notes/assumptions/54.md). -/
def Obligations.JobEvents : Prop :=
  ∀ (s u : State) (h : HRef) (j : Job), focusJob s h = some (u, j) →
    (j.started = false → j.preds = [] → stillBehind u j = false → ∀ bad : List Nat, let v := strikeJob u j bad
      (j.kind ∈ [.cpy, .cpym, .fill, .rowcpy] →
        exec (.jobStart { h := h, bad := bad }) s = .next (putJob (acquireAt v (scopeOf (Card.scope ⟨j.card.toNat⟩))) { j with started := true }))
      ∧ ∀ (sub : Nat) (tile : Bool) (slot : Nat), j.kind = .mstore sub tile slot →
          let j' : Job := { j with started := true, t1 := cycle32 v j.core }
          let e := entryAt v.vd slot
          (mstoreOk e ⟨j.card.toNat⟩ = true →
            exec (.jobStart { h := h, bad := bad }) s = .next (putJob (storeTile v j' sub tile e).1 (storeTile v j' sub tile e).2))
          ∧ (mstoreOk e ⟨j.card.toNat⟩ = false → exec (.jobStart { h := h, bad := bad }) s = .next (putJob v { j' with code := 0x503 })))
    ∧ (j.started = true → j.cancel = false → j.sent = false → j.kind ≠ .cpym → ∃ t, exec (.jobFinish h) s = .next t
      ∧ t = endJob (moveAll u j).1 (moveAll u j).2 false ∧ (∀ x ∈ t.vd.jobs, x.handle ≠ (moveAll u j).2.handle)
      ∧ let r := moveAll u j
        let q := arriveBytes (releaseAt r.1 (scopeOf (Card.scope ⟨r.2.card.toNat⟩))) r.2 (r.2.moved - r.2.counted)
        ∃ w, t.vd.statuses.head? = some (r.2.handle, w) ∧ (q.2.code = 0 → w.toNat / 2 ^ 30 = 1)
          ∧ (q.2.code ≠ 0 → q.2.code < 2 ^ 16 → w.toNat / 2 ^ 30 = 3 ∧ w.toNat % 2 ^ 16 = q.2.code))
    ∧ (j.started = true → j.sent = true → followOn u j = false → exec (.jobFinish h) s = .next (endJob u j false))
    ∧ (j.started = true → j.cancel = true → j.sent = false → ∀ n : Nat, j.moved ≤ n → n ≤ j.total → n % 256 = 0 →
      j.kind ∈ [.cpy, .cpym, .fill, .rowcpy] →
        exec (.jobCancelStop h n) s = .next (endJob (moveTo u j n).1 (moveTo u j n).2 true))
    ∧ (∀ (sub : Nat) (tile : Bool) (slot n : Nat), j.kind = .mstore sub tile slot → j.started = true → j.cancel = true →
      j.sent = false → exec (.jobCancelStop h n) s = .next (endJob u j true))
    ∧ (∀ n : Word, j.started = true → n ≠ 0 → (jobGauge u j).isSome = true → j.counted + n.toNat ≤ j.total →
      let r := if j.moved < j.counted + n.toNat then moveTo u j (wholeRows j (j.counted + n.toNat)) else (u, j)
      r.2.counted + n.toNat ≤ r.2.moved →
        exec (.gaugeArrival h n) s = .next (putJob (arriveBytes r.1 r.2 n.toNat).1 (arriveBytes r.1 r.2 n.toNat).2))
    ∧ (j.started = true → j.sent = false → j.cancel = false → u.team.resident = true →
      sequencersFull u j.place [0, 1, 2, 3] = false → follows (moveAll u j).1 (moveAll u j).2 = true →
      let v := (moveAll u j).1
      let j' := (moveAll u j).2
      let p := followPass v j'
      let quad := quadOf v v.team.ref (natAt v.team.cores j'.place) p.role p.quad
      let role : RoleDecl := v.team.kernel.roles.getD p.role { groups := 0, vregs := 0, sregs := 0 }
      (quad.isSome = true → cmdBits p.m1 0 4 = 0 → (p.gathered = true ∨ cmdBits p.m2 0 19 = 0) → passOk v p = true →
        p.breg + 16 ≤ role.vregs → ∃ t, exec (.followOnSend h) s = .next t
          ∧ t = queuePass (putJob v { j' with sent := true }) j'.place p)
      ∧ (quad = none → exec (.followOnSend h) s = .next (endJob v { j' with code := 0x502 } false))
      ∧ (quad.isSome = true → followOk v p = false → exec (.followOnSend h) s = .next (endJob v { j' with code := 0x503 } false)))

/-! ### The memory side (R103, R104, R116 to R121, R147 to R154, R340, R391 to R403, R440, R443) -/

/-- R118, R121, R147 to R150, R339, R391 to R393: a fill brings a line of a readable page into the cache; of a bound region it brings
the blocks that a reader or a store wants, where the line has one that is wanted or held, and never else. An error of storage
poisons the sectors that it strikes, those of a beat whose eighth retry has failed among them, and is counted; every other byte
reads as before. An eviction takes a line out, and the bytes that a die has written to a line of a page with F = 1 reach the peer
module, its poison with them; a clean block leaves at once, and a dirty one stays readable while a snapshot of it waits for an
engine. R150: an encode stores what its run and its verification end with, and the metadata word. R147: decoding a wanted block
that is not cached fills it into the cache. The model's choices here: what the cache holds of a line with bytes
(notes/assumptions/14.md), the copies of the dies of a peer module's lines (notes/assumptions/15.md), the errors that the events
carry (notes/assumptions/19.md), and the decode as a step of its own (notes/assumptions/33.md). -/
def Obligations.CacheEvents : Prop :=
  ((∀ (e : StoreErrs) (k : Nat), k ∈ lostSectors e false ↔ k < 8 ∧ (k ∈ e.bad ∨ ∃ b ∈ e.beats, b.1 = k ∧ 8 < b.2))
   ∧ (∀ (e : StoreErrs) (k : Nat), k ∈ lostSectors e true ↔ k < 8 ∧ k ∈ e.bad)
   ∧ ∀ (s : State) (pa va : Nat) (f : Bool) (e : StoreErrs), mrising s.dies = true →
     let die : Nat := if f = true then s.g.core / 128 else dieOfPa pa
     let d := mget Die.fresh s.dies die
     mget Die.fresh (strikeLine s pa va f e).dies die = { d with
       memc := min (d.memc + mendedSectors e f) 0xffff
       linkr := min (d.linkr + e.beats.foldl (fun n b => n + min b.2 8) 0) 0xffff
       sramc := min (d.sramc + e.soft) 0xffff, unc := min (d.unc + (lostSectors e f).length) 255 })
  ∧ (∀ (s u : State) (n va pa : Nat) (x w : Bool) (e : StoreErrs), deviceOnly s n = some u → walk u u.vd va = .leaf pa false x w true →
    (bindingAt u.vd va = none → ∃ t, exec (.cacheFill n { va := va, errs := e }) s = .next t ∧ (∀ a, mainByte t a = mainByte s a)
      ∧ (∀ k ∈ lostSectors e false, mainPoison t (pa / 256 * 256 + 32 * k) = true) ∧ t.cache = s.cache ∧ t.g = .idle
      ∧ (mget? t.lines (pa / 256)).isSome = true
      ∧ (lostSectors e false = [] → t.mem = s.mem ∧ t.poison = s.poison
        ∧ (mget? s.lines (pa / 256) = none → mget? t.lines (pa / 256) = some false)
        ∧ ∀ k, k ≠ pa / 256 → mget? t.lines k = mget? s.lines k))
    ∧ ∀ (slot : Nat) (sl : Sluice), bindingAt u.vd va = some (slot, sl) → sl.bs ∈ [64, 128, 256] →
        let block (k : Nat) : Nat := pa / 256 * 256 + sl.bs * k
        let asked (k : Nat) : Bool := wanted u sl (block k) (va / 256 * 256 + sl.bs * k)
        ((∀ k < 256 / sl.bs, mget? u.cache (block k) = none ∧ asked k = false) →
          exec (.cacheFill n { va := va, errs := e }) s = .refused .notEnabled)
        ∧ ((∃ k < 256 / sl.bs, (mget? u.cache (block k)).isSome = true ∨ asked k = true) →
          ∃ t, exec (.cacheFill n { va := va, errs := e }) s = .next t ∧ t = fillWanted (strikeLine u pa va false e) sl pa va
            ∧ t.g = .idle ∧ (∀ k < 256 / sl.bs, asked k = true → (mget? t.cache (block k)).isSome = true)
            ∧ (lostSectors e false = [] → t.mem = s.mem ∧ (∀ p b, mget? s.cache p = some b → mget? t.cache p = some b)
              ∧ ∀ p, (∀ k < 256 / sl.bs, asked k = true → p ≠ block k) → mget? t.cache p = mget? s.cache p)))
  ∧ (∀ (s u : State) (n va pa : Nat) (x w : Bool) (e : StoreErrs), deviceOnly s n = some u → walk u u.vd va = .leaf pa true x w true →
    ∃ t die b, die < 4 ∧ exec (.cacheFill n { va := va, errs := e }) s = .next t
      ∧ (let v : State := { u with g := { Group.idle with core := 128 * die } }
         t = { strikeLine (fillLine v va) pa va true e with g := .idle })
      ∧ mget? t.peerLines (lineKey die pa) = some b
      ∧ (∀ k ∈ e.bad, k < 8 → k ∈ b.poison) ∧ t.mem = s.mem ∧ t.peer = s.peer)
  ∧ (∀ (s u : State) (n va pa : Nat) (x w r : Bool) (e : StoreErrs), deviceOnly s n = some u →
    (walk u u.vd va = .leaf pa true x w r → peerKeys u pa ≠ [] → mrising u.peerLines = true → ∃ t, ∃ k ∈ peerKeys u pa,
      exec (.cacheEviction n { va := va, errs := e }) s = .next t ∧ mget? t.peerLines k = none ∧ t.mem = s.mem
      ∧ (∀ b, mget? u.peerLines k = some b → b.dirty = true → mrising u.peer = true → ∀ i ∈ b.wrote,
          mget 0 t.peer (k % 2 ^ 48 * 256 + i) = b.bytes.getD i 0)
      ∧ ∀ j ∈ lostSectors e true, pa / 256 * 8 + j ∈ t.peerPoison)
    ∧ (walk u u.vd va = .leaf pa false x w r →
      let v := strikeLine u pa va false e
      (∀ dirty : Bool, blocksIn v pa = [] → mget? v.lines (pa / 256) = some dirty → ∃ t, exec (.cacheEviction n { va := va, errs := e }) s = .next t
        ∧ t = meter { v with lines := mdel v.lines (pa / 256) } 4 (if dirty then 256 else 0)
        ∧ (mrising u.lines = true → mget? t.lines (pa / 256) = none) ∧ ∀ a, mainByte t a = mainByte s a)
      ∧ (blocksIn v pa ≠ [] → exec (.cacheEviction n { va := va, errs := e }) s = .next ((blocksIn v pa).foldl (fun y b => evictBlock y b.1) v))))
  ∧ (∀ (v : State) (p : Nat) (b : Block), (∀ x ∈ v.encodes, ¬ (x.vd = v.vd.number ∧ x.pa = p)) → mget? v.cache p = some b →
    (b.dirty = false → evictBlock v p = { v with cache := mdel v.cache p })
    ∧ ∀ (slot : Nat) (sl : Sluice), b.dirty = true → b.poison = [] → bindingAt v.vd b.va = some (slot, sl) → sl.unbinding = false →
        mget? (evictBlock v p).cache p = some { b with dirty := false } ∧ (evictBlock v p).mem = v.mem
        ∧ (evictBlock v p).encodes = v.encodes ++ [{ vd := v.vd.number, pa := p, va := b.va, bytes := b.bytes }])
  ∧ (∀ (s u : State) (n pa : Nat) (x : Encode), deviceOnly s n = some u → (u.encodes.find? fun y => y.vd == n && y.pa == pa) = some x →
    exec (.sluiceEncode n pa) s = .next (finishEncode u x)
    ∧ ∀ (slot : Nat) (sl : Sluice), bindingAt u.vd x.va = some (slot, sl) → sl.unbinding = false → s.Inv →
      let e := match (allRuns u).find? fun r => decide (r.why = .encode x.vd x.pa) with
        | some r => encodeEnd sl.dec x.bytes sl.cur (r.finish (8 * x.bytes.length + 65))
        | none => encodeBlock sl.enc sl.dec x.bytes sl.cur
      let word := metaPa u.vd sl x.pa
      (∀ i < e.bytes.length, word + 1 < x.pa ∨ x.pa + e.bytes.length ≤ word →
          mainByte (finishEncode u x) (x.pa + i) = e.bytes.getD i 0)
        ∧ mainNat (finishEncode u x) word 2 = e.word.toNat)
  ∧ ∀ (s u : State) (n pa va : Nat) (sl : Sluice), deviceOnly s n = some u → sluicedVa u u.vd pa = some (sl, va) →
    let at_ : Nat := pa - va % sl.bs
    let f := fillBlock u u.vd sl at_ (va - va % sl.bs)
    let asked := wanted u sl at_ (va - va % sl.bs)
    (mget? u.cache at_ = none → asked = true → ∃ t, exec (.sluiceDecode n pa) s = .next t ∧ t.mem = s.mem
      ∧ mget? t.cache at_ = some { bytes := f.bytes, dirty := f.crcFail, poison := f.poison, vd := u.vd.number, va := va - va % sl.bs }
      ∧ ∀ p, p ≠ at_ → mget? t.cache p = mget? s.cache p)
    ∧ (asked = false ∨ (mget? u.cache at_).isSome = true → exec (.sluiceDecode n pa) s = .refused .notEnabled)

/-- R152 to R154, R397, R403: the transcode and unbind jobs go block by block, each past the encodes that wait for it (that order
and that wait are the model's choice, notes/assumptions/30.md). Transcode passes a block that the current pair has stored and that
no poison is cached of, and stores and counts any other; its end drops the old pair. Unbind passes a clean raw block without
poison and stores any other raw; its end frees the slot. The metadata word of each is read, and counted (R147, R353). A poisoned table entry is repaired, and its block is done after that.
Each end resolves its handle. -/
def Obligations.BackgroundJobs : Prop :=
  ∀ (s u : State) (n slot : Nat) (sl : Sluice), deviceOnly s n = some u → mget? u.vd.bindings slot = some sl → sl.bs ≠ 0 →
    let va : Nat := sl.base + sl.bs * sl.cursor
    let on (v : State) : State := onBinding v slot fun b => { b with cursor := b.cursor + 1 }
    (sl.tc = true → sl.bs * sl.cursor < sl.len →
      (∀ (pa : Nat) (x w r : Bool), walk u u.vd va = .leaf pa false x w r →
        let v := finishEncodes u pa (pa + sl.bs)
        let b := visitBlock v sl pa va
        let passes : Prop := isCurrent v sl pa = true ∧ ∀ y, mget? v.cache pa = some y → y.poison = []
        (passes → exec (.transcodeBlock n slot) s = .next (on (countMeta v sl pa)))
        ∧ (¬ passes → exec (.transcodeBlock n slot) s
          = .next (on (onBinding (markClean (storeBlock b.1 slot sl pa va b.2.1 b.2.2) pa) slot fun y =>
            { y with tcDone := min (y.tcDone + 1) 0xffffffff }))))
      ∧ (∀ at_ : Nat, walk u u.vd va = .poisoned at_ → exec (.transcodeBlock n slot) s = .next (repairTable u at_))
      ∧ ((∀ (pa : Nat) (x w r : Bool), walk u u.vd va ≠ .leaf pa false x w r) → (∀ at_, walk u u.vd va ≠ .poisoned at_) →
          exec (.transcodeBlock n slot) s = .next (on u)))
    ∧ (sl.tc = true → sl.len ≤ sl.bs * sl.cursor → ∃ t b, exec (.transcodeEnd n slot) s = .next t ∧ mget? t.vd.bindings slot = some b
      ∧ b.tc = false ∧ b.cursor = 0 ∧ b.enc = sl.enc ∧ b.dec = sl.dec ∧ b.oldEnc = ([], []) ∧ b.oldDec = ([], [])
      ∧ t.vd.statuses.head? = some (sl.handle, 0x40000000) ∧ t.mem = s.mem)
    ∧ (sl.unbinding = true → sl.tc = false → sl.bs * sl.cursor < sl.len →
      (∀ (pa : Nat) (x w r : Bool), walk u u.vd va = .leaf pa false x w r →
        let v := finishEncodes u pa (pa + sl.bs)
        let b := visitBlock v sl pa va
        let clean : Prop := (∀ y, mget? v.cache pa = some y → y.dirty = false ∧ y.poison = []) ∧ isRaw v sl pa = true
        (clean → exec (.unbindBlock n slot) s = .next (on (countMeta v sl pa)))
        ∧ (¬ clean → exec (.unbindBlock n slot) s = .next (on (markClean (storeRaw b.1 sl pa va b.2.1 b.2.2) pa))))
      ∧ (∀ at_ : Nat, walk u u.vd va = .poisoned at_ → exec (.unbindBlock n slot) s = .next (repairTable u at_))
      ∧ ((∀ (pa : Nat) (x w r : Bool), walk u u.vd va ≠ .leaf pa false x w r) → (∀ at_, walk u u.vd va ≠ .poisoned at_) →
          exec (.unbindBlock n slot) s = .next (on u)))
    ∧ (sl.unbinding = true → sl.tc = false → sl.len ≤ sl.bs * sl.cursor → mrising u.vd.bindings = true → ∃ t,
      exec (.unbindEnd n slot) s = .next t ∧ mget? t.vd.bindings slot = none ∧ t.vd.statuses.head? = some (sl.unHandle, 0x40000000))

/-- R103, R104, R116, R125, R142, R147, R307, R392, R393, R399, R443: refresh and its retry; a scrubbed row counts its corrections
and errors, takes the next shorter class for a correction, is reported where it has the shortest already, and poisons the sectors
that failed; a span is cleared to zeros; a shootdown waits for the passes that have translated their pages (R382), performs the
device's queued stores, and the jobs in the middle of a page go on, or stop where they are cancelled, before its new entries, with pages that move taking their bytes along (which pages, and by
what step, is the model's: notes/assumptions/74.md); a peer's load, store or atomic is as a local one and is answered, with an error
response where no device owns the address, in one step and on a channel that is free (the model's choice, notes/assumptions/27.md),
and comes in only while a port is up. What the module itself moves to or from a page with F = 1 crosses the fabric, is counted, and
waits while no port is up (R353, R440). R340, R440: a port that is up replays a flit at most eight times and then retrains; retraining ends with the port up
and no replay counted, or down, which is reported where another port is not down; with every port down a message or an answer is
dropped (the flit of a replay is the model's choice, notes/assumptions/29.md). An unreachable peer's read fills the sectors it needs
poisoned and the write of a dirty line is dropped with one log record (in which die, and what the record holds beside the cause, is
the model's choice, notes/assumptions/28.md). The faults at storage and at a port that do not exist are the model's own stops. -/
def Obligations.MemoryUpkeep : Prop :=
  ((∀ (s : State) (stack bank row : Nat) (corrected uncorrectable : List Nat), stack < 8 → bank < 32 → row < 65536 →
     exec (.refresh stack bank row) s = .next { s with refreshing := mins s.refreshing (32 * stack + bank) row }
     ∧ ((mget? s.refreshing (32 * stack + bank)).isSome = true →
       exec (.refreshRetry stack bank) s = .next { s with refreshing := mdel s.refreshing (32 * stack + bank) })
     ∧ ((∀ k ∈ corrected ++ uncorrectable, sectorInRow stack bank row k = true) → mrising s.dies = true → ∃ t,
       exec (.scrubRow stack bank row corrected uncorrectable) s = .next t
       ∧ (∀ k ∈ uncorrectable, mainPoison t (32 * k) = true)
       ∧ (mget Die.fresh t.dies (stack / 2)).memc = min ((mget Die.fresh s.dies (stack / 2)).memc + corrected.length) 0xffff
       ∧ (mget Die.fresh t.dies (stack / 2)).unc = min ((mget Die.fresh s.dies (stack / 2)).unc + uncorrectable.length) 255
       ∧ (let k := rowKey stack bank row
          (corrected = [] → t.classes = s.classes ∧ t.reports = s.reports)
          ∧ (corrected ≠ [] → classAt t k = (if classAt s k ≤ 32 then 32 else classAt s k / 2)
            ∧ (classAt s k ≤ 32 → k ∈ t.reports) ∧ (32 < classAt s k → t.reports = s.reports)))))
   ∧ (∀ (s : State) (span : Nat), s.Inv → inRanges s.marked span = true → span < 16777216 → ∃ t, exec (.spanInitialise span) s = .next t
     ∧ (∀ a, a / 32768 = span → mainByte t a = 0 ∧ mainPoison t a = false) ∧ (∀ a, a / 32768 ≠ span → mainByte t a = mainByte s a)
     ∧ inRanges t.marked span = false)
   ∧ (∀ (s u : State) (n : Nat) (edits : List PtEdit), deviceOnly s n = some u →
     (∀ e ∈ edits, isTableWord u.vd e.pa = true) →
     ((∃ x ∈ u.teams, x.ref.vd = n ∧ readsPages x = true) → exec (.translationShootdown n edits) s = .refused .notEnabled)
     ∧ ((∀ x ∈ u.teams, x.ref.vd = n → readsPages x = false) →
     let mine : List Group := u.groups.filter fun g => g.ref.team.vd == n
     let v := onGroups (mine.foldl (fun y g => g.stores.foldl (fun y q => putVisible y q.cells) y) u)
       (fun g => g.ref.team.vd == n) fun g => { g with stores := [] }
     ∀ w, deviceOnly ((v.vd.jobs.map (·.handle)).foldl finishPages v) n = some w → ∃ t, exec (.translationShootdown n edits) s = .next t
       ∧ (let moved := edits.filterMap (movedPage w)
          t = edits.foldl editTable (if moved = [] then w else movePages w moved))
       ∧ (∀ g ∈ allGroups t, g.ref.team.vd = n → g.stores = [])
       ∧ ∀ e, edits = [e] → mrising w.ptes = true → Config.memBytes ≤ e.pa → tableWord t e.pa = e.val.toNat))
   ∧ (∀ s : State, (reply s true []).mem = s.mem
     ∧ (linked s = true → (reply s true []).replies.map (·.error) = s.replies.map (·.error) ++ [true])
     ∧ (linked s = false → reply s true [] = s))
   ∧ (∀ (s : State) (pa len : Nat) (op : PeerOp), linkUp s = false → exec (.peerAccess pa len op) s = .refused .notEnabled)
   ∧ (∀ (s : State) (n : Nat), (linkUp s = true → cross s n = meter s 6 n)
     ∧ (linkUp s = false → (cross s n).stalled = true ∧ timed (.next (cross s n)) = .refused .notEnabled))
   ∧ (∀ (s : State) (pa len : Nat) (op : PeerOp), linkUp s = true → peerOpOk pa len op = true → ownerOf s pa = none →
     exec (.peerAccess pa len op) s = .next (reply s true []))
   ∧ (∀ (s u : State) (d : Device) (pa len : Nat), linkUp s = true → ownerOf s pa = some d → deviceOnly s d.number = some u →
     let ls : List Loc := (List.range len).map fun i => peerPlace u (pa + i)
     (∀ op, peerOpOk pa len op = true → d.memPa + d.gib * 2 ^ 30 < pa + len → exec (.peerAccess pa len op) s = .next (reply s true []))
     ∧ (pa + len ≤ d.memPa + d.gib * 2 ^ 30 →
       (0 < len → ∃ t, exec (.peerAccess pa len .load) s = .next t ∧ t.mem = s.mem
         ∧ ∃ r, t.replies = s.replies ++ [r] ∧ r.error = false ∧ r.data = ls.map fun l => (locByte u l).1)
       ∧ (∀ bs : List Byte, 0 < len → bs.length = len →
         exec (.peerAccess pa len (.store bs)) s = .next (reply (putVisible (meter u 6 len) (ls.zip (bs.take len))) false []))
       ∧ (∀ (op : AOp) (ty : Ty) (x : Dword), (len = 4 ∨ len = 8) → pa % len = 0 →
         let v := ls.foldl readyAtomic (meter u 6 len)
         let old := ls.map (locByte v)
         (∀ b ∈ old, b.2 = false) →
           exec (.peerAccess pa len (.atom op ty x)) s = .next (reply (meter (putVisible (countReads v (ls.map fun l => (l, 1)))
             (ls.zip (leBytes len (atomValue op (tySigned ty) len (leNat (old.map (·.1))) (x.toNat % 2 ^ (8 * len)))))) 6 len) false old))
       ∧ ∀ cmp new : Dword, (len = 4 ∨ len = 8) → pa % len = 0 →
         let v := ls.foldl readyAtomic (meter u 6 len)
         let old := ls.map (locByte v)
         let c := countReads v (ls.map fun l => (l, 1))
         (∀ b ∈ old, b.2 = false) → exec (.peerAccess pa len (.cas cmp new)) s = .next (reply (meter
           (if leNat (old.map (·.1)) = cmp.toNat % 2 ^ (8 * len) then putVisible c (ls.zip (leBytes len (new.toNat % 2 ^ (8 * len)))) else c)
             6 len) false old)))
   ∧ ∀ (s : State) (stack bank row span : Nat) (xs ys : List Nat), (8 ≤ stack ∨ 32 ≤ bank ∨ 65536 ≤ row) → 16777216 ≤ span →
     exec (.refresh stack bank row) s = .fault .noSuchPlace ∧ exec (.scrubRow stack bank row xs ys) s = .fault .noSuchPlace
     ∧ exec (.spanInitialise span) s = .fault .noSuchPlace)
  ∧ ((∀ (s : State) (n : Nat), n < Config.aditPorts → mrising s.ports = true → let p := portAt s n
       (∀ flit : List Byte, flitOk flit = false → p.mode = .up → p.replays < 8 → ∃ t, exec (.flitReplay { port := n, flit := flit }) s = .next t ∧ (portAt t n).mode = .up
         ∧ ((portAt t n).replays = p.replays + 1 ∨ (portAt t n).replays = 1) ∧ (portAt t n).replays ≤ 8)
       ∧ (p.mode = .up → 8 ≤ p.replays → ∃ t, exec (.portRetrain n) s = .next t ∧ portAt t n = { mode := .retraining, replays := 0 })
       ∧ (p.mode = .retraining → (∃ t, exec (.portRetrainingEnd n true) s = .next t ∧ portAt t n = .fresh ∧ t.outbox = s.outbox)
         ∧ ∃ t, exec (.portRetrainingEnd n false) s = .next t ∧ (portAt t n).mode = .down
           ∧ ((∃ k < Config.aditPorts, k ≠ n ∧ (portAt s k).mode ≠ .down) → t.outbox = (send s 0 0xe3 0 (leBytes 4 2 ++ leBytes 4 n)).outbox)))
     ∧ (∀ (s : State) (tag : Word) (cmd : Byte) (vd : Nat) (p : List Byte), (∀ k < Config.aditPorts, (portAt s k).mode = .down) →
       send s tag cmd vd p = s)
     ∧ (∀ (s u : State) (n va pa : Nat) (x w r : Bool), deviceOnly s n = some u → walk u u.vd va = .leaf pa true x w r →
       ((∃ k ∈ peerKeys u pa, ∃ b, mget? u.peerLines k = some b ∧ b.dirty = true) →
         ∃ t, ∃ k ∈ peerKeys u pa, exec (.peerUnreachable n va .write) s = .next t ∧ t.vd.logged = u.vd.logged + 1
           ∧ t.peerLines = mdel u.peerLines k ∧ t.peer = s.peer)
       ∧ ∃ die < 4, ∀ sectors : List Nat,
           (mget? u.peerLines (lineKey die pa) = none → ∃ t, exec (.peerUnreachable n va (.read sectors)) s = .next t ∧ t.mem = s.mem
             ∧ t.peer = s.peer ∧ ∃ b, mget? t.peerLines (lineKey die pa) = some b ∧ b.dirty = false
             ∧ ∀ k < 8, k ∈ b.poison ↔ k ∈ sectors ∨ pa / 256 * 8 + k ∈ u.peerPoison)
           ∧ ((mget? u.peerLines (lineKey die pa)).isSome = true →
             exec (.peerUnreachable n va (.read sectors)) s = .refused .notEnabled))
     ∧ ∀ (s : State) (n : Nat) (flit : List Byte) (ok : Bool), Config.aditPorts ≤ n → exec (.flitReplay { port := n, flit := flit }) s = .fault .noSuchPlace
       ∧ exec (.portRetrain n) s = .fault .noSuchPlace ∧ exec (.portRetrainingEnd n ok) s = .fault .noSuchPlace)

/-! ### Loads, code and commands of the host (R46, R47, R181 to R183, R341 to R356, R434, R438, R441) -/

/-- R46, R47, R181 to R183, R346, R347, R440: what an intake packet and its commit do, a new code version, and the commands that
load code and weights, which come in while a port is up. The model's choices here: the object of a code load is carried beside its
bytes (notes/assumptions/11.md), a packet carries the whole input of a tensor (notes/assumptions/31.md), and a command counts 16
fabric bytes and its payload, a response its own (notes/assumptions/56.md). -/
def Obligations.LoadsAndCode : Prop :=
  (∀ (s u : State) (h : HRef) (l : Load) (k : Nat) (bs data rs cs : List Byte), focusLoad s h = some (u, l) →
    l.tensors[k]? = some bs → (∃ r ∈ l.reads, r.tensor = k) → Tensor.takes ⟨bs⟩ data rs cs = true →
      let r := writeTensor u ⟨bs⟩ data rs cs
      (r.2.1 = 0 → exec (.intakePacket h k data rs cs) s = .next (putLoad r.1
        { l with reads := l.reads.filter fun q => q.tensor != k, done := sadd l.done k, qs := l.qs || r.2.2.1, sb := l.sb || r.2.2.2 }))
      ∧ (r.2.1 ≠ 0 → exec (.intakePacket h k data rs cs) s = .next (resolveLoad r.1 l
        (statusWord 3 false false (l.sb || r.2.2.2) (l.qs || r.2.2.1) r.2.1))))
  ∧ (∀ (s u : State) (h : HRef) (l : Load), focusLoad s h = some (u, l) → (∀ k < l.tensors.length, k ∈ l.done) →
    ∃ t w, exec (.intakeCommit h) s = .next t ∧ mget? t.vd.weights l.set = some w ∧ w.start = l.start ∧ w.len = l.len
      ∧ w.gen = (((mget? u.vd.weights l.set).map (·.gen)).getD 0 + 1) % 2 ^ 32
      ∧ t.vd.statuses.head? = some (l.handle, statusWord 1 false false l.sb l.qs 0) ∧ t.mem = s.mem)
  ∧ (∀ (s u v : State) (n kernel : Nat) (obj : CodeObj) (k : KernelDecl) (old : Code × KernelDecl), deviceOnly s n = some u →
    (markObject obj).kernels = [k] → kernelOf u.vd kernel = some old → kernelOk u.vd.sumpLimit obj.words k = true →
    k.params = old.2.params → addCode u (markObject obj) [kernel] = some v → exec (.profileRetranslation n kernel obj) s = .next v ∧ v.vd.codes.length = u.vd.codes.length + 1)
  ∧ ∀ (s w : State) (m : CmdHdr) (p : List Byte) (obj : CodeObj), hears s = true → s.failed = false →
    deviceOnly s m.vd.toNat = some w → headerClean m p = true →
      let u := meter w 6 (16 + p.length)
      let keep (a : Option Assembly) : State := { u with vd := { u.vd with assembling := a } }
      (addSegment u.vd.assembling p = none → exec (.loadCode m p obj) s = .next (answer (keep none) m 3 3 []))
      ∧ (∀ a, addSegment u.vd.assembling p = some a → byteField p 12 4 ≠ 1 →
          exec (.loadCode m p obj) s = .next (answer (keep (some a)) m 3 0 []))
      ∧ (∀ a, addSegment u.vd.assembling p = some a → byteField p 12 4 = 1 →
          (loadObject (keep none) obj = none → exec (.loadCode m p obj) s = .next (answer (keep none) m 3 7 []))
          ∧ ∀ v ns, loadObject (keep none) obj = some (v, ns) →
              exec (.loadCode m p obj) s = .next (answer v m 3 0 (kernelNumbers ns)))
      ∧ (weightsFormed u p = false → exec (.loadWeights m p) s = .next (answer u m 5 3 []))
      ∧ (weightsFormed u p = true →
          let q := (newHandle u 0 3).1
          let l₀ := newLoad m p (newHandle u 0 3).2
          let l := { l₀ with reads := if loadRefused q l₀ then [] else readsOf q l₀ }
          let v := answer { q with vd := { q.vd with loads := q.vd.loads ++ [l] } } m 5 0 (leBytes 8 (newHandle u 0 3).2.toNat)
          (loadRefused v l = false → exec (.loadWeights m p) s = .next v)
          ∧ (loadRefused v l = true → exec (.loadWeights m p) s = .next (resolveLoad v l (statusWord 3 false false false false 0x505))))

/-- R197 to R199, R341 to R345, R348, R350 to R354, R356, R434, R438, R441: the other commands of the host. A message that
is not the host's is discarded; an unknown command answers 1, and is counted for the device it names (R353); a command for a device that does not exist answers 2, and a
malformed one 3, and nothing else changes but the fabric bytes of its device; a failed module answers 10 to each. Creation, or its
refusal as malformed (3), as not admitted (4) or for want of room (5), and destruction; shares of both schedulers; launches, or
their refusal as malformed (3), for want of room (6) or because no team of theirs can ever fit (11); connections, or 8 where none
is free or the port does not exist; usage records and attestation. The model's choices here: the order of a command's checks
(notes/assumptions/22.md), what is malformed and what is not admitted of a period (notes/assumptions/23.md), the zero nonce of the
final record and the free queue pair number (notes/assumptions/25.md), and the fabric bytes of a message
(notes/assumptions/56.md). -/
def Obligations.HostCommands : Prop :=
  (∀ (s : State) (e : Nat) (c : Byte), exec (.nonHostMessage e c) s = .next s)
  ∧ (∀ (s : State) (m : CmdHdr) (c : Byte), hears s = true → (c = 0 ∨ 9 < c.toNat) →
    let status : Nat := if s.failed = true then 10 else 1
    (deviceOnly s m.vd.toNat = none → exec (.unknownCommand m c) s = .next (respond s m c.toNat m.vd.toNat status []))
    ∧ ∀ u, deviceOnly s m.vd.toNat = some u →
      exec (.unknownCommand m c) s = .next (answer (meter u 6 (16 + m.plen.toNat)) m c.toNat status []))
  ∧ (∀ (s : State) (m : CmdHdr) (p : List Byte) (obj : CodeObj), hears s = true →
    let allAnswer (t : Nat → State) : Prop :=
      exec (.destroyDevice m p) s = .next (t 2) ∧ exec (.loadCode m p obj) s = .next (t 3) ∧ exec (.hostLaunch m p) s = .next (t 4)
      ∧ exec (.loadWeights m p) s = .next (t 5) ∧ exec (.readUsage m p) s = .next (t 6) ∧ exec (.attest m p) s = .next (t 7)
      ∧ exec (.openIntakeConnection m p) s = .next (t 8) ∧ exec (.changeShare m p) s = .next (t 9)
    (s.failed = true → (allAnswer fun c => respond s m c m.vd.toNat 10 []) ∧ exec (.createDevice m p) s = .next (respond s m 1 0 10 []))
    ∧ (s.failed = false → deviceOnly s m.vd.toNat = none → s.gone.contains m.vd.toNat = false →
      allAnswer fun c => respond s m c m.vd.toNat 2 [])
    ∧ (s.failed = false → deviceOnly s m.vd.toNat = none → s.gone.contains m.vd.toNat = true →
      allAnswer fun c => respond s m c m.vd.toNat 10 [])
    ∧ (∀ u, s.failed = false → deviceOnly s m.vd.toNat = some u → headerClean m p = false →
      allAnswer fun c => answer (meter u 6 (16 + p.length)) m c 3 []))
  ∧ (∀ (s : State) (m : CmdHdr) (p : List Byte), hears s = true → s.failed = false →
    (headerClean m p = false ∨ Create.formed s ⟨p⟩ = false) → exec (.createDevice m p) s = .next (respond s m 1 0 3 []))
  ∧ (∀ (s : State) (m : CmdHdr) (p : List Byte) (q : Partition), hears s = true → s.failed = false → headerClean m p = true →
    Create.formed s ⟨p⟩ = true → Create.part s ⟨p⟩ = some q →
      (Create.admitted s ⟨p⟩ q = false → exec (.createDevice m p) s = .next (respond s m 1 0 4 []))
      ∧ (Create.admitted s ⟨p⟩ q = true → (freeNumber s = none ∨ findPlaces s (Create.gib ⟨p⟩) q.cores.length (Create.sump ⟨p⟩) = none
          ∨ scratchFree s (Create.sc ⟨p⟩) = false) → exec (.createDevice m p) s = .next (respond s m 1 0 5 []))
      ∧ ∀ n at_, Create.admitted s ⟨p⟩ q = true → freeNumber s = some n →
          findPlaces s (Create.gib ⟨p⟩) q.cores.length (Create.sump ⟨p⟩) = some at_ → scratchFree s (Create.sc ⟨p⟩) = true →
            exec (.createDevice m p) s = .next (answer (buildDevice (stash s) ⟨p⟩ q n at_) m 1 0 (leBytes 4 n)))
  ∧ ∀ (s u₀ : State) (m : CmdHdr) (p : List Byte), hears s = true → s.failed = false → deviceOnly s m.vd.toNat = some u₀ →
    headerClean m p = true →
      let u := meter u₀ 6 (16 + p.length)
      let n := u.vd.number
      let a := accrue u
      (p = [] → signatureGood a = true → exec (.destroyDevice m p) s
        = .next (respond (dropDevice a a.vd.number) m 2 a.vd.number 0 (signed (usageBody a (List.replicate 32 0) true))))
      ∧ (p = [] → signatureGood a = false → exec (.destroyDevice m p) s
        = .next (respond (dropDevice a a.vd.number) m 2 a.vd.number 9 []))
      ∧ (p.length = 32 → signatureGood a = true → exec (.readUsage m p) s
        = .next (answer (chainRecord a (usageBody a p false)) m 6 0 (signed (usageBody a p false))))
      ∧ (p.length = 32 → signatureGood a = false → exec (.readUsage m p) s = .next (answer a m 6 9 []))
      ∧ (p.length = 32 → signatureGood u = true → exec (.attest m p) s = .next (answer u m 7 0
          (signed (p ++ u.measure ++ u.stageHashes.flatten ++ Config.serialNumber) ++ Config.certChain)))
      ∧ (p.length = 32 → signatureGood u = false → exec (.attest m p) s = .next (answer u m 7 9 []))
      ∧ (launchKernel u p = none → exec (.hostLaunch m p) s = .next (answer u m 4 3 []))
      ∧ (∀ x c k, launchKernel u p = some (x, c, k) →
          (canEverFit u u.vd k = false → exec (.hostLaunch m p) s = .next (answer u m 4 11 []))
          ∧ (canEverFit u u.vd k = true → (Config.gridQueue ≤ queued u.vd ∨ ∀ off, poolRoom u.vd.pool [areaBytes k] ≠ some [off]) →
              exec (.hostLaunch m p) s = .next (answer u m 4 6 []))
          ∧ ∀ off, canEverFit u u.vd k = true → queued u.vd < Config.gridQueue → poolRoom u.vd.pool [areaBytes k] = some [off] →
              exec (.hostLaunch m p) s = .next (answer (queueGrid u x c k off (some m.tag) 0).1 m 4 0 []))
      ∧ (connFormed p = true → (freeConn u = none ∨ 1 < byteField p 0 1) → exec (.openIntakeConnection m p) s = .next (answer u m 8 8 []))
      ∧ (connFormed p = true → byteField p 0 1 ≤ 1 → ∀ k, freeConn u = some k → ∃ t q, exec (.openIntakeConnection m p) s = .next t
          ∧ t.conns = u.conns ++ [{ number := k, qpn := q, vd := n, payload := p }] ∧ q < 2 ^ 24
          ∧ t.outbox = (answer u m 8 0 (leBytes 4 k ++ leBytes 4 q)).outbox)
      ∧ (∀ part, partitionOf u u.vd.partition = some part → p.length = 16 → zeroField p 2 2 = true → zeroField p 12 4 = true →
          let w := byteField p 0 1
          let cap := byteField p 1 1
          let t := byteField p 4 4
          let q := byteField p 8 4
          let answers (status : Nat) : Prop := exec (.changeShare m p) s = .next (answer u m 9 status [])
          let takes : Prop := exec (.changeShare m p) s
            = .next (answer { u with vd := { u.vd with newShare := some (w, cap, t, q) } } m 9 0 [])
          (part.sched = .allowance →
            ((t ≠ 0 ∨ q ≠ 0) → answers 3)
            ∧ (t = 0 → q = 0 → (1 ≤ w → 1 ≤ cap → cap ≤ 100 → takes) ∧ ((w = 0 ∨ cap = 0 ∨ 100 < cap) → answers 4)))
          ∧ (part.sched = .reservation →
            let fits : Prop := 100 ≤ t ∧ t ≤ 1000000 ∧ q ≤ t * u.vd.pcores
              ∧ sharesFit ((devicesOf u part).filter fun d => d.number != n) u.vd.pcores t q = true
            ((w ≠ 0 ∨ cap ≠ 0) → answers 3) ∧ (w = 0 → cap = 0 → (fits → takes) ∧ (¬ fits → answers 4))))

/-! ### Encodings and the whole machine -/

/-- R215 to R223: the word of a well-formed instruction of a group decodes, under its class, to that instruction, for every
operand that a budget within R19 admits. -/
def Obligations.EncodeDecode : Prop :=
  ∀ (b : Budget) (i : Instr) (w : Dword), b.v ≤ 512 → b.s ≤ 192 → b.queues.length ≤ 8 → WellFormed b i = true →
    encode i = some w → decodeWord b i.cls w.toNat = .ok i

/-- R204 to R223: each word has at most one meaning: what a word decodes to is well formed, and is encoded by that word and
no other. R156: the words of sluice instructions, both ways. -/
def Obligations.WordsHaveOneMeaning : Prop :=
  (∀ (b : Budget) (k : Nat) (w : Dword) (i : Instr), decodeWord b k w.toNat = .ok i →
     WellFormed b i = true ∧ i.classOk k = true ∧ encode i = some w)
  ∧ ((∀ (i : Instr) (w : BitVec 32), encodeSluice i = some w → WellFormed Budget.full i = true → decodeSluice w.toNat = some i)
     ∧ ∀ (w : BitVec 32) (i : Instr), decodeSluice w.toNat = some i → encodeSluice i = some w)

/-- A step executes what the bytes at the issuing slot's pc decode to: a move of the agenda that issues a slot whose word is
fetched and decodes is `exec` of that instruction, where nothing of R200, R414, R415, R62 or R67 holds the slot; afterwards the
debug step and the halt that were due close, the team's issue clock counts it (R361; that it counts instructions is the model's
choice, notes/assumptions/25.md), and time passes (notes/assumptions/3.md). Before a move the flags with nothing left to cover
clear (R61, R207; when they do is the model's choice, notes/assumptions/76.md), the ages of R193 and R196 begin, and what else time
alone brings has come about (`beforeMove`). A move that needs a port of the fabric while none is up is not made (R440), so that no
step ends with one. An event of the agenda (the model's own list of moves, notes/assumptions/6.md) is
`exec` of it, and a step of a sluice engine `exec` of the instruction at the pc of the run whose turn it is. -/
def Obligations.StepRunsDecoded : Prop :=
  (∀ (s t : State) (g : GRef) (sl : SlotId) (rest : List Move) (w : Dword) (i : Instr), s.agenda = .issue g sl :: rest →
    focusGroup { beforeMove s with agenda := rest } g = some t →
    let u : State := { t with slot := sl }
    canAct u sl = true → u.g.haltDue = none → (cur u).stand = .issuing → flagsPending u = false →
    fetchWord u (cur u).pc = .ok w → decodeWord (budgetOf u) ((cur u).head.toNat / 2 ^ 49 % 8) w.toNat = .ok i →
    (isBarrier i = true → u.team.request = none) → writesLocked u i = false → waitsOwn u i = false → escalates u i = false →
    (coreAt u u.g.core).canaries = [] →
      step s = timed (afterInstr (exec i u)))
  ∧ (∀ (s : State) (i : Instr) (rest : List Move), s.agenda = .event i :: rest →
    step s = timed (exec i { beforeMove s with agenda := rest }))
  ∧ (∀ (s t : State) (g : GRef) (sl : SlotId) (i : Instr) (rest : List Move), s.agenda = .groupEvent g sl i :: rest →
    focusGroup { beforeMove s with agenda := rest } g = some t → step s = timed (exec i { t with slot := sl }))
  ∧ (∀ (s t : State) (e : Nat) (i : Instr) (rest : List Move), s.agenda = .sluice e :: rest →
    focusRun { beforeMove s with agenda := rest } e = some t → t.run.next = some i →
      (t.run.overBudget i = false → step s = timed (exec i t))
      ∧ (t.run.overBudget i = true → step s = timed (exec .sluiceStepBudget t)))
  ∧ (∀ t : State, (t.stalled = false → timed (.next t) = .next (tick t)) ∧ (t.stalled = true → timed (.next t) = .refused .notEnabled))
  ∧ ∀ s t : State, step s = .next t → t.stalled = false

/-- An invariant of every step, the model's own: main memory keeps its canonical form, the bytes sorted by
address and none listed that reads as an unlisted one does, so that equal memories are equal data (notes/assumptions/2.md). -/
def Obligations.StepKeepsMemoryCanonical : Prop :=
  ∀ s t : State, s.Inv → step s = .next t → t.Inv

/-- R204, R212 to R214: words that the manual works out field by field decode to the instructions that it writes beside
them. -/
def Obligations.WorkedWords : Prop :=
  let dec (k w : Nat) : Option Instr := (decodeWord Budget.full k w).toOption
  dec 0 0x4318140080401900 = some (.fma .f32 .rz (.v 10) (.v 1) (.v 2) (.v 3))
  ∧ dec 0 0x0190ac2a00000001 = some (.sAddI (.s 21) (.s 21) 1)
  ∧ dec 0 0x52180e037ffff8c0 = some (.cvt .f32 .rn (.narrowDst .e4m3) (.v 7) (.v 6) .none)
  ∧ dec 0 0x621812047ffff830 = some (.red .fadd .w32 .f32 (.v 9) (.v 8) .none)
  ∧ dec 3 0x7d08280000000003 = some (.brs (.s 10) 3)
  ∧ dec 3 0x8507fffffffff810 = some (.barSync 2)
  ∧ dec 1 0x910ac0813ff0000b = some (.st .g .b32 .zero (.s 4) .none 0 (.qual .die))
  ∧ dec 2 0xb00b8610fffff000 = some (.cpy (.h 1) (.s 16))
  ∧ dec 4 0xd2082bfffffff0a0 = some (.ctlRd (.s 10) .trapdst)
  ∧ dec 4 0xe008220c853ff030 = some (.wpSet (.s 8) 3 (.s 12) (.s 20))
  ∧ dec 1 0x8507fffffffff810 = none ∧ dec 0 0x20080a0300fff801 = none

/-- The machine right after reset: no device, partition, team or group; main memory lists nothing, and an unlisted byte reads
as 0 (the model's choice, notes/assumptions/2.md); caches, encodes and the outbox are empty; no core is withdrawn or has a
canary; the command port is shut (R355, R442), and no group is in focus (the model's choice, notes/assumptions/1.md). A group
that starts has what R24 gives it. -/
def Obligations.ResetState : Prop :=
  let s := State.reset
  s.Inv ∧ s.mem = [] ∧ allGroups s = [] ∧ allTeams s = [] ∧ allDevices s = [] ∧ s.partitions = [] ∧ s.cache = [] ∧ s.lines = []
  ∧ s.encodes = [] ∧ s.outbox = [] ∧ s.portOpen = false ∧ s.failed = false ∧ s.run.fin = .ended ∧ s.now = 0
  ∧ (∀ n : Nat, mainByte s n = 0) ∧ (∀ n : Nat, (coreAt s n).canaries = [] ∧ (coreAt s n).withdrawn = false)
  ∧ ∀ (t : Team) (g : Grid) (core i sump : Nat) (p : Nat × Nat × Nat), let x := startGroup s t g core i p sump
    x.a.mask = 0xffffffff ∧ x.b.mask = 0 ∧ x.exited = 0 ∧ x.fpc = 0 ∧ x.fps = 0 ∧ x.sts = 0 ∧ x.priv = 0 ∧ x.trapvec = 0 ∧ x.flags = 0
      ∧ x.sumpTop = 0 ∧ (∀ n, vreg x n = .zero) ∧ (∀ n, 2 ≤ n → sreg x n = 0) ∧ (∀ n, hreg x n = 0)
      ∧ x.a.pc = BitVec.ofNat 57 t.entryVa ∧ x.tids = (List.range 32).map fun l => 32 * x.ref.gid + l
end

