-- ==== Sys2Proof/Laws/State.lean ====
section
/-!
SUPPORT. Laws/State.lean: one lemma for each field of the state under each named update: what the update writes, and that
it leaves the rest.
-/
namespace Sys2Proof.Machine

/-! ### The slots of a group -/

@[simp] theorem slot_setSlot (g : Group) (i : SlotId) (p : PcSlot) : (g.setSlot i p).slot i = p := by cases i <;> rfl
@[simp] theorem slot_partner_setSlot (g : Group) (i : SlotId) (p : PcSlot) :
    (g.setSlot i p).slot i.partner = g.slot i.partner := by cases i <;> rfl
@[simp] theorem setSlot_slot (g : Group) (i : SlotId) : g.setSlot i (g.slot i) = g := by cases i <;> rfl
@[simp] theorem setSlot_setSlot (g : Group) (i : SlotId) (p q : PcSlot) : (g.setSlot i p).setSlot i q = g.setSlot i q := by
  cases i <;> rfl
@[simp] theorem setSlot_ref (g : Group) (i : SlotId) (p : PcSlot) : (g.setSlot i p).ref = g.ref := by cases i <;> rfl
@[simp] theorem setSlot_role (g : Group) (i : SlotId) (p : PcSlot) : (g.setSlot i p).role = g.role := by cases i <;> rfl
@[simp] theorem setSlot_idx (g : Group) (i : SlotId) (p : PcSlot) : (g.setSlot i p).idx = g.idx := by cases i <;> rfl
@[simp] theorem setSlot_core (g : Group) (i : SlotId) (p : PcSlot) : (g.setSlot i p).core = g.core := by cases i <;> rfl
@[simp] theorem setSlot_sub (g : Group) (i : SlotId) (p : PcSlot) : (g.setSlot i p).sub = g.sub := by cases i <;> rfl
@[simp] theorem setSlot_exited (g : Group) (i : SlotId) (p : PcSlot) : (g.setSlot i p).exited = g.exited := by cases i <;> rfl
@[simp] theorem setSlot_returned (g : Group) (i : SlotId) (p : PcSlot) : (g.setSlot i p).returned = g.returned := by cases i <;> rfl
@[simp] theorem setSlot_vregs (g : Group) (i : SlotId) (p : PcSlot) : (g.setSlot i p).vregs = g.vregs := by cases i <;> rfl
@[simp] theorem setSlot_sregs (g : Group) (i : SlotId) (p : PcSlot) : (g.setSlot i p).sregs = g.sregs := by cases i <;> rfl
@[simp] theorem setSlot_hregs (g : Group) (i : SlotId) (p : PcSlot) : (g.setSlot i p).hregs = g.hregs := by cases i <;> rfl
@[simp] theorem setSlot_flags (g : Group) (i : SlotId) (p : PcSlot) : (g.setSlot i p).flags = g.flags := by cases i <;> rfl
@[simp] theorem setSlot_tids (g : Group) (i : SlotId) (p : PcSlot) : (g.setSlot i p).tids = g.tids := by cases i <;> rfl
@[simp] theorem setSlot_marks (g : Group) (i : SlotId) (p : PcSlot) : (g.setSlot i p).marks = g.marks := by cases i <;> rfl
@[simp] theorem setSlot_fpc (g : Group) (i : SlotId) (p : PcSlot) : (g.setSlot i p).fpc = g.fpc := by cases i <;> rfl
@[simp] theorem setSlot_fps (g : Group) (i : SlotId) (p : PcSlot) : (g.setSlot i p).fps = g.fps := by cases i <;> rfl
@[simp] theorem setSlot_sts (g : Group) (i : SlotId) (p : PcSlot) : (g.setSlot i p).sts = g.sts := by cases i <;> rfl
@[simp] theorem setSlot_priv (g : Group) (i : SlotId) (p : PcSlot) : (g.setSlot i p).priv = g.priv := by cases i <;> rfl
@[simp] theorem setSlot_trappc (g : Group) (i : SlotId) (p : PcSlot) : (g.setSlot i p).trappc = g.trappc := by cases i <;> rfl
@[simp] theorem setSlot_trapnext (g : Group) (i : SlotId) (p : PcSlot) : (g.setSlot i p).trapnext = g.trapnext := by cases i <;> rfl
@[simp] theorem setSlot_trapmask (g : Group) (i : SlotId) (p : PcSlot) : (g.setSlot i p).trapmask = g.trapmask := by cases i <;> rfl
@[simp] theorem setSlot_trapcause (g : Group) (i : SlotId) (p : PcSlot) : (g.setSlot i p).trapcause = g.trapcause := by cases i <;> rfl
@[simp] theorem setSlot_trapdst (g : Group) (i : SlotId) (p : PcSlot) : (g.setSlot i p).trapdst = g.trapdst := by cases i <;> rfl
@[simp] theorem setSlot_trapaddr (g : Group) (i : SlotId) (p : PcSlot) : (g.setSlot i p).trapaddr = g.trapaddr := by cases i <;> rfl
@[simp] theorem setSlot_trapvec (g : Group) (i : SlotId) (p : PcSlot) : (g.setSlot i p).trapvec = g.trapvec := by cases i <;> rfl
@[simp] theorem setSlot_nextWritten (g : Group) (i : SlotId) (p : PcSlot) : (g.setSlot i p).nextWritten = g.nextWritten := by cases i <;> rfl
@[simp] theorem setSlot_trapHdr (g : Group) (i : SlotId) (p : PcSlot) : (g.setSlot i p).trapHdr = g.trapHdr := by cases i <;> rfl
@[simp] theorem setSlot_trapStand (g : Group) (i : SlotId) (p : PcSlot) : (g.setSlot i p).trapStand = g.trapStand := by cases i <;> rfl
@[simp] theorem setSlot_fwTrap (g : Group) (i : SlotId) (p : PcSlot) : (g.setSlot i p).fwTrap = g.fwTrap := by cases i <;> rfl
@[simp] theorem setSlot_sumpTop (g : Group) (i : SlotId) (p : PcSlot) : (g.setSlot i p).sumpTop = g.sumpTop := by cases i <;> rfl
@[simp] theorem setSlot_sumpPa (g : Group) (i : SlotId) (p : PcSlot) : (g.setSlot i p).sumpPa = g.sumpPa := by cases i <;> rfl
@[simp] theorem setSlot_pendA (g : Group) (i : SlotId) (p : PcSlot) : (g.setSlot i p).pendA = g.pendA := by cases i <;> rfl
@[simp] theorem setSlot_pendB (g : Group) (i : SlotId) (p : PcSlot) : (g.setSlot i p).pendB = g.pendB := by cases i <;> rfl
@[simp] theorem setSlot_entry (g : Group) (i : SlotId) (p : PcSlot) : (g.setSlot i p).entry = g.entry := by cases i <;> rfl
@[simp] theorem setSlot_parked (g : Group) (i : SlotId) (p : PcSlot) : (g.setSlot i p).parked = g.parked := by cases i <;> rfl
@[simp] theorem setSlot_parkFrom (g : Group) (i : SlotId) (p : PcSlot) : (g.setSlot i p).parkFrom = g.parkFrom := by cases i <;> rfl
@[simp] theorem setSlot_parkPc (g : Group) (i : SlotId) (p : PcSlot) : (g.setSlot i p).parkPc = g.parkPc := by cases i <;> rfl
@[simp] theorem setSlot_halted (g : Group) (i : SlotId) (p : PcSlot) : (g.setSlot i p).halted = g.halted := by cases i <;> rfl
@[simp] theorem setSlot_haltDue (g : Group) (i : SlotId) (p : PcSlot) : (g.setSlot i p).haltDue = g.haltDue := by cases i <;> rfl
@[simp] theorem setSlot_grace (g : Group) (i : SlotId) (p : PcSlot) : (g.setSlot i p).grace = g.grace := by cases i <;> rfl
@[simp] theorem setSlot_stopped (g : Group) (i : SlotId) (p : PcSlot) : (g.setSlot i p).stopped = g.stopped := by cases i <;> rfl
@[simp] theorem setSlot_offered (g : Group) (i : SlotId) (p : PcSlot) : (g.setSlot i p).offered = g.offered := by cases i <;> rfl
@[simp] theorem setSlot_offerSlot (g : Group) (i : SlotId) (p : PcSlot) : (g.setSlot i p).offerSlot = g.offerSlot := by cases i <;> rfl
@[simp] theorem setSlot_stepping (g : Group) (i : SlotId) (p : PcSlot) : (g.setSlot i p).stepping = g.stepping := by cases i <;> rfl
@[simp] theorem setSlot_inside (g : Group) (i : SlotId) (p : PcSlot) : (g.setSlot i p).inside = g.inside := by cases i <;> rfl
@[simp] theorem setSlot_inflight (g : Group) (i : SlotId) (p : PcSlot) : (g.setSlot i p).inflight = g.inflight := by cases i <;> rfl
@[simp] theorem setSlot_stores (g : Group) (i : SlotId) (p : PcSlot) : (g.setSlot i p).stores = g.stores := by cases i <;> rfl

/-! ### The issuing slot -/

@[simp] theorem cur_setCur (s : State) (p : PcSlot) : cur (setCur s p) = p := slot_setSlot s.g s.slot p
@[simp] theorem setCur_g (s : State) (p : PcSlot) : (setCur s p).g = s.g.setSlot s.slot p := rfl
@[simp] theorem setCur_slot (s : State) (p : PcSlot) : (setCur s p).slot = s.slot := rfl
@[simp] theorem setCur_team (s : State) (p : PcSlot) : (setCur s p).team = s.team := rfl
@[simp] theorem setCur_vd (s : State) (p : PcSlot) : (setCur s p).vd = s.vd := rfl
@[simp] theorem setCur_groups (s : State) (p : PcSlot) : (setCur s p).groups = s.groups := rfl
@[simp] theorem setCur_teams (s : State) (p : PcSlot) : (setCur s p).teams = s.teams := rfl
@[simp] theorem setCur_devices (s : State) (p : PcSlot) : (setCur s p).devices = s.devices := rfl
@[simp] theorem setCur_partitions (s : State) (p : PcSlot) : (setCur s p).partitions = s.partitions := rfl
@[simp] theorem setCur_cores (s : State) (p : PcSlot) : (setCur s p).cores = s.cores := rfl
@[simp] theorem setCur_dies (s : State) (p : PcSlot) : (setCur s p).dies = s.dies := rfl
@[simp] theorem setCur_mem (s : State) (p : PcSlot) : (setCur s p).mem = s.mem := rfl
@[simp] theorem setCur_ptes (s : State) (p : PcSlot) : (setCur s p).ptes = s.ptes := rfl
@[simp] theorem setCur_poison (s : State) (p : PcSlot) : (setCur s p).poison = s.poison := rfl
@[simp] theorem setCur_marked (s : State) (p : PcSlot) : (setCur s p).marked = s.marked := rfl
@[simp] theorem setCur_used (s : State) (p : PcSlot) : (setCur s p).used = s.used := rfl
@[simp] theorem setCur_cache (s : State) (p : PcSlot) : (setCur s p).cache = s.cache := rfl
@[simp] theorem setCur_lines (s : State) (p : PcSlot) : (setCur s p).lines = s.lines := rfl
@[simp] theorem setCur_peerLines (s : State) (p : PcSlot) : (setCur s p).peerLines = s.peerLines := rfl
@[simp] theorem setCur_peer (s : State) (p : PcSlot) : (setCur s p).peer = s.peer := rfl
@[simp] theorem setCur_peerPoison (s : State) (p : PcSlot) : (setCur s p).peerPoison = s.peerPoison := rfl
@[simp] theorem setCur_encodes (s : State) (p : PcSlot) : (setCur s p).encodes = s.encodes := rfl
@[simp] theorem setCur_run (s : State) (p : PcSlot) : (setCur s p).run = s.run := rfl
@[simp] theorem setCur_runs (s : State) (p : PcSlot) : (setCur s p).runs = s.runs := rfl
@[simp] theorem setCur_turns (s : State) (p : PcSlot) : (setCur s p).turns = s.turns := rfl
@[simp] theorem setCur_classes (s : State) (p : PcSlot) : (setCur s p).classes = s.classes := rfl
@[simp] theorem setCur_reports (s : State) (p : PcSlot) : (setCur s p).reports = s.reports := rfl
@[simp] theorem setCur_refreshing (s : State) (p : PcSlot) : (setCur s p).refreshing = s.refreshing := rfl
@[simp] theorem setCur_ports (s : State) (p : PcSlot) : (setCur s p).ports = s.ports := rfl
@[simp] theorem setCur_conns (s : State) (p : PcSlot) : (setCur s p).conns = s.conns := rfl
@[simp] theorem setCur_measure (s : State) (p : PcSlot) : (setCur s p).measure = s.measure := rfl
@[simp] theorem setCur_stageHashes (s : State) (p : PcSlot) : (setCur s p).stageHashes = s.stageHashes := rfl
@[simp] theorem setCur_portOpen (s : State) (p : PcSlot) : (setCur s p).portOpen = s.portOpen := rfl
@[simp] theorem setCur_failed (s : State) (p : PcSlot) : (setCur s p).failed = s.failed := rfl
@[simp] theorem setCur_stalled (s : State) (p : PcSlot) : (setCur s p).stalled = s.stalled := rfl
@[simp] theorem setCur_gone (s : State) (p : PcSlot) : (setCur s p).gone = s.gone := rfl
@[simp] theorem setCur_outbox (s : State) (p : PcSlot) : (setCur s p).outbox = s.outbox := rfl
@[simp] theorem setCur_replies (s : State) (p : PcSlot) : (setCur s p).replies = s.replies := rfl
@[simp] theorem setCur_now (s : State) (p : PcSlot) : (setCur s p).now = s.now := rfl
@[simp] theorem setCur_meterAt (s : State) (p : PcSlot) : (setCur s p).meterAt = s.meterAt := rfl
@[simp] theorem setCur_draw (s : State) (p : PcSlot) : (setCur s p).draw = s.draw := rfl
@[simp] theorem setCur_agenda (s : State) (p : PcSlot) : (setCur s p).agenda = s.agenda := rfl

/-! ### An instruction that moves on -/

@[simp] theorem advance_g (i : Instr) (s : State) (g : Group) :
    (advance i s g).g = g.setSlot s.slot ((cur s).moveTo s.now (nextAddr i (cur s))) := rfl
@[simp] theorem advance_slot (i : Instr) (s : State) (g : Group) : (advance i s g).slot = s.slot := rfl
@[simp] theorem advance_team (i : Instr) (s : State) (g : Group) : (advance i s g).team = s.team := rfl
@[simp] theorem advance_vd (i : Instr) (s : State) (g : Group) : (advance i s g).vd = s.vd := rfl
@[simp] theorem advance_groups (i : Instr) (s : State) (g : Group) : (advance i s g).groups = s.groups := rfl
@[simp] theorem advance_teams (i : Instr) (s : State) (g : Group) : (advance i s g).teams = s.teams := rfl
@[simp] theorem advance_devices (i : Instr) (s : State) (g : Group) : (advance i s g).devices = s.devices := rfl
@[simp] theorem advance_partitions (i : Instr) (s : State) (g : Group) : (advance i s g).partitions = s.partitions := rfl
@[simp] theorem advance_cores (i : Instr) (s : State) (g : Group) : (advance i s g).cores = s.cores := rfl
@[simp] theorem advance_dies (i : Instr) (s : State) (g : Group) : (advance i s g).dies = s.dies := rfl
@[simp] theorem advance_mem (i : Instr) (s : State) (g : Group) : (advance i s g).mem = s.mem := rfl
@[simp] theorem advance_ptes (i : Instr) (s : State) (g : Group) : (advance i s g).ptes = s.ptes := rfl
@[simp] theorem advance_poison (i : Instr) (s : State) (g : Group) : (advance i s g).poison = s.poison := rfl
@[simp] theorem advance_marked (i : Instr) (s : State) (g : Group) : (advance i s g).marked = s.marked := rfl
@[simp] theorem advance_used (i : Instr) (s : State) (g : Group) : (advance i s g).used = s.used := rfl
@[simp] theorem advance_cache (i : Instr) (s : State) (g : Group) : (advance i s g).cache = s.cache := rfl
@[simp] theorem advance_lines (i : Instr) (s : State) (g : Group) : (advance i s g).lines = s.lines := rfl
@[simp] theorem advance_peerLines (i : Instr) (s : State) (g : Group) : (advance i s g).peerLines = s.peerLines := rfl
@[simp] theorem advance_peer (i : Instr) (s : State) (g : Group) : (advance i s g).peer = s.peer := rfl
@[simp] theorem advance_peerPoison (i : Instr) (s : State) (g : Group) : (advance i s g).peerPoison = s.peerPoison := rfl
@[simp] theorem advance_encodes (i : Instr) (s : State) (g : Group) : (advance i s g).encodes = s.encodes := rfl
@[simp] theorem advance_run (i : Instr) (s : State) (g : Group) : (advance i s g).run = s.run := rfl
@[simp] theorem advance_runs (i : Instr) (s : State) (g : Group) : (advance i s g).runs = s.runs := rfl
@[simp] theorem advance_turns (i : Instr) (s : State) (g : Group) : (advance i s g).turns = s.turns := rfl
@[simp] theorem advance_classes (i : Instr) (s : State) (g : Group) : (advance i s g).classes = s.classes := rfl
@[simp] theorem advance_reports (i : Instr) (s : State) (g : Group) : (advance i s g).reports = s.reports := rfl
@[simp] theorem advance_refreshing (i : Instr) (s : State) (g : Group) : (advance i s g).refreshing = s.refreshing := rfl
@[simp] theorem advance_ports (i : Instr) (s : State) (g : Group) : (advance i s g).ports = s.ports := rfl
@[simp] theorem advance_conns (i : Instr) (s : State) (g : Group) : (advance i s g).conns = s.conns := rfl
@[simp] theorem advance_measure (i : Instr) (s : State) (g : Group) : (advance i s g).measure = s.measure := rfl
@[simp] theorem advance_stageHashes (i : Instr) (s : State) (g : Group) : (advance i s g).stageHashes = s.stageHashes := rfl
@[simp] theorem advance_portOpen (i : Instr) (s : State) (g : Group) : (advance i s g).portOpen = s.portOpen := rfl
@[simp] theorem advance_failed (i : Instr) (s : State) (g : Group) : (advance i s g).failed = s.failed := rfl
@[simp] theorem advance_stalled (i : Instr) (s : State) (g : Group) : (advance i s g).stalled = s.stalled := rfl
@[simp] theorem advance_gone (i : Instr) (s : State) (g : Group) : (advance i s g).gone = s.gone := rfl
@[simp] theorem advance_outbox (i : Instr) (s : State) (g : Group) : (advance i s g).outbox = s.outbox := rfl
@[simp] theorem advance_replies (i : Instr) (s : State) (g : Group) : (advance i s g).replies = s.replies := rfl
@[simp] theorem advance_now (i : Instr) (s : State) (g : Group) : (advance i s g).now = s.now := rfl
@[simp] theorem advance_meterAt (i : Instr) (s : State) (g : Group) : (advance i s g).meterAt = s.meterAt := rfl
@[simp] theorem advance_draw (i : Instr) (s : State) (g : Group) : (advance i s g).draw = s.draw := rfl
@[simp] theorem advance_agenda (i : Instr) (s : State) (g : Group) : (advance i s g).agenda = s.agenda := rfl

/-! ### The clock -/

@[simp] theorem tick_now (s : State) : (tick s).now = s.now + 1 + Config.freeTicks s.draw := rfl
@[simp] theorem tick_draw (s : State) : (tick s).draw = s.draw + 1 := rfl
@[simp] theorem tick_g (s : State) : (tick s).g = s.g := rfl
@[simp] theorem tick_slot (s : State) : (tick s).slot = s.slot := rfl
@[simp] theorem tick_team (s : State) : (tick s).team = s.team := rfl
@[simp] theorem tick_vd (s : State) : (tick s).vd = s.vd := rfl
@[simp] theorem tick_groups (s : State) : (tick s).groups = s.groups := rfl
@[simp] theorem tick_teams (s : State) : (tick s).teams = s.teams := rfl
@[simp] theorem tick_devices (s : State) : (tick s).devices = s.devices := rfl
@[simp] theorem tick_partitions (s : State) : (tick s).partitions = s.partitions := rfl
@[simp] theorem tick_cores (s : State) : (tick s).cores = s.cores := rfl
@[simp] theorem tick_dies (s : State) : (tick s).dies = s.dies := rfl
@[simp] theorem tick_mem (s : State) : (tick s).mem = s.mem := rfl
@[simp] theorem tick_ptes (s : State) : (tick s).ptes = s.ptes := rfl
@[simp] theorem tick_poison (s : State) : (tick s).poison = s.poison := rfl
@[simp] theorem tick_marked (s : State) : (tick s).marked = s.marked := rfl
@[simp] theorem tick_used (s : State) : (tick s).used = s.used := rfl
@[simp] theorem tick_cache (s : State) : (tick s).cache = s.cache := rfl
@[simp] theorem tick_lines (s : State) : (tick s).lines = s.lines := rfl
@[simp] theorem tick_peerLines (s : State) : (tick s).peerLines = s.peerLines := rfl
@[simp] theorem tick_peer (s : State) : (tick s).peer = s.peer := rfl
@[simp] theorem tick_peerPoison (s : State) : (tick s).peerPoison = s.peerPoison := rfl
@[simp] theorem tick_encodes (s : State) : (tick s).encodes = s.encodes := rfl
@[simp] theorem tick_run (s : State) : (tick s).run = s.run := rfl
@[simp] theorem tick_runs (s : State) : (tick s).runs = s.runs := rfl
@[simp] theorem tick_turns (s : State) : (tick s).turns = s.turns := rfl
@[simp] theorem tick_classes (s : State) : (tick s).classes = s.classes := rfl
@[simp] theorem tick_reports (s : State) : (tick s).reports = s.reports := rfl
@[simp] theorem tick_refreshing (s : State) : (tick s).refreshing = s.refreshing := rfl
@[simp] theorem tick_ports (s : State) : (tick s).ports = s.ports := rfl
@[simp] theorem tick_conns (s : State) : (tick s).conns = s.conns := rfl
@[simp] theorem tick_measure (s : State) : (tick s).measure = s.measure := rfl
@[simp] theorem tick_stageHashes (s : State) : (tick s).stageHashes = s.stageHashes := rfl
@[simp] theorem tick_portOpen (s : State) : (tick s).portOpen = s.portOpen := rfl
@[simp] theorem tick_failed (s : State) : (tick s).failed = s.failed := rfl
@[simp] theorem tick_stalled (s : State) : (tick s).stalled = s.stalled := rfl
@[simp] theorem tick_gone (s : State) : (tick s).gone = s.gone := rfl
@[simp] theorem tick_outbox (s : State) : (tick s).outbox = s.outbox := rfl
@[simp] theorem tick_replies (s : State) : (tick s).replies = s.replies := rfl
@[simp] theorem tick_meterAt (s : State) : (tick s).meterAt = s.meterAt := rfl
@[simp] theorem tick_agenda (s : State) : (tick s).agenda = s.agenda := rfl

/-! ### Meters and counts -/

@[simp] theorem meter_g (s : State) (i n : Nat) : (meter s i n).g = s.g := rfl
@[simp] theorem meter_slot (s : State) (i n : Nat) : (meter s i n).slot = s.slot := rfl
@[simp] theorem meter_team (s : State) (i n : Nat) : (meter s i n).team = s.team := rfl
@[simp] theorem meter_groups (s : State) (i n : Nat) : (meter s i n).groups = s.groups := rfl
@[simp] theorem meter_teams (s : State) (i n : Nat) : (meter s i n).teams = s.teams := rfl
@[simp] theorem meter_devices (s : State) (i n : Nat) : (meter s i n).devices = s.devices := rfl
@[simp] theorem meter_partitions (s : State) (i n : Nat) : (meter s i n).partitions = s.partitions := rfl
@[simp] theorem meter_cores (s : State) (i n : Nat) : (meter s i n).cores = s.cores := rfl
@[simp] theorem meter_dies (s : State) (i n : Nat) : (meter s i n).dies = s.dies := rfl
@[simp] theorem meter_mem (s : State) (i n : Nat) : (meter s i n).mem = s.mem := rfl
@[simp] theorem meter_ptes (s : State) (i n : Nat) : (meter s i n).ptes = s.ptes := rfl
@[simp] theorem meter_poison (s : State) (i n : Nat) : (meter s i n).poison = s.poison := rfl
@[simp] theorem meter_marked (s : State) (i n : Nat) : (meter s i n).marked = s.marked := rfl
@[simp] theorem meter_used (s : State) (i n : Nat) : (meter s i n).used = s.used := rfl
@[simp] theorem meter_cache (s : State) (i n : Nat) : (meter s i n).cache = s.cache := rfl
@[simp] theorem meter_lines (s : State) (i n : Nat) : (meter s i n).lines = s.lines := rfl
@[simp] theorem meter_peerLines (s : State) (i n : Nat) : (meter s i n).peerLines = s.peerLines := rfl
@[simp] theorem meter_peer (s : State) (i n : Nat) : (meter s i n).peer = s.peer := rfl
@[simp] theorem meter_peerPoison (s : State) (i n : Nat) : (meter s i n).peerPoison = s.peerPoison := rfl
@[simp] theorem meter_encodes (s : State) (i n : Nat) : (meter s i n).encodes = s.encodes := rfl
@[simp] theorem meter_run (s : State) (i n : Nat) : (meter s i n).run = s.run := rfl
@[simp] theorem meter_runs (s : State) (i n : Nat) : (meter s i n).runs = s.runs := rfl
@[simp] theorem meter_turns (s : State) (i n : Nat) : (meter s i n).turns = s.turns := rfl
@[simp] theorem meter_classes (s : State) (i n : Nat) : (meter s i n).classes = s.classes := rfl
@[simp] theorem meter_reports (s : State) (i n : Nat) : (meter s i n).reports = s.reports := rfl
@[simp] theorem meter_refreshing (s : State) (i n : Nat) : (meter s i n).refreshing = s.refreshing := rfl
@[simp] theorem meter_ports (s : State) (i n : Nat) : (meter s i n).ports = s.ports := rfl
@[simp] theorem meter_conns (s : State) (i n : Nat) : (meter s i n).conns = s.conns := rfl
@[simp] theorem meter_measure (s : State) (i n : Nat) : (meter s i n).measure = s.measure := rfl
@[simp] theorem meter_stageHashes (s : State) (i n : Nat) : (meter s i n).stageHashes = s.stageHashes := rfl
@[simp] theorem meter_portOpen (s : State) (i n : Nat) : (meter s i n).portOpen = s.portOpen := rfl
@[simp] theorem meter_failed (s : State) (i n : Nat) : (meter s i n).failed = s.failed := rfl
@[simp] theorem meter_stalled (s : State) (i n : Nat) : (meter s i n).stalled = s.stalled := rfl
@[simp] theorem meter_gone (s : State) (i n : Nat) : (meter s i n).gone = s.gone := rfl
@[simp] theorem meter_outbox (s : State) (i n : Nat) : (meter s i n).outbox = s.outbox := rfl
@[simp] theorem meter_replies (s : State) (i n : Nat) : (meter s i n).replies = s.replies := rfl
@[simp] theorem meter_now (s : State) (i n : Nat) : (meter s i n).now = s.now := rfl
@[simp] theorem meter_meterAt (s : State) (i n : Nat) : (meter s i n).meterAt = s.meterAt := rfl
@[simp] theorem meter_draw (s : State) (i n : Nat) : (meter s i n).draw = s.draw := rfl
@[simp] theorem meter_agenda (s : State) (i n : Nat) : (meter s i n).agenda = s.agenda := rfl

theorem countLanes_zero (s : State) : countLanes s 0 = s := rfl
@[simp] theorem countLanes_g (s : State) (n : Nat) : (countLanes s n).g = s.g := by unfold countLanes; split <;> rfl
@[simp] theorem countLanes_slot (s : State) (n : Nat) : (countLanes s n).slot = s.slot := by unfold countLanes; split <;> rfl
@[simp] theorem countLanes_groups (s : State) (n : Nat) : (countLanes s n).groups = s.groups := by unfold countLanes; split <;> rfl
@[simp] theorem countLanes_teams (s : State) (n : Nat) : (countLanes s n).teams = s.teams := by unfold countLanes; split <;> rfl
@[simp] theorem countLanes_devices (s : State) (n : Nat) : (countLanes s n).devices = s.devices := by unfold countLanes; split <;> rfl
@[simp] theorem countLanes_partitions (s : State) (n : Nat) : (countLanes s n).partitions = s.partitions := by unfold countLanes; split <;> rfl
@[simp] theorem countLanes_cores (s : State) (n : Nat) : (countLanes s n).cores = s.cores := by unfold countLanes; split <;> rfl
@[simp] theorem countLanes_dies (s : State) (n : Nat) : (countLanes s n).dies = s.dies := by unfold countLanes; split <;> rfl
@[simp] theorem countLanes_mem (s : State) (n : Nat) : (countLanes s n).mem = s.mem := by unfold countLanes; split <;> rfl
@[simp] theorem countLanes_ptes (s : State) (n : Nat) : (countLanes s n).ptes = s.ptes := by unfold countLanes; split <;> rfl
@[simp] theorem countLanes_poison (s : State) (n : Nat) : (countLanes s n).poison = s.poison := by unfold countLanes; split <;> rfl
@[simp] theorem countLanes_marked (s : State) (n : Nat) : (countLanes s n).marked = s.marked := by unfold countLanes; split <;> rfl
@[simp] theorem countLanes_used (s : State) (n : Nat) : (countLanes s n).used = s.used := by unfold countLanes; split <;> rfl
@[simp] theorem countLanes_cache (s : State) (n : Nat) : (countLanes s n).cache = s.cache := by unfold countLanes; split <;> rfl
@[simp] theorem countLanes_lines (s : State) (n : Nat) : (countLanes s n).lines = s.lines := by unfold countLanes; split <;> rfl
@[simp] theorem countLanes_peerLines (s : State) (n : Nat) : (countLanes s n).peerLines = s.peerLines := by unfold countLanes; split <;> rfl
@[simp] theorem countLanes_peer (s : State) (n : Nat) : (countLanes s n).peer = s.peer := by unfold countLanes; split <;> rfl
@[simp] theorem countLanes_peerPoison (s : State) (n : Nat) : (countLanes s n).peerPoison = s.peerPoison := by unfold countLanes; split <;> rfl
@[simp] theorem countLanes_encodes (s : State) (n : Nat) : (countLanes s n).encodes = s.encodes := by unfold countLanes; split <;> rfl
@[simp] theorem countLanes_run (s : State) (n : Nat) : (countLanes s n).run = s.run := by unfold countLanes; split <;> rfl
@[simp] theorem countLanes_runs (s : State) (n : Nat) : (countLanes s n).runs = s.runs := by unfold countLanes; split <;> rfl
@[simp] theorem countLanes_turns (s : State) (n : Nat) : (countLanes s n).turns = s.turns := by unfold countLanes; split <;> rfl
@[simp] theorem countLanes_classes (s : State) (n : Nat) : (countLanes s n).classes = s.classes := by unfold countLanes; split <;> rfl
@[simp] theorem countLanes_reports (s : State) (n : Nat) : (countLanes s n).reports = s.reports := by unfold countLanes; split <;> rfl
@[simp] theorem countLanes_refreshing (s : State) (n : Nat) : (countLanes s n).refreshing = s.refreshing := by unfold countLanes; split <;> rfl
@[simp] theorem countLanes_ports (s : State) (n : Nat) : (countLanes s n).ports = s.ports := by unfold countLanes; split <;> rfl
@[simp] theorem countLanes_conns (s : State) (n : Nat) : (countLanes s n).conns = s.conns := by unfold countLanes; split <;> rfl
@[simp] theorem countLanes_measure (s : State) (n : Nat) : (countLanes s n).measure = s.measure := by unfold countLanes; split <;> rfl
@[simp] theorem countLanes_stageHashes (s : State) (n : Nat) : (countLanes s n).stageHashes = s.stageHashes := by unfold countLanes; split <;> rfl
@[simp] theorem countLanes_portOpen (s : State) (n : Nat) : (countLanes s n).portOpen = s.portOpen := by unfold countLanes; split <;> rfl
@[simp] theorem countLanes_failed (s : State) (n : Nat) : (countLanes s n).failed = s.failed := by unfold countLanes; split <;> rfl
@[simp] theorem countLanes_stalled (s : State) (n : Nat) : (countLanes s n).stalled = s.stalled := by unfold countLanes; split <;> rfl
@[simp] theorem countLanes_gone (s : State) (n : Nat) : (countLanes s n).gone = s.gone := by unfold countLanes; split <;> rfl
@[simp] theorem countLanes_outbox (s : State) (n : Nat) : (countLanes s n).outbox = s.outbox := by unfold countLanes; split <;> rfl
@[simp] theorem countLanes_replies (s : State) (n : Nat) : (countLanes s n).replies = s.replies := by unfold countLanes; split <;> rfl
@[simp] theorem countLanes_now (s : State) (n : Nat) : (countLanes s n).now = s.now := by unfold countLanes; split <;> rfl
@[simp] theorem countLanes_meterAt (s : State) (n : Nat) : (countLanes s n).meterAt = s.meterAt := by unfold countLanes; split <;> rfl
@[simp] theorem countLanes_draw (s : State) (n : Nat) : (countLanes s n).draw = s.draw := by unfold countLanes; split <;> rfl
@[simp] theorem countLanes_agenda (s : State) (n : Nat) : (countLanes s n).agenda = s.agenda := by unfold countLanes; split <;> rfl

/-! ### The fabric -/

@[simp] theorem cross_g (s : State) (n : Nat) : (cross s n).g = s.g := by unfold cross; split <;> rfl
@[simp] theorem cross_slot (s : State) (n : Nat) : (cross s n).slot = s.slot := by unfold cross; split <;> rfl
@[simp] theorem cross_team (s : State) (n : Nat) : (cross s n).team = s.team := by unfold cross; split <;> rfl
@[simp] theorem cross_groups (s : State) (n : Nat) : (cross s n).groups = s.groups := by unfold cross; split <;> rfl
@[simp] theorem cross_teams (s : State) (n : Nat) : (cross s n).teams = s.teams := by unfold cross; split <;> rfl
@[simp] theorem cross_devices (s : State) (n : Nat) : (cross s n).devices = s.devices := by unfold cross; split <;> rfl
@[simp] theorem cross_partitions (s : State) (n : Nat) : (cross s n).partitions = s.partitions := by unfold cross; split <;> rfl
@[simp] theorem cross_cores (s : State) (n : Nat) : (cross s n).cores = s.cores := by unfold cross; split <;> rfl
@[simp] theorem cross_dies (s : State) (n : Nat) : (cross s n).dies = s.dies := by unfold cross; split <;> rfl
@[simp] theorem cross_mem (s : State) (n : Nat) : (cross s n).mem = s.mem := by unfold cross; split <;> rfl
@[simp] theorem cross_ptes (s : State) (n : Nat) : (cross s n).ptes = s.ptes := by unfold cross; split <;> rfl
@[simp] theorem cross_poison (s : State) (n : Nat) : (cross s n).poison = s.poison := by unfold cross; split <;> rfl
@[simp] theorem cross_marked (s : State) (n : Nat) : (cross s n).marked = s.marked := by unfold cross; split <;> rfl
@[simp] theorem cross_used (s : State) (n : Nat) : (cross s n).used = s.used := by unfold cross; split <;> rfl
@[simp] theorem cross_cache (s : State) (n : Nat) : (cross s n).cache = s.cache := by unfold cross; split <;> rfl
@[simp] theorem cross_lines (s : State) (n : Nat) : (cross s n).lines = s.lines := by unfold cross; split <;> rfl
@[simp] theorem cross_peerLines (s : State) (n : Nat) : (cross s n).peerLines = s.peerLines := by unfold cross; split <;> rfl
@[simp] theorem cross_peer (s : State) (n : Nat) : (cross s n).peer = s.peer := by unfold cross; split <;> rfl
@[simp] theorem cross_peerPoison (s : State) (n : Nat) : (cross s n).peerPoison = s.peerPoison := by unfold cross; split <;> rfl
@[simp] theorem cross_encodes (s : State) (n : Nat) : (cross s n).encodes = s.encodes := by unfold cross; split <;> rfl
@[simp] theorem cross_run (s : State) (n : Nat) : (cross s n).run = s.run := by unfold cross; split <;> rfl
@[simp] theorem cross_runs (s : State) (n : Nat) : (cross s n).runs = s.runs := by unfold cross; split <;> rfl
@[simp] theorem cross_turns (s : State) (n : Nat) : (cross s n).turns = s.turns := by unfold cross; split <;> rfl
@[simp] theorem cross_classes (s : State) (n : Nat) : (cross s n).classes = s.classes := by unfold cross; split <;> rfl
@[simp] theorem cross_reports (s : State) (n : Nat) : (cross s n).reports = s.reports := by unfold cross; split <;> rfl
@[simp] theorem cross_refreshing (s : State) (n : Nat) : (cross s n).refreshing = s.refreshing := by unfold cross; split <;> rfl
@[simp] theorem cross_ports (s : State) (n : Nat) : (cross s n).ports = s.ports := by unfold cross; split <;> rfl
@[simp] theorem cross_conns (s : State) (n : Nat) : (cross s n).conns = s.conns := by unfold cross; split <;> rfl
@[simp] theorem cross_measure (s : State) (n : Nat) : (cross s n).measure = s.measure := by unfold cross; split <;> rfl
@[simp] theorem cross_stageHashes (s : State) (n : Nat) : (cross s n).stageHashes = s.stageHashes := by unfold cross; split <;> rfl
@[simp] theorem cross_portOpen (s : State) (n : Nat) : (cross s n).portOpen = s.portOpen := by unfold cross; split <;> rfl
@[simp] theorem cross_failed (s : State) (n : Nat) : (cross s n).failed = s.failed := by unfold cross; split <;> rfl
@[simp] theorem cross_gone (s : State) (n : Nat) : (cross s n).gone = s.gone := by unfold cross; split <;> rfl
@[simp] theorem cross_outbox (s : State) (n : Nat) : (cross s n).outbox = s.outbox := by unfold cross; split <;> rfl
@[simp] theorem cross_replies (s : State) (n : Nat) : (cross s n).replies = s.replies := by unfold cross; split <;> rfl
@[simp] theorem cross_now (s : State) (n : Nat) : (cross s n).now = s.now := by unfold cross; split <;> rfl
@[simp] theorem cross_meterAt (s : State) (n : Nat) : (cross s n).meterAt = s.meterAt := by unfold cross; split <;> rfl
@[simp] theorem cross_draw (s : State) (n : Nat) : (cross s n).draw = s.draw := by unfold cross; split <;> rfl
@[simp] theorem cross_agenda (s : State) (n : Nat) : (cross s n).agenda = s.agenda := by unfold cross; split <;> rfl

@[simp] theorem takeLine_g (s : State) (die : Nat) (l : Loc) : ((takeLine s die l).1).g = s.g := by unfold takeLine; split <;> simp
@[simp] theorem takeLine_slot (s : State) (die : Nat) (l : Loc) : ((takeLine s die l).1).slot = s.slot := by unfold takeLine; split <;> simp
@[simp] theorem takeLine_team (s : State) (die : Nat) (l : Loc) : ((takeLine s die l).1).team = s.team := by unfold takeLine; split <;> simp
@[simp] theorem takeLine_groups (s : State) (die : Nat) (l : Loc) : ((takeLine s die l).1).groups = s.groups := by unfold takeLine; split <;> simp
@[simp] theorem takeLine_teams (s : State) (die : Nat) (l : Loc) : ((takeLine s die l).1).teams = s.teams := by unfold takeLine; split <;> simp
@[simp] theorem takeLine_devices (s : State) (die : Nat) (l : Loc) : ((takeLine s die l).1).devices = s.devices := by unfold takeLine; split <;> simp
@[simp] theorem takeLine_partitions (s : State) (die : Nat) (l : Loc) : ((takeLine s die l).1).partitions = s.partitions := by unfold takeLine; split <;> simp
@[simp] theorem takeLine_cores (s : State) (die : Nat) (l : Loc) : ((takeLine s die l).1).cores = s.cores := by unfold takeLine; split <;> simp
@[simp] theorem takeLine_dies (s : State) (die : Nat) (l : Loc) : ((takeLine s die l).1).dies = s.dies := by unfold takeLine; split <;> simp
@[simp] theorem takeLine_mem (s : State) (die : Nat) (l : Loc) : ((takeLine s die l).1).mem = s.mem := by unfold takeLine; split <;> simp
@[simp] theorem takeLine_ptes (s : State) (die : Nat) (l : Loc) : ((takeLine s die l).1).ptes = s.ptes := by unfold takeLine; split <;> simp
@[simp] theorem takeLine_poison (s : State) (die : Nat) (l : Loc) : ((takeLine s die l).1).poison = s.poison := by unfold takeLine; split <;> simp
@[simp] theorem takeLine_marked (s : State) (die : Nat) (l : Loc) : ((takeLine s die l).1).marked = s.marked := by unfold takeLine; split <;> simp
@[simp] theorem takeLine_used (s : State) (die : Nat) (l : Loc) : ((takeLine s die l).1).used = s.used := by unfold takeLine; split <;> simp
@[simp] theorem takeLine_cache (s : State) (die : Nat) (l : Loc) : ((takeLine s die l).1).cache = s.cache := by unfold takeLine; split <;> simp
@[simp] theorem takeLine_lines (s : State) (die : Nat) (l : Loc) : ((takeLine s die l).1).lines = s.lines := by unfold takeLine; split <;> simp
@[simp] theorem takeLine_peerLines (s : State) (die : Nat) (l : Loc) : ((takeLine s die l).1).peerLines = s.peerLines := by unfold takeLine; split <;> simp
@[simp] theorem takeLine_peer (s : State) (die : Nat) (l : Loc) : ((takeLine s die l).1).peer = s.peer := by unfold takeLine; split <;> simp
@[simp] theorem takeLine_peerPoison (s : State) (die : Nat) (l : Loc) : ((takeLine s die l).1).peerPoison = s.peerPoison := by unfold takeLine; split <;> simp
@[simp] theorem takeLine_encodes (s : State) (die : Nat) (l : Loc) : ((takeLine s die l).1).encodes = s.encodes := by unfold takeLine; split <;> simp
@[simp] theorem takeLine_run (s : State) (die : Nat) (l : Loc) : ((takeLine s die l).1).run = s.run := by unfold takeLine; split <;> simp
@[simp] theorem takeLine_runs (s : State) (die : Nat) (l : Loc) : ((takeLine s die l).1).runs = s.runs := by unfold takeLine; split <;> simp
@[simp] theorem takeLine_turns (s : State) (die : Nat) (l : Loc) : ((takeLine s die l).1).turns = s.turns := by unfold takeLine; split <;> simp
@[simp] theorem takeLine_classes (s : State) (die : Nat) (l : Loc) : ((takeLine s die l).1).classes = s.classes := by unfold takeLine; split <;> simp
@[simp] theorem takeLine_reports (s : State) (die : Nat) (l : Loc) : ((takeLine s die l).1).reports = s.reports := by unfold takeLine; split <;> simp
@[simp] theorem takeLine_refreshing (s : State) (die : Nat) (l : Loc) : ((takeLine s die l).1).refreshing = s.refreshing := by unfold takeLine; split <;> simp
@[simp] theorem takeLine_ports (s : State) (die : Nat) (l : Loc) : ((takeLine s die l).1).ports = s.ports := by unfold takeLine; split <;> simp
@[simp] theorem takeLine_conns (s : State) (die : Nat) (l : Loc) : ((takeLine s die l).1).conns = s.conns := by unfold takeLine; split <;> simp
@[simp] theorem takeLine_measure (s : State) (die : Nat) (l : Loc) : ((takeLine s die l).1).measure = s.measure := by unfold takeLine; split <;> simp
@[simp] theorem takeLine_stageHashes (s : State) (die : Nat) (l : Loc) : ((takeLine s die l).1).stageHashes = s.stageHashes := by unfold takeLine; split <;> simp
@[simp] theorem takeLine_portOpen (s : State) (die : Nat) (l : Loc) : ((takeLine s die l).1).portOpen = s.portOpen := by unfold takeLine; split <;> simp
@[simp] theorem takeLine_failed (s : State) (die : Nat) (l : Loc) : ((takeLine s die l).1).failed = s.failed := by unfold takeLine; split <;> simp
@[simp] theorem takeLine_gone (s : State) (die : Nat) (l : Loc) : ((takeLine s die l).1).gone = s.gone := by unfold takeLine; split <;> simp
@[simp] theorem takeLine_outbox (s : State) (die : Nat) (l : Loc) : ((takeLine s die l).1).outbox = s.outbox := by unfold takeLine; split <;> simp
@[simp] theorem takeLine_replies (s : State) (die : Nat) (l : Loc) : ((takeLine s die l).1).replies = s.replies := by unfold takeLine; split <;> simp
@[simp] theorem takeLine_now (s : State) (die : Nat) (l : Loc) : ((takeLine s die l).1).now = s.now := by unfold takeLine; split <;> simp
@[simp] theorem takeLine_meterAt (s : State) (die : Nat) (l : Loc) : ((takeLine s die l).1).meterAt = s.meterAt := by unfold takeLine; split <;> simp
@[simp] theorem takeLine_draw (s : State) (die : Nat) (l : Loc) : ((takeLine s die l).1).draw = s.draw := by unfold takeLine; split <;> simp
@[simp] theorem takeLine_agenda (s : State) (die : Nat) (l : Loc) : ((takeLine s die l).1).agenda = s.agenda := by unfold takeLine; split <;> simp

/-! ### Cores and dies -/

@[simp] theorem onCore_g (s : State) (n : Nat) (f : Core → Core) : (onCore s n f).g = s.g := rfl
@[simp] theorem onCore_slot (s : State) (n : Nat) (f : Core → Core) : (onCore s n f).slot = s.slot := rfl
@[simp] theorem onCore_team (s : State) (n : Nat) (f : Core → Core) : (onCore s n f).team = s.team := rfl
@[simp] theorem onCore_vd (s : State) (n : Nat) (f : Core → Core) : (onCore s n f).vd = s.vd := rfl
@[simp] theorem onCore_groups (s : State) (n : Nat) (f : Core → Core) : (onCore s n f).groups = s.groups := rfl
@[simp] theorem onCore_teams (s : State) (n : Nat) (f : Core → Core) : (onCore s n f).teams = s.teams := rfl
@[simp] theorem onCore_devices (s : State) (n : Nat) (f : Core → Core) : (onCore s n f).devices = s.devices := rfl
@[simp] theorem onCore_partitions (s : State) (n : Nat) (f : Core → Core) : (onCore s n f).partitions = s.partitions := rfl
@[simp] theorem onCore_dies (s : State) (n : Nat) (f : Core → Core) : (onCore s n f).dies = s.dies := rfl
@[simp] theorem onCore_mem (s : State) (n : Nat) (f : Core → Core) : (onCore s n f).mem = s.mem := rfl
@[simp] theorem onCore_ptes (s : State) (n : Nat) (f : Core → Core) : (onCore s n f).ptes = s.ptes := rfl
@[simp] theorem onCore_poison (s : State) (n : Nat) (f : Core → Core) : (onCore s n f).poison = s.poison := rfl
@[simp] theorem onCore_marked (s : State) (n : Nat) (f : Core → Core) : (onCore s n f).marked = s.marked := rfl
@[simp] theorem onCore_used (s : State) (n : Nat) (f : Core → Core) : (onCore s n f).used = s.used := rfl
@[simp] theorem onCore_cache (s : State) (n : Nat) (f : Core → Core) : (onCore s n f).cache = s.cache := rfl
@[simp] theorem onCore_lines (s : State) (n : Nat) (f : Core → Core) : (onCore s n f).lines = s.lines := rfl
@[simp] theorem onCore_peerLines (s : State) (n : Nat) (f : Core → Core) : (onCore s n f).peerLines = s.peerLines := rfl
@[simp] theorem onCore_peer (s : State) (n : Nat) (f : Core → Core) : (onCore s n f).peer = s.peer := rfl
@[simp] theorem onCore_peerPoison (s : State) (n : Nat) (f : Core → Core) : (onCore s n f).peerPoison = s.peerPoison := rfl
@[simp] theorem onCore_encodes (s : State) (n : Nat) (f : Core → Core) : (onCore s n f).encodes = s.encodes := rfl
@[simp] theorem onCore_run (s : State) (n : Nat) (f : Core → Core) : (onCore s n f).run = s.run := rfl
@[simp] theorem onCore_runs (s : State) (n : Nat) (f : Core → Core) : (onCore s n f).runs = s.runs := rfl
@[simp] theorem onCore_turns (s : State) (n : Nat) (f : Core → Core) : (onCore s n f).turns = s.turns := rfl
@[simp] theorem onCore_classes (s : State) (n : Nat) (f : Core → Core) : (onCore s n f).classes = s.classes := rfl
@[simp] theorem onCore_reports (s : State) (n : Nat) (f : Core → Core) : (onCore s n f).reports = s.reports := rfl
@[simp] theorem onCore_refreshing (s : State) (n : Nat) (f : Core → Core) : (onCore s n f).refreshing = s.refreshing := rfl
@[simp] theorem onCore_ports (s : State) (n : Nat) (f : Core → Core) : (onCore s n f).ports = s.ports := rfl
@[simp] theorem onCore_conns (s : State) (n : Nat) (f : Core → Core) : (onCore s n f).conns = s.conns := rfl
@[simp] theorem onCore_measure (s : State) (n : Nat) (f : Core → Core) : (onCore s n f).measure = s.measure := rfl
@[simp] theorem onCore_stageHashes (s : State) (n : Nat) (f : Core → Core) : (onCore s n f).stageHashes = s.stageHashes := rfl
@[simp] theorem onCore_portOpen (s : State) (n : Nat) (f : Core → Core) : (onCore s n f).portOpen = s.portOpen := rfl
@[simp] theorem onCore_failed (s : State) (n : Nat) (f : Core → Core) : (onCore s n f).failed = s.failed := rfl
@[simp] theorem onCore_stalled (s : State) (n : Nat) (f : Core → Core) : (onCore s n f).stalled = s.stalled := rfl
@[simp] theorem onCore_gone (s : State) (n : Nat) (f : Core → Core) : (onCore s n f).gone = s.gone := rfl
@[simp] theorem onCore_outbox (s : State) (n : Nat) (f : Core → Core) : (onCore s n f).outbox = s.outbox := rfl
@[simp] theorem onCore_replies (s : State) (n : Nat) (f : Core → Core) : (onCore s n f).replies = s.replies := rfl
@[simp] theorem onCore_now (s : State) (n : Nat) (f : Core → Core) : (onCore s n f).now = s.now := rfl
@[simp] theorem onCore_meterAt (s : State) (n : Nat) (f : Core → Core) : (onCore s n f).meterAt = s.meterAt := rfl
@[simp] theorem onCore_draw (s : State) (n : Nat) (f : Core → Core) : (onCore s n f).draw = s.draw := rfl
@[simp] theorem onCore_agenda (s : State) (n : Nat) (f : Core → Core) : (onCore s n f).agenda = s.agenda := rfl

@[simp] theorem countDie_g (s : State) (n : Nat) (f : Die → Die) : (countDie s n f).g = s.g := rfl
@[simp] theorem countDie_slot (s : State) (n : Nat) (f : Die → Die) : (countDie s n f).slot = s.slot := rfl
@[simp] theorem countDie_team (s : State) (n : Nat) (f : Die → Die) : (countDie s n f).team = s.team := rfl
@[simp] theorem countDie_vd (s : State) (n : Nat) (f : Die → Die) : (countDie s n f).vd = s.vd := rfl
@[simp] theorem countDie_groups (s : State) (n : Nat) (f : Die → Die) : (countDie s n f).groups = s.groups := rfl
@[simp] theorem countDie_teams (s : State) (n : Nat) (f : Die → Die) : (countDie s n f).teams = s.teams := rfl
@[simp] theorem countDie_devices (s : State) (n : Nat) (f : Die → Die) : (countDie s n f).devices = s.devices := rfl
@[simp] theorem countDie_partitions (s : State) (n : Nat) (f : Die → Die) : (countDie s n f).partitions = s.partitions := rfl
@[simp] theorem countDie_cores (s : State) (n : Nat) (f : Die → Die) : (countDie s n f).cores = s.cores := rfl
@[simp] theorem countDie_mem (s : State) (n : Nat) (f : Die → Die) : (countDie s n f).mem = s.mem := rfl
@[simp] theorem countDie_ptes (s : State) (n : Nat) (f : Die → Die) : (countDie s n f).ptes = s.ptes := rfl
@[simp] theorem countDie_poison (s : State) (n : Nat) (f : Die → Die) : (countDie s n f).poison = s.poison := rfl
@[simp] theorem countDie_marked (s : State) (n : Nat) (f : Die → Die) : (countDie s n f).marked = s.marked := rfl
@[simp] theorem countDie_used (s : State) (n : Nat) (f : Die → Die) : (countDie s n f).used = s.used := rfl
@[simp] theorem countDie_cache (s : State) (n : Nat) (f : Die → Die) : (countDie s n f).cache = s.cache := rfl
@[simp] theorem countDie_lines (s : State) (n : Nat) (f : Die → Die) : (countDie s n f).lines = s.lines := rfl
@[simp] theorem countDie_peerLines (s : State) (n : Nat) (f : Die → Die) : (countDie s n f).peerLines = s.peerLines := rfl
@[simp] theorem countDie_peer (s : State) (n : Nat) (f : Die → Die) : (countDie s n f).peer = s.peer := rfl
@[simp] theorem countDie_peerPoison (s : State) (n : Nat) (f : Die → Die) : (countDie s n f).peerPoison = s.peerPoison := rfl
@[simp] theorem countDie_encodes (s : State) (n : Nat) (f : Die → Die) : (countDie s n f).encodes = s.encodes := rfl
@[simp] theorem countDie_run (s : State) (n : Nat) (f : Die → Die) : (countDie s n f).run = s.run := rfl
@[simp] theorem countDie_runs (s : State) (n : Nat) (f : Die → Die) : (countDie s n f).runs = s.runs := rfl
@[simp] theorem countDie_turns (s : State) (n : Nat) (f : Die → Die) : (countDie s n f).turns = s.turns := rfl
@[simp] theorem countDie_classes (s : State) (n : Nat) (f : Die → Die) : (countDie s n f).classes = s.classes := rfl
@[simp] theorem countDie_reports (s : State) (n : Nat) (f : Die → Die) : (countDie s n f).reports = s.reports := rfl
@[simp] theorem countDie_refreshing (s : State) (n : Nat) (f : Die → Die) : (countDie s n f).refreshing = s.refreshing := rfl
@[simp] theorem countDie_ports (s : State) (n : Nat) (f : Die → Die) : (countDie s n f).ports = s.ports := rfl
@[simp] theorem countDie_conns (s : State) (n : Nat) (f : Die → Die) : (countDie s n f).conns = s.conns := rfl
@[simp] theorem countDie_measure (s : State) (n : Nat) (f : Die → Die) : (countDie s n f).measure = s.measure := rfl
@[simp] theorem countDie_stageHashes (s : State) (n : Nat) (f : Die → Die) : (countDie s n f).stageHashes = s.stageHashes := rfl
@[simp] theorem countDie_portOpen (s : State) (n : Nat) (f : Die → Die) : (countDie s n f).portOpen = s.portOpen := rfl
@[simp] theorem countDie_failed (s : State) (n : Nat) (f : Die → Die) : (countDie s n f).failed = s.failed := rfl
@[simp] theorem countDie_stalled (s : State) (n : Nat) (f : Die → Die) : (countDie s n f).stalled = s.stalled := rfl
@[simp] theorem countDie_gone (s : State) (n : Nat) (f : Die → Die) : (countDie s n f).gone = s.gone := rfl
@[simp] theorem countDie_outbox (s : State) (n : Nat) (f : Die → Die) : (countDie s n f).outbox = s.outbox := rfl
@[simp] theorem countDie_replies (s : State) (n : Nat) (f : Die → Die) : (countDie s n f).replies = s.replies := rfl
@[simp] theorem countDie_now (s : State) (n : Nat) (f : Die → Die) : (countDie s n f).now = s.now := rfl
@[simp] theorem countDie_meterAt (s : State) (n : Nat) (f : Die → Die) : (countDie s n f).meterAt = s.meterAt := rfl
@[simp] theorem countDie_draw (s : State) (n : Nat) (f : Die → Die) : (countDie s n f).draw = s.draw := rfl
@[simp] theorem countDie_agenda (s : State) (n : Nat) (f : Die → Die) : (countDie s n f).agenda = s.agenda := rfl

/-! ### Scalar, vector and handle registers -/

@[simp] theorem setSreg_ref (g : Group) (n : Nat) (x : Word) : (setSreg g n x).ref = g.ref := rfl
@[simp] theorem setSreg_role (g : Group) (n : Nat) (x : Word) : (setSreg g n x).role = g.role := rfl
@[simp] theorem setSreg_idx (g : Group) (n : Nat) (x : Word) : (setSreg g n x).idx = g.idx := rfl
@[simp] theorem setSreg_core (g : Group) (n : Nat) (x : Word) : (setSreg g n x).core = g.core := rfl
@[simp] theorem setSreg_sub (g : Group) (n : Nat) (x : Word) : (setSreg g n x).sub = g.sub := rfl
@[simp] theorem setSreg_a (g : Group) (n : Nat) (x : Word) : (setSreg g n x).a = g.a := rfl
@[simp] theorem setSreg_b (g : Group) (n : Nat) (x : Word) : (setSreg g n x).b = g.b := rfl
@[simp] theorem setSreg_exited (g : Group) (n : Nat) (x : Word) : (setSreg g n x).exited = g.exited := rfl
@[simp] theorem setSreg_returned (g : Group) (n : Nat) (x : Word) : (setSreg g n x).returned = g.returned := rfl
@[simp] theorem setSreg_vregs (g : Group) (n : Nat) (x : Word) : (setSreg g n x).vregs = g.vregs := rfl
@[simp] theorem setSreg_hregs (g : Group) (n : Nat) (x : Word) : (setSreg g n x).hregs = g.hregs := rfl
@[simp] theorem setSreg_flags (g : Group) (n : Nat) (x : Word) : (setSreg g n x).flags = g.flags := rfl
@[simp] theorem setSreg_tids (g : Group) (n : Nat) (x : Word) : (setSreg g n x).tids = g.tids := rfl
@[simp] theorem setSreg_marks (g : Group) (n : Nat) (x : Word) : (setSreg g n x).marks = g.marks := rfl
@[simp] theorem setSreg_fpc (g : Group) (n : Nat) (x : Word) : (setSreg g n x).fpc = g.fpc := rfl
@[simp] theorem setSreg_fps (g : Group) (n : Nat) (x : Word) : (setSreg g n x).fps = g.fps := rfl
@[simp] theorem setSreg_sts (g : Group) (n : Nat) (x : Word) : (setSreg g n x).sts = g.sts := rfl
@[simp] theorem setSreg_priv (g : Group) (n : Nat) (x : Word) : (setSreg g n x).priv = g.priv := rfl
@[simp] theorem setSreg_trappc (g : Group) (n : Nat) (x : Word) : (setSreg g n x).trappc = g.trappc := rfl
@[simp] theorem setSreg_trapnext (g : Group) (n : Nat) (x : Word) : (setSreg g n x).trapnext = g.trapnext := rfl
@[simp] theorem setSreg_trapmask (g : Group) (n : Nat) (x : Word) : (setSreg g n x).trapmask = g.trapmask := rfl
@[simp] theorem setSreg_trapcause (g : Group) (n : Nat) (x : Word) : (setSreg g n x).trapcause = g.trapcause := rfl
@[simp] theorem setSreg_trapdst (g : Group) (n : Nat) (x : Word) : (setSreg g n x).trapdst = g.trapdst := rfl
@[simp] theorem setSreg_trapaddr (g : Group) (n : Nat) (x : Word) : (setSreg g n x).trapaddr = g.trapaddr := rfl
@[simp] theorem setSreg_trapvec (g : Group) (n : Nat) (x : Word) : (setSreg g n x).trapvec = g.trapvec := rfl
@[simp] theorem setSreg_nextWritten (g : Group) (n : Nat) (x : Word) : (setSreg g n x).nextWritten = g.nextWritten := rfl
@[simp] theorem setSreg_trapHdr (g : Group) (n : Nat) (x : Word) : (setSreg g n x).trapHdr = g.trapHdr := rfl
@[simp] theorem setSreg_trapStand (g : Group) (n : Nat) (x : Word) : (setSreg g n x).trapStand = g.trapStand := rfl
@[simp] theorem setSreg_fwTrap (g : Group) (n : Nat) (x : Word) : (setSreg g n x).fwTrap = g.fwTrap := rfl
@[simp] theorem setSreg_sumpTop (g : Group) (n : Nat) (x : Word) : (setSreg g n x).sumpTop = g.sumpTop := rfl
@[simp] theorem setSreg_sumpPa (g : Group) (n : Nat) (x : Word) : (setSreg g n x).sumpPa = g.sumpPa := rfl
@[simp] theorem setSreg_pendA (g : Group) (n : Nat) (x : Word) : (setSreg g n x).pendA = g.pendA := rfl
@[simp] theorem setSreg_pendB (g : Group) (n : Nat) (x : Word) : (setSreg g n x).pendB = g.pendB := rfl
@[simp] theorem setSreg_entry (g : Group) (n : Nat) (x : Word) : (setSreg g n x).entry = g.entry := rfl
@[simp] theorem setSreg_parked (g : Group) (n : Nat) (x : Word) : (setSreg g n x).parked = g.parked := rfl
@[simp] theorem setSreg_parkFrom (g : Group) (n : Nat) (x : Word) : (setSreg g n x).parkFrom = g.parkFrom := rfl
@[simp] theorem setSreg_parkPc (g : Group) (n : Nat) (x : Word) : (setSreg g n x).parkPc = g.parkPc := rfl
@[simp] theorem setSreg_halted (g : Group) (n : Nat) (x : Word) : (setSreg g n x).halted = g.halted := rfl
@[simp] theorem setSreg_haltDue (g : Group) (n : Nat) (x : Word) : (setSreg g n x).haltDue = g.haltDue := rfl
@[simp] theorem setSreg_grace (g : Group) (n : Nat) (x : Word) : (setSreg g n x).grace = g.grace := rfl
@[simp] theorem setSreg_stopped (g : Group) (n : Nat) (x : Word) : (setSreg g n x).stopped = g.stopped := rfl
@[simp] theorem setSreg_offered (g : Group) (n : Nat) (x : Word) : (setSreg g n x).offered = g.offered := rfl
@[simp] theorem setSreg_offerSlot (g : Group) (n : Nat) (x : Word) : (setSreg g n x).offerSlot = g.offerSlot := rfl
@[simp] theorem setSreg_stepping (g : Group) (n : Nat) (x : Word) : (setSreg g n x).stepping = g.stepping := rfl
@[simp] theorem setSreg_inside (g : Group) (n : Nat) (x : Word) : (setSreg g n x).inside = g.inside := rfl
@[simp] theorem setSreg_inflight (g : Group) (n : Nat) (x : Word) : (setSreg g n x).inflight = g.inflight := rfl
@[simp] theorem setSreg_stores (g : Group) (n : Nat) (x : Word) : (setSreg g n x).stores = g.stores := rfl

@[simp] theorem setHreg_ref (g : Group) (n : Nat) (x : Dword) : (setHreg g n x).ref = g.ref := rfl
@[simp] theorem setHreg_role (g : Group) (n : Nat) (x : Dword) : (setHreg g n x).role = g.role := rfl
@[simp] theorem setHreg_idx (g : Group) (n : Nat) (x : Dword) : (setHreg g n x).idx = g.idx := rfl
@[simp] theorem setHreg_core (g : Group) (n : Nat) (x : Dword) : (setHreg g n x).core = g.core := rfl
@[simp] theorem setHreg_sub (g : Group) (n : Nat) (x : Dword) : (setHreg g n x).sub = g.sub := rfl
@[simp] theorem setHreg_a (g : Group) (n : Nat) (x : Dword) : (setHreg g n x).a = g.a := rfl
@[simp] theorem setHreg_b (g : Group) (n : Nat) (x : Dword) : (setHreg g n x).b = g.b := rfl
@[simp] theorem setHreg_exited (g : Group) (n : Nat) (x : Dword) : (setHreg g n x).exited = g.exited := rfl
@[simp] theorem setHreg_returned (g : Group) (n : Nat) (x : Dword) : (setHreg g n x).returned = g.returned := rfl
@[simp] theorem setHreg_vregs (g : Group) (n : Nat) (x : Dword) : (setHreg g n x).vregs = g.vregs := rfl
@[simp] theorem setHreg_sregs (g : Group) (n : Nat) (x : Dword) : (setHreg g n x).sregs = g.sregs := rfl
@[simp] theorem setHreg_flags (g : Group) (n : Nat) (x : Dword) : (setHreg g n x).flags = g.flags := rfl
@[simp] theorem setHreg_tids (g : Group) (n : Nat) (x : Dword) : (setHreg g n x).tids = g.tids := rfl
@[simp] theorem setHreg_marks (g : Group) (n : Nat) (x : Dword) : (setHreg g n x).marks = g.marks := rfl
@[simp] theorem setHreg_fpc (g : Group) (n : Nat) (x : Dword) : (setHreg g n x).fpc = g.fpc := rfl
@[simp] theorem setHreg_fps (g : Group) (n : Nat) (x : Dword) : (setHreg g n x).fps = g.fps := rfl
@[simp] theorem setHreg_sts (g : Group) (n : Nat) (x : Dword) : (setHreg g n x).sts = g.sts := rfl
@[simp] theorem setHreg_priv (g : Group) (n : Nat) (x : Dword) : (setHreg g n x).priv = g.priv := rfl
@[simp] theorem setHreg_trappc (g : Group) (n : Nat) (x : Dword) : (setHreg g n x).trappc = g.trappc := rfl
@[simp] theorem setHreg_trapnext (g : Group) (n : Nat) (x : Dword) : (setHreg g n x).trapnext = g.trapnext := rfl
@[simp] theorem setHreg_trapmask (g : Group) (n : Nat) (x : Dword) : (setHreg g n x).trapmask = g.trapmask := rfl
@[simp] theorem setHreg_trapcause (g : Group) (n : Nat) (x : Dword) : (setHreg g n x).trapcause = g.trapcause := rfl
@[simp] theorem setHreg_trapdst (g : Group) (n : Nat) (x : Dword) : (setHreg g n x).trapdst = g.trapdst := rfl
@[simp] theorem setHreg_trapaddr (g : Group) (n : Nat) (x : Dword) : (setHreg g n x).trapaddr = g.trapaddr := rfl
@[simp] theorem setHreg_trapvec (g : Group) (n : Nat) (x : Dword) : (setHreg g n x).trapvec = g.trapvec := rfl
@[simp] theorem setHreg_nextWritten (g : Group) (n : Nat) (x : Dword) : (setHreg g n x).nextWritten = g.nextWritten := rfl
@[simp] theorem setHreg_trapHdr (g : Group) (n : Nat) (x : Dword) : (setHreg g n x).trapHdr = g.trapHdr := rfl
@[simp] theorem setHreg_trapStand (g : Group) (n : Nat) (x : Dword) : (setHreg g n x).trapStand = g.trapStand := rfl
@[simp] theorem setHreg_fwTrap (g : Group) (n : Nat) (x : Dword) : (setHreg g n x).fwTrap = g.fwTrap := rfl
@[simp] theorem setHreg_sumpTop (g : Group) (n : Nat) (x : Dword) : (setHreg g n x).sumpTop = g.sumpTop := rfl
@[simp] theorem setHreg_sumpPa (g : Group) (n : Nat) (x : Dword) : (setHreg g n x).sumpPa = g.sumpPa := rfl
@[simp] theorem setHreg_pendA (g : Group) (n : Nat) (x : Dword) : (setHreg g n x).pendA = g.pendA := rfl
@[simp] theorem setHreg_pendB (g : Group) (n : Nat) (x : Dword) : (setHreg g n x).pendB = g.pendB := rfl
@[simp] theorem setHreg_entry (g : Group) (n : Nat) (x : Dword) : (setHreg g n x).entry = g.entry := rfl
@[simp] theorem setHreg_parked (g : Group) (n : Nat) (x : Dword) : (setHreg g n x).parked = g.parked := rfl
@[simp] theorem setHreg_parkFrom (g : Group) (n : Nat) (x : Dword) : (setHreg g n x).parkFrom = g.parkFrom := rfl
@[simp] theorem setHreg_parkPc (g : Group) (n : Nat) (x : Dword) : (setHreg g n x).parkPc = g.parkPc := rfl
@[simp] theorem setHreg_halted (g : Group) (n : Nat) (x : Dword) : (setHreg g n x).halted = g.halted := rfl
@[simp] theorem setHreg_haltDue (g : Group) (n : Nat) (x : Dword) : (setHreg g n x).haltDue = g.haltDue := rfl
@[simp] theorem setHreg_grace (g : Group) (n : Nat) (x : Dword) : (setHreg g n x).grace = g.grace := rfl
@[simp] theorem setHreg_stopped (g : Group) (n : Nat) (x : Dword) : (setHreg g n x).stopped = g.stopped := rfl
@[simp] theorem setHreg_offered (g : Group) (n : Nat) (x : Dword) : (setHreg g n x).offered = g.offered := rfl
@[simp] theorem setHreg_offerSlot (g : Group) (n : Nat) (x : Dword) : (setHreg g n x).offerSlot = g.offerSlot := rfl
@[simp] theorem setHreg_stepping (g : Group) (n : Nat) (x : Dword) : (setHreg g n x).stepping = g.stepping := rfl
@[simp] theorem setHreg_inside (g : Group) (n : Nat) (x : Dword) : (setHreg g n x).inside = g.inside := rfl
@[simp] theorem setHreg_inflight (g : Group) (n : Nat) (x : Dword) : (setHreg g n x).inflight = g.inflight := rfl
@[simp] theorem setHreg_stores (g : Group) (n : Nat) (x : Dword) : (setHreg g n x).stores = g.stores := rfl

@[simp] theorem setVreg_ref (g : Group) (n : Nat) (m : Word) (v : List Word) (t : Tag) : (setVreg g n m v t).ref = g.ref := by unfold setVreg; split <;> rfl
@[simp] theorem setVreg_role (g : Group) (n : Nat) (m : Word) (v : List Word) (t : Tag) : (setVreg g n m v t).role = g.role := by unfold setVreg; split <;> rfl
@[simp] theorem setVreg_idx (g : Group) (n : Nat) (m : Word) (v : List Word) (t : Tag) : (setVreg g n m v t).idx = g.idx := by unfold setVreg; split <;> rfl
@[simp] theorem setVreg_core (g : Group) (n : Nat) (m : Word) (v : List Word) (t : Tag) : (setVreg g n m v t).core = g.core := by unfold setVreg; split <;> rfl
@[simp] theorem setVreg_sub (g : Group) (n : Nat) (m : Word) (v : List Word) (t : Tag) : (setVreg g n m v t).sub = g.sub := by unfold setVreg; split <;> rfl
@[simp] theorem setVreg_a (g : Group) (n : Nat) (m : Word) (v : List Word) (t : Tag) : (setVreg g n m v t).a = g.a := by unfold setVreg; split <;> rfl
@[simp] theorem setVreg_b (g : Group) (n : Nat) (m : Word) (v : List Word) (t : Tag) : (setVreg g n m v t).b = g.b := by unfold setVreg; split <;> rfl
@[simp] theorem setVreg_exited (g : Group) (n : Nat) (m : Word) (v : List Word) (t : Tag) : (setVreg g n m v t).exited = g.exited := by unfold setVreg; split <;> rfl
@[simp] theorem setVreg_returned (g : Group) (n : Nat) (m : Word) (v : List Word) (t : Tag) : (setVreg g n m v t).returned = g.returned := by unfold setVreg; split <;> rfl
@[simp] theorem setVreg_sregs (g : Group) (n : Nat) (m : Word) (v : List Word) (t : Tag) : (setVreg g n m v t).sregs = g.sregs := by unfold setVreg; split <;> rfl
@[simp] theorem setVreg_hregs (g : Group) (n : Nat) (m : Word) (v : List Word) (t : Tag) : (setVreg g n m v t).hregs = g.hregs := by unfold setVreg; split <;> rfl
@[simp] theorem setVreg_flags (g : Group) (n : Nat) (m : Word) (v : List Word) (t : Tag) : (setVreg g n m v t).flags = g.flags := by unfold setVreg; split <;> rfl
@[simp] theorem setVreg_tids (g : Group) (n : Nat) (m : Word) (v : List Word) (t : Tag) : (setVreg g n m v t).tids = g.tids := by unfold setVreg; split <;> rfl
@[simp] theorem setVreg_marks (g : Group) (n : Nat) (m : Word) (v : List Word) (t : Tag) : (setVreg g n m v t).marks = g.marks := by unfold setVreg; split <;> rfl
@[simp] theorem setVreg_fpc (g : Group) (n : Nat) (m : Word) (v : List Word) (t : Tag) : (setVreg g n m v t).fpc = g.fpc := by unfold setVreg; split <;> rfl
@[simp] theorem setVreg_fps (g : Group) (n : Nat) (m : Word) (v : List Word) (t : Tag) : (setVreg g n m v t).fps = g.fps := by unfold setVreg; split <;> rfl
@[simp] theorem setVreg_sts (g : Group) (n : Nat) (m : Word) (v : List Word) (t : Tag) : (setVreg g n m v t).sts = g.sts := by unfold setVreg; split <;> rfl
@[simp] theorem setVreg_priv (g : Group) (n : Nat) (m : Word) (v : List Word) (t : Tag) : (setVreg g n m v t).priv = g.priv := by unfold setVreg; split <;> rfl
@[simp] theorem setVreg_trappc (g : Group) (n : Nat) (m : Word) (v : List Word) (t : Tag) : (setVreg g n m v t).trappc = g.trappc := by unfold setVreg; split <;> rfl
@[simp] theorem setVreg_trapnext (g : Group) (n : Nat) (m : Word) (v : List Word) (t : Tag) : (setVreg g n m v t).trapnext = g.trapnext := by unfold setVreg; split <;> rfl
@[simp] theorem setVreg_trapmask (g : Group) (n : Nat) (m : Word) (v : List Word) (t : Tag) : (setVreg g n m v t).trapmask = g.trapmask := by unfold setVreg; split <;> rfl
@[simp] theorem setVreg_trapcause (g : Group) (n : Nat) (m : Word) (v : List Word) (t : Tag) : (setVreg g n m v t).trapcause = g.trapcause := by unfold setVreg; split <;> rfl
@[simp] theorem setVreg_trapdst (g : Group) (n : Nat) (m : Word) (v : List Word) (t : Tag) : (setVreg g n m v t).trapdst = g.trapdst := by unfold setVreg; split <;> rfl
@[simp] theorem setVreg_trapaddr (g : Group) (n : Nat) (m : Word) (v : List Word) (t : Tag) : (setVreg g n m v t).trapaddr = g.trapaddr := by unfold setVreg; split <;> rfl
@[simp] theorem setVreg_trapvec (g : Group) (n : Nat) (m : Word) (v : List Word) (t : Tag) : (setVreg g n m v t).trapvec = g.trapvec := by unfold setVreg; split <;> rfl
@[simp] theorem setVreg_nextWritten (g : Group) (n : Nat) (m : Word) (v : List Word) (t : Tag) : (setVreg g n m v t).nextWritten = g.nextWritten := by unfold setVreg; split <;> rfl
@[simp] theorem setVreg_trapHdr (g : Group) (n : Nat) (m : Word) (v : List Word) (t : Tag) : (setVreg g n m v t).trapHdr = g.trapHdr := by unfold setVreg; split <;> rfl
@[simp] theorem setVreg_trapStand (g : Group) (n : Nat) (m : Word) (v : List Word) (t : Tag) : (setVreg g n m v t).trapStand = g.trapStand := by unfold setVreg; split <;> rfl
@[simp] theorem setVreg_fwTrap (g : Group) (n : Nat) (m : Word) (v : List Word) (t : Tag) : (setVreg g n m v t).fwTrap = g.fwTrap := by unfold setVreg; split <;> rfl
@[simp] theorem setVreg_sumpTop (g : Group) (n : Nat) (m : Word) (v : List Word) (t : Tag) : (setVreg g n m v t).sumpTop = g.sumpTop := by unfold setVreg; split <;> rfl
@[simp] theorem setVreg_sumpPa (g : Group) (n : Nat) (m : Word) (v : List Word) (t : Tag) : (setVreg g n m v t).sumpPa = g.sumpPa := by unfold setVreg; split <;> rfl
@[simp] theorem setVreg_pendA (g : Group) (n : Nat) (m : Word) (v : List Word) (t : Tag) : (setVreg g n m v t).pendA = g.pendA := by unfold setVreg; split <;> rfl
@[simp] theorem setVreg_pendB (g : Group) (n : Nat) (m : Word) (v : List Word) (t : Tag) : (setVreg g n m v t).pendB = g.pendB := by unfold setVreg; split <;> rfl
@[simp] theorem setVreg_entry (g : Group) (n : Nat) (m : Word) (v : List Word) (t : Tag) : (setVreg g n m v t).entry = g.entry := by unfold setVreg; split <;> rfl
@[simp] theorem setVreg_parked (g : Group) (n : Nat) (m : Word) (v : List Word) (t : Tag) : (setVreg g n m v t).parked = g.parked := by unfold setVreg; split <;> rfl
@[simp] theorem setVreg_parkFrom (g : Group) (n : Nat) (m : Word) (v : List Word) (t : Tag) : (setVreg g n m v t).parkFrom = g.parkFrom := by unfold setVreg; split <;> rfl
@[simp] theorem setVreg_parkPc (g : Group) (n : Nat) (m : Word) (v : List Word) (t : Tag) : (setVreg g n m v t).parkPc = g.parkPc := by unfold setVreg; split <;> rfl
@[simp] theorem setVreg_halted (g : Group) (n : Nat) (m : Word) (v : List Word) (t : Tag) : (setVreg g n m v t).halted = g.halted := by unfold setVreg; split <;> rfl
@[simp] theorem setVreg_haltDue (g : Group) (n : Nat) (m : Word) (v : List Word) (t : Tag) : (setVreg g n m v t).haltDue = g.haltDue := by unfold setVreg; split <;> rfl
@[simp] theorem setVreg_grace (g : Group) (n : Nat) (m : Word) (v : List Word) (t : Tag) : (setVreg g n m v t).grace = g.grace := by unfold setVreg; split <;> rfl
@[simp] theorem setVreg_stopped (g : Group) (n : Nat) (m : Word) (v : List Word) (t : Tag) : (setVreg g n m v t).stopped = g.stopped := by unfold setVreg; split <;> rfl
@[simp] theorem setVreg_offered (g : Group) (n : Nat) (m : Word) (v : List Word) (t : Tag) : (setVreg g n m v t).offered = g.offered := by unfold setVreg; split <;> rfl
@[simp] theorem setVreg_offerSlot (g : Group) (n : Nat) (m : Word) (v : List Word) (t : Tag) : (setVreg g n m v t).offerSlot = g.offerSlot := by unfold setVreg; split <;> rfl
@[simp] theorem setVreg_stepping (g : Group) (n : Nat) (m : Word) (v : List Word) (t : Tag) : (setVreg g n m v t).stepping = g.stepping := by unfold setVreg; split <;> rfl
@[simp] theorem setVreg_inside (g : Group) (n : Nat) (m : Word) (v : List Word) (t : Tag) : (setVreg g n m v t).inside = g.inside := by unfold setVreg; split <;> rfl
@[simp] theorem setVreg_inflight (g : Group) (n : Nat) (m : Word) (v : List Word) (t : Tag) : (setVreg g n m v t).inflight = g.inflight := by unfold setVreg; split <;> rfl
@[simp] theorem setVreg_stores (g : Group) (n : Nat) (m : Word) (v : List Word) (t : Tag) : (setVreg g n m v t).stores = g.stores := by unfold setVreg; split <;> rfl

@[simp] theorem applyWrite_ref (g : Group) (w : RegWrite) : (applyWrite g w).ref = g.ref := by cases w <;> simp [applyWrite]
@[simp] theorem applyWrite_role (g : Group) (w : RegWrite) : (applyWrite g w).role = g.role := by cases w <;> simp [applyWrite]
@[simp] theorem applyWrite_idx (g : Group) (w : RegWrite) : (applyWrite g w).idx = g.idx := by cases w <;> simp [applyWrite]
@[simp] theorem applyWrite_core (g : Group) (w : RegWrite) : (applyWrite g w).core = g.core := by cases w <;> simp [applyWrite]
@[simp] theorem applyWrite_sub (g : Group) (w : RegWrite) : (applyWrite g w).sub = g.sub := by cases w <;> simp [applyWrite]
@[simp] theorem applyWrite_a (g : Group) (w : RegWrite) : (applyWrite g w).a = g.a := by cases w <;> simp [applyWrite]
@[simp] theorem applyWrite_b (g : Group) (w : RegWrite) : (applyWrite g w).b = g.b := by cases w <;> simp [applyWrite]
@[simp] theorem applyWrite_exited (g : Group) (w : RegWrite) : (applyWrite g w).exited = g.exited := by cases w <;> simp [applyWrite]
@[simp] theorem applyWrite_returned (g : Group) (w : RegWrite) : (applyWrite g w).returned = g.returned := by cases w <;> simp [applyWrite]
@[simp] theorem applyWrite_flags (g : Group) (w : RegWrite) : (applyWrite g w).flags = g.flags := by cases w <;> simp [applyWrite]
@[simp] theorem applyWrite_tids (g : Group) (w : RegWrite) : (applyWrite g w).tids = g.tids := by cases w <;> simp [applyWrite]
@[simp] theorem applyWrite_marks (g : Group) (w : RegWrite) : (applyWrite g w).marks = g.marks := by cases w <;> simp [applyWrite]
@[simp] theorem applyWrite_fpc (g : Group) (w : RegWrite) : (applyWrite g w).fpc = g.fpc := by cases w <;> simp [applyWrite]
@[simp] theorem applyWrite_fps (g : Group) (w : RegWrite) : (applyWrite g w).fps = g.fps := by cases w <;> simp [applyWrite]
@[simp] theorem applyWrite_sts (g : Group) (w : RegWrite) : (applyWrite g w).sts = g.sts := by cases w <;> simp [applyWrite]
@[simp] theorem applyWrite_priv (g : Group) (w : RegWrite) : (applyWrite g w).priv = g.priv := by cases w <;> simp [applyWrite]
@[simp] theorem applyWrite_trappc (g : Group) (w : RegWrite) : (applyWrite g w).trappc = g.trappc := by cases w <;> simp [applyWrite]
@[simp] theorem applyWrite_trapnext (g : Group) (w : RegWrite) : (applyWrite g w).trapnext = g.trapnext := by cases w <;> simp [applyWrite]
@[simp] theorem applyWrite_trapmask (g : Group) (w : RegWrite) : (applyWrite g w).trapmask = g.trapmask := by cases w <;> simp [applyWrite]
@[simp] theorem applyWrite_trapcause (g : Group) (w : RegWrite) : (applyWrite g w).trapcause = g.trapcause := by cases w <;> simp [applyWrite]
@[simp] theorem applyWrite_trapdst (g : Group) (w : RegWrite) : (applyWrite g w).trapdst = g.trapdst := by cases w <;> simp [applyWrite]
@[simp] theorem applyWrite_trapaddr (g : Group) (w : RegWrite) : (applyWrite g w).trapaddr = g.trapaddr := by cases w <;> simp [applyWrite]
@[simp] theorem applyWrite_trapvec (g : Group) (w : RegWrite) : (applyWrite g w).trapvec = g.trapvec := by cases w <;> simp [applyWrite]
@[simp] theorem applyWrite_nextWritten (g : Group) (w : RegWrite) : (applyWrite g w).nextWritten = g.nextWritten := by cases w <;> simp [applyWrite]
@[simp] theorem applyWrite_trapHdr (g : Group) (w : RegWrite) : (applyWrite g w).trapHdr = g.trapHdr := by cases w <;> simp [applyWrite]
@[simp] theorem applyWrite_trapStand (g : Group) (w : RegWrite) : (applyWrite g w).trapStand = g.trapStand := by cases w <;> simp [applyWrite]
@[simp] theorem applyWrite_fwTrap (g : Group) (w : RegWrite) : (applyWrite g w).fwTrap = g.fwTrap := by cases w <;> simp [applyWrite]
@[simp] theorem applyWrite_sumpTop (g : Group) (w : RegWrite) : (applyWrite g w).sumpTop = g.sumpTop := by cases w <;> simp [applyWrite]
@[simp] theorem applyWrite_sumpPa (g : Group) (w : RegWrite) : (applyWrite g w).sumpPa = g.sumpPa := by cases w <;> simp [applyWrite]
@[simp] theorem applyWrite_pendA (g : Group) (w : RegWrite) : (applyWrite g w).pendA = g.pendA := by cases w <;> simp [applyWrite]
@[simp] theorem applyWrite_pendB (g : Group) (w : RegWrite) : (applyWrite g w).pendB = g.pendB := by cases w <;> simp [applyWrite]
@[simp] theorem applyWrite_entry (g : Group) (w : RegWrite) : (applyWrite g w).entry = g.entry := by cases w <;> simp [applyWrite]
@[simp] theorem applyWrite_parked (g : Group) (w : RegWrite) : (applyWrite g w).parked = g.parked := by cases w <;> simp [applyWrite]
@[simp] theorem applyWrite_parkFrom (g : Group) (w : RegWrite) : (applyWrite g w).parkFrom = g.parkFrom := by cases w <;> simp [applyWrite]
@[simp] theorem applyWrite_parkPc (g : Group) (w : RegWrite) : (applyWrite g w).parkPc = g.parkPc := by cases w <;> simp [applyWrite]
@[simp] theorem applyWrite_halted (g : Group) (w : RegWrite) : (applyWrite g w).halted = g.halted := by cases w <;> simp [applyWrite]
@[simp] theorem applyWrite_haltDue (g : Group) (w : RegWrite) : (applyWrite g w).haltDue = g.haltDue := by cases w <;> simp [applyWrite]
@[simp] theorem applyWrite_grace (g : Group) (w : RegWrite) : (applyWrite g w).grace = g.grace := by cases w <;> simp [applyWrite]
@[simp] theorem applyWrite_stopped (g : Group) (w : RegWrite) : (applyWrite g w).stopped = g.stopped := by cases w <;> simp [applyWrite]
@[simp] theorem applyWrite_offered (g : Group) (w : RegWrite) : (applyWrite g w).offered = g.offered := by cases w <;> simp [applyWrite]
@[simp] theorem applyWrite_offerSlot (g : Group) (w : RegWrite) : (applyWrite g w).offerSlot = g.offerSlot := by cases w <;> simp [applyWrite]
@[simp] theorem applyWrite_stepping (g : Group) (w : RegWrite) : (applyWrite g w).stepping = g.stepping := by cases w <;> simp [applyWrite]
@[simp] theorem applyWrite_inside (g : Group) (w : RegWrite) : (applyWrite g w).inside = g.inside := by cases w <;> simp [applyWrite]
@[simp] theorem applyWrite_inflight (g : Group) (w : RegWrite) : (applyWrite g w).inflight = g.inflight := by cases w <;> simp [applyWrite]
@[simp] theorem applyWrite_stores (g : Group) (w : RegWrite) : (applyWrite g w).stores = g.stores := by cases w <;> simp [applyWrite]

/-! ### Messages -/

@[simp] theorem send_g (s : State) (t : Word) (c : Byte) (n : Nat) (p : List Byte) : (send s t c n p).g = s.g := rfl
@[simp] theorem send_slot (s : State) (t : Word) (c : Byte) (n : Nat) (p : List Byte) : (send s t c n p).slot = s.slot := rfl
@[simp] theorem send_team (s : State) (t : Word) (c : Byte) (n : Nat) (p : List Byte) : (send s t c n p).team = s.team := rfl
@[simp] theorem send_vd (s : State) (t : Word) (c : Byte) (n : Nat) (p : List Byte) : (send s t c n p).vd = s.vd := rfl
@[simp] theorem send_groups (s : State) (t : Word) (c : Byte) (n : Nat) (p : List Byte) : (send s t c n p).groups = s.groups := rfl
@[simp] theorem send_teams (s : State) (t : Word) (c : Byte) (n : Nat) (p : List Byte) : (send s t c n p).teams = s.teams := rfl
@[simp] theorem send_devices (s : State) (t : Word) (c : Byte) (n : Nat) (p : List Byte) : (send s t c n p).devices = s.devices := rfl
@[simp] theorem send_partitions (s : State) (t : Word) (c : Byte) (n : Nat) (p : List Byte) : (send s t c n p).partitions = s.partitions := rfl
@[simp] theorem send_cores (s : State) (t : Word) (c : Byte) (n : Nat) (p : List Byte) : (send s t c n p).cores = s.cores := rfl
@[simp] theorem send_dies (s : State) (t : Word) (c : Byte) (n : Nat) (p : List Byte) : (send s t c n p).dies = s.dies := rfl
@[simp] theorem send_mem (s : State) (t : Word) (c : Byte) (n : Nat) (p : List Byte) : (send s t c n p).mem = s.mem := rfl
@[simp] theorem send_ptes (s : State) (t : Word) (c : Byte) (n : Nat) (p : List Byte) : (send s t c n p).ptes = s.ptes := rfl
@[simp] theorem send_poison (s : State) (t : Word) (c : Byte) (n : Nat) (p : List Byte) : (send s t c n p).poison = s.poison := rfl
@[simp] theorem send_marked (s : State) (t : Word) (c : Byte) (n : Nat) (p : List Byte) : (send s t c n p).marked = s.marked := rfl
@[simp] theorem send_used (s : State) (t : Word) (c : Byte) (n : Nat) (p : List Byte) : (send s t c n p).used = s.used := rfl
@[simp] theorem send_cache (s : State) (t : Word) (c : Byte) (n : Nat) (p : List Byte) : (send s t c n p).cache = s.cache := rfl
@[simp] theorem send_lines (s : State) (t : Word) (c : Byte) (n : Nat) (p : List Byte) : (send s t c n p).lines = s.lines := rfl
@[simp] theorem send_peerLines (s : State) (t : Word) (c : Byte) (n : Nat) (p : List Byte) : (send s t c n p).peerLines = s.peerLines := rfl
@[simp] theorem send_peer (s : State) (t : Word) (c : Byte) (n : Nat) (p : List Byte) : (send s t c n p).peer = s.peer := rfl
@[simp] theorem send_peerPoison (s : State) (t : Word) (c : Byte) (n : Nat) (p : List Byte) : (send s t c n p).peerPoison = s.peerPoison := rfl
@[simp] theorem send_encodes (s : State) (t : Word) (c : Byte) (n : Nat) (p : List Byte) : (send s t c n p).encodes = s.encodes := rfl
@[simp] theorem send_run (s : State) (t : Word) (c : Byte) (n : Nat) (p : List Byte) : (send s t c n p).run = s.run := rfl
@[simp] theorem send_runs (s : State) (t : Word) (c : Byte) (n : Nat) (p : List Byte) : (send s t c n p).runs = s.runs := rfl
@[simp] theorem send_turns (s : State) (t : Word) (c : Byte) (n : Nat) (p : List Byte) : (send s t c n p).turns = s.turns := rfl
@[simp] theorem send_classes (s : State) (t : Word) (c : Byte) (n : Nat) (p : List Byte) : (send s t c n p).classes = s.classes := rfl
@[simp] theorem send_reports (s : State) (t : Word) (c : Byte) (n : Nat) (p : List Byte) : (send s t c n p).reports = s.reports := rfl
@[simp] theorem send_refreshing (s : State) (t : Word) (c : Byte) (n : Nat) (p : List Byte) : (send s t c n p).refreshing = s.refreshing := rfl
@[simp] theorem send_ports (s : State) (t : Word) (c : Byte) (n : Nat) (p : List Byte) : (send s t c n p).ports = s.ports := rfl
@[simp] theorem send_conns (s : State) (t : Word) (c : Byte) (n : Nat) (p : List Byte) : (send s t c n p).conns = s.conns := rfl
@[simp] theorem send_measure (s : State) (t : Word) (c : Byte) (n : Nat) (p : List Byte) : (send s t c n p).measure = s.measure := rfl
@[simp] theorem send_stageHashes (s : State) (t : Word) (c : Byte) (n : Nat) (p : List Byte) : (send s t c n p).stageHashes = s.stageHashes := rfl
@[simp] theorem send_portOpen (s : State) (t : Word) (c : Byte) (n : Nat) (p : List Byte) : (send s t c n p).portOpen = s.portOpen := rfl
@[simp] theorem send_failed (s : State) (t : Word) (c : Byte) (n : Nat) (p : List Byte) : (send s t c n p).failed = s.failed := rfl
@[simp] theorem send_stalled (s : State) (t : Word) (c : Byte) (n : Nat) (p : List Byte) : (send s t c n p).stalled = s.stalled := rfl
@[simp] theorem send_gone (s : State) (t : Word) (c : Byte) (n : Nat) (p : List Byte) : (send s t c n p).gone = s.gone := rfl
@[simp] theorem send_replies (s : State) (t : Word) (c : Byte) (n : Nat) (p : List Byte) : (send s t c n p).replies = s.replies := rfl
@[simp] theorem send_now (s : State) (t : Word) (c : Byte) (n : Nat) (p : List Byte) : (send s t c n p).now = s.now := rfl
@[simp] theorem send_meterAt (s : State) (t : Word) (c : Byte) (n : Nat) (p : List Byte) : (send s t c n p).meterAt = s.meterAt := rfl
@[simp] theorem send_draw (s : State) (t : Word) (c : Byte) (n : Nat) (p : List Byte) : (send s t c n p).draw = s.draw := rfl
@[simp] theorem send_agenda (s : State) (t : Word) (c : Byte) (n : Nat) (p : List Byte) : (send s t c n p).agenda = s.agenda := rfl

/-! ### The array -/

@[simp] theorem clearSpan_g (s : State) (n : Nat) : (clearSpan s n).g = s.g := by unfold clearSpan; split <;> rfl
@[simp] theorem clearSpan_slot (s : State) (n : Nat) : (clearSpan s n).slot = s.slot := by unfold clearSpan; split <;> rfl
@[simp] theorem clearSpan_team (s : State) (n : Nat) : (clearSpan s n).team = s.team := by unfold clearSpan; split <;> rfl
@[simp] theorem clearSpan_vd (s : State) (n : Nat) : (clearSpan s n).vd = s.vd := by unfold clearSpan; split <;> rfl
@[simp] theorem clearSpan_groups (s : State) (n : Nat) : (clearSpan s n).groups = s.groups := by unfold clearSpan; split <;> rfl
@[simp] theorem clearSpan_teams (s : State) (n : Nat) : (clearSpan s n).teams = s.teams := by unfold clearSpan; split <;> rfl
@[simp] theorem clearSpan_devices (s : State) (n : Nat) : (clearSpan s n).devices = s.devices := by unfold clearSpan; split <;> rfl
@[simp] theorem clearSpan_partitions (s : State) (n : Nat) : (clearSpan s n).partitions = s.partitions := by unfold clearSpan; split <;> rfl
@[simp] theorem clearSpan_cores (s : State) (n : Nat) : (clearSpan s n).cores = s.cores := by unfold clearSpan; split <;> rfl
@[simp] theorem clearSpan_dies (s : State) (n : Nat) : (clearSpan s n).dies = s.dies := by unfold clearSpan; split <;> rfl
@[simp] theorem clearSpan_ptes (s : State) (n : Nat) : (clearSpan s n).ptes = s.ptes := by unfold clearSpan; split <;> rfl
@[simp] theorem clearSpan_used (s : State) (n : Nat) : (clearSpan s n).used = s.used := by unfold clearSpan; split <;> rfl
@[simp] theorem clearSpan_cache (s : State) (n : Nat) : (clearSpan s n).cache = s.cache := by unfold clearSpan; split <;> rfl
@[simp] theorem clearSpan_lines (s : State) (n : Nat) : (clearSpan s n).lines = s.lines := by unfold clearSpan; split <;> rfl
@[simp] theorem clearSpan_peerLines (s : State) (n : Nat) : (clearSpan s n).peerLines = s.peerLines := by unfold clearSpan; split <;> rfl
@[simp] theorem clearSpan_peer (s : State) (n : Nat) : (clearSpan s n).peer = s.peer := by unfold clearSpan; split <;> rfl
@[simp] theorem clearSpan_peerPoison (s : State) (n : Nat) : (clearSpan s n).peerPoison = s.peerPoison := by unfold clearSpan; split <;> rfl
@[simp] theorem clearSpan_encodes (s : State) (n : Nat) : (clearSpan s n).encodes = s.encodes := by unfold clearSpan; split <;> rfl
@[simp] theorem clearSpan_run (s : State) (n : Nat) : (clearSpan s n).run = s.run := by unfold clearSpan; split <;> rfl
@[simp] theorem clearSpan_runs (s : State) (n : Nat) : (clearSpan s n).runs = s.runs := by unfold clearSpan; split <;> rfl
@[simp] theorem clearSpan_turns (s : State) (n : Nat) : (clearSpan s n).turns = s.turns := by unfold clearSpan; split <;> rfl
@[simp] theorem clearSpan_classes (s : State) (n : Nat) : (clearSpan s n).classes = s.classes := by unfold clearSpan; split <;> rfl
@[simp] theorem clearSpan_reports (s : State) (n : Nat) : (clearSpan s n).reports = s.reports := by unfold clearSpan; split <;> rfl
@[simp] theorem clearSpan_refreshing (s : State) (n : Nat) : (clearSpan s n).refreshing = s.refreshing := by unfold clearSpan; split <;> rfl
@[simp] theorem clearSpan_ports (s : State) (n : Nat) : (clearSpan s n).ports = s.ports := by unfold clearSpan; split <;> rfl
@[simp] theorem clearSpan_conns (s : State) (n : Nat) : (clearSpan s n).conns = s.conns := by unfold clearSpan; split <;> rfl
@[simp] theorem clearSpan_measure (s : State) (n : Nat) : (clearSpan s n).measure = s.measure := by unfold clearSpan; split <;> rfl
@[simp] theorem clearSpan_stageHashes (s : State) (n : Nat) : (clearSpan s n).stageHashes = s.stageHashes := by unfold clearSpan; split <;> rfl
@[simp] theorem clearSpan_portOpen (s : State) (n : Nat) : (clearSpan s n).portOpen = s.portOpen := by unfold clearSpan; split <;> rfl
@[simp] theorem clearSpan_failed (s : State) (n : Nat) : (clearSpan s n).failed = s.failed := by unfold clearSpan; split <;> rfl
@[simp] theorem clearSpan_stalled (s : State) (n : Nat) : (clearSpan s n).stalled = s.stalled := by unfold clearSpan; split <;> rfl
@[simp] theorem clearSpan_gone (s : State) (n : Nat) : (clearSpan s n).gone = s.gone := by unfold clearSpan; split <;> rfl
@[simp] theorem clearSpan_outbox (s : State) (n : Nat) : (clearSpan s n).outbox = s.outbox := by unfold clearSpan; split <;> rfl
@[simp] theorem clearSpan_replies (s : State) (n : Nat) : (clearSpan s n).replies = s.replies := by unfold clearSpan; split <;> rfl
@[simp] theorem clearSpan_now (s : State) (n : Nat) : (clearSpan s n).now = s.now := by unfold clearSpan; split <;> rfl
@[simp] theorem clearSpan_meterAt (s : State) (n : Nat) : (clearSpan s n).meterAt = s.meterAt := by unfold clearSpan; split <;> rfl
@[simp] theorem clearSpan_draw (s : State) (n : Nat) : (clearSpan s n).draw = s.draw := by unfold clearSpan; split <;> rfl
@[simp] theorem clearSpan_agenda (s : State) (n : Nat) : (clearSpan s n).agenda = s.agenda := by unfold clearSpan; split <;> rfl

@[simp] theorem putMain_g (s : State) (pa : Nat) (b : Byte) : (putMain s pa b).g = s.g := by simp [putMain]
@[simp] theorem putMain_slot (s : State) (pa : Nat) (b : Byte) : (putMain s pa b).slot = s.slot := by simp [putMain]
@[simp] theorem putMain_team (s : State) (pa : Nat) (b : Byte) : (putMain s pa b).team = s.team := by simp [putMain]
@[simp] theorem putMain_vd (s : State) (pa : Nat) (b : Byte) : (putMain s pa b).vd = s.vd := by simp [putMain]
@[simp] theorem putMain_groups (s : State) (pa : Nat) (b : Byte) : (putMain s pa b).groups = s.groups := by simp [putMain]
@[simp] theorem putMain_teams (s : State) (pa : Nat) (b : Byte) : (putMain s pa b).teams = s.teams := by simp [putMain]
@[simp] theorem putMain_devices (s : State) (pa : Nat) (b : Byte) : (putMain s pa b).devices = s.devices := by simp [putMain]
@[simp] theorem putMain_partitions (s : State) (pa : Nat) (b : Byte) : (putMain s pa b).partitions = s.partitions := by simp [putMain]
@[simp] theorem putMain_cores (s : State) (pa : Nat) (b : Byte) : (putMain s pa b).cores = s.cores := by simp [putMain]
@[simp] theorem putMain_dies (s : State) (pa : Nat) (b : Byte) : (putMain s pa b).dies = s.dies := by simp [putMain]
@[simp] theorem putMain_ptes (s : State) (pa : Nat) (b : Byte) : (putMain s pa b).ptes = s.ptes := by simp [putMain]
@[simp] theorem putMain_used (s : State) (pa : Nat) (b : Byte) : (putMain s pa b).used = s.used := by simp [putMain]
@[simp] theorem putMain_cache (s : State) (pa : Nat) (b : Byte) : (putMain s pa b).cache = s.cache := by simp [putMain]
@[simp] theorem putMain_lines (s : State) (pa : Nat) (b : Byte) : (putMain s pa b).lines = s.lines := by simp [putMain]
@[simp] theorem putMain_peerLines (s : State) (pa : Nat) (b : Byte) : (putMain s pa b).peerLines = s.peerLines := by simp [putMain]
@[simp] theorem putMain_peer (s : State) (pa : Nat) (b : Byte) : (putMain s pa b).peer = s.peer := by simp [putMain]
@[simp] theorem putMain_peerPoison (s : State) (pa : Nat) (b : Byte) : (putMain s pa b).peerPoison = s.peerPoison := by simp [putMain]
@[simp] theorem putMain_encodes (s : State) (pa : Nat) (b : Byte) : (putMain s pa b).encodes = s.encodes := by simp [putMain]
@[simp] theorem putMain_run (s : State) (pa : Nat) (b : Byte) : (putMain s pa b).run = s.run := by simp [putMain]
@[simp] theorem putMain_runs (s : State) (pa : Nat) (b : Byte) : (putMain s pa b).runs = s.runs := by simp [putMain]
@[simp] theorem putMain_turns (s : State) (pa : Nat) (b : Byte) : (putMain s pa b).turns = s.turns := by simp [putMain]
@[simp] theorem putMain_classes (s : State) (pa : Nat) (b : Byte) : (putMain s pa b).classes = s.classes := by simp [putMain]
@[simp] theorem putMain_reports (s : State) (pa : Nat) (b : Byte) : (putMain s pa b).reports = s.reports := by simp [putMain]
@[simp] theorem putMain_refreshing (s : State) (pa : Nat) (b : Byte) : (putMain s pa b).refreshing = s.refreshing := by simp [putMain]
@[simp] theorem putMain_ports (s : State) (pa : Nat) (b : Byte) : (putMain s pa b).ports = s.ports := by simp [putMain]
@[simp] theorem putMain_conns (s : State) (pa : Nat) (b : Byte) : (putMain s pa b).conns = s.conns := by simp [putMain]
@[simp] theorem putMain_measure (s : State) (pa : Nat) (b : Byte) : (putMain s pa b).measure = s.measure := by simp [putMain]
@[simp] theorem putMain_stageHashes (s : State) (pa : Nat) (b : Byte) : (putMain s pa b).stageHashes = s.stageHashes := by simp [putMain]
@[simp] theorem putMain_portOpen (s : State) (pa : Nat) (b : Byte) : (putMain s pa b).portOpen = s.portOpen := by simp [putMain]
@[simp] theorem putMain_failed (s : State) (pa : Nat) (b : Byte) : (putMain s pa b).failed = s.failed := by simp [putMain]
@[simp] theorem putMain_stalled (s : State) (pa : Nat) (b : Byte) : (putMain s pa b).stalled = s.stalled := by simp [putMain]
@[simp] theorem putMain_gone (s : State) (pa : Nat) (b : Byte) : (putMain s pa b).gone = s.gone := by simp [putMain]
@[simp] theorem putMain_outbox (s : State) (pa : Nat) (b : Byte) : (putMain s pa b).outbox = s.outbox := by simp [putMain]
@[simp] theorem putMain_replies (s : State) (pa : Nat) (b : Byte) : (putMain s pa b).replies = s.replies := by simp [putMain]
@[simp] theorem putMain_now (s : State) (pa : Nat) (b : Byte) : (putMain s pa b).now = s.now := by simp [putMain]
@[simp] theorem putMain_meterAt (s : State) (pa : Nat) (b : Byte) : (putMain s pa b).meterAt = s.meterAt := by simp [putMain]
@[simp] theorem putMain_draw (s : State) (pa : Nat) (b : Byte) : (putMain s pa b).draw = s.draw := by simp [putMain]
@[simp] theorem putMain_agenda (s : State) (pa : Nat) (b : Byte) : (putMain s pa b).agenda = s.agenda := by simp [putMain]

end Sys2Proof.Machine
end

