-- ==== Sys2Proof/Laws/Issue.lean ====
section
/-!
SUPPORT. Laws/Issue.lean: what issuing an instruction does, said once: a cause is raised, a short instruction completes, or a
long-latency one is in flight; and the next states of a quiet group.
-/
namespace Sys2Proof.Machine

/-! ### The outcome of an issue -/

/-- An instruction with an effect or a cause always has a next state. -/
theorem issue_next (i : Instr) (r : Except Raise Effect) (s : State) : ∃ t, issue i r s = .next t := by
  cases r <;> exact ⟨_, rfl⟩

theorem issue_error (i : Instr) (r : Raise) (s : State) :
    issue i (.error r) s = .next (raise s (causeHere s r (nextAddr i (cur s)) (trapDst i))) := rfl

theorem issue_short (i : Instr) (e : Effect) (s : State) (h : isLong i = false) :
    issue i (.ok e) s = .next (finishShort i e) := by simp [issue, h]

theorem issue_long (i : Instr) (e : Effect) (s : State) (h : isLong i = true) :
    issue i (.ok e) s = .next (launchLong i e) := by simp [issue, h]

/-! ### Floating-point traps (R90) -/

@[simp] theorem enabledLanes_nil (te : FpFlags) : enabledLanes te [] = 0 := by
  have h : (fun l => ([] : List FpFlags).getD l 0 &&& te != 0) = fun _ => false := by funext l; simp
  unfold enabledLanes
  rw [h]
  decide

@[simp] theorem fpTrap_none (te : FpFlags) : fpTrap te [] 0 = none := by simp [fpTrap]

@[simp] theorem raiseTrap_none (s : State) (i : SlotId) (pc next : Addr) (d : Word) : raiseTrap s i pc next d none = s := rfl

/-- A scalar instruction whose flags are not enabled traps nothing (R234). -/
theorem fpTrap_scalar (te f : FpFlags) (h : f &&& te = 0) : fpTrap te [] f = none := by
  simp [fpTrap, h]

/-! ### Registers of a quiet group -/

/-- With nothing in flight a write lands at once (R62). -/
theorem putReg_quiet {g : Group} (h : g.inflight = []) (w : RegWrite) : putReg g w = applyWrite g w := by
  simp [putReg, settle, h]

theorem putRegs_quiet {g : Group} (h : g.inflight = []) (ws : List RegWrite) : putRegs g ws = applyWrites g ws := by
  induction ws generalizing g with
  | nil => rfl
  | cons w t ih =>
      have : (applyWrite g w).inflight = [] := by simpa using h
      show putRegs (putReg g w) t = applyWrites (applyWrite g w) t
      rw [putReg_quiet h]
      exact ih this

@[simp] theorem applyWrites_a (g : Group) (ws : List RegWrite) : (applyWrites g ws).a = g.a := by
  induction ws generalizing g with
  | nil => rfl
  | cons w t ih => exact (ih _).trans (applyWrite_a g w)

@[simp] theorem applyWrites_b (g : Group) (ws : List RegWrite) : (applyWrites g ws).b = g.b := by
  induction ws generalizing g with
  | nil => rfl
  | cons w t ih => exact (ih _).trans (applyWrite_b g w)

@[simp] theorem applyWrites_inflight (g : Group) (ws : List RegWrite) : (applyWrites g ws).inflight = g.inflight := by
  induction ws generalizing g with
  | nil => rfl
  | cons w t ih => exact (ih _).trans (applyWrite_inflight g w)

@[simp] theorem applyWrites_flags (g : Group) (ws : List RegWrite) : (applyWrites g ws).flags = g.flags := by
  induction ws generalizing g with
  | nil => rfl
  | cons w t ih => exact (ih _).trans (applyWrite_flags g w)

@[simp] theorem applyWrites_ref (g : Group) (ws : List RegWrite) : (applyWrites g ws).ref = g.ref := by
  induction ws generalizing g with
  | nil => rfl
  | cons w t ih => exact (ih _).trans (applyWrite_ref g w)

@[simp] theorem applyWrites_exited (g : Group) (ws : List RegWrite) : (applyWrites g ws).exited = g.exited := by
  induction ws generalizing g with
  | nil => rfl
  | cons w t ih => exact (ih _).trans (applyWrite_exited g w)

@[simp] theorem applyWrites_halted (g : Group) (ws : List RegWrite) : (applyWrites g ws).halted = g.halted := by
  induction ws generalizing g with
  | nil => rfl
  | cons w t ih => exact (ih _).trans (applyWrite_halted g w)

@[simp] theorem applyWrites_haltDue (g : Group) (ws : List RegWrite) : (applyWrites g ws).haltDue = g.haltDue := by
  induction ws generalizing g with
  | nil => rfl
  | cons w t ih => exact (ih _).trans (applyWrite_haltDue g w)

@[simp] theorem applyWrites_slot (g : Group) (ws : List RegWrite) (i : SlotId) : (applyWrites g ws).slot i = g.slot i := by
  cases i <;> simp [Group.slot]

@[simp] theorem applyWrites_fpc (g : Group) (ws : List RegWrite) : (applyWrites g ws).fpc = g.fpc := by
  induction ws generalizing g with
  | nil => rfl
  | cons w t ih => exact (ih _).trans (applyWrite_fpc g w)

@[simp] theorem applyWrites_core (g : Group) (ws : List RegWrite) : (applyWrites g ws).core = g.core := by
  induction ws generalizing g with
  | nil => rfl
  | cons w t ih => exact (ih _).trans (applyWrite_core g w)

theorem addFps_zero (g : Group) : addFps g 0 = g := by simp [addFps]
theorem addSts_zero (g : Group) : addSts g 0 = g := by simp [addSts]

@[simp] theorem addFps_slot (g : Group) (f : FpFlags) (i : SlotId) : (addFps g f).slot i = g.slot i := by cases i <;> rfl
@[simp] theorem addSts_slot (g : Group) (f : Word) (i : SlotId) : (addSts g f).slot i = g.slot i := by cases i <;> rfl

/-! ### Canaries -/

/-- Without a canary on the core no event does anything (R411). -/
theorem watchSince_none {s : State} (h : (coreAt s s.g.core).canaries = []) (told : Bool) (n : Nat)
    (i : SlotId) (evs : List Watch) (ps : List Nat) (c : Cause) : watchSince s told n i evs ps c = s := by simp [watchSince, h]

theorem watchEvents_none {s : State} (h : (coreAt s s.g.core).canaries = []) (i : SlotId) (evs : List Watch) (ps : List Nat)
    (c : Cause) : watchEvents s i evs ps c = s := watchSince_none h _ _ i evs ps c

/-! ### A quiet group's short instructions -/

/-- Which traps are enabled depends on FPC alone (R66). -/
theorem trapEnables_congr {g g' : Group} (h : g.fpc = g'.fpc) : trapEnables g = trapEnables g' := by
  unfold trapEnables; rw [h]

/-- What a short instruction of a quiet group leaves of it. -/
theorem landShort_quiet (i : Instr) (e : Effect) (h : e.st.g.inflight = []) (hs : e.sts = 0) :
    landShort i e = (addFps (applyWrites e.st.g e.writes) (orFlags e.fp ||| e.sfp)).setSlot e.st.slot
      ((cur e.st).moveTo e.st.now (nextAddr i (cur e.st))) := by
  unfold landShort
  simp only [hs, addSts_zero, putRegs_quiet h, addFps_slot, applyWrites_slot]
  rfl

/-- The next state of a short instruction of a quiet group whose flags trap nothing. -/
theorem finishShort_quiet (i : Instr) (e : Effect) (h : Quiet e.st) (hs : e.sts = 0)
    (hf : fpTrap (trapEnables e.st.g) e.fp e.sfp = none) :
    finishShort i e = countLanes (advance i e.st (addFps (applyWrites e.st.g e.writes) (orFlags e.fp ||| e.sfp)))
      (if perLane i then popcount (cur e.st).mask else 0) := by
  have hl := landShort_quiet i e h.1 hs
  have hst : ({ e.st with g := landShort i e } : State)
      = advance i e.st (addFps (applyWrites e.st.g e.writes) (orFlags e.fp ||| e.sfp)) := by rw [hl]; rfl
  have ht : fpTrap (trapEnables (advance i e.st (addFps (applyWrites e.st.g e.writes) (orFlags e.fp ||| e.sfp))).g)
      e.fp e.sfp = none := by rw [trapEnables_congr (g' := e.st.g) (by simp [addFps])]; exact hf
  unfold finishShort
  dsimp only
  rw [hst]
  simp only [countLanes_g, ht, raiseTrap_none]
  rw [watchSince_none]
  simpa [coreAt, addFps] using h.2

/-- The next state of a scalar result of a quiet group. -/
theorem scaIssue_quiet (i : Instr) (s : State) (d : Opnd) (pr : Bool) (x : Dword) (h : Quiet s) (hp : perLane i = false)
    (hs : isLong i = false) :
    scaIssue i d pr (.ok x) s = .next (advance i s (applyWrites s.g (scaWrites d pr x))) := by
  have e := finishShort_quiet i (Effect.write s (scaWrites d pr x)) h rfl (fpTrap_none _)
  simp only [Effect.write, Effect.of, hp, orFlags, List.foldl_nil, Bool.false_eq_true, if_false, countLanes_zero] at e
  rw [show (0 : FpFlags) ||| 0 = 0 from rfl, addFps_zero] at e
  rw [← e]
  exact issue_short i _ s hs

/-- The next state of a scalar floating-point result of a quiet group. -/
theorem scaFp_quiet (i : Instr) (s : State) (d : Opnd) (pr : Bool) (x : Dword) (f : FpFlags) (h : Quiet s)
    (hp : perLane i = false) (hs : isLong i = false) (hf : f &&& trapEnables s.g = 0) :
    scaFp i d pr (.ok (x, f)) s = .next (advance i s (addFps (applyWrites s.g (scaWrites d pr x)) f)) := by
  have e := finishShort_quiet i { Effect.write s (scaWrites d pr x) with sfp := f } h rfl (fpTrap_scalar _ _ hf)
  simp only [Effect.write, Effect.of, hp, orFlags, List.foldl_nil, Bool.false_eq_true, if_false, countLanes_zero] at e
  rw [show (0 : FpFlags) ||| f = f by simp] at e
  rw [← e]
  exact issue_short i _ s hs

/-! ### A quiet group's vector results -/

/-- Lanes that the mask does not hold are not written (R63). -/
theorem mergeLanes_masked (m : Word) (old : List Word) (f : Nat → Word) :
    mergeLanes m old (tabulate fun l => if laneOn m l then f l else 0) = mergeLanes m old (tabulate f) := by
  unfold mergeLanes
  apply List.map_congr_left
  intro l hl
  have hl : l < 32 := by simpa [lanes32] using hl
  split
  · rename_i hon; simp [laneAt, tabulate, lanes32, hl, hon]
  · rfl

/-- The lowest lane of a mask that is not zero lies in it. -/
theorem lowest_spec {m : Word} (h : m ≠ 0) : ∃ l, lowest m = some l ∧ l < 32 ∧ laneOn m l = true := by
  cases hl : lowest m with
  | none =>
      exfalso; apply h
      have hn : ∀ l < 32, ¬ laneOn m l = true := by
        intro l hl'
        have := List.find?_eq_none.mp hl l (by simpa [lanes32] using hl')
        simpa using this
      apply BitVec.eq_of_getLsbD_eq
      intro l hl'
      simpa [laneOn] using hn l hl'
  | some l =>
      have h1 := List.mem_of_find?_eq_some hl
      have h2 := List.find?_some hl
      exact ⟨l, rfl, by simpa [lanes32] using h1, h2⟩

/-- One register of a vector result lands in the active lanes, with the tag of its lowest active lane. -/
theorem applyWrite_vec (s : State) (g : Group) (n : Nat) (tag : Word → Tag) (f : Nat → Word) :
    applyWrite g (vecWrite s n tag f) = putVec s g n tag f := by
  unfold vecWrite putVec applyWrite setVreg
  dsimp only
  by_cases hm : execMask s = 0
  · simp [hm]
  · obtain ⟨l, hl, hl32, hon⟩ := lowest_spec hm
    simp only [hm, if_false, mergeLanes_masked]
    have : laneAt (tabulate fun l => if laneOn (execMask s) l then f l else 0) ((lowest (execMask s)).getD 0)
        = f ((lowest (execMask s)).getD 0) := by
      simp [hl, laneAt, tabulate, lanes32, hl32, hon]
    rw [this]

/-- Only the 32 lanes of a result are written. -/
theorem putVec_congr (s : State) (g : Group) (n : Nat) (tag : Word → Tag) {f f' : Nat → Word} (h : ∀ l < 32, f l = f' l) :
    putVec s g n tag f = putVec s g n tag f' := by
  have ht : tabulate f = tabulate f' := List.map_congr_left fun l hl => h l (by simpa [lanes32] using hl)
  unfold putVec setVreg
  by_cases hm : execMask s = 0
  · simp [hm]
  · obtain ⟨l, hl, hl32, -⟩ := lowest_spec hm
    rw [ht, show (lowest (execMask s)).getD 0 = l by simp [hl], h l hl32]

/-- The writes of a vector result, landed. -/
theorem applyWrites_vec (s : State) (n : Nat) (pr : Bool) (aff : Option Tag) (all : Bool) (f : Nat → Dword) :
    applyWrites s.g (vecWrites s (.v n) pr aff all f) = putVecTy s n pr aff all f := by
  have at_ : ∀ l < 32, (lanes32.map f).getD l 0 = f l := fun l hl => by simp [lanes32, hl]
  unfold vecWrites putVecTy
  dsimp only
  cases pr
  · simp only [Bool.false_eq_true, if_false, applyWrites, List.foldl_cons, List.foldl_nil, applyWrite_vec, regNo, Opnd.reg]
    exact putVec_congr s _ _ _ fun l hl => by rw [at_ l hl]
  · simp only [if_true, applyWrites, List.foldl_cons, List.foldl_nil, applyWrite_vec, regNo, Opnd.reg]
    rw [putVec_congr s s.g n _ (fun l hl => by rw [at_ l hl])]
    exact putVec_congr s _ _ _ fun l hl => by rw [at_ l hl]

/-- The writes of a scalar result, landed. -/
theorem applyWrites_sca (g : Group) (n : Nat) (pr : Bool) (x : Dword) :
    applyWrites g (scaWrites (.s n) pr x) = putSca g n pr x := by cases pr <;> rfl

/-- The next state of a vector instruction of a quiet group that raises no flags. -/
theorem vecIssue_quiet (i : Instr) (s : State) (ws : List RegWrite) (h : Quiet s) (hp : perLane i = true)
    (hs : isLong i = false) :
    issue i (.ok (Effect.write s ws)) s = .next (vecDone i s (applyWrites s.g ws)) := by
  have e := finishShort_quiet i (Effect.write s ws) h rfl (fpTrap_none _)
  simp only [Effect.write, Effect.of, hp, orFlags, List.foldl_nil, if_true] at e
  rw [show (0 : FpFlags) ||| 0 = 0 from rfl, addFps_zero] at e
  have := issue_short i (Effect.write s ws) s hs
  rw [this]
  exact congrArg _ e

theorem putVec_masked (s : State) (g : Group) (n : Nat) (tag : Word → Tag) (f f' : Nat → Word)
    (h : ∀ l < 32, f l = if laneOn (execMask s) l then f' l else 0) : putVec s g n tag f = putVec s g n tag f' := by
  rw [putVec_congr s g n tag h]
  unfold putVec setVreg
  by_cases hm : execMask s = 0
  · rw [if_pos hm, if_pos hm]
  · obtain ⟨l, hl, -, hon⟩ := lowest_spec hm
    have hd : (lowest (execMask s)).getD 0 = l := by rw [hl]; rfl
    rw [if_neg hm, if_neg hm, mergeLanes_masked, hd]
    dsimp only
    rw [if_pos hon]

theorem putVecTy_masked (s : State) (n : Nat) (pr : Bool) (aff : Option Tag) (all : Bool) (f f' : Nat → Dword)
    (h : ∀ l < 32, f l = if laneOn (execMask s) l then f' l else 0) :
    putVecTy s n pr aff all f = putVecTy s n pr aff all f' := by
  have lo : ∀ l < 32, ((f l).setWidth 32 : Word) = if laneOn (execMask s) l then (f' l).setWidth 32 else 0 := by
    intro l hl; rw [h l hl]; split <;> rfl
  have hi : ∀ l < 32, ((f l >>> 32).setWidth 32 : Word) = if laneOn (execMask s) l then (f' l >>> 32).setWidth 32 else 0 := by
    intro l hl; rw [h l hl]; split <;> rfl
  unfold putVecTy
  dsimp only
  rw [putVec_masked s s.g n _ _ _ lo]
  cases pr
  · rfl
  · simp only [if_true]; exact putVec_masked s _ _ _ _ _ hi

/-- The next state of a vector instruction of a quiet group whose flags trap nothing. -/
theorem vecFlagged_quiet (i : Instr) (s : State) (n : Nat) (pr all : Bool) (f : Nat → Dword × FpFlags) (h : Quiet s)
    (hp : perLane i = true) (hs : isLong i = false) (hf : fpTrap (trapEnables s.g) (activeFlags s f) 0 = none) :
    vecFlagged i (.v n) pr all f s
      = .next (vecDone i s (addFps (putVecTy s n pr none all fun l => (f l).1) (orFlags (activeFlags s f)))) := by
  have hfp : (lanes32.map fun l => if laneOn (execMask s) l then f l else (0, 0)).map (·.2) = activeFlags s f := by
    simp only [activeFlags, List.map_map]
    apply List.map_congr_left
    intro l _
    simp only [Function.comp]
    split <;> rfl
  have hw : applyWrites s.g (vecWrites s (.v n) pr none all fun l =>
      ((lanes32.map fun l => if laneOn (execMask s) l then f l else (0, 0)).getD l (0, 0)).1)
      = putVecTy s n pr none all fun l => (f l).1 := by
    rw [applyWrites_vec]
    have at_ : ∀ l < 32, ((lanes32.map fun l => if laneOn (execMask s) l then f l else (0, 0)).getD l (0, 0)).1
        = if laneOn (execMask s) l then (f l).1 else 0 := by
      intro l hl
      simp only [lanes32, List.getD_eq_getElem?_getD, List.getElem?_map, List.getElem?_range hl, Option.map_some, Option.getD_some]
      split <;> rfl
    exact putVecTy_masked s n pr none all _ _ at_
  unfold vecFlagged
  dsimp only
  rw [hfp]
  generalize hws : vecWrites s (.v n) pr none all _ = ws at hw ⊢
  have e := finishShort_quiet i { Effect.write s ws with fp := activeFlags s f } h rfl hf
  rw [issue_short i _ s hs, e, hp]
  show Host.Outcome.next (countLanes (advance i s (addFps (applyWrites s.g ws) (orFlags (activeFlags s f) ||| 0)))
    (popcount (execMask s))) = _
  rw [hw, show orFlags (activeFlags s f) ||| 0 = orFlags (activeFlags s f) from BitVec.or_zero]
  rfl

end Sys2Proof.Machine
end

