-- ==== Sys2Proof/Laws/Flight.lean ====
section
/-!
SUPPORT. Laws/Flight.lean: a long-latency instruction of a group with nothing else in flight, from its issue to FLAG_CLEAR.
-/
namespace Sys2Proof.Machine

theorem mem_allGroups {s : State} (h : s.g.ref.team.serial ≠ 0) : s.g ∈ allGroups s := by
  unfold allGroups; rw [if_neg h]; simp

/-- A team with a group that runs does not settle as halted (R417). -/
theorem settleTeam_running {s : State} (hr : s.g.ref.team = s.team.ref) (hs : s.team.ref.serial ≠ 0)
    (ha : s.g.active = true) (hh : s.g.halted = false) : settleTeam s = s := by
  have hmem : s.g ∈ (groupsOf s s.team.ref).filter Group.active := by
    refine List.mem_filter.mpr ⟨List.mem_filter.mpr ⟨mem_allGroups (hr ▸ hs), by simp [hr]⟩, ha⟩
  have hall : ((groupsOf s s.team.ref).filter Group.active).all (·.halted) = false := by
    rw [List.all_eq_false]
    exact ⟨s.g, hmem, by simp [hh]⟩
  unfold settleTeam
  dsimp only
  rw [if_pos]
  simp [hall]

/-- After a step of a group that runs nothing more follows. -/
theorem afterStep_running {s : State} (h : Settled s) : afterStep s = s := by
  obtain ⟨hr, hs, ha, hh, hd, ht⟩ := h
  have h1 : settleHalt s = s := by unfold settleHalt; rw [hd]
  unfold afterStep
  dsimp only
  rw [h1, settleTeam_running hr hs ha hh, if_pos ht]

theorem setFlagBit_fields (g : Group) (f : Option Nat) : ∃ x, setFlagBit g f = { g with flags := x } := by
  cases f with
  | none => exact ⟨g.flags, rfl⟩
  | some n => exact ⟨_, rfl⟩

/-- The issue of a long-latency instruction that no canary watches. -/
theorem launchLong_quiet (i : Instr) (e : Effect) (h : Quiet e.st) :
    launchLong i e = advance i e.st { setFlagBit e.st.g (coverFlag e.st (cur e.st)) with inflight := [flightOf i e] } := by
  obtain ⟨x, hx⟩ := setFlagBit_fields e.st.g (coverFlag e.st (cur e.st))
  have hg : ({ (setFlagBit e.st.g (coverFlag e.st (cur e.st))).setSlot e.st.slot
        ((cur e.st).moveTo e.st.now (nextAddr i (cur e.st))) with
      inflight := ((setFlagBit e.st.g (coverFlag e.st (cur e.st))).setSlot e.st.slot
        ((cur e.st).moveTo e.st.now (nextAddr i (cur e.st)))).inflight ++ [flightOf i e] } : Group)
      = ({ setFlagBit e.st.g (coverFlag e.st (cur e.st)) with inflight := [flightOf i e] } : Group).setSlot e.st.slot
        ((cur e.st).moveTo e.st.now (nextAddr i (cur e.st))) := by
    rw [hx]
    cases e.st.slot <;> simp [Group.setSlot, h.1]
  have hst := congrArg (fun g => watchEvents { e.st with g := g } e.st.slot (flightOf i e).loads [1]
    (trapCause (flightOf i e).slot (flightOf i e).pc (flightOf i e).next (flightOf i e).dst (.plain 0x003 0))) hg
  exact hst.trans (watchEvents_none (by simp only [setSlot_core, coreAt, hx]; exact h.2) _ _ _ _)

/-- With one instruction in flight, its landing writes its registers, and its flag clears where its clause covers no more. -/
theorem landFlight_one (g : Group) (f : InFlight) (held : Bool) (hi : g.inflight = [f]) :
    landFlight g 0 f held = clearFlagBit { addSts (addFps (applyWrites g f.writes) (orFlags f.fp)) f.sts with inflight := [] }
      (if held then none else f.flag) := by
  have h : (addSts (addFps (applyWrites g f.writes) (orFlags f.fp)) f.sts).inflight = [f] := by simp [addSts, addFps, hi]
  unfold landFlight
  rw [hi]
  show clearFlagBit { addSts (addFps (applyWrites g f.writes) (orFlags f.fp)) f.sts with
    inflight := [] ++ (addSts (addFps (applyWrites g f.writes) (orFlags f.fp)) f.sts).inflight.drop 1 } (if held then none else f.flag) = _
  rw [h]
  rfl

/-- Register writes see neither the slots nor what is in flight. -/
theorem applyWrites_frame (g : Group) (ws : List RegWrite) (x : BitVec 12) (l : List InFlight) (i : SlotId) (p : PcSlot) :
    applyWrites ({ g with flags := x, inflight := l }.setSlot i p) ws
      = { applyWrites g ws with flags := x, inflight := l }.setSlot i p := by
  induction ws generalizing g with
  | nil => rfl
  | cons w t ih =>
      have hw : applyWrite ({ g with flags := x, inflight := l }.setSlot i p) w
          = { applyWrite g w with flags := x, inflight := l }.setSlot i p := by
        cases i <;> cases w <;> simp only [applyWrite, setVreg, Group.setSlot, vreg, setSreg, setHreg] <;> split <;> rfl
      show applyWrites (applyWrite _ w) t = _
      rw [hw, ih]
      rfl

theorem countLanes_team_ref (s : State) (n : Nat) : (countLanes s n).team.ref = s.team.ref := by
  unfold countLanes; split <;> rfl

theorem countLanes_team_steps (s : State) (n : Nat) : (countLanes s n).team.steps = s.team.steps := by
  unfold countLanes; split <;> rfl

/-- The group that the landing of the one instruction in flight leaves. -/
theorem landFlight_quiet (i : Instr) (e : Effect) (held : Bool) (hi : e.st.g.inflight = []) (hf : e.st.g.flags = 0) :
    landFlight (advance i e.st { setFlagBit e.st.g (coverFlag e.st (cur e.st)) with inflight := [flightOf i e] }).g 0
        (flightOf i e) held
      = (let G := addSts (addFps (applyWrites e.st.g e.writes) (orFlags e.fp)) e.sts
         if held then setFlagBit G (coverFlag e.st (cur e.st)) else G).setSlot e.st.slot
          ((cur e.st).moveTo e.st.now (nextAddr i (cur e.st))) := by
  have key : ∀ (x : BitVec 12) (fl : Option Nat),
      setFlagBit e.st.g fl = { e.st.g with flags := x } →
      clearFlagBit { addSts (addFps (applyWrites ({ e.st.g with flags := x, inflight := [flightOf i e] }.setSlot e.st.slot
          ((cur e.st).moveTo e.st.now (nextAddr i (cur e.st)))) e.writes) (orFlags e.fp)) e.sts with inflight := [] }
          (if held then none else fl)
        = (let G := addSts (addFps (applyWrites e.st.g e.writes) (orFlags e.fp)) e.sts
           if held then setFlagBit G fl else G).setSlot e.st.slot
          ((cur e.st).moveTo e.st.now (nextAddr i (cur e.st))) := by
    intro x fl hx
    rw [applyWrites_frame]
    have hin : (applyWrites e.st.g e.writes).inflight = [] := by rw [applyWrites_inflight]; exact hi
    have hfl : (applyWrites e.st.g e.writes).flags = 0 := by rw [applyWrites_flags]; exact hf
    cases fl with
    | none =>
        have : x = 0 := by
          have := congrArg Group.flags hx
          simp only [setFlagBit] at this
          rw [← this]; exact hf
        subst this
        generalize applyWrites e.st.g e.writes = G at hin hfl ⊢
        obtain ⟨⟩ := G
        subst hin hfl
        cases held <;> cases e.st.slot <;> rfl
    | some n =>
        have : x = 0 ||| BitVec.ofNat 12 (2 ^ n) := by
          have := congrArg Group.flags hx
          simp only [setFlagBit, hf] at this
          exact this.symm
        subst this
        generalize applyWrites e.st.g e.writes = G at hin hfl ⊢
        obtain ⟨⟩ := G
        subst hin hfl
        cases held <;> cases e.st.slot <;> simp [clearFlagBit, setFlagBit, addSts, addFps, Group.setSlot]
  obtain ⟨x, hx⟩ := setFlagBit_fields e.st.g (coverFlag e.st (cur e.st))
  rw [advance_g, hx, landFlight_one _ (flightOf i e) held (by simp)]
  exact key x _ hx

/-- What a clause still covers does not depend on the group's marked flags or on what is in flight. -/
theorem stillCovers_advance (i : Instr) (s : State) (f : Option Nat) (x : BitVec 12) (l : List InFlight) :
    stillCovers (advance i s { s.g with flags := x, inflight := l }) f = stillCovers (advance i s s.g) f := by
  unfold stillCovers advance
  cases s.slot <;> rfl

theorem flagsLeft_fields (i : Instr) (s : State) (g : Group) : ∃ x, flagsLeft i s g = { g with flags := x } := by
  unfold flagsLeft
  split
  · exact setFlagBit_fields g _
  · exact ⟨g.flags, rfl⟩

/-- A long-latency instruction that traps nothing lands as its effect says, from its issue to FLAG_CLEAR. -/
theorem lands (i : Instr) (s : State) (e : Effect) (hx : exec i s = .next (launchLong i e)) (hq : Idle e.st)
    (hm : execMask e.st = execMask s) (hf : fpTrap (trapEnables e.st.g) e.fp 0 = none) (ha : e.arm = none) (hu : e.until_ = .now) :
    Lands i s e.st (addSts (addFps (applyWrites e.st.g e.writes) (orFlags e.fp)) e.sts) := by
  obtain ⟨hquiet, ⟨hr, hs, hac, hh, hd, ht⟩, hflags⟩ := hq
  refine ⟨_, hx, ⟨flightOf i e, launchLong_quiet i e hquiet⟩, ?_⟩
  rw [launchLong_quiet i e hquiet]
  obtain ⟨x, hset⟩ := setFlagBit_fields e.st.g (coverFlag e.st (cur e.st))
  generalize hT : advance i e.st { setFlagBit e.st.g (coverFlag e.st (cur e.st)) with inflight := [flightOf i e] } = T
  have hTi : T.g.inflight[0]? = some (flightOf i e) := by rw [← hT]; simp
  have hheld : stillCovers T (flightOf i e).flag = stillCovers (advance i e.st e.st.g) (coverFlag e.st (cur e.st)) := by
    rw [← hT, hset]; exact stillCovers_advance i e.st _ x [flightOf i e]
  have hg : landFlight T.g 0 (flightOf i e) (stillCovers T (flightOf i e).flag)
      = (flagsLeft i e.st (addSts (addFps (applyWrites e.st.g e.writes) (orFlags e.fp)) e.sts)).setSlot
      e.st.slot ((cur e.st).moveTo e.st.now (nextAddr i (cur e.st))) := by
    rw [hheld, ← hT]; exact landFlight_quiet i e _ hquiet.1 hflags
  have hst : ({ T with g := landFlight T.g 0 (flightOf i e) (stillCovers T (flightOf i e).flag) } : State)
      = advance i e.st (flagsLeft i e.st (addSts (addFps (applyWrites e.st.g e.writes) (orFlags e.fp)) e.sts)) := by
    rw [hg, ← hT]; rfl
  have hlanes : (flightOf i e).lanes = if perLane i then popcount (execMask s) else 0 := by
    rw [← hm]; rfl
  have hfix : ∀ G : Group, G = flagsLeft i e.st (addSts (addFps (applyWrites e.st.g e.writes) (orFlags e.fp)) e.sts) →
      G.ref = e.st.g.ref ∧ G.exited = e.st.g.exited ∧ G.halted = e.st.g.halted ∧ G.haltDue = e.st.g.haltDue
        ∧ G.fpc = e.st.g.fpc ∧ G.core = e.st.g.core := by
    intro G hG; subst hG
    obtain ⟨y, hy⟩ := flagsLeft_fields i e.st (addSts (addFps (applyWrites e.st.g e.writes) (orFlags e.fp)) e.sts)
    rw [hy]
    simp [addSts, addFps, applyWrites_ref, applyWrites_exited, applyWrites_halted, applyWrites_haltDue]
  obtain ⟨f1, f2, f3, f4, f5, f6⟩ := hfix _ rfl
  generalize flagsLeft i e.st (addSts (addFps (applyWrites e.st.g e.writes) (orFlags e.fp)) e.sts) = G at *
  have hland : landAt T 0 = countLanes (advance i e.st G) (flightOf i e).lanes := by
    unfold landAt
    rw [hTi]
    unfold landOutside
    dsimp only
    rw [hst]
    have harm : (flightOf i e).arm = none := ha
    have htrap : fpTrap (flightOf i e).te (flightOf i e).fp 0 = none := hf
    rw [harm, Option.map_none, Option.getD_none, htrap, raiseTrap_none, watchSince_none]
    simpa [coreAt, f6] using hquiet.2
  show (match T.g.inflight[0]? with
    | none => cannot
    | some f =>
        let ready : Bool := match f.until_ with
          | .now => true
          | .pass c n => !((passesAt T c).any fun p => p.serial == n)
        may ready (afterStep (landAt T 0))) = _
  rw [hTi]
  have hunt : (flightOf i e).until_ = .now := hu
  simp only [hunt, may, if_true]
  rw [hland, hlanes, afterStep_running]
  refine ⟨?_, ?_, ?_, ?_, ?_, ?_⟩
  · simpa [f1, countLanes_team_ref] using hr
  · simpa [countLanes_team_ref] using hs
  · simpa [Group.active, f2] using hac
  · simpa [f3] using hh
  · simpa [f4] using hd
  · simpa [countLanes_team_steps] using ht

end Sys2Proof.Machine
end

