-- ==== Sys2Proof/Laws/Maps.lean ====
section
/-!
SUPPORT. Laws/Maps.lean: reading after writing a finite map, and that writing keeps its canonical form.
-/
namespace Sys2Proof.Machine

variable {α : Type}

/-! ### Canonical form -/

/-- A number below every key. -/
def belowAll (n : Nat) (m : SMap α) : Prop := ∀ e ∈ m, n < e.1

theorem mrising_tail {e : Nat × α} {m : SMap α} (h : mrising (e :: m) = true) : mrising m = true := by
  cases m with
  | nil => rfl
  | cons f t => obtain ⟨a, x⟩ := e; obtain ⟨b, y⟩ := f; simp only [mrising, Bool.and_eq_true] at h; exact h.2

theorem mrising_head {e : Nat × α} {m : SMap α} (h : mrising (e :: m) = true) : belowAll e.1 m := by
  induction m generalizing e with
  | nil => intro f hf; cases hf
  | cons f t ih =>
      obtain ⟨a, x⟩ := e; obtain ⟨b, y⟩ := f
      have hab : a < b := by simp only [mrising, Bool.and_eq_true, decide_eq_true_eq] at h; exact h.1
      intro g hg
      rcases List.mem_cons.mp hg with rfl | hg
      · exact hab
      · exact Nat.lt_trans hab (ih (mrising_tail h) g hg)

theorem mrising_cons {n : Nat} {x : α} {m : SMap α} (hm : mrising m = true) (hb : belowAll n m) :
    mrising ((n, x) :: m) = true := by
  cases m with
  | nil => rfl
  | cons f t => obtain ⟨b, y⟩ := f; simp only [mrising, Bool.and_eq_true, decide_eq_true_eq]; exact ⟨hb (b, y) (by simp), hm⟩

/-- Keys that rise and lie above a bound still do where entries are dropped. -/
theorem mrising_filter (p : Nat × α → Bool) {m : SMap α} (h : mrising m = true) : mrising (m.filter p) = true := by
  induction m with
  | nil => rfl
  | cons e t ih =>
      have ht := ih (mrising_tail h)
      by_cases hp : p e = true
      · rw [List.filter_cons_of_pos hp]
        exact mrising_cons (x := e.2) ht fun f hf => mrising_head h f (List.mem_filter.mp hf).1
      · rw [List.filter_cons_of_neg hp]; exact ht

theorem mem_mdel {m : SMap α} {n : Nat} {e : Nat × α} (h : e ∈ mdel m n) : e ∈ m := by
  induction m with
  | nil => cases h
  | cons f t ih =>
      obtain ⟨k, v⟩ := f
      unfold mdel at h
      split at h
      · exact h
      · split at h
        · exact List.mem_cons_of_mem _ h
        · rcases List.mem_cons.mp h with rfl | h
          · simp
          · exact List.mem_cons_of_mem _ (ih h)

theorem mem_mins {m : SMap α} {n : Nat} {x : α} {e : Nat × α} (h : e ∈ mins m n x) : e = (n, x) ∨ e ∈ m := by
  induction m with
  | nil => simpa [mins] using h
  | cons f t ih =>
      obtain ⟨k, v⟩ := f
      unfold mins at h
      split at h
      · simpa using h
      · split at h
        · rcases List.mem_cons.mp h with rfl | h
          · exact .inl rfl
          · exact .inr (List.mem_cons_of_mem _ h)
        · rcases List.mem_cons.mp h with rfl | h
          · simp
          · rcases ih h with rfl | h
            · exact .inl rfl
            · exact .inr (List.mem_cons_of_mem _ h)

theorem mrising_mdel {m : SMap α} (n : Nat) (h : mrising m = true) : mrising (mdel m n) = true := by
  induction m with
  | nil => rfl
  | cons f t ih =>
      obtain ⟨k, v⟩ := f
      unfold mdel
      split
      · exact h
      · split
        · exact mrising_tail h
        · exact mrising_cons (ih (mrising_tail h)) fun e he => mrising_head h e (mem_mdel he)

theorem mrising_mins {m : SMap α} (n : Nat) (x : α) (h : mrising m = true) : mrising (mins m n x) = true := by
  induction m with
  | nil => rfl
  | cons f t ih =>
      obtain ⟨k, v⟩ := f
      unfold mins
      split
      · rename_i hlt
        exact mrising_cons h fun e he => by
          rcases List.mem_cons.mp he with rfl | he
          · exact hlt
          · exact Nat.lt_trans hlt (mrising_head h e he)
      · split
        · rename_i hn; subst hn; exact mrising_cons (mrising_tail h) (mrising_head h)
        · rename_i hlt hne
          exact mrising_cons (ih (mrising_tail h)) fun e he => by
            rcases mem_mins he with rfl | he
            · show k < n; omega
            · exact mrising_head h e he

/-- Writing keeps the keys rising. -/
theorem mrising_mset [DecidableEq α] (d : α) {m : SMap α} (n : Nat) (x : α) (h : mrising m = true) :
    mrising (mset d m n x) = true := by
  unfold mset; split
  · exact mrising_mdel n h
  · exact mrising_mins n x h

/-- Writing keeps the canonical form. -/
theorem mwf_mset [DecidableEq α] (d : α) {m : SMap α} (n : Nat) (x : α) (h : mwf d m = true) :
    mwf d (mset d m n x) = true := by
  simp only [mwf, Bool.and_eq_true, List.all_eq_true, decide_eq_true_eq] at h ⊢
  refine ⟨mrising_mset d n x h.1, fun e he => ?_⟩
  unfold mset at he
  split at he
  · exact h.2 e (mem_mdel he)
  · rename_i hx
    rcases mem_mins he with rfl | he
    · exact hx
    · exact h.2 e he

/-- Dropping entries keeps the canonical form. -/
theorem mwf_filter [DecidableEq α] (d : α) (p : Nat × α → Bool) {m : SMap α} (h : mwf d m = true) :
    mwf d (m.filter p) = true := by
  simp only [mwf, Bool.and_eq_true, List.all_eq_true, decide_eq_true_eq] at h ⊢
  exact ⟨mrising_filter p h.1, fun e he => h.2 e (List.mem_filter.mp he).1⟩

/-- Where every key of one map lies below every key of another, the two after each other rise. -/
theorem mrising_append {a b : SMap α} (ha : mrising a = true) (hb : mrising b = true) (h : ∀ e ∈ a, belowAll e.1 b) :
    mrising (a ++ b) = true := by
  induction a with
  | nil => exact hb
  | cons e t ih =>
      refine mrising_cons (x := e.2) (ih (mrising_tail ha) fun f hf => h f (List.mem_cons_of_mem _ hf)) fun f hf => ?_
      rcases List.mem_append.mp hf with hf | hf
      · exact mrising_head ha f hf
      · exact h e (by simp) f hf

/-- The entries of a run have its keys and no default value. -/
theorem mem_mrun [DecidableEq α] {d : α} {n : Nat} {xs : List α} {e : Nat × α} (h : e ∈ mrun d n xs) :
    n ≤ e.1 ∧ e.1 < n + xs.length ∧ e.2 ≠ d := by
  induction xs generalizing n with
  | nil => cases h
  | cons x t ih =>
      unfold mrun at h
      split at h
      · have := ih h; simp only [List.length_cons]; exact ⟨by omega, by omega, this.2.2⟩
      · rename_i hx
        rcases List.mem_cons.mp h with rfl | h
        · exact ⟨Nat.le_refl _, by simp, hx⟩
        · have := ih h; simp only [List.length_cons]; exact ⟨by omega, by omega, this.2.2⟩

theorem mrising_mrun [DecidableEq α] (d : α) (n : Nat) (xs : List α) : mrising (mrun d n xs) = true := by
  induction xs generalizing n with
  | nil => rfl
  | cons x t ih =>
      unfold mrun
      split
      · exact ih _
      · exact mrising_cons (ih _) fun e he => by have := mem_mrun he; omega

/-- Writing a run keeps the canonical form. -/
theorem mwf_mputRun [DecidableEq α] (d : α) {m : SMap α} (n : Nat) (xs : List α) (h : mwf d m = true) :
    mwf d (mputRun d m n xs) = true := by
  simp only [mwf, Bool.and_eq_true, List.all_eq_true, decide_eq_true_eq] at h ⊢
  unfold mputRun
  refine ⟨mrising_append (mrising_append (mrising_filter _ h.1) (mrising_mrun d n xs) ?_) (mrising_filter _ h.1) ?_, ?_⟩
  · intro e he f hf
    have := of_decide_eq_true (List.mem_filter.mp he).2
    have := mem_mrun hf
    omega
  · intro e he f hf
    have hf := of_decide_eq_true (List.mem_filter.mp hf).2
    rcases List.mem_append.mp he with he | he
    · have := of_decide_eq_true (List.mem_filter.mp he).2; omega
    · have := mem_mrun he; omega
  · intro e he
    rcases List.mem_append.mp he with he | he
    · rcases List.mem_append.mp he with he | he
      · exact h.2 e (List.mem_filter.mp he).1
      · exact (mem_mrun he).2.2
    · exact h.2 e (List.mem_filter.mp he).1

/-! ### Reading after writing -/

theorem mget_of_belowAll (d : α) {m : SMap α} {n : Nat} (h : belowAll n m) : mget d m n = d := by
  induction m with
  | nil => rfl
  | cons f t ih =>
      obtain ⟨k, v⟩ := f
      have hk : n < k := h (k, v) (by simp)
      unfold mget
      rw [if_neg (by omega)]
      exact ih fun e he => h e (List.mem_cons_of_mem _ he)

theorem mget_mins (d : α) (m : SMap α) (n : Nat) (x : α) (k : Nat) :
    mget d (mins m n x) k = if k = n then x else mget d m k := by
  induction m with
  | nil => simp [mins, mget]
  | cons f t ih =>
      obtain ⟨a, v⟩ := f
      unfold mins
      split
      · simp [mget]
      · split
        · rename_i hn; subst hn; by_cases hk : k = n <;> simp [mget, hk]
        · rename_i hne
          by_cases hk : k = a
          · subst hk
            have : ¬ k = n := fun h => hne h.symm
            simp [mget, this]
          · simp [mget, hk, ih]

theorem mget_mdel (d : α) {m : SMap α} (h : mrising m = true) (n k : Nat) :
    mget d (mdel m n) k = if k = n then d else mget d m k := by
  induction m with
  | nil => simp [mdel, mget]
  | cons f t ih =>
      obtain ⟨a, v⟩ := f
      have ht := mrising_tail h
      unfold mdel
      split
      · rename_i hlt
        by_cases hk : k = n
        · subst hk
          rw [if_pos rfl]
          exact mget_of_belowAll d fun e he => by
            rcases List.mem_cons.mp he with rfl | he
            · exact hlt
            · exact Nat.lt_trans hlt (mrising_head h e he)
        · simp [hk]
      · split
        · rename_i hn; subst hn
          by_cases hk : k = n
          · subst hk; rw [if_pos rfl]; exact mget_of_belowAll d (mrising_head h)
          · simp [mget, hk]
        · rename_i hne
          by_cases hk : k = a
          · subst hk
            have : ¬ k = n := fun h => hne h.symm
            simp [mget, this]
          · simp [mget, hk, ih ht]

/-- A read after a write gives the value written, and every other key reads as before. -/
theorem mget_mset [DecidableEq α] (d : α) {m : SMap α} (h : mrising m = true) (n : Nat) (x : α) (k : Nat) :
    mget d (mset d m n x) k = if k = n then x else mget d m k := by
  unfold mset; split
  · rename_i hx; subst hx; exact mget_mdel x h n k
  · exact mget_mins d m n x k

/-- A read at another key does not see the entries that a filter drops there. -/
theorem mget_filter (d : α) (p : Nat × α → Bool) {m : SMap α} (k : Nat) (hp : ∀ v, p (k, v) = true) :
    mget d (m.filter p) k = mget d m k := by
  induction m with
  | nil => rfl
  | cons f t ih =>
      obtain ⟨a, v⟩ := f
      by_cases hpa : p (a, v) = true
      · rw [List.filter_cons_of_pos hpa]; simp [mget, ih]
      · rw [List.filter_cons_of_neg hpa]
        have hk : ¬ k = a := fun h => hpa (h ▸ hp v)
        simp [mget, hk, ih]

/-! ### Registers (R48, R49) -/

/-- A scalar register reads as it was written, and the others as before. -/
theorem sreg_setSreg {g : Group} (h : mrising g.sregs = true) (n : Nat) (x : Word) (k : Nat) :
    sreg (setSreg g n x) k = if k = n then x else sreg g k := mget_mset 0 h n x k

/-- A handle register reads as it was written, and the others as before. -/
theorem hreg_setHreg {g : Group} (h : mrising g.hregs = true) (n : Nat) (x : Dword) (k : Nat) :
    hreg (setHreg g n x) k = if k = n then x else hreg g k := mget_mset 0 h n x k

/-- A vector register other than the one written reads as before. -/
theorem vreg_setVreg_other {g : Group} (h : mrising g.vregs = true) (n : Nat) (m : Word) (v : List Word) (t : Tag) (k : Nat)
    (hk : k ≠ n) : vreg (setVreg g n m v t) k = vreg g k := by
  unfold setVreg; split
  · rfl
  · exact (mget_mset VReg.zero h n _ k).trans (if_neg hk)

end Sys2Proof.Machine
end

