-- ==== Sys2Proof/Laws/Memory.lean ====
section
/-!
SUPPORT. Laws/Memory.lean: what the operations over memory do: the canonical form that each keeps, and reading after
writing.
-/
namespace Sys2Proof.Machine

/-! ### Clearing marks (R104) -/

theorem inRanges_cons (r : Nat × Nat) (rs : List (Nat × Nat)) (k : Nat) :
    inRanges (r :: rs) k = ((decide (r.1 ≤ k) && decide (k < r.2)) || inRanges rs k) := rfl

theorem inRanges_append (a b : List (Nat × Nat)) (k : Nat) : inRanges (a ++ b) k = (inRanges a k || inRanges b k) :=
  List.any_append

/-- The ranges without a number hold every other number that they held, and not that one. -/
theorem inRanges_cutRange (rs : List (Nat × Nat)) (n k : Nat) :
    inRanges (cutRange rs n) k = (inRanges rs k && decide (k ≠ n)) := by
  induction rs with
  | nil => rfl
  | cons r t ih =>
      have e : cutRange (r :: t) n
          = (if r.1 ≤ n ∧ n < r.2 then [(r.1, n), (n + 1, r.2)].filter fun q => decide (q.1 < q.2) else [r])
            ++ cutRange t n := by simp [cutRange]
      rw [e, inRanges_append, ih, inRanges_cons]
      have head : inRanges (if r.1 ≤ n ∧ n < r.2 then [(r.1, n), (n + 1, r.2)].filter fun q => decide (q.1 < q.2) else [r]) k
          = ((decide (r.1 ≤ k) && decide (k < r.2)) && decide (k ≠ n)) := by
        by_cases h : r.1 ≤ n ∧ n < r.2
        · rw [if_pos h, Bool.eq_iff_iff]
          simp only [inRanges, List.any_eq_true, List.mem_filter, List.mem_cons, List.not_mem_nil, or_false, decide_eq_true_eq,
            Bool.and_eq_true]
          constructor
          · rintro ⟨q, ⟨rfl | rfl, -⟩, hq⟩ <;> refine ⟨⟨?_, ?_⟩, ?_⟩ <;> simp at hq <;> omega
          · rintro ⟨⟨h1, h2⟩, h3⟩
            by_cases hk : k < n
            · exact ⟨(r.1, n), ⟨.inl rfl, by omega⟩, h1, hk⟩
            · exact ⟨(n + 1, r.2), ⟨.inr rfl, by omega⟩, by omega, h2⟩
        · rw [if_neg h, Bool.eq_iff_iff]
          simp only [inRanges, List.any_cons, List.any_nil, Bool.or_false, Bool.and_eq_true, decide_eq_true_eq]
          omega
      rw [head, Bool.eq_iff_iff]
      simp only [Bool.or_eq_true, Bool.and_eq_true]
      constructor
      · rintro (⟨h1, h2⟩ | ⟨h1, h2⟩)
        · exact ⟨.inl h1, h2⟩
        · exact ⟨.inr h1, h2⟩
      · rintro ⟨h1 | h1, h2⟩
        · exact .inl ⟨h1, h2⟩
        · exact .inr ⟨h1, h2⟩

theorem marked_clearSpan (s : State) (n k : Nat) :
    inRanges (clearSpan s n).marked k = (inRanges s.marked k && decide (k ≠ n)) := by
  unfold clearSpan
  split
  · exact inRanges_cutRange s.marked n k
  · rename_i h
    by_cases hk : k = n
    · subst hk; simp [Bool.not_eq_true _ ▸ h]
    · simp [hk]

theorem mget_eq_default {d : Byte} {m : SMap Byte} {k : Nat} (h : ∀ e ∈ m, ¬ e.1 = k) : mget d m k = d := by
  induction m with
  | nil => rfl
  | cons f t ih =>
      obtain ⟨a, v⟩ := f
      have hk : ¬ k = a := fun hk => h (a, v) (by simp) hk.symm
      simp only [mget, hk, if_false]
      exact ih fun e he => h e (List.mem_cons_of_mem _ he)

/-- Memory of a span once it is initialised: zero there, and as before elsewhere. -/
theorem mem_clearSpan (s : State) (n a : Nat) :
    mget Memory.unlisted (clearSpan s n).mem a
      = if inRanges s.marked n = true ∧ a / 32768 = n then 0 else mget Memory.unlisted s.mem a := by
  unfold clearSpan
  split
  · rename_i h
    by_cases ha : a / 32768 = n
    · rw [if_pos ⟨h, ha⟩]
      exact mget_eq_default fun e he h2 => by
        have := (List.mem_filter.mp he).2
        rw [h2, ha] at this; simp at this
    · rw [if_neg fun h => ha h.2]
      exact mget_filter _ _ a fun v => by simpa using ha
  · rename_i h; rw [if_neg fun h' => h h'.1]

/-- Initialising a span changes no byte that a reader sees (R104). -/
@[simp] theorem mainByte_clearSpan (s : State) (n a : Nat) : mainByte (clearSpan s n) a = mainByte s a := by
  unfold mainByte
  rw [marked_clearSpan, mem_clearSpan]
  by_cases ha : a / 32768 = n
  · by_cases h : inRanges s.marked n = true <;> simp [ha, h]
  · simp [ha]

/-! ### Canonical form -/

theorem wf_clearSpan {s : State} (n : Nat) (h : Memory.wf s.mem = true) : Memory.wf (clearSpan s n).mem = true := by
  unfold clearSpan
  split
  · exact mwf_filter Memory.unlisted _ h
  · exact h

theorem wf_putMain {s : State} (pa : Nat) (b : Byte) (h : Memory.wf s.mem = true) : Memory.wf (putMain s pa b).mem = true :=
  mwf_mset Memory.unlisted pa b (wf_clearSpan _ h)

theorem wf_foldl {α : Type} (f : State → α → State) (hf : ∀ s x, Memory.wf s.mem = true → Memory.wf (f s x).mem = true)
    (l : List α) {s : State} (h : Memory.wf s.mem = true) : Memory.wf (l.foldl f s).mem = true := by
  induction l generalizing s with
  | nil => exact h
  | cons x t ih => exact ih (hf s x h)

theorem wf_putMains {s : State} (cells : List (Nat × Byte)) (h : Memory.wf s.mem = true) :
    Memory.wf (putMains s cells).mem = true := by
  have h' := wf_foldl (fun s (c : Nat × Byte) => putMain s c.1 c.2) (fun s c h => wf_putMain c.1 c.2 h) cells h
  unfold putMains
  dsimp only
  split <;> exact h'

theorem wf_addPoison {s : State} (pa : Nat) (h : Memory.wf s.mem = true) : Memory.wf (addPoison s pa).mem = true :=
  wf_clearSpan _ h

theorem wf_putBytes {s : State} (pa : Nat) (bs : List Byte) (h : Memory.wf s.mem = true) :
    Memory.wf (putBytes s pa bs).mem = true := wf_putMains _ h

theorem wf_putRun {s : State} (pa : Nat) (bs : List Byte) (h : Memory.wf s.mem = true) :
    Memory.wf (putRun s pa bs).mem = true :=
  mwf_mputRun Memory.unlisted pa bs (wf_foldl (fun s k => clearSpan s (pa / 32768 + k)) (fun _ _ h => wf_clearSpan _ h) _ h)

theorem wf_putCached {s : State} (cells : List (Nat × Byte)) (h : Memory.wf s.mem = true) :
    Memory.wf (putCached s cells).mem = true := wf_putMains cells h

theorem wf_storeBytesAt {s : State} (pa : Nat) (bs : List Byte) (h : Memory.wf s.mem = true) :
    Memory.wf (storeBytesAt s pa bs).mem = true := wf_putCached _ h

theorem wf_holdAt {s : State} (b n : Nat) (x : Held) (h : Memory.wf s.mem = true) : Memory.wf (holdAt s b n x).mem = true := by
  have put : ∀ (l : List (Nat × Byte)) {m : List Host.Cell}, Memory.wf m = true →
      Memory.wf (l.foldl (fun m c => mset Memory.unlisted m (b + c.1) c.2) m) = true := by
    intro l
    induction l with
    | nil => intro m hm; exact hm
    | cons c t ih => intro m hm; exact ih (mwf_mset Memory.unlisted _ _ hm)
  exact put _ (mwf_filter Memory.unlisted _
    (wf_foldl (fun s k => clearSpan s (b / 32768 + k)) (fun _ _ h => wf_clearSpan _ h) _ h))

@[simp] theorem countMeta_mem (s : State) (sl : Sluice) (pa : Nat) : (countMeta s sl pa).mem = s.mem := by
  unfold countMeta; dsimp only; split <;> rfl

@[simp] theorem countFill_mem (s : State) (sl : Sluice) (pa : Nat) (f : Fill) : (countFill s sl pa f).mem = s.mem := by
  have m (s : State) (i n : Nat) : (meter s i n).mem = s.mem := rfl
  have d (s : State) (n : Nat) (f : Die → Die) : (countDie s n f).mem = s.mem := rfl
  unfold countFill; dsimp only; split
  · rw [d, m, m, countMeta_mem]
  · rw [m, m, countMeta_mem]

@[simp] theorem cacheBlock_mem (s : State) (sl : Sluice) (pa va : Nat) : (cacheBlock s sl pa va).1.mem = s.mem := by
  unfold cacheBlock; dsimp only; split <;> simp

@[simp] theorem onTeam_mem (s : State) (t : TRef) (f : Team → Team) : (onTeam s t f).mem = s.mem := by
  unfold onTeam; split <;> rfl

theorem wf_putLoc {s : State} (l : Loc) (b : Byte) (h : Memory.wf s.mem = true) : Memory.wf (putLoc s l b).mem = true := by
  unfold putLoc
  split
  · split
    · simpa using h
    · exact wf_putMain l.addr b h
  · simpa using h
  · exact h
  · simpa using h

@[simp] theorem unpoison_mem (s : State) (cells : List (Loc × Byte)) : (unpoison s cells).mem = s.mem := rfl

theorem openBlocks_mem (s : State) (cells : List (Loc × Byte)) : (openBlocks s cells).mem = s.mem := by
  unfold openBlocks
  generalize hall : (fun (s : State) (c : Loc × Byte) => _) = f
  suffices ∀ (l : List (Loc × Byte)) (s : State), (l.foldl f s).mem = s.mem from this cells s
  intro l
  induction l with
  | nil => intro s; rfl
  | cons c t ih =>
      intro s
      rw [List.foldl_cons, ih]
      subst hall
      dsimp only
      split
      · split
        · split <;> rfl
        · rfl
      · rfl

theorem wf_putLocs {s : State} (cells : List (Loc × Byte)) (h : Memory.wf s.mem = true) :
    Memory.wf (putLocs s cells).mem = true := by
  unfold putLocs
  dsimp only
  have h0 : Memory.wf (if s.vd.bindings = [] then s else openBlocks s cells).mem = true := by
    split
    · exact h
    · rw [openBlocks_mem]; exact h
  have h1 := wf_foldl (fun s (c : Loc × Byte) => putLoc s c.1 c.2) (fun s c h => wf_putLoc c.1 c.2 h) cells h0
  generalize List.foldl (fun s c => putLoc s c.fst c.snd) _ cells = u at h1 ⊢
  split <;> exact h1

/-- Reset's memory is in canonical form. -/
theorem wf_reset : Memory.wf State.reset.mem = true := rfl

/-! ### Reading after writing -/

theorem rising_of_wf {s : State} (h : Memory.wf s.mem = true) : mrising s.mem = true := by
  simp only [Memory.wf, mwf, Bool.and_eq_true] at h; exact h.1

/-- A byte reads as it was written, and every other byte as before. -/
theorem mainByte_putMain {s : State} (h : Memory.wf s.mem = true) (pa : Nat) (b : Byte) (a : Nat) :
    mainByte (putMain s pa b) a = if a = pa then b else mainByte s a := by
  have hw := rising_of_wf (wf_clearSpan (pa / 32768) h)
  rw [← mainByte_clearSpan s (pa / 32768) a]
  show (if inRanges (clearSpan s (pa / 32768)).marked (a / 32768) = true then 0
    else mget Memory.unlisted (mset Memory.unlisted (clearSpan s (pa / 32768)).mem pa b) a) = _
  rw [mget_mset Memory.unlisted hw]
  unfold mainByte
  by_cases ha : a = pa
  · subst ha; rw [marked_clearSpan]; simp
  · simp only [ha, if_false]

end Sys2Proof.Machine
end

