-- ==== Sys2Proof/Laws/Calm.lean ====
section
/-!
SUPPORT. Laws/Calm.lean: the operations on memory, queues and the memory side leave everything that issue and completion read
of the group, its team and its core, so that a quiet group stays quiet.
-/
namespace Sys2Proof.Machine

/-- `t` differs from `s` in nothing that issue and completion read, but for the group's store queue. -/
structure Calm (s t : State) : Prop where
  g : { t.g with stores := [], sumpTop := 0 } = { s.g with stores := [], sumpTop := 0 }
  slot : t.slot = s.slot
  now : t.now = s.now
  cores : t.cores = s.cores
  ref : t.team.ref = s.team.ref
  steps : t.team.steps = s.team.steps

theorem Calm.rfl' (s : State) : Calm s s := ⟨rfl, rfl, rfl, rfl, rfl, rfl⟩

theorem Calm.trans {s t u : State} (a : Calm s t) (b : Calm t u) : Calm s u :=
  ⟨b.g.trans a.g, b.slot.trans a.slot, b.now.trans a.now, b.cores.trans a.cores, b.ref.trans a.ref, b.steps.trans a.steps⟩

/-- A state that has the group, the slot, the clock, the cores and the team's name and steps of another is calm beside it. -/
theorem Calm.of_eq {s t : State} (hg : t.g = s.g) (hs : t.slot = s.slot) (hn : t.now = s.now) (hc : t.cores = s.cores)
    (hr : t.team.ref = s.team.ref) (ht : t.team.steps = s.team.steps) : Calm s t := ⟨by rw [hg], hs, hn, hc, hr, ht⟩

theorem Calm.foldl {α : Type} (f : State → α → State) (hf : ∀ s x, Calm s (f s x)) (l : List α) (s : State) :
    Calm s (l.foldl f s) := by
  induction l generalizing s with
  | nil => exact Calm.rfl' s
  | cons x t ih => exact (hf s x).trans (ih _)

section fields
variable {s t : State} (h : Calm s t)
include h

theorem Calm.inflight : t.g.inflight = s.g.inflight := (congrArg Group.inflight h.g :)
theorem Calm.core : t.g.core = s.g.core := (congrArg Group.core h.g :)
theorem Calm.flags : t.g.flags = s.g.flags := (congrArg Group.flags h.g :)
theorem Calm.gref : t.g.ref = s.g.ref := (congrArg Group.ref h.g :)
theorem Calm.exited : t.g.exited = s.g.exited := (congrArg Group.exited h.g :)
theorem Calm.halted : t.g.halted = s.g.halted := (congrArg Group.halted h.g :)
theorem Calm.haltDue : t.g.haltDue = s.g.haltDue := (congrArg Group.haltDue h.g :)
theorem Calm.vregs : t.g.vregs = s.g.vregs := (congrArg Group.vregs h.g :)
theorem Calm.sregs : t.g.sregs = s.g.sregs := (congrArg Group.sregs h.g :)
theorem Calm.hregs : t.g.hregs = s.g.hregs := (congrArg Group.hregs h.g :)

theorem Calm.slotOf (i : SlotId) : t.g.slot i = s.g.slot i := by
  cases i
  · exact (congrArg Group.a h.g :)
  · exact (congrArg Group.b h.g :)

theorem Calm.cur : cur t = cur s := by unfold Machine.cur; rw [h.slot, h.slotOf]

theorem Calm.execMask : execMask t = execMask s := by unfold Machine.execMask; rw [h.cur]

theorem Calm.quiet (q : Quiet s) : Quiet t :=
  ⟨h.inflight.trans q.1, by unfold coreAt; rw [h.cores, h.core]; exact q.2⟩

theorem Calm.settled (q : Settled s) : Settled t := by
  obtain ⟨a, b, c, d, e, f⟩ := q
  exact ⟨by rw [h.gref, h.ref]; exact a, by rw [h.ref]; exact b, by unfold Group.active; rw [h.exited]; exact c,
    h.halted.trans d, h.haltDue.trans e, h.steps.trans f⟩

theorem Calm.idle (q : Idle s) : Idle t := ⟨h.quiet q.1, h.settled q.2.1, h.flags.trans q.2.2⟩

end fields

/-! ### Main memory and the places of bytes -/

theorem calm_clearSpan (s : State) (n : Nat) : Calm s (clearSpan s n) := by
  unfold clearSpan; split <;> exact .of_eq rfl rfl rfl rfl rfl rfl

theorem calm_putMain (s : State) (pa : Nat) (b : Byte) : Calm s (putMain s pa b) :=
  (calm_clearSpan s _).trans (.of_eq rfl rfl rfl rfl rfl rfl)

theorem calm_putMains (s : State) (cells : List (Nat × Byte)) : Calm s (putMains s cells) := by
  unfold putMains
  dsimp only
  have h := Calm.foldl (fun s (c : Nat × Byte) => putMain s c.1 c.2) (fun s c => calm_putMain s c.1 c.2) cells s
  split
  · exact h
  · exact h.trans (.of_eq rfl rfl rfl rfl rfl rfl)

theorem calm_putBytes (s : State) (pa : Nat) (bs : List Byte) : Calm s (putBytes s pa bs) := calm_putMains s _

theorem calm_putCached (s : State) (cells : List (Nat × Byte)) : Calm s (putCached s cells) :=
  (calm_putMains s cells).trans (.of_eq rfl rfl rfl rfl rfl rfl)

theorem calm_storeBytesAt (s : State) (pa : Nat) (bs : List Byte) : Calm s (storeBytesAt s pa bs) := calm_putCached s _

theorem calm_meter (s : State) (i n : Nat) : Calm s (meter s i n) := .of_eq rfl rfl rfl rfl rfl rfl

theorem calm_countDie (s : State) (die : Nat) (f : Die → Die) : Calm s (countDie s die f) := .of_eq rfl rfl rfl rfl rfl rfl

theorem calm_countMeta (s : State) (sl : Sluice) (pa : Nat) : Calm s (countMeta s sl pa) := by
  unfold countMeta
  dsimp only
  split <;> exact .of_eq rfl rfl rfl rfl rfl rfl

theorem calm_countFill (s : State) (sl : Sluice) (pa : Nat) (f : Fill) : Calm s (countFill s sl pa f) := by
  have h := ((calm_countMeta s sl pa).trans (calm_meter _ 3 (f.read + 256 * f.again.toNat))).trans (calm_meter _ 5 f.steps)
  unfold countFill
  dsimp only
  split
  · exact h.trans (calm_countDie _ _ _)
  · exact h

theorem calm_cacheBlock (s : State) (sl : Sluice) (pa va : Nat) : Calm s (cacheBlock s sl pa va).1 := by
  unfold cacheBlock
  dsimp only
  split
  · exact .rfl' s
  · exact (calm_countFill s sl _ _).trans (.of_eq rfl rfl rfl rfl rfl rfl)

theorem calm_onTeam_shared (s : State) (t : TRef) (f : Team → Team) (hr : ∀ x, (f x).ref = x.ref)
    (hs : ∀ x, (f x).steps = x.steps) : Calm s (onTeam s t f) := by
  unfold onTeam
  split
  · exact ⟨rfl, rfl, rfl, rfl, hr _, hs _⟩
  · exact .of_eq rfl rfl rfl rfl rfl rfl

theorem calm_cross (s : State) (n : Nat) : Calm s (cross s n) := by
  unfold cross; split <;> exact .of_eq rfl rfl rfl rfl rfl rfl

theorem calm_takeLine (s : State) (die : Nat) (l : Loc) : Calm s (takeLine s die l).1 := by
  unfold takeLine
  split
  · exact .rfl' s
  · exact calm_cross s 256

theorem calm_putLoc (s : State) (l : Loc) (b : Byte) : Calm s (putLoc s l b) := by
  unfold putLoc
  dsimp only
  split
  · split
    · exact (calm_cacheBlock s _ _ _).trans (.of_eq rfl rfl rfl rfl rfl rfl)
    · exact (calm_putMain s l.addr b).trans (.of_eq rfl rfl rfl rfl rfl rfl)
  · exact calm_onTeam_shared s _ _ (fun _ => rfl) (fun _ => rfl)
  · exact .of_eq rfl rfl rfl rfl rfl rfl
  · exact (calm_takeLine s _ _).trans (.of_eq rfl rfl rfl rfl rfl rfl)

theorem calm_openBlocks (s : State) (cells : List (Loc × Byte)) : Calm s (openBlocks s cells) := by
  unfold openBlocks
  apply Calm.foldl
  intro s c
  dsimp only
  repeat' split
  all_goals first | exact .rfl' s | exact .of_eq rfl rfl rfl rfl rfl rfl

theorem calm_putLocs (s : State) (cells : List (Loc × Byte)) : Calm s (putLocs s cells) := by
  unfold putLocs
  have h1 : Calm s (if s.vd.bindings = [] then s else openBlocks s cells) := by
    split
    · exact .rfl' s
    · exact calm_openBlocks s cells
  generalize (if s.vd.bindings = [] then s else openBlocks s cells) = u at h1
  have h2 := Calm.foldl (fun s (c : Loc × Byte) => putLoc s c.1 c.2) (fun s c => calm_putLoc s c.1 c.2) cells u
  dsimp only
  generalize cells.foldl (fun s (c : Loc × Byte) => putLoc s c.1 c.2) u = v at h2
  split
  · exact (h1.trans h2).trans (.of_eq rfl rfl rfl rfl rfl rfl)
  · exact h1.trans h2

theorem calm_send (s : State) (tag : Word) (cmd : Byte) (vd : Nat) (p : List Byte) : Calm s (send s tag cmd vd p) :=
  .of_eq rfl rfl rfl rfl rfl rfl

theorem calm_sendFor (s : State) (tag : Word) (cmd : Byte) (p : List Byte) : Calm s (sendFor s tag cmd p) :=
  .of_eq rfl rfl rfl rfl rfl rfl

theorem Calm.withVd {s t : State} (h : Calm s t) (d : Device) : Calm s { t with vd := d } :=
  h.trans (.of_eq rfl rfl rfl rfl rfl rfl)

theorem calm_checkOut (s : State) : Calm s (checkOut s) := by
  unfold checkOut
  split
  · dsimp only
    generalize mainNat s (ctxPart s.vd mailPart + 8) 8 = o
    generalize (o + 2 ^ 64 - s.vd.out) % 2 ^ 64 = n
    split
    · exact .rfl' s
    · apply Calm.withVd
      split
      · apply Calm.foldl
        intro t j
        split
        · exact .rfl' t
        · exact calm_sendFor t _ _ _
      · exact .rfl' s
  · exact .rfl' s

theorem calm_putAll (s : State) (cells : List (Loc × Byte)) : Calm s (putAll s cells) :=
  (calm_putLocs s cells).trans (calm_checkOut _)

theorem calm_putVisible (s : State) (cells : List (Loc × Byte)) : Calm s (putVisible s cells) := calm_putAll s _

/-! ### The store queue and the memory side -/

theorem calm_drainStores (s : State) : Calm s (drainStores s) :=
  Calm.trans (t := { s with g := { s.g with stores := [] } }) ⟨rfl, rfl, rfl, rfl, rfl, rfl⟩
    (Calm.foldl (fun s (q : QStore) => putVisible s q.cells) (fun s q => calm_putVisible s q.cells) _ _)

theorem calm_pushStore (s : State) (spc : Space) (cells : List (Loc × Byte)) : Calm s (pushStore s spc cells) := by
  unfold pushStore
  repeat' split
  · exact .rfl' s
  · exact calm_putLocs s cells
  · exact ⟨rfl, rfl, rfl, rfl, rfl, rfl⟩

theorem calm_writePeer (s : State) (k : Nat) (b : Block) : Calm s (writePeer s k b) := by
  unfold writePeer
  split
  · refine Calm.trans ?_ (calm_cross _ _)
    exact .of_eq rfl rfl rfl rfl rfl rfl
  · exact .rfl' s

theorem calm_cleanPeer (s : State) (die : Option Nat) (lo hi : Nat) (drop : Bool) :
    Calm s (cleanPeer s die lo hi drop) := by
  unfold cleanPeer
  dsimp only
  have h := Calm.foldl (fun s (e : Nat × Block) => writePeer s e.1 e.2) (fun s e => calm_writePeer s e.1 e.2)
    (s.peerLines.filter fun (e : Nat × Block) =>
      die.all (· == e.1 / 2 ^ 48) && decide (lo / 256 ≤ e.1 % 2 ^ 48) && decide (256 * (e.1 % 2 ^ 48) < hi)) s
  split
  · exact h.trans (.of_eq rfl rfl rfl rfl rfl rfl)
  · exact h

theorem calm_acquireAt (s : State) (sc : Scope) : Calm s (acquireAt s sc) := by
  unfold acquireAt; split
  · exact calm_cleanPeer s _ _ _ _
  · exact .rfl' s

theorem calm_releaseAt (s : State) (sc : Scope) : Calm s (releaseAt s sc) := by
  unfold releaseAt; dsimp only; split
  · exact (calm_drainStores s).trans (calm_cleanPeer _ _ _ _ _)
  · exact calm_drainStores s

theorem calm_acquireOf (s : State) (o : Ordf) : Calm s (acquireOf s o) := by
  cases o <;> first | exact .rfl' s | exact calm_acquireAt s _

theorem calm_releaseOf (s : State) (o : Ordf) : Calm s (releaseOf s o) := by
  cases o <;> first | exact .rfl' s | exact calm_releaseAt s _

theorem calm_atomOrder (s : State) (k : AKind) (o : Ordf) : Calm s (atomOrder s k o) := by
  have h := calm_drainStores s
  cases o with
  | qual sc => cases k <;> first
      | exact h.trans (calm_acquireAt _ sc)
      | exact h.trans (calm_releaseAt _ sc)
      | exact (h.trans (calm_releaseAt _ sc)).trans (calm_acquireAt _ sc)
  | _ => cases k <;> exact h

theorem calm_countRead (s : State) (seen : List Nat) (l : Loc) (n : Nat) : Calm s (countRead s seen l n).1 := by
  unfold countRead
  dsimp only
  repeat' split
  all_goals first | exact .rfl' s | exact calm_countFill s _ _ _ | exact calm_cacheBlock s _ _ _ | exact calm_meter s _ _ | exact calm_cross s _

theorem calm_countReads (s : State) (ls : List (Loc × Nat)) : Calm s (countReads s ls) := by
  have h : ∀ (ls : List (Loc × Nat)) (r : State × List Nat),
      Calm r.1 (ls.foldl (fun (r : State × List Nat) e => countRead r.1 r.2 e.1 e.2) r).1 := by
    intro ls
    induction ls with
    | nil => intro r; exact .rfl' _
    | cons e t ih => intro r; exact (calm_countRead r.1 r.2 e.1 e.2).trans (ih _)
  exact h ls (s, [])

theorem calm_putSump (s : State) (off : Nat) (bs : List Byte) : Calm s (putSump s off bs) := calm_putCached s _

theorem calm_sumpTop (s : State) (n : Nat) : Calm s { s with g := { s.g with sumpTop := n } } := ⟨rfl, rfl, rfl, rfl, rfl, rfl⟩

theorem calm_pushEntry (s : State) (e : SumpEntry) : Calm s (pushEntry s e) :=
  (calm_putSump s _ _).trans (calm_sumpTop _ _)

theorem calm_fillLine (s : State) (va : Nat) : Calm s (fillLine s va) := by
  unfold fillLine
  split
  · split
    · exact .rfl' s
    · split
      · dsimp only
        split
        · exact .rfl' s
        · refine Calm.trans ?_ (calm_cross _ _)
          exact .of_eq rfl rfl rfl rfl rfl rfl
      · split
        · apply Calm.foldl
          intro s k
          exact calm_cacheBlock s _ _ _
        · split
          · exact .rfl' s
          · exact .of_eq rfl rfl rfl rfl rfl rfl
  · exact .rfl' s

theorem calm_writeRing (s : State) (part off size slots i : Nat) (bs : List Byte) : Calm s (writeRing s part off size slots i bs) :=
  (calm_storeBytesAt s _ _).trans (calm_storeBytesAt _ _ _)

theorem calm_writeStamp (s : State) (bs : List Byte) : Calm s (writeStamp s bs) := by
  unfold writeStamp
  dsimp only
  exact ((Calm.rfl' s).withVd _).trans (calm_writeRing _ _ _ _ _ _ bs)

/-! ### Errors of storage (R391) -/

theorem calm_addPoison (s : State) (pa : Nat) : Calm s (addPoison s pa) :=
  (calm_clearSpan s _).trans (.of_eq rfl rfl rfl rfl rfl rfl)

theorem calm_strikeSector (s : State) (pa va k : Nat) (f : Bool) : Calm s (strikeSector s pa va k f) := by
  unfold strikeSector
  dsimp only
  split
  · split
    · exact .of_eq rfl rfl rfl rfl rfl rfl
    · exact Calm.rfl' s
  · split
    · split
      · exact .of_eq rfl rfl rfl rfl rfl rfl
      · exact calm_addPoison s _
    · refine Calm.trans ?_ (calm_addPoison _ _)
      exact .of_eq rfl rfl rfl rfl rfl rfl

theorem calm_strikeLine (s : State) (pa va : Nat) (f : Bool) (e : StoreErrs) : Calm s (strikeLine s pa va f e) := by
  unfold strikeLine
  dsimp only
  exact Calm.trans (Calm.foldl _ (fun s k => calm_strikeSector s pa va k f) _ s) (calm_countDie _ _ _)

/-- Errors that leave no sector uncorrectable change the counters of a die and nothing else. -/
theorem strikeLine_mended {e : StoreErrs} {f : Bool} (h : lostSectors e f = []) (s : State) (pa va : Nat) :
    ∃ d, strikeLine s pa va f e = { s with dies := d } := by
  unfold strikeLine
  rw [h]
  exact ⟨_, rfl⟩

/-! ### Issue in a calm state -/

/-- An effect that only changes state, of a short instruction that is not counted per lane. -/
theorem short_done {i : Instr} {s st : State} (h : Quiet st) (hl : isLong i = false) (hp : perLane i = false) :
    issue i (.ok (.of st)) s = .next (advance i st st.g) := by
  have e := finishShort_quiet i (.of st) h rfl (fpTrap_none _)
  rw [issue_short _ _ _ hl, e, hp]
  show Host.Outcome.next (countLanes (advance i st (addFps st.g (0 ||| 0))) 0) = _
  rw [show (0 : FpFlags) ||| 0 = 0 from rfl, addFps_zero]
  rfl

/-- An effect of a long-latency instruction with register writes and nothing that traps. -/
theorem long_done {i : Instr} {s st : State} (ws : List RegWrite) (evs : List Watch) (hx : exec i s
      = issue i (.ok { Effect.write st ws with events := evs }) s) (hq : Idle s) (hc : Calm s st) (hl : isLong i = true) :
    Lands i s st (applyWrites st.g ws) := by
  have h := lands i s { Effect.write st ws with events := evs } (hx.trans (issue_long _ _ _ hl)) (hc.idle hq) hc.execMask
    (fpTrap_none _) rfl rfl
  have e : addSts (addFps (applyWrites st.g ws) 0) 0 = applyWrites st.g ws := by rw [addFps_zero, addSts_zero]
  rw [← e]
  exact h

end Sys2Proof.Machine
end

