-- ==== Sys2Proof/Laws/Trap.lean ====
section
/-!
SUPPORT. Laws/Trap.lean: code and tables are read from memory alone, and what raising a cause, entering a handler and
returning from one do.
-/
namespace Sys2Proof.Machine

/-! ### What a walk and a fetch read -/

/-- Two states in which memory, the tables, poison, the clearing marks and what is held of peer modules are the same. -/
structure SameStore (s t : State) : Prop where
  mem : t.mem = s.mem
  ptes : t.ptes = s.ptes
  poison : t.poison = s.poison
  marked : t.marked = s.marked
  lines : t.peerLines = s.peerLines
  peer : t.peer = s.peer
  peerPoison : t.peerPoison = s.peerPoison

section
variable {s t : State} (h : SameStore s t)
include h

theorem SameStore.mainByte (pa : Nat) : mainByte t pa = mainByte s pa := by
  unfold Machine.mainByte; rw [h.marked, h.mem]

theorem SameStore.mainNat (pa n : Nat) : mainNat t pa n = mainNat s pa n := by
  unfold Machine.mainNat; simp only [h.mainByte]

theorem SameStore.mainPoison (pa : Nat) : mainPoison t pa = mainPoison s pa := by
  unfold Machine.mainPoison; rw [h.poison, h.marked]

theorem SameStore.tableWord (pa : Nat) : tableWord t pa = tableWord s pa := by
  unfold Machine.tableWord; rw [h.ptes, h.mainNat]

theorem SameStore.walkFrom (va : Nat) (ls : List (Nat × Nat × Nat)) (tbl : Nat) : walkFrom t va ls tbl = walkFrom s va ls tbl := by
  induction ls generalizing tbl with
  | nil => rfl
  | cons l rest ih =>
    obtain ⟨lvl, sh, bits⟩ := l
    unfold Machine.walkFrom
    simp only [h.mainPoison, h.tableWord, ih]

theorem SameStore.walk (d : Device) (va : Nat) : walk t d va = walk s d va := h.walkFrom va _ _

/-- The bytes of a page with F = 1, and whether they are poisoned, as the die of the same core reaches them. -/
theorem SameStore.peerBytes (hc : t.g.core = s.g.core) (pa va n : Nat) :
    (locRun (pagePlace t pa true va) n).map (locByte t) = (locRun (pagePlace s pa true va) n).map (locByte s) := by
  unfold locRun pagePlace
  simp only [List.map_map, hc, if_true]
  refine List.map_congr_left fun i _ => ?_
  show locByte t { home := .peer (s.g.core / 128), addr := pa + i, va := va + i }
    = locByte s { home := .peer (s.g.core / 128), addr := pa + i, va := va + i }
  unfold locByte
  dsimp only
  rw [h.lines, h.peer, h.peerPoison]

theorem SameStore.fetchWord (hd : t.vd = s.vd) (hc : t.g.core = s.g.core) (a : Addr) : fetchWord t a = fetchWord s a := by
  unfold Machine.fetchWord; simp only [h.walk, hd, h.mainNat, h.mainPoison, h.peerBytes hc]

theorem SameStore.handlerOk (hd : t.vd = s.vd) (hc : t.g.core = s.g.core) (hv : t.g.trapvec = s.g.trapvec) :
    handlerOk t = handlerOk s := by
  unfold Machine.handlerOk handlerPc; rw [h.fetchWord hd hc, hv]

theorem SameStore.serviceOf (hd : t.vd = s.vd) (hc : t.g.core = s.g.core) (hv : t.g.trapvec = s.g.trapvec)
    (hp : t.g.priv = s.g.priv) (c : Cause) : serviceOf t c = serviceOf s c := by
  unfold Machine.serviceOf inHandler; rw [h.handlerOk hd hc hv, hv, hp]

theorem SameStore.tornHandler (hd : t.vd = s.vd) (hv : t.g.trapvec = s.g.trapvec) : tornHandler t = tornHandler s := by
  unfold Machine.tornHandler handlerPc; rw [h.walk, hd, hv]

end

/-- A change of the group alone leaves the store. -/
theorem sameStore_g (s : State) (g : Group) : SameStore s { s with g := g } := ⟨rfl, rfl, rfl, rfl, rfl, rfl, rfl⟩

/-! ### Abandoning a sift (R43) -/

/-- Nothing outside the groups changes. -/
theorem abandonSift_rest (s : State) : ∃ g gs, abandonSift s = { s with g := g, groups := gs } := ⟨_, _, rfl⟩

/-- Of the group in focus only what its slots wait for may change. -/
theorem abandonSift_g (s : State) : ∃ w w', (abandonSift s).g = { s.g with a := { s.g.a with wait := w }, b := { s.g.b with wait := w' } } := by
  unfold abandonSift onGroups
  dsimp only
  split
  · refine ⟨if s.g.a.wait = .sift ∨ s.g.a.wait = .branchSift then .running else s.g.a.wait,
      if s.g.b.wait = .sift ∨ s.g.b.wait = .branchSift then .running else s.g.b.wait, ?_⟩
    congr 1 <;> split <;> rfl
  · exact ⟨s.g.a.wait, s.g.b.wait, rfl⟩

theorem serviceOf_abandon (s : State) (e : Option Cause) (c : Cause) :
    serviceOf (abandonSift { s with g := { s.g with entry := e } }) c = serviceOf s c := by
  obtain ⟨w, w', hg⟩ := abandonSift_g { s with g := { s.g with entry := e } }
  exact SameStore.serviceOf (s := s) (t := abandonSift { s with g := { s.g with entry := e } }) ⟨rfl, rfl, rfl, rfl, rfl, rfl, rfl⟩ rfl
    (congrArg Group.core hg :) (congrArg Group.trapvec hg :) (congrArg Group.priv hg :) c

theorem tornHandler_abandon (s : State) (e : Option Cause) :
    tornHandler (abandonSift { s with g := { s.g with entry := e } }) = tornHandler s := by
  obtain ⟨w, w', hg⟩ := abandonSift_g { s with g := { s.g with entry := e } }
  exact SameStore.tornHandler (s := s) (t := abandonSift { s with g := { s.g with entry := e } })
    ⟨rfl, rfl, rfl, rfl, rfl, rfl, rfl⟩ rfl (congrArg Group.trapvec hg :)

/-! ### Raising a cause (R366, R367) -/

/-- A drained group in which no handler runs enters at once a cause that the user handler takes. -/
theorem raise_user (s : State) (c : Cause) (hi : drained s c = true) (he : s.g.entry = none) (hh : inHandler s.g = false)
    (h : serviceOf s c = 0) : raise s c = enterUser (abandonSift { s with g := { s.g with entry := none } }) c := by
  unfold raise stopFor enter
  rw [he, hh]
  dsimp only [Option.any_none, Bool.false_and, Bool.or_self]
  rw [if_neg (by simp), if_neg (by simp), if_pos hi, serviceOf_abandon, if_pos h]

/-- A drained group in which no handler runs hands another cause to firmware at once, unless the handler's fetch has met a
poisoned page-table entry (R403). -/
theorem raise_supervisor (s : State) (c : Cause) (hi : drained s c = true) (he : s.g.entry = none) (hh : inHandler s.g = false)
    (h : serviceOf s c ≠ 0) (ht : serviceOf s c = 4 → tornHandler s = none) :
    raise s c = enterSupervisor (abandonSift { s with g := { s.g with entry := none } }) c (serviceOf s c) := by
  unfold raise stopFor enter
  rw [he, hh]
  dsimp only [Option.any_none, Bool.false_and, Bool.or_self]
  rw [if_neg (by simp), if_neg (by simp), if_pos hi, serviceOf_abandon, if_neg h, tornHandler_abandon]
  by_cases h4 : serviceOf s c = 4
  · simp [h4, ht h4]
  · simp [h4]

/-- Where it has, firmware rewrites the entry and the cause waits to be entered again (R403). -/
theorem raise_torn (s : State) (c : Cause) (pa : Nat) (hi : drained s c = true) (he : s.g.entry = none)
    (hh : inHandler s.g = false) (h : serviceOf s c = 4) (ht : tornHandler s = some pa) :
    let u := abandonSift { s with g := { s.g with entry := none } }
    raise s c = repairTable { u with g := { u.g with entry := some c } } pa := by
  unfold raise stopFor enter
  rw [he, hh]
  dsimp only [Option.any_none, Bool.false_and, Bool.or_self]
  rw [if_neg (by simp), if_neg (by simp), if_pos hi, serviceOf_abandon, if_neg (by simp [h]), tornHandler_abandon, h, ht]
  rfl

/-- In a group that has not drained the cause waits. -/
theorem raise_waits (s : State) (c : Cause) (hi : drained s c = false) (he : s.g.entry = none) (hh : inHandler s.g = false) :
    raise s c = { s with g := { s.g with entry := some c } } := by
  unfold raise stopFor
  rw [he, hh]
  dsimp only [Option.any_none, Bool.false_and, Bool.or_self]
  rw [if_neg (by simp), if_neg (by simp), if_neg (by simp [hi])]

/-- A group with nothing in flight has drained, unless the user handler takes the cause while a pass locks v511 (R171). -/
theorem drained_quiet {s : State} {c : Cause} (hi : s.g.inflight = []) (hl : detailLocked s c = false) : drained s c = true := by
  simp [drained, hi, hl]

theorem drained_busy {s : State} {c : Cause} (hi : s.g.inflight ≠ []) : drained s c = false := by simp [drained, hi]

end Sys2Proof.Machine
end

