-- ==== Sys2Proof/Tests/Slice0.lean ====
section
/-!
SUPPORT. Tests/Slice0.lean: this sitting's own tests: states in which the hypotheses of every statement hold, words written out
from the encodings of spec/, terms that are not well formed, and single steps whose results are worked out by hand.
-/
namespace Sys2Proof.Tests
open Sys2Proof Sys2Proof.Machine

set_option Elab.async false

/-! ### States -/

/-- One group of one team of one device, its slot A at the first instruction of a clause. -/
def one : State := State.reset.withFetchWord 64 0

/-- The same with another group. -/
def onG (f : Group → Group) : State := { one with g := f one.g }

/-- A few registers hold something: scalars 4 to 8, a uniform, a general and an affine vector register. -/
def base : State :=
  onG fun g => { g with
    sregs := [(4, 7), (5, 1), (6, 0x3f800000), (7, 0x40000000), (8, 16)]
    vregs := [(1, { tag := .uniform 9, lanes := List.replicate 32 9 }),
      (2, { tag := .general, lanes := (List.range 32).map fun l => w32 (31 - l) }),
      (3, { tag := .affine 100 4, lanes := (List.range 32).map fun l => w32 (100 + 4 * l) })] }

/-- The same with lanes 0 to 3 active. -/
def four : State := withMask base 0xf

/-- The same without an active lane. -/
def none' : State := withMask base 0

/-- Outcomes that are values or causes, shown by evaluation. -/
theorem ok_of {ε α : Type} {e : Except ε α} {x : α} (h : e.toOption = some x) : e = .ok x := by
  cases e with
  | ok y => simpa [Except.toOption] using h
  | error r => simp [Except.toOption] at h

theorem ex_ok {ε α : Type} {e : Except ε α} {p : α → Prop} [DecidablePred p] (h : (e.toOption.any fun x => decide (p x)) = true) :
    ∃ x, e = .ok x ∧ p x := by
  cases e with
  | ok y => exact ⟨y, rfl, by simpa [Except.toOption] using h⟩
  | error r => simp [Except.toOption] at h

theorem ex_error {ε α : Type} {e : Except ε α} (h : e.toOption.isNone = true) : ∃ r, e = .error r := by
  cases e with
  | ok y => simp [Except.toOption] at h
  | error r => exact ⟨r, rfl⟩

theorem ex_some {α : Type} {o : Option α} {p : α → Prop} [DecidablePred p] (h : (o.any fun x => decide (p x)) = true) :
    ∃ x, o = some x ∧ p x := by
  cases o with
  | some y => exact ⟨y, rfl, by simpa using h⟩
  | none => simp at h

theorem some_ok {ε α : Type} {o : Option (Except ε α)} {x : α} (h : (o.bind Except.toOption) = some x) : o = some (.ok x) := by
  cases o with
  | some e => exact congrArg some (ok_of h)
  | none => simp at h

theorem some_error {ε α : Type} {o : Option (Except ε α)} (h : (o.map fun e => e.toOption.isNone) = some true) :
    ∃ r, o = some (.error r) := by
  cases o with
  | some e => exact (ex_error (by simpa using h)).imp fun _ => congrArg some
  | none => simp at h

/-! ### The hypotheses of the statements about registers -/

theorem witness_ScalarIntegers :
    Quiet base ∧ uniW base 1 true (.s 4) = .ok 0x100000007 ∧ uniW base 2 false (.s 4) = .ok 7 ∧ uniW base 2 true .zero = .ok 0
      ∧ uniW base 3 false (.v 1) = .ok 9 ∧ uni base 2 (.s 8) = .ok 16 := by
  refine ⟨by decide +kernel, rfl, rfl, rfl, rfl, rfl⟩

/-- Every flag enabled in FPC.TE, and an addition that is inexact. -/
def trapping : State := onG fun g => { g with fpc := 0x1f, sregs := [(4, 0x3f800000), (5, 1)] }

theorem witness_ScalarFloatingPoint :
    Quiet base ∧ uniW base 1 false (.s 6) = .ok 0x3f800000 ∧ uni base 2 (.s 7) = .ok 0x40000000 ∧ uni base 3 .zero = .ok 0
      ∧ (wide (fp2 (ftz base.g) .f32 (fun F => F.fadd (modeOf base.g .rn)) 0x3f800000 0x40000000)).2 &&& trapEnables base.g = 0
      ∧ (cmpElems (ftz base.g) .f32 .lt 0x3f800000 0x40000000).2.2 &&& trapEnables base.g = 0
      ∧ Quiet trapping ∧ uni trapping 1 (.s 4) = .ok 0x3f800000 ∧ uni trapping 2 (.s 5) = .ok 1
      ∧ (fp2 (ftz trapping.g) .f32 (fun F => F.fadd (modeOf trapping.g .rn)) 0x3f800000 1).2 &&& trapEnables trapping.g ≠ 0 := by
  refine ⟨by decide +kernel, rfl, rfl, rfl, by decide +kernel, by decide +kernel, by decide +kernel, rfl, rfl, by decide +kernel⟩

/-- Each operand that gives no one value: tags 0 and 2, either half of a pair, `%lane` and `%tid`; and operands that give one. -/
theorem witness_OperandFaults :
    Shapeless base false (.v 2) ∧ Shapeless base false (.v 3) ∧ Shapeless base true (.v 1) ∧ Shapeless base true .lane ∧ Shapeless base false .tid
      ∧ ¬ Shapeless base false (.v 1) ∧ ¬ Shapeless base true (.v 0) ∧ ¬ Shapeless base true (.s 4) ∧ ¬ Shapeless base false .zero
      ∧ execMask base ≠ 0 ∧ Opnd.s 4 ≠ .none ∧ uni base 3 (.s 4) = .ok 7 ∧ execMask base &&& ~~~(7 : Word) ≠ 0 := by
  refine ⟨.inl (by decide +kernel), .inr (.inl (by decide +kernel)), .inr (.inr ⟨rfl, .inl (by decide +kernel)⟩), trivial, trivial, ?_, ?_,
    id, id, by decide +kernel, by decide, rfl, by decide +kernel⟩ <;> (unfold Shapeless; decide +kernel)

theorem witness_VectorTwoSources :
    Quiet base ∧ Quiet four ∧ execMask four ≠ four.g.present ∧ execMask base = base.g.present := by decide +kernel

theorem witness_VectorShiftsAndOthers : Quiet base ∧ Ty.b32 ∈ [Ty.b32, .s32, .n32] ∧ Ty.n64 ∈ [Ty.s64, .n64] := by decide +kernel

theorem witness_BitResults : 0 < 32 ∧ 31 < 32 ∧ 0 < 4 ∧ 3 < 4 := by decide

theorem witness_CompareAndSelect :
    Quiet base ∧ fpTrap (trapEnables base.g) (activeFlags base fun l =>
      (0, (cmpElems (ftz base.g) .f32 .lt (srcTy base .f32 (.v 2) l) (srcTy base .f32 (.v 1) l)).2.2)) 0 = none := by
  decide +kernel

/-- `movx` by a name in a scalar register: the last vector register and one past the file's names, a pair, scalars in a role
with 16 vector and 8 scalar registers. -/
def naming (name : Word) : State :=
  onG fun g => { g with role := 1, sregs := [(4, name), (6, 5), (7, 6)] }

theorem witness_MovesAndPlanes :
    Quiet base ∧ uni base 1 (.s 4) = .ok 7 ∧ uni base 2 (.s 5) = .ok 1 ∧ laneOn (execMask base) 1 = true
      ∧ uni four 2 (.s 4) = .ok 7 ∧ laneOn (execMask four) 7 = false
      ∧ (∀ name : Word, Quiet (naming name) ∧ execMask (naming name) ≠ 0 ∧ uni (naming name) 1 (.s 4) = .ok name)
      ∧ (roleOf (naming 0)).vregs = 16 ∧ (roleOf (naming 0)).sregs = 8
      ∧ (15 : Word).toNat % 2048 = 15 ∧ (1024 + 14 : Word).toNat % 2048 = 1024 + 14 ∧ (0x207 : Word).toNat % 2048 = 0x200 + 7
      ∧ (1024 + 0x206 : Word).toNat % 2048 = 1024 + 0x200 + 6 ∧ uni (naming 0x207) 2 (.s 6) = .ok 5
      ∧ uniPair (naming 0x606) 2 (.s 6) = .ok 0x600000005
      ∧ (16 : Word).toNat % 1024 = 16 ∧ (0x208 : Word).toNat % 1024 = 0x200 + 8 ∧ 0x2c0 ≤ (0x2c0 : Word).toNat % 1024 := by
  refine ⟨by decide +kernel, rfl, rfl, by decide +kernel, rfl, by decide +kernel,
    fun name => ⟨⟨rfl, rfl⟩, by show (0xffffffff : Word) ≠ 0; decide, rfl⟩, by decide +kernel, by decide +kernel, rfl, rfl, rfl, rfl, rfl, rfl, rfl, rfl, by decide⟩

/-- A name that the sources do not fit: an odd register for a pair, an upper half beyond the budget, a source of another shape. -/
theorem witness_MovesAndPlanes_names :
    ((1024 + 13 : Word).toNat % 2048 = 1024 + 13 ∧ 13 % 2 = 1 ∧ (1024 + 16 : Word).toNat % 2048 = 1024 + 16 ∧ 16 ≤ 16 + 1)
      ∧ ((1024 + 0x205 : Word).toNat % 2048 = 1024 + 0x200 + 5 ∧ (1024 + 0x208 : Word).toNat % 2048 = 1024 + 0x200 + 8 ∧ 8 ≤ 8 + 1)
      ∧ (∀ m : Nat, Opnd.lane ≠ .v m ∧ Opnd.lane ≠ .s m) ∧ (3 % 2 = 1 ∧ 4 % 2 = 0)
      ∧ (∀ pr : Bool, (1024 * pr.toNat + 0x200 + 6 : Nat) % 2048 = 1024 * pr.toNat + 0x200 + 6 ∧ 6 + pr.toNat < 8
        ∧ Shapeless (naming 0) pr .lane)
      ∧ (execMask base ≠ 0 ∧ Shapeless base false (.v 2)) ∧ (execMask none' = 0 ∧ Quiet none') := by
  refine ⟨by decide, by decide, fun m => ⟨nofun, nofun⟩, by decide, fun pr => ⟨by cases pr <;> rfl, by cases pr <;> decide, trivial⟩,
    ⟨by decide +kernel, .inl (by decide +kernel)⟩, by decide +kernel⟩

/-- Without an enabled flag no flag traps. -/
theorem fpTrap_off (te : FpFlags) (h : te = 0) (fp : List FpFlags) : fpTrap te fp 0 = none := by
  have e : ∀ x : FpFlags, x &&& (0 : FpFlags) = 0 := by decide
  have z : enabledLanes 0 fp = 0 := by
    unfold enabledLanes
    rw [show (fun l => (fp.getD l 0 &&& 0 != 0)) = fun _ : Nat => false from funext fun l => by simp]
    decide
  unfold fpTrap
  dsimp only
  rw [h, z]
  rfl

theorem witness_VectorFloatingPoint : Quiet base ∧ ∀ fp, fpTrap (trapEnables base.g) fp 0 = none :=
  ⟨by decide +kernel, fpTrap_off _ (by decide +kernel)⟩

theorem witness_SpecialFunctions : Idle base ∧ ∀ fp, fpTrap (trapEnables base.g) fp 0 = none :=
  ⟨by decide +kernel, fpTrap_off _ (by decide +kernel)⟩

/-- Lanes 0 to 3 are active and lane 4 has exited; s4 names all five. -/
def member : State :=
  onG fun g => { g with
    a := { g.a with mask := 0xf }, exited := 0x10, sregs := [(4, 0x1f)], vregs := [(2, { tag := .general, lanes := (List.range 32).map w32 })] }

theorem witness_CrossLaneMoves :
    Idle base ∧ Idle member ∧ execMask base ≠ 0 ∧ execMask member ≠ 0 ∧ Covers base .none none ∧ Covers member (.s 4) (some 0x1f)
      ∧ memberSts member (some 0x1f) = stsX ∧ uni member 2 (.s 4) = .ok 0x1f ∧ Idle none' ∧ execMask none' = 0 := by
  refine ⟨by decide +kernel, by decide +kernel, by decide +kernel, by decide +kernel, rfl, ⟨nofun, rfl, by decide +kernel⟩,
    by decide +kernel, rfl, by decide +kernel, by decide +kernel⟩

theorem witness_ReductionsAndScans :
    Idle member ∧ execMask member ≠ 0 ∧ (∀ fp, fpTrap (trapEnables member.g) fp 0 = none) ∧ Covers member .none none
      ∧ Covers member (.s 4) (some 0x1f) ∧ Idle none' ∧ execMask none' = 0 :=
  ⟨by decide +kernel, by decide +kernel, fpTrap_off _ (by decide +kernel), rfl, ⟨nofun, rfl, by decide +kernel⟩, by decide +kernel,
    by decide +kernel⟩

theorem witness_ReductionIsFold : ((List.range 32).map w32).length = 32 := by decide

/-! ### The hypotheses of the statements about masks, branches, barriers and queues -/

/-- The sump's first entry lies in a poisoned sector. -/
def sour (s : State) : State := { s with poison := [s.g.sumpPa / 32] }

/-- A path entry of a slot on top of the sump, for a reason. -/
def entryOf (s : State) (why : Nat) (own : SlotId) : State := pushEntry s { low := codeBase + 8, mask := 0xff, why := why, own := own }

theorem witness_MasksOfLanes :
    (stackOffs base).find? (sumpPoison base) = none ∧ (stackOffs (sour (entryOf base 1 .A))).find? (sumpPoison (sour (entryOf base 1 .A))) = some 0
      ∧ Quiet (sour (entryOf base 1 .A)) ∧ (uni (sour (entryOf base 1 .A)) 1 (.s 4)).toOption = some 7
      ∧ Quiet base ∧ uni base 1 (.s 4) = .ok 7 ∧ uni base 2 (.s 5) = .ok 1 ∧ uni base 1 .zero = .ok 0
      ∧ (7 : Word) &&& ~~~base.g.exited &&& ~~~(claimed base) ≠ 0 ∧ execMask base &&& 0 = 0 ∧ execMask base &&& ~~~(7 : Word) ≠ 0
      ∧ uni base 1 (.s 8) = .ok 16 ∧ (16 : Word).getLsbD 4 = true ∧ (∀ j < 4, (16 : Word).getLsbD j = false) := by
  refine ⟨by decide +kernel, by decide +kernel, by decide +kernel, by decide +kernel, by decide +kernel, rfl, rfl, rfl, by decide +kernel,
    by decide +kernel, by decide +kernel, rfl, by decide, by decide⟩

theorem witness_BranchesAndExits :
    uni four 4 .zero = .ok 0 ∧ uni four 4 (.s 4) = .ok 7 ∧ uni four 4 (.s 8) = .ok 16 ∧ (16 : Word) &&& execMask four = 0
      ∧ (7 : Word) &&& execMask four ≠ 0 ∧ Quiet four ∧ uniPair four 4 (.s 4) = .ok 0x100000007
      ∧ base.g.sumpTop = 0 ∧ (base.g.slot base.slot.partner).mask = 0 ∧ base.g.parked = 0 ∧ inHandler base.g = false
      ∧ base.g.exited ||| (cur base).mask = 0xffffffff
      ∧ four.g.sumpTop = 0 ∧ (four.g.slot four.slot.partner).mask = 0 ∧ four.g.parked = 0 ∧ inHandler four.g = false
      ∧ four.g.exited ||| (cur four).mask ≠ 0xffffffff := by
  refine ⟨rfl, rfl, rfl, by decide +kernel, by decide +kernel, by decide +kernel, rfl, ?_⟩
  decide +kernel

/-- Both slots live: lanes 0 to 15 in A, the others in B at the same place. -/
def both : State := onG fun g => { g with a := { g.a with mask := 0xffff }, b := { g.a with mask := 0xffff0000 }, sregs := [(4, 7)] }

/-- A slot that exits beside a live partner, with the partner's entry or none on top; and with an entry of its own. -/
theorem witness_BranchesAndExits_paths :
    (inHandler both.g = false ∧ (both.g.slot both.slot.partner).mask ≠ 0 ∧ sumpTopEntry both = none)
      ∧ (let s := entryOf both 2 .B
        inHandler s.g = false ∧ (s.g.slot s.slot.partner).mask ≠ 0
          ∧ ∀ e, sumpTopEntry s = some e → sumpPoison s (s.g.sumpTop - 16) = false ∧ e.own ≠ s.slot)
      ∧ (∃ e, sumpTopEntry (entryOf both 1 .A) = some e ∧ sumpPoison (entryOf both 1 .A) ((entryOf both 1 .A).g.sumpTop - 16) = false
        ∧ e.own = .A ∧ e.mask ≠ 0 ∧ e.why = 1 ∧ (entryOf both 1 .A).g.inside = [] ∧ inHandler (entryOf both 1 .A).g = false)
      ∧ ∃ e, sumpTopEntry (entryOf base 2 .A) = some e ∧ sumpPoison (entryOf base 2 .A) ((entryOf base 2 .A).g.sumpTop - 16) = false
        ∧ e.own = .A ∧ e.mask ≠ 0 ∧ e.why = 2 ∧ (entryOf base 2 .A).g.sumpTop = 16 ∧ (base.g.slot base.slot.partner).mask = 0 := by
  refine ⟨by decide +kernel, ⟨by decide +kernel, by decide +kernel, fun e h => ⟨by decide +kernel, ?_⟩⟩, ex_some (by decide +kernel),
    ex_some (by decide +kernel)⟩
  have k : (sumpTopEntry (entryOf both 2 .B)).map (·.own) = some .B := by decide +kernel
  rw [h, Option.map_some, Option.some.injEq] at k
  have sl : (entryOf both 2 .B).slot = .A := by decide +kernel
  rw [k, sl]
  decide

/-- The same with the sump full. -/
def full : State := { both with g := { both.g with sumpTop := 2048 } }

/-- A path entry of slot A on top of the sump. -/
def onTop : State := entryOf base 1 .A

/-- Slot A waits at a join. -/
def joining (s : State) : State := setCur s { cur s with wait := .join, stand := .paused }

/-- The slots wait at different joins. -/
def mismatch : State := joining { both with g := { both.g with b := { both.g.b with pc := both.g.b.pc + 8, wait := .join } } }

theorem witness_SplitsAndJoins :
    (uni base 4 .zero = .ok 0 ∧ (cur base).mask &&& 0 = 0)
      ∧ (uni base 4 .exec = .ok 0xffffffff ∧ (cur base).mask &&& 0xffffffff ≠ 0 ∧ (cur base).mask &&& ~~~(0xffffffff : Word) = 0)
      ∧ (uni base 4 (.s 4) = .ok 7 ∧ (cur base).mask &&& 7 ≠ 0 ∧ (cur base).mask &&& ~~~(7 : Word) ≠ 0
        ∧ (base.g.slot base.slot.partner).mask = 0)
      ∧ (uni both 4 (.s 4) = .ok 7 ∧ (cur both).mask &&& 7 ≠ 0 ∧ (cur both).mask &&& ~~~(7 : Word) ≠ 0
        ∧ (both.g.slot both.slot.partner).mask ≠ 0 ∧ both.g.sumpTop + 16 ≤ both.team.kernel.sump - both.team.kernel.local_)
      ∧ (uni full 4 (.s 4) = .ok 7 ∧ (cur full).mask &&& 7 ≠ 0 ∧ (cur full).mask &&& ~~~(7 : Word) ≠ 0
        ∧ (full.g.slot full.slot.partner).mask ≠ 0 ∧ full.team.kernel.sump - full.team.kernel.local_ < full.g.sumpTop + 16) := by
  refine ⟨⟨rfl, by decide +kernel⟩, ⟨rfl, by decide +kernel⟩, ⟨rfl, by decide +kernel⟩, ⟨rfl, by decide +kernel⟩, rfl, by decide +kernel⟩

theorem witness_SplitsAndJoins_join :
    (∀ s ∈ [base, both, onTop], 8 ≤ ((cur s).pc - (cur s).hdr).toNat ∧ ((cur s).pc - (cur s).hdr).toNat ≤ 8 * (cur s).count)
      ∧ (base.g.sumpTop = 0 ∧ (base.g.slot base.slot.partner).mask = 0 ∧ (cur base).mask ≠ 0)
      ∧ (both.g.sumpTop = 0 ∧ (cur both).mask ≠ 0 ∧ (both.g.slot both.slot.partner).mask ≠ 0
        ∧ (both.g.slot both.slot.partner).wait ≠ .join)
      ∧ (let s : State := { both with g := { both.g with b := { both.g.b with wait := .join } } }
        s.g.sumpTop = 0 ∧ (s.g.slot s.slot.partner).atJoin (cur s).pc = true)
      ∧ (∃ e, sumpTopEntry onTop = some e ∧ e.own = onTop.slot ∧ e.why = 1 ∧ (cur onTop).mask ≠ 0 ∧ onTop.g.inside = []
        ∧ sumpPoison onTop (onTop.g.sumpTop - 16) = false)
      ∧ (∃ e, sumpTopEntry (sour onTop) = some e ∧ e.own = onTop.slot ∧ sumpPoison (sour onTop) ((sour onTop).g.sumpTop - 16) = true)
      ∧ (∀ s ∈ [joining base, mismatch], canAct s s.slot = true ∧ s.g.haltDue = none ∧ (cur s).wait = .join)
      ∧ (∃ t, joinAt (joining base) (joining base).slot = .ok t ∧ t.g ≠ (joining base).g)
      ∧ ∃ r, joinAt mismatch mismatch.slot = .error r := by
  refine ⟨by decide +kernel, by decide +kernel, by decide +kernel, by decide +kernel, ex_some (by decide +kernel), ex_some (by decide +kernel),
    by decide +kernel, ex_ok (by decide +kernel), ex_error (by decide +kernel)⟩

/-- The lanes of group 0 have arrived in the phase of a barrier. -/
def arrived (n : Nat) : State := onG fun g => { g with marks := (List.range 32).map fun l => (32 * n + l, 0) }

/-- A second group of the team, which has not arrived. -/
def withPartner (s : State) : State := { s with groups := [{ one.g with ref := { one.g.ref with gid := 1 } }] }

theorem witness_Barriers :
    Quiet base ∧ Quiet (arrived 15) ∧ Quiet (withPartner base) ∧ someArrived base 15 = false ∧ someArrived (arrived 15) 15 = true
      ∧ (cur base).wait = .running ∧ someArrived (arrive (drainStores base) 0) 0 = false
      ∧ (cur (withPartner base)).wait = .running ∧ someArrived (arrive (drainStores (withPartner base)) 15) 15 = true
      ∧ (cur base).stand = .issuing := by decide +kernel

theorem witness_BarrierPhases :
    ∀ n ∈ [0, 15], n < 16 ∧ mrising (arrived n).team.phases = true ∧ (groupsOf (arrived n) (arrived n).team.ref).filter Group.active ≠ []
      ∧ (∀ g ∈ (groupsOf (arrived n) (arrived n).team.ref).filter Group.active, ∀ l < 32,
        laneOn g.exited l = true ∨ mget? g.marks (32 * n + l) = some (mget 0 (arrived n).team.phases n))
      ∧ ∃ g ∈ (groupsOf (withPartner (arrived n)) (arrived n).team.ref).filter Group.active, ∃ l < 32,
        laneOn g.exited l = false ∧ ¬ mget? g.marks (32 * n + l) = some (mget 0 (arrived n).team.phases n) := by decide +kernel

/-- A group of a role, with TAIL of queue 7 at a count and HEAD at 0. -/
def queueing (role tail : Nat) : State :=
  { one with g := { one.g with role := role }, team := { one.team with qcount := if tail = 0 then [] else [(7, (w32 tail, 0))] } }

theorem witness_StageQueues :
    (∀ r ∈ [0, 1], ∀ n ∈ [0, 1, 2], Idle (queueing r n) ∧ mget [] (queueing r n).team.putters 7 = []
        ∧ mget [] (queueing r n).team.getters 7 = [])
      ∧ (∀ n ∈ [0, 1], (queueing 0 n).g.role = (queueAt (queueing 0 n) 7).src
        ∧ occupancy (queueing 0 n).team 7 < (queueAt (queueing 0 n) 7).depth)
      ∧ (∀ n ∈ [1, 2], (queueing 1 n).g.role = (queueAt (queueing 1 n) 7).dst ∧ 0 < occupancy (queueing 1 n).team 7
        ∧ (sharedPoison (queueing 1 n) ((queueAt (queueing 1 n) 7).base + 16) (queueAt (queueing 1 n) 7).entry).isNone = true
        ∧ (let s : State := { queueing 1 n with team := { (queueing 1 n).team with poison := List.range 4096 } }
          (sharedPoison s ((queueAt s 7).base + 16) (queueAt s 7).entry).isSome = true))
      ∧ (queueing 1 0).g.role ≠ (queueAt (queueing 1 0) 7).src ∧ (queueing 0 0).g.role ≠ (queueAt (queueing 0 0) 7).dst
      ∧ ((queueing 0 2).g.role = (queueAt (queueing 0 2) 7).src ∧ (queueAt (queueing 0 2) 7).depth ≤ occupancy (queueing 0 2).team 7)
      ∧ ((queueing 1 0).g.role = (queueAt (queueing 1 0) 7).dst ∧ occupancy (queueing 1 0).team 7 = 0) := by decide +kernel

/-! ### The hypotheses of the statements about memory -/

/-- A second device memory page poisoned, and a store queued to two addresses. -/
def place (a : Nat) : Loc := { home := .main, addr := 2 ^ 30 + a, va := a }

def storing : State := onG fun g => { g with stores := [{ cells := [(place 0, 5), (place 1, 6), (place 0, 7)] }] }

/-- The first two sectors of main memory and of the team's shared memory are poisoned. -/
def tainted : State := { base with poison := [2 ^ 25, 2 ^ 25 + 1], team := { base.team with poison := [0, 1] } }

/-- The team is member 1 of a cluster, and the shared memory of member 0 is poisoned; s4 points at its window. -/
def windowed : State :=
  let c (m : Nat) (t : Team) : Team := { t with cluster := some (7, m) }
  { base with
    g := { base.g with sregs := [(4, 2 ^ 24)] }, team := c 1 base.team
    teams := [c 0 { base.team with ref := { vd := 0, serial := 2 }, poison := [0] }] }

theorem witness_Loads_poison :
    (Idle tainted ∧ execMask tainted ≠ 0 ∧ ∃ p, placeLanes tainted .g .none .none 16 4 1 = .ok p
        ∧ (let st := countReads (acquireOf tainted .plain) (p.2.map fun e => (e.2, widthBytes .b32))
          poisonedWindow st (p.2.map fun e => (e.2, widthBytes .b32)) = none
            ∧ (lanesBytes st .g (laneEa tainted .g p.1 .none 16) 4 p.2).toOption.isNone = true))
      ∧ (∃ p, placeOne tainted .sh .none .none 16 16 1 = .ok p
        ∧ (let st := countReads (acquireOf tainted .plain) [(p.2, 16)]
          poisonedWindow st [(p.2, 16)] = none ∧ (oneBytes st .sh p.1 16 p.2).toOption.isNone = true))
      ∧ (Idle windowed ∧ execMask windowed ≠ 0 ∧ ∃ p, placeLanes windowed .sh (.s 4) .none 0 4 1 = .ok p
        ∧ (poisonedWindow (countReads (acquireOf windowed .plain) (p.2.map fun e => (e.2, widthBytes .b32)))
          (p.2.map fun e => (e.2, widthBytes .b32))).isSome = true)
      ∧ (∃ p, placeOne windowed .sh (.s 4) .none 0 4 1 = .ok p
        ∧ (poisonedWindow (countReads (acquireOf windowed .plain) [(p.2, 4)]) [(p.2, 4)]).isSome = true)
      ∧ (∃ b ∈ accessBytes tainted (place 60) 4, b.2 = true) ∧ ¬ ∃ b ∈ accessBytes tainted (place 64) 4, b.2 = true := by
  refine ⟨⟨by decide +kernel, by decide +kernel, ex_ok (by decide +kernel)⟩, ex_ok (by decide +kernel),
    ⟨by decide +kernel, by decide +kernel, ex_ok (by decide +kernel)⟩, ex_ok (by decide +kernel), by decide +kernel, by decide +kernel⟩

theorem witness_Atomics_poison :
    (∃ p, placeLanes tainted .g .none .none 0 8 3 = .ok p
        ∧ (let rd := readyLanes (atomOrder tainted .acq .plain) 8 p.2
          poisonedWindow rd (p.2.map fun e => (e.2, 8)) = none ∧ (lanesBytes rd .g (laneEa tainted .g p.1 .none 0) 8 p.2).toOption.isNone = true))
      ∧ ∃ p, placeLanes windowed .sh (.s 4) .none 0 4 3 = .ok p
        ∧ (poisonedWindow (readyLanes (atomOrder windowed .acq .plain) 4 p.2) (p.2.map fun e => (e.2, 4))).isSome = true := by
  exact ⟨ex_ok (by decide +kernel), ex_ok (by decide +kernel)⟩

theorem witness_Loads :
    (Idle none' ∧ execMask none' = 0)
      ∧ (Idle base ∧ execMask base ≠ 0 ∧ ∃ p, placeLanes base .g .none .none 16 4 1 = .ok p
        ∧ poisonedWindow (acquireOf base .plain) (p.2.map fun e => (e.2, widthBytes .b32)) = none
        ∧ (lanesBytes (acquireOf base .plain) .g (laneEa base .g p.1 .none 16) 4 p.2).toOption.isSome = true)
      ∧ (∃ r, placeLanes base .g .none .none 2 4 1 = .error r)
      ∧ (∃ p, placeOne base .sh .none .none 16 16 1 = .ok p ∧ poisonedWindow (acquireOf base .plain) [(p.2, 16)] = none
        ∧ (oneBytes (acquireOf base .plain) .sh p.1 16 p.2).toOption.isSome = true)
      ∧ ∃ r, placeOne base .sh .none .none 0xffff 1 1 = .error r := by
  refine ⟨by decide +kernel, ⟨by decide +kernel, by decide +kernel, ex_ok (by decide +kernel)⟩, ex_error (by decide +kernel),
    ex_ok (by decide +kernel), ex_error (by decide +kernel)⟩

theorem witness_MemoryValues : (place 0).home = .main ∧ bindingAt base.vd (place 0).va = none := by decide +kernel

theorem witness_Stores :
    Idle base ∧ execMask base ≠ 0 ∧ (∃ p, placeLanes base .g .none .none 16 4 2 = .ok p ∧ p.2 ≠ [])
      ∧ (∃ r, placeLanes base .g .none .none 2 4 2 = .error r)
      ∧ (∃ p, placeOne base .sh .none .none 16 16 2 = .ok p ∧ p.1 = 16) ∧ (∃ r, placeOne base .sh .none .none 0xffff 1 2 = .error r)
      ∧ (∃ bs, scaBytes base .b32 (.s 4) = .ok bs) ∧ ∃ r, scaBytes base .b32 (.v 2) = .error r := by
  refine ⟨by decide +kernel, by decide +kernel, ex_ok (by decide +kernel), ex_error (by decide +kernel), ex_ok (by decide +kernel),
    ex_error (by decide +kernel), ⟨_, rfl⟩, ⟨_, rfl⟩⟩

theorem witness_StoredBytes :
    storing.Inv ∧ storing.g.stores = [{ cells := [(place 0, 5), (place 1, 6), (place 0, 7)] }]
      ∧ (∀ c ∈ [(place 0, (5 : Byte)), (place 1, 6), (place 0, 7)], c.1.home = .main ∧ bindingAt storing.vd c.1.va = none)
      ∧ [(place 0, (5 : Byte)), (place 1, 6), (place 0, 7)] = [(place 0, 5)] ++ (place 1, 6) :: [(place 0, 7)]
      ∧ ∀ d ∈ [(place 0, (7 : Byte))], d.1.addr ≠ (place 1).addr := by
  refine ⟨?_, by decide +kernel, ?_, rfl, ?_⟩
  · show Memory.wf storing.mem = true
    decide +kernel
  · simp only [List.mem_cons, List.not_mem_nil, or_false]
    rintro c (rfl | rfl | rfl) <;> decide +kernel
  · simp only [List.mem_cons, List.not_mem_nil, or_false]
    rintro d rfl
    decide

/-- A store to a place that keeps nothing, and one to the device's first stop record, which keeps all. -/
theorem witness_StoredBytes_kept :
    (∀ c ∈ [(place 0, (5 : Byte)), (place 1, 6), (place 0, 7)], readOnlyBits storing c.1 = 0)
      ∧ (storing.vd.alive = true ∧ (let a := ctxPart storing.vd mailPart + 4096
        a ≤ a ∧ a + 32767 < a + 32768 ∧ readOnlyBits storing { home := .main, addr := a, va := 0 } = 0xff)) := by
  decide +kernel

theorem witness_Atomics :
    Idle base ∧ execMask base ≠ 0
      ∧ (∃ p, placeLanes base .g .none .none 0 8 3 = .ok p ∧ poisonedWindow (atomOrder base .acq .plain) (p.2.map fun e => (e.2, 8)) = none
        ∧ (lanesBytes (p.2.foldl (fun s e => readyAtomic s e.2) (atomOrder base .acq .plain)) .g (laneEa base .g p.1 .none 0) 8 p.2).toOption.isSome
          = true)
      ∧ ∃ r, placeLanes base .g (.s 4) .none 0 4 3 = .error r := by
  refine ⟨by decide +kernel, by decide +kernel, ex_ok (by decide +kernel), ex_error (by decide +kernel)⟩

theorem witness_FencesAndRanges :
    Idle base ∧ uni base 1 (.s 8) = .ok 16 ∧ uniPair base 2 .zero = .ok 0 ∧ rangeFault base (0 + (0 : BitVec 16).signExtend 64 : Dword).toNat 16 = none
      ∧ uniPair base 2 (.s 4) = .ok 0x100000007 ∧ (rangeFault base 0x100000007 16).isSome = true
      ∧ execMask base ≠ 0 ∧ baseOf base .g .none = .ok 0 ∧ (∃ r, baseOf base .g (.v 2) = .error r)
      ∧ (deviceAt base 0).any (fun d => walkEntries base (2 ^ 57 - 1) levels d.root != [] && (walkEntries base 0 levels d.root).length == 3) = true
      ∧ 2 ^ 57 - 1 < 2 ^ 57 := by
  refine ⟨by decide +kernel, rfl, rfl, by decide +kernel, rfl, by decide +kernel, by decide +kernel, rfl, ⟨_, rfl⟩, by decide +kernel, by decide⟩

/-- A gauge word of the team's shared memory. -/
def gauge : Loc := { home := .shared fetchTeamRef, addr := 0, va := 0 }

/-- The gauge word holds a value: TARGET 8, GEN 7, device 0, V 1. -/
def gauged : State := putGauge base gauge (8 + 7 * 2 ^ 64 + 2 ^ 127)

theorem witness_GaugeWords :
    (∀ s ∈ [base, gauged], let d := readyGauge (drainStores s) gauge
      Idle s ∧ poisonedWindow d [(gauge, 16)] = none ∧ (oneBytes d .sh 0 16 gauge).toOption.isSome = true
        ∧ (placeOne s .sh .none .none 0 16 3).toOption = some (0, gauge) ∧ (placeOne s .sh .none .none 0 16 1).toOption = some (0, gauge))
      ∧ uni gauged 1 (.s 4) = .ok 7 ∧ uni gauged 1 (.s 8) = .ok 16
      ∧ (gaugeArrive (gaugeAt (readyGauge (drainStores gauged) gauge) gauge) gauged.vd.number 7).isSome = true
      ∧ gaugeArrive (gaugeAt (readyGauge (drainStores base) gauge) gauge) base.vd.number 7 = none
      ∧ (let w := dropGauger (drainStores gauged)
        let c := countReads w [(gauge, 16)]
        gaugeReached (gaugeAt w gauge) 7 = true ∧ gaugeReached (gaugeAt w gauge) 16 = false ∧ gaugePoison w gauge = false
          ∧ poisonedWindow c [(gauge, 16)] = none ∧ (oneBytes c .sh 0 16 gauge).toOption.isSome = true) := by
  refine ⟨by decide +kernel, ok_of (by decide +kernel), ok_of (by decide +kernel), ?_⟩
  decide +kernel

/-- Waits on a clean word of main memory, in its canonical form, and on a poisoned one. -/
theorem witness_GaugeWords_wait :
    (let d := readyGauge (drainStores base) (place 0)
     let w := dropGauger (drainStores base)
     poisonedWindow d [(place 0, 16)] = none ∧ (oneBytes d .g 0 16 (place 0)).toOption.isSome = true
        ∧ (placeOne base .g .none .none 0 16 3).toOption = some (0, place 0) ∧ (placeOne base .g .none .none 0 16 1).toOption = some (0, place 0)
        ∧ gaugeReached (gaugeAt w (place 0)) 16 = false ∧ gaugePoison w (place 0) = false ∧ Memory.wf w.mem = true
        ∧ ∀ k < 16, bindingAt w.vd ((place 0).va + k) = none)
      ∧ (let w := dropGauger (drainStores tainted)
        let c := countReads w [(place 0, 16)]
        (placeOne tainted .g .none .none 0 16 1).toOption = some (0, place 0) ∧ gaugePoison w (place 0) = true
          ∧ poisonedWindow c [(place 0, 16)] = none ∧ (oneBytes c .g 0 16 (place 0)).toOption.isNone = true)
      ∧ (let d := readyGauge (drainStores tainted) (place 0)
        (placeOne tainted .g .none .none 0 16 3).toOption = some (0, place 0) ∧ poisonedWindow d [(place 0, 16)] = none
          ∧ (oneBytes d .g 0 16 (place 0)).toOption.isNone = true) := by decide +kernel

/-- A fill whose gauge is the word at 0 of shared memory. -/
def filling : Job :=
  { handle := 1, kind := .fill, team := fetchTeamRef, gid := 0, core := 0, place := 0, card := BitVec.ofNat 512 (2 ^ 21), reads := [], writes := []
    preds := [], started := true, moved := 16, counted := 0, fb := false, gd := false, code := 0, sent := false, cancel := false, t0 := 0
    t1 := 0, behind := [] }

theorem witness_GaugeArrivals :
    (∀ g ∈ [0, 8 + 7 * 2 ^ 64 + 2 ^ 127, 2 ^ 127 + 63 * 2 ^ 96, 2 ^ 128 - 1], g < 2 ^ 128) ∧ 2 ^ 32 - 1 < 2 ^ 32
      ∧ (0 / 2 ^ 127 = 0) ∧ ((2 ^ 127 + 63 * 2 ^ 96) / 2 ^ 127 = 1 ∧ (2 ^ 127 + 63 * 2 ^ 96) / 2 ^ 96 % 64 ≠ 0)
      ∧ (2 ^ 127 / 2 ^ 127 = 1 ∧ 2 ^ 127 / 2 ^ 96 % 64 = 0 ∧ 2 ^ 127 % 2 ^ 32 = 0) ∧ (8 + 7 * 2 ^ 64 + 2 ^ 127) % 2 ^ 32 ≠ 0 := by
  refine ⟨by decide +kernel, by decide +kernel, ?_⟩
  decide +kernel

/-- The team has lost the window of member 0 of its cluster, and the same fill counts at a gauge there. -/
def revoked : State := { base with team := { base.team with cluster := some (7, 1), revoked := [0] } }
def fillingWindow : Job := { filling with card := filling.card + BitVec.ofNat 512 (2 ^ 24 * 2 ^ 288) }

theorem witness_GaugeArrivals_job :
    (∀ s ∈ [gauged, base, tainted], (jobGauge s filling).bind Except.toOption = some gauge) ∧ 16 ≠ 0
      ∧ (let r := readyGauge gauged gauge
        gaugePoison r gauge = false ∧ (gaugeArrive (gaugeAt r gauge) r.vd.number 16).isSome = true)
      ∧ (let r := readyGauge base gauge
        gaugePoison r gauge = false ∧ gaugeArrive (gaugeAt r gauge) r.vd.number 16 = none)
      ∧ gaugePoison (readyGauge tainted gauge) gauge = true
      ∧ ∃ k, jobGauge revoked fillingWindow = some (.error k) := by
  refine ⟨by decide +kernel, by decide +kernel, by decide +kernel, by decide +kernel, by decide +kernel, some_error (by decide +kernel)⟩

/-- The team in focus in a cluster, and fifteen or sixteen other members of cluster 7. -/
def clustered (c : Option (Word × Nat)) (others : Nat) : State :=
  { base with
    team := { base.team with cluster := c }
    teams := (List.range others).map fun m => { base.team with ref := { vd := 0, serial := 2 + m }, cluster := some (7, m) } }

theorem witness_Clusters :
    (∀ s ∈ [clustered none 0, clustered none 15, clustered none 16, clustered (some (7, 15)) 15], Idle s ∧ (uni s 2 (.s 4)).toOption = some 7)
      ∧ ((clustered none 15).team.cluster = none ∧ 15 < 16 ∧ (clusterOf (clustered none 15) 7).any (fun e => e.2 == 15) = false
        ∧ ∀ j < 15, (clusterOf (clustered none 15) 7).any (fun e => e.2 == j) = true)
      ∧ ((clustered none 16).team.cluster = none ∧ ∀ m < 16, (clusterOf (clustered none 16) 7).any (fun e => e.2 == m) = true)
      ∧ (clustered (some (7, 15)) 15).team.cluster = some (7, 15)
      ∧ ((clustered (some (8, 0)) 0).team.cluster = some (8, 0) ∧ (8 : Word) ≠ 7)
      ∧ (Idle (leaveCluster (clustered (some (7, 15)) 0))
        ∧ execMask (leaveCluster (clustered (some (7, 15)) 0)) = execMask (clustered (some (7, 15)) 0)) := by decide +kernel

/-- The sump after `push` of one scalar register, `s4`, by the slot in focus. -/
def pushed : State := pushEntry { base with g := { base.g with sumpTop := 16 } } (frameHeader base (.s 4) 0)

theorem witness_SpillFrames :
    (∀ s ∈ [base, pushed, full], Idle s)
      ∧ base.g.sumpTop + frameBody (.s 4) 1 + 16 ≤ base.team.kernel.sump - base.team.kernel.local_
      ∧ full.team.kernel.sump - full.team.kernel.local_ < full.g.sumpTop + frameBody (.s 4) 1 + 16
      ∧ sumpTopEntry base = none
      ∧ (∃ e, sumpTopEntry pushed = some e ∧ (e.why = 3 ∧ e.own = pushed.slot ∧ e.frame = (frameHeader pushed (.s 4) 0).frame)
        ∧ sumpPoison pushed (pushed.g.sumpTop - 16) = false
        ∧ popPoison pushed (.s 4) 1 (pushed.g.sumpTop - (frameBody (.s 4) 1 + 16)) = none)
      ∧ (∃ e, sumpTopEntry onTop = some e ∧ sumpPoison onTop (onTop.g.sumpTop - 16) = false
        ∧ ¬ (e.why = 3 ∧ e.own = onTop.slot ∧ e.frame = (frameHeader onTop (.s 4) 0).frame))
      ∧ (∃ e, sumpTopEntry (sour onTop) = some e ∧ sumpPoison (sour onTop) ((sour onTop).g.sumpTop - 16) = true) := by
  refine ⟨by decide +kernel, by decide +kernel, by decide +kernel, by decide +kernel, ex_some (by decide +kernel), ex_some (by decide +kernel),
    ex_some (by decide +kernel)⟩

/-- Two frames, of which the upper one's registers lie in a poisoned sector and its header does not. -/
def souredFrame : State :=
  let s := pushEntry { base with g := { base.g with sumpTop := 64 } } (frameHeader base (.s 4) 2)
  { s with poison := [(s.g.sumpPa + 32) / 32] }

theorem witness_SpillFrames_poison :
    ∃ e, sumpTopEntry souredFrame = some e ∧ (e.why = 3 ∧ e.own = souredFrame.slot ∧ e.frame = (frameHeader souredFrame (.s 4) 2).frame)
      ∧ sumpPoison souredFrame (souredFrame.g.sumpTop - 16) = false
      ∧ (popPoison souredFrame (.s 4) 3 (souredFrame.g.sumpTop - (frameBody (.s 4) 3 + 16))).isSome = true := ex_some (by decide +kernel)

/-- The group of a word waits at it. -/
def waiting (w : Nat) (k : Wait) : State :=
  let s := State.reset.withFetchWord 64 w
  setCur s { cur s with wait := k, stand := .paused }

/-- A group at `sift.home v6, 16`. -/
def sifting : State := waiting 0x6507fe03021ff808 .sift

/-- The same where another team has taken every slot of the sub-core while the group's has returned. -/
def crammed : State :=
  let r : TRef := { vd := 0, serial := 2 }
  { sifting with
    groups := (List.range 16).map fun j => { sifting.g with ref := { team := r, gid := j } }
    teams := [{ sifting.team with ref := r }] }

/-- Whether the new groups of `sift.home v6, 16` fit. -/
def siftsTo (s : State) : Option Bool := (siftNow s (participants s) (.sift true (.v 6) 16)).map (siftFits s.g.core)

/-- The threads of a group, in key order already. -/
theorem siftsTo_of {s : State} {b : Bool}
    (hp : let ts := ((participants s).map fun g => threadsOf g fun l => (srcLane (asParticipant s g) (.v 6) l).toNat).flatten
      ts.Pairwise (fun x y => decide (x.key ≤ y.key) = true)
        ∧ (byKey ts = ts → siftsTo s = some b)) : siftsTo s = some b :=
  hp.2 (List.mergeSort_of_pairwise hp.1)

theorem sifts_sifting : siftsTo sifting = some true := by
  refine siftsTo_of ⟨by decide +kernel, fun h => ?_⟩
  unfold siftsTo siftNow commitWith regroup
  dsimp only
  rw [h]
  decide +kernel
theorem sifts_crammed : siftsTo crammed = some false := by
  refine siftsTo_of ⟨by decide +kernel, fun h => ?_⟩
  unfold siftsTo siftNow commitWith regroup
  dsimp only
  rw [h]
  decide +kernel

theorem witness_Sifts :
    siftSlot base base.g = some base.slot ∧ siftSlot both both.g ≠ some both.slot ∧ uni base 4 (.s 4) = .ok 7 ∧ base.g.stepping = none
      ∧ (∀ s ∈ [sifting, crammed], allArrived s = true ∧ (∀ g ∈ participants s, g.halted = false ∧ g.stopped = false)
        ∧ siftAgrees s (participants s) = true ∧ siftQuiet s (participants s) = true
        ∧ instrAt s (s.g.slot (waitingSlot s.g)) = some (.sift true (.v 6) 16))
      ∧ siftsTo sifting = some true ∧ siftsTo crammed = some false
      ∧ ∀ t ∈ threadsOf base.g fun _ => 0, t.lane < 32 := by
  refine ⟨by decide +kernel, by decide +kernel, rfl, rfl, by decide +kernel, sifts_sifting, sifts_crammed, ?_⟩
  intro t h
  obtain ⟨l, hl, rfl⟩ := List.mem_map.mp h
  exact List.mem_range.mp (List.mem_filter.mp hl).1

/-! ### The hypotheses of the statements about launches, engines and the arrays -/

/-- The declaration of a kernel of one team of one core, without groups, and its code. -/
def kernelCode : Code := { serial := 1, kernels := [(0, noKernel)], va := codeBase, pa := 0, size := 128 }

def partition0 : Partition := { number := 0, sched := .allowance, cores := [0], windowStart := 0, boundaries := 0 }

/-- A grid of one team that has not been placed. -/
def grid1 : Grid :=
  { serial := 1, code := 1, kernel := 0, prio := 0, nx := 1, ny := 1, nz := 1, next := 0, live := 0, params := 0, paramsLen := 256
    tag := none, origin := 0, fault := none, relaunched := false, pins := [] }

/-- Lane 0 active, a descriptor of a grid of one team at VA 0, and a number of grids in the queue. -/
def launching (queue : Nat) : State :=
  let s := withMask base 1
  let s := putBytes s (2 ^ 30) (leBytes 64 (2 ^ 64 + 2 ^ 96 + 2 ^ 112))
  { s with vd := { s.vd with codes := [kernelCode], grids := List.replicate queue grid1 }, partitions := [partition0] }

theorem witness_Launches :
    (Idle none' ∧ uniPair none' 1 .zero = .ok 0 ∧ execMask none' = 0)
      ∧ (Idle base ∧ uniPair base 1 (.s 4) = .ok 0x100000007 ∧ execMask base ≠ 0
        ∧ ∃ r, launchFault base 0x100000007 ((lanes32.filter (laneOn (execMask base))).map (readDesc base 0x100000007)) = some r ∧ r.code ≠ 0)
      ∧ (∀ q ∈ [1023, 1024], Idle (launching q) ∧ execMask (launching q) ≠ 0
        ∧ (uniPair (launching q) 1 .zero).toOption = some 0
        ∧ (launchFault (launching q) 0 ((lanes32.filter (laneOn (execMask (launching q)))).map (readDesc (launching q) 0))).isNone = true)
      ∧ (launchRoom (launching 1024) (childrenOf (launching 1024) ((lanes32.filter (laneOn (execMask (launching 1024)))).map
        (readDesc (launching 1024) 0)))).isNone = true
      ∧ (launchRoom (launching 1023) (childrenOf (launching 1023) ((lanes32.filter (laneOn (execMask (launching 1023)))).map
        (readDesc (launching 1023) 0)))).isSome = true
      ∧ (let s := withMask base 1
        let rs := (lanes32.filter (laneOn (execMask s))).map (readDesc s 0)
        (launchFault s 0 rs).isNone = true ∧ childrenOf s rs = [] ∧ (launchRoom s (childrenOf s rs)).isSome = true) := by
  refine ⟨⟨by decide +kernel, rfl, by decide +kernel⟩, ⟨by decide +kernel, rfl, by decide +kernel, ex_some (by decide +kernel)⟩,
    by decide +kernel, by decide +kernel, by decide +kernel, by decide +kernel⟩

/-- The bucket of core 0 holds a number of jobs. -/
def bucket (n : Nat) : State := { base with vd := { base.vd with jobs := List.replicate n filling } }

/-- A fill of 16 bytes at 0 of a space. -/
def fillCard (spc dst : Nat) : Nat := 2 ^ 29 + 16 * 2 ^ 32 + spc * 2 ^ 27 + dst * 2 ^ 160

/-- h1 holds handle 1, and the device a list of jobs, launches, loads and handles whose job has scope `.fab`. -/
def handled (js : List Job) (ls : List Launch) (ws : List Load) (fab : List Dword) : State :=
  let s := onG fun g => { g with hregs := [(1, 1)] }
  { s with vd := { s.vd with jobs := js, launches := ls, loads := ws, fabJobs := fab, grids := [grid1], codes := [kernelCode], serials := [(0, 2)] } }

def launch1 : Launch := { handle := 1, children := [1], refused := false, removed := false, fault := none }
def load1 : Load :=
  { handle := 1, tag := 1, set := 0, conn := 0, key := 0, start := 0, len := 256, tensors := [], reads := [], done := [], qs := false
    sb := false, poisoned := false, cancel := false }

theorem witness_CardsAndHandles :
    (Idle (bucket 63) ∧ bucketCount (bucket 63) (bucket 63).g.core < Config.bucketJobs)
      ∧ (Idle (bucket 64) ∧ Config.bucketJobs ≤ bucketCount (bucket 64) (bucket 64).g.core)
      ∧ (∀ fab ∈ [[], [(1 : Dword)]], let s := handled [] [] [] fab
        Idle s ∧ readH s 1 = 1 ∧ s.vd.fabJobs.contains 1 = (fab != []) ∧ resolved s 1 = true)
      ∧ resolved (handled [filling] [] [] []) 1 = false
      ∧ (∀ b ∈ [{ filling with sent := true }, filling, { filling with started := false }], let s := handled [b] [] [] []
        s.vd.jobs.find? (fun j => j.handle = readH s 1) = some b)
      ∧ (let s := handled [] [launch1] [load1] []
        (∀ j ∈ s.vd.jobs, j.handle ≠ readH s 1) ∧ s.vd.launches.find? (fun l => l.handle = readH s 1) = some launch1)
      ∧ (let s := handled [] [] [load1] []
        (∀ j ∈ s.vd.jobs, j.handle ≠ readH s 1) ∧ (∀ l ∈ s.vd.launches, l.handle ≠ readH s 1) ∧ ∃ l ∈ s.vd.loads, l.handle = readH s 1)
      ∧ (let s := handled [] [] [] []
        (∀ j ∈ s.vd.jobs, j.handle ≠ readH s 1) ∧ (∀ l ∈ s.vd.launches, l.handle ≠ readH s 1) ∧ ∀ l ∈ s.vd.loads, l.handle ≠ readH s 1)
      ∧ (∃ p, handlePlace base .g .zero 2 = .ok p ∧ p.1 = 0) ∧ (∃ r, handlePlace base .g (.s 4) 2 = .error r)
      ∧ (∃ p, handlePlace base .sh .zero 1 = .ok p ∧ p.1 = 0 ∧ poisonedWindow (countReads base [(p.2, 8)]) [(p.2, 8)] = none
        ∧ (oneBytes (countReads base [(p.2, 8)]) .sh p.1 8 p.2).toOption.isSome = true)
      ∧ (∃ p, handlePlace tainted .sh .zero 1 = .ok p ∧ poisonedWindow (countReads tainted [(p.2, 8)]) [(p.2, 8)] = none
        ∧ (oneBytes (countReads tainted [(p.2, 8)]) .sh p.1 8 p.2).toOption.isNone = true)
      ∧ (∃ p, handlePlace windowed .sh (.s 4) 1 = .ok p
        ∧ (poisonedWindow (countReads windowed [(p.2, 8)]) [(p.2, 8)]).isSome = true)
      ∧ (∃ r, handlePlace base .sh (.s 4) 1 = .error r) := by
  refine ⟨by decide +kernel, by decide +kernel, by decide +kernel, by decide +kernel, by decide +kernel, by decide +kernel,
    by decide +kernel, by decide +kernel, ex_ok (by decide +kernel), ex_error (by decide +kernel), ex_ok (by decide +kernel),
    ex_ok (by decide +kernel), ex_ok (by decide +kernel), ex_error (by decide +kernel)⟩

/-- The state in which a card is checked. -/
def checking (w : Nat) : State := (newHandle (releaseAt base (scopeOf (Card.scope ⟨w⟩))) base.g.core 0).1

theorem witness_CardsTaken :
    (base.vd.number < 64 ∧ base.g.core < 512 ∧ mrising base.vd.serials = true ∧ nextSerial base.vd base.g.core 0 < 2 ^ 46
        ∧ nextSerial base.vd base.g.core 0 ≠ 0
        ∧ unresolved base.vd (handleWord base.vd.number base.g.core 0 (nextSerial base.vd base.g.core 0)) = false)
      ∧ cardOk (checking 0) .fill ⟨0⟩ = false
      ∧ (cardOk (checking (fillCard 1 65536)) .fill ⟨fillCard 1 65536⟩ = true
        ∧ extentsOk (checking (fillCard 1 65536)) .fill ⟨fillCard 1 65536⟩ = false)
      ∧ (cardOk (checking (fillCard 1 65520)) .fill ⟨fillCard 1 65520⟩ = true
        ∧ extentsOk (checking (fillCard 1 65520)) .fill ⟨fillCard 1 65520⟩ = true) := by decide +kernel

/-- An entry of 32 rows of 128 columns of bf16 at 0 of main memory. -/
def entry1 : BitVec 512 := BitVec.ofNat 512 (4 * 2 ^ 268 + 3 * 2 ^ 240 + 31 * 2 ^ 224 + 256 * 2 ^ 192)

/-- The four groups of a quad; the other three have offered a gathered command of slot 0, whose lists name no row. -/
def quad (other : Option (Bool × Word × Word × Word)) (passes : List Pass) : State :=
  let s := onG fun g => { g with sregs := [(6, 0x80000000)] }
  { s with
    vd := { s.vd with assay := [(0, entry1)] }
    team := { s.team with
      shared := (List.range 512).map fun n => (n, (0xff : Byte)), passes := if passes = [] then [] else [(0, passes)]
      passSerial := passes.length }
    groups := [1, 2, 3].map fun j => { s.g with ref := { s.g.ref with gid := j }, idx := j, sub := j, offered := other } }

/-- The gathered command that group 0 offers by s4 to s6. -/
def command : Bool × Word × Word × Word := (true, 0, 0, 0x80000000)

def offering (s : State) : State :=
  setCur { s with g := { s.g with offered := some command, offerSlot := s.slot } }
    ((Group.slot { s.g with offered := some command, offerSlot := s.slot } s.slot).pause .accept)

def gatheredPass : Pass := newPass (quad none []) 0 0 [0, 1, 2, 3] 0 0 0x80000000 none 0

theorem witness_MatrixCommands :
    (((quad none []).g.offered = none ∧ readRun (quad none []) 4 3 = [0, 0, 0x80000000])
      ∧ ((quad (some command) []).g.offered = none ∧ readRun (quad (some command) []) 4 3 = [0, 0, 0x80000000]))
      ∧ (∃ gs, quadHere (offering (quad none [])) = some gs ∧ (∃ x ∈ gs, x.offered = none))
      ∧ (∃ gs, quadHere (offering (quad (some command) [])) = some gs ∧ (∀ x ∈ gs, x.offered = some command))
      ∧ (let here := offering (quad (some command) [])
        commandOk here true 0 0x80000000 = true
          ∧ (listPoison here (newPass here here.g.role (here.g.idx / 4) [0, 1, 2, 3] 0 0 0x80000000 none 0)).isNone = true
          ∧ (let sick : State := { here with team := { here.team with poison := [15] } }
            listPoison sick (newPass sick sick.g.role (sick.g.idx / 4) [0, 1, 2, 3] 0 0 0x80000000 none 0) = some 480)
          ∧ sequencersFull here (coreIdx here here.g.core) [0, 1, 2, 3] = false
          ∧ passOk here (newPass here here.g.role (here.g.idx / 4) [0, 1, 2, 3] 0 0 0x80000000 none 0) = true)
      ∧ (∃ gs, quadHere (offering (quad (some command) [])) = some gs ∧ gs ≠ [])
      ∧ commandOk (offering (quad (some command) [])) true 1 0x80000000 = false
      ∧ (Idle base ∧ sequencersFull base (coreIdx base base.g.core) [base.g.sub] = false)
      ∧ (let s := quad none (List.replicate 4 gatheredPass)
        Idle s ∧ sequencersFull s (coreIdx s s.g.core) [s.g.sub] = true) := by
  refine ⟨by decide +kernel, ex_some (by decide +kernel), ex_some (by decide +kernel), ?_, ex_some (by decide +kernel), by decide +kernel,
    by decide +kernel, ?_⟩ <;> decide +kernel

/-- A group of no quad; four that wait with words or forms that differ; and a quad whose sequencers are full. -/
theorem witness_MatrixCommands_more :
    (quadHere (offering { quad none [] with groups := [] })).isNone = true
      ∧ ([(true, (0 : Word), (0 : Word), (1 : Word)), (false, command.2)].all fun c =>
        (quadHere (offering (quad (some c) []))).any fun gs => (gs.all fun x => x.offered.isSome)
          && (gs.any fun x => x.offered == some c) && gs.any fun x => x.offered == some command) = true
      ∧ (let here := offering (quad (some command) (List.replicate 4 gatheredPass))
        let p := newPass here here.g.role (here.g.idx / 4) [0, 1, 2, 3] 0 0 0x80000000 none 0
        (quadHere here).isSome = true ∧ commandOk here true 0 0x80000000 = true ∧ listPoison here p = none ∧ passOk here p = true
          ∧ sequencersFull here (coreIdx here here.g.core) [0, 1, 2, 3] = true)
      ∧ ((offering (quad none [])).g.offered ≠ none ∧ (offering (quad none [])).g.offerSlot = (offering (quad none [])).slot) := by
  decide +kernel

/-- The passes of the witnesses: an `mzero`, the same at its one step, a gathered pass, the same at its step, and at its end. -/
def zeroPass : Pass := newPass (quad none []) 0 0 [0] 0 0 0 (some true) 0
def zeroStep : Pass := { zeroPass with started := true, steps := 1 }
def gatheredStep : Pass := startedPass (quad none [gatheredPass]) gatheredPass

/-- The same pass where its entries are empty, and where B's row scales lie past every page. -/
def blank (s : State) : State := { s with vd := { s.vd with assay := [] } }
def farScales (s : State) : State := { s with vd := { s.vd with assay := [(0, entry1 + BitVec.ofNat 512 (2 ^ 57 * 2 ^ 64))] } }

theorem witness_MatrixPasses :
    (∀ p ∈ [zeroPass, zeroStep, gatheredPass], ∃ x ∈ focusPass (quad none [p]) fetchTeamRef 0 0,
        x.2 = p ∧ x.1.team.mode = .running ∧ ∀ i < (passesAt x.1 0).length, waitsFor (passesAt x.1 0) 0 i = false)
      ∧ (zeroPass.zero = some true ∧ zeroPass.started = false)
      ∧ (zeroStep.zero = some true ∧ zeroStep.started = true ∧ zeroStep.step = 0 ∧ zeroStep.steps = 1 ∧ zeroStep.failed = none)
      ∧ (let u := quad none [gatheredPass]
        gatheredPass.zero = none ∧ gatheredPass.started = false ∧ gatheredPass.handle = 0 ∧ (startedPass u gatheredPass).failed = none
          ∧ (∀ g ∈ quadGroups u fetchTeamRef (natAt u.team.cores 0) 0 0, g.all (fun g => !bInFlight gatheredPass g) = true)
          ∧ listPoison u gatheredPass = none ∧ listPoison (blank u) gatheredPass = none ∧ listPoison (farScales u) gatheredPass = none
          ∧ listPoison { u with team := { u.team with poison := [0] } } gatheredPass = some 0
          ∧ (startedPass (blank u) gatheredPass).failed ≠ none ∧ (startedPass (farScales u) gatheredPass).failed = none)
      ∧ Idle base ∧ uni base 1 (.s 4) = .ok 7 ∧ (∃ r, uni base 1 (.v 2) = .error r)
      ∧ Entry.clean ⟨wordsNat (readRun base 20 16)⟩ = true
      ∧ (let s := onG fun g => { g with sregs := (List.range 16).map fun n => (16 + n, 0xffffffff) }
        Idle s ∧ Entry.clean ⟨wordsNat (readRun s 16 16)⟩ = false) := by
  refine ⟨?_, by decide +kernel, by decide +kernel, ?_, by decide +kernel, rfl, ⟨_, rfl⟩, by decide +kernel, ?_⟩
  · simp only [List.mem_cons, List.not_mem_nil, or_false, Option.mem_def]
    rintro p (rfl | rfl | rfl) <;> exact ex_some (by decide +kernel)
  all_goals decide +kernel

/-- The gathered pass with row 0 of A live, and the same with A in the window of member 0 of the team's cluster. -/
def rowStep : Pass := { gatheredStep with list := 0 :: List.replicate 255 0xffff }
def windowStep : Pass := { rowStep with aEntry := entry1 + BitVec.ofNat 512 (2 ^ 256 + 2 ^ 24) }

/-- The state in which a step reads, and the first poisoned byte that it would read. -/
def counted (x : State × Pass) : State := countStep (repairReads x.1 (stepReads x.2 x.2.step)) (stepReads x.2 x.2.step)
def meets (x : State × Pass) : Option (Nat × Nat) := passPoison (counted x) x.2 x.2.step

/-- A pass of place 0 is in focus, as given, and meets a condition there. -/
def passing (s : State) (p : Pass) (c : State × Pass → Bool) : Bool := (focusPass s fetchTeamRef 0 0).any fun x => x.2 == p && c x

/-- The check of a pass that starts in a state. -/
def starts (u : State) : Option (Chk × Nat) :=
  let q : Pass := { startedPass u gatheredPass with t2 := cycle32 u (stampCore u gatheredPass 0) }
  passFault (repairReads u (passReads q)) q

theorem witness_MatrixPasses_starts :
    (starts (quad none [gatheredPass])).isNone = true ∧ (starts (farScales (quad none [gatheredPass]))).any (fun x => x.1.code == 0x400) = true := by
  decide +kernel

theorem witness_MatrixPasses_steps :
    gatheredStep.zero = none ∧ gatheredStep.started = true ∧ gatheredStep.step < gatheredStep.steps ∧ gatheredStep.failed = none
      ∧ passing (quad none [gatheredStep]) gatheredStep (fun x => (meets x).isNone) = true
      ∧ passing { quad none [rowStep] with poison := [2 ^ 25] } rowStep (fun x => meets x == some (0, 0)
        && (otherOwner (counted x) 0 0).isNone) = true
      ∧ passing { windowed with team := { windowed.team with passes := [(0, [windowStep])] } } windowStep (fun x => meets x == some (1, 2 ^ 24)
        && (otherOwner (counted x) 1 (2 ^ 24)).isSome) = true := by decide +kernel

theorem witness_MatrixPasses_ends :
    (let p : Pass := { gatheredStep with step := 1 }
     passing (quad none [p]) p (fun _ => true) = true ∧ p.started = true ∧ p.steps ≤ p.step ∧ p.handle = 0)
    ∧ (let p : Pass := { gatheredPass with started := true, failed := some (0x503, 0) }
     passing (quad none [p]) p (fun _ => true) = true ∧ p.started = true ∧ p.failed ≠ none ∧ p.handle = 0) := by decide +kernel

/-- The gathered pass sent as a follow-on of a job, where its list names row 0 of A; and its job as changed. -/
def followPass1 : Pass := { gatheredPass with handle := 1 }
def followed (p : Pass) (f : Job → Job) : State :=
  let s := quad none [p]
  { s with
    team := { s.team with shared := s.team.shared.filter fun e => !([0, 1, 256, 257].contains e.1) }
    vd := { s.vd with jobs := [f { filling with handle := 1 }] } }

/-- A condition on the pass as started, its job and the state in focus. -/
def follows1 (f : Job → Job) (c : State → Pass → Job → Bool) : Bool :=
  (focusPass (followed followPass1 f) fetchTeamRef 0 0).any fun x =>
    (x.1.vd.jobs.find? fun j => j.handle = x.2.handle).any (c x.1 (startedPass x.1 x.2))

theorem witness_MatrixPasses_followOn :
    follows1 id (fun u q j => q.failed.isNone && (listPoison u followPass1).isNone && !insideFootprint q j) = true
      ∧ follows1 (fun j => { j with writes := [{ space := 0, lo := 0, hi := 2 ^ 30 }] }) (fun u q j =>
        q.failed.isNone && (listPoison u followPass1).isNone && insideFootprint q j
          && (passFault (repairReads u (passReads q)) q).isNone) = true
      ∧ (let s : State := followed followPass1 fun j => { j with writes := [{ space := 0, lo := 0, hi := 2 ^ 30 }] }
        let s : State := { s with vd := { s.vd with assay := [(0, entry1 + BitVec.ofNat 512 (2 ^ 57 * 2 ^ 64))] } }
        (focusPass s fetchTeamRef 0 0).any (fun x => let q := startedPass x.1 x.2
          (passFault (repairReads x.1 (passReads q)) q).isSome && (x.1.vd.jobs.find? fun j => j.handle = x.2.handle).any (insideFootprint q)) = true)
      ∧ (∀ n ∈ [0, 1], ∀ e ∈ [1, 0], (focusPass (followed { followPass1 with started := true, steps := e, failed := if e = 0 then some (0x501, 0) else none, step := e }
            fun j => { j with card := BitVec.ofNat 512 (n * 2 ^ 20) }) fetchTeamRef 0 0).any (fun x => x.1.team.mode == .running
              && x.2.handle != 0 && x.2.started && decide (x.2.steps ≤ x.2.step)
              && (x.1.vd.jobs.find? fun j => j.handle = x.2.handle).any fun j => j.card.toNat / 2 ^ 20 % 2 == n) = true) := by decide +kernel

/-! ### The hypotheses of the statements about traps, system and debug instructions -/

/-- ARMED is not 0. -/
def armed : State := putBytes base (ctxPart base.vd mailPart + 16) [1]

/-- The group in a user handler for a cause of slot A, from a clause, or with TRAPNEXT written. -/
def handling (written : Bool) : State :=
  onG fun g => { g with
    priv := 2, trappc := w64 (codeBase + 8), trapnext := w64 (codeBase + 16), trapHdr := BitVec.ofNat 57 codeBase, nextWritten := written }

theorem witness_TrapsAndReturns :
    mainNat base (ctxPart base.vd mailPart + 16) 4 = 0 ∧ (mainNat armed (ctxPart armed.vd mailPart + 16) 4 ≠ 0 ∧ Quiet armed)
      ∧ (∀ w ∈ [false, true], inHandler (handling w).g = true ∧ trapSlot (handling w).g = (handling w).slot ∧ (handling w).g.inflight = []
        ∧ (handling w).g.pendA = none ∧ (handling w).g.pendB = none ∧ (handling w).g.entry = none ∧ (handling w).g.nextWritten = w
        ∧ (fetchWord (handling w) (handling w).g.trapHdr).toOption.isSome = true)
      ∧ inHandler base.g = false := by decide +kernel

/-- A cause of a kind in slot A. -/
def causeOf (k : CauseKind) (code : Nat) : Cause :=
  { code := code, kind := k, detail := 0xff, slot := .A, pc := 8, next := 16, mask := 1, dst := 0x3ff, addr := none, lanes := [] }

/-- An instruction in flight. -/
def flight : InFlight :=
  { slot := .A, flag := none, pc := 8, next := 16, mask := 1, dst := 0x3ff, writes := [], fp := [], te := 0, lanes := 1, sts := 0, loads := []
    arm := none, issued := 0, acted := false, until_ := .now }

/-- The user handler of the group stands at an address, with V of TRAPVEC as given. -/
def vectored (a : Nat) (v : Bool) (entry : Option Cause) : State :=
  onG fun g => { g with trapvec := w64 (a + v.toNat), entry := entry }

/-- A started pass of the group's quad holds v496 to v511. -/
def locking : State :=
  let s := vectored codeBase true none
  { s with team := { s.team with passes := [(0, [{ gatheredStep with m2 := 0x80000000 + 31 * 2 ^ 25, locked := true }])] } }

theorem witness_UserTraps :
    (let s := vectored codeBase true none
     drained s (causeOf .fault (2 ^ 12 - 1)) = true ∧ s.g.entry = none ∧ (causeOf .fault (2 ^ 12 - 1)).kind ≠ .sup ∧ inHandler s.g = false
        ∧ s.g.trapvec.getLsbD 0 = true ∧ handlerOk s = true ∧ (roleOf { s with g := { s.g with role := 1 } }).vregs ≠ 512)
    ∧ (let s := onG fun g => { g with inflight := [flight] }
      drained s (causeOf .trap 1) = false ∧ s.g.entry = none ∧ inHandler s.g = false)
    ∧ (locking.g.inflight = [] ∧ drained locking (causeOf .trap 1) = false ∧ locking.g.entry = none ∧ inHandler locking.g = false)
    ∧ (let s := vectored codeBase true (some (causeOf .trap 1))
      drained s (causeOf .trap 1) = true ∧ s.g.entry = some (causeOf .trap 1) ∧ serviceOf s (causeOf .trap 1) = 0)
    ∧ inHandler (handling false).g = true ∧ trapSlot (handling false).g ≠ ({ causeOf .trap 1 with slot := .B } : Cause).slot := by
  decide +kernel

theorem witness_SupervisorEntries :
    (inHandler (handling false).g = true ∧ (causeOf .trap 1).kind ≠ .sup ∧ (causeOf .sup 0x700).kind = .sup)
      ∧ (inHandler base.g = false ∧ base.g.trapvec.getLsbD 0 = false)
      ∧ (let s := vectored (codeBase + 8) true none
        inHandler s.g = false ∧ s.g.trapvec.getLsbD 0 = true ∧ handlerOk s = false)
      ∧ (base.g.ref.team = base.team.ref ∧ base.team.ending = false ∧ (causeOf .fault 0x406).detail ≠ 8 ∧ (causeOf .fault 0x200).code ≠ 0x600)
      ∧ (let s := vectored 0 false (some (causeOf .trap 1))
        s.g.inflight = [] ∧ s.g.entry = some (causeOf .trap 1) ∧ serviceOf s (causeOf .trap 1) ≠ 0)
      ∧ (let s : State := { base with team := { base.team with halting := some 2 } }
        (focusTeam s fetchTeamRef).any (fun u => u.team.halting == some 2 && !u.team.ending && u.team.mode != .lost) = true) := by
  decide +kernel

/-- The walk to the user handler meets a poisoned table entry; and its word, or none, lies in a poisoned sector. -/
def tornVector : State := { vectored codeBase true none with poison := [((walkEntries base codeBase levels base.vd.root).getD 0 (0, 0)).2 / 32] }

theorem witness_SupervisorEntries_handler :
    (drained tornVector (causeOf .trap 1) = true ∧ tornVector.g.entry = none ∧ inHandler tornVector.g = false
        ∧ serviceOf tornVector (causeOf .trap 1) = 4
        ∧ walk tornVector tornVector.vd (BitVec.ofNat 57 (tornVector.g.trapvec.toNat / 8 % 2 ^ 54 * 8)).toNat
          = .poisoned ((walkEntries base codeBase levels base.vd.root).getD 0 (0, 0)).2)
      ∧ (match walk base base.vd (BitVec.ofNat 57 codeBase).toNat with
        | .leaf pa false true _ _ => mainPoison base pa == false && mainPoison { base with poison := [pa / 32] } pa
          && decide (walk { base with poison := [pa / 32] } base.vd (BitVec.ofNat 57 codeBase).toNat = walk base base.vd (BitVec.ofNat 57 codeBase).toNat)
        | _ => false) = true := by decide +kernel

/-- Whether the rewrite of a table entry fails is a free value, so that in every state one of the two cases holds. -/

theorem witness_SupervisorEntries_repair (s : State) : repairFails s = true ∨ repairFails s = false := by
  cases repairFails s <;> simp

/-- A binding of slot 3, and a descriptor in s16 to s25 that changes its programs to the image at 0. -/
def binding3 (unbinding : Bool) : Sluice :=
  { newBinding ⟨0x200000 + 0x200000 * 2 ^ 64⟩ ([0], []) ([0], []) with unbinding := unbinding }

def bound (unbinding : Bool) : State :=
  let s := onG fun g => { g with sregs := [(4, 7), (16, 0x200000), (18, 0x200000), (24, 56)] }
  let s := putBytes s (2 ^ 30) [1]
  { s with vd := { s.vd with bindings := [(3, binding3 unbinding)] } }

theorem witness_SystemInstructions :
    (∀ s ∈ [base, bound false, bound true], Idle s ∧ s.g.entry = none)
      ∧ uniW base 1 false (.s 4) = .ok 7 ∧ uniW base 1 true (.s 4) = .ok 0x100000007 ∧ uni base 1 (.s 4) = .ok 7
      ∧ (∀ s ∈ [base, bound false], let b : BindDesc := ⟨wordsNat (readRun s 16 10)⟩
        (bindRegion (drainStores (countImages s b)) b).isSome = !s.vd.bindings.isEmpty)
      ∧ (∀ u ∈ [false, true], ∃ sl ∈ mget? (bound u).vd.bindings 3, sl.unbinding = u) ∧ mget? base.vd.bindings 15 = none := by
  refine ⟨by decide +kernel, rfl, rfl, rfl, by decide +kernel, ?_, by decide +kernel⟩
  simp only [List.mem_cons, List.not_mem_nil, or_false, Option.mem_def]
  rintro u (rfl | rfl) <;> exact ex_some (by decide +kernel)

/-- The images of a descriptor, or the page that it binds, stand behind a poisoned table entry. -/
theorem witness_SystemInstructions_torn :
    (∀ s ∈ [base, bound false, bound true], tornBind s ⟨wordsNat (readRun s 16 10)⟩ = none)
      ∧ (let s : State := { bound false with poison := [base.vd.root / 32] }
        (tornBind s ⟨wordsNat (readRun s 16 10)⟩).isSome = true ∧ Idle s ∧ s.g.entry = none) := by decide +kernel

/-- A second team of the device, saved, halted or not, with a canary in slot 15 of its record; s4 names it, s6 no team. -/
def second (halted : Bool) : State :=
  let r : TRef := { vd := 0, serial := 2 }
  { base with
    g := { base.g with sregs := [(4, 2), (6, 9), (8, 0x70), (12, 0x2800), (20, 0x10000000), (21, 0x50000000), (22, 0x70000000)] }
    teams := [{ base.team with
      ref := r, halted := halted, mode := .saved, bank := [(15, { Canary.none_ with word := 0x8070, team := some r })] }]
    groups := [{ base.g with ref := { team := r, gid := 0 }, halted := halted }] }

/-- The team that s4 names. -/
def secondTeam (halted : Bool) : Team := (second halted).teams.headD Team.idle

theorem witness_CanarySlots :
    (∀ h ∈ [false, true], Idle (second h))
      ∧ refTeam (second true) .none = .ok (some (second true).team) ∧ (refTeam (second true) (.s 4)).toOption = some (some (secondTeam true))
      ∧ (refTeam (second true) (.s 6)).toOption = some none
      ∧ (let c (r : Nat) : Canary := { word := BitVec.ofNat 128 (wordsNat (readRun (second true) r 4)), hits := 0, vd := 0, team := none, since := 0, placing := some 0 }
        setStatus (second true) (c 12) (some (second true).team) 15 = 3 ∧ setStatus (second true) (c 8) (some (second true).team) 15 = 0
          ∧ placesOf (second true) (c 8).wide (some (second true).team) = [0])
      ∧ (reached (second true) (some (second true).team) 15).toOption = some none
      ∧ (∃ st, reached (second true) none 15 = .error st)
      ∧ (reached (second true) (some (secondTeam true)) 15).toOption.any (fun x => x.any fun c => c.word == 0x8070) = true := by
  refine ⟨by decide +kernel, rfl, by decide +kernel, by decide +kernel, ?_, by decide +kernel, ⟨_, rfl⟩, by decide +kernel⟩
  decide +kernel

theorem witness_DebugInstructions :
    (∀ h ∈ [false, true], Quiet (second h) ∧ (uni (second h) 3 (.s 4)).toOption = some 2 ∧ (refTeam (second h) (.s 6)).toOption = some none
        ∧ (refTeam (second h) .none).toOption = some (some (second h).team) ∧ (second h).team.ref = fetchTeamRef
        ∧ (refTeam (second h) (.s 4)).toOption = some (some (secondTeam h)) ∧ (secondTeam h).ref ≠ (second h).team.ref
        ∧ (secondTeam h).halted = h ∧ (secondTeam h).halting = none ∧ (secondTeam h).mode ≠ .lost)
      ∧ Quiet (startHalt (second false) (secondTeam false).ref 2) ∧ Quiet (releaseAt (second true) .pkg)
      ∧ (∀ a ∈ [DebugAsk.run false, .run true, .step false 2, .step true 2], Quiet (nextSteps ((secondTeam true).steps.length + 1)
        (onTeam (releaseAt (second true) .pkg) (secondTeam true).ref fun x => { x with steps := x.steps ++ [a] }) (secondTeam true).ref)) := by
  decide +kernel

/-- What is asked of a halted team, made at once; and a team in mid-step, one that stops, and one whose lanes cannot return. -/
def askingTeam (f : Team → Team) : State :=
  let s := second true
  { s with teams := s.teams.map fun t => f { t with mode := .running, steps := [.step false 0, .run true] } }

theorem witness_DebugInstructions_asks :
    (let s := askingTeam id
     let t := s.teams.headD Team.idle
     teamOf s t.ref = some t ∧ t.steps = .step false 0 :: [.run true] ∧ stepRuns s t.ref = false ∧ t.stop = none ∧ t.halted = true
        ∧ t.ending = false ∧ unparkFits s t = true)
      ∧ (let s := askingTeam id
        let u : State := { s with groups := s.groups.map fun g => { g with stepping := some .A } }
        stepRuns u (secondTeam true).ref = true)
      ∧ (let s := askingTeam fun t => { t with stop := some false }
        (s.teams.headD Team.idle).stop ≠ none)
      ∧ (let s := askingTeam id
        let u : State := { s with groups := s.groups.map fun g => { g with parked := 1, sumpTop := 2048 } }
        unparkFits u (u.teams.headD Team.idle) = false)
      ∧ ((secondTeam false).halted = false ∧ (askingTeam fun t => { t with ending := true }).teams.all (·.ending) = true) := by
  decide +kernel

theorem witness_DebugInstructions_buffers :
    (Idle (second true) ∧ uniPair (second true) 1 .zero = .ok 0 ∧ uniPair (second true) 1 (.s 4) = .ok 2
        ∧ uni (second true) 3 (.s 20) = .ok 0x10000000 ∧ uni (second true) 3 (.s 21) = .ok 0x50000000 ∧ uni (second true) 3 (.s 22) = .ok 0x70000000)
      ∧ (unitOf (second true) (some (secondTeam true)) 0x70000000).toOption = none
      ∧ (∃ p, unitOf (second true) (some (secondTeam true)) 0x10000000 = .ok p
        ∧ bufferFault (second true) 0 (unitRead (second true) p.1 p.2 (selKind 0x10000000) (selIndex 0x10000000)).length 2 = none
        ∧ (bufferFault (second true) (2 ^ 57) (unitRead (second true) p.1 p.2 (selKind 0x10000000) (selIndex 0x10000000)).length 2).isSome = true
        ∧ bufferFault (second true) 0 (unitBytes (selKind 0x10000000)) 1 = none
        ∧ (bufferFault (second true) (2 ^ 57) (unitBytes (selKind 0x10000000)) 1).isSome = true
        ∧ (let u := countRange (second true) 0 (unitBytes (selKind 0x10000000))
          (∀ y ∈ rangeBytes u 0 (unitBytes (selKind 0x10000000)), y.2 = false)
          ∧ (writeGroup u p.2.ref (selKind 0x10000000) (selIndex 0x10000000)
            ((rangeBytes u 0 (unitBytes (selKind 0x10000000))).map (·.1))).any
              (fun st => decide (Idle st ∧ execMask st = execMask (second true))) = true
          ∧ (writeGroup u p.2.ref 2 0 (List.replicate (unitBytes 2) 0xff)).isNone = true)
        ∧ (let s : State := { second true with poison := [2 ^ 25] }
          ∃ y ∈ rangeBytes (countRange s 0 (unitBytes (selKind 0x10000000))) 0 (unitBytes (selKind 0x10000000)), y.2 = true))
      ∧ (unitOf (second true) (some (secondTeam true)) 0x50000000).toOption.isSome = true ∧ selKind 0x50000000 = 5
      ∧ bufferFault (second true) 0 (((teamsInOrder (second true)).take 2).map (listEntry (second true))).flatten.length 2 = none := by
  refine ⟨⟨by decide +kernel, rfl, rfl, rfl, rfl, rfl⟩, by decide +kernel, ex_ok (by decide +kernel), by decide +kernel, by decide,
    by decide +kernel⟩

/-! ### The hypotheses of the statements about sluice programs, clauses, teams and schedulers -/

/-- A run at a pc of four words and 16 bytes of input, with its cursor, the bytes it has written and K0 to K2. -/
def running (pc c out : Nat) (k0 k1 k2 : BitVec 16) : State :=
  { State.reset with
    run := { Run.idle with
      words := List.replicate 4 0, input := List.replicate 16 1, c := c, out := List.replicate out 7, pc := pc, fin := .running
      k := [k0, k1, k2] ++ List.replicate 13 0 } }

theorem witness_SluiceInstructions :
    (∀ pc ∈ [0, 2], (running pc 16 64 0 0 0).run.fin = .running ∧ (running pc 16 64 0 0 0).run.pc + 1 < (running pc 16 64 0 0 0).run.words.length
        ∧ (running pc 16 64 0 0 0).run.steps + 1 ≤ 8 * (running pc 16 64 0 0 0).run.bs + 64)
      ∧ (∀ c ∈ [14, 15, 16], (running 0 c 0 0 0 0).run.input.length - (running 0 c 0 0 0 0).run.c = 16 - c
        ∧ (running 0 c 0 0 0 0).run.c ≤ (running 0 c 0 0 0 0).run.input.length)
      ∧ (∀ n ∈ [62, 63, 64], (running 0 0 n 1 2 64).run.out.length = n ∧ (running 0 0 n 1 2 64).run.bs = 64)
      ∧ ((running 0 0 62 1 2 64).run.reg 1).toNat = 2 ∧ ((running 0 0 62 1 2 64).run.reg 2).toNat = 64 ∧ (running 0 0 62 1 2 64).run.reg 3 = 0
      ∧ (running 0 0 64 64 65 0).run.out.length < ((running 0 0 64 64 65 0).run.reg 1).toNat
      ∧ ((running 2 0 0 0 0 0).run.pc + (-2 : BitVec 15).toInt).toNat < 4 ∧ ((running 2 0 0 0 0 0).run.pc + (1 : BitVec 15).toInt).toNat < 4
      ∧ (running 0 0 0 1 2 0).run.reg 0 - 1 = 0 ∧ (running 0 0 0 1 2 0).run.reg 1 - 1 ≠ 0
      ∧ ((running 3 0 0 0 0 0).run.pc + 1 = (running 3 0 0 0 0 0).run.words.length
        ∧ (running 3 0 0 0 0 0).run.steps < 8 * (running 3 0 0 0 0 0).run.bs + 64) := by decide +kernel

/-- At the last of four words. -/
theorem witness_SluiceInstructions_last :
    let r := (running 3 16 0 0 0 0).run
    r.fin = .running ∧ r.words.length = 4 ∧ r.pc = 3 ∧ (3 + (-1 : BitVec 15).toInt).toNat < 4 ∧ 4 ≤ (3 + (1 : BitVec 15).toInt).toNat
      ∧ (r.steps + 1 ≤ 8 * r.bs + 64) := by decide +kernel

/-- A run that has taken every step of its budget. -/
def spent : State := { running 0 0 0 0 0 0 with run := { (running 0 0 0 0 0 0).run with steps := 576 } }

theorem witness_SluiceBudget :
    spent.run.steps ≤ 8 * spent.run.bs + 64 ∧ spent.run.next = some .sluiceEnd
      ∧ 8 * spent.run.bs + 64 < spent.run.steps + sluiceCost .sluiceEnd spent.run := by decide +kernel

/-- Slot A standing as given at an address. -/
def standing (st : Stand) (a : Nat) : State := onG fun g => { g with a := { g.a with stand := st, pc := BitVec.ofNat 57 a } }

/-- A header word of a class that is reserved, in the place of the clause's header. -/
def badHeader (st : Stand) : State := putBytes (standing st codeBase) 0 (leBytes 8 (fetchHeader 7))

theorem witness_ClausesTakePorts :
    (∀ st ∈ [Stand.arrived, .header], let s := standing st codeBase
      (cur s).stand = st ∧ wantsPort s = true ∧ takesPort s = true
        ∧ (arrive? s (cur s)).toOption.any (fun q => (fetchFails s q).isNone) = true)
      ∧ (let s := standing .paused (codeBase + 8)
        (cur s).stand = .paused ∧ wantsPort s = true ∧ takesPort s = true)
      ∧ (∀ s ∈ [standing .arrived (codeBase + 4), standing .arrived (codeBase + 8), badHeader .arrived, badHeader .header],
        canAct s s.slot = true ∧ s.g.haltDue = none)
      ∧ (standing .arrived (codeBase + 4)).g.a.pc.toNat % 8 ≠ 0
      ∧ (fetchWord (standing .arrived (codeBase + 4)) (standing .arrived (codeBase + 4)).g.a.pc).toOption.isSome = true
      ∧ (fetchWord (standing .arrived (codeBase + 8)) (standing .arrived (codeBase + 8)).g.a.pc).toOption.any
        (fun w => w.toNat / 2 ^ 56 != 0xca) = true
      ∧ (∀ st ∈ [Stand.arrived, .header], (cur (badHeader st)).stand = st ∧ (cur (badHeader st)).pc.toNat % 8 = 0
        ∧ (fetchWord (badHeader st) (cur (badHeader st)).pc).toOption.any (fun w => w.toNat / 2 ^ 56 == 0xca && !headerGood w) = true)
      ∧ (let s := onG fun g => { g with inflight := [flight] }
        s.g.inflight[0]? = some flight ∧ flight.until_ = .now) := by decide +kernel

/-- The team in focus as changed, at a cycle. -/
def teamed (now : Nat) (f : Team → Team) : State := { base with now := now, team := f base.team }

/-- The team's group has been stopped. -/
def stopped (s : State) : State := { s with g := { s.g with stopped := true } }

/-- A saved team waits at the head of the queue, alone on a device of cores 0 and 1. -/
def returning : State :=
  { second false with
    vd := { (second false).vd with waiting := [{ vd := 0, serial := 2 }], grids := [grid1], w := 1, cap := 100, pcores := 2 }
    partitions := [{ partition0 with cores := [0, 1] }] }

theorem witness_TeamStops :
    (∃ x, teamOf base fetchTeamRef = some x ∧ x.resident = true ∧ x.request = none)
      ∧ (let s := stopped (teamed (ms 2) fun t => { t with request := some (0, false) })
        (∃ x, teamOf s fetchTeamRef = some x ∧ x.resident = true ∧ x.stop = none ∧ x.ending = false ∧ x.request = some (0, false)
          ∧ x.request ≠ none ∧ 0 + ms 2 ≤ s.now)
        ∧ ∀ g ∈ groupsOf s fetchTeamRef, g.still = true ∧ g.entry = none ∧ g.stepping = none)
      ∧ (∃ u, focusTeam (stopped (teamed 0 fun t => { t with stop := some false })) fetchTeamRef = some u ∧ u.team.cluster = none
        ∧ canSave u u.team = true ∧ (let w := flushSamples (accrue (drainTeam u))
          (saveLive w w.team).team.poison = []))
      ∧ (∃ u, focusTeam (teamed (ms 10) fun t => { t with halted := true, stepSince := some 0 }) fetchTeamRef = some u ∧ u.team.halted = true
        ∧ stepRuns u fetchTeamRef = false ∧ u.team.stepSince = some 0 ∧ 0 + ms 10 ≤ u.now
        ∧ canSave { u with team := { u.team with stepSince := none } } { u.team with stepSince := none } = true) := by
  refine ⟨ex_some (by decide +kernel), ⟨ex_some (by decide +kernel), by decide +kernel⟩, ex_some (by decide +kernel),
    ex_some (by decide +kernel)⟩

theorem witness_TeamStops_restore :
    (returning.failed = false ∧ (deviceAt returning 0).any (fun d => (partitionOf returning d.partition).any fun p => isChosen returning p d) = true)
    ∧ ∃ u, deviceOnly returning 0 = some u ∧
      let q := settleQueue u
      ((if isStarved q then (candidates q).take 1 else candidates q).find? (fun c => (placeCand q c).isSome)).any
        (fun c => c.index == 0 && c.serial == 2 && (teamOf q { vd := 0, serial := 2 }).any (fun x => x.mode == .saved)
          && (placeCand q c).isSome) = true :=
  ⟨by decide +kernel, ex_some (by decide +kernel)⟩

/-- The partition of core 0 under a scheduler, and the device in focus as changed. -/
def shared (sched : Sched) (cores : List Nat) (now : Nat) (f : Device → Device) : State :=
  { base with now := now, partitions := [{ partition0 with sched := sched, cores := cores }], vd := f base.vd }

/-- Steps asked of a team: of a group that it does not have, of the other slot, which is not live, of one that runs, and of a saved
one that finds a set of cores or none. -/
theorem witness_DebugInstructions_begins :
    (let s := askingTeam id
     let t := s.teams.headD Team.idle
     (∀ g ∈ groupsOf s t.ref, g.ref.gid ≠ (7 : Word).toNat % 512)
        ∧ (groupsOf s t.ref).any (fun g => g.ref.gid == 0 && stepOk t g false 0 && !stepOk t g false 0x200 && !stepOk t g true 0x8000) = true
        ∧ (groupsOf s t.ref).length = 1 ∧ t.mode ≠ .saved)
      ∧ (let s := returning
        let t := s.teams.headD Team.idle
        let u : State := { s with partitions := [partition0], vd := { s.vd with pcores := 1 } }
        (restoreAll u t).isNone = true ∧ t.mode = .saved ∧ (restoreAll s t).isSome = true ∧ (groupsOf s t.ref).any (fun g => g.ref.gid == 0 && stepOk t g false 0) = true)
      := by decide +kernel

/-- Under reservation, a device with a waiting team and no core, and one of a later deadline whose team runs. -/
def contended : State :=
  let s := shared .reservation [] 0 fun d => { d with grids := [grid1], codes := [kernelCode], budget := 10, deadline := 5 }
  { s with devices := [{ base.vd with number := 1, deadline := 9 }], teams := [{ base.team with ref := { vd := 1, serial := 1 } }] }

/-- Every lane of the team's group has exited. -/
def finished (f : Team → Team) : State := { teamed 0 f with g := { base.g with exited := 0xffffffff } }

/-- The same, where the set of cores of the device has room for one of its two waiting teams only: the kernel of the other
asks for two cores. -/
def crowded : State :=
  let wide : Code := { kernelCode with serial := 2, kernels := [(1, { noKernel with cores := 2 })] }
  { contended with
    partitions := [{ partition0 with sched := .reservation, cores := [0] }]
    vd := { contended.vd with pcores := 1, codes := [kernelCode, wide], grids := [grid1, { grid1 with serial := 2, code := 2, kernel := 1 }] } }

/-- A team of the device is to be placed, under a scheduler that has chosen it: as placement answers, and whether a team of
it fits no set afterwards. -/
def placing (s : State) (p : Partition → Device → Option State → Bool) : Bool :=
  !s.failed && (deviceAt s 0).any fun d => (partitionOf s d.partition).any fun q => isChosen s q d && p q d (placeOf s 0)

theorem witness_TeamsComeAndGo :
    placing returning (fun q _ v => q.sched == .allowance && v.isSome) = true
      ∧ placing crowded (fun q d v => q.sched == .reservation
        && v.any fun v => hasMisfit v 0 && latestVictim v q d == some { vd := 1, serial := 1 }) = true
      ∧ placing { crowded with vd := { crowded.vd with grids := [grid1] } } (fun q _ v => q.sched == .reservation
        && v.any fun v => !hasMisfit v 0) = true
      ∧ placing { crowded with teams := [] } (fun q d v => q.sched == .reservation
        && v.any fun v => hasMisfit v 0 && (latestVictim v q d).isNone) = true
      ∧ placing contended (fun q d v => q.sched == .reservation && v.isNone && hasMisfit contended 0
        && latestVictim contended q d == some { vd := 1, serial := 1 }) = true := by decide +kernel

theorem witness_TeamsComeAndGo_end :
    (∃ u, focusDevice { shared .allowance [0] (ms 4) id with
        vd := { base.vd with head := some { level := 0, serial := 1, index := 1, since := 0, starved := false } } } 0 = some u
        ∧ u.vd.head.any (fun h => decide (h.since + ms 4 ≤ u.now) && !h.starved) = true)
      ∧ (∃ u, focusTeam (finished id) fetchTeamRef = some u ∧ canEnd u u.team = true ∧ u.team.relaunch = false ∧ u.team.cluster = none
        ∧ u.team.gaugers = [])
      ∧ (∃ u, focusTeam (finished fun t => { t with ending := true, relaunch := true }) fetchTeamRef = some u ∧ canEnd u u.team = true
        ∧ u.team.relaunch = true)
      ∧ (∃ u, focusTeam base fetchTeamRef = some u ∧ u.team.mode ≠ .lost ∧ u.team.ending = false) := by
  refine ⟨ex_some (by decide +kernel), ex_some (by decide +kernel), ex_some (by decide +kernel), ex_some (by decide +kernel)⟩

/-- A team with two samples to write; and one, halted or not, whose last sample is of the interval before this one, whatever its
core's CYCLE is. -/
def sampled2 : State := teamed 0 fun t => { t with samples := [(7, [1]), (8, [2])] }
def unsampled (halted : Bool) : Team := { base.team with halted := halted, sampled := (sampleNow base base.team + (2 ^ 44 - 1)) % 2 ^ 44 }

theorem witness_TeamsComeAndGo_sample :
    (focusTeam sampled2 fetchTeamRef = some sampled2 ∧ sampled2.team.samples = (7, [1]) :: [(8, [2])] ∧ sampled2.team.resident = true)
      ∧ (unsampled true).halted = true
      ∧ (unsampled false).halted = false ∧ (unsampled false).sampled < 2 ^ 44
      ∧ sampleNow base (unsampled false) = ((unsampled false).sampled + 1) % 2 ^ 44 := by
  have n : sampleNow base base.team < 2 ^ 44 := by
    unfold sampleNow
    have : cycleOf base (base.team.cores.headD 0) < 2 ^ 64 := by
      unfold cycleOf
      split
      · decide
      · exact Nat.mod_lt _ (by decide)
    omega
  refine ⟨⟨by decide +kernel, rfl, rfl⟩, rfl, rfl, Nat.mod_lt _ (by decide), ?_⟩
  show sampleNow base base.team = ((sampleNow base base.team + (2 ^ 44 - 1)) % 2 ^ 44 + 1) % 2 ^ 44
  omega

theorem witness_SchedulersAndCores_shares :
    (∃ p, partitionOf (shared .allowance [0] (ms 10) id) 0 = some p ∧ p.sched = .allowance ∧ p.windowStart + ms 10 ≤ ms 10
        ∧ p.windowStart + ms (p.boundaries + 1) ≤ ms 10)
      ∧ (let s := shared .allowance [0] 0 fun d => { d with cap := 100, usage := ms 10 }
        (∃ d, deviceAt s 0 = some d ∧ d.cap * d.pcores * ms 10 / 100 ≤ usageNow s d ∧ (partitionOf s d.partition).isSome = true)
          ∧ runsFree s 0 = true)
      ∧ (let s := shared .reservation [0] 7 fun d => { d with deadline := 7 }
        (∃ d, deviceAt s 0 = some d ∧ budgetNow s d = 0 ∧ d.alive = true ∧ d.deadline ≤ s.now
          ∧ (partitionOf s d.partition).any (fun p => p.sched == .reservation) = true) ∧ runsFree s 0 = true)
      ∧ (let s := shared .allowance [0] (ms 1) id
        s.meterAt + ms 1 ≤ s.now ∧ s.vd.meters.length = 8) := by
  refine ⟨ex_some (by decide +kernel), ⟨ex_some (by decide +kernel), by decide +kernel⟩, ⟨ex_some (by decide +kernel), by decide +kernel⟩, ?_⟩
  decide +kernel

/-- Core 511 as changed. -/
def cored (f : Core → Core) : State := onCore { base with partitions := [{ partition0 with cores := [0] }] } 511 f

theorem witness_SchedulersAndCores :
    (mrising (cored fun c => { c with hot := true }).cores = true ∧ 511 < 512 ∧ hotNow base (coreAt base 511) = false
        ∧ (let s := cored fun c => { c with hot := true, temp := 760 }
          hotNow s (coreAt s 511) = true) ∧ 720 < (721 : BitVec 12).toNat
        ∧ (759 : BitVec 12).toNat < 760 ∧ 760 ≤ (760 : BitVec 12).toNat ∧ (799 : BitVec 12).toNat < 800 ∧ 800 ≤ (800 : BitVec 12).toNat
        ∧ (879 : BitVec 12).toNat < 880 ∧ 880 ≤ (880 : BitVec 12).toNat
        ∧ ({ temp := 759, fixes := [(3, 31)] } : Reading).fixes = [(3, 31)] ∧ 3 < 4 ∧ 31 < 32 ∧ mrising (coreAt base 511).fixes = true)
      ∧ (let s := cored fun c => { c with droops := [0, 0] }
        mrising s.cores = true ∧ 2 ≤ ((coreAt s 511).droops.filter fun u => decide (s.now ≤ u + ms 1)).length)
      ∧ (List.replicate 512 (0 : BitVec 12)).length = 512 ∧ (880 : BitVec 12) ∈ List.replicate 511 0 ++ [880] := by decide +kernel

/-- A hot core whose reading is low: with a droop within 4 ms, one before, and none. -/
theorem witness_SchedulersAndCores_cools :
    ∀ d ∈ [[], [0], [1]], let s : State := { cored fun c => { c with hot := true, temp := 760, droops := d } with now := ms 4 + 1 }
      hotNow s (coreAt s 511) = true ∧ mrising s.cores = true ∧ (720 : BitVec 12).toNat ≤ 720
        ∧ ((∃ u ∈ (coreAt s 511).droops, s.now ≤ u + ms 4) ↔ d = [1]) := by decide +kernel

/-- Lane 31 of sub-core 3 of a core has failed: an error that its code cannot correct, or sixteen corrections within the hour. -/
def broke (n : Nat) (withdrawn : Bool) : State := onCore (cored id) n fun c => { c with broken := [64 * 3 + 31], withdrawn := withdrawn }
def worn (n : Nat) : State := cored fun c => { c with fixes := [(64 * 3 + 31, List.replicate n 0)] }

theorem witness_SchedulersAndCores_lanes :
    (∀ n ∈ [0, 511], ∀ w ∈ [false, true], mrising (broke n w).cores = true ∧ withdrawalDue (broke n w) n 3 31 = true
        ∧ (coreAt (broke n w) n).withdrawn = w)
      ∧ (∀ p ∈ (broke 511 false).partitions, 511 ∉ p.cores) ∧ ((broke 0 false).partitions.find? fun q => q.cores.contains 0).isSome = true
      ∧ laneFails (coreAt (worn 15) 511) 0 (64 * 3 + 31) = false ∧ laneFails (coreAt (worn 16) 511) 0 (64 * 3 + 31) = true
      ∧ laneFails (coreAt (worn 16) 511) (ms 3600000 + 1) (64 * 3 + 31) = false
      ∧ (let s := cored fun c => { c with withdrawn := true, failing := [(3, 31)], fixes := [(64 * 3 + 31, [0])] }
        mrising s.cores = true ∧ (coreAt s 511).withdrawn = true ∧ mget? (coreAt s 511).failing 3 = some 31
          ∧ (lsteerAt (coreAt s 511) 3).getLsbD 5 = false ∧ teamsOn s 511 = [] ∧ mrising (coreAt s 511).lsteer = true
          ∧ mrising (coreAt s 511).failing = true ∧ mrising (coreAt s 511).fixes = true ∧ (coreAt s 511).failing.length = 1)
      ∧ 512 ≤ 512 ∧ 4 ≤ 4 ∧ 32 ≤ 32 := by decide +kernel

/-! ### The hypotheses of the statements about jobs, memory, code and the host -/

def href : HRef := { vd := 0, origin := 0, kind := 0, serial := 1 }

/-- The one job of the device, in a state. -/
def jobbed (s : State) (j : Job) : State := { s with vd := { s.vd with jobs := [{ j with handle := hrefWord href }] } }

/-- A fill of 512 bytes that has not started. -/
def fresh : Job := { filling with card := BitVec.ofNat 512 (fillCard 0 0 + 496 * 2 ^ 32), started := false, moved := 0 }

/-- An `mstore` of tile 1 at row and column 0. -/
def storing1 : Job := { fresh with kind := .mstore 0 true 0, card := 0 }

/-- An entry of 128 rows of 128 columns of bf16. -/
def tiled : State := { base with vd := { base.vd with assay := [(0, BitVec.ofNat 512 (4 * 2 ^ 268 + 3 * 2 ^ 240 + 127 * 2 ^ 224 + 256 * 2 ^ 192))] } }

/-- A `cpym` of 16 bytes whose command is the gathered one. -/
def following : Job :=
  { fresh with kind := .cpym, started := true, card := BitVec.ofNat 512 (fillCard 0 4096 + 0x80000000 * 2 ^ 480) }

/-- A `cpym` whose copy has landed and whose command is to be sent, in a state. -/
def sends (s : State) (p : State → Job → Pass → Bool) : Bool :=
  (focusJob (jobbed s following) href).any fun e =>
    let r := moveAll e.1 e.2
    e.2.started && !e.2.sent && !e.2.cancel && e.1.team.resident && !sequencersFull e.1 e.2.place [0, 1, 2, 3] && follows r.1 r.2
      && p r.1 r.2 (followPass r.1 r.2)

/-- The quad of a pass of a job. -/
def quadHas (v : State) (j : Job) (p : Pass) : Bool := (quadOf v v.team.ref (natAt v.team.cores j.place) p.role p.quad).isSome

theorem witness_JobEvents :
    (∃ e, focusJob (jobbed base fresh) href = some e ∧ e.2.started = false ∧ e.2.preds = [] ∧ stillBehind e.1 e.2 = false ∧ e.2.kind = .fill)
      ∧ (∃ e, focusJob (jobbed tiled storing1) href = some e ∧ e.2.kind = .mstore 0 true 0
        ∧ mstoreOk (entryAt e.1.vd 0) ⟨e.2.card.toNat⟩ = true)
      ∧ mstoreOk (entryAt base.vd 0) ⟨storing1.card.toNat⟩ = false
      ∧ (∃ e, focusJob (jobbed base { fresh with started := true }) href = some e ∧ e.2.started = true ∧ e.2.cancel = false ∧ e.2.sent = false
        ∧ e.2.kind ≠ .cpym)
      ∧ (∃ e, focusJob (jobbed base { following with sent := true }) href = some e ∧ e.2.started = true ∧ e.2.sent = true
        ∧ followOn e.1 e.2 = false)
      ∧ (∃ e, focusJob (jobbed base { fresh with started := true, cancel := true, moved := 256 }) href = some e ∧ e.2.started = true
        ∧ e.2.cancel = true ∧ e.2.sent = false ∧ e.2.moved ≤ 512 ∧ 512 ≤ e.2.total ∧ e.2.moved ≤ 256)
      ∧ (∃ e, focusJob (jobbed tiled { storing1 with started := true, cancel := true }) href = some e ∧ e.2.kind = .mstore 0 true 0
        ∧ e.2.started = true ∧ e.2.cancel = true ∧ e.2.sent = false)
      ∧ (∃ e, focusJob (jobbed gauged { fresh with
          started := true, moved := 512, card := fresh.card + BitVec.ofNat 512 (2 ^ 21) }) href = some e ∧ e.2.started = true
        ∧ (jobGauge e.1 e.2).isSome = true ∧ e.2.counted + (512 : Word).toNat ≤ e.2.total ∧ ¬ e.2.moved < e.2.counted + (512 : Word).toNat
        ∧ e.2.counted + (512 : Word).toNat ≤ e.2.moved)
      ∧ sends (quad none []) (fun v j p => quadHas v j p && cmdBits p.m1 0 4 == 0 && p.gathered && passOk v p
        && decide (p.breg + 16 ≤ (v.team.kernel.roles.getD p.role { groups := 0, vregs := 0, sregs := 0 }).vregs)) = true
      ∧ sends base (fun v j p => !quadHas v j p) = true
      ∧ sends (blank (quad none [])) (fun v j p => quadHas v j p && !followOk v p) = true := by
  refine ⟨ex_some (by decide +kernel), ex_some (by decide +kernel), by decide +kernel, ex_some (by decide +kernel), ex_some (by decide +kernel),
    ex_some (by decide +kernel), ex_some (by decide +kernel), ex_some (by decide +kernel), by decide +kernel, by decide +kernel,
    by decide +kernel⟩

/-- A block that the cache of a die or the memory side holds. -/
def block (va : Nat) : Block := { bytes := List.replicate 256 0, dirty := true, poison := [], vd := 0, va := va }

/-- A page of another module's memory at 1 GiB, of whose first line die 0 has written the first byte and the last. -/
def far : State :=
  { mapPage base (2 ^ 30) (2 ^ 40) 2 11 with peerLines := [(lineKey 0 (2 ^ 40), { block (2 ^ 30) with wrote := [0, 255] })] }

/-- The device's binding of slot 3 over the first 2 MiB, as changed. -/
def sluiced (f : Sluice → Sluice) : State :=
  { base with vd := { base.vd with bindings := [(3, f (newBinding ⟨0x200000 * 2 ^ 64⟩ ([0], []) ([0], [])))] } }

/-- Errors of storage that leave the first and the last sector of a line uncorrectable. -/
def struck : StoreErrs := { beats := [(3, 9), (4, 8), (4, 2)], fixed := [1], soft := 1, bad := [0, 7] }

/-- A write-back of a block of 64 bytes at VA 0 waits. -/
def encoding (f : Sluice → Sluice) (e : List Encode) : State := { sluiced f with encodes := e }
def waits : Encode := { vd := 0, pa := 2 ^ 30, va := 0, bytes := List.replicate 64 1 }

/-- A block of the binding, cached, dirty or not. -/
def cachedBlock (dirty : Bool) : State :=
  { sluiced id with cache := [(2 ^ 30, { bytes := List.replicate 64 1, dirty := dirty, poison := [], vd := 0, va := 0 })] }

/-- Errors that leave no sector uncorrectable. -/
def mended : StoreErrs := { struck with beats := [(3, 8)], bad := [] }

/-- A binding of a block that a group has a queued store to. -/
def stored0 (s : State) : State := { s with g := { s.g with stores := [{ cells := [(place 3, 5)] }] } }

theorem witness_CacheEvents :
    (0 ∈ lostSectors struck false ∧ 3 ∈ lostSectors struck false ∧ 4 ∉ lostSectors struck false ∧ 7 ∈ lostSectors struck true
        ∧ 3 ∉ lostSectors struck true ∧ lostSectors mended false = [] ∧ mrising base.dies = true)
      ∧ (∃ u, deviceOnly base 0 = some u ∧ walk u u.vd 0 = .leaf (2 ^ 30) false false true true ∧ bindingAt u.vd 0 = none
        ∧ mget? base.lines (2 ^ 30 / 256) = none) := by
  refine ⟨by decide +kernel, ex_some (by decide +kernel)⟩

/-- The block is asked for or not, and cached or not. -/
theorem witness_CacheEvents_blocks :
    (∀ s ∈ [sluiced id, stored0 (sluiced id), cachedBlock false, stored0 (cachedBlock true)], ∃ u, deviceOnly s 0 = some u
        ∧ walk u u.vd 0 = .leaf (2 ^ 30) false false true true
        ∧ (bindingAt u.vd 0).any (fun e => e.2.bs == 64 && (wanted u e.2 (2 ^ 30) 0 == !s.g.stores.isEmpty)
          && (List.range 3).all fun k => !wanted u e.2 (2 ^ 30 + 64 * (k + 1)) (64 * (k + 1))) = true
        ∧ (sluicedVa u u.vd (2 ^ 30)).any (fun e => e.2 == 0 && e.1.bs == 64) = true
        ∧ (mget? u.cache (2 ^ 30)).isSome = !s.cache.isEmpty)
      ∧ (∀ dirty ∈ [false, true], (∀ x ∈ (cachedBlock dirty).encodes, ¬ (x.vd = (cachedBlock dirty).vd.number ∧ x.pa = 2 ^ 30))
        ∧ (mget? (cachedBlock dirty).cache (2 ^ 30)).any (fun b => b.dirty == dirty && b.poison == []
          && (bindingAt (cachedBlock dirty).vd b.va).any fun e => !e.2.unbinding) = true) := by
  refine ⟨?_, by decide +kernel⟩
  simp only [List.mem_cons, List.not_mem_nil, or_false]
  rintro s (rfl | rfl | rfl | rfl) <;> exact ex_some (by decide +kernel)

theorem witness_CacheEvents_lines :
    (∃ u, deviceOnly far 0 = some u ∧ walk u u.vd (2 ^ 30) = .leaf (2 ^ 40) true false true true ∧ peerKeys u (2 ^ 40) ≠ []
        ∧ mrising u.peerLines = true ∧ mrising u.peer = true
        ∧ ∀ k ∈ peerKeys u (2 ^ 40), (mget? u.peerLines k).any (fun b => b.dirty && b.wrote == [0, 255]) = true)
      ∧ (∀ dirty ∈ [false, true], ∃ u, deviceOnly { base with lines := [(2 ^ 22, dirty)] } 0 = some u
        ∧ (let v (e : StoreErrs) : State := strikeLine u (2 ^ 30) 0 false e
          (blocksIn (v struck) (2 ^ 30) = [] ∧ mget? (v struck).lines (2 ^ 30 / 256) = some true)
            ∧ blocksIn (v mended) (2 ^ 30) = [] ∧ mget? (v mended).lines (2 ^ 30 / 256) = some dirty) ∧ mrising u.lines = true)
      ∧ (∃ u, deviceOnly { base with cache := [(2 ^ 30, block 0)] } 0 = some u ∧ blocksIn (strikeLine u (2 ^ 30) 0 false struck) (2 ^ 30) ≠ [])
      ∧ (∃ u, deviceOnly (encoding id [waits]) 0 = some u ∧ (u.encodes.find? fun y => y.vd == 0 && y.pa == 2 ^ 30) = some waits
        ∧ (bindingAt u.vd waits.va).any (fun e => !e.2.unbinding) = true ∧ Memory.wf (encoding id [waits]).mem = true) := by
  refine ⟨ex_some (by decide +kernel), ?_, ex_some (by decide +kernel), ex_some (by decide +kernel)⟩
  simp only [List.mem_cons, List.not_mem_nil, or_false]
  rintro dirty (rfl | rfl) <;> exact ex_some (by decide +kernel)

/-- The metadata word of the first block of a binding holds a byte: 0x80 is raw and unchecked. -/
def worded (x : Byte) (f : Sluice → Sluice) : State :=
  let s := sluiced f
  putBytes s (metaPa s.vd (newBinding ⟨0x200000 * 2 ^ 64⟩ ([0], []) ([0], [])) (2 ^ 30)) [x]

/-- The first block of a job, in a binding whose word is as given, after the encodes that wait for it. -/
def atFirst (x : Byte) (f : Sluice → Sluice) (p : State → Sluice → Bool) : Bool :=
  (deviceOnly (worded x f) 0).any fun u => (mget? u.vd.bindings 3).any fun sl =>
    sl.bs != 0 && decide (sl.bs * sl.cursor < sl.len) && decide (walk u u.vd (sl.base + sl.bs * sl.cursor) = .leaf (2 ^ 30) false false true true)
      && p (finishEncodes u (2 ^ 30) (2 ^ 30 + sl.bs)) sl

/-- The same where the cache holds the block with a poisoned sector, clean; and where the first table word is poisoned. -/
def soured (f : Sluice → Sluice) : State :=
  { worded 0 f with cache := [(2 ^ 30, { bytes := List.replicate 64 1, dirty := false, poison := [1], vd := 0, va := 0 })] }
def lostTable (f : Sluice → Sluice) : State := { sluiced f with poison := [base.vd.root / 32] }

theorem witness_BackgroundJobs_poison :
    ∀ b ∈ [true, false], let f (sl : Sluice) : Sluice := { sl with tc := b, unbinding := !b }
      (∃ u, deviceOnly (soured f) 0 = some u ∧ (let v := finishEncodes u (2 ^ 30) (2 ^ 30 + 64)
        (mget? v.cache (2 ^ 30)).any (fun y => !y.dirty && y.poison == [1]) = true
          ∧ (mget? v.vd.bindings 3).any (fun sl => isCurrent v sl (2 ^ 30)) = true))
      ∧ ∃ u, deviceOnly (lostTable f) 0 = some u ∧ walk u u.vd 0 = .poisoned base.vd.root
        ∧ (mget? u.vd.bindings 3).any (fun sl => sl.tc == b && sl.unbinding == !b && sl.base + sl.bs * sl.cursor == 0) = true := by
  simp only [List.mem_cons, List.not_mem_nil, or_false]
  rintro b (rfl | rfl) <;> exact ⟨ex_some (by decide +kernel), ex_some (by decide +kernel)⟩

theorem witness_BackgroundJobs :
    (atFirst 0 (fun sl => { sl with tc := true }) (fun v sl => sl.tc && isCurrent v sl (2 ^ 30)) = true
        ∧ atFirst 0x80 (fun sl => { sl with tc := true }) (fun v sl => sl.tc && !isCurrent v sl (2 ^ 30)) = true)
      ∧ (atFirst 0x80 (fun sl => { sl with unbinding := true })
          (fun v sl => sl.unbinding && !sl.tc && (mget? v.cache (2 ^ 30)).isNone && isRaw v sl (2 ^ 30)) = true
        ∧ atFirst 0 (fun sl => { sl with unbinding := true }) (fun v sl => sl.unbinding && !sl.tc && !isRaw v sl (2 ^ 30)) = true)
      ∧ (∀ b ∈ [true, false], ∃ u, deviceOnly (sluiced fun sl => { sl with tc := b, unbinding := !b, cursor := 32767 }) 0 = some u
        ∧ (mget? u.vd.bindings 3).any (fun sl => sl.tc == b && sl.unbinding == !b && decide (sl.bs ≠ 0) && decide (sl.bs * sl.cursor < sl.len))
          = true
        ∧ walk u u.vd (64 * 32767) = .leaf (2 ^ 30 + 64 * 32767) false false true true ∧ mrising u.vd.bindings = true)
      ∧ (∀ b ∈ [true, false], ∃ u, deviceOnly (sluiced fun sl => { sl with tc := b, unbinding := !b, cursor := 32768 }) 0 = some u
        ∧ (mget? u.vd.bindings 3).any (fun sl => sl.tc == b && sl.unbinding == !b && decide (sl.bs ≠ 0) && decide (sl.len ≤ sl.bs * sl.cursor))
          = true ∧ mrising u.vd.bindings = true)
      ∧ ∀ b ∈ [true, false], ∃ u, deviceOnly (sluiced fun sl => { sl with tc := b, unbinding := !b, base := 2 ^ 30 }) 0 = some u
        ∧ (mget? u.vd.bindings 3).any (fun sl => sl.tc == b && sl.unbinding == !b && decide (sl.bs * sl.cursor < sl.len)) = true
        ∧ (match walk u u.vd (2 ^ 30) with | .fault _ => true | _ => false) = true := by
  refine ⟨by decide +kernel, by decide +kernel, ?_, ?_, ?_⟩ <;> simp only [List.mem_cons, List.not_mem_nil, or_false] <;>
    rintro b (rfl | rfl) <;> exact ex_some (by decide +kernel)

/-- Port 15 in a state, with a number of replays. -/
def ported (m : PortState) (n : Nat) : State := { base with ports := [(15, { mode := m, replays := n })] }

/-- The last block of device 0's memory is 1 GiB above the first: what a peer asks of it, or of more than it. -/
def peered (p : State → List (Byte × Bool) → Bool) (pa len : Nat) : Bool :=
  (ownerOf base pa).any fun d => decide (pa + len ≤ d.memPa + d.gib * 2 ^ 30) && (deviceOnly base d.number).any fun u =>
    let v := ((List.range len).map fun i => peerPlace u (pa + i)).foldl readyAtomic (meter u 6 len)
    p v (((List.range len).map fun i => peerPlace u (pa + i)).map (locByte v))

theorem witness_MemoryUpkeep :
    (7 < 8 ∧ 31 < 32 ∧ 65535 < 65536 ∧ (mget? ({ base with refreshing := [(32 * 7 + 31, 0)] } : State).refreshing (32 * 7 + 31)).isSome = true
        ∧ (∀ k ∈ [(7 * 2 ^ 36 + 65535 * 2 ^ 20 + 31 * 2 ^ 15) / 32] ++ [(7 * 2 ^ 36 + 65535 * 2 ^ 20 + 32 * 2 ^ 15 - 1) / 32],
          sectorInRow 7 31 65535 k = true) ∧ mrising base.dies = true
        ∧ (∀ c ∈ [32, 64], classAt { base with classes := [(rowKey 7 31 65535, c)] } (rowKey 7 31 65535) = c))
      ∧ (Memory.wf base.mem = true ∧ inRanges ({ base with marked := [(32768, 32769)] } : State).marked 32768 = true ∧ 32768 < 16777216)
      ∧ (∃ u, deviceOnly storing 0 = some u ∧ (∀ e ∈ [(⟨4, base.vd.root, 0⟩ : PtEdit)], isTableWord u.vd e.pa = true)
        ∧ Config.memBytes ≤ base.vd.root
        ∧ (let v := onGroups ((u.groups.filter fun g => g.ref.team.vd == 0).foldl (fun y g => g.stores.foldl (fun y q => putVisible y q.cells) y) u)
            (fun g => g.ref.team.vd == 0) fun g => { g with stores := [] }
          (deviceOnly ((v.vd.jobs.map (·.handle)).foldl finishPages v) 0).any (fun w => mrising w.ptes) = true))
      ∧ (linked base = true ∧ linkUp base = true ∧ (let s : State := { base with ports := (List.range 16).map fun n => (n, { mode := .down, replays := 0 }) }
        linked s = false ∧ linkUp s = false))
      ∧ (peerOpOk (2 ^ 31) 1 .load = true ∧ (ownerOf base (2 ^ 31)).isNone = true)
      ∧ (peerOpOk (2 ^ 31 - 1) 2 .load = true ∧ (ownerOf base (2 ^ 31 - 1)).any (fun d => decide (d.memPa + d.gib * 2 ^ 30 < 2 ^ 31 - 1 + 2)
          && (deviceOnly base d.number).isSome) = true)
      ∧ (peered (fun _ _ => true) (2 ^ 31 - 1) 1 = true ∧ 0 < 1 ∧ [(7 : Byte)].length = 1)
      ∧ (∀ len ∈ [4, 8], (2 ^ 31 - 8) % len = 0 ∧ peered (fun _ old => old.all fun b => !b.2) (2 ^ 31 - 8) len = true)
      ∧ (∀ s ∈ [ported .up 7, ported .up 8, ported .retraining 0], 15 < Config.aditPorts ∧ mrising s.ports = true)
      ∧ (flitOk [] = false ∧ (portAt (ported .up 7) 15).mode = .up ∧ (portAt (ported .up 7) 15).replays < 8 ∧ 8 ≤ (portAt (ported .up 8) 15).replays
        ∧ (portAt (ported .retraining 0) 15).mode = .retraining
        ∧ (∀ k < Config.aditPorts, (portAt { base with ports := (List.range 16).map fun n => (n, { mode := .down, replays := 0 }) } k).mode = .down)
        ∧ ∃ k < Config.aditPorts, k ≠ 15 ∧ (portAt (ported .retraining 0) k).mode ≠ .down)
      ∧ (∃ u, deviceOnly far 0 = some u ∧ walk u u.vd (2 ^ 30) = .leaf (2 ^ 40) true false true true
        ∧ mget? u.peerLines (lineKey 3 (2 ^ 40)) = none ∧ (mget? u.peerLines (lineKey 0 (2 ^ 40))).isSome = true
        ∧ ∃ k ∈ peerKeys u (2 ^ 40), (mget? u.peerLines k).any (·.dirty) = true) := by
  refine ⟨by decide +kernel, by decide +kernel, ex_some (by decide +kernel), by decide +kernel, by decide +kernel, by decide +kernel,
    by decide +kernel, by decide +kernel, by decide +kernel, by decide +kernel, ex_some (by decide +kernel)⟩

/-- A team whose started pass has a step to go, or none; and every port down. -/
def underPass (step : Nat) : State := quad none [{ gatheredStep with step := step, steps := 1 }]

def portsDown (s : State) : State := { s with ports := (List.range 16).map fun n => (n, { mode := .down, replays := 0 }) }

theorem witness_MemoryUpkeep_waits :
    (∀ n ∈ [0, 1], (deviceOnly (underPass n) 0).any (fun u => (u.teams.any fun x => x.ref.vd == 0 && readsPages x) == (n == 0)
        && isTableWord u.vd base.vd.root) = true)
      ∧ linkUp (portsDown base) = false ∧ linkUp base = true := by decide +kernel

/-- The command port is open. -/
def opened (f : State → State) : State := { f base with portOpen := true, partitions := [{ partition0 with cores := [0] }] }

/-- A message for a device, with its payload's length. -/
def header (vd n : Nat) : CmdHdr := { tag := 1, plen := w32 n, rsvHi := 0, rsvLo := 0, vd := BitVec.ofNat 6 vd }

/-- A segment at 0 of an object of 16 bytes: 8 bytes, or all of it as the last one. -/
def segment (last : Bool) : List Byte :=
  leBytes 8 0 ++ leBytes 4 16 ++ leBytes 4 last.toNat ++ List.replicate (if last then 16 else 8) 0

/-- A kernel with one role of one group, and objects of it and of a kernel without roles. -/
def kernel1 : KernelDecl := { noKernel with codeLen := 16, roles := [{ groups := 1, vregs := 16, sregs := 16 }] }
def object (k : KernelDecl) : CodeObj := { kernels := [k], words := [0, 0] }

/-- A tensor copied to an address, 16 bytes of it. -/
def tensor (dst : Nat) : List Byte := leBytes 8 0 ++ leBytes 8 16 ++ leBytes 8 dst ++ leBytes 8 16 ++ List.replicate 32 0

/-- An intake load of one tensor, whose input has arrived or not. -/
def load (dst : Nat) (done : List Nat) : Load :=
  { handle := hrefWord href, tag := 1, set := 0, conn := 0, key := 0, start := 0, len := 256, tensors := [tensor dst], reads := [{ tensor := 0, qpn := 7, remoteQpn := 0, key := 0, addr := 0, len := 16 }], done := done, qs := false
    sb := false, poisoned := false, cancel := false }

def loading (l : Load) : State := { base with vd := { base.vd with loads := [l] } }

/-- A LOAD_WEIGHTS payload of one tensor for an extent at an address. -/
def weights (start : Nat) : List Byte :=
  [0, 5] ++ leBytes 2 1 ++ leBytes 4 0 ++ leBytes 8 start ++ leBytes 8 256 ++ List.replicate 40 0 ++ tensor start

/-- Connection 5 of device 0 is open. -/
def connected : State := { opened id with conns := [{ number := 5, qpn := 7, vd := 0, payload := [] }] }

theorem witness_LoadsAndCode :
    (∀ d ∈ [0, 2 ^ 40], ∃ e, focusLoad (loading (load d [])) href = some e ∧ e.2.tensors[0]? = some (tensor d) ∧ (∃ r ∈ e.2.reads, r.tensor = 0)
        ∧ Tensor.takes ⟨tensor d⟩ (List.replicate 16 1) [] [] = true
        ∧ ((writeTensor e.1 ⟨tensor d⟩ (List.replicate 16 1) [] []).2.1 = 0 ↔ d = 0))
      ∧ (∃ e, focusLoad (loading (load 0 [0])) href = some e ∧ (∀ k < e.2.tensors.length, k ∈ e.2.done))
      ∧ (∃ u, deviceOnly { base with vd := { base.vd with codes := [{ kernelCode with kernels := [(0, kernel1)] }] } } 0 = some u
        ∧ (markObject (object kernel1)).kernels = [kernel1]
        ∧ (kernelOf u.vd 0).any (fun e => e.2.params == kernel1.params) = true ∧ kernelOk u.vd.sumpLimit (object kernel1).words kernel1 = true
        ∧ (addCode u (markObject (object kernel1)) [0]).isSome = true) := by
  refine ⟨?_, ex_some (by decide +kernel), ex_some (by decide +kernel)⟩
  simp only [List.mem_cons, List.not_mem_nil, or_false]
  rintro d (rfl | rfl) <;> exact ex_some (by decide +kernel)

/-- The state when a message with a payload has been received for the device in focus. -/
def received (u : State) (p : List Byte) : State := meter u 6 (16 + p.length)

/-- The load that LOAD_WEIGHTS makes, with the reads that it issues. -/
def askedLoad (u : State) (p : List Byte) : Load :=
  let q := (newHandle (received u p) 0 3).1
  let l := newLoad (header 0 128) p (newHandle (received u p) 0 3).2
  { l with reads := if loadRefused q l then [] else readsOf q l }

/-- The state when LOAD_WEIGHTS has answered with a handle. -/
def asked (u : State) (p : List Byte) : State :=
  let q := (newHandle (received u p) 0 3).1
  let h := (newHandle (received u p) 0 3).2
  answer { q with vd := { q.vd with loads := q.vd.loads ++ [askedLoad u p] } } (header 0 128) 5 0 (leBytes 8 h.toNat)

theorem witness_LoadsAndCode_commands :
    (hears connected = true ∧ connected.failed = false)
      ∧ ∃ u, deviceOnly connected (header 0 24).vd.toNat = some u
        ∧ (∀ p ∈ [segment false, segment true, weights 0, weights (2 ^ 40)], headerClean (header 0 p.length) p = true)
        ∧ (addSegment (some { total := 32, next := 0, bytes := [] }) (segment false)).isNone = true
        ∧ (addSegment u.vd.assembling (segment false)).isSome = true ∧ byteField (segment false) 12 4 ≠ 1
        ∧ (addSegment u.vd.assembling (segment true)).isSome = true ∧ byteField (segment true) 12 4 = 1
        ∧ (let v := received u (segment true)
          (loadObject { v with vd := { v.vd with assembling := none } } (object noKernel)).isNone = true
          ∧ (loadObject { v with vd := { v.vd with assembling := none } } (object kernel1)).isSome = true
          ∧ weightsFormed v (segment true) = false)
        ∧ weightsFormed (received u (weights 0)) (weights 0) = true
        ∧ weightsFormed (received u (weights (2 ^ 40))) (weights (2 ^ 40)) = true
        ∧ (∀ d ∈ [0, 2 ^ 40], loadRefused (asked u (weights d)) (askedLoad u (weights d)) = decide (d ≠ 0)) := by
  refine ⟨by decide +kernel, ex_some (by decide +kernel)⟩

/-- A CREATE_DEVICE payload that joins partition 0 with a weight, a cap and an amount of memory. -/
def create (w cap gib : Nat) : List Byte :=
  leBytes 2 0 ++ [0, 0] ++ leBytes 1 w ++ leBytes 1 cap ++ [0, 0] ++ leBytes 8 0 ++ leBytes 4 gib ++ leBytes 8 0 ++ List.replicate 100 0

/-- A HOST_LAUNCH payload of a grid of one team of kernel 0. -/
def ask : List Byte := leBytes 64 (2 ^ 64 + 2 ^ 96 + 2 ^ 112)

/-- An OPEN_INTAKE_CONNECTION payload for port 1, IPv4. -/
def connect : List Byte := [1, 4, 1, 63] ++ List.replicate 76 0

theorem witness_HostCommands :
    (hears (opened id) = true ∧ (opened id).failed = false ∧ 9 < (10 : Byte).toNat ∧ hears (opened fun s => { s with failed := true }) = true)
      ∧ ((deviceOnly (opened id) (header 5 0).vd.toNat).isNone = true ∧ (opened id).gone.contains (header 5 0).vd.toNat = false
        ∧ (opened fun s => { s with gone := [5] }).gone.contains (header 5 0).vd.toNat = true)
      ∧ (∃ u, deviceOnly (opened id) (header 0 0).vd.toNat = some u ∧ headerClean (header 0 1) [] = false ∧ headerClean (header 0 0) [] = true
        ∧ headerClean (header 0 32) (List.replicate 32 0) = true ∧ headerClean (header 0 64) ask = true
        ∧ (launchKernel (received u ask) ask).isNone = true
        ∧ headerClean (header 0 80) connect = true ∧ connFormed connect = true ∧ byteField connect 0 1 ≤ 1 ∧ (freeConn (received u connect)).isSome = true
        ∧ (partitionOf u u.vd.partition).any (fun p => p.sched == .allowance) = true
        ∧ byteField (2 :: connect.drop 1) 0 1 > 1 ∧ (∀ x ∈ [[1, 1], [255, 100], [0, 1], [1, 0], [1, 101]], let p : List Byte := x ++ List.replicate 14 0
          p.length = 16 ∧ zeroField p 2 2 = true ∧ zeroField p 12 4 = true ∧ byteField p 4 4 = 0 ∧ byteField p 8 4 = 0))
      ∧ (∃ u, deviceOnly (opened fun s => { s with vd := { s.vd with codes := [kernelCode] } }) (header 0 64).vd.toNat = some u
        ∧ (launchKernel (received u ask) ask).any (fun e => canEverFit (received u ask) u.vd e.2.2 && (poolRoom u.vd.pool [areaBytes e.2.2]).any fun l => l.length == 1) = true
        ∧ queued u.vd < Config.gridQueue) := by
  refine ⟨by decide +kernel, by decide +kernel, ex_some (by decide +kernel), ex_some (by decide +kernel)⟩

theorem witness_HostCommands_unknown :
    (deviceOnly (opened id) (header 5 0).vd.toNat).isNone = true ∧ (deviceOnly (opened id) (header 0 0).vd.toNat).isSome = true
      ∧ hears (opened fun s => { s with failed := true }) = true ∧ (0 : Byte) = 0 ∧ 9 < (10 : Byte).toNat := by decide +kernel

theorem witness_HostCommands_create :
    (∀ p ∈ [create 1 101 1, create 1 100 1], headerClean (header 0 128) p = true ∧ Create.formed (opened id) ⟨p⟩ = true)
      ∧ (Create.part (opened id) ⟨create 1 101 1⟩).any (fun q => !Create.admitted (opened id) ⟨create 1 101 1⟩ q) = true
      ∧ (Create.part (opened id) ⟨create 1 100 1⟩).any (fun q => Create.admitted (opened id) ⟨create 1 100 1⟩ q
        && (findPlaces (opened id) 1 q.cores.length 4096).isSome) = true
      ∧ (freeNumber (opened id)).isSome = true ∧ scratchFree (opened id) (Create.sc ⟨create 1 100 1⟩) = true := by decide +kernel

/-- Malformed creations, and well-formed ones that find no room: no number, no memory or no scratchpad. -/
theorem witness_HostCommands_room :
    Create.formed (opened id) ⟨create 1 100 0⟩ = false ∧ headerClean (header 0 127) (create 1 100 1) = false
      ∧ (let s := opened fun s => { s with devices := (List.range 63).map fun n => { base.vd with number := n + 1, partition := 9 } }
        (freeNumber s).isNone = true ∧ Create.formed s ⟨create 1 100 1⟩ = true
          ∧ (Create.part s ⟨create 1 100 1⟩).any (Create.admitted s ⟨create 1 100 1⟩) = true)
      ∧ (Create.formed (opened id) ⟨create 1 100 4096⟩ = true ∧ (Create.part (opened id) ⟨create 1 100 4096⟩).any
        (fun q => Create.admitted (opened id) ⟨create 1 100 4096⟩ q && (findPlaces (opened id) 4096 q.cores.length 4096).isNone) = true)
      ∧ (let s := opened fun s => { s with vd := { s.vd with scUnits := [Config.scratchUnits + 1] } }
        scratchFree s (Create.sc ⟨create 1 100 1⟩) = false ∧ (Create.part s ⟨create 1 100 1⟩).any (Create.admitted s ⟨create 1 100 1⟩) = true) := by
  decide +kernel

/-- A launch that no set of cores could hold, one beside a full queue of grids; and no connection that is free. -/
theorem witness_HostCommands_launch :
    (let s := opened fun s => { s with vd := { s.vd with codes := [{ kernelCode with kernels := [(0, { noKernel with cores := 2 })] }] } }
      ∃ u, deviceOnly s 0 = some u ∧ (launchKernel (received u ask) ask).any (fun e => !canEverFit (received u ask) u.vd e.2.2) = true)
      ∧ (let s := opened fun s => { s with vd := { s.vd with codes := [kernelCode], grids := List.replicate 1024 grid1 } }
        ∃ u, deviceOnly s 0 = some u ∧ Config.gridQueue ≤ queued u.vd
          ∧ (launchKernel (received u ask) ask).any (fun e => canEverFit (received u ask) u.vd e.2.2) = true)
      ∧ ∃ u, deviceOnly (opened fun s => { s with conns := (List.range 32).map fun n => { number := n, qpn := n, vd := 0, payload := [] } }) 0 = some u
        ∧ (freeConn (received u connect)).isNone = true ∧ connFormed connect = true := by
  refine ⟨ex_some (by decide +kernel), ex_some (by decide +kernel), ex_some (by decide +kernel)⟩

/-- A CHANGE_SHARE payload of a weight, a cap, a period and a budget. -/
def share (w cap t q : Nat) : List Byte := [BitVec.ofNat 8 w, BitVec.ofNat 8 cap, 0, 0] ++ leBytes 4 t ++ leBytes 4 q ++ leBytes 4 0

/-- Under reservation a share that fits, at both ends of its range, and one that does not: its period, its budget, or beside the
other shares of the partition. -/
theorem witness_HostCommands_share :
    let s := opened fun s => { s with
      partitions := [{ partition0 with sched := .reservation, cores := [0] }], vd := { s.vd with pcores := 1 }
      devices := [{ base.vd with number := 1, t := 100, q := 90, pcores := 1 }] }
    ∃ u, deviceOnly { s with partitions := [{ partition0 with sched := .reservation, cores := [0] }] } 0 = some u
      ∧ (∀ x ∈ [share 0 0 100 4, share 0 0 1000000 1, share 0 0 99 1, share 0 0 100 101, share 0 0 100 20, share 1 0 100 4],
        headerClean (header 0 16) x = true ∧ x.length = 16 ∧ zeroField x 2 2 = true ∧ zeroField x 12 4 = true)
      ∧ (partitionOf u u.vd.partition).any (fun p => p.sched == .reservation
        && (let fits (t q : Nat) : Bool := sharesFit ((devicesOf u p).filter fun d => d.number != 0) u.vd.pcores t q
          fits 100 4 && fits 1000000 1 && !fits 100 20)) = true :=
  ex_some (by decide +kernel)

/-- Whether the root of trust's signature verifies is a free value, so that in every state one of the two cases holds. -/
theorem witness_HostCommands_signature (s : State) : signatureGood s = true ∨ signatureGood s = false := by
  cases signatureGood s <;> simp

/-! ### The hypotheses of the statements about encodings and the machine -/

theorem witness_EncodeDecode :
    Budget.full.v ≤ 512 ∧ Budget.full.s ≤ 192 ∧ Budget.full.queues.length ≤ 8
      ∧ WellFormed Budget.full (.fma .f32 .rz (.v 511) (.v 1) (.s 191) .zero) = true
      ∧ (encode (.fma .f32 .rz (.v 511) (.v 1) (.s 191) .zero)).isSome = true := by decide +kernel

theorem witness_WordsHaveOneMeaning :
    (decodeWord Budget.full 0 0x4318140080401900).toOption.isSome = true
      ∧ (encodeSluice (.sluiceAddImm 0xd 0x2 0x2abc)).isSome = true ∧ WellFormed Budget.full (.sluiceAddImm 0xd 0x2 0x2abc) = true
      ∧ (decodeSluice 0x5e906abc).isSome = true := by decide +kernel

/-- The machine with one move to come. -/
def moving (m : Move) : State := { base with agenda := [m] }

theorem witness_StepRunsDecoded :
    (moving (.issue fetchRef .A)).agenda = [.issue fetchRef .A]
      ∧ (focusGroup { beforeMove (moving (.issue fetchRef .A)) with agenda := [] } fetchRef).any (fun t =>
        let u : State := { t with slot := .A }
        canAct u .A && u.g.haltDue.isNone && (cur u).stand == .issuing && !flagsPending u
          && (fetchWord u (cur u).pc).toOption.any (fun w =>
            (decodeWord (budgetOf u) ((cur u).head.toNat / 2 ^ 49 % 8) w.toNat).toOption == some .nop)
          && !isBarrier .nop && !writesLocked u .nop && !waitsOwn u .nop && !escalates u .nop && (coreAt u u.g.core).canaries == []) = true
      ∧ (moving (.event .coldPlateFault)).agenda = [.event .coldPlateFault]
      ∧ ((moving (.groupEvent fetchRef .B .joinResume)).agenda = [.groupEvent fetchRef .B .joinResume]
        ∧ (focusGroup { beforeMove (moving (.groupEvent fetchRef .B .joinResume)) with agenda := [] } fetchRef).isSome = true)
      ∧ (let s := State.reset.withFetchWord 32 0
        s.agenda = [.sluice 0] ∧ (focusRun { beforeMove s with agenda := [] } 0).any (fun t =>
          decide (t.run.next = some .sluiceEnd) && !t.run.overBudget .sluiceEnd) = true)
      ∧ (let s : State := { spent with agenda := [.sluice 0] }
        s.agenda = [.sluice 0] ∧ (focusRun { beforeMove s with agenda := [] } 0).any (fun t =>
          decide (t.run.next = some .sluiceEnd) && t.run.overBudget .sluiceEnd) = true) := by
  decide +kernel

/-- The machine steps from a state that meets the invariant. -/
theorem witness_StepKeepsMemoryCanonical : ∃ t, Memory.wf one.mem = true ∧ step one = .next t := by
  have h : (match step one with | .next _ => true | _ => false) = true := by decide +kernel
  cases e : step one with
  | next t => exact ⟨t, by decide +kernel, rfl⟩
  | fault f => rw [e] at h; cases h
  | refused r => rw [e] at h; cases h

/-- What crosses the fabric stalls the step where no port is up. -/
theorem witness_StepRunsDecoded_stalled :
    (cross base 1).stalled = false ∧ (cross (portsDown base) 1).stalled = true
      ∧ ∃ t, step one = .next t := by
  refine ⟨by decide +kernel, by decide +kernel, ?_⟩
  obtain ⟨t, -, h⟩ := witness_StepKeepsMemoryCanonical
  exact ⟨t, h⟩

theorem witness_ResetState : 2 ≤ 2 := Nat.le_refl 2

/-! ### Terms that are not well formed, one for each check -/

/-- A role of 16 vector and 8 scalar registers, and one queue of two registers. -/
def small : Budget := { v := 16, s := 8, queues := [2] }

def refused (l : List Instr) : Bool := l.all fun i => !WellFormed small i

/-- Operand kinds, register pairs and budgets of the scalar instructions, and their types. -/
def illScalar : List Instr :=
  [.sAdd false (.v 1) (.s 1) (.s 2), .sSub true (.s 1) (.s 2) (.s 4), .sMul true (.s 2) (.s 3) (.s 4), .sAnd false (.s 8) (.s 1) (.s 2),
   .sOr false (.s 1) (.s 8) (.s 2), .sXor false (.s 1) (.s 2) (.h 1), .sAddI (.v 1) (.s 1) 0, .sSubI (.s 8) (.s 1) 0, .sMulI (.s 1) .none 0,
   .sAndI (.s 1) (.v 16) 0, .sOrI (.h 1) (.s 1) 0, .sXorI .zero (.s 1) 0, .sShlI (.s 1) (.h 0) 0, .sShrI .none (.s 1) 0, .sSarI (.s 9) (.s 1) 0,
   .sAddcI (.s 1) (.s 8) 0, .sMulh .b32 (.s 1) (.s 2) (.s 3), .sMulhI .f32 (.s 1) (.s 2) 0, .sMinI .b32 (.s 1) (.s 2) 0,
   .sMaxI .f32 (.s 1) (.s 2) 0, .sMad (.s 1) (.s 2) (.s 3) .none, .sBfi (.s 1) .none (.s 3) (.s 4), .sNot true (.s 1) (.s 2),
   .sMov true (.s 2) (.s 7), .sShl true (.s 6) (.s 7) (.s 1), .sShr true (.s 7) (.s 2) (.s 1), .sSar false (.s 1) (.s 2) .none,
   .sMin .b32 (.s 1) (.s 2) (.s 3), .sMax .n64 (.s 3) (.s 2) (.s 4), .sCmp .s32 .ltu (.s 1) (.s 2) (.s 3), .sCmp .s8 .eq (.s 1) (.s 2) (.s 3),
   .sSel true (.s 2) (.s 4) (.s 6) .none, .sMovi .b32 (.v 1) 0, .sBfe .s64 (.s 1) (.s 2) (.s 3), .sPopc (.v 1) (.s 1), .sClz (.s 1) .none,
   .sLd .metaV .b32 (.s 1) (.s 2) .none 0 .plain, .sSt .enc .b32 (.s 1) (.s 2) .none 0 .plain, .sSt .g .s8 (.s 1) (.s 2) .none 0 .plain,
   .sSt .g .b32 .exec (.s 2) .none 0 .plain, .sSt .g .b32 .zero (.s 2) .none 0 .plain, .sSt .sh .b128 (.v 1) (.s 1) .none 0 .plain,
   .sLd .g .b32 (.s 1) (.s 3) .none 0 .plain, .sLd .sh .b128 (.s 2) (.s 1) .none 0 .plain, .sLd .sh .b32 (.s 1) (.s 2) (.h 1) 0 .plain,
   .sAddc true (.s 1) (.s 2) (.s 3) .none, .sFadd .rn (.v 1) (.s 1) (.s 2), .sFmul .rn (.s 1) .none (.s 2), .sFaddI true (.s 8) (.s 1) 0,
   .sFmulI true (.s 1) (.h 1) 0, .sFma .rn (.s 1) (.s 2) (.s 3) (.h 2), .sCvt .s32 .rz (.src .s32) (.s 1) (.s 2),
   .sCvt .bf16x2 .rz (.src .f32) (.s 1) (.s 2), .sCvt .s64 .rz (.src .f32) (.s 1) (.s 2), .sGetl (.s 1) (.s 2) (.s 3)]

theorem test_refused_scalar : refused illScalar = true := by decide +kernel

/-- The vector, floating-point and cross-lane instructions. -/
def illVector : List Instr :=
  [.add .f32 false (.v 1) (.v 2) (.v 3), .add .s32 true (.v 1) (.v 2) (.v 3), .sub .s64 false (.v 1) (.v 2) (.v 4), .mul .bf16x2 (.v 1) (.v 2) (.v 3),
   .addI .f32 (.v 1) (.v 2) 0, .subI .b32 (.s 1) (.v 2) 0, .mulI .b32 (.v 16) (.v 2) 0, .andI .f32 (.v 1) (.v 2) 0, .orI .b32 (.v 1) .none 0,
   .xorI .b32 (.v 1) (.h 1) 0, .shlI .b32 (.v 1) (.v 16) 0, .shrI .f32 (.v 1) (.v 2) 0, .sarI .b32 (.h 1) (.v 2) 0,
   .mulh .n8 (.v 1) (.v 2) (.v 3), .mulhI .b32 (.v 1) (.v 2) 0, .minI .b32 (.v 1) (.v 2) 0, .maxI .f32 (.v 1) (.v 2) 0,
   .mad .s64 (.v 2) (.v 4) (.v 6) (.v 8), .and .s8 (.v 1) (.v 2) (.v 3), .or .f32 (.v 1) (.v 2) (.v 3), .xor .n16 (.v 1) (.v 2) (.v 3),
   .not .n8 (.v 1) (.v 2), .shl .n16 (.v 1) (.v 2) (.v 3), .shr .s64 (.v 1) (.v 2) (.v 3), .sar .n64 (.v 2) (.v 4) .none,
   .min .b32 (.v 1) (.v 2) (.v 3), .max .f32 (.v 1) (.v 2) (.v 3), .abs .n32 (.v 1) (.v 2), .bfe .b32 (.v 1) (.v 2) (.v 3),
   .bfi (.v 1) (.v 2) (.v 3) .none, .lsel 0 0 (.s 1) (.v 2) (.v 3) (.v 4), .prmt (.v 1) (.v 2) (.v 3) (.h 1), .popc (.s 1) (.v 2), .clz (.v 1) .none,
   .cmp .b32 .eq (.v 1) (.v 2) (.v 3), .cmp .n32 .num (.v 1) (.v 2) (.v 3), .cmp .bf16x2 .eq (.s 1) (.v 2) (.v 3), .sel .s32 (.v 1) (.v 2) (.v 3) (.v 4),
   .mov .s32 (.v 1) (.v 2), .movI .b32 (.s 1) 0, .movx .none (.v 1), .putl (.s 1) (.s 2) (.s 3), .shape (.v 1) (.v 2), .addc .s32 true (.v 1) (.v 2) (.v 3) (.v 4),
   .addcI .s32 (.v 1) (.v 2) 0, .fadd .s32 .rn (.v 1) (.v 2) (.v 3), .fsub .n64 .rn (.v 2) (.v 4) (.v 6), .fmul .b32 .rn (.v 1) (.v 2) (.v 3),
   .fmin .s8 (.v 1) (.v 2) (.v 3), .fmax .n8 (.v 1) (.v 2) (.v 3), .faddI true (.s 1) (.v 2) 0, .fsubI true (.v 1) .none 0, .fmulI true (.v 1) (.h 1) 0,
   .fminI true (.v 16) (.v 1) 0, .fmaxI true (.h 1) (.v 1) 0, .fma .n32 .rn (.v 1) (.v 2) (.v 3) (.v 4), .fcmp .s32 .eq (.v 1) (.v 2) (.v 3),
   .frcpSeed (.s 1) (.v 1), .frsqSeed (.v 1) .none, .fsqrt .rn (.h 1) (.v 1), .fexp2 (.v 1) (.h 1), .flog2 (.v 16) (.v 1), .fsin (.s 1) (.v 1),
   .fcos (.v 1) .none, .fclass (.s 1) (.v 1), .fexpo (.v 1) (.h 1), .frnd .s32 .rn (.v 1) (.v 2), .fscale .rn (.v 1) (.v 2) .none,
   .cvt .b32 .rn (.src .f32) (.v 1) (.v 2) .none, .cvt .f32 .rn (.src .s32) (.v 1) (.v 2) (.v 3), .bpack (.s 1) (.v 2), .bunpack 9 (.v 1) (.v 2),
   .fdot2 .rn true (.v 1) (.v 2) (.v 3) .none, .shfl .up .w32 true (.v 1) (.v 2) (.v 3) .none, .vote .any .w32 (.s 1) (.v 2) .none,
   .red .and .w32 .n32 (.v 1) (.v 2) .none, .scan .fadd true .w32 .s32 (.v 1) (.v 2) .none, .matchOp .w32 true (.v 1) (.v 3) .none,
   .sift true (.v 1) 17, .cmpct .w32 (.s 1) (.v 2) (.v 3) .none]

theorem test_refused_vector : refused illVector = true := by decide +kernel

/-- Control, memory, engine, system and debug instructions. -/
def illOthers : List Instr :=
  [.execGet (.v 1), .execSet .none, .execAnd (.h 1), .execAndn (.v 16), .mAnd (.v 1) (.s 1) (.s 2), .mOr (.s 1) .none (.s 2), .mXor (.s 1) (.s 2) (.h 1),
   .mNot (.v 1) (.s 1), .mFfs (.s 1) .none, .bz .none 0, .bnz (.h 1) 0, .bexz (.s 8) 0, .brs .none 0, .brsSift (.v 16) 0, .call (.s 1) 0, .ret (.s 7),
   .launch (.s 1) (.s 2), .launch (.h 1) (.s 3), .qPut 1 (.s 1), .qPut 0 (.s 7), .qGet 0 (.v 15), .ld .metaV .b32 (.v 1) (.s 2) .none 0 .plain,
   .ld .g .b64 (.v 1) (.s 2) .none 0 .plain, .ld .sh .b32 (.s 1) (.s 2) .none 0 .plain, .st .enc .b32 (.v 1) (.s 2) .none 0 .plain,
   .st .g .s16 (.v 1) (.s 2) .none 0 .plain, .st .sh .b128 (.v 2) (.s 2) .none 0 .plain, .atom .enc false .add false (.v 1) (.s 2) .none .acq .plain,
   .atom .sh false .add true (.v 1) (.s 2) .none .acq .plain, .atom .sh false .min true (.v 1) (.s 2) .none .rel .plain,
   .atomCas .sh true (.v 2) (.s 2) .none .acq .plain, .wb (.h 1) (.s 2) 0, .inv (.s 1) (.s 3) 0, .gaugeSet .g (.s 1) (.s 2) .none 0,
   .gaugeSetOff .sp (.s 2) .none 0, .gaugeWait .sh .none (.s 2) .none 0, .gaugeAdd .sc (.s 1) (.h 2) .none 0, .clJoin (.v 1) (.s 1), .push (.s 1) 7,
   .pop (.v 15) 1, .pfetch (.s 2) .none 0 (.qual .die), .cpy (.s 1) (.s 0), .cpym (.h 1) (.s 0), .fill (.h 1) (.v 0), .rowcpy (.h 1) (.s 4),
   .htest (.v 1) (.h 1), .hcancel (.s 1), .hst .g (.s 1) (.h 1), .hld .sh (.h 1) .none, .mma (.s 6), .mmaG (.v 1), .mstore true true (.s 1) (.s 1) 0,
   .mrd true (.v 2) (.s 1), .assaySet (.s 0) 0, .assayGet (.v 0) 0, .ctlRd (.s 1) .cycle, .ctlWr .trapvec (.s 1), .meterRd (.s 2) 3,
   .slBind (.h 1) (.s 0), .slUnbind (.s 1) 0, .slStat (.s 4) 0, .stamp .none, .stampSync (.h 1), .wpSet (.s 1) 0 (.s 2) .none, .wpClr (.s 1) 0 (.s 3),
   .wpRd (.s 1) 0 .none, .dbgHalt .none, .dbgRun (.s 1), .dbgRunUnpark (.h 2), .dbgStep (.s 2) .none, .dbgStepLane (.s 2) (.h 1),
   .dbgRd (.s 1) (.s 3) (.s 2) (.s 1), .dbgWr (.v 1) (.s 2) (.s 2) (.s 1), .dbgList (.s 1) (.s 2) .none]

theorem test_refused_others : refused illOthers = true := by decide +kernel

/-! ### Words of every encoded instruction, written out from the encodings of spec/ -/

/-- Each word, under a clause class, decodes to the instruction beside it. -/
def reads (l : List (Nat × Nat × Instr)) : Bool := l.all fun e => decide ((decodeWord Budget.full e.1 e.2.1).toOption = some e.2.2)

def readsSluice (l : List (Nat × Instr)) : Bool := l.all fun e => decide (decodeSluice e.1 = some e.2)

/-- R249 to R251, under R212 to R214. -/
def words_scalar_1 : List (Nat × Nat × Instr) :=
  [(0, 0x0000000000000000, .nop),
   (0, 0x015c0903411ff800, .sAdd true (.s 4) (.s 6) (.s 8)),
   (0, 0x01902c0e80000001, .sAddI (.s 5) (.s 7) 0x80000001),
   (0, 0x025c0903411ff800, .sSub true (.s 4) (.s 6) (.s 8)),
   (0, 0x02902c0e80000001, .sSubI (.s 5) (.s 7) 0x80000001),
   (0, 0x035c0903411ff800, .sMul true (.s 4) (.s 6) (.s 8)),
   (0, 0x03902c0e80000001, .sMulI (.s 5) (.s 7) 0x80000001),
   (0, 0x065c0903411ff800, .sAnd true (.s 4) (.s 6) (.s 8)),
   (0, 0x06902c0e80000001, .sAndI (.s 5) (.s 7) 0x80000001),
   (0, 0x075c0903411ff800, .sOr true (.s 4) (.s 6) (.s 8)),
   (0, 0x07902c0e80000001, .sOrI (.s 5) (.s 7) 0x80000001),
   (0, 0x085c0903411ff800, .sXor true (.s 4) (.s 6) (.s 8)),
   (0, 0x08902c0e80000001, .sXorI (.s 5) (.s 7) 0x80000001),
   (0, 0x040c0903d81ff800, .sMulh .s32 (.s 4) (.s 7) .zero),
   (0, 0x04d0240e00000009, .sMulhI .n32 (.s 4) (.s 7) 9),
   (0, 0x0504030140702000, .sMad (.s 1) (.s 2) (.s 3) (.s 4))]

theorem test_words_scalar_1 : reads words_scalar_1 = true := by decide +kernel

/-- R249 to R251, under R212 to R214. -/
def words_scalar_2 : List (Nat × Nat × Instr) :=
  [(0, 0x090403017ffff800, .sNot false (.s 1) (.s 2)),
   (0, 0x0a5c0903413ff800, .sShl true (.s 4) (.s 6) (.s 9)),
   (0, 0x0a902c0e0000001f, .sShlI (.s 5) (.s 7) 31),
   (0, 0x0b5c0903413ff800, .sShr true (.s 4) (.s 6) (.s 9)),
   (0, 0x0b902c0e0000001f, .sShrI (.s 5) (.s 7) 31),
   (0, 0x0c5c0903413ff800, .sSar true (.s 4) (.s 6) (.s 9)),
   (0, 0x0c902c0e0000001f, .sSarI (.s 5) (.s 7) 31),
   (0, 0x0d540903411ff800, .sMin .s64 (.s 4) (.s 6) (.s 8)),
   (0, 0x0db02c0e00000003, .sMinI .s32 (.s 5) (.s 7) 3),
   (0, 0x0e540903411ff800, .sMax .s64 (.s 4) (.s 6) (.s 8)),
   (0, 0x0eb02c0e00000003, .sMaxI .s32 (.s 5) (.s 7) 3),
   (0, 0x0f1c0301407ff868, .sCmp .f32 .geu (.s 1) (.s 2) (.s 3)),
   (0, 0x1004030140761000, .sSel false (.s 1) (.s 2) (.s 3) .exec),
   (0, 0x115c05027ffff800, .sMov true (.s 2) (.s 4)),
   (0, 0x12f017fe3f800000, .sMovi .f32 (.s 2) 0x3f800000),
   (0, 0x13140301407ff800, .sBfe .n32 (.s 1) (.s 2) (.s 3))]

theorem test_words_scalar_2 : reads words_scalar_2 = true := by decide +kernel

/-- R249 to R251, under R212 to R214. -/
def words_scalar_3 : List (Nat × Nat × Instr) :=
  [(0, 0x1404030140702000, .sBfi (.s 1) (.s 2) (.s 3) (.s 4)),
   (0, 0x150403017ffff800, .sPopc (.s 1) (.s 2)),
   (0, 0x160403017ffff800, .sClz (.s 1) (.s 2)),
   (0, 0x1904030140702008, .sAddc true (.s 1) (.s 2) (.s 3) (.s 4)),
   (0, 0x19900c0400000007, .sAddcI (.s 1) (.s 2) 7),
   (0, 0x1a1c0301407ffa00, .sFadd .ru (.s 1) (.s 2) (.s 3)),
   (0, 0x1af00c0500000007, .sFaddI true (.s 1) (.s 2) 7),
   (0, 0x1b1c0301407ffb00, .sFmul .rd (.s 1) (.s 2) (.s 3)),
   (0, 0x1bf00c0400000007, .sFmulI false (.s 1) (.s 2) 7),
   (0, 0x1c1c030140702400, .sFma .dyn (.s 1) (.s 2) (.s 3) (.s 4)),
   (0, 0x1d0c03017ffff918, .sCvt .s32 .rz (.src .f32) (.s 1) (.s 2)),
   (0, 0x1e040201407ff800, .sGetl (.s 1) (.v 2) (.s 3))]

theorem test_words_scalar_3 : reads words_scalar_3 = true := by decide +kernel

/-- R237 to R248, under R212 to R214. -/
def words_vector_1 : List (Nat × Nat × Instr) :=
  [(0, 0x2040080280dff808, .add .s8 true (.v 4) (.v 5) (.v 6)),
   (0, 0x20c0200a00000007, .addI .n32 (.v 4) (.v 5) 7),
   (0, 0x2140080280dff808, .sub .s8 true (.v 4) (.v 5) (.v 6)),
   (0, 0x21c0200a00000007, .subI .n32 (.v 4) (.v 5) 7),
   (0, 0x22500803011ff800, .mul .s64 (.v 4) (.v 6) (.v 8)),
   (0, 0x2280200a00000007, .mulI .b32 (.v 4) (.v 5) 7),
   (0, 0x2310080280dff800, .mulh .n32 (.v 4) (.v 5) (.v 6)),
   (0, 0x23a0200a00000007, .mulhI .s32 (.v 4) (.v 5) 7),
   (0, 0x2408080280c03800, .mad .s32 (.v 4) (.v 5) (.v 6) (.v 7)),
   (0, 0x25580803011ff800, .and .n64 (.v 4) (.v 6) (.v 8)),
   (0, 0x25a0200a00000007, .andI .s32 (.v 4) (.v 5) 7),
   (0, 0x26580803011ff800, .or .n64 (.v 4) (.v 6) (.v 8)),
   (0, 0x26a0200a00000007, .orI .s32 (.v 4) (.v 5) 7),
   (0, 0x27580803011ff800, .xor .n64 (.v 4) (.v 6) (.v 8)),
   (0, 0x27a0200a00000007, .xorI .s32 (.v 4) (.v 5) 7),
   (0, 0x28000802fffff800, .not .b32 (.v 4) (.v 5))]

theorem test_words_vector_1 : reads words_vector_1 = true := by decide +kernel

/-- R237 to R248, under R212 to R214. -/
def words_vector_2 : List (Nat × Nat × Instr) :=
  [(0, 0x29500803583ff800, .shl .s64 (.v 4) (.v 6) .lane),
   (0, 0x2980200a00000007, .shlI .b32 (.v 4) (.v 5) 7),
   (0, 0x2a500803583ff800, .shr .s64 (.v 4) (.v 6) .lane),
   (0, 0x2a80200a00000007, .shrI .b32 (.v 4) (.v 5) 7),
   (0, 0x2b500803583ff800, .sar .s64 (.v 4) (.v 6) .lane),
   (0, 0x2b80200a00000007, .sarI .b32 (.v 4) (.v 5) 7),
   (0, 0x2c38080280dff800, .min .n16 (.v 4) (.v 5) (.v 6)),
   (0, 0x2cc0200a00000007, .minI .n32 (.v 4) (.v 5) 7),
   (0, 0x2d38080280dff800, .max .n16 (.v 4) (.v 5) (.v 6)),
   (0, 0x2dc0200a00000007, .maxI .n32 (.v 4) (.v 5) 7),
   (0, 0x2e300802fffff800, .abs .s16 (.v 4) (.v 5)),
   (0, 0x2f08080280dff800, .bfe .s32 (.v 4) (.v 5) (.v 6)),
   (0, 0x3000080280c03800, .bfi (.v 4) (.v 5) (.v 6) (.v 7)),
   (0, 0x31000802fffff800, .popc (.v 4) (.v 5)),
   (0, 0x32000802fffff800, .clz (.v 4) (.v 5)),
   (0, 0x330c080280dff810, .cmp .s32 .lt (.s 4) (.v 5) (.v 6))]

theorem test_words_vector_2 : reads words_vector_2 = true := by decide +kernel

/-- R237 to R248, under R212 to R214. -/
def words_vector_3 : List (Nat × Nat × Instr) :=
  [(0, 0x3400080280d03800, .sel .b32 (.v 4) (.v 5) (.v 6) (.s 7)),
   (0, 0x355808037ffff800, .mov .n64 (.v 4) (.v 6)),
   (0, 0x35e027fe00000007, .movI .f32 (.v 4) 7),
   (0, 0x3607ff0200dff800, .movx (.s 4) (.v 6)),
   (0, 0x37000902c0dff800, .putl (.v 4) (.s 5) (.s 6)),
   (0, 0x38040802fffff800, .shape (.s 4) (.v 5)),
   (0, 0x3910080280c03808, .addc .n32 true (.v 4) (.v 5) (.v 6) (.v 7)),
   (0, 0x3980200a00000007, .addcI .b32 (.v 4) (.v 5) 7),
   (0, 0x3a00080280c03c30, .lsel 8 6 (.v 4) (.v 5) (.v 6) (.v 7)),
   (0, 0x3b00080280c03800, .prmt (.v 4) (.v 5) (.v 6) (.v 7))]

theorem test_words_vector_3 : reads words_vector_3 = true := by decide +kernel

/-- R252 to R261, under R212 to R214. -/
def words_float_1 : List (Nat × Nat × Instr) :=
  [(0, 0x4020080280dffb00, .fadd .bf16x2 .rd (.v 4) (.v 5) (.v 6)),
   (0, 0x40e0200b00000007, .faddI true (.v 4) (.v 5) 7),
   (0, 0x4120080280dffb00, .fsub .bf16x2 .rd (.v 4) (.v 5) (.v 6)),
   (0, 0x41e0200b00000007, .fsubI true (.v 4) (.v 5) 7),
   (0, 0x4220080280dffb00, .fmul .bf16x2 .rd (.v 4) (.v 5) (.v 6)),
   (0, 0x42e0200b00000007, .fmulI true (.v 4) (.v 5) 7),
   (0, 0x4328080280c03c00, .fma .f16x2 .dyn (.v 4) (.v 5) (.v 6) (.v 7)),
   (0, 0x4418080280dff800, .fmin .f32 (.v 4) (.v 5) (.v 6)),
   (0, 0x44e0200a00000007, .fminI false (.v 4) (.v 5) 7),
   (0, 0x4518080280dff800, .fmax .f32 (.v 4) (.v 5) (.v 6)),
   (0, 0x45e0200a00000007, .fmaxI false (.v 4) (.v 5) 7),
   (0, 0x4618080280dff838, .fcmp .f32 .nan (.v 4) (.v 5) (.v 6)),
   (0, 0x47180802fffff800, .frcpSeed (.v 4) (.v 5)),
   (0, 0x48180802fffff800, .frsqSeed (.v 4) (.v 5)),
   (0, 0x4a180802fffff800, .fexp2 (.v 4) (.v 5)),
   (0, 0x4b180802fffff800, .flog2 (.v 4) (.v 5))]

theorem test_words_float_1 : reads words_float_1 = true := by decide +kernel

/-- R252 to R261, under R212 to R214. -/
def words_float_2 : List (Nat × Nat × Instr) :=
  [(0, 0x4c180802fffff800, .fsin (.v 4) (.v 5)),
   (0, 0x4d180802fffff800, .fcos (.v 4) (.v 5)),
   (0, 0x4f180802fffff800, .fclass (.v 4) (.v 5)),
   (0, 0x51180802fffff800, .fexpo (.v 4) (.v 5)),
   (0, 0x49180802fffff900, .fsqrt .rz (.v 4) (.v 5)),
   (0, 0x4e200802fffffa00, .frnd .bf16x2 .ru (.v 4) (.v 5)),
   (0, 0x5018080280dff900, .fscale .rz (.v 4) (.v 5) (.v 6)),
   (0, 0x5220080280dff918, .cvt .bf16x2 .rz (.src .f32) (.v 4) (.v 5) (.v 6)),
   (0, 0x53000802fffff800, .bpack (.v 4) (.v 5)),
   (0, 0x54080802fffff830, .bunpack 6 (.v 4) (.v 5)),
   (0, 0x5518080280c03908, .fdot2 .rz true (.v 4) (.v 5) (.v 6) (.v 7))]

theorem test_words_float_2 : reads words_float_2 = true := by decide +kernel

/-- R262 to R270, under R212 to R214. -/
def words_lanes : List (Nat × Nat × Instr) :=
  [(0, 0x6058080301101a18, .shfl .xor .w4 true (.v 4) (.v 6) (.v 8) (.s 3)),
   (0, 0x610008037ffffc10, .vote .ballot .w16 (.v 4) (.v 6) .none),
   (0, 0x620808037ffff920, .red .min .w2 .s32 (.v 4) (.v 6) .none),
   (0, 0x631808037ff01bb8, .scan .fmin true .w8 .f32 (.v 4) (.v 6) (.s 3)),
   (0, 0x64000a037ffff900, .matchOp .w2 false (.v 5) (.v 6) .none),
   (3, 0x6507fe03021ff808, .sift true (.v 6) 16),
   (0, 0x6600080340b01800, .cmpct .w32 (.v 4) (.v 6) (.s 5) (.s 3))]

theorem test_words_lanes : reads words_lanes = true := by decide +kernel

/-- R271 to R284, under R212 to R214. -/
def words_control_1 : List (Nat × Nat × Instr) :=
  [(0, 0x700409fffffff800, .execGet (.s 4)),
   (0, 0x7107ff027ffff800, .execSet (.s 4)),
   (0, 0x7207ff027ffff800, .execAnd (.s 4)),
   (0, 0x7307ff027ffff800, .execAndn (.s 4)),
   (0, 0x74040902c0dff800, .mAnd (.s 4) (.s 5) (.s 6)),
   (0, 0x75040902c0dff800, .mOr (.s 4) (.s 5) (.s 6)),
   (0, 0x76040902c0dff800, .mXor (.s 4) (.s 5) (.s 6)),
   (0, 0x77040902fffff800, .mNot (.s 4) (.s 5)),
   (0, 0x78040902fffff800, .mFfs (.s 4) (.s 5)),
   (3, 0x790ffc00fffffffe, .br 0xfffffffe),
   (3, 0x7a08280000000003, .bz (.s 10) 3),
   (3, 0x7b08280000000003, .bnz (.s 10) 3),
   (3, 0x7c08280000000003, .bexz (.s 10) 3),
   (3, 0x7d08280000000003, .brs (.s 10) 3),
   (3, 0x7e08280000000003, .brsSift (.s 10) 3),
   (3, 0x7f0ffc0000000000, .join)]

theorem test_words_control_1 : reads words_control_1 = true := by decide +kernel

/-- R271 to R284, under R212 to R214. -/
def words_control_2 : List (Nat × Nat × Instr) :=
  [(3, 0x8008280000000005, .call (.s 10) 5),
   (3, 0x8108280000000000, .ret (.s 10)),
   (3, 0x820ffc0000000000, .exit),
   (3, 0x8307fffffffff858, .barArr 11),
   (3, 0x8407fffffffff858, .barWait 11),
   (3, 0x8507fffffffff858, .barSync 11),
   (3, 0x8607fffffffff800, .yield),
   (3, 0x870b8a04fffff000, .launch (.h 2) (.s 4)),
   (3, 0x8807ff027ffff828, .qPut 5 (.s 4)),
   (3, 0x890409fffffff830, .qGet 6 (.s 4))]

theorem test_words_control_2 : reads words_control_2 = true := by decide +kernel

/-- R251, R285 to R303, under R212 to R214. -/
def words_memory_1 : List (Nat × Nat × Instr) :=
  [(1, 0x170e0881206fff80, .sLd .g .b64 (.s 8) (.s 4) (.s 6) 0xfff8 .plain),
   (1, 0x182208813ff00019, .sSt .sh .n8 (.s 8) (.s 4) .none 1 (.qual .core)),
   (1, 0x9090088100600101, .ld .enc .b128 (.v 8) (.s 4) (.v 6) 0x10 .stream),
   (1, 0x916408817ff00022, .st .sp .n16 (.v 8) (.s 5) .none 2 .noalloc),
   (1, 0x924808814060065a, .atom .sc false .max true (.v 8) (.s 5) (.v 6) .ar (.qual .team)),
   (1, 0x930c08813ff00000, .atomCas .g true (.v 8) (.s 4) .none .acq .plain),
   (1, 0x940ffffffff0000d, .fence .sc .fab),
   (1, 0x950203813ff00400, .wb (.s 3) (.s 4) 0x40),
   (1, 0x960203813ff00400, .inv (.s 3) (.s 4) 0x40),
   (1, 0x9722038160600080, .gaugeSet .sh (.s 3) (.s 5) (.s 6) 8),
   (1, 0x9747ff817ff00080, .gaugeSetOff .sc (.s 5) .none 8),
   (1, 0x984203817ff00080, .gaugeWait .sc (.s 3) (.s 5) .none 8),
   (1, 0x992203817ff00080, .gaugeAdd .sh (.s 3) (.s 5) .none 8),
   (1, 0x9a0203817ff00000, .clJoin (.s 3) (.s 5)),
   (1, 0x9b03fffffff00000, .clLeave),
   (1, 0x9c0005fffff000f0, .push (.v 5) 15)]

theorem test_words_memory_1 : reads words_memory_1 = true := by decide +kernel

/-- R251, R285 to R303, under R212 to R214. -/
def words_memory_2 : List (Nat × Nat × Instr) :=
  [(1, 0x9d0205fffff00030, .pop (.s 5) 3),
   (1, 0x9e03ff8100680002, .pfetch (.s 4) (.v 6) 0x8000 .noalloc)]

theorem test_words_memory_2 : reads words_memory_2 = true := by decide +kernel

/-- R304 to R314, under R212 to R214. -/
def words_engines : List (Nat × Nat × Instr) :=
  [(2, 0xb00b8e18fffff000, .cpy (.h 3) (.s 24)),
   (2, 0xb10b8e18fffff000, .cpym (.h 3) (.s 24)),
   (2, 0xb20b8e18fffff000, .fill (.h 3) (.s 24)),
   (2, 0xb30b8e18fffff000, .rowcpy (.h 3) (.s 24)),
   (2, 0xb40826e1fffff000, .htest (.s 9) (.h 1)),
   (2, 0xb50ffee1fffff000, .hcancel (.h 1)),
   (2, 0xb62ffe05b87ff000, .hst .sc (.s 5) (.h 1)),
   (2, 0xb70b8604fffff000, .hld .g (.h 1) (.s 4)),
   (2, 0xb80ffe0cfffff000, .mma (.s 12)),
   (2, 0xb90ffe0cfffff000, .mmaG (.s 12)),
   (2, 0xba0ffffffffff010, .mzero true),
   (2, 0xbb2b8e0cfffffa50, .mstore true false (.h 3) (.s 12) 0xa5),
   (2, 0xbc00220cfffff010, .mrd true (.v 8) (.s 12)),
   (2, 0xbd0ffe10fffffff0, .assaySet (.s 16) 0xff),
   (2, 0xbe0843ffffffffe0, .assayGet (.s 16) 0xfe),
   (2, 0xbf0ffffffffff070, .assayInv 7)]

theorem test_words_engines : reads words_engines = true := by decide +kernel

/-- R315 to R326, R422, under R212 to R214. -/
def words_system_1 : List (Nat × Nat × Instr) :=
  [(4, 0xd00ffffffffff050, .trap 5),
   (4, 0xd10ffffffffff000, .rti),
   (4, 0xd2082bfffffff0c0, .ctlRd (.s 10) .trapvec),
   (4, 0xd30ffe0bfffff010, .ctlWr .fps (.s 11)),
   (4, 0xd40853fffffff010, .meterRd (.s 20) 1),
   (4, 0xd50b8e14fffff000, .slBind (.h 3) (.s 20)),
   (4, 0xd60b8ffffffff090, .slUnbind (.h 3) 9),
   (4, 0xd708e3fffffff090, .slStat (.s 56) 9),
   (4, 0xd80ffe07fffff000, .stamp (.s 7)),
   (4, 0xd81ffe07fffff000, .stampSync (.s 7)),
   (4, 0xe008220c853ff030, .wpSet (.s 8) 3 (.s 12) (.s 20)),
   (4, 0xe10823fffffff030, .wpClr (.s 8) 3 .none),
   (4, 0xe20823ff853ff030, .wpRd (.s 8) 3 (.s 20)),
   (4, 0xe30fffff853ff000, .dbgHalt (.s 20)),
   (4, 0xe40fffff853ff000, .dbgRun (.s 20)),
   (4, 0xe40fffff853ff010, .dbgRunUnpark (.s 20))]

theorem test_words_system_1 : reads words_system_1 = true := by decide +kernel

/-- R315 to R326, R422, under R212 to R214. -/
def words_system_2 : List (Nat × Nat × Instr) :=
  [(4, 0xe50fffff85209000, .dbgStep (.s 20) (.s 9)),
   (4, 0xe51fffff85209000, .dbgStepLane (.s 20) (.s 9)),
   (4, 0xe608220a85209000, .dbgRd (.s 8) (.s 10) (.s 20) (.s 9)),
   (4, 0xe708220a85209000, .dbgWr (.s 8) (.s 10) (.s 20) (.s 9)),
   (4, 0xe808220affe09000, .dbgList (.s 8) (.s 10) (.s 9)),
   (4, 0xe90ffffffffff000, .brk)]

theorem test_words_system_2 : reads words_system_2 = true := by decide +kernel

/-- R156. -/
def words_sluice_1 : List (Nat × Instr) :=
  [(0x00000000, .sluiceEnd),
   (0x08000000, .sluiceFail),
   (0x16800000, .sluiceGet 0xd),
   (0x1e805abc, .sluicePeek 0xd 0x5abc),
   (0x26800000, .sluiceGetw 0xd),
   (0x28100000, .sluicePut 0x2),
   (0x30100000, .sluicePutw 0x2),
   (0x38158000, .sluicePutn 0x2 0xb),
   (0x40058000, .sluiceCopy 0xb),
   (0x40158001, .sluiceCopyBack 0x2 0xb),
   (0x4e805abc, .sluiceMovi 0xd 0x5abc),
   (0x56900000, .sluiceMov 0xd 0x2),
   (0x5e958000, .sluiceAdd 0xd 0x2 0xb),
   (0x5e906abc, .sluiceAddImm 0xd 0x2 0x2abc),
   (0x66958000, .sluiceSub 0xd 0x2 0xb),
   (0x66906abc, .sluiceSubImm 0xd 0x2 0x2abc),
   (0x6e958000, .sluiceAnd 0xd 0x2 0xb)]

theorem test_words_sluice_1 : readsSluice words_sluice_1 = true := by decide +kernel

/-- R156. -/
def words_sluice_2 : List (Nat × Instr) :=
  [(0x6e906abc, .sluiceAndImm 0xd 0x2 0x2abc),
   (0x76958000, .sluiceOr 0xd 0x2 0xb),
   (0x76906abc, .sluiceOrImm 0xd 0x2 0x2abc),
   (0x7e958000, .sluiceXor 0xd 0x2 0xb),
   (0x7e906abc, .sluiceXorImm 0xd 0x2 0x2abc),
   (0x86958000, .sluiceShl 0xd 0x2 0xb),
   (0x86906abc, .sluiceShlImm 0xd 0x2 0x2abc),
   (0x8e958000, .sluiceShr 0xd 0x2 0xb),
   (0x8e906abc, .sluiceShrImm 0xd 0x2 0x2abc),
   (0x9015e001, .sluiceBeq 0x2 0xb 0x6001),
   (0x9815e001, .sluiceBne 0x2 0xb 0x6001),
   (0xa015e001, .sluiceBlt 0x2 0xb 0x6001),
   (0xa8006001, .sluiceBeof 0x6001),
   (0xb0006001, .sluiceJmp 0x6001),
   (0xbe806001, .sluiceLoop 0xd 0x6001),
   (0xc6900000, .sluiceTbl 0xd 0x2)]

theorem test_words_sluice_2 : readsSluice words_sluice_2 = true := by decide +kernel

/-! ### Single steps, with results worked out by hand from the rules -/

/-- The group after an outcome. -/
def groupOf : Out → Group
  | .next s => s.g
  | _ => Group.idle

/-- The state after an instruction that lands at FLAG_CLEAR. -/
def landed (i : Instr) (s : State) : State :=
  match exec i s with
  | .next t => (match exec (.flagClear 0) t with
    | .next u => u
    | _ => State.reset)
  | _ => State.reset

/-- R233: 7 plus 2^32 - 1 is 6 modulo 2^32. -/
theorem test_add_wraps : sreg (groupOf (exec (.sAddI (.s 4) (.s 4) 0xffffffff) base)) 4 = 6 := by decide +kernel

/-- R52: 100 + 4l and the uniform 9 add to 109 + 4l, which stays affine; the source is the destination. -/
theorem test_add_affine :
    (vreg (groupOf (exec (.add .b32 false (.v 3) (.v 3) (.v 1)) base)) 3).tag = .affine 109 4
      ∧ laneAt (vreg (groupOf (exec (.add .b32 false (.v 3) (.v 3) (.v 1)) base)) 3).lanes 31 = 233 := by decide +kernel

/-- R63: lanes that are not active keep their values. -/
theorem test_mov_inactive :
    laneAt (vreg (groupOf (exec (.movI .b32 (.v 2) 77) four)) 2).lanes 3 = 77
      ∧ laneAt (vreg (groupOf (exec (.movI .b32 (.v 2) 77) four)) 2).lanes 4 = 27 := by decide +kernel

/-- R253: 1 + 2 = 3 in f32. -/
theorem test_fadd : sreg (groupOf (exec (.sFadd .rn (.s 8) (.s 6) (.s 7)) base)) 8 = 0x40400000 := by decide +kernel

/-- R91, by the worked value of 04_numbers.md: the seed of 2.0. -/
theorem test_rsqrt_seed : laneAt (vreg (landed (.frsqSeed (.v 5) (.s 7)) base).g 5).lanes 0 = 0x3f350000 := by decide +kernel

/-- R28: lanes 0 to 2 take the branch in slot B, the others fall through in slot A. -/
theorem test_brs :
    (groupOf (exec (.brs (.s 4) 2) base)).b.mask = 7 ∧ (groupOf (exec (.brs (.s 4) 2) base)).b.pc = BitVec.ofNat 57 (codeBase + 16)
      ∧ (groupOf (exec (.brs (.s 4) 2) base)).a.mask = 0xfffffff8 := by decide +kernel

/-- R366, R71: `trap 9` in a group with a user handler at the clause's header. -/
theorem test_trap :
    (groupOf (exec (.trap 9) (vectored codeBase true none))).trapcause = 0x90001
      ∧ (groupOf (exec (.trap 9) (vectored codeBase true none))).trapnext = w64 (codeBase + 16)
      ∧ inHandler (groupOf (exec (.trap 9) (vectored codeBase true none))) = true := by decide +kernel

/-- R112, by the worked case of 05_memory.md: TARGET 8192, GEN 5; 4096, 4096 and 12288 bytes arrive. -/
theorem test_gauge :
    gaugeArrive (8192 + 5 * 2 ^ 64 + 2 ^ 127) 0 4096 = some (8192 + 4096 * 2 ^ 32 + 5 * 2 ^ 64 + 2 ^ 127)
      ∧ gaugeArrive (8192 + 4096 * 2 ^ 32 + 5 * 2 ^ 64 + 2 ^ 127) 0 4096 = some (8192 + 6 * 2 ^ 64 + 2 ^ 127)
      ∧ gaugeArrive (8192 + 6 * 2 ^ 64 + 2 ^ 127) 0 12288 = some (8192 + 4096 * 2 ^ 32 + 7 * 2 ^ 64 + 2 ^ 127) := by decide +kernel

/-- R2, R105, R126: a store waits in the queue, and STORE_VISIBLE writes its bytes, the lowest first. -/
theorem test_store :
    mainByte (landed (.sSt .g .b32 (.s 6) .none .none 2044 .plain) base) (2 ^ 30 + 2047) = 0
      ∧ (match exec .storeVisible (landed (.sSt .g .b32 (.s 6) .none .none 2044 .plain) base) with
        | .next t => mainByte t (2 ^ 30 + 2047) == 0x3f && mainByte t (2 ^ 30 + 2046) == 0x80 && mainByte t (2 ^ 30 + 2048) == 0
        | _ => false) = true := by decide +kernel

/-- R287: a load of the group sees the store that it has queued. -/
theorem test_load_queued :
    sreg (landed (.sLd .g .s16 (.s 5) .none .none 2046 .plain) (landed (.sSt .g .b32 (.s 6) .none .none 2044 .plain) base)).g 5 = 0x3f80
      := by decide +kernel

/-- R267: the lanes of four active ones whose value in v3 (100, 104, 108, 112) is not 0. -/
theorem test_ballot : laneAt (vreg (landed (.vote .ballot .w32 (.v 5) (.v 3) .none) four).g 5).lanes 2 = 0xf := by decide +kernel

/-- R156: `putn` of three bytes of K0's low byte. -/
theorem test_putn :
    (match exec (.sluicePutn 0 1) (running 0 0 0 0x1ab 3 0) with
      | .next t => t.run.out == [0xab, 0xab, 0xab] && t.run.steps == 1 && t.run.pc == 1
      | _ => false) = true := by decide +kernel

/-- R156, R157: the last word of a program: `end`, a branch back and one that is not taken. -/
theorem test_last_word :
    (∀ x ∈ [((Instr.sluiceEnd), RunEnd.ended), (.sluiceJmp 0x7fff, .running), (.sluiceBne 0 0 0x7fff, .faulted), (.sluiceMov 0 1, .faulted)],
      (match exec x.1 (running 3 16 0 0 0 0) with
      | .next t => t.run.fin == x.2
      | _ => false) = true) := by decide +kernel

end Sys2Proof.Tests
end

section
/-!
PROOFS. O58: main memory keeps its canonical form. One lemma for each function that a step calls and that answers a
state, `State.Inv.f` for `f`: what `f` answers meets the invariant where the state it is given does. The functions that
write main memory itself rest on the laws of `wf_` and on `mwf_filter`; every other function hands its memory on
(`State.Inv.update`). The order is the model's own.
-/
namespace Sys2Proof.Machine

/-! ### The invariant of what a function answers -/

/-- Every state that an outcome leads to meets the invariant. -/
def OutInv : Out → Prop
  | .next t => t.Inv
  | _ => True

/-- What an option holds, if anything, satisfies `p`. -/
def OptInv {α : Type} (p : α → Prop) : Option α → Prop
  | some x => p x
  | none => True

/-- What an operation that may raise a cause answers satisfies `p`. -/
def ExcInv {ε α : Type} (p : α → Prop) : Except ε α → Prop
  | .ok x => p x
  | .error _ => True

/-- The state of an effect meets the invariant. -/
def Effect.Inv (e : Effect) : Prop := e.st.Inv

theorem OptInv.of_eq {α : Type} {p : α → Prop} {o : Option α} {x : α} (e : o = some x) (h : OptInv p o) : p x := by
  subst e; exact h

theorem OptInv.map {α β : Type} {p : α → Prop} {q : β → Prop} {f : α → β} {o : Option α} (h : OptInv p o)
    (hf : ∀ x, p x → q (f x)) : OptInv q (o.map f) := by
  cases o with
  | none => trivial
  | some x => exact hf x h

theorem OptInv.of_map {α β : Type} {q : β → Prop} {f : α → β} {o : Option α}
    (hf : ∀ x, q (f x)) : OptInv q (o.map f) := by
  cases o with
  | none => trivial
  | some x => exact hf x

theorem OptInv.bind {α β : Type} {p : α → Prop} {q : β → Prop} {f : α → Option β} {o : Option α} (h : OptInv p o)
    (hf : ∀ x, p x → OptInv q (f x)) : OptInv q (o.bind f) := by
  cases o with
  | none => trivial
  | some x => exact hf x h

theorem OptInv.of_bind {α β : Type} {q : β → Prop} {f : α → Option β} {o : Option α} (hf : ∀ x, OptInv q (f x)) :
    OptInv q (o.bind f) := by
  cases o with
  | none => trivial
  | some x => exact hf x

theorem OptInv.getD {α : Type} {p : α → Prop} {o : Option α} {d : α} (h : OptInv p o) (hd : p d) : p (o.getD d) := by
  cases o with
  | none => exact hd
  | some x => exact h

theorem OptInv.filter {α : Type} {p : α → Prop} {f : α → Bool} {o : Option α}
    (h : OptInv p o) : OptInv p (o.filter f) := by
  cases o with
  | none => trivial
  | some x =>
    rw [Option.filter_some]
    split
    · exact h
    · trivial

theorem OptInv.foldlM {α β : Type} {p : β → Prop} {f : β → α → Option β} {l : List α} {b : β} (h : p b)
    (hf : ∀ b x, p b → OptInv p (f b x)) : OptInv p (l.foldlM f b) := by
  induction l generalizing b with
  | nil => exact h
  | cons x l ih => exact (hf b x h).bind fun _ hb => ih hb

theorem OptInv.findSome? {α β : Type} {p : β → Prop} {f : α → Option β} {l : List α} (hf : ∀ x, OptInv p (f x)) :
    OptInv p (l.findSome? f) := by
  induction l with
  | nil => trivial
  | cons x l ih =>
    rw [List.findSome?_cons]
    split
    · next e => exact e ▸ hf x
    · exact ih

theorem ExcInv.of_eq {ε α : Type} {p : α → Prop} {r : Except ε α} {x : α} (e : r = .ok x) (h : ExcInv p r) : p x := by
  subst e; exact h

theorem ExcInv.map {ε α β : Type} {p : α → Prop} {q : β → Prop} {f : α → β} {r : Except ε α} (h : ExcInv p r)
    (hf : ∀ x, p x → q (f x)) : ExcInv q (r.map f) := by
  cases r with
  | error _ => trivial
  | ok x => exact hf x h

theorem ExcInv.of_map {ε α β : Type} {q : β → Prop} {f : α → β} {r : Except ε α}
    (hf : ∀ x, q (f x)) : ExcInv q (r.map f) := by
  cases r with
  | error _ => trivial
  | ok x => exact hf x

theorem ExcInv.bind {ε α β : Type} {p : α → Prop} {q : β → Prop} {f : α → Except ε β} {r : Except ε α} (h : ExcInv p r)
    (hf : ∀ x, p x → ExcInv q (f x)) : ExcInv q (r.bind f) := by
  cases r with
  | error _ => trivial
  | ok x => exact hf x h

theorem ExcInv.of_bind {ε α β : Type} {q : β → Prop} {f : α → Except ε β} {r : Except ε α} (hf : ∀ x, ExcInv q (f x)) :
    ExcInv q (r.bind f) := by
  cases r with
  | error _ => trivial
  | ok x => exact hf x

/-! ### Rules of the invariant -/

section
variable {s t : State}

/-- The invariant is about main memory alone: the other fields may change. -/
theorem State.Inv.update {g slot team vd groups teams devices partitions cores dies ptes poison marked used cache
    lines peerLines peer peerPoison encodes run runs turns classes reports refreshing ports conns measure stageHashes
    portOpen failed stalled gone outbox replies now meterAt draw agenda} (h : s.Inv) :
    State.Inv ⟨g, slot, team, vd, groups, teams, devices, partitions, cores, dies, s.mem, ptes, poison, marked,
    used, cache, lines, peerLines, peer, peerPoison, encodes, run, runs, turns, classes, reports, refreshing, ports,
    conns, measure, stageHashes, portOpen, failed, stalled, gone, outbox, replies, now, meterAt, draw, agenda⟩ := h

theorem State.Inv.ite {c : Prop} [Decidable c] (hs : s.Inv) (ht : t.Inv) : State.Inv (if c then s else t) := by
  split <;> assumption

theorem State.Inv.fst_of_eq {α : Type} {p : State × α} {x : α} (e : p = (t, x)) (h : p.1.Inv) : t.Inv := by
  subst e; exact h

theorem State.Inv.foldl {α : Type} {f : State → α → State} {l : List α} (h : s.Inv) (hf : ∀ s x, s.Inv → (f s x).Inv) :
    (l.foldl f s).Inv := by
  induction l generalizing s with
  | nil => exact h
  | cons x l ih => exact ih (hf s x h)

theorem State.Inv.foldl_fst {α β : Type} {f : State × β → α → State × β} {l : List α} {r : State × β} (h : r.1.Inv)
    (hf : ∀ r x, r.1.Inv → (f r x).1.Inv) : (l.foldl f r).1.Inv := by
  induction l generalizing r with
  | nil => exact h
  | cons x l ih => exact ih (hf r x h)

end

section
variable {s : State}

/-! ### Main memory (R2, R102) -/

theorem State.Inv.clearSpan {n} (h : s.Inv) : (clearSpan s n).Inv := wf_clearSpan n h

theorem State.Inv.addPoison {pa} (h : s.Inv) : (addPoison s pa).Inv := wf_addPoison pa h

theorem State.Inv.putBytes {pa bs} (h : s.Inv) : (putBytes s pa bs).Inv := wf_putBytes pa bs h

theorem State.Inv.putRun {pa bs} (h : s.Inv) : (putRun s pa bs).Inv := wf_putRun pa bs h

theorem State.Inv.putCached {cells} (h : s.Inv) : (putCached s cells).Inv := wf_putCached cells h

theorem State.Inv.storeBytesAt {pa bs} (h : s.Inv) : (storeBytesAt s pa bs).Inv := wf_storeBytesAt pa bs h

theorem State.Inv.meter {i n} (h : s.Inv) : (meter s i n).Inv :=
  .update h

theorem State.Inv.cross {n} (h : s.Inv) : (cross s n).Inv := by
  unfold Machine.cross
  extract_lets r
  have hr : r.Inv := h.meter
  exact h.meter.ite (.update hr)

theorem State.Inv.countDie {die f} (h : s.Inv) : (countDie s die f).Inv :=
  .update h

theorem State.Inv.countMeta {sl pa} (h : s.Inv) : (countMeta s sl pa).Inv := by
  unfold Machine.countMeta
  extract_lets k
  exact h.ite (State.Inv.meter (.update h))

theorem State.Inv.countFill {sl pa f} (h : s.Inv) : (countFill s sl pa f).Inv := by
  unfold Machine.countFill
  extract_lets s1
  have hs1 : s1.Inv := h.countMeta.meter.meter
  exact hs1.countDie.ite hs1

theorem State.Inv.cacheBlock {sl pa va} (h : s.Inv) : (cacheBlock s sl pa va).1.Inv := by
  unfold Machine.cacheBlock
  extract_lets off f b s1
  have hs1 : s1.Inv := h.countFill
  split
  · exact h
  · exact .update hs1

theorem State.Inv.countRead {seen l n} (h : s.Inv) : (countRead s seen l n).1.Inv := by
  unfold Machine.countRead
  split
  · split
    · extract_lets pa f
      split
      · exact h
      · split
        · exact h.cacheBlock
        · exact h.countFill
    · exact h.ite h.meter
  · exact h.ite h.cross
  · exact h

theorem State.Inv.countReads {ls} (h : s.Inv) : (countReads s ls).Inv :=
  State.Inv.foldl_fst h fun _ _ h => h.countRead

theorem State.Inv.fillBlocks {ls} (h : s.Inv) : (fillBlocks s ls).Inv := by
  unfold Machine.fillBlocks
  refine h.foldl fun s l h => ?_
  split
  · split
    · exact h.cacheBlock
    · exact h
  · exact h

theorem State.Inv.poisonScratch {die bad} (h : s.Inv) : (poisonScratch s die bad).Inv :=
  .update h

theorem State.Inv.onTeam {t f} (h : s.Inv) : (onTeam s t f).Inv := by
  unfold Machine.onTeam
  exact State.Inv.ite (.update h) (.update h)

theorem State.Inv.takeLine {die l} (h : s.Inv) : (takeLine s die l).1.Inv := by
  unfold Machine.takeLine
  split
  · exact h
  · exact h.cross

theorem State.Inv.unpoison {cells} (h : s.Inv) : (unpoison s cells).Inv := by
  unfold Machine.unpoison
  extract_lets whole bound mains blocks s1 s2 peers s3 scs r s4 one
  have hs1 : s1.Inv := .update h
  have hs2 : s2.Inv := .update hs1
  have hs3 : s3.Inv := .update hs2
  have hs4 : s4.Inv := .update hs3
  exact .update hs4

theorem State.Inv.putLocs {cells} (h : s.Inv) : (putLocs s cells).Inv := wf_putLocs cells h

/-! ### The focus -/

theorem State.Inv.cannot : OutInv cannot :=
  trivial

theorem State.Inv.may {c} (h : s.Inv) : OutInv (may c s) := by
  unfold Machine.may
  split
  · exact h
  · exact State.Inv.cannot

theorem State.Inv.maySome {o} (h : OptInv State.Inv o) : OutInv (maySome o) := by
  cases o with
  | none => trivial
  | some t => exact h

theorem State.Inv.tick (h : s.Inv) : (tick s).Inv :=
  .update h

theorem State.Inv.stash (h : s.Inv) : (stash s).Inv :=
  .update h

theorem State.Inv.focusDevice {n} (h : s.Inv) : OptInv State.Inv (focusDevice s n) := by
  unfold Machine.focusDevice
  extract_lets s1
  have hs1 : s1.Inv := h.stash
  split
  · exact h
  · exact OptInv.of_map fun _ => .update hs1

theorem State.Inv.focusTeam {t} (h : s.Inv) : OptInv State.Inv (focusTeam s t) := by
  unfold Machine.focusTeam
  split
  · trivial
  · split
    · exact h
    · exact h.stash.focusDevice.bind fun _ h => OptInv.of_map fun _ => .update h

theorem State.Inv.focusGroup {r} (h : s.Inv) : OptInv State.Inv (focusGroup s r) := by
  unfold Machine.focusGroup
  split
  · trivial
  · split
    · exact h
    · exact h.focusTeam.bind fun _ h => OptInv.of_map fun _ => .update h

theorem State.Inv.onGroups {p f} (h : s.Inv) : (onGroups s p f).Inv :=
  .update h

theorem State.Inv.onTeams {p f} (h : s.Inv) : (onTeams s p f).Inv :=
  .update h

theorem State.Inv.onDevice {n f} (h : s.Inv) : (onDevice s n f).Inv :=
  .update h

theorem State.Inv.onCore {n f} (h : s.Inv) : (onCore s n f).Inv :=
  .update h

theorem State.Inv.setCur {p} (h : s.Inv) : (setCur s p).Inv :=
  .update h

/-! ### Ports, reads, stores and stop records -/

theorem State.Inv.send {tag cmd vd payload} (h : s.Inv) : (send s tag cmd vd payload).Inv :=
  .update h

theorem State.Inv.sendFor {tag cmd payload} (h : s.Inv) : (sendFor s tag cmd payload).Inv :=
  h.meter.send

theorem State.Inv.writeRing {part off size slots i bytes} (h : s.Inv) :
    (writeRing s part off size slots i bytes).Inv := by
  unfold Machine.writeRing
  extract_lets pa s1
  have hs1 : s1.Inv := h.storeBytesAt
  exact hs1.storeBytesAt

theorem State.Inv.writeStamp {bytes} (h : s.Inv) : (writeStamp s bytes).Inv := by
  unfold Machine.writeStamp
  extract_lets i r
  exact State.Inv.writeRing (.update h)

theorem State.Inv.writeLog {cyc pc addr cause mask act core gid x y z} (h : s.Inv) :
    (writeLog s cyc pc addr cause mask act core gid x y z).Inv := by
  unfold Machine.writeLog
  extract_lets i bytes r s1
  have hs1 : s1.Inv := State.Inv.writeRing (.update h)
  exact hs1.sendFor

theorem State.Inv.writeStop {g why wp hits} (h : s.Inv) : (writeStop s g why wp hits).Inv := by
  unfold Machine.writeStop
  extract_lets i t pcOf bytes r s1
  have hs1 : s1.Inv := State.Inv.writeRing (.update h)
  exact hs1.sendFor

theorem State.Inv.checkOut (h : s.Inv) : (checkOut s).Inv := by
  unfold Machine.checkOut
  extract_lets pa o n s' r
  have hs' : s'.Inv := State.Inv.ite (h.foldl fun _ _ h => h.ite h.sendFor) h
  exact State.Inv.ite (h.ite (.update hs')) h

theorem State.Inv.putAll {cells} (h : s.Inv) : (putAll s cells).Inv :=
  h.putLocs.checkOut

theorem State.Inv.putVisible {cells} (h : s.Inv) : (putVisible s cells).Inv :=
  h.putAll

theorem State.Inv.popStore (h : s.Inv) : (popStore s).Inv := by
  unfold Machine.popStore
  split
  · exact h
  · extract_lets r
    exact State.Inv.putVisible (.update h)

theorem State.Inv.drainStores (h : s.Inv) : (drainStores s).Inv := by
  unfold Machine.drainStores
  extract_lets r
  exact State.Inv.foldl (.update h) fun _ _ h => h.putVisible

theorem State.Inv.putGauge {l g} (h : s.Inv) : (putGauge s l g).Inv :=
  h.putAll

theorem State.Inv.showPending {l} (h : s.Inv) : (showPending s l).Inv :=
  h.putGauge

theorem State.Inv.dropWaits {p} (h : s.Inv) : (dropWaits s p).Inv := by
  unfold Machine.dropWaits
  extract_lets gone r
  exact State.Inv.foldl (.update h) fun _ _ h => h.showPending

theorem State.Inv.newHandle {origin kind} (h : s.Inv) : (newHandle s origin kind).1.Inv :=
  .update h

theorem State.Inv.settleGrids (h : s.Inv) : (settleGrids s).Inv := by
  unfold Machine.settleGrids
  extract_lets done s1 gone d d1
  have hs1 : s1.Inv := by
    unfold s1
    refine h.foldl fun s g h => ?_
    split
    · exact h.sendFor
    · exact h
  exact .update hs1

theorem State.Inv.settleQueue (h : s.Inv) : (settleQueue s).Inv :=
  .update h

theorem State.Inv.drainTeam (h : s.Inv) : (drainTeam s).Inv := by
  unfold Machine.drainTeam
  extract_lets s1
  have hs1 : s1.Inv := h.foldl fun _ _ h => h.foldl fun _ _ h => h.putVisible
  exact hs1.onGroups

theorem State.Inv.countLanes {n} (h : s.Inv) : (countLanes s n).Inv := by
  unfold Machine.countLanes
  extract_lets r
  exact h.ite (State.Inv.meter (.update h))

theorem State.Inv.setCanaries {mark} (h : s.Inv) : (setCanaries s mark).Inv := by
  unfold Machine.setCanaries
  extract_lets bank
  exact State.Inv.onTeams (.update h)

theorem State.Inv.landOutside {f} (h : s.Inv) : (landOutside s f).Inv :=
  (OptInv.of_map fun _ => h.countLanes.setCanaries).getD h.countLanes

theorem State.Inv.landActed (h : s.Inv) : (landActed s).Inv := by
  unfold Machine.landActed
  exact h.foldl fun _ _ h => h.landOutside.ite h

theorem State.Inv.endTeam {code again} (h : s.Inv) : (endTeam s code again).Inv := by
  unfold Machine.endTeam
  extract_lets s1 s2 js d d1 r
  have hs1 : s1.Inv := h.drainTeam.dropWaits.landActed
  have hs2 : s2.Inv := hs1.onGroups
  exact State.Inv.settleQueue (.update hs2)

theorem State.Inv.resolveLoad {l w} (h : s.Inv) : (resolveLoad s l w).Inv :=
  State.Inv.sendFor (.update h)

theorem State.Inv.dropDevice {n} (h : s.Inv) : (dropDevice s n).Inv := by
  unfold Machine.dropDevice
  split
  · exact h
  · next e =>
    extract_lets d s1 s2 rs mine
    have hs1 : s1.Inv := (OptInv.of_eq e h.stash.focusDevice).foldl fun _ _ h => h.resolveLoad
    have hs2 : s2.Inv := hs1.writeLog
    exact .update hs2

theorem State.Inv.loseDevice {n} (h : s.Inv) : (loseDevice s n).Inv := by
  unfold Machine.loseDevice
  extract_lets r
  have hr : r.Inv := h.dropDevice
  exact .update hr

theorem State.Inv.repairTable {pa} (h : s.Inv) : (repairTable s pa).Inv := by
  unfold Machine.repairTable
  exact h.loseDevice.ite (.update h)

theorem State.Inv.repairWalk {n va} (h : s.Inv) : (repairWalk n va s).Inv := by
  induction n generalizing s with
  | zero => exact h
  | succ n ih =>
    unfold Machine.repairWalk
    split
    · exact ih h.repairTable
    · exact h

theorem State.Inv.enterUser {c} (h : s.Inv) : (enterUser s c).Inv :=
  .update h

theorem State.Inv.enterSupervisor {c svc} (h : s.Inv) : (enterSupervisor s c svc).Inv := by
  unfold Machine.enterSupervisor
  extract_lets g s1 repair again t torn act s2
  have hs1 : s1.Inv := .update h
  have hs2 : s2.Inv := hs1.writeLog
  exact State.Inv.ite ((OptInv.of_map fun _ => hs2.repairTable).getD hs2) (hs2.ite hs2.endTeam)

theorem State.Inv.abandonSift (h : s.Inv) : (abandonSift s).Inv := by
  unfold Machine.abandonSift
  extract_lets drop
  exact h.onGroups

theorem State.Inv.enter {c} (h : s.Inv) : (enter s c).Inv := by
  unfold Machine.enter
  extract_lets r s1 svc r1
  have hs1 : s1.Inv := State.Inv.abandonSift (.update h)
  split
  · exact hs1.enterUser
  · split
    · exact State.Inv.repairTable (.update hs1)
    · exact hs1.enterSupervisor

theorem State.Inv.stopFor {c} (h : s.Inv) : (stopFor s c).Inv := by
  unfold Machine.stopFor
  extract_lets r
  exact h.ite (h.enter.ite (.update h))

theorem State.Inv.raise {c} (h : s.Inv) : (raise s c).Inv := by
  unfold Machine.raise
  extract_lets other
  split
  · split
    · exact h.abandonSift.enterSupervisor
    · exact .update h
    · exact h.abandonSift
  · exact h.stopFor

theorem State.Inv.releasePending (h : s.Inv) : (releasePending s).Inv := by
  unfold Machine.releasePending
  extract_lets r
  split
  · exact State.Inv.stopFor (.update h)
  · split
    · exact State.Inv.stopFor (.update h)
    · exact h

theorem State.Inv.returnFromTrap (h : s.Inv) : (returnFromTrap s).Inv := by
  unfold Machine.returnFromTrap
  extract_lets g a p p'
  exact State.Inv.releasePending (.update h)

/-! ### Canaries -/

theorem State.Inv.haltNow {x} (h : s.Inv) : (haltNow s x).Inv := by
  unfold Machine.haltNow
  extract_lets r s1 s2 r1
  have hs1 : s1.Inv := State.Inv.abandonSift (.update h)
  have hs2 : s2.Inv := hs1.writeStop
  exact State.Inv.ite (State.Inv.onGroups (.update hs2)) hs2

theorem State.Inv.settleHalt (h : s.Inv) : (settleHalt s).Inv := by
  unfold Machine.settleHalt
  extract_lets r
  split
  · exact h
  · split
    · exact .update h
    · exact h.ite h.haltNow

theorem State.Inv.haltGroup {x} (h : s.Inv) : (haltGroup s x).Inv := by
  unfold Machine.haltGroup
  extract_lets r
  exact h.ite (.update h)

theorem State.Inv.countHits {hs} (h : s.Inv) : (countHits s hs).Inv := by
  unfold Machine.countHits
  exact h.foldl fun _ _ h => h.onCore.ite h

theorem State.Inv.parkLanes {i pc x} (h : s.Inv) : (parkLanes s i pc x).Inv := by
  unfold Machine.parkLanes
  extract_lets p lanes g s1
  have hs1 : s1.Inv := .update h
  exact h.haltGroup.ite (h.haltGroup.ite (hs1.dropWaits.ite hs1))

theorem State.Inv.watchSince {told at_ i evs phases c} (h : s.Inv) : (watchSince s told at_ i evs phases c).Inv := by
  unfold Machine.watchSince
  extract_lets bank hs s1 best
  have hs1 : s1.Inv := h.countHits
  split
  · exact h
  · split
    · exact hs1.haltGroup
    · exact hs1.haltGroup
    · exact hs1.ite hs1.raise
    · exact hs1.parkLanes
    · exact hs1

theorem State.Inv.watchEvents {i evs phases c} (h : s.Inv) : (watchEvents s i evs phases c).Inv :=
  h.watchSince

/-! ### How an instruction ends -/

theorem State.Inv.raiseTrap {slot pc next dst o} (h : s.Inv) : (raiseTrap s slot pc next dst o).Inv := by
  unfold Machine.raiseTrap
  split
  · exact h
  · exact h.raise

theorem State.Inv.finishShort {e : Effect} {i} (h : e.Inv) : (finishShort i e).Inv := by
  unfold Machine.finishShort
  extract_lets p next r s t s1
  have hr : r.Inv := h
  have hs : s.Inv := State.Inv.countLanes (.update hr)
  have hs1 : s1.Inv := hs.raiseTrap
  exact hs1.watchSince

theorem State.Inv.launchLong {e : Effect} {i} (h : e.Inv) : (launchLong i e).Inv := by
  unfold Machine.launchLong
  extract_lets f p g g1 r s
  have hr : r.Inv := h
  have hs : s.Inv := .update hr
  exact hs.watchEvents

theorem State.Inv.issue {i r} (h : s.Inv) (hr : ExcInv Effect.Inv r) : OutInv (issue i r s) := by
  cases r with
  | error r => exact h.raise
  | ok e => exact State.Inv.ite (State.Inv.launchLong hr) (State.Inv.finishShort hr)

theorem State.Inv.landAt {k} (h : s.Inv) : (landAt s k).Inv := by
  unfold Machine.landAt
  split
  · exact h
  · extract_lets s1 t s2
    have hs1 : s1.Inv := State.Inv.landOutside (.update h)
    have hs2 : s2.Inv := hs1.raiseTrap
    exact hs2.watchSince

theorem State.Inv.landOwnFrom {n k} (h : s.Inv) : (landOwnFrom n k s).Inv := by
  induction n generalizing k s with
  | zero => exact h
  | succ n ih =>
    unfold Machine.landOwnFrom
    split
    · exact h
    · exact State.Inv.ite (ih h.landAt) (ih h)

theorem State.Inv.landOwn (h : s.Inv) : (landOwn s).Inv :=
  h.landOwnFrom

/-! ### Scalar instructions -/

theorem State.Inv.scaIssue {i d pr r} (h : s.Inv) : OutInv (scaIssue i d pr r s) :=
  h.issue (ExcInv.of_map fun _ => h)

theorem State.Inv.scaFp {i d pr r} (h : s.Inv) : OutInv (scaFp i d pr r s) :=
  h.issue (ExcInv.of_map fun _ => h)

theorem State.Inv.execNop (h : s.Inv) : OutInv (execNop s) :=
  h.issue h

theorem State.Inv.execSAdd {pr d a b} (h : s.Inv) : OutInv (execSAdd pr d a b s) :=
  h.scaIssue

theorem State.Inv.execSAddI {d a imm} (h : s.Inv) : OutInv (execSAddI d a imm s) :=
  h.scaIssue

theorem State.Inv.execSSub {pr d a b} (h : s.Inv) : OutInv (execSSub pr d a b s) :=
  h.scaIssue

theorem State.Inv.execSSubI {d a imm} (h : s.Inv) : OutInv (execSSubI d a imm s) :=
  h.scaIssue

theorem State.Inv.execSMul {pr d a b} (h : s.Inv) : OutInv (execSMul pr d a b s) :=
  h.scaIssue

theorem State.Inv.execSMulI {d a imm} (h : s.Inv) : OutInv (execSMulI d a imm s) :=
  h.scaIssue

theorem State.Inv.execSMulh {ty d a b} (h : s.Inv) : OutInv (execSMulh ty d a b s) :=
  h.scaIssue

theorem State.Inv.execSMulhI {ts d a imm} (h : s.Inv) : OutInv (execSMulhI ts d a imm s) :=
  h.scaIssue

theorem State.Inv.execSMad {d a b c} (h : s.Inv) : OutInv (execSMad d a b c s) :=
  h.scaIssue

theorem State.Inv.execSAnd {pr d a b} (h : s.Inv) : OutInv (execSAnd pr d a b s) :=
  h.scaIssue

theorem State.Inv.execSAndI {d a imm} (h : s.Inv) : OutInv (execSAndI d a imm s) :=
  h.scaIssue

theorem State.Inv.execSOr {pr d a b} (h : s.Inv) : OutInv (execSOr pr d a b s) :=
  h.scaIssue

theorem State.Inv.execSOrI {d a imm} (h : s.Inv) : OutInv (execSOrI d a imm s) :=
  h.scaIssue

theorem State.Inv.execSXor {pr d a b} (h : s.Inv) : OutInv (execSXor pr d a b s) :=
  h.scaIssue

theorem State.Inv.execSXorI {d a imm} (h : s.Inv) : OutInv (execSXorI d a imm s) :=
  h.scaIssue

theorem State.Inv.execSNot {pr d a} (h : s.Inv) : OutInv (execSNot pr d a s) :=
  h.scaIssue

theorem State.Inv.execSShl {pr d a b} (h : s.Inv) : OutInv (execSShl pr d a b s) :=
  h.scaIssue

theorem State.Inv.execSShlI {d a imm} (h : s.Inv) : OutInv (execSShlI d a imm s) :=
  h.scaIssue

theorem State.Inv.execSShr {pr d a b} (h : s.Inv) : OutInv (execSShr pr d a b s) :=
  h.scaIssue

theorem State.Inv.execSShrI {d a imm} (h : s.Inv) : OutInv (execSShrI d a imm s) :=
  h.scaIssue

theorem State.Inv.execSSar {pr d a b} (h : s.Inv) : OutInv (execSSar pr d a b s) :=
  h.scaIssue

theorem State.Inv.execSSarI {d a imm} (h : s.Inv) : OutInv (execSSarI d a imm s) :=
  h.scaIssue

theorem State.Inv.execSMin {ty d a b} (h : s.Inv) : OutInv (execSMin ty d a b s) :=
  h.scaIssue

theorem State.Inv.execSMinI {ts d a imm} (h : s.Inv) : OutInv (execSMinI ts d a imm s) :=
  h.scaIssue

theorem State.Inv.execSMax {ty d a b} (h : s.Inv) : OutInv (execSMax ty d a b s) :=
  h.scaIssue

theorem State.Inv.execSMaxI {ts d a imm} (h : s.Inv) : OutInv (execSMaxI ts d a imm s) :=
  h.scaIssue

theorem State.Inv.execSCmp {ty cc d a b} (h : s.Inv) : OutInv (execSCmp ty cc d a b s) := by
  unfold Machine.execSCmp
  extract_lets pr r
  exact h.scaFp

theorem State.Inv.execSSel {pr d a b c} (h : s.Inv) : OutInv (execSSel pr d a b c s) :=
  h.scaIssue

theorem State.Inv.execSMov {pr d a} (h : s.Inv) : OutInv (execSMov pr d a s) :=
  h.scaIssue

theorem State.Inv.execSMovi {ts d imm} (h : s.Inv) : OutInv (execSMovi ts d imm s) :=
  h.scaIssue

theorem State.Inv.execSBfe {ty d a b} (h : s.Inv) : OutInv (execSBfe ty d a b s) :=
  h.scaIssue

theorem State.Inv.execSBfi {d a b c} (h : s.Inv) : OutInv (execSBfi d a b c s) :=
  h.scaIssue

theorem State.Inv.execSPopc {d a} (h : s.Inv) : OutInv (execSPopc d a s) :=
  h.scaIssue

theorem State.Inv.execSClz {d a} (h : s.Inv) : OutInv (execSClz d a s) :=
  h.scaIssue

theorem State.Inv.execSAddc {co d a b c} (h : s.Inv) : OutInv (execSAddc co d a b c s) :=
  h.scaIssue

theorem State.Inv.execSAddcI {d a imm} (h : s.Inv) : OutInv (execSAddcI d a imm s) :=
  h.scaIssue

theorem State.Inv.execSGetl {d a b} (h : s.Inv) : OutInv (execSGetl d a b s) :=
  h.scaIssue

theorem State.Inv.execSFadd {m d a b} (h : s.Inv) : OutInv (execSFadd m d a b s) :=
  h.scaFp

theorem State.Inv.execSFaddI {dyn d a imm} (h : s.Inv) : OutInv (execSFaddI dyn d a imm s) :=
  h.scaFp

theorem State.Inv.execSFmul {m d a b} (h : s.Inv) : OutInv (execSFmul m d a b s) :=
  h.scaFp

theorem State.Inv.execSFmulI {dyn d a imm} (h : s.Inv) : OutInv (execSFmulI dyn d a imm s) :=
  h.scaFp

theorem State.Inv.execSFma {m d a b c} (h : s.Inv) : OutInv (execSFma m d a b c s) := by
  unfold Machine.execSFma
  extract_lets r
  exact h.scaFp

theorem State.Inv.execSCvt {ty m cv d a} (h : s.Inv) : OutInv (execSCvt ty m cv d a s) := by
  unfold Machine.execSCvt
  extract_lets r
  exact h.scaFp

/-! ### Vector instructions -/

theorem State.Inv.vec1 {i ty d a f} (h : s.Inv) : OutInv (vec1 i ty d a f s) := by
  unfold Machine.vec1
  extract_lets pr
  exact h.issue h

theorem State.Inv.vec2 {i ty aff d a b f} (h : s.Inv) : OutInv (vec2 i ty aff d a b f s) := by
  unfold Machine.vec2
  extract_lets pr t
  exact h.issue h

theorem State.Inv.vecI {i aff d a imm f} (h : s.Inv) : OutInv (vecI i aff d a imm f s) := by
  unfold Machine.vecI
  extract_lets t
  exact h.issue h

theorem State.Inv.vec3 {i d a b c f} (h : s.Inv) : OutInv (vec3 i d a b c f s) :=
  h.issue h

theorem State.Inv.vecShift {i ty aff d a b f} (h : s.Inv) : OutInv (vecShift i ty aff d a b f s) := by
  unfold Machine.vecShift
  extract_lets pr t all
  exact h.issue h

theorem State.Inv.execAdd {ty sat d a b} (h : s.Inv) : OutInv (execAdd ty sat d a b s) :=
  h.vec2

theorem State.Inv.execAddI {ts d a imm} (h : s.Inv) : OutInv (execAddI ts d a imm s) :=
  h.vecI

theorem State.Inv.execSub {ty sat d a b} (h : s.Inv) : OutInv (execSub ty sat d a b s) :=
  h.vec2

theorem State.Inv.execSubI {ts d a imm} (h : s.Inv) : OutInv (execSubI ts d a imm s) :=
  h.vecI

theorem State.Inv.execMul {ty d a b} (h : s.Inv) : OutInv (execMul ty d a b s) :=
  h.vec2

theorem State.Inv.execMulI {ts d a imm} (h : s.Inv) : OutInv (execMulI ts d a imm s) :=
  h.vecI

theorem State.Inv.execMulh {ty d a b} (h : s.Inv) : OutInv (execMulh ty d a b s) :=
  h.vec2

theorem State.Inv.execMulhI {ts d a imm} (h : s.Inv) : OutInv (execMulhI ts d a imm s) :=
  h.vecI

theorem State.Inv.execMad {ty d a b c} (h : s.Inv) : OutInv (execMad ty d a b c s) :=
  h.vec3

theorem State.Inv.execAnd {ty d a b} (h : s.Inv) : OutInv (execAnd ty d a b s) :=
  h.vec2

theorem State.Inv.execAndI {ts d a imm} (h : s.Inv) : OutInv (execAndI ts d a imm s) :=
  h.vecI

theorem State.Inv.execOr {ty d a b} (h : s.Inv) : OutInv (execOr ty d a b s) :=
  h.vec2

theorem State.Inv.execOrI {ts d a imm} (h : s.Inv) : OutInv (execOrI ts d a imm s) :=
  h.vecI

theorem State.Inv.execXor {ty d a b} (h : s.Inv) : OutInv (execXor ty d a b s) :=
  h.vec2

theorem State.Inv.execXorI {ts d a imm} (h : s.Inv) : OutInv (execXorI ts d a imm s) :=
  h.vecI

theorem State.Inv.execNot {ty d a} (h : s.Inv) : OutInv (execNot ty d a s) :=
  h.vec1

theorem State.Inv.execShl {ty d a b} (h : s.Inv) : OutInv (execShl ty d a b s) :=
  h.vecShift

theorem State.Inv.execShlI {ts d a imm} (h : s.Inv) : OutInv (execShlI ts d a imm s) :=
  h.vecI

theorem State.Inv.execShr {ty d a b} (h : s.Inv) : OutInv (execShr ty d a b s) :=
  h.vecShift

theorem State.Inv.execShrI {ts d a imm} (h : s.Inv) : OutInv (execShrI ts d a imm s) :=
  h.vecI

theorem State.Inv.execSar {ty d a b} (h : s.Inv) : OutInv (execSar ty d a b s) :=
  h.vecShift

theorem State.Inv.execSarI {ts d a imm} (h : s.Inv) : OutInv (execSarI ts d a imm s) :=
  h.vecI

theorem State.Inv.execMin {ty d a b} (h : s.Inv) : OutInv (execMin ty d a b s) :=
  h.vec2

theorem State.Inv.execMinI {ts d a imm} (h : s.Inv) : OutInv (execMinI ts d a imm s) :=
  h.vecI

theorem State.Inv.execMax {ty d a b} (h : s.Inv) : OutInv (execMax ty d a b s) :=
  h.vec2

theorem State.Inv.execMaxI {ts d a imm} (h : s.Inv) : OutInv (execMaxI ts d a imm s) :=
  h.vecI

theorem State.Inv.execAbs {ty d a} (h : s.Inv) : OutInv (execAbs ty d a s) :=
  h.vec1

theorem State.Inv.execBfe {ty d a b} (h : s.Inv) : OutInv (execBfe ty d a b s) :=
  h.vec2

theorem State.Inv.execBfi {d a b c} (h : s.Inv) : OutInv (execBfi d a b c s) :=
  h.vec3

theorem State.Inv.execPopc {d a} (h : s.Inv) : OutInv (execPopc d a s) :=
  h.vec1

theorem State.Inv.execClz {d a} (h : s.Inv) : OutInv (execClz d a s) :=
  h.vec1

theorem State.Inv.execAddc {ty co d a b c} (h : s.Inv) : OutInv (execAddc ty co d a b c s) :=
  h.vec3

theorem State.Inv.execAddcI {ts d a imm} (h : s.Inv) : OutInv (execAddcI ts d a imm s) :=
  h.vecI

theorem State.Inv.execLsel {hi lo d a b c} (h : s.Inv) : OutInv (execLsel hi lo d a b c s) :=
  h.vec3

theorem State.Inv.execPrmt {d a b c} (h : s.Inv) : OutInv (execPrmt d a b c s) :=
  h.vec3

theorem State.Inv.execCmp {ty cc d a b} (h : s.Inv) : OutInv (execCmp ty cc d a b s) := by
  unfold Machine.execCmp
  extract_lets pr m r at_ fp ws r1
  have hr1 : r1.Inv := h
  exact h.issue hr1

theorem State.Inv.execSel {ty d a b c} (h : s.Inv) : OutInv (execSel ty d a b c s) := by
  unfold Machine.execSel
  extract_lets pr byLane pick all
  exact h.issue h

theorem State.Inv.execMov {ty d a} (h : s.Inv) : OutInv (execMov ty d a s) := by
  unfold Machine.execMov
  extract_lets lo hiTag hi
  exact h.issue h

theorem State.Inv.execMovI {ts d imm} (h : s.Inv) : OutInv (execMovI ts d imm s) :=
  h.issue h

theorem State.Inv.execMovx {a b} (h : s.Inv) : OutInv (execMovx a b s) := by
  unfold Machine.execMovx
  extract_lets r
  have hr : ExcInv Effect.Inv r := by
    unfold r
    split
    · exact h
    · exact ExcInv.of_bind fun _ => ExcInv.of_map fun _ => h
  exact h.issue hr

theorem State.Inv.execPutl {d a b} (h : s.Inv) : OutInv (execPutl d a b s) := by
  unfold Machine.execPutl
  extract_lets r
  have hr : ExcInv Effect.Inv r := by
    unfold r
    split
    · exact h
    · exact ExcInv.of_bind fun _ => ExcInv.of_map fun _ => h
  exact h.issue hr

theorem State.Inv.execShape {d a} (h : s.Inv) : OutInv (execShape d a s) :=
  h.scaIssue

theorem State.Inv.execBpack {d a} (h : s.Inv) : OutInv (execBpack d a s) := by
  unfold Machine.execBpack
  extract_lets m word
  exact h.issue h

theorem State.Inv.execBunpack {n d a} (h : s.Inv) : OutInv (execBunpack n d a s) := by
  unfold Machine.execBunpack
  extract_lets p plane val out
  exact h.issue h

/-! ### Floating instructions -/

theorem State.Inv.vecFlagged {i d pr all f} (h : s.Inv) : OutInv (vecFlagged i d pr all f s) := by
  unfold Machine.vecFlagged
  extract_lets m r r1
  have hr1 : r1.Inv := h
  exact h.issue hr1

theorem State.Inv.vecFp2 {i ty d a b f} (h : s.Inv) : OutInv (vecFp2 i ty d a b f s) :=
  h.vecFlagged

theorem State.Inv.vecFpI {i d a imm f} (h : s.Inv) : OutInv (vecFpI i d a imm f s) :=
  h.vecFlagged

theorem State.Inv.vecFp1 {i ty d a f} (h : s.Inv) : OutInv (vecFp1 i ty d a f s) :=
  h.vecFlagged

theorem State.Inv.vecRaw {i d a f} (h : s.Inv) : OutInv (vecRaw i d a f s) :=
  h.vecFlagged

theorem State.Inv.execFadd {ty m d a b} (h : s.Inv) : OutInv (execFadd ty m d a b s) :=
  h.vecFp2

theorem State.Inv.execFaddI {dyn d a imm} (h : s.Inv) : OutInv (execFaddI dyn d a imm s) :=
  h.vecFpI

theorem State.Inv.execFsub {ty m d a b} (h : s.Inv) : OutInv (execFsub ty m d a b s) :=
  h.vecFp2

theorem State.Inv.execFsubI {dyn d a imm} (h : s.Inv) : OutInv (execFsubI dyn d a imm s) :=
  h.vecFpI

theorem State.Inv.execFmul {ty m d a b} (h : s.Inv) : OutInv (execFmul ty m d a b s) :=
  h.vecFp2

theorem State.Inv.execFmulI {dyn d a imm} (h : s.Inv) : OutInv (execFmulI dyn d a imm s) :=
  h.vecFpI

theorem State.Inv.execFma {ty m d a b c} (h : s.Inv) : OutInv (execFma ty m d a b c s) :=
  h.vecFlagged

theorem State.Inv.execFmin {ty d a b} (h : s.Inv) : OutInv (execFmin ty d a b s) :=
  h.vecFp2

theorem State.Inv.execFminI {dyn d a imm} (h : s.Inv) : OutInv (execFminI dyn d a imm s) :=
  h.vecFpI

theorem State.Inv.execFmax {ty d a b} (h : s.Inv) : OutInv (execFmax ty d a b s) :=
  h.vecFp2

theorem State.Inv.execFmaxI {dyn d a imm} (h : s.Inv) : OutInv (execFmaxI dyn d a imm s) :=
  h.vecFpI

theorem State.Inv.execFcmp {ty cc d a b} (h : s.Inv) : OutInv (execFcmp ty cc d a b s) :=
  h.vecFlagged

theorem State.Inv.execFrcpSeed {d a} (h : s.Inv) : OutInv (execFrcpSeed d a s) :=
  h.vecRaw

theorem State.Inv.execFrsqSeed {d a} (h : s.Inv) : OutInv (execFrsqSeed d a s) :=
  h.vecRaw

theorem State.Inv.execFsqrt {m d a} (h : s.Inv) : OutInv (execFsqrt m d a s) :=
  h.vecFp1

theorem State.Inv.execFexp2 {d a} (h : s.Inv) : OutInv (execFexp2 d a s) :=
  h.vecRaw

theorem State.Inv.execFlog2 {d a} (h : s.Inv) : OutInv (execFlog2 d a s) :=
  h.vecRaw

theorem State.Inv.execFsin {d a} (h : s.Inv) : OutInv (execFsin d a s) :=
  h.vecRaw

theorem State.Inv.execFcos {d a} (h : s.Inv) : OutInv (execFcos d a s) :=
  h.vecRaw

theorem State.Inv.execFrnd {ty m d a} (h : s.Inv) : OutInv (execFrnd ty m d a s) :=
  h.vecFp1

theorem State.Inv.execFclass {d a} (h : s.Inv) : OutInv (execFclass d a s) :=
  h.vecRaw

theorem State.Inv.execFscale {m d a b} (h : s.Inv) : OutInv (execFscale m d a b s) :=
  h.vecFlagged

theorem State.Inv.execFexpo {d a} (h : s.Inv) : OutInv (execFexpo d a s) :=
  h.vecRaw

theorem State.Inv.execFdot2 {m f16 d a b c} (h : s.Inv) : OutInv (execFdot2 m f16 d a b c s) :=
  h.vecFlagged

theorem State.Inv.execCvt {ty m cv d a b} (h : s.Inv) : OutInv (execCvt ty m cv d a b s) := by
  unfold Machine.execCvt
  extract_lets srcs
  exact h.vecFlagged

/-! ### Cross-lane instructions -/

theorem State.Inv.crossIssue {i c idle f} (h : s.Inv) : OutInv (crossIssue i c idle f s) := by
  unfold Machine.crossIssue
  extract_lets r r1
  have hr : r.Inv := h
  have hr1 : ExcInv Effect.Inv r1 := by
    unfold r1
    split
    · exact hr
    · exact ExcInv.of_bind fun _ => ExcInv.of_map fun _ => h
  exact h.issue hr1

theorem State.Inv.execShfl {md w pr d a b c} (h : s.Inv) : OutInv (execShfl md w pr d a b c s) :=
  h.crossIssue

theorem State.Inv.execVote {md w d a c} (h : s.Inv) : OutInv (execVote md w d a c s) :=
  h.crossIssue

theorem State.Inv.execMatchOp {w pr d a c} (h : s.Inv) : OutInv (execMatchOp w pr d a c s) :=
  h.crossIssue

theorem State.Inv.execCmpct {w d a b c} (h : s.Inv) : OutInv (execCmpct w d a b c s) := by
  unfold Machine.execCmpct
  extract_lets r
  have hr : ExcInv Effect.Inv r := by
    unfold r
    split
    · exact h
    · exact ExcInv.of_bind fun _ => ExcInv.of_map fun _ => h
  exact h.issue hr

theorem State.Inv.execRed {op w ty d a c} (h : s.Inv) : OutInv (execRed op w ty d a c s) :=
  h.crossIssue

theorem State.Inv.execScan {op excl w ty d a c} (h : s.Inv) : OutInv (execScan op excl w ty d a c s) :=
  h.crossIssue

/-! ### Accesses -/

theorem State.Inv.refocus {r : State} (hr : r.Inv) : (refocus s r).Inv := by
  unfold Machine.refocus
  split
  · exact hr
  · split
    · next e => exact State.Inv.ite (.update (OptInv.of_eq e hr.focusTeam)) (OptInv.of_eq e hr.focusTeam)
    · exact hr.stash.focusDevice.getD hr

theorem State.Inv.withTeam {f : State → State} {t} (h : s.Inv) (hf : ∀ x, x.Inv → (f x).Inv) :
    (withTeam s t f).Inv := by
  unfold Machine.withTeam
  split
  · exact h
  · next e =>
    extract_lets r
    have hr : r.Inv := hf _ (OptInv.of_eq e h.focusTeam)
    split
    · next e1 => exact .update (OptInv.of_eq e1 hr.focusGroup)
    · exact hr.refocus

theorem State.Inv.withGroup {f : State → State} {r} (h : s.Inv) (hf : ∀ x, x.Inv → (f x).Inv) :
    (withGroup s r f).Inv := by
  unfold Machine.withGroup
  split
  · exact h
  · next e =>
    extract_lets t
    have ht : t.Inv := hf _ (OptInv.of_eq e h.focusGroup)
    split
    · next e1 => exact .update (OptInv.of_eq e1 ht.focusGroup)
    · exact ht

theorem State.Inv.loseTeam {t code detail} (h : s.Inv) : (loseTeam s t code detail).Inv := by
  unfold Machine.loseTeam
  exact h.withTeam (fun _ h => h.ite h.writeLog.endTeam)

theorem State.Inv.pushStore {spc cells} (h : s.Inv) : (pushStore s spc cells).Inv := by
  unfold Machine.pushStore
  extract_lets r
  exact h.ite (h.putLocs.ite (.update h))

theorem State.Inv.putSumps {cells} (h : s.Inv) : (putSumps s cells).Inv :=
  h.putCached

theorem State.Inv.putSump {off bs} (h : s.Inv) : (putSump s off bs).Inv :=
  h.putSumps

theorem State.Inv.pushEntry {e} (h : s.Inv) : (pushEntry s e).Inv := by
  unfold Machine.pushEntry
  extract_lets s' r
  have hs' : s'.Inv := h.putSump
  exact .update hs'

theorem State.Inv.popEntry (h : s.Inv) : (popEntry s).Inv :=
  .update h

/-! ### Control -/

theorem State.Inv.control {i r} (h : s.Inv) (hr : ExcInv State.Inv r) : OutInv (control i r s) := by
  cases r with
  | error r => exact h.raise
  | ok t => exact hr

theorem State.Inv.branchTo {taken off} (h : s.Inv) : (branchTo s taken off).Inv := by
  unfold Machine.branchTo
  extract_lets p
  exact h.setCur

theorem State.Inv.maskIssue {i r} (h : s.Inv) : OutInv (maskIssue i r s) := by
  unfold Machine.maskIssue
  refine h.issue (ExcInv.of_bind fun m => ?_)
  extract_lets r1
  split
  · trivial
  · exact h.setCur

theorem State.Inv.execExecGet {d} (h : s.Inv) : OutInv (execExecGet d s) :=
  h.scaIssue

theorem State.Inv.execExecSet {a} (h : s.Inv) : OutInv (execExecSet a s) :=
  h.maskIssue

theorem State.Inv.execExecAnd {a} (h : s.Inv) : OutInv (execExecAnd a s) :=
  h.maskIssue

theorem State.Inv.execExecAndn {a} (h : s.Inv) : OutInv (execExecAndn a s) :=
  h.maskIssue

theorem State.Inv.execMAnd {d a b} (h : s.Inv) : OutInv (execMAnd d a b s) :=
  h.scaIssue

theorem State.Inv.execMOr {d a b} (h : s.Inv) : OutInv (execMOr d a b s) :=
  h.scaIssue

theorem State.Inv.execMXor {d a b} (h : s.Inv) : OutInv (execMXor d a b s) :=
  h.scaIssue

theorem State.Inv.execMNot {d a} (h : s.Inv) : OutInv (execMNot d a s) :=
  h.scaIssue

theorem State.Inv.execMFfs {d a} (h : s.Inv) : OutInv (execMFfs d a s) :=
  h.scaIssue

theorem State.Inv.execBr {off} (h : s.Inv) : OutInv (execBr off s) :=
  h.control h.branchTo

theorem State.Inv.execBz {c off} (h : s.Inv) : OutInv (execBz c off s) :=
  h.control (ExcInv.of_map fun _ => h.branchTo)

theorem State.Inv.execBnz {c off} (h : s.Inv) : OutInv (execBnz c off s) :=
  h.control (ExcInv.of_map fun _ => h.branchTo)

theorem State.Inv.execBexz {c off} (h : s.Inv) : OutInv (execBexz c off s) :=
  h.control (ExcInv.of_map fun _ => h.branchTo)

theorem State.Inv.splitOn {cond off} (h : s.Inv) : ExcInv State.Inv (splitOn s cond off) := by
  unfold Machine.splitOn
  extract_lets p taken fall q here g s1
  have hs1 : s1.Inv := h.pushEntry
  split
  · exact h.setCur
  · split
    · exact h.branchTo
    · split
      · exact .update h
      · split
        · trivial
        · exact hs1.setCur

theorem State.Inv.execBrs {c off} (h : s.Inv) : OutInv (execBrs c off s) :=
  h.control (ExcInv.of_bind fun _ => h.splitOn)

theorem State.Inv.execCall {l off} (h : s.Inv) : OutInv (execCall l off s) := by
  unfold Machine.execCall
  extract_lets ret
  exact h.control (State.Inv.branchTo (.update h))

theorem State.Inv.execRet {l} (h : s.Inv) : OutInv (execRet l s) :=
  h.control (ExcInv.of_map fun _ => h.setCur)

theorem State.Inv.settleSlices (h : s.Inv) : (settleSlices s).Inv := by
  unfold Machine.settleSlices
  extract_lets gone r r1
  exact h.ite (.update h)

theorem State.Inv.joinSteps_joinEnd {i j p q} (h : s.Inv) : (joinSteps.joinEnd i j s p q).Inv := by
  unfold Machine.joinSteps.joinEnd
  extract_lets both r r1
  split
  · exact .update h
  · extract_lets pa r2
    exact State.Inv.ite (.update h) (State.Inv.ite (.update h) (.update h))

theorem State.Inv.joinSteps {n i j} (h : s.Inv) : ExcInv State.Inv (joinSteps n i j s) := by
  induction n generalizing s j with
  | zero => exact h
  | succ n ih =>
    unfold Machine.joinSteps
    extract_lets p q pops s1 inner src s2 s3
    split
    · split
      · trivial
      · split
        · exact ih (.update h.popEntry)
        · split
          · have hs1 : s1.Inv := h.popEntry
            have hs2 : s2.Inv := .update hs1
            have hs3 : s3.Inv := hs2.ite hs2.pushEntry
            exact .update hs3
          · exact h.joinSteps_joinEnd
    · exact h.joinSteps_joinEnd

theorem State.Inv.joinAt {i} (h : s.Inv) : ExcInv State.Inv (joinAt s i) :=
  h.joinSteps.bind fun t ht => by
    dsimp only
    split
    · trivial
    · exact ht.settleSlices

theorem State.Inv.execJoin (h : s.Inv) : OutInv (execJoin s) :=
  h.control h.joinAt

theorem State.Inv.settleBarriers (h : s.Inv) : (settleBarriers s).Inv := by
  unfold Machine.settleBarriers
  extract_lets gs
  exact h.ite (h.foldl fun _ _ h => State.Inv.ite (.update h) h)

theorem State.Inv.leaveHandler (h : s.Inv) : (leaveHandler s).Inv := by
  unfold Machine.leaveHandler
  exact State.Inv.ite (State.Inv.releasePending (.update h)) h

theorem State.Inv.exitLanes (h : s.Inv) : ExcInv State.Inv (exitLanes s) := by
  unfold Machine.exitLanes
  extract_lets p src s1 s2
  have hs2 : s2.Inv := .update h
  exact hs2.joinSteps.map fun t ht => ht.settleSlices.settleBarriers

theorem State.Inv.execExit (h : s.Inv) : OutInv (execExit s) := by
  unfold Machine.execExit
  extract_lets cause
  split
  · exact h.raise
  · next t e =>
    have ht : t.Inv := ExcInv.of_eq e h.exitLanes
    exact ht.raise.ite ht.leaveHandler

theorem State.Inv.arrive {n} (h : s.Inv) : (arrive s n).Inv := by
  unfold Machine.arrive
  extract_lets p m r
  exact State.Inv.settleBarriers (.update h)

theorem State.Inv.pauseAs {w} (h : s.Inv) : (pauseAs s w).Inv :=
  h.setCur

theorem State.Inv.execBarArr {n} (h : s.Inv) : OutInv (execBarArr n s) := by
  unfold Machine.execBarArr
  split
  · exact h.pauseAs
  · exact h.issue h.drainStores.arrive

theorem State.Inv.execBarWait {n} (h : s.Inv) : OutInv (execBarWait n s) := by
  unfold Machine.execBarWait
  split
  · exact h.pauseAs
  · exact h.issue h

theorem State.Inv.execBarSync {n} (h : s.Inv) : OutInv (execBarSync n s) := by
  unfold Machine.execBarSync
  extract_lets s'
  have hs' : s'.Inv := h.ite h.drainStores.arrive
  split
  · exact hs'.pauseAs
  · exact h.issue hs'

theorem State.Inv.execYield (h : s.Inv) : OutInv (execYield s) := by
  unfold Machine.execYield
  extract_lets p
  exact h.setCur

theorem State.Inv.putShared {off bs} (h : s.Inv) : (putShared s off bs).Inv :=
  h.putLocs

theorem State.Inv.setQueue {q tail head} (h : s.Inv) : (setQueue s q tail head).Inv := by
  unfold Machine.setQueue
  extract_lets r s1
  have hs1 : s1.Inv := .update h
  exact hs1.putShared

theorem State.Inv.execQPut {q a} (h : s.Inv) : OutInv (execQPut q a s) := by
  unfold Machine.execQPut
  extract_lets k d ws c xs s' s'1 s'2 r r1
  have hs' : s'.Inv := h.drainStores
  have hs'1 : s'1.Inv := hs'.putShared
  have hs'2 : s'2.Inv := hs'1.setQueue
  split
  · exact h.issue trivial
  · split
    · exact h.issue (.update hs'2)
    · exact State.Inv.pauseAs (.update h)

theorem State.Inv.execQGet {q dst} (h : s.Inv) : OutInv (execQGet q dst s) := by
  unfold Machine.execQGet
  extract_lets k d ws c off bs xs s' r r1
  have hs' : s'.Inv := h.setQueue
  split
  · exact h.issue trivial
  · split
    · refine h.issue ?_
      split
      · trivial
      · exact .update hs'
    · exact State.Inv.pauseAs (.update h)

/-! ### The memory side: tables, blocks and lines -/

theorem State.Inv.onBinding {slot f} (h : s.Inv) : (onBinding s slot f).Inv := by
  unfold Machine.onBinding
  split
  · exact .update h
  · exact h

theorem State.Inv.storeSlot {sl pa _va bytes word} (h : s.Inv) : (storeSlot s sl pa _va bytes word).Inv := by
  unfold Machine.storeSlot
  extract_lets s1 s2
  have hs1 : s1.Inv := h.putBytes
  have hs2 : s2.Inv := hs1.putBytes
  exact hs2.meter

theorem State.Inv.storeRaw {sl pa va plain poison} (h : s.Inv) : (storeRaw s sl pa va plain poison).Inv := by
  unfold Machine.storeRaw
  extract_lets s1
  have hs1 : s1.Inv := h.storeSlot
  exact hs1.foldl fun _ _ h => h.addPoison

theorem State.Inv.storeEncoded {slot sl pa va e metered} (h : s.Inv) :
    (storeEncoded s slot sl pa va e metered).Inv := by
  unfold Machine.storeEncoded
  extract_lets s1
  have hs1 : s1.Inv := h.storeSlot
  exact hs1.onBinding.meter

theorem State.Inv.storeBlock {slot sl pa va plain poison} (h : s.Inv) :
    (storeBlock s slot sl pa va plain poison).Inv :=
  h.storeRaw.ite h.storeEncoded

theorem State.Inv.writeBack {pa b} (h : s.Inv) : (writeBack s pa b).Inv := by
  unfold Machine.writeBack
  extract_lets s1
  have hs1 : s1.Inv := .update h
  split
  · split
    · exact hs1.storeBlock
    · exact hs1.putBytes.foldl fun _ _ h => h.addPoison
  · exact h

theorem State.Inv.dropRun {pa} (h : s.Inv) : (dropRun s pa).Inv :=
  .update h

theorem State.Inv.addRun {r} (h : s.Inv) : (addRun s r).Inv := by
  unfold Machine.addRun
  exact State.Inv.ite (.update h) (.update h)

theorem State.Inv.startEncode {e} (h : s.Inv) : (startEncode s e).Inv := by
  unfold Machine.startEncode
  split
  · exact h
  · split
    · split
      · exact h.addRun
      · exact h
    · exact h

theorem State.Inv.leaveClean {pa} (h : s.Inv) : (leaveClean s pa).Inv := by
  unfold Machine.leaveClean
  split
  · exact h.ite (.update h)
  · exact h

theorem State.Inv.finishEncode {x} (h : s.Inv) : (finishEncode s x).Inv := by
  unfold Machine.finishEncode
  extract_lets s1 t
  have hs1 : s1.Inv := .update h
  have ht : t.Inv := by
    unfold t
    split
    · split
      · exact hs1.storeBlock.ite hs1.storeEncoded
      · exact hs1.storeBlock
    · exact hs1.putBytes
  exact ht.dropRun.leaveClean.startEncode

theorem State.Inv.finishWhere {p} (h : s.Inv) : (finishWhere s p).Inv :=
  h.foldl fun _ _ h => h.finishEncode

theorem State.Inv.evictBlock {pa} (h : s.Inv) : (evictBlock s pa).Inv := by
  unfold Machine.evictBlock
  extract_lets s1
  have hs1 : s1.Inv := h.finishWhere
  split
  · exact hs1
  · extract_lets s2
    have hs2 : s2.Inv := hs1.writeBack
    exact State.Inv.ite (.update hs1) (State.Inv.ite (.update hs2) (State.Inv.startEncode (.update hs1)))

theorem State.Inv.writePeer {key b} (h : s.Inv) : (writePeer s key b).Inv := by
  unfold Machine.writePeer
  extract_lets base s1
  have hs1 : s1.Inv := .update h
  exact hs1.cross.ite h

theorem State.Inv.evictPeer {key} (h : s.Inv) : (evictPeer s key).Inv := by
  unfold Machine.evictPeer
  split
  · extract_lets s1
    have hs1 : s1.Inv := h.writePeer
    exact .update hs1
  · exact h

theorem State.Inv.atHome {l} (h : s.Inv) : (atHome s l).Inv := by
  unfold Machine.atHome
  split
  · exact h.evictPeer
  · exact h

theorem State.Inv.putHome {l cells} (h : s.Inv) : (putHome s l cells).Inv :=
  h.putVisible.atHome

theorem State.Inv.finishEncodes {lo hi} (h : s.Inv) : (finishEncodes s lo hi).Inv :=
  h.finishWhere

theorem State.Inv.cleanRange {lo hi drop} (h : s.Inv) : (cleanRange s lo hi drop).Inv := by
  unfold Machine.cleanRange
  extract_lets lo1 hi1 s1 blocks s2 inLines n s3
  have hs1 : s1.Inv := h.finishEncodes
  have hs2 : s2.Inv := hs1.foldl fun _ _ h => h.writeBack
  have hs3 : s3.Inv := hs2.meter
  exact State.Inv.ite (.update hs3) (.update hs3)

theorem State.Inv.cleanPeer {die lo hi drop} (h : s.Inv) : (cleanPeer s die lo hi drop).Inv := by
  unfold Machine.cleanPeer
  extract_lets hit s1
  have hs1 : s1.Inv := h.foldl fun _ _ h => h.writePeer
  exact State.Inv.ite (.update hs1) hs1

theorem State.Inv.cleanVirtual {lo len drop} (h : s.Inv) : (cleanVirtual s lo len drop).Inv := by
  unfold Machine.cleanVirtual
  refine h.foldl fun s p h => ?_
  split
  · exact h.cleanPeer.ite h.cleanRange
  · exact h

theorem State.Inv.fillLine {va} (h : s.Inv) : (fillLine s va).Inv := by
  unfold Machine.fillLine
  split
  · extract_lets k first
    split
    · exact h
    · split
      · exact h.ite (State.Inv.cross (.update h))
      · split
        · exact h.foldl fun _ _ h => h.cacheBlock
        · exact h.ite (State.Inv.meter (.update h))
  · exact h

/-! ### Memory instructions -/

theorem State.Inv.acquireAt {sc} (h : s.Inv) : (acquireAt s sc).Inv :=
  h.cleanPeer.ite h

theorem State.Inv.releaseAt {sc} (h : s.Inv) : (releaseAt s sc).Inv := by
  unfold Machine.releaseAt
  extract_lets s1
  have hs1 : s1.Inv := h.drainStores
  exact hs1.cleanPeer.ite hs1

theorem State.Inv.acquireOf {o} (h : s.Inv) : (acquireOf s o).Inv := by
  unfold Machine.acquireOf
  split
  · exact h.acquireAt
  · exact h

theorem State.Inv.releaseOf {o} (h : s.Inv) : (releaseOf s o).Inv := by
  unfold Machine.releaseOf
  split
  · exact h.releaseAt
  · exact h

theorem State.Inv.issueRead {r : Except Raise Effect} {i ls} (h : ExcInv Effect.Inv r) (hs : s.Inv) :
    OutInv (issueRead i ls r s) := by
  unfold Machine.issueRead
  split
  · exact hs.loseTeam
  · exact hs.issue h

theorem State.Inv.issueIdle {i} (h : s.Inv) : OutInv (issueIdle i s) :=
  State.Inv.finishShort h

theorem State.Inv.loadEffect {spc w data ea ls} (h : s.Inv) : ExcInv Effect.Inv (loadEffect s spc w data ea ls) := by
  unfold Machine.loadEffect
  extract_lets n
  exact ExcInv.of_bind fun _ => h

theorem State.Inv.execLd {spc w data base idx imm o} (h : s.Inv) : OutInv (execLd spc w data base idx imm o s) := by
  unfold Machine.execLd
  extract_lets i
  split
  · exact h.issueIdle
  · split
    · exact h.issue trivial
    · extract_lets s'
      have hs' : s'.Inv := h.acquireOf.countReads
      exact State.Inv.issueRead hs'.loadEffect hs'

theorem State.Inv.storeEffect {spc w data ea o ls} (h : s.Inv) : (storeEffect s spc w data ea o ls).Inv := by
  unfold Machine.storeEffect
  extract_lets s' r
  have hs' : s'.Inv := h.pushStore
  have hr : r.Inv := hs'.releaseOf
  exact hr

theorem State.Inv.execSt {spc w data base idx imm o} (h : s.Inv) : OutInv (execSt spc w data base idx imm o s) := by
  unfold Machine.execSt
  extract_lets i
  split
  · exact h.issueIdle
  · exact h.issue (ExcInv.of_map fun _ => h.storeEffect)

theorem State.Inv.scaLoadEffect {spc w data ea l} (h : s.Inv) : ExcInv Effect.Inv (scaLoadEffect s spc w data ea l) :=
  ExcInv.of_bind fun _ => h

theorem State.Inv.execSLd {spc w data base idx imm o} (h : s.Inv) : OutInv (execSLd spc w data base idx imm o s) := by
  unfold Machine.execSLd
  extract_lets i
  split
  · exact h.issue trivial
  · extract_lets s'
    have hs' : s'.Inv := h.acquireOf.countReads
    exact State.Inv.issueRead hs'.scaLoadEffect hs'

theorem State.Inv.execSSt {spc w data base idx imm o} (h : s.Inv) : OutInv (execSSt spc w data base idx imm o s) :=
  h.issue (ExcInv.of_bind fun _ => ExcInv.of_bind fun _ => h.pushStore.releaseOf)

theorem State.Inv.readyAtomic {l} (h : s.Inv) : (readyAtomic s l).Inv := by
  unfold Machine.readyAtomic
  split
  · exact h.cacheBlock
  · exact h.atHome

theorem State.Inv.atomLanes {spc ea n f ls} (h : s.Inv) : (atomLanes s spc ea n f ls).1.Inv := by
  refine State.Inv.foldl_fst h fun r e h => ?_
  dsimp only
  split
  · exact h.putHome
  · exact h

theorem State.Inv.readyLanes {n ls} (h : s.Inv) : (readyLanes s n ls).Inv :=
  State.Inv.countReads (h.foldl fun _ _ h => h.readyAtomic)

theorem State.Inv.atomEffect {spc data ea n f ls} (h : s.Inv) : ExcInv Effect.Inv (atomEffect s spc data ea n f ls) :=
  ExcInv.of_bind fun _ => h.atomLanes

theorem State.Inv.atomOrder {k o} (h : s.Inv) : (atomOrder s k o).Inv := by
  unfold Machine.atomOrder
  extract_lets s1
  have hs1 : s1.Inv := h.drainStores
  split
  · exact hs1.acquireAt
  · exact hs1.releaseAt
  · exact hs1.releaseAt.acquireAt
  · exact hs1

theorem State.Inv.atomIssue {i spc data base idx n k o f} (h : s.Inv) :
    OutInv (atomIssue i spc data base idx n k o f s) := by
  unfold Machine.atomIssue
  split
  · exact h.issueIdle
  · split
    · exact h.issue trivial
    · extract_lets s'
      have hs' : s'.Inv := h.atomOrder.readyLanes
      exact State.Inv.issueRead hs'.atomEffect hs'

theorem State.Inv.execAtom {spc wide op sgn data base idx k o} (h : s.Inv) :
    OutInv (execAtom spc wide op sgn data base idx k o s) := by
  unfold Machine.execAtom
  extract_lets n x
  exact h.atomIssue

theorem State.Inv.execAtomCas {spc wide data base idx k o} (h : s.Inv) :
    OutInv (execAtomCas spc wide data base idx k o s) := by
  unfold Machine.execAtomCas
  extract_lets d cmp new
  exact h.atomIssue

theorem State.Inv.execFence {k sc} (h : s.Inv) : OutInv (execFence k sc s) := by
  unfold Machine.execFence
  extract_lets s' s'1 s'2
  have hs' : s'.Inv := h.drainStores
  have hs'1 : s'1.Inv := hs'.ite hs'.releaseAt
  have hs'2 : s'2.Inv := hs'1.ite hs'1.acquireAt
  exact h.issue hs'2

theorem State.Inv.rangeIssue {i len base imm drop} (h : s.Inv) : OutInv (rangeIssue i len base imm drop s) := by
  refine h.issue (ExcInv.of_bind fun n => ExcInv.of_bind fun b => ?_)
  dsimp only
  split
  · trivial
  · exact h.drainStores.cleanVirtual

theorem State.Inv.execWb {len base imm} (h : s.Inv) : OutInv (execWb len base imm s) :=
  h.rangeIssue

theorem State.Inv.execInv {len base imm} (h : s.Inv) : OutInv (execInv len base imm s) :=
  h.rangeIssue

theorem State.Inv.readyGauge {l} (h : s.Inv) : (readyGauge s l).Inv :=
  h.readyAtomic.countReads

theorem State.Inv.gaugeIssue {i spc base idx imm} {x : Except Raise Word} {f : State → Nat → Loc → Word → Effect}
    (h : s.Inv) (hf : ∀ (t : State) ea l v, t.Inv → (f t ea l v).Inv) :
    OutInv (gaugeIssue i spc x base idx imm f s) := by
  unfold Machine.gaugeIssue
  split
  · exact h.issue trivial
  · next v ea l _ =>
    have hs := h.drainStores.readyGauge (l := l)
    exact hs.issueRead (ExcInv.of_map fun _ => hf _ ea l v hs)

theorem State.Inv.execGaugeSet {spc t base idx imm} (h : s.Inv) : OutInv (execGaugeSet spc t base idx imm s) :=
  h.gaugeIssue (fun _ _ _ _ h => h.putGauge)

theorem State.Inv.execGaugeSetOff {spc base idx imm} (h : s.Inv) : OutInv (execGaugeSetOff spc base idx imm s) :=
  h.gaugeIssue (fun _ _ _ _ h => h.putGauge)

theorem State.Inv.execGaugeAdd {spc n base idx imm} (h : s.Inv) : OutInv (execGaugeAdd spc n base idx imm s) := by
  refine h.gaugeIssue fun t ea l v ht => ?_
  dsimp only
  split
  · exact ht.putGauge
  · exact ht

theorem State.Inv.dropGauger (h : s.Inv) : (dropGauger s).Inv :=
  h.dropWaits

theorem State.Inv.execGaugeWait {spc w base idx imm} (h : s.Inv) : OutInv (execGaugeWait spc w base idx imm s) := by
  unfold Machine.execGaugeWait
  extract_lets i s1
  split
  · exact h.dropGauger.issue trivial
  · next v ea l _ =>
    extract_lets s2 s3 src s4
    have hs1 : s1.Inv := h.drainStores.dropGauger
    have hs2 : s2.Inv := hs1.countReads
    have hs4 : s4.Inv := .update hs1.readyGauge
    split
    · exact hs2.issueRead (ExcInv.of_map (q := Effect.Inv) fun _ => hs2)
    · exact hs4.showPending.pauseAs

theorem State.Inv.requestStop {t at_ forced} (h : s.Inv) : (requestStop s t at_ forced).Inv := by
  unfold Machine.requestStop
  split
  · exact h
  · extract_lets ts s1
    have hs1 : s1.Inv := h.onTeams
    exact hs1.onGroups

theorem State.Inv.spreadRequest (h : s.Inv) : (spreadRequest s).Inv := by
  unfold Machine.spreadRequest
  split
  · exact h.requestStop
  · exact h

theorem State.Inv.execClJoin {d k} (h : s.Inv) : OutInv (execClJoin d k s) := by
  unfold Machine.execClJoin
  refine h.issue (ExcInv.of_bind fun key => ?_)
  extract_lets give s1 ms
  have hs1 : s1.Inv := h.drainStores
  split
  · split
    · exact hs1
    · trivial
  · split
    · exact hs1
    · extract_lets s2 r
      have hs2 : s2.Inv := hs1.onTeams
      exact State.Inv.spreadRequest (.update hs2)

theorem State.Inv.leaveCluster (h : s.Inv) : (leaveCluster s).Inv := by
  unfold Machine.leaveCluster
  split
  · exact h
  · extract_lets ms s1 s2 r
    have hs1 : s1.Inv := h.foldl fun _ _ h => h.withTeam (fun _ h => h.drainTeam)
    have hs2 : s2.Inv := hs1.onTeams
    exact .update hs2

theorem State.Inv.execClLeave (h : s.Inv) : OutInv (execClLeave s) :=
  h.issue h.leaveCluster

theorem State.Inv.execPush {a nm1} (h : s.Inv) : OutInv (execPush a nm1 s) := by
  unfold Machine.execPush
  extract_lets n top body ws s' r r1
  have hs' : s'.Inv := h.putSumps
  have hr1 : r1.Inv := .update hs'
  refine h.issue ?_
  split
  · trivial
  · exact hr1

theorem State.Inv.execPop {d nm1} (h : s.Inv) : OutInv (execPop d nm1 s) := by
  unfold Machine.execPop
  extract_lets n top base r r1
  have hr1 : r1.Inv := .update h
  refine h.issue ?_
  split
  · trivial
  · split
    · trivial
    · split
      · trivial
      · split
        · trivial
        · exact hr1

theorem State.Inv.execPfetch {base idx imm o} (h : s.Inv) : OutInv (execPfetch base idx imm o s) := by
  unfold Machine.execPfetch
  extract_lets i
  split
  · exact h.issueIdle
  · refine h.issue ?_
    dsimp only [ExcInv, Effect.Inv, Effect.of]
    split
    · exact h.foldl fun t l ht => State.Inv.ite ht.fillLine ht
    · exact h

/-! ### Records -/

theorem State.Inv.writeSave {off bs} (h : s.Inv) : (writeSave s off bs).Inv :=
  h.putRun.meter

theorem State.Inv.writePieces {ps bs} (h : s.Inv) : (writePieces ps bs s).Inv := by
  induction ps generalizing s bs with
  | nil => exact h
  | cons p ps ih => exact ih h.writeSave

/-! ### Placement and schedulers -/

theorem State.Inv.accrue (h : s.Inv) : (accrue s).Inv :=
  .update h

theorem State.Inv.startTeam {t g cores} (h : s.Inv) : (startTeam s t g cores).Inv :=
  .update h

theorem State.Inv.placeFresh {g} (h : s.Inv) : OptInv State.Inv (placeFresh s g) :=
  OptInv.of_bind fun _ => OptInv.of_bind fun _ => .update h.startTeam

theorem State.Inv.placeAgain {t} (h : s.Inv) : OptInv State.Inv (placeAgain s t) := by
  unfold Machine.placeAgain
  extract_lets r s1 r1
  have hs1 : s1.Inv := .update h
  exact OptInv.of_bind fun _ => OptInv.of_bind fun _ => hs1.startTeam

theorem State.Inv.leaveLines {t} (h : s.Inv) : (leaveLines s t).Inv :=
  h.onTeam.withTeam (fun _ h => h.dropWaits)

theorem State.Inv.stopAll {t} (h : s.Inv) : (stopAll s t).Inv :=
  h.leaveLines.onGroups

theorem State.Inv.saveLive {t} (h : s.Inv) : (saveLive s t).Inv := by
  unfold Machine.saveLive
  extract_lets gs s1
  have hs1 : s1.Inv := h.onGroups
  split
  · split
    · exact hs1.onTeam
    · exact hs1
  · exact h

theorem State.Inv.clearBank {t} (h : s.Inv) : (clearBank s t).Inv :=
  h.foldl fun _ _ h => h.onCore

theorem State.Inv.writeRecord {bank keep} (h : s.Inv) : (writeRecord s bank keep).Inv := by
  unfold Machine.writeRecord
  extract_lets bs room r
  exact State.Inv.writePieces (.update h)

theorem State.Inv.flushSamples (h : s.Inv) : (flushSamples s).Inv := by
  unfold Machine.flushSamples
  extract_lets r
  exact State.Inv.foldl (.update h) fun _ _ h => h.writeStamp

theorem State.Inv.closeSteps {t} (h : s.Inv) : (closeSteps s t).Inv :=
  h.foldl fun _ _ h => h.withGroup (fun _ h => h.settleHalt)

theorem State.Inv.saveOne {r} (h : s.Inv) : (saveOne s r).Inv := by
  unfold Machine.saveOne
  split
  · exact h
  · next e =>
    extract_lets s1 t keep s2 bank s3 s4 s5 r1 s6 r2
    have hs1 : s1.Inv := (OptInv.of_eq e h.focusTeam).drainTeam.accrue.flushSamples
    have hs2 : s2.Inv := hs1.saveLive
    have hs3 : s3.Inv := hs2.clearBank
    have hs4 : s4.Inv := hs3.onGroups
    have hs5 : s5.Inv := hs4.closeSteps.writeRecord
    have hs6 : s6.Inv := .update hs5
    exact hs2.loseTeam.ite (State.Inv.settleQueue (.update hs6))

theorem State.Inv.restoreOne {r} (h : s.Inv) : OptInv State.Inv (restoreOne s r) :=
  OptInv.of_bind fun _ => OptInv.of_bind fun _ =>
    .update (State.Inv.meter (h.onGroups.onTeam.foldl fun _ _ h => h.onCore))

theorem State.Inv.restoreAll {t} (h : s.Inv) : OptInv State.Inv (restoreAll s t) :=
  OptInv.foldlM h fun _ _ hs => hs.restoreOne

theorem State.Inv.placeCand {c} (h : s.Inv) : OptInv State.Inv (placeCand s c) := by
  unfold Machine.placeCand
  split
  · refine OptInv.of_bind fun t => ?_
    split
    · exact h.placeAgain
    · exact h.restoreAll
  · exact OptInv.of_bind fun _ => h.placeFresh

theorem State.Inv.placeNext (h : s.Inv) : OptInv State.Inv (placeNext s) :=
  (OptInv.findSome? fun _ => h.settleQueue.placeCand).map fun _ ht => ht.settleQueue

theorem State.Inv.deviceOnly {n} (h : s.Inv) : OptInv State.Inv (deviceOnly s n) :=
  h.stash.focusDevice

theorem State.Inv.placeOf {n} (h : s.Inv) : OptInv State.Inv (placeOf s n) :=
  h.deviceOnly.bind fun _ h => h.placeNext

theorem State.Inv.requestAll {n} (h : s.Inv) : (requestAll s n).Inv :=
  h.foldl fun _ _ h => h.requestStop

theorem State.Inv.askRoom {p d} (h : s.Inv) : OptInv State.Inv (askRoom s p d) := by
  unfold Machine.askRoom
  split
  · exact OptInv.of_map fun _ => h.requestStop
  · trivial

theorem State.Inv.execTeamPlacement {n} (h : s.Inv) : OutInv (execTeamPlacement n s) := by
  unfold Machine.execTeamPlacement
  split
  · exact State.Inv.cannot
  · split
    · exact State.Inv.cannot
    · split
      · exact State.Inv.cannot
      · split
        · next e => exact (OptInv.of_eq e h.placeOf).askRoom.getD (OptInv.of_eq e h.placeOf)
        · exact State.Inv.maySome h.askRoom

theorem State.Inv.execPlacementStarvation {n} (h : s.Inv) : OutInv (execPlacementStarvation n s) := by
  unfold Machine.execPlacementStarvation
  refine State.Inv.maySome (h.focusDevice.bind fun s h => ?_)
  refine OptInv.of_bind fun x => ?_
  extract_lets r
  split
  · exact .update h
  · trivial

theorem State.Inv.readTemp {n x} (h : s.Inv) : (readTemp s n x).Inv :=
  h.onCore

theorem State.Inv.execDroopEvent {n} (h : s.Inv) : OutInv (execDroopEvent n s) := by
  unfold Machine.execDroopEvent
  extract_lets s1 v
  have hs1 : s1.Inv := h.onCore
  split
  · exact hs1.countDie
  · trivial

theorem State.Inv.onPartition {n f} (h : s.Inv) : (onPartition s n f).Inv :=
  .update h

theorem State.Inv.execAccountingWindow {n} (h : s.Inv) : OutInv (execAccountingWindow n s) := by
  unfold Machine.execAccountingWindow
  extract_lets s1 fresh
  have hs1 : s1.Inv := h.accrue
  split
  · exact State.Inv.cannot
  · split
    · exact State.Inv.cannot
    · exact State.Inv.onPartition (.update hs1)

theorem State.Inv.boundaryRequests {p} (h : s.Inv) : (boundaryRequests s p).Inv := by
  unfold Machine.boundaryRequests
  extract_lets ds waiting
  refine h.foldl fun s e h => ?_
  split
  · split
    · exact h.requestStop.ite h
    · exact h
  · exact h

theorem State.Inv.execMillisecondBoundary {n} (h : s.Inv) : OutInv (execMillisecondBoundary n s) := by
  unfold Machine.execMillisecondBoundary
  split
  · exact State.Inv.cannot
  · split
    · exact State.Inv.cannot
    · exact h.boundaryRequests.onPartition

theorem State.Inv.execCapReached {n} (h : s.Inv) : OutInv (execCapReached n s) := by
  unfold Machine.execCapReached
  split
  · exact State.Inv.cannot
  · split
    · exact State.Inv.cannot
    · exact h.requestAll.may

theorem State.Inv.execPeriodStart {n} (h : s.Inv) : OutInv (execPeriodStart n s) := by
  unfold Machine.execPeriodStart
  split
  · exact State.Inv.cannot
  · split
    · exact State.Inv.cannot
    · exact h.accrue.onDevice.may

theorem State.Inv.execBudgetExhausted {n} (h : s.Inv) : OutInv (execBudgetExhausted n s) := by
  unfold Machine.execBudgetExhausted
  split
  · exact State.Inv.cannot
  · split
    · exact State.Inv.cannot
    · exact h.requestAll.may

theorem State.Inv.execPreemptionRequest {t} (h : s.Inv) : OutInv (execPreemptionRequest t s) :=
  h.requestStop.may

theorem State.Inv.execBarrierStop {t} (h : s.Inv) : OutInv (execBarrierStop t s) :=
  h.leaveLines.onTeam.may

theorem State.Inv.execForcedStop {t} (h : s.Inv) : OutInv (execForcedStop t s) :=
  h.stopAll.onTeam.may

theorem State.Inv.execTeamSave {t} (h : s.Inv) : OutInv (execTeamSave t s) := by
  unfold Machine.execTeamSave
  refine State.Inv.maySome (h.focusTeam.bind fun s h => ?_)
  extract_lets ts
  split
  · split
    · exact h.foldl fun _ _ h => h.saveOne
    · trivial
  · trivial

theorem State.Inv.execTeamRestore {t} (h : s.Inv) : OutInv (execTeamRestore t s) := by
  unfold Machine.execTeamRestore
  refine State.Inv.maySome (OptInv.of_bind fun d => ?_)
  refine OptInv.of_bind fun p => ?_
  split
  · trivial
  · refine h.deviceOnly.bind fun s h => ?_
    extract_lets s1 cs
    have hs1 : s1.Inv := h.settleQueue
    split
    · split
      · exact hs1.placeCand.map fun _ h => h.settleQueue
      · trivial
    · trivial

theorem State.Inv.freeTeam (h : s.Inv) : (freeTeam s).Inv := by
  unfold Machine.freeTeam
  extract_lets t s1 s2 r s3 s4
  have hs1 : s1.Inv := h.leaveCluster.accrue.flushSamples
  have hs2 : s2.Inv := hs1.clearBank
  have hs3 : s3.Inv := .update hs2
  have hs4 : s4.Inv := hs3.foldl fun _ _ h => h.showPending
  exact .update hs4

theorem State.Inv.execTeamEnd {t} (h : s.Inv) : OutInv (execTeamEnd t s) := by
  unfold Machine.execTeamEnd
  refine State.Inv.maySome (h.focusTeam.bind fun s h => ?_)
  extract_lets s1 x r d
  have hs1 : s1.Inv := h.freeTeam
  split
  · split
    · exact State.Inv.settleQueue (.update hs1)
    · exact State.Inv.settleQueue (State.Inv.settleGrids (.update hs1))
  · trivial

theorem State.Inv.noteBroken {ls} (h : s.Inv) : (noteBroken s ls).Inv :=
  h.foldl fun _ _ h => h.onCore

theorem State.Inv.execTeamLost {t l} (h : s.Inv) : OutInv (execTeamLost t l s) := by
  refine State.Inv.maySome (h.focusTeam.bind fun s h => ?_)
  extract_lets d src s1
  clear_value d
  have hs1 : s1.Inv := by
    unfold s1
    split
    · exact .update h
    · exact h.poisonScratch
    · exact h.noteBroken
    · exact h
  split
  · exact State.Inv.loseTeam (.update hs1)
  · trivial

/-! ### Launches -/

theorem State.Inv.queueGrid {a c k off tag origin} (h : s.Inv) : (queueGrid s a c k off tag origin).1.Inv := by
  unfold Machine.queueGrid
  extract_lets bytes area s1 n g woke r
  have hs1 : s1.Inv := h.storeBytesAt
  exact State.Inv.settleQueue (.update hs1)

theorem State.Inv.countRange {lo n} (h : s.Inv) : (countRange s lo n).Inv :=
  h.countReads

theorem State.Inv.countDescs {base rs} (h : s.Inv) : (countDescs s base rs).Inv := by
  unfold Machine.countDescs
  exact h.foldl fun _ _ h => h.ite h.countRange.countRange

theorem State.Inv.queueChildren {x ks} (h : s.Inv) : (queueChildren s x ks).1.Inv := by
  induction ks generalizing s with
  | nil => exact h
  | cons k ks ih =>
    obtain ⟨a, c, d, off⟩ := k
    unfold Machine.queueChildren
    exact ih h.queueGrid

theorem State.Inv.launchNow {d refused kids} (h : s.Inv) : (launchNow s d refused kids).Inv := by
  unfold Machine.launchNow
  extract_lets s1
  have hs1 : s1.Inv := h.releaseAt
  exact .update (State.Inv.queueChildren (.update hs1))

theorem State.Inv.execLaunch {d a} (h : s.Inv) : OutInv (execLaunch d a s) := by
  unfold Machine.execLaunch
  extract_lets i
  split
  · exact h.issue h
  · split
    · exact h.issue trivial
    · extract_lets rs kids s'
      have hs' : s'.Inv := h.countDescs
      split
      · exact h.countDescs.issue trivial
      · split
        · exact h.pauseAs
        · exact hs'.issue hs'.launchNow

theorem State.Inv.cancelLaunch {x} (h : s.Inv) : (cancelLaunch s x).Inv := by
  unfold Machine.cancelLaunch
  split
  · exact h
  · extract_lets waits gone d d1
    exact State.Inv.settleQueue (State.Inv.settleGrids (.update h))

/-! ### Sifts -/

theorem State.Inv.execSift {home a n} (h : s.Inv) : OutInv (execSift home a n s) := by
  unfold Machine.execSift
  extract_lets i
  split
  · exact h.pauseAs
  · exact h.issue trivial

theorem State.Inv.execBrsSift {c off} (h : s.Inv) : OutInv (execBrsSift c off s) := by
  unfold Machine.execBrsSift
  extract_lets i
  split
  · exact h.control trivial
  · split
    · exact h.control h.splitOn
    · exact h.pauseAs

theorem State.Inv.clearOut (h : s.Inv) : (clearOut s).Inv :=
  h.drainStores.foldl fun _ _ h => h.landOutside

theorem State.Inv.commitWith {ps home n key move} (h : s.Inv) : OptInv State.Inv (commitWith s ps home n key move) :=
  OptInv.of_bind fun _ => OptInv.of_bind fun _ => OptInv.of_bind fun _ =>
    .update (State.Inv.foldl (h.foldl fun _ _ h => h.withGroup fun _ h => h.drainStores)
      fun _ _ h => h.withGroup fun _ h => h.clearOut)

theorem State.Inv.siftNow {ps i} (h : s.Inv) : OptInv State.Inv (siftNow s ps i) := by
  unfold Machine.siftNow
  split
  · exact h.commitWith
  · extract_lets key
    exact h.commitWith
  · trivial

theorem State.Inv.siftFails {r i} (h : s.Inv) : (siftFails s r i).Inv := by
  unfold Machine.siftFails
  refine h.withGroup (fun s h => ?_)
  extract_lets s1 r1 s2
  have hs1 : s1.Inv := .update h
  have hs2 : s2.Inv := hs1.setCur
  split
  · split
    · next e => exact ExcInv.of_eq e (ExcInv.of_bind fun _ => hs2.splitOn)
    · exact hs2.raise
  · exact hs2.raise

theorem State.Inv.execSiftCommit (h : s.Inv) : OutInv (execSiftCommit s) := by
  unfold Machine.execSiftCommit
  extract_lets ps ws
  split
  · trivial
  · split
    · split
      · exact State.Inv.maySome (OptInv.of_bind fun _ => h.siftNow).filter
      · trivial
    · exact h.foldl fun _ _ hs => hs.siftFails

/-! ### Passes -/

theorem State.Inv.setPasses {c ps} (h : s.Inv) : (setPasses s c ps).Inv :=
  .update h

theorem State.Inv.queuePass {c p} (h : s.Inv) : (queuePass s c p).Inv := by
  unfold Machine.queuePass
  extract_lets s1 r
  have hs1 : s1.Inv := h.setPasses
  exact .update hs1

theorem State.Inv.matrixRaise {r x} (h : s.Inv) : (matrixRaise s r x).Inv :=
  h.withGroup (fun _ h => State.Inv.raise (State.Inv.setCur (.update h)))

theorem State.Inv.matrixFault {r detail} (h : s.Inv) : (matrixFault s r detail).Inv :=
  h.matrixRaise

theorem State.Inv.acceptGroup {i core serial r} (h : s.Inv) : (acceptGroup i core serial s r).Inv :=
  h.withGroup (fun _ h => State.Inv.setCur (State.Inv.launchLong (.update h)))

theorem State.Inv.matrixIssue {i gathered a} (h : s.Inv) : OutInv (matrixIssue i gathered a s) := by
  unfold Machine.matrixIssue
  extract_lets m cmd r s' c k p
  have hs' : s'.Inv := State.Inv.pauseAs (.update h)
  split
  · exact h.pauseAs
  · split
    · exact hs'.foldl fun _ _ h => h.matrixFault
    · extract_lets forms s'1
      have hs'1 : s'1.Inv := hs'.foldl fun _ _ h => h.withGroup (fun _ h => h.drainStores)
      split
      · exact hs'
      · split
        · exact hs'.foldl fun _ _ h => h.matrixFault
        · split
          · exact hs'.foldl fun _ _ h => h.matrixRaise
          · split
            · exact hs'.foldl fun _ _ h => h.matrixFault
            · split
              · exact hs'.pauseAs
              · exact hs'1.queuePass.foldl fun _ _ h => h.acceptGroup

theorem State.Inv.execMma {a} (h : s.Inv) : OutInv (execMma a s) :=
  h.matrixIssue

theorem State.Inv.execMmaG {a} (h : s.Inv) : OutInv (execMmaG a s) :=
  h.matrixIssue

theorem State.Inv.execMzero {t} (h : s.Inv) : OutInv (execMzero t s) := by
  unfold Machine.execMzero
  extract_lets k p r
  have hr : r.Inv := h.queuePass
  split
  · exact h.pauseAs
  · exact h.issue hr

theorem State.Inv.execMrd {t d a} (h : s.Inv) : OutInv (execMrd t d a s) :=
  h.issue h

theorem State.Inv.execAssaySet {a slot} (h : s.Inv) : OutInv (execAssaySet a slot s) := by
  unfold Machine.execAssaySet
  extract_lets w r
  refine h.issue ?_
  split
  · exact .update h
  · trivial

theorem State.Inv.execAssayGet {d slot} (h : s.Inv) : OutInv (execAssayGet d slot s) :=
  h.issue h

theorem State.Inv.execAssayInv {slot} (h : s.Inv) : OutInv (execAssayInv slot s) := by
  unfold Machine.execAssayInv
  extract_lets r
  exact h.issue (.update h)

theorem State.Inv.focusPass {t c k} (h : s.Inv) : OptInv (·.1.Inv) (focusPass s t c k) :=
  h.stash.focusTeam.bind fun _ h => OptInv.of_map fun _ => .update h

theorem State.Inv.replacePass {c k p} (h : s.Inv) : (replacePass s c k p).Inv :=
  h.setPasses

theorem State.Inv.repairReads {reads} (h : s.Inv) : (repairReads s reads).Inv := by
  unfold Machine.repairReads
  exact h.foldl fun _ _ h => h.ite h.repairWalk

theorem State.Inv.passRaise {p c code detail addr} (h : s.Inv) : (passRaise s p c code detail addr).Inv := by
  unfold Machine.passRaise
  extract_lets gs
  exact h.foldl fun _ _ h => h.withGroup (fun _ h => h.raise)

theorem State.Inv.noteReady (h : s.Inv) : (noteReady s).Inv :=
  h.onTeams

theorem State.Inv.execPassStart {t c k} (h : s.Inv) : OutInv (execPassStart t c k s) := by
  refine State.Inv.maySome (h.focusPass.bind ?_)
  rintro ⟨s, p⟩ (h : s.Inv)
  dsimp only
  split
  · trivial
  · split
    · exact h.replacePass
    · split
      · trivial
      · split
        · exact h.replacePass.passRaise
        · split
          · exact h.replacePass
          · split
            · exact h.replacePass
            · split
              · exact State.Inv.ite h.repairReads.replacePass.passRaise h.repairReads.replacePass
              · exact h.repairReads.replacePass

theorem State.Inv.countCells {n} (h : s.Inv) : (countCells s n).Inv := by
  unfold Machine.countCells
  extract_lets r
  exact State.Inv.meter (.update h)

theorem State.Inv.countStep {reads} (h : s.Inv) : (countStep s reads).Inv :=
  h.countReads

theorem State.Inv.execPassStep {t c k} (h : s.Inv) : OutInv (execPassStep t c k s) := by
  refine State.Inv.maySome (h.focusPass.bind ?_)
  rintro ⟨s, p⟩ (h : s.Inv)
  dsimp only
  split
  · trivial
  · split
    · exact State.Inv.replacePass (.update h)
    · have hs := (h.repairReads (reads := stepReads p p.step)).countStep (reads := stepReads p p.step)
      split
      · split
        · exact hs.loseTeam
        · exact hs.replacePass.passRaise
      · exact State.Inv.countCells (State.Inv.replacePass (.update hs))

theorem State.Inv.execPassRetire {t c k} (h : s.Inv) : OutInv (execPassRetire t c k s) := by
  refine State.Inv.maySome (h.focusPass.bind ?_)
  rintro ⟨s, p⟩ (h : s.Inv)
  dsimp only
  split
  · refine State.Inv.ite h.setPasses ?_
    split
    · exact State.Inv.ite (State.Inv.writeStamp (.update h.setPasses)) (.update h.setPasses)
    · exact .update h.setPasses
  · trivial

/-! ### Jobs of the transfer engines -/

theorem State.Inv.takeCard {k w} (h : s.Inv) : (takeCard s k w).1.Inv := by
  unfold Machine.takeCard
  extract_lets c s1
  have hs1 : s1.Inv := h.releaseAt
  split
  · next e =>
    extract_lets j r
    split
    · exact .update (State.Inv.fst_of_eq e hs1.newHandle)
    · split <;> exact .update (State.Inv.fst_of_eq e hs1.newHandle)

theorem State.Inv.cardIssue {i d a k} (h : s.Inv) : OutInv (cardIssue i d a k s) := by
  unfold Machine.cardIssue
  extract_lets r
  have hr : r.1.Inv := h.takeCard
  split
  · exact h.pauseAs
  · exact h.issue hr

theorem State.Inv.execCpy {d a} (h : s.Inv) : OutInv (execCpy d a s) :=
  h.cardIssue

theorem State.Inv.execCpym {d a} (h : s.Inv) : OutInv (execCpym d a s) :=
  h.cardIssue

theorem State.Inv.execFill {d a} (h : s.Inv) : OutInv (execFill d a s) :=
  h.cardIssue

theorem State.Inv.execRowcpy {d a} (h : s.Inv) : OutInv (execRowcpy d a s) :=
  h.cardIssue

theorem State.Inv.execMstore {stamp t d a slot} (h : s.Inv) : OutInv (execMstore stamp t d a slot s) := by
  unfold Machine.execMstore
  extract_lets w e writes s'
  have hs' : s'.Inv := h.releaseAt
  split
  · exact h.pauseAs
  · exact h.issue (.update (.update hs'))

theorem State.Inv.observe {x} (h : s.Inv) : (observe s x).Inv :=
  h.acquireAt.ite h

theorem State.Inv.execHtest {d a} (h : s.Inv) : OutInv (execHtest d a s) := by
  unfold Machine.execHtest
  extract_lets h1
  exact h.issue h.observe

theorem State.Inv.cancelWork {x} (h : s.Inv) : (cancelWork s x).Inv := by
  unfold Machine.cancelWork
  split
  · exact .update h
  · split
    · exact h.cancelLaunch
    · split
      · exact h.resolveLoad
      · exact h

theorem State.Inv.execHcancel {a} (h : s.Inv) : OutInv (execHcancel a s) :=
  h.issue h.cancelWork

theorem State.Inv.execHst {spc a b} (h : s.Inv) : OutInv (execHst spc a b s) :=
  h.issue (ExcInv.of_map fun _ => h.pushStore)

theorem State.Inv.execHld {spc d a} (h : s.Inv) : OutInv (execHld spc d a s) := by
  unfold Machine.execHld
  extract_lets i
  split
  · exact h.issue trivial
  · extract_lets s'
    have hs' : s'.Inv := h.countReads
    exact State.Inv.issueRead (ExcInv.of_map fun _ => hs') hs'

theorem State.Inv.poisonLoc {l} (h : s.Inv) : (poisonLoc s l).Inv := by
  unfold Machine.poisonLoc
  split
  · split
    · split
      · next e =>
        extract_lets off
        exact .update (State.Inv.fst_of_eq e h.cacheBlock)
    · exact h.addPoison
  · exact h.onTeam
  · exact .update h
  · extract_lets k
    split
    · exact .update h
    · exact h

theorem State.Inv.jobPlace {spc a need} (h : s.Inv) : (jobPlace s spc a need).1.Inv := by
  unfold Machine.jobPlace
  extract_lets s1
  have hs1 : s1.Inv := h.repairWalk
  split
  · exact h
  · split
    · split <;> exact hs1
    · exact h

theorem State.Inv.jobPlaces {spc a need n} (h : s.Inv) : (jobPlaces s spc a need n).1.Inv := by
  induction n with
  | zero => exact h
  | succ n ih =>
    unfold Machine.jobPlaces
    dsimp only
    split
    · exact ih
    · split <;> exact ih.jobPlace

theorem State.Inv.writeRow {ls bs} (h : s.Inv) : (writeRow s ls bs).Inv := by
  unfold Machine.writeRow
  extract_lets pairs s1
  have hs1 : s1.Inv := h.putVisible
  exact hs1.foldl fun _ _ h => h.poisonLoc

theorem State.Inv.rowBytesOf {j r off n} (h : s.Inv) : (rowBytesOf s j r off n).1.Inv := by
  unfold Machine.rowBytesOf
  extract_lets c q t
  have hq : q.1.Inv := h.jobPlaces
  have ht : t.Inv := hq.fillBlocks.countReads
  split
  · exact ht
  · split <;> exact h

theorem State.Inv.dropLines {va need} (h : s.Inv) : (dropLines s va need).Inv := by
  unfold Machine.dropLines
  split
  · exact h.cleanRange
  · exact h

theorem State.Inv.moveBytes {j r off n} (h : s.Inv) : (moveBytes s j r off n).1.Inv := by
  unfold Machine.moveBytes
  extract_lets c src dst m s1 bad stop
  have hsrc : src.1.Inv := h.rowBytesOf
  have hdst : dst.1.Inv := hsrc.jobPlaces
  have hs1 : s1.Inv := hdst.writeRow
  exact hs1

theorem State.Inv.moveRow {j r off n} (h : s.Inv) : (moveRow s j r off n).1.Inv := by
  unfold Machine.moveRow
  extract_lets c dva sva clean s1 q t r1
  have hs1 : s1.Inv := h.dropLines.ite h.dropLines.dropLines
  have hq : q.1.Inv := hs1.moveBytes
  have ht : t.Inv := hq.dropLines.ite hq.dropLines.dropLines
  split
  · exact h
  · split
    · exact .update ht
    · exact h.moveBytes

theorem State.Inv.moveTo {j upto} (h : s.Inv) : (moveTo s j upto).1.Inv := by
  unfold Machine.moveTo
  extract_lets c q r
  have hq : q.1.Inv := State.Inv.foldl_fst h fun _ _ h => State.Inv.foldl_fst h fun _ _ h => h.moveRow
  split <;> exact hq

theorem State.Inv.engineCells {spc xs} (h : s.Inv) : (engineCells s spc xs).1.Inv := by
  refine State.Inv.foldl_fst h fun q x h => ?_
  dsimp only
  split
  · exact h
  · split <;> exact h.jobPlace

theorem State.Inv.scaleRead {spc addr n} (h : s.Inv) : (scaleRead s spc addr n).1.Inv := by
  unfold Machine.scaleRead
  extract_lets r
  have hr : r.1.Inv := h.jobPlace
  split
  · exact h
  · split
    · exact hr
    · extract_lets t b
      have ht : t.Inv := hr.countReads
      exact ht

theorem State.Inv.rowScales {e c i} (h : s.Inv) : (rowScales s e c i).1.Inv := by
  refine State.Inv.foldl_fst h fun q x h => ?_
  split
  · exact h
  · exact h.scaleRead

theorem State.Inv.tileRows {j sub tile e} (h : s.Inv) : (tileRows s j sub tile e).1.Inv := by
  refine State.Inv.foldl_fst h fun q i h => ?_
  dsimp only
  split
  · exact h
  · split <;> exact h.rowScales

theorem State.Inv.storePart {j e x r} (h : s.Inv) : (storePart s j e x r).1.Inv := by
  unfold Machine.storePart
  extract_lets c row bytes w t hit
  have hw : w.1.Inv := h.engineCells
  have ht : t.Inv := hw.putVisible
  split
  · exact h
  · exact ht.foldl fun _ _ h => h.poisonLoc

theorem State.Inv.storeTile {j sub tile e} (h : s.Inv) : (storeTile s j sub tile e).1.Inv := by
  unfold Machine.storeTile
  extract_lets q parts r
  have hq : q.1.Inv := h.tileRows
  clear_value q
  have hr : r.1.Inv := by
    unfold r
    refine State.Inv.foldl_fst (r := (q.1, j)) hq fun r x h => ?_
    split
    · exact h
    · exact h.storePart
  split
  · split <;> exact hr
  · exact hr

theorem State.Inv.focusJob {x} (h : s.Inv) : OptInv (·.1.Inv) (focusJob s x) :=
  h.deviceOnly.bind fun _ h => OptInv.of_bind fun _ => h.focusTeam.map fun _ h => .update h

theorem State.Inv.putJob {j} (h : s.Inv) : (putJob s j).Inv :=
  .update h

theorem State.Inv.strikeJob {j bad} (h : s.Inv) : (strikeJob s j bad).Inv := by
  unfold Machine.strikeJob
  split
  · exact h
  · exact h.poisonScratch.countDie

theorem State.Inv.execJobStart {x} (h : s.Inv) : OutInv (execJobStart x s) := by
  refine State.Inv.maySome (h.focusJob.bind ?_)
  rintro ⟨s, j⟩ (h : s.Inv)
  dsimp only
  split
  · trivial
  · split
    · split
      · exact h.strikeJob.storeTile.putJob
      · exact h.strikeJob.putJob
    · exact h.strikeJob.acquireAt.putJob

theorem State.Inv.arriveBytes {j n} (h : s.Inv) : (arriveBytes s j n).1.Inv := by
  unfold Machine.arriveBytes
  split
  · exact h
  · split
    · exact h
    · exact h
    · extract_lets s1
      have hs1 : s1.Inv := h.readyGauge
      split
      · exact hs1
      · split
        · exact hs1.putGauge
        · exact hs1

theorem State.Inv.execGaugeArrival {x n} (h : s.Inv) : OutInv (execGaugeArrival x n s) := by
  refine State.Inv.maySome (h.focusJob.bind ?_)
  rintro ⟨s, j⟩ (h : s.Inv)
  dsimp -zeta only
  split
  · trivial
  · extract_lets r q
    have hr : r.1.Inv := by
      unfold r
      split
      · exact h.moveTo
      · exact h
    split
    · exact hr.arriveBytes.putJob
    · trivial

theorem State.Inv.endJob {j cancelled} (h : s.Inv) : (endJob s j cancelled).Inv := by
  unfold Machine.endJob
  extract_lets c s1 r j1 s2 s3 state
  have hs1 : s1.Inv := by
    unfold s1
    split
    · exact h
    · exact h.releaseAt
  have hr : r.1.Inv := hs1.arriveBytes
  have hs2 : s2.Inv := hr
  have hs3 : s3.Inv := by
    unfold s3
    split
    · split
      · exact hs2.writeStamp
      · exact hs2
    · exact hs2
  exact .update hs3

theorem State.Inv.moveAll {j} (h : s.Inv) : (moveAll s j).1.Inv := by
  unfold Machine.moveAll
  split
  · exact h
  · exact h.moveTo

theorem State.Inv.execJobFinish {x} (h : s.Inv) : OutInv (execJobFinish x s) := by
  refine State.Inv.maySome (h.focusJob.bind ?_)
  rintro ⟨s, j⟩ (h : s.Inv)
  dsimp only
  split
  · trivial
  · split
    · split
      · trivial
      · exact h.endJob
    · split
      · trivial
      · exact h.moveAll.endJob

theorem State.Inv.execJobCancelStop {x n} (h : s.Inv) : OutInv (execJobCancelStop x n s) := by
  refine State.Inv.maySome (h.focusJob.bind ?_)
  rintro ⟨s, j⟩ (h : s.Inv)
  dsimp only
  split
  · trivial
  · split
    · exact h.endJob
    · split
      · exact h.moveTo.endJob
      · trivial

theorem State.Inv.execFollowOnSend {x} (h : s.Inv) : OutInv (execFollowOnSend x s) := by
  refine State.Inv.maySome (h.focusJob.bind ?_)
  rintro ⟨s, j⟩ (h : s.Inv)
  dsimp only
  split
  · trivial
  · split
    · trivial
    · split
      · exact h.moveAll.endJob
      · split
        · exact h.moveAll.endJob
        · exact h.moveAll.putJob.queuePass

/-! ### System instructions -/

theorem State.Inv.execTrap {n} (h : s.Inv) : OutInv (execTrap n s) := by
  unfold Machine.execTrap
  extract_lets i p next c
  exact h.setCur.raise

theorem State.Inv.afterOwn {f : State → Out} (h : s.Inv) (hf : ∀ x, x.Inv → OutInv (f x)) :
    OutInv (afterOwn s f) := by
  unfold Machine.afterOwn
  extract_lets s'
  have hs' : s'.Inv := h.landOwn
  split
  · exact hs'
  · split
    · exact hs'
    · exact hf _ hs'

theorem State.Inv.execRti (h : s.Inv) : OutInv (execRti s) := by
  unfold Machine.execRti
  split
  · exact h.afterOwn (fun _ h => h.returnFromTrap)
  · exact h.control trivial

theorem State.Inv.execCtlRd {d r} (h : s.Inv) : OutInv (execCtlRd d r s) :=
  h.afterOwn (fun _ h => h.issue h)

theorem State.Inv.execCtlWr {r a} (h : s.Inv) : OutInv (execCtlWr r a s) :=
  h.afterOwn (fun _ h => h.issue (ExcInv.of_map fun _ => .update h))

theorem State.Inv.execMeterRd {d n} (h : s.Inv) : OutInv (execMeterRd d n s) :=
  h.issue h

theorem State.Inv.countImage {va} (h : s.Inv) : (countImage s va).Inv := by
  unfold Machine.countImage
  extract_lets h1 n flags s1 len
  have hs1 : s1.Inv := h.countRange
  exact h.ite (hs1.ite hs1.countRange)

theorem State.Inv.countImages {b} (h : s.Inv) : (countImages s b).Inv :=
  h.countImage.countImage.ite h

theorem State.Inv.addDieJob {x} (h : s.Inv) : (addDieJob s x).Inv := by
  unfold Machine.addDieJob
  extract_lets r
  exact h.ite (.update h)

theorem State.Inv.initMeta {sl} (h : s.Inv) : (initMeta s sl).Inv := by
  unfold Machine.initMeta
  refine h.foldl fun s k h => ?_
  split
  · exact h.putRun.meter
  · exact h

theorem State.Inv.adoptLine {sl va e} (h : s.Inv) : (adoptLine s sl va e).Inv :=
  State.Inv.foldl (.update h) fun _ _ h => .update h

theorem State.Inv.adoptLines {sl} (h : s.Inv) : (adoptLines s sl).Inv := by
  unfold Machine.adoptLines
  refine h.foldl fun s k h => ?_
  extract_lets va
  split
  · exact h.foldl fun _ _ h => h.adoptLine
  · exact h

theorem State.Inv.bindRegion {b} (h : s.Inv) : OptInv (·.1.Inv) (bindRegion s b) := by
  unfold Machine.bindRegion
  extract_lets s1 r
  have hs1 : s1.Inv := h.finishWhere
  split
  · refine OptInv.of_bind fun __r => ?_
    refine OptInv.of_bind fun enc => ?_
    refine OptInv.of_bind fun dec => ?_
    extract_lets sl s2 r1
    have hs2 : s2.Inv := h.initMeta.adoptLines
    split
    · split
      · trivial
      · exact .update hs2
    · split
      · trivial
      · exact State.Inv.onBinding (.update hs1)
  · refine OptInv.of_bind fun enc => ?_
    refine OptInv.of_bind fun dec => ?_
    extract_lets sl s2 r1
    have hs2 : s2.Inv := h.initMeta.adoptLines
    split
    · split
      · trivial
      · exact .update hs2
    · split
      · trivial
      · exact State.Inv.onBinding (.update hs1)

theorem State.Inv.execSlBind {d a} (h : s.Inv) : OutInv (execSlBind d a s) := by
  unfold Machine.execSlBind
  extract_lets b s1
  have hs1 : s1.Inv := h.countImages
  split
  · exact h.issue trivial
  · refine hs1.issue ?_
    split
    · next e => exact (OptInv.of_eq e hs1.drainStores.bindRegion).addDieJob
    · trivial

theorem State.Inv.execSlUnbind {d n} (h : s.Inv) : OutInv (execSlUnbind d n s) := by
  unfold Machine.execSlUnbind
  extract_lets r
  have hr : r.1.Inv := h.newHandle
  refine h.issue ?_
  split
  · split
    · trivial
    · exact hr.onBinding.addDieJob
  · trivial

theorem State.Inv.execSlStat {d n} (h : s.Inv) : OutInv (execSlStat d n s) :=
  h.issue h

theorem State.Inv.stampMark {x} (h : s.Inv) : (stampMark s x).Inv := by
  unfold Machine.stampMark
  extract_lets t
  exact h.writeStamp

theorem State.Inv.execStamp {a} (h : s.Inv) : OutInv (execStamp a s) :=
  h.issue (ExcInv.of_map fun _ => h.stampMark)

theorem State.Inv.execStampSync {a} (h : s.Inv) : OutInv (execStampSync a s) :=
  h.afterOwn (fun _ h => h.issue (ExcInv.of_map fun _ => h.stampMark))

/-! ### Debugging -/

theorem State.Inv.placeOn {cores n c} (h : s.Inv) : (placeOn s cores n c).Inv :=
  h.foldl fun _ _ h => h.onCore

theorem State.Inv.bankCanary {t n c} (h : s.Inv) : (bankCanary s t n c).Inv := by
  unfold Machine.bankCanary
  split
  · exact h.ite h.onTeam
  · exact h

theorem State.Inv.execWpSet {d n a b} (h : s.Inv) : OutInv (execWpSet d n a b s) := by
  unfold Machine.execWpSet
  refine h.issue (ExcInv.of_map fun t => ?_)
  extract_lets c st t1 c1 done
  have hdone : done.Inv := h
  split
  · exact (h.ite h.bankCanary).placeOn
  · exact hdone

theorem State.Inv.disarmOn {cores t n} (h : s.Inv) : (disarmOn s cores t n).Inv := by
  unfold Machine.disarmOn
  refine h.foldl fun s k h => ?_
  split
  · exact h.onCore.ite h
  · exact h

theorem State.Inv.execWpClr {d n b} (h : s.Inv) : OutInv (execWpClr d n b s) := by
  unfold Machine.execWpClr
  refine h.issue (ExcInv.of_map fun t => ?_)
  extract_lets k
  split
  · exact h
  · exact h
  · extract_lets t1 s'
    have hs' : s'.Inv := h.disarmOn
    exact hs'.bankCanary

theorem State.Inv.execWpRd {d n b} (h : s.Inv) : OutInv (execWpRd d n b s) :=
  h.issue (ExcInv.of_map fun _ => h)

theorem State.Inv.startHalt {t why} (h : s.Inv) : (startHalt s t why).Inv :=
  h.onTeam.onGroups

theorem State.Inv.execDbgHalt {b} (h : s.Inv) : OutInv (execDbgHalt b s) := by
  unfold Machine.execDbgHalt
  refine h.issue (ExcInv.of_map fun t => ?_)
  split
  · exact h.ite h.startHalt
  · exact h

theorem State.Inv.execBrk (h : s.Inv) : OutInv (execBrk s) := by
  unfold Machine.execBrk
  extract_lets p next
  split
  · exact h.setCur.raise
  · exact State.Inv.haltGroup (State.Inv.finishShort h)

theorem State.Inv.pushPath {i pc mask inner} (h : s.Inv) : (pushPath s i pc mask inner).Inv := by
  unfold Machine.pushPath
  extract_lets at_ s1 r
  have hs1 : s1.Inv := h.pushEntry
  exact .update hs1

theorem State.Inv.unpark (h : s.Inv) : (unpark s).Inv := by
  unfold Machine.unpark
  split
  · exact h
  · extract_lets inner i s1 src s2 s3
    have hs1 : s1.Inv := h.pushPath
    have hs2 : s2.Inv := .update hs1
    have hs3 : s3.Inv := .update hs2
    clear_value s3
    split
    · exact hs3
    · split
      · next e => exact ExcInv.of_eq e hs3.joinSteps
      · exact hs3.raise

theorem State.Inv.runTeam {t parked} (h : s.Inv) : (runTeam s t parked).Inv := by
  unfold Machine.runTeam
  extract_lets gs s1 s2 s3 r
  have hs1 : s1.Inv := State.Inv.ite (h.foldl fun _ _ h => h.withGroup (fun _ h => h.unpark)) h
  have hs2 : s2.Inv := hs1.onGroups
  have hs3 : s3.Inv := hs2.onTeam
  exact State.Inv.ite (State.Inv.settleQueue (.update hs3)) hs3

theorem State.Inv.beginIn {lane sel} (h : s.Inv) : (beginIn lane sel s).Inv := by
  unfold Machine.beginIn
  extract_lets i p one s1 r s2 r1
  have hs1 : s1.Inv := h.pushPath
  have hs2 : s2.Inv := State.Inv.ite (.update hs1) h
  exact .update hs2

theorem State.Inv.placeForStep {t} (h : s.Inv) : OptInv State.Inv (placeForStep s t) := by
  refine OptInv.map (p := State.Inv) ?_ fun _ hs => hs.onTeam
  split
  · exact h.restoreAll
  · exact h

theorem State.Inv.beginStep {t lane sel} (h : s.Inv) : (beginStep s t lane sel).Inv := by
  unfold Machine.beginStep
  split
  · exact h
  · exact h.ite ((h.placeForStep.map fun _ h => h.withGroup (fun _ h => h.beginIn)).getD h)

theorem State.Inv.makeAsk {t a} (h : s.Inv) : (makeAsk s t a).Inv := by
  unfold Machine.makeAsk
  split
  · exact h
  · split
    · exact h.beginStep
    · exact h.ite h.runTeam

theorem State.Inv.nextSteps {n r} (h : s.Inv) : (nextSteps n s r).Inv := by
  induction n generalizing s with
  | zero => exact h
  | succ n ih =>
    unfold Machine.nextSteps
    split
    · exact h
    · split
      · exact h
      · split
        · exact h
        · exact ih h.onTeam.makeAsk

theorem State.Inv.goOnStep {t} (h : s.Inv) : (goOnStep s t).Inv := by
  unfold Machine.goOnStep
  exact State.Inv.ite (h.placeForStep.getD h) h

theorem State.Inv.resumeAsks (h : s.Inv) : (resumeAsks s).Inv :=
  h.foldl fun _ _ h => h.withTeam (fun _ h => h.goOnStep.nextSteps)

theorem State.Inv.askTeam {t a} (h : s.Inv) : (askTeam s t a).Inv := by
  unfold Machine.askTeam
  split
  · exact h
  · split
    · exact h
    · exact h.onTeam.nextSteps

theorem State.Inv.runIssue {i b parked} (h : s.Inv) : OutInv (runIssue i b parked s) := by
  unfold Machine.runIssue
  exact h.issue (ExcInv.of_map fun _ => (h.releaseAt.ite h).askTeam)

theorem State.Inv.execDbgRun {b} (h : s.Inv) : OutInv (execDbgRun b s) :=
  h.runIssue

theorem State.Inv.execDbgRunUnpark {b} (h : s.Inv) : OutInv (execDbgRunUnpark b s) :=
  h.runIssue

theorem State.Inv.stepIssue {i b c lane} (h : s.Inv) : OutInv (stepIssue i b c lane s) :=
  h.issue (ExcInv.of_bind fun _ => ExcInv.of_bind fun _ => h.askTeam)

theorem State.Inv.execDbgStep {b c} (h : s.Inv) : OutInv (execDbgStep b c s) :=
  h.stepIssue

theorem State.Inv.execDbgStepLane {b c} (h : s.Inv) : OutInv (execDbgStepLane b c s) :=
  h.stepIssue

theorem State.Inv.execStepIdleTimeout {t} (h : s.Inv) : OutInv (execStepIdleTimeout t s) := by
  unfold Machine.execStepIdleTimeout
  refine State.Inv.maySome (h.focusTeam.bind fun s h => ?_)
  extract_lets r s1
  have hs1 : s1.Inv := .update h
  split
  · split
    · exact hs1.saveOne
    · trivial
  · trivial

theorem State.Inv.storeBuffer {a bs} (h : s.Inv) : (storeBuffer s a bs).Inv :=
  h.pushStore

theorem State.Inv.bufferEffect {d a bs x} (h : s.Inv) : ExcInv Effect.Inv (bufferEffect s d a bs x) := by
  unfold Machine.bufferEffect
  extract_lets r
  have hr : r.Inv := h.storeBuffer
  split
  · trivial
  · exact hr

theorem State.Inv.execDbgRd {d a b c} (h : s.Inv) : OutInv (execDbgRd d a b c s) := by
  unfold Machine.execDbgRd
  refine h.issue (ExcInv.of_bind fun buf => ?_)
  refine ExcInv.of_bind fun t => ?_
  refine ExcInv.of_bind fun sel => ?_
  split
  · exact h
  · extract_lets i tag
    exact h.bufferEffect

theorem State.Inv.execDbgList {d a c} (h : s.Inv) : OutInv (execDbgList d a c s) :=
  h.issue (ExcInv.of_bind fun _ => ExcInv.of_bind fun _ => h.bufferEffect)

theorem State.Inv.writeHeader {bs} (h : s.Inv) : OptInv State.Inv (writeHeader s bs) := by
  unfold Machine.writeHeader
  extract_lets g ma mb next
  refine OptInv.of_bind fun a => ?_
  refine OptInv.of_bind fun b => ?_
  extract_lets g1 g2 g3 waits r
  split
  · exact OptInv.of_bind fun _ => State.Inv.dropWaits (.update h)
  · exact State.Inv.dropWaits (.update h)

theorem State.Inv.writeEntries {i bs} (h : s.Inv) : OptInv State.Inv (writeEntries s i bs) := by
  unfold Machine.writeEntries
  extract_lets offs
  split
  · exact h.foldl fun _ _ h => h.putSump
  · trivial

theorem State.Inv.unitWrite {kind i bs} (h : s.Inv) : OptInv State.Inv (unitWrite s kind i bs) := by
  unfold Machine.unitWrite
  extract_lets t r c
  split
  · exact .update h
  · exact .update h
  · split
    · exact h.writeHeader
    · exact h
  · exact h.putLocs
  · exact .update h
  · exact h.writeEntries
  · trivial

theorem State.Inv.writeGroup {r kind i bs} (h : s.Inv) : OptInv State.Inv (writeGroup s r kind i bs) :=
  OptInv.of_bind fun _ => OptInv.of_map fun _ => h.withGroup fun _ ht => ht.unitWrite.getD ht

theorem State.Inv.countBuffer {a b c} (h : s.Inv) : (countBuffer s a b c).Inv := by
  unfold Machine.countBuffer
  split
  · extract_lets n
    exact h.ite h.countRange
  · exact h

theorem State.Inv.execDbgWr {d a b c} (h : s.Inv) : OutInv (execDbgWr d a b c s) := by
  unfold Machine.execDbgWr
  extract_lets s1 done
  have hs1 : s1.Inv := h.countBuffer
  clear_value s1
  refine hs1.issue (ExcInv.of_bind fun buf => ExcInv.of_bind fun t => ExcInv.of_bind fun sel => ?_)
  split
  · exact hs1
  · extract_lets n bs
    split
    · exact hs1
    · split
      · trivial
      · split
        · trivial
        · split
          · next e => exact OptInv.of_eq (p := State.Inv) e hs1.writeGroup
          · exact hs1

/-! ### Issue -/

theorem State.Inv.retry {i} (h : s.Inv) : OptInv OutInv (retry i s) := by
  unfold Machine.retry
  split
  · exact h.execBarArr
  · exact h.execBarWait
  · exact h.execBarSync
  · exact h.execQPut
  · exact h.execQGet
  · exact h.execGaugeWait
  · exact h.execLaunch
  · exact h.execCpy
  · exact h.execCpym
  · exact h.execFill
  · exact h.execRowcpy
  · exact h.execMstore
  · exact h.execMma
  · exact h.execMmaG
  · exact h.execMzero
  · trivial

theorem State.Inv.noteWaits (h : s.Inv) : (noteWaits s).Inv := by
  unfold Machine.noteWaits
  refine h.foldl fun s g h => ?_
  split
  · exact h
  · refine h.foldl fun s i h => ?_
    split
    · exact h.onGroups
    · exact h

theorem State.Inv.settleTeam (h : s.Inv) : (settleTeam s).Inv := by
  unfold Machine.settleTeam
  extract_lets t gs s1 r s2
  have hs1 : s1.Inv := State.Inv.drainTeam (.update h)
  have hs2 : s2.Inv := State.Inv.settleQueue (.update hs1)
  exact h.ite (hs2.requestStop.ite hs2)

theorem State.Inv.afterStep (h : s.Inv) : (afterStep s).Inv := by
  unfold Machine.afterStep
  extract_lets s1
  have hs1 : s1.Inv := h.settleHalt.settleTeam
  exact hs1.ite hs1.nextSteps

theorem State.Inv.closeStep (h : s.Inv) : (closeStep s).Inv := by
  unfold Machine.closeStep
  extract_lets r
  exact State.Inv.ite (.update h) h

theorem State.Inv.closeIssue (h : s.Inv) : (closeIssue s).Inv := by
  unfold Machine.closeIssue
  extract_lets s1 r
  have hs1 : s1.Inv := h.setCur.closeStep
  exact State.Inv.afterStep (.update hs1)

theorem State.Inv.raiseHere {r} (h : s.Inv) : (raiseHere s r).Inv :=
  h.raise.closeStep.afterStep

theorem State.Inv.countFetch {p} (h : s.Inv) : (countFetch s p).Inv := by
  unfold Machine.countFetch
  refine h.foldl fun s k h => ?_
  split
  · exact h.countRead
  · exact h

theorem State.Inv.observeWaits {p} (h : s.Inv) : (observeWaits s p).Inv := by
  unfold Machine.observeWaits
  exact h.ite (h.foldl fun _ _ h => h.observe)

theorem State.Inv.execClauseIssue (h : s.Inv) : OutInv (execClauseIssue s) := by
  unfold Machine.execClauseIssue
  extract_lets p
  split
  · exact State.Inv.cannot
  · split
    · exact h.raiseHere
    · extract_lets s1
      have hs1 : s1.Inv := h.countFetch.observeWaits
      split
      · exact State.Inv.cannot
      · split
        · exact h.raiseHere
        · exact hs1.setCur

theorem State.Inv.execClauseResume (h : s.Inv) : OutInv (execClauseResume s) := by
  unfold Machine.execClauseResume
  extract_lets t r
  have ht : t.Inv := h.observeWaits
  exact ht.setCur.may

theorem State.Inv.watchPc {evs dst} (h : s.Inv) : (watchPc s evs dst).Inv := by
  unfold Machine.watchPc
  extract_lets p r
  exact h.ite h.watchEvents

theorem State.Inv.afterHeld {y o} (h : s.Inv) (ho : OutInv o) : OutInv (afterHeld s y o) := by
  have hs : OutInv (.next (Machine.closeIssue { s with g := { s.g with haltDue := y } })) :=
    State.Inv.closeIssue (.update h)
  cases o with
  | next t =>
    have ht : t.Inv := ho
    unfold Machine.afterHeld
    dsimp only
    split
    · exact State.Inv.closeIssue (.update ht)
    · exact hs
  | fault => exact hs
  | refused => exact hs

theorem State.Inv.execJoinResume (h : s.Inv) : OutInv (execJoinResume s) := by
  unfold Machine.execJoinResume
  split
  · split
    · exact h.raise.afterStep
    · next e => exact (ExcInv.of_eq e h.joinAt).may
  · exact State.Inv.cannot

theorem State.Inv.execFlagClear {k} (h : s.Inv) : OutInv (execFlagClear k s) := by
  unfold Machine.execFlagClear
  split
  · exact State.Inv.cannot
  · extract_lets ready
    exact h.landAt.afterStep.may

theorem State.Inv.execStoreVisible (h : s.Inv) : OutInv (execStoreVisible s) :=
  h.popStore.may

theorem State.Inv.execPageWalk {n w} (h : s.Inv) : OutInv (execPageWalk n w s) := by
  unfold Machine.execPageWalk
  refine State.Inv.maySome (OptInv.of_bind fun d => ?_)
  extract_lets es read s1
  have hs1 : s1.Inv := h.onDevice
  split
  · trivial
  · split
    · exact hs1
    · exact OptInv.of_map fun _ => hs1.countDie.addPoison

theorem State.Inv.execTrapEntry (h : s.Inv) : OutInv (execTrapEntry s) := by
  unfold Machine.execTrapEntry
  split
  · exact h.enter.afterStep.may
  · exact State.Inv.cannot

theorem State.Inv.afterService (h : s.Inv) : (afterService s).Inv :=
  h.ite h.releasePending

theorem State.Inv.execSupervisorEntry (h : s.Inv) : OutInv (execSupervisorEntry s) := by
  unfold Machine.execSupervisorEntry
  split
  · exact h.enter.afterService.afterStep.may
  · exact State.Inv.cannot

theorem State.Inv.execTeamHalt {t} (h : s.Inv) : OutInv (execTeamHalt t s) := by
  unfold Machine.execTeamHalt
  refine State.Inv.maySome (h.focusTeam.bind fun s h => ?_)
  split
  · trivial
  · extract_lets gs s1 r
    have hs1 : s1.Inv := h.foldl fun _ _ h => h.withGroup (fun _ h => h.haltNow)
    split
    · trivial
    · exact State.Inv.afterStep (.update hs1)

/-! ### Sluice instructions -/

theorem State.Inv.meterSteps {n} (h : s.Inv) : (meterSteps s n).Inv := by
  unfold Machine.meterSteps
  split
  · exact h
  · exact h.onDevice

theorem State.Inv.sluiceRun {i} (h : s.Inv) : OutInv (sluiceRun i s) :=
  State.Inv.may (State.Inv.meterSteps (.update h))

theorem State.Inv.execSluiceEnd (h : s.Inv) : OutInv (execSluiceEnd s) :=
  h.sluiceRun

theorem State.Inv.execSluiceFail (h : s.Inv) : OutInv (execSluiceFail s) :=
  h.sluiceRun

theorem State.Inv.execSluiceGet {d} (h : s.Inv) : OutInv (execSluiceGet d s) :=
  h.sluiceRun

theorem State.Inv.execSluicePeek {d n} (h : s.Inv) : OutInv (execSluicePeek d n s) :=
  h.sluiceRun

theorem State.Inv.execSluiceGetw {d} (h : s.Inv) : OutInv (execSluiceGetw d s) :=
  h.sluiceRun

theorem State.Inv.execSluicePut {a} (h : s.Inv) : OutInv (execSluicePut a s) :=
  h.sluiceRun

theorem State.Inv.execSluicePutw {a} (h : s.Inv) : OutInv (execSluicePutw a s) :=
  h.sluiceRun

theorem State.Inv.execSluicePutn {a b} (h : s.Inv) : OutInv (execSluicePutn a b s) :=
  h.sluiceRun

theorem State.Inv.execSluiceCopy {b} (h : s.Inv) : OutInv (execSluiceCopy b s) :=
  h.sluiceRun

theorem State.Inv.execSluiceCopyBack {a b} (h : s.Inv) : OutInv (execSluiceCopyBack a b s) :=
  h.sluiceRun

theorem State.Inv.execSluiceMovi {d n} (h : s.Inv) : OutInv (execSluiceMovi d n s) :=
  h.sluiceRun

theorem State.Inv.execSluiceMov {d a} (h : s.Inv) : OutInv (execSluiceMov d a s) :=
  h.sluiceRun

theorem State.Inv.execSluiceAdd {d a b} (h : s.Inv) : OutInv (execSluiceAdd d a b s) :=
  h.sluiceRun

theorem State.Inv.execSluiceAddImm {d a imm} (h : s.Inv) : OutInv (execSluiceAddImm d a imm s) :=
  h.sluiceRun

theorem State.Inv.execSluiceSub {d a b} (h : s.Inv) : OutInv (execSluiceSub d a b s) :=
  h.sluiceRun

theorem State.Inv.execSluiceSubImm {d a imm} (h : s.Inv) : OutInv (execSluiceSubImm d a imm s) :=
  h.sluiceRun

theorem State.Inv.execSluiceAnd {d a b} (h : s.Inv) : OutInv (execSluiceAnd d a b s) :=
  h.sluiceRun

theorem State.Inv.execSluiceAndImm {d a imm} (h : s.Inv) : OutInv (execSluiceAndImm d a imm s) :=
  h.sluiceRun

theorem State.Inv.execSluiceOr {d a b} (h : s.Inv) : OutInv (execSluiceOr d a b s) :=
  h.sluiceRun

theorem State.Inv.execSluiceOrImm {d a imm} (h : s.Inv) : OutInv (execSluiceOrImm d a imm s) :=
  h.sluiceRun

theorem State.Inv.execSluiceXor {d a b} (h : s.Inv) : OutInv (execSluiceXor d a b s) :=
  h.sluiceRun

theorem State.Inv.execSluiceXorImm {d a imm} (h : s.Inv) : OutInv (execSluiceXorImm d a imm s) :=
  h.sluiceRun

theorem State.Inv.execSluiceShl {d a b} (h : s.Inv) : OutInv (execSluiceShl d a b s) :=
  h.sluiceRun

theorem State.Inv.execSluiceShlImm {d a imm} (h : s.Inv) : OutInv (execSluiceShlImm d a imm s) :=
  h.sluiceRun

theorem State.Inv.execSluiceShr {d a b} (h : s.Inv) : OutInv (execSluiceShr d a b s) :=
  h.sluiceRun

theorem State.Inv.execSluiceShrImm {d a imm} (h : s.Inv) : OutInv (execSluiceShrImm d a imm s) :=
  h.sluiceRun

theorem State.Inv.execSluiceBeq {a b o} (h : s.Inv) : OutInv (execSluiceBeq a b o s) :=
  h.sluiceRun

theorem State.Inv.execSluiceBne {a b o} (h : s.Inv) : OutInv (execSluiceBne a b o s) :=
  h.sluiceRun

theorem State.Inv.execSluiceBlt {a b o} (h : s.Inv) : OutInv (execSluiceBlt a b o s) :=
  h.sluiceRun

theorem State.Inv.execSluiceBeof {o} (h : s.Inv) : OutInv (execSluiceBeof o s) :=
  h.sluiceRun

theorem State.Inv.execSluiceJmp {o} (h : s.Inv) : OutInv (execSluiceJmp o s) :=
  h.sluiceRun

theorem State.Inv.execSluiceLoop {d o} (h : s.Inv) : OutInv (execSluiceLoop d o s) :=
  h.sluiceRun

theorem State.Inv.execSluiceTbl {d a} (h : s.Inv) : OutInv (execSluiceTbl d a s) :=
  h.sluiceRun

theorem State.Inv.execSluiceStepBudget (h : s.Inv) : OutInv (execSluiceStepBudget s) := by
  unfold Machine.execSluiceStepBudget
  split
  · exact State.Inv.may (.update h)
  · exact State.Inv.cannot

/-! ### Events of memory -/

theorem State.Inv.onSomeDie (h : s.Inv) : (onSomeDie s).Inv :=
  .update h

theorem State.Inv.strikeSector {pa va k f} (h : s.Inv) : (strikeSector s pa va k f).Inv := by
  unfold Machine.strikeSector
  extract_lets at_ key held
  split
  · split
    · exact .update h
    · exact h
  · split
    · extract_lets base
      split
      · exact .update h
      · exact h.addPoison
    · exact State.Inv.addPoison (.update h)

theorem State.Inv.strikeLine {pa va f e} (h : s.Inv) : (strikeLine s pa va f e).Inv := by
  unfold Machine.strikeLine
  extract_lets s1
  have hs1 : s1.Inv := h.foldl fun _ _ h => h.strikeSector
  exact hs1.countDie

theorem State.Inv.fillWanted {sl pa va} (h : s.Inv) : (fillWanted s sl pa va).Inv :=
  h.foldl fun _ _ h => h.cacheBlock

theorem State.Inv.execCacheFill {n l} (h : s.Inv) : OutInv (execCacheFill n l s) := by
  unfold Machine.execCacheFill
  refine State.Inv.maySome (h.deviceOnly.bind fun s h => ?_)
  split
  · extract_lets r
    have hr : r.Inv := h.onSomeDie.fillLine.strikeLine
    exact .update hr
  · extract_lets t
    have ht : t.Inv := h.strikeLine
    split
    · split
      · exact ht.fillWanted
      · trivial
    · exact ht.fillLine
  · trivial

theorem State.Inv.evictLine {pa} (h : s.Inv) : OptInv State.Inv (evictLine s pa) := by
  unfold Machine.evictLine
  split
  · trivial
  · exact State.Inv.meter (.update h)
  · exact h.foldl fun _ _ h => h.evictBlock

theorem State.Inv.execCacheEviction {n l} (h : s.Inv) : OutInv (execCacheEviction n l s) := by
  unfold Machine.execCacheEviction
  refine State.Inv.maySome (h.deviceOnly.bind fun s h => ?_)
  split
  · split
    · trivial
    · extract_lets k r t
      have ht : t.Inv := State.Inv.strikeLine (.update h)
      exact State.Inv.evictPeer (.update ht)
  · exact h.strikeLine.evictLine
  · trivial

theorem State.Inv.execSluiceEncode {n pa} (h : s.Inv) : OutInv (execSluiceEncode n pa s) :=
  State.Inv.maySome (h.deviceOnly.bind fun _ h => OptInv.of_map fun _ => h.finishEncode)

theorem State.Inv.execSluiceDecode {n pa} (h : s.Inv) : OutInv (execSluiceDecode n pa s) := by
  unfold Machine.execSluiceDecode
  refine State.Inv.maySome (h.deviceOnly.bind fun s h => ?_)
  refine OptInv.of_bind fun e => ?_
  extract_lets off
  split
  · exact h.cacheBlock
  · trivial

theorem State.Inv.visitBlock {sl pa va} (h : s.Inv) : (visitBlock s sl pa va).1.Inv := by
  unfold Machine.visitBlock
  extract_lets f
  split
  · exact h.countMeta
  · exact h.countFill

theorem State.Inv.markClean {pa} (h : s.Inv) : (markClean s pa).Inv := by
  unfold Machine.markClean
  split
  · exact .update h
  · exact h

theorem State.Inv.transcodeOne {slot sl pa va} (h : s.Inv) : (transcodeOne s slot sl pa va).Inv := by
  unfold Machine.transcodeOne
  extract_lets s1 r s2
  have hs1 : s1.Inv := h.finishEncodes
  have hr : r.1.Inv := hs1.visitBlock
  have hs2 : s2.Inv := hr.storeBlock.markClean
  exact hs1.countMeta.ite hs2.onBinding

theorem State.Inv.nextBlock {slot sl} {one : State → Nat → Nat → State} (h : s.Inv)
    (hone : ∀ t pa va, t.Inv → (one t pa va).Inv) : (nextBlock s slot sl one).Inv := by
  unfold Machine.nextBlock
  extract_lets va past
  have hpast (t : State) (ht : t.Inv) : (past t).Inv := ht.onBinding
  split
  · exact hpast _ (hone _ _ _ h)
  · exact h.repairTable
  · exact hpast _ h

theorem State.Inv.execTranscodeBlock {n slot} (h : s.Inv) : OutInv (execTranscodeBlock n slot s) := by
  refine State.Inv.maySome (h.deviceOnly.bind fun s h => OptInv.of_bind fun sl => ?_)
  split
  · exact h.nextBlock fun t _ _ ht => ht.transcodeOne
  · trivial

theorem State.Inv.execTranscodeEnd {n slot} (h : s.Inv) : OutInv (execTranscodeEnd n slot s) := by
  unfold Machine.execTranscodeEnd
  refine State.Inv.maySome (h.deviceOnly.bind fun s h => ?_)
  refine OptInv.of_bind fun sl => ?_
  extract_lets s1
  have hs1 : s1.Inv := h.onBinding
  split
  · exact .update hs1
  · trivial

theorem State.Inv.unbindOne {sl pa va} (h : s.Inv) : (unbindOne s sl pa va).Inv := by
  unfold Machine.unbindOne
  extract_lets s1 dirty r
  have hs1 : s1.Inv := h.finishEncodes
  have hr : r.1.Inv := hs1.visitBlock
  exact hs1.countMeta.ite hr.storeRaw.markClean

theorem State.Inv.execUnbindBlock {n slot} (h : s.Inv) : OutInv (execUnbindBlock n slot s) := by
  refine State.Inv.maySome (h.deviceOnly.bind fun s h => OptInv.of_bind fun sl => ?_)
  split
  · exact h.nextBlock fun t _ _ ht => ht.unbindOne
  · trivial

theorem State.Inv.releaseBlocks {sl} (h : s.Inv) : (releaseBlocks s sl).Inv := by
  unfold Machine.releaseBlocks
  exact h.foldl fun _ _ h => .update (h.storeRaw.ite h)

theorem State.Inv.execUnbindEnd {n slot} (h : s.Inv) : OutInv (execUnbindEnd n slot s) := by
  unfold Machine.execUnbindEnd
  refine State.Inv.maySome (h.deviceOnly.bind fun s h => ?_)
  refine OptInv.of_bind fun sl => ?_
  extract_lets s1 s2 r d
  have hs1 : s1.Inv := h.finishWhere
  have hs2 : s2.Inv := hs1.releaseBlocks
  split
  · exact .update hs2
  · trivial

theorem State.Inv.execRefresh {stack bank row} (h : s.Inv) : OutInv (execRefresh stack bank row s) := by
  unfold Machine.execRefresh
  split
  · exact .update h
  · trivial

theorem State.Inv.execRefreshRetry {stack bank} (h : s.Inv) : OutInv (execRefreshRetry stack bank s) :=
  State.Inv.may (.update h)

theorem State.Inv.demoteRow {k} (h : s.Inv) : (demoteRow s k).Inv :=
  .update h

theorem State.Inv.execScrubRow {stack bank row corrected uncorrectable} (h : s.Inv) :
    OutInv (execScrubRow stack bank row corrected uncorrectable s) := by
  unfold Machine.execScrubRow
  extract_lets k s1 s2
  have hs1 : s1.Inv := h.ite h.demoteRow
  have hs2 : s2.Inv := hs1.countDie
  split
  · exact hs2.foldl fun _ _ h => h.addPoison
  · trivial

theorem State.Inv.execSpanInitialise {span} (h : s.Inv) : OutInv (execSpanInitialise span s) := by
  unfold Machine.execSpanInitialise
  split
  · exact h.clearSpan.may
  · trivial

theorem State.Inv.putEntry {pa x} (h : s.Inv) : (putEntry s pa x).Inv :=
  .update h

theorem State.Inv.editTable {e} (h : s.Inv) : (editTable s e).Inv := by
  unfold Machine.editTable
  extract_lets s1 r
  have hs1 : s1.Inv := h.putEntry
  exact .update hs1

theorem State.Inv.holdAt {b n x} (h : s.Inv) : (holdAt s b n x).Inv := wf_holdAt b n x h

theorem State.Inv.movePlaces {ms} (h : s.Inv) : (movePlaces s ms).Inv := by
  unfold Machine.movePlaces
  extract_lets new
  exact h.onTeams

theorem State.Inv.movePages {ms} (h : s.Inv) : (movePages s ms).Inv := by
  unfold Machine.movePages
  extract_lets rs s1 held n
  have hs1 : s1.Inv := h.foldl fun _ _ h => h.cleanRange.cleanRange
  exact State.Inv.movePlaces (hs1.meter.meter.foldl fun _ _ h => h.holdAt)

theorem State.Inv.finishPages {x} (h : s.Inv) : (finishPages s x).Inv := by
  unfold Machine.finishPages
  split
  · next e =>
    extract_lets r
    have hr : r.1.Inv := (OptInv.of_eq e h.focusJob).moveTo
    exact (hr.endJob.ite hr.putJob).ite h
  · exact h

theorem State.Inv.execTranslationShootdown {n edits} (h : s.Inv) : OutInv (execTranslationShootdown n edits s) := by
  unfold Machine.execTranslationShootdown
  refine State.Inv.maySome (h.deviceOnly.bind fun s h => ?_)
  extract_lets s1 s2
  have hs1 : s1.Inv := h.foldl fun _ _ h => h.foldl fun _ _ h => h.putVisible
  have hs2 : s2.Inv := hs1.onGroups
  split
  · trivial
  · split
    · exact (State.Inv.deviceOnly (hs2.foldl fun _ _ h => h.finishPages)).map
        fun _ h => (h.ite h.movePages).foldl fun _ _ h => h.editTable
    · trivial

theorem State.Inv.reply {error bs} (h : s.Inv) : (reply s error bs).Inv :=
  .update h

theorem State.Inv.peerAtomic {pa n f} (h : s.Inv) : (peerAtomic s pa n f).Inv := by
  unfold Machine.peerAtomic
  extract_lets ls s1 old s2 s3
  have hs1 : s1.Inv := h.foldl fun _ _ h => h.readyAtomic
  have hs2 : s2.Inv := hs1.countReads
  have hs3 : s3.Inv := by
    unfold s3
    split
    · exact hs2
    · split
      · exact hs2.putVisible
      · exact hs2
  exact hs3.meter.reply

theorem State.Inv.servePeer {pa len op} (h : s.Inv) : (servePeer s pa len op).Inv := by
  unfold Machine.servePeer
  extract_lets ls s1
  have hs1 : s1.Inv := h.meter
  split
  · exact hs1.countReads.reply
  · exact hs1.putVisible.reply
  · exact hs1.peerAtomic
  · exact hs1.peerAtomic

theorem State.Inv.execPeerAccess {pa len op} (h : s.Inv) : OutInv (execPeerAccess pa len op s) := by
  unfold Machine.execPeerAccess
  split
  · exact State.Inv.cannot
  · split
    · exact h.reply
    · split
      · exact h.reply
      · exact State.Inv.maySome (h.deviceOnly.map fun _ h => h.servePeer)

theorem State.Inv.execPeerUnreachable {n va how} (h : s.Inv) : OutInv (execPeerUnreachable n va how s) := by
  unfold Machine.execPeerUnreachable
  refine State.Inv.maySome (h.deviceOnly.bind fun s h => ?_)
  split
  · split
    · split
      · trivial
      · extract_lets s1
        have hs1 : s1.Inv := .update h
        exact hs1.writeLog
    · extract_lets k
      split
      · trivial
      · exact .update h
  · trivial

theorem State.Inv.putPort {n p} (h : s.Inv) : (putPort s n p).Inv :=
  .update h

theorem State.Inv.execFlitReplay {f} (h : s.Inv) : OutInv (execFlitReplay f s) := by
  unfold Machine.execFlitReplay
  extract_lets p
  split
  · exact h.putPort.may
  · trivial

theorem State.Inv.execPortRetrain {n} (h : s.Inv) : OutInv (execPortRetrain n s) := by
  unfold Machine.execPortRetrain
  extract_lets p
  split
  · exact h.putPort.may
  · trivial

theorem State.Inv.moduleEvent {kind n} (h : s.Inv) : (moduleEvent s kind n).Inv :=
  h.send

theorem State.Inv.execPortRetrainingEnd {n ok} (h : s.Inv) : OutInv (execPortRetrainingEnd n ok s) := by
  unfold Machine.execPortRetrainingEnd
  extract_lets p
  split
  · exact (h.putPort.ite h.putPort.moduleEvent).may
  · trivial

/-! ### Firmware -/

theorem State.Inv.mapFrom {va lvl entry ls tbl} (h : s.Inv) : (mapFrom s va lvl entry ls tbl).Inv := by
  induction ls generalizing s tbl with
  | nil => exact h
  | cons l ls ih =>
    obtain ⟨l, sh, bits⟩ := l
    unfold Machine.mapFrom
    extract_lets at_ e size t src s1
    split
    · exact h.putEntry
    · split
      · exact ih h
      · exact ih (State.Inv.putEntry (.update h))

theorem State.Inv.mapPage {va pa lvl perm} (h : s.Inv) : (mapPage s va pa lvl perm).Inv :=
  h.mapFrom

theorem State.Inv.mapRange {va pa len perm} (h : s.Inv) : (mapRange s va pa len perm).Inv :=
  h.foldl fun _ _ h => h.mapPage

theorem State.Inv.mapMain {pa gib} (h : s.Inv) : (mapMain s pa gib).Inv := by
  unfold Machine.mapMain
  extract_lets big
  exact h.foldl fun _ _ h => (h.mapPage.ite h).ite h.mapPage

theorem State.Inv.takeRange {pa n} (h : s.Inv) : (takeRange s pa n).Inv :=
  .update h

theorem State.Inv.addCode {obj numbers} (h : s.Inv) : OptInv State.Inv (addCode s obj numbers) := by
  unfold Machine.addCode
  extract_lets size va
  exact OptInv.of_map fun _ => .update h.takeRange.putRun.meter.mapRange

theorem State.Inv.execProfileRetranslation {n kernel obj} (h : s.Inv) :
    OutInv (execProfileRetranslation n kernel obj s) := by
  unfold Machine.execProfileRetranslation
  refine State.Inv.maySome (h.deviceOnly.bind fun s h => ?_)
  extract_lets obj1
  split
  · split
    · exact h.addCode
    · trivial
  · trivial

theorem State.Inv.failModule (h : s.Inv) : (failModule s).Inv := by
  unfold Machine.failModule
  extract_lets s1
  have hs1 : s1.Inv := h.foldl fun _ _ h => h.loseDevice
  exact .update hs1

theorem State.Inv.execDieLinkFailure (h : s.Inv) : OutInv (execDieLinkFailure s) :=
  h.countDie.failModule

theorem State.Inv.execColdPlateFault (h : s.Inv) : OutInv (execColdPlateFault s) :=
  h.failModule

theorem State.Inv.noteFixes {n fixes} (h : s.Inv) : (noteFixes s n fixes).Inv := by
  unfold Machine.noteFixes
  extract_lets fixes1 s1
  have hs1 : s1.Inv := h.countDie
  exact hs1.onCore

theorem State.Inv.execTemperatureReading {n x} (h : s.Inv) : OutInv (execTemperatureReading n x s) := by
  unfold Machine.execTemperatureReading
  extract_lets s1
  have hs1 : s1.Inv := h.readTemp.noteFixes
  split
  · exact hs1.failModule.ite (State.Inv.ite (hs1.foldl fun _ _ h => h.requestStop) hs1)
  · trivial

theorem State.Inv.dropMisfits {n} (h : s.Inv) : (dropMisfits s n).Inv := by
  unfold Machine.dropMisfits
  split
  · exact h
  · next e =>
    extract_lets bad
    have hu := OptInv.of_eq (p := State.Inv) e h.deviceOnly
    exact hu.ite (State.Inv.settleQueue (State.Inv.settleGrids (.update hu)))

theorem State.Inv.execCoreWithdrawal {core sub lane} (h : s.Inv) : OutInv (execCoreWithdrawal core sub lane s) := by
  unfold Machine.execCoreWithdrawal
  extract_lets old s1 s2
  have hs1 : s1.Inv := h.onCore
  have hs2 : s2.Inv := hs1.moduleEvent
  split
  · split
    · split
      · exact hs1
      · exact hs2.foldl fun _ _ h => h.dropMisfits
    · exact State.Inv.cannot
  · trivial

theorem State.Inv.execLaneSteering {core sub lane} (h : s.Inv) : OutInv (execLaneSteering core sub lane s) := by
  unfold Machine.execLaneSteering
  extract_lets c
  exact h.onCore.may

theorem State.Inv.noteSample {t} (h : s.Inv) : (noteSample s t).Inv := by
  unfold Machine.noteSample
  extract_lets ns now rs
  exact h.onTeam.ite h.onTeam

theorem State.Inv.noteSamples (h : s.Inv) : (noteSamples s).Inv :=
  h.foldl fun _ _ h => h.noteSample

theorem State.Inv.execPeriodicSample {vd serial core n} (h : s.Inv) :
    OutInv (execPeriodicSample vd serial core n s) := by
  unfold Machine.execPeriodicSample
  refine State.Inv.maySome (h.focusTeam.bind fun s h => ?_)
  split
  · extract_lets r
    split
    · exact State.Inv.writeStamp (.update h)
    · trivial
  · trivial

theorem State.Inv.execMeterTick (h : s.Inv) : OutInv (execMeterTick s) := by
  unfold Machine.execMeterTick
  extract_lets pay
  exact State.Inv.may (.update h)

theorem State.Inv.execModuleReset {stages blob ok temps} : OutInv (execModuleReset stages blob ok temps s) := by
  unfold Machine.execModuleReset
  extract_lets items src s1 t
  have hs1 : s1.Inv := rfl
  clear_value s1
  have ht : t.Inv := hs1.foldl fun _ _ hs => hs.readTemp
  clear_value t
  exact State.Inv.may (State.Inv.ite ht.failModule ht)

/-! ### Intake -/

theorem State.Inv.intakeWrite {va bs} (h : s.Inv) : (intakeWrite s va bs).1.Inv := by
  unfold Machine.intakeWrite
  extract_lets q
  have hq : q.1.Inv := h.jobPlaces
  exact hq.putVisible

theorem State.Inv.storePre {slot va enc} (h : s.Inv) : (storePre s slot va enc).1.Inv := by
  unfold Machine.storePre
  extract_lets s1
  have hs1 : s1.Inv := h.repairWalk
  split
  · extract_lets r s2 s3 s4
    have hs2 : s2.Inv := hs1.meter
    have hs3 : s3.Inv := hs2.finishEncodes
    have hs4 : s4.Inv := hs3.storeSlot
    split
    · exact .update hs4
    · exact hs2
  · exact hs1

theorem State.Inv.storePreAll {slot va bs ds} (h : s.Inv) : (storePreAll s slot va bs ds).1.Inv := by
  induction ds generalizing s va with
  | nil => exact h
  | cons b ds ih => exact ih h.storePre

theorem State.Inv.writeTensor {t data rscale cscale} (h : s.Inv) : (writeTensor s t data rscale cscale).1.Inv := by
  unfold Machine.writeTensor
  extract_lets r r1 es r2
  have hr : r.1.Inv := h.intakeWrite
  have hr1 : r1.1.Inv := h.intakeWrite
  have hr2 : r2.1.Inv := h.intakeWrite
  split
  · exact hr
  · exact hr1
  · exact hr2
  · split
    · exact h
    · extract_lets r3
      have hr3 : r3.1.Inv := h.storePreAll
      exact hr3

theorem State.Inv.focusLoad {x} (h : s.Inv) : OptInv (·.1.Inv) (focusLoad s x) :=
  h.deviceOnly.bind fun _ h => OptInv.of_map fun _ => h

theorem State.Inv.putLoad {l} (h : s.Inv) : (putLoad s l).Inv :=
  .update h

theorem State.Inv.execIntakePacket {x tensor data rscale cscale} (h : s.Inv) :
    OutInv (execIntakePacket x tensor data rscale cscale s) := by
  refine State.Inv.maySome (h.focusLoad.bind ?_)
  rintro ⟨s, l⟩ (h : s.Inv)
  dsimp only
  split
  · trivial
  · split
    · trivial
    · split
      · exact h.writeTensor.resolveLoad
      · exact h.writeTensor.putLoad

theorem State.Inv.execIntakeCommit {x} (h : s.Inv) : OutInv (execIntakeCommit x s) := by
  refine State.Inv.maySome (h.focusLoad.bind ?_)
  rintro ⟨s, l⟩ (h : s.Inv)
  dsimp only
  split
  · exact State.Inv.resolveLoad (.update h)
  · trivial

/-! ### Host commands -/

theorem State.Inv.respond {m cmd vd status result} (h : s.Inv) : (respond s m cmd vd status result).Inv :=
  h.send

theorem State.Inv.answer {m cmd status result} (h : s.Inv) : (answer s m cmd status result).Inv :=
  h.meter.respond

theorem State.Inv.refuse {m cmd status} (h : s.Inv) : OutInv (refuse s m cmd status) :=
  h.respond

theorem State.Inv.forDevice {f : State → Out} {m cmd p shape} (h : s.Inv) (hf : ∀ x, x.Inv → OutInv (f x)) :
    OutInv (forDevice m cmd p shape s f) := by
  unfold Machine.forDevice
  split
  · exact State.Inv.cannot
  · split
    · exact h.refuse
    · split
      · exact h.refuse
      · next e =>
        extract_lets t
        have ht : t.Inv := (OptInv.of_eq e h.deviceOnly).meter
        split
        · exact hf _ ht
        · exact ht.answer

theorem State.Inv.execNonHostMessage {_endpoint _cmd} (h : s.Inv) : OutInv (execNonHostMessage _endpoint _cmd s) :=
  h

theorem State.Inv.execUnknownCommand {m cmd} (h : s.Inv) : OutInv (execUnknownCommand m cmd s) := by
  unfold Machine.execUnknownCommand
  extract_lets st
  split
  · exact State.Inv.cannot
  · split
    · next e => exact (OptInv.of_eq e h.deviceOnly).meter.answer
    · exact h.refuse

theorem State.Inv.clearSpare {n} (h : s.Inv) : (clearSpare s n).Inv := mwf_filter Memory.unlisted _ h

theorem State.Inv.buildDevice {c p n at_} (h : s.Inv) : (buildDevice s c p n at_).Inv := by
  unfold Machine.buildDevice
  extract_lets d s1 s2 s3 s4 s5
  have hs1 : s1.Inv := h.clearSpare.takeRange.takeRange.takeRange
  have hs2 : s2.Inv := .update hs1
  exact hs2.mapMain.mapRange.mapRange.mapRange.mapRange

theorem State.Inv.execCreateDevice {m p} (h : s.Inv) : OutInv (execCreateDevice m p s) := by
  unfold Machine.execCreateDevice
  extract_lets no c
  split
  · exact State.Inv.cannot
  · split
    · exact h.respond
    · split
      · exact h.respond
      · split
        · exact h.respond
        · split
          · exact h.respond
          · split
            · split
              · exact h.stash.buildDevice.answer
              · exact h.respond
            · exact h.respond

theorem State.Inv.chainRecord {body} (h : s.Inv) : (chainRecord s body).Inv :=
  .update h

theorem State.Inv.execReadUsage {m p} (h : s.Inv) : OutInv (execReadUsage m p s) := by
  unfold Machine.execReadUsage
  refine h.forDevice (fun s h => ?_)
  extract_lets s1 body
  have hs1 : s1.Inv := h.accrue
  split
  · exact hs1.chainRecord.answer
  · exact hs1.answer

theorem State.Inv.execAttest {m p} (h : s.Inv) : OutInv (execAttest m p s) := by
  unfold Machine.execAttest
  refine h.forDevice (fun s h => ?_)
  split <;> exact h.answer

theorem State.Inv.execDestroyDevice {m p} (h : s.Inv) : OutInv (execDestroyDevice m p s) := by
  unfold Machine.execDestroyDevice
  refine h.forDevice (fun s h => ?_)
  extract_lets s1 body n t
  have hs1 : s1.Inv := h.accrue
  have ht : t.Inv := hs1.dropDevice
  split <;> exact ht.respond

theorem State.Inv.loadObject {obj} (h : s.Inv) : OptInv (·.1.Inv) (loadObject s obj) := by
  unfold Machine.loadObject
  extract_lets ns obj1
  split
  · exact h.addCode.map fun _ h => .update h
  · trivial

theorem State.Inv.execLoadCode {m p obj} (h : s.Inv) : OutInv (execLoadCode m p obj s) := by
  unfold Machine.execLoadCode
  refine h.forDevice (fun s h => ?_)
  extract_lets keep
  split
  · exact State.Inv.answer (.update h)
  · split
    · split
      · next e => exact (OptInv.of_eq e (State.Inv.loadObject (.update h))).answer
      · exact State.Inv.answer (.update h)
    · exact State.Inv.answer (.update h)

theorem State.Inv.execHostLaunch {m p} (h : s.Inv) : OutInv (execHostLaunch m p s) := by
  unfold Machine.execHostLaunch
  refine h.forDevice (fun s h => ?_)
  extract_lets no
  split
  · exact h.answer
  · split
    · exact h.answer
    · split
      · exact h.answer
      · split
        · exact h.queueGrid.answer
        · exact h.answer

theorem State.Inv.execLoadWeights {m p} (h : s.Inv) : OutInv (execLoadWeights m p s) := by
  unfold Machine.execLoadWeights
  refine h.forDevice (fun s h => ?_)
  split
  · exact h.answer
  · exact State.Inv.ite (State.Inv.resolveLoad (State.Inv.answer (.update (.update h))))
      (State.Inv.answer (.update (.update h)))

theorem State.Inv.execOpenIntakeConnection {m p} (h : s.Inv) : OutInv (execOpenIntakeConnection m p s) := by
  unfold Machine.execOpenIntakeConnection
  refine h.forDevice (fun s h => ?_)
  extract_lets n
  split
  · exact h.answer
  · split
    · exact h.answer
    · exact State.Inv.answer (.update h)

theorem State.Inv.execChangeShare {m p} (h : s.Inv) : OutInv (execChangeShare m p s) := by
  unfold Machine.execChangeShare
  refine h.forDevice (fun s h => ?_)
  extract_lets n w cap t q no r yes
  have hyes : OutInv yes := State.Inv.answer (.update h)
  split
  · exact h.answer
  · extract_lets others
    split
    · split
      · exact h.answer
      · split
        · exact hyes
        · exact h.answer
    · split
      · exact h.answer
      · split
        · exact hyes
        · exact h.answer

/-! ### Every instruction -/

theorem State.Inv.exec : ∀ {i : Instr}, s.Inv → OutInv (exec i s)
  | .nop, h => h.execNop
  | .sAdd .., h => h.execSAdd
  | .sAddI .., h => h.execSAddI
  | .sSub .., h => h.execSSub
  | .sSubI .., h => h.execSSubI
  | .sMul .., h => h.execSMul
  | .sMulI .., h => h.execSMulI
  | .sMulh .., h => h.execSMulh
  | .sMulhI .., h => h.execSMulhI
  | .sMad .., h => h.execSMad
  | .sAnd .., h => h.execSAnd
  | .sAndI .., h => h.execSAndI
  | .sOr .., h => h.execSOr
  | .sOrI .., h => h.execSOrI
  | .sXor .., h => h.execSXor
  | .sXorI .., h => h.execSXorI
  | .sNot .., h => h.execSNot
  | .sShl .., h => h.execSShl
  | .sShlI .., h => h.execSShlI
  | .sShr .., h => h.execSShr
  | .sShrI .., h => h.execSShrI
  | .sSar .., h => h.execSSar
  | .sSarI .., h => h.execSSarI
  | .sMin .., h => h.execSMin
  | .sMinI .., h => h.execSMinI
  | .sMax .., h => h.execSMax
  | .sMaxI .., h => h.execSMaxI
  | .sCmp .., h => h.execSCmp
  | .sSel .., h => h.execSSel
  | .sMov .., h => h.execSMov
  | .sMovi .., h => h.execSMovi
  | .sBfe .., h => h.execSBfe
  | .sBfi .., h => h.execSBfi
  | .sPopc .., h => h.execSPopc
  | .sClz .., h => h.execSClz
  | .sLd .., h => h.execSLd
  | .sSt .., h => h.execSSt
  | .sAddc .., h => h.execSAddc
  | .sAddcI .., h => h.execSAddcI
  | .sFadd .., h => h.execSFadd
  | .sFaddI .., h => h.execSFaddI
  | .sFmul .., h => h.execSFmul
  | .sFmulI .., h => h.execSFmulI
  | .sFma .., h => h.execSFma
  | .sCvt .., h => h.execSCvt
  | .sGetl .., h => h.execSGetl
  | .add .., h => h.execAdd
  | .addI .., h => h.execAddI
  | .sub .., h => h.execSub
  | .subI .., h => h.execSubI
  | .mul .., h => h.execMul
  | .mulI .., h => h.execMulI
  | .mulh .., h => h.execMulh
  | .mulhI .., h => h.execMulhI
  | .mad .., h => h.execMad
  | .and .., h => h.execAnd
  | .andI .., h => h.execAndI
  | .or .., h => h.execOr
  | .orI .., h => h.execOrI
  | .xor .., h => h.execXor
  | .xorI .., h => h.execXorI
  | .not .., h => h.execNot
  | .shl .., h => h.execShl
  | .shlI .., h => h.execShlI
  | .shr .., h => h.execShr
  | .shrI .., h => h.execShrI
  | .sar .., h => h.execSar
  | .sarI .., h => h.execSarI
  | .min .., h => h.execMin
  | .minI .., h => h.execMinI
  | .max .., h => h.execMax
  | .maxI .., h => h.execMaxI
  | .abs .., h => h.execAbs
  | .bfe .., h => h.execBfe
  | .bfi .., h => h.execBfi
  | .popc .., h => h.execPopc
  | .clz .., h => h.execClz
  | .cmp .., h => h.execCmp
  | .sel .., h => h.execSel
  | .mov .., h => h.execMov
  | .movI .., h => h.execMovI
  | .movx .., h => h.execMovx
  | .putl .., h => h.execPutl
  | .shape .., h => h.execShape
  | .addc .., h => h.execAddc
  | .addcI .., h => h.execAddcI
  | .lsel .., h => h.execLsel
  | .prmt .., h => h.execPrmt
  | .fadd .., h => h.execFadd
  | .faddI .., h => h.execFaddI
  | .fsub .., h => h.execFsub
  | .fsubI .., h => h.execFsubI
  | .fmul .., h => h.execFmul
  | .fmulI .., h => h.execFmulI
  | .fma .., h => h.execFma
  | .fmin .., h => h.execFmin
  | .fminI .., h => h.execFminI
  | .fmax .., h => h.execFmax
  | .fmaxI .., h => h.execFmaxI
  | .fcmp .., h => h.execFcmp
  | .frcpSeed .., h => h.execFrcpSeed
  | .frsqSeed .., h => h.execFrsqSeed
  | .fsqrt .., h => h.execFsqrt
  | .fexp2 .., h => h.execFexp2
  | .flog2 .., h => h.execFlog2
  | .fsin .., h => h.execFsin
  | .fcos .., h => h.execFcos
  | .frnd .., h => h.execFrnd
  | .fclass .., h => h.execFclass
  | .fscale .., h => h.execFscale
  | .fexpo .., h => h.execFexpo
  | .cvt .., h => h.execCvt
  | .bpack .., h => h.execBpack
  | .bunpack .., h => h.execBunpack
  | .fdot2 .., h => h.execFdot2
  | .shfl .., h => h.execShfl
  | .vote .., h => h.execVote
  | .red .., h => h.execRed
  | .scan .., h => h.execScan
  | .matchOp .., h => h.execMatchOp
  | .sift .., h => h.execSift
  | .cmpct .., h => h.execCmpct
  | .execGet .., h => h.execExecGet
  | .execSet .., h => h.execExecSet
  | .execAnd .., h => h.execExecAnd
  | .execAndn .., h => h.execExecAndn
  | .mAnd .., h => h.execMAnd
  | .mOr .., h => h.execMOr
  | .mXor .., h => h.execMXor
  | .mNot .., h => h.execMNot
  | .mFfs .., h => h.execMFfs
  | .br .., h => h.execBr
  | .bz .., h => h.execBz
  | .bnz .., h => h.execBnz
  | .bexz .., h => h.execBexz
  | .brs .., h => h.execBrs
  | .brsSift .., h => h.execBrsSift
  | .join, h => h.execJoin
  | .call .., h => h.execCall
  | .ret .., h => h.execRet
  | .exit, h => h.execExit
  | .barArr .., h => h.execBarArr
  | .barWait .., h => h.execBarWait
  | .barSync .., h => h.execBarSync
  | .yield, h => h.execYield
  | .launch .., h => h.execLaunch
  | .qPut .., h => h.execQPut
  | .qGet .., h => h.execQGet
  | .ld .., h => h.execLd
  | .st .., h => h.execSt
  | .atom .., h => h.execAtom
  | .atomCas .., h => h.execAtomCas
  | .fence .., h => h.execFence
  | .wb .., h => h.execWb
  | .inv .., h => h.execInv
  | .gaugeSet .., h => h.execGaugeSet
  | .gaugeSetOff .., h => h.execGaugeSetOff
  | .gaugeWait .., h => h.execGaugeWait
  | .gaugeAdd .., h => h.execGaugeAdd
  | .clJoin .., h => h.execClJoin
  | .clLeave, h => h.execClLeave
  | .push .., h => h.execPush
  | .pop .., h => h.execPop
  | .pfetch .., h => h.execPfetch
  | .cpy .., h => h.execCpy
  | .cpym .., h => h.execCpym
  | .fill .., h => h.execFill
  | .rowcpy .., h => h.execRowcpy
  | .htest .., h => h.execHtest
  | .hcancel .., h => h.execHcancel
  | .hst .., h => h.execHst
  | .hld .., h => h.execHld
  | .mma .., h => h.execMma
  | .mmaG .., h => h.execMmaG
  | .mzero .., h => h.execMzero
  | .mstore .., h => h.execMstore
  | .mrd .., h => h.execMrd
  | .assaySet .., h => h.execAssaySet
  | .assayGet .., h => h.execAssayGet
  | .assayInv .., h => h.execAssayInv
  | .trap .., h => h.execTrap
  | .rti, h => h.execRti
  | .ctlRd .., h => h.execCtlRd
  | .ctlWr .., h => h.execCtlWr
  | .meterRd .., h => h.execMeterRd
  | .slBind .., h => h.execSlBind
  | .slUnbind .., h => h.execSlUnbind
  | .slStat .., h => h.execSlStat
  | .stamp .., h => h.execStamp
  | .stampSync .., h => h.execStampSync
  | .wpSet .., h => h.execWpSet
  | .wpClr .., h => h.execWpClr
  | .wpRd .., h => h.execWpRd
  | .dbgHalt .., h => h.execDbgHalt
  | .dbgRun .., h => h.execDbgRun
  | .dbgRunUnpark .., h => h.execDbgRunUnpark
  | .dbgStep .., h => h.execDbgStep
  | .dbgStepLane .., h => h.execDbgStepLane
  | .dbgRd .., h => h.execDbgRd
  | .dbgWr .., h => h.execDbgWr
  | .dbgList .., h => h.execDbgList
  | .brk, h => h.execBrk
  | .sluiceEnd, h => h.execSluiceEnd
  | .sluiceFail, h => h.execSluiceFail
  | .sluiceGet .., h => h.execSluiceGet
  | .sluicePeek .., h => h.execSluicePeek
  | .sluiceGetw .., h => h.execSluiceGetw
  | .sluicePut .., h => h.execSluicePut
  | .sluicePutw .., h => h.execSluicePutw
  | .sluicePutn .., h => h.execSluicePutn
  | .sluiceCopy .., h => h.execSluiceCopy
  | .sluiceCopyBack .., h => h.execSluiceCopyBack
  | .sluiceMovi .., h => h.execSluiceMovi
  | .sluiceMov .., h => h.execSluiceMov
  | .sluiceAdd .., h => h.execSluiceAdd
  | .sluiceAddImm .., h => h.execSluiceAddImm
  | .sluiceSub .., h => h.execSluiceSub
  | .sluiceSubImm .., h => h.execSluiceSubImm
  | .sluiceAnd .., h => h.execSluiceAnd
  | .sluiceAndImm .., h => h.execSluiceAndImm
  | .sluiceOr .., h => h.execSluiceOr
  | .sluiceOrImm .., h => h.execSluiceOrImm
  | .sluiceXor .., h => h.execSluiceXor
  | .sluiceXorImm .., h => h.execSluiceXorImm
  | .sluiceShl .., h => h.execSluiceShl
  | .sluiceShlImm .., h => h.execSluiceShlImm
  | .sluiceShr .., h => h.execSluiceShr
  | .sluiceShrImm .., h => h.execSluiceShrImm
  | .sluiceBeq .., h => h.execSluiceBeq
  | .sluiceBne .., h => h.execSluiceBne
  | .sluiceBlt .., h => h.execSluiceBlt
  | .sluiceBeof .., h => h.execSluiceBeof
  | .sluiceJmp .., h => h.execSluiceJmp
  | .sluiceLoop .., h => h.execSluiceLoop
  | .sluiceTbl .., h => h.execSluiceTbl
  | .sluiceStepBudget, h => h.execSluiceStepBudget
  | .clauseIssue, h => h.execClauseIssue
  | .clauseResume, h => h.execClauseResume
  | .flagClear .., h => h.execFlagClear
  | .joinResume, h => h.execJoinResume
  | .siftCommit, h => h.execSiftCommit
  | .storeVisible, h => h.execStoreVisible
  | .pageWalk .., h => h.execPageWalk
  | .trapEntry, h => h.execTrapEntry
  | .supervisorEntry, h => h.execSupervisorEntry
  | .teamLost .., h => h.execTeamLost
  | .teamPlacement .., h => h.execTeamPlacement
  | .teamEnd .., h => h.execTeamEnd
  | .placementStarvation .., h => h.execPlacementStarvation
  | .temperatureReading .., h => h.execTemperatureReading
  | .droopEvent .., h => h.execDroopEvent
  | .coldPlateFault, h => h.execColdPlateFault
  | .accountingWindow .., h => h.execAccountingWindow
  | .millisecondBoundary .., h => h.execMillisecondBoundary
  | .capReached .., h => h.execCapReached
  | .periodStart .., h => h.execPeriodStart
  | .budgetExhausted .., h => h.execBudgetExhausted
  | .preemptionRequest .., h => h.execPreemptionRequest
  | .barrierStop .., h => h.execBarrierStop
  | .forcedStop .., h => h.execForcedStop
  | .teamSave .., h => h.execTeamSave
  | .teamRestore .., h => h.execTeamRestore
  | .jobStart .., h => h.execJobStart
  | .jobFinish .., h => h.execJobFinish
  | .jobCancelStop .., h => h.execJobCancelStop
  | .gaugeArrival .., h => h.execGaugeArrival
  | .followOnSend .., h => h.execFollowOnSend
  | .passStart .., h => h.execPassStart
  | .passStep .., h => h.execPassStep
  | .passRetire .., h => h.execPassRetire
  | .periodicSample .., h => h.execPeriodicSample
  | .cacheFill .., h => h.execCacheFill
  | .cacheEviction .., h => h.execCacheEviction
  | .sluiceEncode .., h => h.execSluiceEncode
  | .sluiceDecode .., h => h.execSluiceDecode
  | .transcodeBlock .., h => h.execTranscodeBlock
  | .transcodeEnd .., h => h.execTranscodeEnd
  | .unbindBlock .., h => h.execUnbindBlock
  | .unbindEnd .., h => h.execUnbindEnd
  | .refresh .., h => h.execRefresh
  | .refreshRetry .., h => h.execRefreshRetry
  | .scrubRow .., h => h.execScrubRow
  | .spanInitialise .., h => h.execSpanInitialise
  | .translationShootdown .., h => h.execTranslationShootdown
  | .peerAccess .., h => h.execPeerAccess
  | .peerUnreachable .., h => h.execPeerUnreachable
  | .flitReplay .., h => h.execFlitReplay
  | .portRetrain .., h => h.execPortRetrain
  | .dieLinkFailure, h => h.execDieLinkFailure
  | .intakePacket .., h => h.execIntakePacket
  | .intakeCommit .., h => h.execIntakeCommit
  | .coreWithdrawal .., h => h.execCoreWithdrawal
  | .laneSteering .., h => h.execLaneSteering
  | .teamHalt .., h => h.execTeamHalt
  | .stepIdleTimeout .., h => h.execStepIdleTimeout
  | .profileRetranslation .., h => h.execProfileRetranslation
  | .meterTick, h => h.execMeterTick
  | .moduleReset .., _ => State.Inv.execModuleReset
  | .nonHostMessage e c, h => h.execNonHostMessage (_endpoint := e) (_cmd := c)
  | .createDevice .., h => h.execCreateDevice
  | .destroyDevice .., h => h.execDestroyDevice
  | .loadCode .., h => h.execLoadCode
  | .hostLaunch .., h => h.execHostLaunch
  | .loadWeights .., h => h.execLoadWeights
  | .readUsage .., h => h.execReadUsage
  | .attest .., h => h.execAttest
  | .openIntakeConnection .., h => h.execOpenIntakeConnection
  | .changeShare .., h => h.execChangeShare
  | .unknownCommand .., h => h.execUnknownCommand
  | .portRetrainingEnd .., h => h.execPortRetrainingEnd

/-! ### Every move -/

theorem State.Inv.beginAge {i} (h : s.Inv) : (beginAge s i).Inv := by
  unfold Machine.beginAge
  extract_lets p
  exact State.Inv.ite (.update h) h

theorem State.Inv.refreshAges (h : s.Inv) : (refreshAges s).Inv :=
  h.foldl fun _ _ h => h.withGroup (fun _ h => h.beginAge.beginAge)

theorem State.Inv.clearStale (h : s.Inv) : (clearStale s).Inv := by
  unfold Machine.clearStale
  exact h.foldl fun _ _ h => h.ite (.update h)

theorem State.Inv.settleFlags (h : s.Inv) : (settleFlags s).Inv :=
  h.foldl fun _ _ h => h.withGroup (fun _ h => h.clearStale)

theorem State.Inv.beforeMove (h : s.Inv) : (beforeMove s).Inv :=
  h.settleFlags.noteWaits.refreshAges.noteReady.resumeAsks.noteSamples

theorem State.Inv.countClock (h : s.Inv) : (countClock s).Inv :=
  .update h

theorem State.Inv.afterInstr {o} (h : OutInv o) : OutInv (afterInstr o) := by
  cases o with
  | next t => exact State.Inv.closeIssue (State.Inv.ite h (State.Inv.countClock h))
  | fault => trivial
  | refused => trivial

theorem State.Inv.sluiceMove {ex : Instr → State → Out} (hex : ∀ x y, y.Inv → OutInv (ex x y))
    (h : s.Inv) :
    OutInv (sluiceMove ex s) := by
  unfold Machine.sluiceMove
  split
  · split <;> exact hex _ _ h
  · exact State.Inv.cannot

theorem State.Inv.focusRun {e} (h : s.Inv) : OptInv State.Inv (focusRun s e) := by
  unfold Machine.focusRun
  refine OptInv.of_bind fun n => ?_
  extract_lets mine s1
  have hs1 : s1.Inv := .update h
  split
  · exact hs1
  · exact OptInv.of_map fun _ => .update hs1

theorem State.Inv.engineMove {ex : Instr → State → Out} {e} (hex : ∀ x y, y.Inv → OutInv (ex x y))
    (h : s.Inv) :
    OutInv (engineMove ex e s) := by
  unfold Machine.engineMove
  split
  · next e1 => exact State.Inv.sluiceMove hex (OptInv.of_eq e1 h.focusRun)
  · exact State.Inv.cannot

theorem State.Inv.onSlot {f : State → Out} {g i} (h : s.Inv) (hf : ∀ x, x.Inv → OutInv (f x)) :
    OutInv (onSlot s g i f) := by
  unfold Machine.onSlot
  split
  · next e => exact hf _ (.update (OptInv.of_eq e h.focusGroup))
  · exact State.Inv.cannot

theorem State.Inv.timed {o} (h : OutInv o) : OutInv (timed o) := by
  cases o with
  | next t =>
    unfold Machine.timed
    dsimp only
    split
    · trivial
    · exact State.Inv.tick h
  | fault => trivial
  | refused => trivial

/-- The state of a plan meets the invariant. -/
def Plan.Inv : Plan → Prop
  | .done t => t.Inv
  | .run _ t => t.Inv
  | .held _ t _ => t.Inv

theorem State.Inv.planIssue (h : s.Inv) : OptInv Plan.Inv (planIssue s) := by
  unfold Machine.planIssue
  extract_lets p
  split
  · trivial
  · split
    · exact h.raise.closeIssue
    · split
      · split
        · exact h.watchPc.raise.closeIssue
        · exact h.watchPc.closeIssue
      · split
        · exact .update h
        · split
          · trivial
          · split
            · exact h.haltGroup.closeIssue
            · extract_lets t'
              have ht' : t'.Inv := h.watchPc
              split
              · exact ht'
              · split
                · exact .update ht'
                · exact ht'.closeIssue

theorem State.Inv.issueWith {ex : Instr → State → Out} (h : s.Inv) (hex : ∀ i t, t.Inv → OutInv (ex i t)) :
    OutInv (issueWith ex s) := by
  unfold Machine.issueWith
  split
  · trivial
  · next e => exact OptInv.of_eq (p := Plan.Inv) e h.planIssue
  · next i t e => exact State.Inv.afterInstr (hex i t (OptInv.of_eq (p := Plan.Inv) e h.planIssue))
  · next i t y e =>
    have ht : t.Inv := OptInv.of_eq (p := Plan.Inv) e h.planIssue
    exact ht.afterHeld (hex i t ht)

theorem State.Inv.runMove {ex : Instr → State → Out} {m} (h : s.Inv) (hex : ∀ i t, t.Inv → OutInv (ex i t)) :
    OutInv (runMove ex m s) := by
  cases m with
  | event i => exact hex i s h
  | groupEvent g i e =>
    unfold Machine.runMove
    dsimp only
    split
    · next t eq =>
      have ht : t.Inv := OptInv.of_eq eq h.focusGroup
      exact hex _ _ (.update ht)
    · trivial
  | issue g i =>
    unfold Machine.runMove
    dsimp only
    split
    · next t eq =>
      have ht : t.Inv := OptInv.of_eq eq h.focusGroup
      exact State.Inv.issueWith (.update ht) hex
    · trivial
  | sluice e => exact State.Inv.engineMove hex h

theorem State.Inv.runAuto {ex : Instr → State → Out} {a} (h : s.Inv) (hex : ∀ i t, t.Inv → OutInv (ex i t)) :
    OutInv (runAuto ex a s) := by
  cases a with
  | trapEntry => exact h.onSlot fun _ ht => ht.execTrapEntry
  | supervisorEntry => exact h.onSlot fun _ ht => ht.execSupervisorEntry
  | flagClear => exact h.onSlot fun _ ht => ht.execFlagClear
  | storeVisible => exact h.onSlot fun _ ht => ht.execStoreVisible
  | joinResume => exact h.onSlot fun _ ht => ht.execJoinResume
  | siftCommit => exact h.onSlot fun _ ht => ht.execSiftCommit
  | clauseIssue => exact h.onSlot fun _ ht => ht.execClauseIssue
  | clauseResume => exact h.onSlot fun _ ht => ht.execClauseResume
  | issue => exact h.onSlot fun _ ht => ht.issueWith hex
  | passStart => exact h.execPassStart
  | passStep => exact h.execPassStep
  | passRetire => exact h.execPassRetire
  | teamHalt => exact h.execTeamHalt
  | barrierStop => exact h.execBarrierStop
  | forcedStop => exact h.execForcedStop
  | teamSave => exact h.execTeamSave
  | teamRestore => exact h.execTeamRestore
  | teamEnd => exact h.execTeamEnd
  | stepIdleTimeout => exact h.execStepIdleTimeout
  | periodicSample => exact h.execPeriodicSample
  | coreWithdrawal => exact h.execCoreWithdrawal
  | laneSteering => exact h.execLaneSteering
  | jobStart => exact h.execJobStart
  | gaugeArrival => exact h.execGaugeArrival
  | jobFinish => exact h.execJobFinish
  | jobCancelStop => exact h.execJobCancelStop
  | followOnSend => exact h.execFollowOnSend
  | intakeCommit => exact h.execIntakeCommit
  | transcodeBlock => exact h.execTranscodeBlock
  | transcodeEnd => exact h.execTranscodeEnd
  | unbindBlock => exact h.execUnbindBlock
  | unbindEnd => exact h.execUnbindEnd
  | teamPlacement => exact h.execTeamPlacement
  | placementStarvation => exact h.execPlacementStarvation
  | capReached => exact h.execCapReached
  | periodStart => exact h.execPeriodStart
  | budgetExhausted => exact h.execBudgetExhausted
  | accountingWindow => exact h.execAccountingWindow
  | millisecondBoundary => exact h.execMillisecondBoundary
  | sluice => exact State.Inv.engineMove hex h
  | sluiceEncode => exact h.execSluiceEncode
  | spanInitialise => exact h.execSpanInitialise
  | meterTick => exact h.execMeterTick

theorem State.Inv.firstMove {ex : Instr → State → Out} {l} (h : s.Inv) (hex : ∀ i t, t.Inv → OutInv (ex i t)) :
    OutInv (firstMove ex s l) := by
  induction l with
  | nil => exact h
  | cons a l ih =>
    have ha := h.runAuto (a := a) hex
    unfold Machine.firstMove
    split
    · exact ih
    · next u e =>
      rw [e] at ha
      split
      · exact ih
      · exact ha
    · exact ha

theorem State.Inv.autoMove {ex : Instr → State → Out} (h : s.Inv) (hex : ∀ i t, t.Inv → OutInv (ex i t)) :
    OutInv (autoMove ex s) := by
  unfold Machine.autoMove
  split
  · exact h
  · exact h.firstMove hex

theorem State.Inv.runStep {ex : Instr → State → Out} (h : s.Inv) (hex : ∀ i t, t.Inv → OutInv (ex i t)) :
    OutInv (runStep ex s) := by
  have hb := h.beforeMove
  unfold Machine.runStep
  generalize Machine.beforeMove s = b at hb
  split
  · exact State.Inv.timed (State.Inv.runMove (.update hb) hex)
  · exact State.Inv.timed (hb.autoMove hex)

theorem State.Inv.step (h : s.Inv) : OutInv (step s) := h.runStep fun _ _ ht => ht.exec

end

/-- Settles O58: every function that a step calls keeps the invariant. -/
theorem stepKeepsMemoryCanonical : Obligations.StepKeepsMemoryCanonical := by
  intro s t hs ht
  have h := hs.step
  rw [ht] at h
  exact h

end Sys2Proof.Machine
end

section
/-!
PROOFS. O22: what an access reads where no binding holds its address, the value that its bytes give, and the new value
of an atomic.
-/
namespace Sys2Proof.Machine

/-! ### The bytes of an access -/

/-- Where no binding holds the address, each byte is read at a place of its own. -/
theorem accessBytes_of_unbound {s : State} {l : Loc} (n : Nat) (h : l.home = .main → bindingAt s.vd l.va = none) :
    accessBytes s l n = (locRun l n).map (loadByte s) := by
  unfold accessBytes
  split
  · next hl hb =>
    rw [h hl] at hb
    cases hb
  · rfl

/-! ### Bytes and bit vectors (R2) -/

theorem leNat_one (a : Byte) : leNat [a] = a.toNat := rfl

theorem toNat_append_eq_add {v w : Nat} (x : BitVec v) (y : BitVec w) : (x ++ y).toNat = y.toNat + 2 ^ w * x.toNat := by
  rw [BitVec.toNat_append, ← Nat.shiftLeft_add_eq_or_of_lt y.isLt, Nat.shiftLeft_eq, Nat.mul_comm, Nat.add_comm]

theorem leNat_two (a b : Byte) : leNat [a, b] = (b ++ a).toNat := (toNat_append_eq_add b a).symm

theorem leNat_four (a b c d : Byte) : leNat [a, b, c, d] = (d ++ c ++ b ++ a).toNat := by
  simp only [toNat_append_eq_add, leNat]
  rfl

/-! ### The new value of an atomic (R291) -/

section
variable {n : Nat} (sgn : Bool) (x y : BitVec (8 * n))

theorem atomValue_add : atomValue .add sgn n x.toNat y.toNat = (x + y).toNat := (BitVec.toNat_add x y).symm

theorem atomValue_and : atomValue .and sgn n x.toNat y.toNat = (x &&& y).toNat := rfl

theorem atomValue_or : atomValue .or sgn n x.toNat y.toNat = (x ||| y).toNat := rfl

theorem atomValue_xor : atomValue .xor sgn n x.toNat y.toNat = (x ^^^ y).toNat := rfl

theorem atomValue_min_unsigned : atomValue .min false n x.toNat y.toNat = (if y.ult x then y else x).toNat := by
  simp only [atomValue, BitVec.ult, apply_ite BitVec.toNat]
  simp

theorem atomValue_max_unsigned : atomValue .max false n x.toNat y.toNat = (if x.ult y then y else x).toNat := by
  simp only [atomValue, BitVec.ult, apply_ite BitVec.toNat]
  simp

/-- The order that a signed minimum or maximum goes by is that of the signed values. -/
theorem signed_key_eq_toInt (hn : 0 < n) :
    (if x.toNat ≥ 2 ^ (8 * n - 1) then (x.toNat : Int) - 2 ^ (8 * n) else x.toNat) = x.toInt := by
  have hp : 2 ^ (8 * n) = 2 * 2 ^ (8 * n - 1) := by
    rw [← Nat.pow_succ']
    congr 1
    omega
  have hc : (2 : Int) ^ (8 * n) = ((2 ^ (8 * n) : Nat) : Int) := by simp
  rw [BitVec.toInt_eq_toNat_cond, hc, hp]
  split <;> split <;> omega

theorem atomValue_min_signed (hn : 0 < n) :
    atomValue .min true n x.toNat y.toNat = (if y.slt x then y else x).toNat := by
  simp only [atomValue, true_and, signed_key_eq_toInt _ hn, BitVec.slt, apply_ite BitVec.toNat, decide_eq_true_eq]

theorem atomValue_max_signed (hn : 0 < n) :
    atomValue .max true n x.toNat y.toNat = (if x.slt y then y else x).toNat := by
  simp only [atomValue, true_and, signed_key_eq_toInt _ hn, BitVec.slt, apply_ite BitVec.toNat, decide_eq_true_eq]

end

/-- Settles O22, from the bytes of an access, the values of byte lists and the operations of an atomic one by one. -/
theorem memoryValues : Obligations.MemoryValues := by
  refine ⟨⟨fun s l n h => ?_, fun a b c d => ?_⟩, fun x y => ?_, fun x y => ?_⟩
  · rw [accessBytes_of_unbound n h, locRun, List.map_map]
    rfl
  · refine ⟨?_, ?_, ?_, ?_, ?_⟩
    · exact (congrArg w32 (leNat_four a b c d)).trans (BitVec.ofNat_toNat ..)
    · exact (congrArg w32 (leNat_two a b)).trans (BitVec.ofNat_toNat ..)
    · exact congrArg (BitVec.signExtend 32) ((congrArg (BitVec.ofNat 16) (leNat_two a b)).trans (BitVec.ofNat_toNat ..))
    · exact (congrArg w32 (leNat_one a)).trans (BitVec.ofNat_toNat ..)
    · exact congrArg (BitVec.signExtend 32) ((congrArg (BitVec.ofNat 8) (leNat_one a)).trans (BitVec.ofNat_toNat ..))
  · exact ⟨atomValue_add (n := 4) false x y, atomValue_and (n := 4) false x y, atomValue_or (n := 4) false x y,
      atomValue_xor (n := 4) false x y, rfl, atomValue_min_unsigned (n := 4) x y, atomValue_max_unsigned (n := 4) x y,
      atomValue_min_signed (n := 4) x y (by decide), atomValue_max_signed (n := 4) x y (by decide)⟩
  · exact ⟨atomValue_add (n := 8) false x y, atomValue_min_signed (n := 8) x y (by decide),
      atomValue_max_signed (n := 8) x y (by decide)⟩

end Sys2Proof.Machine
end

section
/-!
PROOFS. O24: the bytes of main memory after STORE_VISIBLE. A store's cells are written one after another, so a byte
reads as the last of the cells that lies on it (`lastByte`); what the device then sends changes no byte.
-/
namespace Sys2Proof.Machine

/-! ### The last of a store's cells on a byte -/

/-- The byte at `a`, `b` before, after cells have been written in order. -/
def lastByte (b : Byte) (a : Nat) (cells : List (Loc × Byte)) : Byte :=
  cells.foldl (fun b c => if a = c.1.addr then c.2 else b) b

theorem lastByte_cons (b : Byte) (a : Nat) (c : Loc × Byte) (cells : List (Loc × Byte)) :
    lastByte b a (c :: cells) = lastByte (if a = c.1.addr then c.2 else b) a cells := rfl

theorem lastByte_eq_self {b : Byte} {a : Nat} {cells : List (Loc × Byte)} (h : ∀ c ∈ cells, c.1.addr = a → c.2 = b) :
    lastByte b a cells = b := by
  induction cells with
  | nil => rfl
  | cons c cells ih =>
    obtain ⟨hc, hcells⟩ := List.forall_mem_cons.mp h
    rw [lastByte_cons]
    split
    · next ha => rw [hc ha.symm, ih hcells]
    · exact ih hcells

theorem lastByte_append_cons {c : Loc × Byte} {post : List (Loc × Byte)} (b : Byte) (pre : List (Loc × Byte))
    (h : ∀ d ∈ post, d.1.addr ≠ c.1.addr) : lastByte b c.1.addr (pre ++ c :: post) = c.2 := by
  unfold lastByte
  rw [List.foldl_append, List.foldl_cons, if_pos rfl]
  exact lastByte_eq_self fun d hd ha => absurd ha (h d hd)

/-! ### Cells of main memory that no binding holds -/

/-- The cells lie in main memory at addresses that no binding of the device holds. -/
def Unbound (d : Device) (cells : List (Loc × Byte)) : Prop :=
  ∀ c ∈ cells, c.1.home = .main ∧ bindingAt d c.1.va = none

section
variable {s : State} {l : Loc} (hl : l.home = .main) (hb : bindingAt s.vd l.va = none)
include hl hb

theorem putLoc_of_unbound (b : Byte) :
    putLoc s l b = { putMain s l.addr b with lines := mins s.lines (l.addr / 256) true } := by
  unfold putLoc
  rw [hl, hb]

theorem putLoc_g_of_unbound (b : Byte) : (putLoc s l b).g = s.g := by
  rw [putLoc_of_unbound hl hb]
  exact clearSpan_g s _

theorem putLoc_vd_of_unbound (b : Byte) : (putLoc s l b).vd = s.vd := by
  rw [putLoc_of_unbound hl hb]
  exact clearSpan_vd s _

theorem mainByte_putLoc_of_unbound (h : s.Inv) (b : Byte) (a : Nat) :
    mainByte (putLoc s l b) a = if a = l.addr then b else mainByte s a := by
  rw [putLoc_of_unbound hl hb]
  exact mainByte_putMain h l.addr b a

theorem locByte_of_unbound : locByte s l = (mainByte s l.addr, mainPoison s l.addr) := by
  unfold locByte
  rw [hl, hb]

end

/-- No block enters the cache for cells that no binding holds. -/
theorem openBlocks_of_unbound {s : State} {cells : List (Loc × Byte)} (hc : Unbound s.vd cells) :
    openBlocks s cells = s := by
  unfold openBlocks
  refine List.foldlRecOn cells _ (motive := (· = s)) rfl fun t ht c hm => ?_
  subst ht
  rw [(hc c hm).2]
  exact ite_self _

section
variable {s : State} {cells : List (Loc × Byte)}

theorem foldl_putLoc_g (hc : Unbound s.vd cells) : (cells.foldl (fun s c => putLoc s c.1 c.2) s).g = s.g := by
  induction cells generalizing s with
  | nil => rfl
  | cons c cells ih =>
    obtain ⟨⟨hl, hb⟩, hcells⟩ := List.forall_mem_cons.mp hc
    rw [List.foldl_cons, ih, putLoc_g_of_unbound hl hb]
    rwa [putLoc_vd_of_unbound hl hb]

theorem mainByte_foldl_putLoc (h : s.Inv) (hc : Unbound s.vd cells) (a : Nat) :
    mainByte (cells.foldl (fun s c => putLoc s c.1 c.2) s) a = lastByte (mainByte s a) a cells := by
  induction cells generalizing s with
  | nil => rfl
  | cons c cells ih =>
    obtain ⟨⟨hl, hb⟩, hcells⟩ := List.forall_mem_cons.mp hc
    rw [List.foldl_cons, ih (wf_putLoc c.1 c.2 h), mainByte_putLoc_of_unbound hl hb h, lastByte_cons]
    rwa [putLoc_vd_of_unbound hl hb]

theorem putLocs_of_unbound (hc : Unbound s.vd cells) :
    putLocs s cells =
      let t := cells.foldl (fun s c => putLoc s c.1 c.2) s
      if anyPoison t then unpoison t cells else t := by
  unfold putLocs
  rw [openBlocks_of_unbound hc, ite_self]

theorem putLocs_g (hc : Unbound s.vd cells) : (putLocs s cells).g = s.g := by
  rw [putLocs_of_unbound hc, ← foldl_putLoc_g hc]
  dsimp only
  split <;> rfl

theorem mainByte_putLocs (h : s.Inv) (hc : Unbound s.vd cells) (a : Nat) :
    mainByte (putLocs s cells) a = lastByte (mainByte s a) a cells := by
  rw [putLocs_of_unbound hc, ← mainByte_foldl_putLoc h hc]
  dsimp only
  split <;> rfl

end

/-! ### What leaves the group and every byte as they are -/

/-- Two states with the same group in focus and the same main memory. -/
structure SameBytes (s t : State) : Prop where
  g : t.g = s.g
  mem : t.mem = s.mem
  marked : t.marked = s.marked

theorem SameBytes.mainByte {s t : State} (h : SameBytes s t) (a : Nat) : mainByte t a = mainByte s a := by
  unfold Machine.mainByte
  rw [h.mem, h.marked]

theorem SameBytes.rfl' (s : State) : SameBytes s s := ⟨rfl, rfl, rfl⟩

theorem SameBytes.withVd {s t : State} {d : Device} (h : SameBytes s t) : SameBytes s { t with vd := d } :=
  ⟨h.g, h.mem, h.marked⟩

/-- What the device has put into its outbound ring is sent and changes no byte. -/
theorem sameBytes_checkOut (s : State) : SameBytes s (checkOut s) := by
  unfold checkOut
  generalize mainNat s (ctxPart s.vd mailPart + 8) 8 = o
  dsimp only
  generalize (o + 2 ^ 64 - s.vd.out) % 2 ^ 64 = n
  split
  · split
    · exact .rfl' s
    · refine SameBytes.withVd ?_
      split
      · refine List.foldlRecOn _ _ (motive := SameBytes s) (.rfl' s) fun t ht j _ => ?_
        split
        · exact ht
        · exact ⟨ht.g, ht.mem, ht.marked⟩
      · exact .rfl' s
  · exact .rfl' s

/-! ### Read-only bits (R5) -/

@[simp] theorem keepReadOnly_fst (s : State) (c : Loc × Byte) : (keepReadOnly s c).1 = c.1 := by
  unfold keepReadOnly
  dsimp only
  split <;> rfl

theorem keepReadOnly_of_zero {s : State} {c : Loc × Byte} (h : readOnlyBits s c.1 = 0) : keepReadOnly s c = c := by
  unfold keepReadOnly
  exact if_pos h

/-- A read-only bit stays and every other bit is the store's. -/
theorem getLsbD_keepReadOnly (s : State) (c : Loc × Byte) {i : Nat} (hi : i < 8) :
    (keepReadOnly s c).2.getLsbD i
      = if (readOnlyBits s c.1).getLsbD i then (locByte s c.1).1.getLsbD i else c.2.getLsbD i := by
  unfold keepReadOnly
  dsimp only
  split
  · next h => simp [h]
  · simp only [BitVec.getLsbD_or, BitVec.getLsbD_and, BitVec.getLsbD_not, hi]
    cases (readOnlyBits s c.1).getLsbD i <;> simp

theorem keepReadOnly_of_all {s : State} {c : Loc × Byte} (h : readOnlyBits s c.1 = 0xff) :
    (keepReadOnly s c).2 = (locByte s c.1).1 := by
  refine BitVec.eq_of_getLsbD_eq fun i hi => ?_
  have hb : ∀ i < 8, (0xff : Byte).getLsbD i = true := by decide
  rw [getLsbD_keepReadOnly s c hi, h, if_pos (hb i hi)]

/-- The stop records of a live device are read-only (R421). -/
theorem readOnlyBits_stopRecords {s : State} {l : Loc} (hl : l.home = .main) (ha : s.vd.alive = true)
    (h₁ : ctxPart s.vd mailPart + 4096 ≤ l.addr) (h₂ : l.addr < ctxPart s.vd mailPart + 4096 + 32768) :
    readOnlyBits s l = 0xff := by
  unfold readOnlyBits
  rw [hl]
  simp [ha, h₁, h₂]

/-- The bits do not depend on the store queue. -/
theorem keepReadOnly_stores (s : State) (qs : List QStore) :
    keepReadOnly { s with g := { s.g with stores := qs } } = keepReadOnly s := rfl

theorem unbound_map_keepReadOnly {d : Device} {cells : List (Loc × Byte)} (hc : Unbound d cells) (s : State) :
    Unbound d (cells.map (keepReadOnly s)) := by
  refine List.forall_mem_map.mpr fun c hm => ?_
  rw [keepReadOnly_fst]
  exact hc c hm

/-! ### A store becomes visible -/

theorem putVisible_g {s : State} {cells : List (Loc × Byte)} (hc : Unbound s.vd cells) : (putVisible s cells).g = s.g :=
  (sameBytes_checkOut _).g.trans (putLocs_g (unbound_map_keepReadOnly hc s))

theorem mainByte_putVisible {s : State} {cells : List (Loc × Byte)} (h : s.Inv) (hc : Unbound s.vd cells) (a : Nat) :
    mainByte (putVisible s cells) a = lastByte (mainByte s a) a (cells.map (keepReadOnly s)) :=
  ((sameBytes_checkOut _).mainByte a).trans (mainByte_putLocs h (unbound_map_keepReadOnly hc s) a)

section
variable {s : State} {q : QStore} {rest : List QStore} (hq : s.g.stores = q :: rest)
include hq

theorem exec_storeVisible : exec .storeVisible s = .next (popStore s) := by
  show may (s.g.stores != []) (popStore s) = _
  rw [hq]
  rfl

theorem popStore_of_cons : popStore s = putVisible { s with g := { s.g with stores := rest } } q.cells := by
  unfold popStore
  rw [hq]

variable (hc : Unbound s.vd q.cells)
include hc

theorem popStore_g : (popStore s).g = { s.g with stores := rest } := by
  rw [popStore_of_cons hq]
  exact putVisible_g hc

theorem mainByte_popStore (h : s.Inv) (a : Nat) :
    mainByte (popStore s) a = lastByte (mainByte s a) a (q.cells.map (keepReadOnly s)) := by
  rw [popStore_of_cons hq, mainByte_putVisible (s := { s with g := { s.g with stores := rest } }) h hc,
    keepReadOnly_stores]
  rfl

end

/-- Settles O24: each byte reads as the last cell on it, with its read-only bits as they were. -/
theorem storedBytes : Obligations.StoredBytes := by
  intro s q rest hs hq hc
  have hbyte := mainByte_popStore hq hc hs
  have hold (c) (hm : c ∈ q.cells) : (locByte s c.1).1 = mainByte s c.1.addr := by
    rw [locByte_of_unbound (hc c hm).1 (hc c hm).2]
  refine ⟨popStore s, exec_storeVisible hq, popStore_g hq hc, fun a ha => ?_, fun pre post c hcells hpost => ?_, ?_⟩
  · rw [hbyte]
    refine lastByte_eq_self (List.forall_mem_map.mpr fun c hm he => ?_)
    rw [keepReadOnly_fst] at he
    exact absurd he (ha c hm)
  · have hm : c ∈ q.cells := hcells ▸ List.mem_append_right pre List.mem_cons_self
    have hlast : mainByte (popStore s) c.1.addr = (keepReadOnly s c).2 := by
      have h := lastByte_append_cons (c := keepReadOnly s c) (post := post.map (keepReadOnly s)) (mainByte s c.1.addr)
        (pre.map (keepReadOnly s)) (List.forall_mem_map.mpr fun d hd => by simpa using hpost d hd)
      rw [keepReadOnly_fst] at h
      rw [hbyte, hcells, List.map_append, List.map_cons, h]
    refine ⟨fun hz => ?_, fun i hi => ?_⟩
    · rw [hlast, keepReadOnly_of_zero hz]
    · rw [hlast, getLsbD_keepReadOnly s c hi, hold c hm]
  · intro halive rec_ a hlo hhi
    rw [hbyte]
    refine lastByte_eq_self (List.forall_mem_map.mpr fun c hm he => ?_)
    rw [keepReadOnly_fst] at he
    subst he
    rw [keepReadOnly_of_all (readOnlyBits_stopRecords (hc c hm).1 halive hlo hhi), hold c hm]

end Sys2Proof.Machine
end

section
/-!
PROOFS. O48: the schedulers' windows, budgets and meters, and what readings, droops, failing lanes and MODULE_RESET do to
cores. Three layers: how a core, a device and a partition read after they are written; what each event answers where it
may happen; the fields of the state it answers.
-/
namespace Sys2Proof.Machine

/-! ### Maps: a key that is absent, deleted or dropped -/

section
variable {α : Type}

theorem mget?_of_belowAll {m : SMap α} {n : Nat} (h : belowAll n m) : mget? m n = none := by
  induction m with
  | nil => rfl
  | cons e m ih =>
    obtain ⟨he, hm⟩ := List.forall_mem_cons.mp h
    rw [mget?, if_neg (Nat.ne_of_lt he)]
    exact ih hm

theorem mget?_mdel_same {m : SMap α} (h : mrising m = true) (n : Nat) : mget? (mdel m n) n = none := by
  induction m with
  | nil => rfl
  | cons e m ih =>
    obtain ⟨k, v⟩ := e
    rw [mdel]
    split
    · next hlt =>
      exact mget?_of_belowAll (List.forall_mem_cons.mpr ⟨hlt, fun e he => Nat.lt_trans hlt (mrising_head h e he)⟩)
    · split
      · next heq => exact heq ▸ mget?_of_belowAll (mrising_head h)
      · next hne => rw [mget?, if_neg hne]; exact ih (mrising_tail h)

theorem mdel_of_length_one {m : SMap α} {n : Nat} {x : α} (hl : m.length = 1) (h : mget? m n = some x) : mdel m n = [] := by
  obtain ⟨⟨k, v⟩, rfl⟩ := List.length_eq_one_iff.mp hl
  have hk : n = k := by
    by_contra hne
    simp [mget?, hne] at h
  simp [mdel, hk]

theorem mget_filter_of_dropped (d : α) {p : Nat × α → Bool} (m : SMap α) {k : Nat} (hp : ∀ v, p (k, v) = false) :
    mget d (m.filter p) k = d := by
  induction m with
  | nil => rfl
  | cons e m ih =>
    obtain ⟨a, v⟩ := e
    by_cases h : p (a, v) = true
    · have hk : k ≠ a := fun hk => by rw [hk] at hp; rw [hp] at h; cases h
      rw [List.filter_cons_of_pos h, mget, if_neg hk]
      exact ih
    · rw [List.filter_cons_of_neg h]
      exact ih

end

theorem natAt_setAt_same {l : List Nat} {i : Nat} (h : i < l.length) (x : Nat) : natAt (setAt l i x) i = x := by
  induction l generalizing i with
  | nil => cases h
  | cons a l ih =>
    cases i with
    | zero => rfl
    | succ i => exact ih (Nat.lt_of_succ_lt_succ h)

theorem may_of_true {c : Bool} (h : c = true) (s : State) : may c s = .next s := if_pos h

/-! ### A core as it reads after a write -/

theorem coreAt_onCore {s : State} (h : mrising s.cores = true) (n : Nat) (f : Core → Core) :
    coreAt (onCore s n f) n = f (coreAt s n) :=
  (mget_mset Core.fresh h n _ n).trans (if_pos rfl)

theorem coreAt_countDie (s : State) (die : Nat) (f : Die → Die) (n : Nat) : coreAt (countDie s die f) n = coreAt s n := rfl

theorem isCore_of_lt {n : Nat} (h : n < 512) : isCore n = true := decide_eq_true h

theorem isCore_of_le {n : Nat} (h : 512 ≤ n) : isCore n = false := decide_eq_false (Nat.not_lt.mpr h)

/-! ### Devices and partitions as they read after a write -/

theorem partitionOf_onPartition {s : State} {n : Nat} {p : Partition} {f : Partition → Partition} (hp : partitionOf s n = some p)
    (hf : ∀ q, (f q).number = q.number) : partitionOf (onPartition s n f) n = some (f p) := by
  have hn : p.number = n := by simpa using List.find?_some hp
  have hsame : ((fun q : Partition => q.number == n) ∘ fun q => if q.number = n then f q else q) = fun q => q.number == n := by
    funext q
    by_cases hq : q.number = n <;> simp [hq, hf]
  show (s.partitions.map _).find? _ = _
  rw [List.find?_map, hsame]
  show (partitionOf s n).map _ = _
  rw [hp, Option.map_some, if_pos hn]

/-- A state whose devices are another's, each changed by a function that leaves its number and whether it is alive. -/
structure DevicesMapped (s t : State) (g : Device → Device) : Prop where
  vd : t.vd = g s.vd
  devices : t.devices = s.devices.map g
  alive : ∀ d, (g d).alive = d.alive
  number : ∀ d, (g d).number = d.number

theorem DevicesMapped.deviceAt {s t : State} {g : Device → Device} (h : DevicesMapped s t g) (n : Nat) :
    deviceAt t n = (deviceAt s n).map g := by
  have hall : allDevices t = (allDevices s).map g := by
    unfold allDevices
    rw [h.vd, h.devices, h.alive]
    split <;> rfl
  have hsame : ((fun d : Device => d.number == n) ∘ g) = fun d => d.number == n := funext fun d => congrArg (· == n) (h.number d)
  unfold Machine.deviceAt
  rw [hall, List.find?_map, hsame]

/-- A device with its teams' core-cycles up to now counted, as `accrue` writes it. -/
def payDevice (s : State) (d : Device) : Device :=
  { d with meters := setAt d.meters 0 (natAt d.meters 0 + unpaidOf s d.number)
           usage := d.usage + unpaidOf s d.number, budget := d.budget - unpaidOf s d.number }

theorem devicesMapped_accrue (s : State) : DevicesMapped s (accrue s) (payDevice s) :=
  ⟨rfl, rfl, fun _ => rfl, fun _ => rfl⟩

theorem devicesMapped_onDevice (s : State) (n : Nat) {f : Device → Device} (ha : ∀ d, (f d).alive = d.alive)
    (hn : ∀ d, (f d).number = d.number) :
    DevicesMapped s (onDevice s n f) fun d => if d.alive && d.number == n then f d else d where
  vd := rfl
  devices := rfl
  alive d := by split <;> simp [ha]
  number d := by split <;> simp [hn]

section
variable (d : Device)

@[simp] theorem adoptShare_alive : (adoptShare d).alive = d.alive := by unfold adoptShare; split <;> rfl

@[simp] theorem adoptShare_number : (adoptShare d).number = d.number := by unfold adoptShare; split <;> rfl

@[simp] theorem adoptShare_partition : (adoptShare d).partition = d.partition := by unfold adoptShare; split <;> rfl

@[simp] theorem adoptShare_deadline : (adoptShare d).deadline = d.deadline := by unfold adoptShare; split <;> rfl

@[simp] theorem adoptShare_newShare : (adoptShare d).newShare = none := by
  unfold adoptShare
  split
  · rfl
  · assumption

end

/-! ### Windows, caps, periods and meters (R198, R199, R353) -/

/-- A device as an accounting window of partition `n` begins. -/
def beginWindow (n : Nat) (d : Device) : Device := if d.alive && d.partition == n then { adoptShare d with usage := 0 } else d

/-- The state in which the devices of partition `n` have begun a window. -/
def beginWindows (s : State) (n : Nat) : State :=
  { accrue s with vd := beginWindow n (accrue s).vd, devices := (accrue s).devices.map (beginWindow n) }

/-- A partition as its next accounting window begins. -/
def nextWindow (p : Partition) : Partition := { p with windowStart := p.windowStart + ms 10, boundaries := 0 }

theorem beginWindow_usage {n : Nat} {d : Device} (ha : (beginWindow n d).alive = true) (hp : (beginWindow n d).partition = n) :
    (beginWindow n d).usage = 0 := by
  by_cases h : (d.alive && d.partition == n) = true
  · rw [beginWindow, if_pos h]
  · rw [beginWindow, if_neg h] at ha hp
    exact absurd (by rw [ha, hp]; exact beq_self_eq_true n) h

section
variable {s : State} {n : Nat} {p : Partition} (hp : partitionOf s n = some p) (hsched : p.sched = .allowance)
include hp hsched

theorem exec_accountingWindow (hdue : p.windowStart + ms 10 ≤ s.now) :
    exec (.accountingWindow n) s = .next (onPartition (beginWindows s n) n nextWindow) := by
  show execAccountingWindow n s = _
  simp only [execAccountingWindow, hp]
  exact if_neg (not_or.mpr ⟨not_not.mpr hsched, Nat.not_lt.mpr hdue⟩)

theorem accountingWindow_begins (hdue : p.windowStart + ms 10 ≤ s.now) : ∃ t, exec (.accountingWindow n) s = .next t
    ∧ (∀ d ∈ t.vd :: t.devices, d.alive = true → d.partition = n → d.usage = 0)
    ∧ (partitionOf t n).map (fun q => (q.windowStart, q.boundaries)) = some (p.windowStart + ms 10, 0) ∧ t.mem = s.mem := by
  refine ⟨_, exec_accountingWindow hp hsched hdue, ?_, ?_, rfl⟩
  · refine List.forall_mem_cons.mpr ⟨beginWindow_usage, fun d hd => ?_⟩
    obtain ⟨e, -, rfl⟩ := List.mem_map.mp hd
    exact beginWindow_usage
  · have hp' : partitionOf (beginWindows s n) n = some p := hp
    rw [partitionOf_onPartition (f := nextWindow) hp' fun _ => rfl]
    rfl

theorem exec_millisecondBoundary (hdue : p.windowStart + ms (p.boundaries + 1) ≤ s.now) :
    exec (.millisecondBoundary n) s
      = .next (onPartition (boundaryRequests s p) n fun q => { q with boundaries := q.boundaries + 1 }) := by
  show execMillisecondBoundary n s = _
  simp only [execMillisecondBoundary, hp]
  exact if_neg (not_or.mpr ⟨not_not.mpr hsched, Nat.not_lt.mpr hdue⟩)

end

/-- A device as its period begins (R199). -/
def beginPeriod (d : Device) : Device :=
  { adoptShare d with budget := us (adoptShare d).q, deadline := (adoptShare d).deadline + us (adoptShare d).t }

section
variable {s : State} {n : Nat} {d : Device} {p : Partition} (hd : deviceAt s n = some d)
  (hp : partitionOf s d.partition = some p)

include hd in
theorem deviceAt_beginPeriod (halive : d.alive = true) :
    deviceAt (onDevice (accrue s) n beginPeriod) n = some (beginPeriod (payDevice s d)) := by
  have hn : d.number = n := by simpa using List.find?_some hd
  rw [(devicesMapped_onDevice (accrue s) n (f := beginPeriod) adoptShare_alive adoptShare_number).deviceAt,
    (devicesMapped_accrue s).deviceAt, hd, Option.map_some, Option.map_some, if_pos]
  show (d.alive && d.number == n) = true
  rw [halive, hn]
  exact beq_self_eq_true n

include hd hp

theorem exec_capReached (hsched : p.sched = .allowance) (hcap : d.cap * d.pcores * ms 10 / 100 ≤ usageNow s d)
    (hfree : runsFree s n = true) : exec (.capReached n) s = .next (requestAll s n) := by
  show execCapReached n s = _
  simp only [execCapReached, hd, hp]
  have hover : decide (usageNow s d ≥ capCycles d) = true := decide_eq_true hcap
  exact may_of_true (by rw [hsched, hover, hfree]; rfl) _

theorem exec_budgetExhausted (hsched : p.sched = .reservation) (hbudget : budgetNow s d = 0) (hfree : runsFree s n = true) :
    exec (.budgetExhausted n) s = .next (requestAll s n) := by
  show execBudgetExhausted n s = _
  simp only [execBudgetExhausted, hd, hp]
  exact may_of_true (by rw [hsched, hbudget, hfree]; rfl) _

theorem exec_periodStart (hsched : p.sched = .reservation) (hdue : d.deadline ≤ s.now) :
    exec (.periodStart n) s = .next (onDevice (accrue s) n beginPeriod) := by
  show execPeriodStart n s = _
  simp only [execPeriodStart, hd, hp]
  exact may_of_true (by rw [hsched, decide_eq_true hdue]; rfl) _

theorem periodStart_renews (hsched : p.sched = .reservation) (halive : d.alive = true) (hdue : d.deadline ≤ s.now) :
    ∃ t, exec (.periodStart n) s = .next t
      ∧ ∀ e, deviceAt t n = some e → e.budget = us e.q ∧ e.deadline = d.deadline + us e.t ∧ e.newShare = none := by
  refine ⟨_, exec_periodStart hd hp hsched hdue, fun e he => ?_⟩
  obtain rfl : beginPeriod (payDevice s d) = e := Option.some.inj ((deviceAt_beginPeriod hd halive).symm.trans he)
  exact ⟨rfl, congrArg (· + us (adoptShare (payDevice s d)).t) (adoptShare_deadline _), adoptShare_newShare _⟩

end

theorem meterTick_countsMemory {s : State} (hdue : s.meterAt + ms 1 ≤ s.now) (hm : s.vd.meters.length = 8) :
    ∃ t, exec .meterTick s = .next t ∧ t.meterAt = s.meterAt + ms 1
      ∧ natAt t.vd.meters 7 = natAt s.vd.meters 7 + s.vd.gib ∧ t.devices.length = s.devices.length :=
  ⟨_, may_of_true (decide_eq_true hdue) _, rfl, natAt_setAt_same (hm ▸ by decide) _, List.length_map ..⟩

/-! ### Hot cores (R188) -/

section
variable {s : State} {c : Core} {x : BitVec 12}

theorem nextHot_of_enter : nextHot s c x true = true := rfl

theorem nextHot_of_cool (h : hotNow s c = false) : nextHot s c x false = false := by
  rw [nextHot, h]
  rfl

theorem nextHot_of_warm (h : hotNow s c = true) (hx : 720 < x.toNat) (enter : Bool) : nextHot s c x enter = true := by
  have hw : ¬ x.toNat ≤ 720 := Nat.not_le.mpr hx
  rw [nextHot, h]
  simp [hotNow, hw]

theorem nextHot_iff_droop (h : hotNow s c = true) (hx : x.toNat ≤ 720) :
    nextHot s c x false = true ↔ ∃ u ∈ c.droops, s.now ≤ u + ms 4 := by
  rw [nextHot, h]
  simp [hotNow, hx]

end

/-! ### Readings (R188, R402, R442) -/

/-- A core with one more correction of a lane, given as sub-core and lane, counted (R402). -/
def countFix (now : Nat) (c : Core) (x : Nat × Nat) : Core :=
  { c with fixes := mset [] c.fixes (64 * x.1 + x.2) (recentFixes c now (64 * x.1 + x.2) ++ [now]) }

theorem foldl_countFix_temp (now : Nat) (l : List (Nat × Nat)) (c : Core) : (l.foldl (countFix now) c).temp = c.temp := by
  induction l generalizing c with
  | nil => rfl
  | cons x l ih => exact ih (countFix now c x)

theorem foldl_countFix_hot (now : Nat) (l : List (Nat × Nat)) (c : Core) : (l.foldl (countFix now) c).hot = c.hot := by
  induction l generalizing c with
  | nil => rfl
  | cons x l ih => exact ih (countFix now c x)

/-- The state in which a reading of core `n` has been taken, before it asks a team to stop or trips the module. -/
def afterReading (s : State) (n : Nat) (x : Reading) : State := noteFixes (readTemp s n x.temp) n x.fixes

/-- A core once a reading of its temperature has been taken. -/
def readCore (s : State) (c : Core) (x : BitVec 12) : Core := { c with temp := x, hot := nextHot s c x (decide (760 ≤ x.toNat)) }

section
variable {s : State} {n : Nat} {x : Reading}

theorem exec_temperatureReading (hn : n < 512) : exec (.temperatureReading n x) s
    = .next (if 880 ≤ x.temp.toNat then failModule (afterReading s n x)
        else if 800 ≤ x.temp.toNat then
          (teamsOn (afterReading s n x) n).foldl (fun u y => requestStop u y.ref u.now true) (afterReading s n x)
        else afterReading s n x) :=
  if_pos (c := isCore n = true) (isCore_of_lt hn)

theorem coreAt_afterReading (hc : mrising s.cores = true) : coreAt (afterReading s n x) n
    = (x.fixes.filter fun y => decide (y.1 < 4) && decide (y.2 < 32)).foldl (countFix s.now)
        (readCore s (coreAt s n) x.temp) := by
  have hc' : mrising (readTemp s n x.temp).cores = true := mrising_mset Core.fresh n _ hc
  have hread : coreAt (readTemp s n x.temp) n = readCore s (coreAt s n) x.temp := coreAt_onCore hc n _
  rw [← hread]
  exact coreAt_onCore (s := countDie (readTemp s n x.temp) (n / 128) _) hc' n _

theorem afterReading_temp (hc : mrising s.cores = true) : (coreAt (afterReading s n x) n).temp = x.temp := by
  rw [coreAt_afterReading hc, foldl_countFix_temp]
  rfl

theorem afterReading_hot (hc : mrising s.cores = true) :
    (coreAt (afterReading s n x) n).hot = nextHot s (coreAt s n) x.temp (decide (760 ≤ x.temp.toNat)) := by
  rw [coreAt_afterReading hc, foldl_countFix_hot]
  rfl

theorem afterReading_hot_of_low (hc : mrising s.cores = true) (hx : x.temp.toNat < 760) :
    (coreAt (afterReading s n x) n).hot = nextHot s (coreAt s n) x.temp false := by
  rw [afterReading_hot hc, decide_eq_false (Nat.not_le.mpr hx)]

theorem afterReading_hot_of_high (hc : mrising s.cores = true) (hx : 760 ≤ x.temp.toNat) :
    (coreAt (afterReading s n x) n).hot = true := by
  rw [afterReading_hot hc, decide_eq_true hx, nextHot_of_enter]

theorem afterReading_fixes {sub lane : Nat} (hc : mrising s.cores = true) (hx : x.fixes = [(sub, lane)]) (hsub : sub < 4)
    (hlane : lane < 32) (hf : mrising (coreAt s n).fixes = true) :
    mget [] (coreAt (afterReading s n x) n).fixes (64 * sub + lane) = recentFixes (coreAt s n) s.now (64 * sub + lane) ++ [s.now] := by
  have hkeep : ([(sub, lane)].filter fun y => decide (y.1 < 4) && decide (y.2 < 32)) = [(sub, lane)] := by simp [hsub, hlane]
  rw [coreAt_afterReading hc, hx, hkeep]
  exact (mget_mset [] hf _ _ _).trans (if_pos rfl)

theorem exec_temperatureReading_mild (hn : n < 512) (hx : x.temp.toNat < 800) :
    exec (.temperatureReading n x) s = .next (afterReading s n x) := by
  rw [exec_temperatureReading hn, if_neg (by omega), if_neg (by omega)]

theorem exec_temperatureReading_stops (hn : n < 512) (hlo : 800 ≤ x.temp.toNat) (hhi : x.temp.toNat < 880) :
    exec (.temperatureReading n x) s
      = .next ((teamsOn (afterReading s n x) n).foldl (fun u y => requestStop u y.ref u.now true) (afterReading s n x)) := by
  rw [exec_temperatureReading hn, if_neg (by omega), if_pos hlo]

theorem exec_temperatureReading_trips (hn : n < 512) (hx : 880 ≤ x.temp.toNat) :
    exec (.temperatureReading n x) s = .next (failModule (afterReading s n x)) := by
  rw [exec_temperatureReading hn, if_pos hx]

theorem exec_temperatureReading_noCore (hn : 512 ≤ n) : exec (.temperatureReading n x) s = .fault .noSuchPlace :=
  if_neg (by rw [isCore_of_le hn]; exact Bool.false_ne_true)

end

/-! ### Module failure (R392, R440, R442) -/

theorem failModule_failed (s : State) : (failModule s).failed = true := rfl

theorem dieLinkFailure_countsReplays (s : State) : ∃ die < 4, exec .dieLinkFailure s
    = .next (failModule (countDie s die fun d => { d with linkr := min (d.linkr + 8) 0xffff })) :=
  ⟨Config.freeNat s.draw 0 % 4, Nat.mod_lt _ (by decide), rfl⟩

/-! ### Droops (R188) -/

/-- The droops of a core within the last 4 ms, which are the ones that are kept. -/
def recentDroops (s : State) (c : Core) : List Nat := c.droops.filter fun u => decide (s.now ≤ u + ms 4)

/-- A core after one more droop. -/
def droopCore (s : State) (c : Core) : Core :=
  { c with
    hot := nextHot s c c.temp (decide (2 ≤ ((recentDroops s c).filter fun u => decide (s.now ≤ u + ms 1)).length))
    droops := recentDroops s c ++ [s.now] }

theorem recentDroops_filter_ms (s : State) (c : Core) :
    ((recentDroops s c).filter fun u => decide (s.now ≤ u + ms 1)) = c.droops.filter fun u => decide (s.now ≤ u + ms 1) := by
  have hms : ms 1 ≤ ms 4 := by decide
  rw [recentDroops, List.filter_filter]
  refine List.filter_congr fun u _ => ?_
  by_cases h : s.now ≤ u + ms 1
  · have h4 : s.now ≤ u + ms 4 := by omega
    simp [h, h4]
  · simp [h]

theorem droopEvent_noted {s : State} {n : Nat} (hn : n < 512) (hc : mrising s.cores = true) :
    ∃ t, exec (.droopEvent n) s = .next t ∧ coreAt t n = droopCore s (coreAt s n) :=
  ⟨_, if_pos (isCore_of_lt hn), (coreAt_countDie ..).trans (coreAt_onCore hc n _)⟩

theorem exec_droopEvent_noCore {s : State} {n : Nat} (hn : 512 ≤ n) : exec (.droopEvent n) s = .fault .noSuchPlace :=
  if_neg (by rw [isCore_of_le hn]; exact Bool.false_ne_true)

theorem droopCore_hot {s : State} {c : Core} (h : 2 ≤ (c.droops.filter fun u => decide (s.now ≤ u + ms 1)).length) :
    (droopCore s c).hot = true := by
  have hnear : decide (2 ≤ ((recentDroops s c).filter fun u => decide (s.now ≤ u + ms 1)).length) = true := by
    rw [recentDroops_filter_ms]
    exact decide_eq_true h
  exact (congrArg (nextHot s c c.temp) hnear).trans nextHot_of_enter

/-! ### Failing lanes (R64, R187, R402, R439) -/

theorem laneFails_iff (c : Core) (now k : Nat) : laneFails c now k = true
    ↔ k ∈ c.broken ∨ 16 ≤ ((mget [] c.fixes k).filter fun u => decide (now ≤ u + ms 3600000)).length := by
  rw [laneFails, Bool.or_eq_true, List.contains_iff_mem, decide_eq_true_iff]
  exact Iff.rfl

theorem withdrawalDue_iff (s : State) (n sub lane : Nat) : withdrawalDue s n sub lane = true
    ↔ laneFails (coreAt s n) s.now (64 * sub + lane) = true ∧ mget? (coreAt s n).failing sub ≠ some lane
      ∧ mget? (coreAt s n).failing sub ≠ some 64 := by
  simp only [withdrawalDue, Bool.and_eq_true, bne_iff_ne, and_assoc]

/-- The state in which core `n` is withdrawn for a lane of a sub-core, before the host is told. -/
def withdrawCore (s : State) (n sub lane : Nat) : State :=
  onCore s n fun c =>
    { c with withdrawn := true, failing := mins c.failing sub (if (mget? (coreAt s n).failing sub).isSome = true then 64 else lane) }

section
variable {s : State} {n sub lane : Nat}

theorem exec_coreWithdrawal_noLane (h : 512 ≤ n ∨ 4 ≤ sub ∨ 32 ≤ lane) : exec (.coreWithdrawal n sub lane) s = .fault .noSuchPlace := by
  refine if_neg fun hin => ?_
  simp only [isCore, Bool.and_eq_true, decide_eq_true_iff] at hin
  obtain ⟨⟨hn : n < 512, hsub⟩, hlane⟩ := hin
  omega

section
variable (hn : n < 512) (hsub : sub < 4) (hlane : lane < 32) (hdue : withdrawalDue s n sub lane = true)
include hn hsub hlane hdue

theorem exec_coreWithdrawal : exec (.coreWithdrawal n sub lane) s
    = match s.partitions.find? fun p => !(coreAt s n).withdrawn && p.cores.contains n with
      | none => .next (withdrawCore s n sub lane)
      | some p => .next ((devicesOf (moduleEvent (withdrawCore s n sub lane) 1 n) p).foldl (fun s d => dropMisfits s d.number)
          (moduleEvent (withdrawCore s n sub lane) 1 n)) := by
  have hin : (isCore n && decide (sub < 4) && decide (lane < 32)) = true := by simp [isCore_of_lt hn, hsub, hlane]
  exact (if_pos hin).trans (if_pos hdue)

theorem exec_coreWithdrawal_silent (h : (coreAt s n).withdrawn = true ∨ ∀ p ∈ s.partitions, n ∉ p.cores) :
    exec (.coreWithdrawal n sub lane) s = .next (withdrawCore s n sub lane) := by
  have hnone : (s.partitions.find? fun p => !(coreAt s n).withdrawn && p.cores.contains n) = none := by
    refine List.find?_eq_none.mpr fun p hm => ?_
    rcases h with hw | hp
    · simp [hw]
    · simp [hp p hm]
  rw [exec_coreWithdrawal hn hsub hlane hdue, hnone]

theorem exec_coreWithdrawal_reported {p : Partition} (hw : (coreAt s n).withdrawn = false)
    (hp : s.partitions.find? (fun q => q.cores.contains n) = some p) :
    exec (.coreWithdrawal n sub lane) s = .next ((devicesOf s p).foldl (fun s d => dropMisfits s d.number)
      (moduleEvent (withdrawCore s n sub lane) 1 n)) := by
  rw [exec_coreWithdrawal hn hsub hlane hdue, hw]
  simp only [Bool.not_false, Bool.true_and, hp]
  rfl

end

/-- A core once the spare lane of a sub-core has taken the place of its failing one (R64). -/
def steerCore (sub lane : Nat) (c : Core) : Core :=
  { c with
    lsteer := mset 0 c.lsteer sub (w32 (32 + lane)), failing := mdel c.failing sub, withdrawn := !(mdel c.failing sub).isEmpty
    fixes := mdel c.fixes (64 * sub + lane), broken := sdel c.broken (64 * sub + lane)
    spare := c.spare.filter fun e => e.1 / 512 != sub }

theorem exec_laneSteering (hn : n < 512) (hlane : lane < 32) (hw : (coreAt s n).withdrawn = true)
    (hfail : mget? (coreAt s n).failing sub = some lane) (hfree : (lsteerAt (coreAt s n) sub).getLsbD 5 = false)
    (hteams : teamsOn s n = []) : exec (.laneSteering n sub lane) s = .next (onCore s n (steerCore sub lane)) :=
  may_of_true (by rw [isCore_of_lt hn, decide_eq_true hlane, hw, hfail, hfree, hteams, beq_self_eq_true]; rfl) _

theorem steerCore_spare (c : Core) {r : Nat} (hr : r < 512) : mget 0 (steerCore sub lane c).spare (512 * sub + r) = 0 := by
  have hsub : (512 * sub + r) / 512 = sub := by omega
  exact mget_filter_of_dropped 0 c.spare fun _ => by simp [hsub]

theorem steerCore_withdrawn {c : Core} (hfail : mget? c.failing sub = some lane) (hone : c.failing.length = 1) :
    (steerCore sub lane c).withdrawn = false := by
  simp [steerCore, mdel_of_length_one hone hfail]

end

/-! ### Reset (R188, R355, R442) -/

theorem foldl_readTemp (f : Nat → BitVec 12) (l : List Nat) (s : State) :
    ∃ cs, l.foldl (fun s k => readTemp s k (f k)) s = { s with cores := cs } := by
  induction l generalizing s with
  | nil => exact ⟨s.cores, rfl⟩
  | cons k l ih =>
    obtain ⟨cs, h⟩ := ih (readTemp s k (f k))
    exact ⟨cs, h⟩

/-- The first bring-up of a machine that keeps the draws and the agenda of `s`, measured, with its cores' readings taken. -/
def resetWith (s : State) (items : List (List Byte)) (ok : Bool) (cs : SMap Core) : State :=
  { State.reset with
    measure := measureOf items, stageHashes := items.map sha384, portOpen := ok, dies := freshDies s.draw, draw := s.draw
    agenda := s.agenda, cores := cs }

theorem failModule_resetWith (s : State) (items : List (List Byte)) (ok : Bool) (cs : SMap Core) :
    failModule (resetWith s items ok cs) = { resetWith s items ok cs with failed := true } := rfl

theorem exec_moduleReset (s : State) (stages : List (List Byte)) (blob : List Byte) (ok : Bool) {temps : List (BitVec 12)}
    (h : temps.length = 512) : ∃ cs, exec (.moduleReset stages blob ok temps) s
      = .next { resetWith s (if ok then stages ++ [blob] else stages) ok cs with failed := temps.any fun x => decide (880 ≤ x.toNat) } := by
  obtain ⟨cs, hcs⟩ := foldl_readTemp (fun k => temps.getD k 0) (List.range Config.cores)
    (resetWith s (if ok then stages ++ [blob] else stages) ok [])
  refine ⟨cs, (may_of_true (beq_iff_eq.mpr h) _).trans (congrArg _ ?_)⟩
  by_cases hot : (temps.any fun x => decide (880 ≤ x.toNat)) = true
  · rw [hot]
    exact (if_pos hot).trans ((congrArg failModule hcs).trans (failModule_resetWith ..))
  · rw [Bool.eq_false_of_not_eq_true hot]
    exact (if_neg hot).trans hcs

/-- Settles O48: each event's outcome and the fields that it leaves, from the lemmas above. -/
theorem schedulersAndCores : Obligations.SchedulersAndCores := by
  refine ⟨⟨fun s n p hp hs => ⟨accountingWindow_begins hp hs, fun hdue => ⟨_, exec_millisecondBoundary hp hs hdue, rfl⟩⟩,
      fun s n d p hd hp => ⟨exec_capReached hd hp, exec_budgetExhausted hd hp, periodStart_renews hd hp⟩,
      fun s => meterTick_countsMemory⟩,
    fun s n x hn hc => ?readings, fun s => ⟨rfl, failModule_failed s, dieLinkFailure_countsReplays s⟩,
    fun s n hn hc => ?droops, laneFails_iff, fun s n sub lane hn hsub hlane hc => ⟨withdrawalDue_iff s n sub lane, ?withdrawal, ?steering⟩,
    fun s stages blob ok temps h => ?reset,
    fun s n sub lane x => ⟨fun hn => ⟨exec_temperatureReading_noCore hn, exec_droopEvent_noCore hn⟩, exec_coreWithdrawal_noLane⟩⟩
  case readings =>
    refine ⟨afterReading_temp hc, afterReading_hot_of_high hc, fun hcool hx => ?_, fun hhot hx => ?_, fun hhot hx => ?_,
      exec_temperatureReading_mild hn, exec_temperatureReading_stops hn, exec_temperatureReading_trips hn,
      fun sub lane => afterReading_fixes hc⟩
    · exact (afterReading_hot_of_low hc hx).trans (nextHot_of_cool hcool)
    · exact (afterReading_hot hc).trans (nextHot_of_warm hhot hx _)
    · exact (Bool.eq_iff_iff.mp (afterReading_hot_of_low hc (by omega))).trans (nextHot_iff_droop hhot hx)
  case droops =>
    obtain ⟨t, ht, hcore⟩ := droopEvent_noted hn hc
    refine ⟨t, ht, ?_, ?_, fun h => ?_⟩ <;> rw [hcore]
    · exact List.mem_append_right _ List.mem_cons_self
    · rfl
    · exact droopCore_hot h
  case withdrawal =>
    refine fun hdue => ⟨fun h => ⟨exec_coreWithdrawal_silent hn hsub hlane hdue h, ?_, rfl⟩,
      fun p => exec_coreWithdrawal_reported hn hsub hlane hdue⟩
    exact congrArg Core.withdrawn (coreAt_onCore hc n _)
  case steering =>
    intro hw hfail hfree hteams hlsteer hfailing hfixes
    refine ⟨_, exec_laneSteering hn hlane hw hfail hfree hteams, ?_⟩
    rw [coreAt_onCore hc]
    exact ⟨(mget_mset 0 hlsteer sub _ sub).trans (if_pos rfl), mget?_mdel_same hfailing sub, steerCore_withdrawn hfail,
      (mget_mdel [] hfixes _ _).trans (if_pos rfl), fun r => steerCore_spare _⟩
  case reset =>
    obtain ⟨cs, ht⟩ := exec_moduleReset s stages blob ok h
    exact ⟨_, ht, rfl, rfl, rfl, rfl, rfl, rfl, rfl⟩

end Sys2Proof.Machine
end

section
namespace Sys2Proof

open Raw

/-! ### The codes of the small vocabularies (R94, R127, R216 to R220, R258) -/

@[simp] theorem Ty.ofCode_code (t : Ty) : Ty.ofCode t.code = some t := by cases t <;> rfl
@[simp] theorem Tsel.ofCode_code (t : Tsel) : Tsel.ofCode t.code = t := by cases t <;> rfl
@[simp] theorem Rnd.ofCode_code (m : Rnd) : Rnd.ofCode m.code = some m := by cases m <;> rfl
@[simp] theorem Cond.ofCode_code (c : Cond) : Cond.ofCode c.code = some c := by cases c <;> rfl
@[simp] theorem SubW.ofCode_code (w : SubW) : SubW.ofCode w.code = some w := by cases w <;> rfl
@[simp] theorem Space.ofCode_code (s : Space) : Space.ofCode s.code = some s := by cases s <;> rfl
@[simp] theorem MWidth.ofCode_code (w : MWidth) : MWidth.ofCode w.code = some w := by cases w <;> rfl
@[simp] theorem Scope.ofCode_code (s : Scope) : Scope.ofCode s.code = some s := by cases s <;> rfl
@[simp] theorem AKind.ofCode_code (k : AKind) : AKind.ofCode k.code = some k := by cases k <;> rfl
@[simp] theorem AOp.ofCode_code (o : AOp) : AOp.ofCode o.code = some o := by cases o <;> rfl
@[simp] theorem FKind.ofCode_code (k : FKind) : FKind.ofCode k.code = some k := by cases k <;> rfl
@[simp] theorem ShflMode.ofCode_code (m : ShflMode) : ShflMode.ofCode m.code = some m := by cases m <;> rfl
@[simp] theorem VoteMode.ofCode_code (m : VoteMode) : VoteMode.ofCode m.code = some m := by cases m <;> rfl
@[simp] theorem RedOp.ofCode_code (o : RedOp) : RedOp.ofCode o.code = some o := by cases o <;> rfl
@[simp] theorem Narrow.ofCode_code (n : Narrow) : Narrow.ofCode n.code = some n := by cases n <;> rfl
@[simp] theorem CReg.ofCode_code (r : CReg) : CReg.ofCode r.code = some r := by cases r <;> rfl
@[simp] theorem HSpace.ofCode_code (s : HSpace) : HSpace.ofCode s.code = some s := by cases s <;> rfl
@[simp] theorem Ordf.ofCode_code (o : Ordf) : Ordf.ofCode o.code = some o := by
  cases o with
  | qual sc => cases sc <;> rfl
  | plain | stream | noalloc => rfl

/-- R258 gives no code to a conversion from b32. -/
theorem CvtCode.ofCode_code {ty : Ty} {cv : CvtCode} (h : cv.okFor ty = true) : CvtCode.ofCode cv.code = some cv := by
  cases cv with
  | src t =>
    cases t with
    | b32 => cases h
    | _ => rfl
  | narrowSrc n | narrowDst n => cases n <;> rfl

theorem Ty.code_lt (t : Ty) : t.code < 16 := by cases t <;> decide
theorem Tsel.code_lt (t : Tsel) : t.code < 4 := by cases t <;> decide
theorem Rnd.code_lt (m : Rnd) : m.code < 8 := by cases m <;> decide
theorem Cond.code_lt (c : Cond) : c.code < 16 := by cases c <;> decide
theorem SubW.code_lt (w : SubW) : w.code < 8 := by cases w <;> decide
theorem Space.code_lt (s : Space) : s.code < 8 := by cases s <;> decide
theorem MWidth.code_lt (w : MWidth) : w.code < 8 := by cases w <;> decide
theorem Scope.code_lt (s : Scope) : s.code < 8 := by cases s <;> decide
theorem AKind.code_lt (k : AKind) : k.code < 4 := by cases k <;> decide
theorem AOp.code_lt (o : AOp) : o.code < 16 := by cases o <;> decide
theorem FKind.code_lt (k : FKind) : k.code < 8 := by cases k <;> decide
theorem ShflMode.code_lt (m : ShflMode) : m.code < 32 := by cases m <;> decide
theorem VoteMode.code_lt (m : VoteMode) : m.code < 32 := by cases m <;> decide
theorem RedOp.code_lt (o : RedOp) : o.code < 16 := by cases o <;> decide
theorem CReg.code_lt (r : CReg) : r.code < 256 := by cases r <;> decide
theorem HSpace.code_lt (s : HSpace) : s.code < 16 := by cases s <;> decide
theorem Ordf.code_lt (o : Ordf) : o.code < 16 := by
  cases o with
  | qual sc => have := sc.code_lt; simp only [Ordf.code]; omega
  | plain | stream | noalloc => decide
theorem CvtCode.code_lt (cv : CvtCode) : cv.code < 32 := by
  cases cv with
  | src t => have := t.code_lt; simp only [CvtCode.code]; omega
  | narrowSrc n | narrowDst n => cases n <;> decide

/-! ### Operand fields (R216, R217) -/

/-- The operand is one that a field of ten bits can name (R216). -/
def Opnd.Named : Opnd → Prop
  | .v n => n < 512
  | .s n => n < 192
  | .h n => n < 16
  | _ => True

theorem Slot.named_of_ok {b : Budget} {k : Slot} {o : Opnd} (h : k.ok b o = true) : o.Named := by
  cases o <;> simp_all [Slot.ok, Opnd.Named]

theorem Opnd.code_lt {o : Opnd} (h : o.Named) : o.code < 1024 := by
  cases o <;> simp only [Opnd.Named, Opnd.code] at * <;> omega

theorem Opnd.reserved_eq_false {n : Nat} (h : n < 0x2cc ∨ 0x2e0 ≤ n ∧ n < 0x2f0 ∨ n = 0x3ff) : Opnd.reserved n = false := by
  simp [Opnd.reserved]
  omega

theorem Opnd.reserved_code {o : Opnd} (h : o.Named) : Opnd.reserved o.code = false := by
  cases o with
  | v n | s n | h n => exact Opnd.reserved_eq_false (by simp only [Opnd.Named, Opnd.code] at *; omega)
  | _ => rfl

theorem Opnd.ofCode_scalar {n : Nat} (h : n < 192) : Opnd.ofCode (0x200 + n) = .s n := by
  rw [Opnd.ofCode, if_neg (by omega), if_pos (by omega), Nat.add_sub_cancel_left]

theorem Opnd.ofCode_handle {n : Nat} (h : n < 16) : Opnd.ofCode (0x2e0 + n) = .h n := by
  rw [Opnd.ofCode, if_neg (by omega), if_neg (by omega), if_neg (by omega), if_pos (by omega), Nat.add_sub_cancel_left]

theorem Opnd.ofCode_code {o : Opnd} (h : o.Named) : Opnd.ofCode o.code = o := by
  cases o with
  | v n => exact if_pos h
  | s n => exact Opnd.ofCode_scalar h
  | h n => exact Opnd.ofCode_handle h
  | _ => rfl

/-! ### The fields of a word (R212 to R214) -/

/-- Every field lies within its bits. -/
def Raw.Fits : Raw → Prop
  | .rF op ty dst a b c md low =>
      op < 256 ∧ ty < 16 ∧ dst < 1024 ∧ a < 1024 ∧ b < 1024 ∧ c < 1024 ∧ md < 256 ∧ low < 8
  | .iF op tsel dst a m imm => op < 256 ∧ tsel < 4 ∧ dst < 1024 ∧ a < 1024 ∧ m < 2 ∧ imm < 2 ^ 32
  | .bF op kind cond rsv off => op < 256 ∧ kind < 16 ∧ cond < 1024 ∧ rsv < 1024 ∧ off < 2 ^ 32
  | .mF op spc width data base idx imm ord =>
      op < 256 ∧ spc < 8 ∧ width < 8 ∧ data < 1024 ∧ base < 1024 ∧ idx < 1024 ∧ imm < 2 ^ 16 ∧ ord < 16
  | .jF op sub dst a b c md low =>
      op < 256 ∧ sub < 16 ∧ dst < 1024 ∧ a < 1024 ∧ b < 1024 ∧ c < 1024 ∧ md < 256 ∧ low < 16

def Raw.op : Raw → Nat
  | .rF op .. | .iF op .. | .bF op .. | .mF op .. | .jF op .. => op

def Raw.fmt : Raw → Fmt
  | .rF .. => .r
  | .iF .. => .i
  | .bF .. => .b
  | .mF .. => .m
  | .jF .. => .j

/-- The opcode has the format of the fields (R221): its own, or the I form beside its R form. -/
def Raw.formOk (r : Raw) : Bool :=
  opFmt r.op == some r.fmt || (r.fmt == .i && opFmt r.op == some .r && iForms.contains r.op)

theorem Raw.join_lt {r : Raw} (h : r.Fits) : r.join < 2 ^ 64 := by
  cases r <;> simp only [Raw.Fits, Raw.join] at * <;> omega

theorem Raw.split_join {r : Raw} (h : r.Fits) : r.fmt.split r.join = r := by
  cases r <;> simp only [Raw.Fits, Raw.join, Raw.fmt, Fmt.split, fld, Raw.rF.injEq, Raw.iF.injEq, Raw.bF.injEq, Raw.mF.injEq,
    Raw.jF.injEq] at * <;> omega

theorem Raw.fld_op_join {r : Raw} (h : r.Fits) : fld r.join 63 56 = r.op := by
  cases r <;> simp only [Raw.Fits, Raw.join, Raw.op, fld] at * <;> omega

/-- Bit 55 tells an I form from the R form of its opcode (R212). -/
theorem Raw.fld_55_join_i {r : Raw} (h : r.Fits) (hi : r.fmt = .i) : fld r.join 55 55 = 1 := by
  cases r with
  | iF => simp only [Raw.Fits, Raw.join, fld] at *; omega
  | _ => cases hi

theorem Raw.fld_55_join_r {r : Raw} (h : r.Fits) (hr : r.fmt = .r) : fld r.join 55 55 = 0 := by
  cases r with
  | rF => simp only [Raw.Fits, Raw.join, fld] at *; omega
  | _ => cases hr

/-- Checks 1 and 2 of R223 (R221, R222) pass for the word of fields that have their opcode's format. -/
theorem decodeWord_join {b : Budget} {k : Nat} {r : Raw} (hr : r.Fits) (hf : r.formOk = true)
    (hk : (opClass r.op == k || opClass r.op == 0) = true) : decodeWord b k r.join = r.decode b := by
  have hs : Raw.decode b (r.fmt.split r.join) = r.decode b := by rw [Raw.split_join hr]
  cases hfmt : r.fmt with
  | r =>
    have hop : opFmt r.op = some .r := by simpa [Raw.formOk, hfmt] using hf
    simpa [decodeWord, Raw.fld_op_join hr, hop, Raw.fld_55_join_r hr hfmt, hk, hfmt] using hs
  | i =>
    have hop : opFmt r.op = some .i ∨ opFmt r.op = some .r ∧ r.op ∈ iForms := by simpa [Raw.formOk, hfmt] using hf
    rcases hop with hop | ⟨hop, hi⟩ <;>
      simpa [decodeWord, Raw.fld_op_join hr, Raw.fld_55_join_i hr hfmt, hk, hfmt, *] using hs
  | b | m | j =>
    have hop : opFmt r.op = some r.fmt := by simpa [Raw.formOk, hfmt] using hf
    simpa [decodeWord, Raw.fld_op_join hr, hop, hk, hfmt] using hs

/-! ### The values that a field spells (R218 to R220, R249) -/

@[simp] theorem pairTy_code (pr : Bool) : pairTy (if pr then 11 else 0) = some pr := by cases pr <;> rfl
theorem pairCode_lt (pr : Bool) : (if pr then 11 else 0) < 16 := by cases pr <;> decide
@[simp] theorem atomWide_code (wide : Bool) : atomWide (2 + wide.toNat) = some wide := by cases wide <;> rfl
@[simp] theorem need_true (i : Instr) : need true i = some i := rfl
@[simp] theorem toNat_beq_one (x : Bool) : (x.toNat == 1) = x := by cases x <;> rfl

theorem tyIn_code {ts : List Ty} {t : Ty} (h : ts.contains t = true) : tyIn ts t.code = some t := by
  rw [tyIn, Ty.ofCode_code, Option.filter_some, if_pos h]

/-- A code of three bits above one of five. -/
theorem shifted_lt {m n : Nat} (hm : m < 8) (hn : n < 32) : 32 * m + n < 256 := by omega
theorem shifted_div {m n : Nat} (hn : n < 32) : (32 * m + n) / 32 = m := by omega
theorem shifted_mod {m n : Nat} (hn : n < 32) : (32 * m + n) % 32 = n := by omega

@[simp] theorem rounded_code (m : Rnd) (k : Rnd → Instr) : rounded (32 * m.code) k = some (k m) := by simp [rounded]

theorem conditioned_code {t : Ty} {cc : Cond} (h : cc.okFor t = true) (k : Cond → Instr) :
    conditioned cc.code t k = some (k cc) := by
  rw [conditioned, if_pos (Nat.div_eq_of_lt cc.code_lt), Cond.ofCode_code, Option.filter_some, if_pos h, Option.map_some]

theorem subbed_code (w : SubW) {n : Nat} (hn : n < 32) (k : SubW → Option Instr) : subbed (32 * w.code + n) k = k w := by
  rw [subbed, shifted_div hn, SubW.ofCode_code, Option.bind_some]

theorem floating_of_floatTypes {t : Ty} (h : floatTypes.contains t = true) : t.floating = true := by
  simp only [floatTypes, List.contains_cons, Bool.or_eq_true, beq_iff_eq] at h
  rcases h with rfl | rfl | rfl | h
  case inr.inr.inr => cases h
  all_goals rfl

theorem Cond.okFor_floating {cc : Cond} {t : Ty} (h : floatTypes.contains t = true) : cc.okFor t = true := by
  cases cc <;> simp [Cond.okFor, floating_of_floatTypes h]

/-! ### Operands of a well-formed instruction -/

theorem named_two {b : Budget} {k l : Slot} {d x : Opnd} (h : (k.ok b d && l.ok b x) = true) : d.Named ∧ x.Named := by
  obtain ⟨hd, hx⟩ := Bool.and_eq_true_iff.mp h
  exact ⟨Slot.named_of_ok hd, Slot.named_of_ok hx⟩

theorem named_wf2 {b : Budget} {k l m : Slot} {d x y : Opnd} (h : wf2 b k l m d x y = true) : d.Named ∧ x.Named ∧ y.Named := by
  obtain ⟨h, hy⟩ := Bool.and_eq_true_iff.mp h
  obtain ⟨hd, hx⟩ := named_two h
  exact ⟨hd, hx, Slot.named_of_ok hy⟩

theorem named_wf3 {b : Budget} {k l m n : Slot} {d x y z : Opnd} (h : wf3 b k l m n d x y z = true) :
    d.Named ∧ x.Named ∧ y.Named ∧ z.Named := by
  obtain ⟨h, hz⟩ := Bool.and_eq_true_iff.mp h
  obtain ⟨hd, hx, hy⟩ := named_wf2 h
  exact ⟨hd, hx, hy, Slot.named_of_ok hz⟩

/-! ### Fields that spell an instruction -/

/-- What makes the word of the fields decode to the instruction: checks 1 to 5 of R223, but for `WellFormed`. -/
structure Raw.Spells (r : Raw) (b : Budget) (i : Instr) : Prop where
  fits : r.Fits
  form : r.formOk = true
  placed : (opClass r.op == i.cls || opClass r.op == 0) = true
  unused : r.unusedOk = true
  build : r.build b = some i
  named : r.reserved = false

theorem Raw.Spells.decode {r : Raw} {b : Budget} {i : Instr} (h : r.Spells b i) (hw : WellFormed b i = true) :
    r.decode b = .ok i := by
  simp [Raw.decode, h.unused, h.build, h.named, operandsOk, hw]

theorem Raw.Spells.decodeWord {r : Raw} {b : Budget} {i : Instr} (h : r.Spells b i) (hw : WellFormed b i = true) :
    decodeWord b i.cls (BitVec.ofNat 64 r.join).toNat = .ok i := by
  rw [BitVec.toNat_ofNat, Nat.mod_eq_of_lt (Raw.join_lt h.fits), decodeWord_join h.fits h.form h.placed, h.decode hw]

section formats
variable {b : Budget} {i : Instr}

theorem Raw.spells_r {op ty : Nat} {d x y z : Opnd} {md : Nat} (hop : (decide (op < 256) && op != 0 && opFmt op == some .r) = true)
    (hk : (opClass op == i.cls || opClass op == 0) = true) (hu : (Raw.ofR op ty d x y z md).unusedOk = true) (hty : ty < 16)
    (hmd : md < 256) (hd : d.Named) (hx : x.Named) (hy : y.Named) (hz : z.Named)
    (hb : buildR b op { ty := ty, d := d, a := x, b := y, c := z, md := md, bn := y.code } = some i) :
    (Raw.ofR op ty d x y z md).Spells b i := by
  obtain ⟨⟨hlt, h0⟩, hfmt⟩ : (op < 256 ∧ op ≠ 0) ∧ opFmt op = some .r := by simpa using hop
  exact
    { fits := ⟨hlt, hty, d.code_lt hd, x.code_lt hx, y.code_lt hy, z.code_lt hz, hmd, by decide⟩
      form := by simp [Raw.formOk, Raw.ofR, Raw.op, Raw.fmt, hfmt]
      placed := hk
      unused := hu
      build := by simp only [Raw.build, Raw.ofR, Opnd.ofCode_code, hd, hx, hy, hz, hb]
      named := by simp [Raw.reserved, Raw.ofR, Opnd.reserved_code, hd, hx, hy, hz] }

theorem Raw.spells_i {op : Nat} {ts : Tsel} {d x : Opnd} {dyn : Bool} {imm : Word}
    (hop : (decide (op < 256) && (Raw.ofI op ts d x dyn imm).formOk) = true)
    (hk : (opClass op == i.cls || opClass op == 0) = true) (hu : (Raw.ofI op ts d x dyn imm).unusedOk = true)
    (hd : d.Named) (hx : x.Named) (hb : (if op < 0x20 then buildIS else buildIV) op ts d x dyn imm = some i) :
    (Raw.ofI op ts d x dyn imm).Spells b i := by
  obtain ⟨hlt, hform⟩ : op < 256 ∧ (Raw.ofI op ts d x dyn imm).formOk = true := by simpa using hop
  exact
    { fits := ⟨hlt, ts.code_lt, d.code_lt hd, x.code_lt hx, dyn.toNat_lt, imm.isLt⟩
      form := hform
      placed := hk
      unused := hu
      build := by
        simpa only [Raw.build, Raw.ofI, Opnd.ofCode_code, hd, hx, Tsel.ofCode_code, toNat_beq_one, BitVec.ofNat_toNat, BitVec.setWidth_eq]
          using hb
      named := by simp [Raw.reserved, Raw.ofI, Opnd.reserved_code, hd, hx] }

theorem Raw.spells_b {op : Nat} {c : Opnd} {off : Word} (hop : (decide (op < 256) && opFmt op == some .b) = true)
    (hk : (opClass op == i.cls || opClass op == 0) = true) (hu : (Raw.ofB op c off).unusedOk = true) (hc : c.Named)
    (hb : buildB op 0 c off = some i) : (Raw.ofB op c off).Spells b i := by
  obtain ⟨hlt, hfmt⟩ : op < 256 ∧ opFmt op = some .b := by simpa using hop
  exact
    { fits := ⟨hlt, by decide, c.code_lt hc, by decide, off.isLt⟩
      form := by simp [Raw.formOk, Raw.ofB, Raw.op, Raw.fmt, hfmt]
      placed := hk
      unused := hu
      build := by simpa only [Raw.build, Raw.ofB, Opnd.ofCode_code, hc, BitVec.ofNat_toNat, BitVec.setWidth_eq] using hb
      named := Opnd.reserved_code hc }

theorem Raw.spells_m {op spc width : Nat} {d x y : Opnd} {imm ord : Nat} (hop : (decide (op < 256) && opFmt op == some .m) = true)
    (hk : (opClass op == i.cls || opClass op == 0) = true) (hu : (Raw.ofM op spc width d x y imm ord).unusedOk = true)
    (hspc : spc < 8) (hwidth : width < 8) (himm : imm < 2 ^ 16) (hord : ord < 16) (hd : d.Named) (hx : x.Named) (hy : y.Named)
    (hb : buildM op spc width d x y imm ord = some i) : (Raw.ofM op spc width d x y imm ord).Spells b i := by
  obtain ⟨hlt, hfmt⟩ : op < 256 ∧ opFmt op = some .m := by simpa using hop
  exact
    { fits := ⟨hlt, hspc, hwidth, d.code_lt hd, x.code_lt hx, y.code_lt hy, himm, hord⟩
      form := by simp [Raw.formOk, Raw.ofM, Raw.op, Raw.fmt, hfmt]
      placed := hk
      unused := hu
      build := by simp only [Raw.build, Raw.ofM, Opnd.ofCode_code, hd, hx, hy, hb]
      named := by simp [Raw.reserved, Raw.ofM, Opnd.reserved_code, hd, hx, hy] }

theorem Raw.spells_j {op sub : Nat} {d x y z : Opnd} {md : Nat} (hop : (decide (op < 256) && opFmt op == some .j) = true)
    (hk : (opClass op == i.cls || opClass op == 0) = true) (hu : (Raw.ofJ op sub d x y z md).unusedOk = true) (hsub : sub < 16)
    (hmd : md < 256) (hd : d.Named) (hx : x.Named) (hy : y.Named) (hz : z.Named)
    (hb : (if op < 0xd0 then buildJ1 op sub d x y md else buildJ2 op sub d x y z md) = some i) :
    (Raw.ofJ op sub d x y z md).Spells b i := by
  obtain ⟨hlt, hfmt⟩ : op < 256 ∧ opFmt op = some .j := by simpa using hop
  exact
    { fits := ⟨hlt, hsub, d.code_lt hd, x.code_lt hx, y.code_lt hy, z.code_lt hz, hmd, by decide⟩
      form := by simp [Raw.formOk, Raw.ofJ, Raw.op, Raw.fmt, hfmt]
      placed := hk
      unused := hu
      build := by simp only [Raw.build, Raw.ofJ, Opnd.ofCode_code, hd, hx, hy, hz, hb]
      named := by simp [Raw.reserved, Raw.ofJ, Opnd.reserved_code, hd, hx, hy, hz] }

end formats

/-! ### Rows of the decoder -/

theorem need_of {c : Bool} (h : c = true) (i : Instr) : need c i = some i := if_pos h
theorem pairTy_bind {α : Type} (pr : Bool) (k : Bool → Option α) : (pairTy (if pr then 11 else 0)).bind k = k pr := by
  rw [pairTy_code, Option.bind_some]
theorem tyIn_bind {α : Type} {ts : List Ty} {ty : Ty} (h : ts.contains ty = true) (k : Ty → Option α) :
    (tyIn ts ty.code).bind k = k ty := by
  rw [tyIn_code h, Option.bind_some]
theorem Rnd.shifted_lt (m : Rnd) : 32 * m.code < 256 := Sys2Proof.shifted_lt (n := 0) m.code_lt (by decide)
theorem SubW.shifted_lt (w : SubW) : 32 * w.code < 256 := Sys2Proof.shifted_lt (n := 0) w.code_lt (by decide)
theorem subbed_shifted (w : SubW) (k : SubW → Option Instr) : subbed (32 * w.code) k = k w := subbed_code w (n := 0) (by decide) k
theorem toNat_lt_256 (x : Bool) : x.toNat < 256 := Nat.lt_trans x.toNat_lt (by decide)

section shapes
variable {b : Budget} {i : Instr} {op ty md : Nat}

theorem Raw.spells_r1 {k l : Slot} {d x : Opnd} (h : (k.ok b d && l.ok b x) = true)
    (hop : (decide (op < 256) && op != 0 && opFmt op == some .r) = true) (hk : (opClass op == i.cls || opClass op == 0) = true)
    (hu : (Raw.ofR op ty d x .none .none md).unusedOk = true) (hty : ty < 16) (hmd : md < 256)
    (hb : buildR b op { ty := ty, d := d, a := x, b := .none, c := .none, md := md, bn := 0x3ff } = some i) :
    (Raw.ofR op ty d x .none .none md).Spells b i := by
  obtain ⟨hd, hx⟩ := named_two h
  exact spells_r hop hk hu hty hmd hd hx trivial trivial hb

theorem Raw.spells_r2 {k l m : Slot} {d x y : Opnd} (h : wf2 b k l m d x y = true)
    (hop : (decide (op < 256) && op != 0 && opFmt op == some .r) = true) (hk : (opClass op == i.cls || opClass op == 0) = true)
    (hu : (Raw.ofR op ty d x y .none md).unusedOk = true) (hty : ty < 16) (hmd : md < 256)
    (hb : buildR b op { ty := ty, d := d, a := x, b := y, c := .none, md := md, bn := y.code } = some i) :
    (Raw.ofR op ty d x y .none md).Spells b i := by
  obtain ⟨hd, hx, hy⟩ := named_wf2 h
  exact spells_r hop hk hu hty hmd hd hx hy trivial hb

/-- The fields of a cross-lane instruction: the clamp in C and nothing in B. -/
theorem Raw.spells_rc {k l m : Slot} {d x z : Opnd} (h : wf2 b k l m d x z = true)
    (hop : (decide (op < 256) && op != 0 && opFmt op == some .r) = true) (hk : (opClass op == i.cls || opClass op == 0) = true)
    (hu : (Raw.ofR op ty d x .none z md).unusedOk = true) (hty : ty < 16) (hmd : md < 256)
    (hb : buildR b op { ty := ty, d := d, a := x, b := .none, c := z, md := md, bn := 0x3ff } = some i) :
    (Raw.ofR op ty d x .none z md).Spells b i := by
  obtain ⟨hd, hx, hz⟩ := named_wf2 h
  exact spells_r hop hk hu hty hmd hd hx trivial hz hb

theorem Raw.spells_r3 {k l m n : Slot} {d x y z : Opnd} (h : wf3 b k l m n d x y z = true)
    (hop : (decide (op < 256) && op != 0 && opFmt op == some .r) = true) (hk : (opClass op == i.cls || opClass op == 0) = true)
    (hu : (Raw.ofR op ty d x y z md).unusedOk = true) (hty : ty < 16) (hmd : md < 256)
    (hb : buildR b op { ty := ty, d := d, a := x, b := y, c := z, md := md, bn := y.code } = some i) :
    (Raw.ofR op ty d x y z md).Spells b i := by
  obtain ⟨hd, hx, hy, hz⟩ := named_wf3 h
  exact spells_r hop hk hu hty hmd hd hx hy hz hb

end shapes

theorem planeCodes_lt {n : Nat} (h : planeCodes.contains n = true) : n < 9 := by
  simp [planeCodes] at h
  omega

theorem packed_code (ty : Ty) : (ty.code == 4 || ty.code == 5) = ty.packed := by cases ty <;> rfl

theorem packedDst_code {ty : Ty} {cv : CvtCode} : (decide (cv.code < 24) && ty.packed) = cv.packedDst ty := by
  cases cv with
  | src t => cases t <;> simp [CvtCode.packedDst, CvtCode.code, Ty.code]
  | narrowSrc n | narrowDst n => cases n <;> simp [CvtCode.packedDst, CvtCode.code, Narrow.code]

theorem cvt_unusedOk {b : Budget} {ty : Ty} {m : Rnd} {cv : CvtCode} {k l n : Slot} {d x y : Opnd}
    (h : wf2 b k l (if cv.packedDst ty then n else .unused) d x y = true) :
    (Raw.ofR 0x52 ty.code d x y .none (32 * m.code + cv.code)).unusedOk = true := by
  have hu : (rUses 0x52 ty.code (32 * m.code + cv.code)) = (true, true, cv.packedDst ty, false) := by
    simp only [rUses, if_pos, shifted_mod cv.code_lt, packed_code, packedDst_code]
  have hy : cv.packedDst ty = true ∨ y = .none := by
    by_cases hp : cv.packedDst ty = true
    · exact .inl hp
    · simp only [wf2, hp, Bool.and_eq_true] at h
      cases y <;> simp_all [Slot.unused, Slot.ok]
  rcases hy with hp | rfl <;> simp [Raw.ofR, Raw.unusedOk, Sys2Proof.unusedOk, Opnd.code, *]

theorem Cond.md_lt (c : Cond) : c.code < 256 := Nat.lt_trans c.code_lt (by decide)

section cross
variable {b : Budget} {d x z : Opnd} {ty : Ty} {op : RedOp}

theorem buildR_red (w : SubW) (h : op.types.contains ty = true) :
    buildR b 0x62 { ty := ty.code, d := d, a := x, b := .none, c := z, md := 32 * w.code + op.code, bn := 0x3ff }
      = some (.red op w ty d x z) := by
  have hlt := op.code_lt
  have h16 : (32 * w.code + op.code) / 16 % 2 = 0 := by omega
  have hop : (32 * w.code + op.code) % 16 = op.code := by omega
  simp [buildR, buildR6, subbed_code w (Nat.lt_trans hlt (by decide : 16 < 32)), h16, hop, tyIn_code h]

theorem buildR_scan (w : SubW) (excl : Bool) (h : op.types.contains ty = true) :
    buildR b 0x63 { ty := ty.code, d := d, a := x, b := .none, c := z, md := 32 * w.code + 16 * excl.toNat + op.code, bn := 0x3ff }
      = some (.scan op excl w ty d x z) := by
  have hlt := op.code_lt
  have hexcl := excl.toNat_lt
  have h16 : (32 * w.code + (16 * excl.toNat + op.code)) / 16 % 2 = excl.toNat := by omega
  have hop : (32 * w.code + (16 * excl.toNat + op.code)) % 16 = op.code := by omega
  rw [Nat.add_assoc]
  simp [buildR, buildR6, subbed_code w (show 16 * excl.toNat + op.code < 32 by omega), h16, hop, tyIn_code h]

/-- B of `sift` is a number (R270). -/
theorem Raw.spells_sift (home : Bool) {n : Nat} (hx : x.Named) (hn : n ≤ 0x200) (hv : n ≤ b.v) :
    (Raw.ofSift home x n).Spells b (.sift home x n) where
  fits := ⟨by decide, by decide, by decide, x.code_lt hx, by omega, by decide, (toNat_lt_256 home), by decide⟩
  form := rfl
  placed := rfl
  unused := rfl
  build := by cases home <;> simp [Raw.build, Raw.ofSift, buildR, buildR6, Opnd.ofCode_code hx, hn, hv]
  named := by simp only [Raw.reserved, Raw.ofSift, Opnd.reserved_code hx]; rfl

theorem buildR_qPut {q : BitVec 3} (h : decide (q.toNat < b.queues.length) = true) :
    buildR b 0x88 { ty := 0, d := .none, a := x, b := .none, c := .none, md := q.toNat, bn := 0x3ff } = some (.qPut q x) := by
  simp [buildR, buildR8, Nat.div_eq_of_lt q.isLt, of_decide_eq_true h]

theorem buildR_qGet {q : BitVec 3} (h : decide (q.toNat < b.queues.length) = true) :
    buildR b 0x89 { ty := 0, d := d, a := .none, b := .none, c := .none, md := q.toNat, bn := 0x3ff } = some (.qGet q d) := by
  simp [buildR, buildR8, Nat.div_eq_of_lt q.isLt, of_decide_eq_true h]

/-- A branch with an offset (R274). -/
theorem off_unusedOk {op : Nat} {c : Opnd} {off : Word} (hop : (op != 0x7f && op != 0x81 && op != 0x82) = true)
    (hc : Sys2Proof.unusedOk (op != 0x79 && op != 0x7f && op != 0x82) c.code = true) : (Raw.ofB op c off).unusedOk = true := by
  simp_all [Raw.ofB, Raw.unusedOk]

end cross

theorem nibble_lt (n : BitVec 4) : n.toNat < 256 := Nat.lt_trans n.isLt (by decide)

section memory
variable {spc : Space} {wide sgn : Bool} {op : AOp} {k : AKind} {o : Ordf} {data base idx : Opnd}

/-- IMM16 keeps to the bits that the opcode uses, and a field that it does not use holds none (R285). -/
theorem imm_unusedOk {op spc width n imm ord : Nat} {d x y : Opnd} {u : Bool × Bool × Bool} (h : mUses op width = (u, n))
    (hd : Sys2Proof.unusedOk u.1 d.code = true) (hx : Sys2Proof.unusedOk u.2.1 x.code = true)
    (hy : Sys2Proof.unusedOk u.2.2 y.code = true) (himm : imm < 2 ^ n) : (Raw.ofM op spc width d x y imm ord).unusedOk = true := by
  simp [Raw.ofM, Raw.unusedOk, h, hd, hx, hy, himm]

theorem atomMode_lt (op : AOp) (sgn : Bool) (k : AKind) : 64 * sgn.toNat + 16 * k.code + op.code < 2 ^ 7 := by
  cases op <;> cases sgn <;> cases k <;> decide

theorem buildM_atom (h : (atomOk spc && (!sgn || op == .min || op == .max) && k.okFor o) = true) :
    buildM 0x92 spc.code (2 + wide.toNat) data base idx (64 * sgn.toNat + 16 * k.code + op.code) o.code
      = some (.atom spc wide op sgn data base idx k o) := by
  have hop := op.code_lt
  have hsgn := sgn.toNat_lt
  have hk : (64 * sgn.toNat + 16 * k.code + op.code) / 16 % 4 = k.code := by have := k.code_lt; omega
  have hlow : (64 * sgn.toNat + 16 * k.code + op.code) % 16 = op.code := by omega
  have hhigh : (64 * sgn.toNat + 16 * k.code + op.code) / 64 % 2 = sgn.toNat := by have := k.code_lt; omega
  simp only [buildM, Space.ofCode_code, atomWide_code, Ordf.ofCode_code, hk, hlow, hhigh, AOp.ofCode_code, AKind.ofCode_code, toNat_beq_one,
    Option.bind_some, h, need_true]

theorem buildM_atomCas (h : (atomOk spc && k.okFor o) = true) :
    buildM 0x93 spc.code (2 + wide.toNat) data base idx (16 * k.code) o.code = some (.atomCas spc wide data base idx k o) := by
  have hk : 16 * k.code / 16 % 4 = k.code := by have := k.code_lt; omega
  have hhigh : 16 * k.code / 64 % 2 = 0 := by have := k.code_lt; omega
  have hlow : 16 * k.code % 16 = 0 := by omega
  simp only [buildM, Space.ofCode_code, atomWide_code, Ordf.ofCode_code, hk, hlow, hhigh, AKind.ofCode_code, Option.bind_some, h,
    beq_self_eq_true, Bool.and_true, need_true]

end memory

theorem Instr.raw_spells_r {b : Budget} {r : Raw} {i : Instr} (h : WellFormed b i = true) (hr : i.raw = some r)
    (hf : r.fmt = .r) : r.Spells b i := by
  cases i with
  | nop =>
    cases hr
    exact ⟨by simp [Fits], rfl, rfl, rfl, rfl, rfl⟩
  -- Pairs or single registers (R249).
  | sAdd pr d x y | sSub pr d x y | sMul pr d x y | sAnd pr d x y | sOr pr d x y | sXor pr d x y | sShl pr d x y | sShr pr d x y
  | sSar pr d x y =>
    cases hr
    exact spells_r2 h rfl rfl rfl (pairCode_lt pr) (by decide) (pairTy_bind pr _)
  | sNot pr d x | sMov pr d x =>
    cases hr
    exact spells_r1 h rfl rfl rfl (pairCode_lt pr) (by decide) (pairTy_bind pr _)
  | sSel pr d x y z =>
    cases hr
    exact spells_r3 h rfl rfl rfl (pairCode_lt pr) (by decide) (pairTy_bind pr _)
  -- A type that the entry accepts (R237, R238, R249, R252).
  | sMulh ty d x y | sMin ty d x y | sMax ty d x y | sBfe ty d x y | mul ty d x y | mulh ty d x y | and ty d x y | or ty d x y
  | xor ty d x y | shl ty d x y | shr ty d x y | sar ty d x y | min ty d x y | max ty d x y | bfe ty d x y | fmin ty d x y
  | fmax ty d x y =>
    cases hr
    obtain ⟨hty, h⟩ := Bool.and_eq_true_iff.mp h
    exact spells_r2 h rfl rfl rfl ty.code_lt (by decide) (tyIn_bind hty _)
  | mad ty d x y z | sel ty d x y z =>
    cases hr
    obtain ⟨hty, h⟩ := Bool.and_eq_true_iff.mp h
    exact spells_r3 h rfl rfl rfl ty.code_lt (by decide) (tyIn_bind hty _)
  | not ty d x | abs ty d x | mov ty d x =>
    cases hr
    obtain ⟨h, hx⟩ := Bool.and_eq_true_iff.mp h
    obtain ⟨hty, hd⟩ := Bool.and_eq_true_iff.mp h
    exact spells_r rfl rfl rfl ty.code_lt (by decide) (Slot.named_of_ok hd) (Slot.named_of_ok hx) trivial trivial (tyIn_bind hty _)
  | add ty sat d x y | sub ty sat d x y =>
    cases hr
    obtain ⟨⟨hty, hsat⟩, h⟩ := Bool.and_eq_true_iff.mp h |>.imp_left Bool.and_eq_true_iff.mp
    refine spells_r2 h rfl rfl rfl ty.code_lt (toNat_lt_256 sat) ((tyIn_bind hty _).trans ?_)
    cases sat with
    | false => rfl
    | true => exact need_of hsat _
  | addc ty co d x y z =>
    cases hr
    obtain ⟨hty, h⟩ := Bool.and_eq_true_iff.mp h
    exact spells_r3 h rfl rfl rfl ty.code_lt (toNat_lt_256 co) ((tyIn_bind hty _).trans (by cases co <;> rfl))
  | sAddc co d x y z =>
    cases hr
    exact spells_r3 h rfl rfl rfl (by decide) (toNat_lt_256 co) (by cases co <;> rfl)
  -- One type and no variant.
  | sMad d x y z | sBfi d x y z | bfi d x y z | prmt d x y z =>
    cases hr
    exact spells_r3 h rfl rfl rfl (by decide) (by decide) rfl
  | sPopc d x | sClz d x | popc d x | clz d x | shape d x | frcpSeed d x | frsqSeed d x | fexp2 d x | flog2 d x | fsin d x | fcos d x
  | fclass d x | fexpo d x | bpack d x | mNot d x | mFfs d x =>
    cases hr
    exact spells_r1 h rfl rfl rfl (by decide) (by decide) rfl
  | sGetl d x y | putl d x y | mAnd d x y | mOr d x y | mXor d x y =>
    cases hr
    exact spells_r2 h rfl rfl rfl (by decide) (by decide) rfl
  | movx x y =>
    cases hr
    obtain ⟨hx, hy⟩ := named_two h
    exact spells_r rfl rfl rfl (by decide) (by decide) trivial hx hy trivial rfl
  | lsel hi lo d x y z =>
    cases hr
    have hlt := lo.isLt
    have hhi : (16 * hi.toNat + lo.toNat) / 16 = hi.toNat := by omega
    have hlo : BitVec.ofNat 4 (16 * hi.toNat + lo.toNat) = lo := BitVec.eq_of_toNat_eq (by simp; omega)
    exact spells_r3 h rfl rfl rfl (by decide) (by have := hi.isLt; omega) (by simp [buildR, buildR3, hhi, hlo])
  | execGet d =>
    cases hr
    exact spells_r rfl rfl rfl (by decide) (by decide) (Slot.named_of_ok h) trivial trivial trivial rfl
  | execSet x | execAnd x | execAndn x =>
    cases hr
    exact spells_r rfl rfl rfl (by decide) (by decide) trivial (Slot.named_of_ok h) trivial trivial rfl
  -- A condition (R218).
  | sCmp ty cc d x y =>
    cases hr
    obtain ⟨⟨hty, hcc⟩, h⟩ := Bool.and_eq_true_iff.mp h |>.imp_left Bool.and_eq_true_iff.mp
    exact spells_r2 h rfl rfl rfl ty.code_lt cc.md_lt ((tyIn_bind hty _).trans (conditioned_code hcc _))
  | cmp ty cc d x y =>
    cases hr
    obtain ⟨⟨hty, hcc⟩, h⟩ := Bool.and_eq_true_iff.mp h |>.imp_left Bool.and_eq_true_iff.mp
    exact spells_r2 h rfl rfl rfl ty.code_lt cc.md_lt
      (by simp [buildR, buildR3, bne_iff_ne.mp hty, conditioned_code hcc])
  | fcmp ty cc d x y =>
    cases hr
    obtain ⟨hty, h⟩ := Bool.and_eq_true_iff.mp h
    exact spells_r2 h rfl rfl rfl ty.code_lt cc.md_lt
      ((tyIn_bind hty _).trans (conditioned_code (Cond.okFor_floating hty) _))
  -- A rounding mode (R218).
  | sFadd m d x y | sFmul m d x y | fscale m d x y =>
    cases hr
    exact spells_r2 h rfl rfl rfl (by decide) m.shifted_lt (rounded_code m _)
  | sFma m d x y z =>
    cases hr
    exact spells_r3 h rfl rfl rfl (by decide) m.shifted_lt (rounded_code m _)
  | fsqrt m d x =>
    cases hr
    exact spells_r1 h rfl rfl rfl (by decide) m.shifted_lt (rounded_code m _)
  | fadd ty m d x y | fsub ty m d x y | fmul ty m d x y =>
    cases hr
    obtain ⟨hty, h⟩ := Bool.and_eq_true_iff.mp h
    exact spells_r2 h rfl rfl rfl ty.code_lt m.shifted_lt ((tyIn_bind hty _).trans (rounded_code m _))
  | fma ty m d x y z =>
    cases hr
    obtain ⟨hty, h⟩ := Bool.and_eq_true_iff.mp h
    exact spells_r3 h rfl rfl rfl ty.code_lt m.shifted_lt ((tyIn_bind hty _).trans (rounded_code m _))
  | frnd ty m d x =>
    cases hr
    obtain ⟨hty, h⟩ := Bool.and_eq_true_iff.mp h
    exact spells_r1 h rfl rfl rfl ty.code_lt m.shifted_lt ((tyIn_bind hty _).trans (rounded_code m _))
  | fdot2 m f16 d x y z =>
    cases hr
    exact spells_r3 h rfl rfl rfl (by decide) (Sys2Proof.shifted_lt m.code_lt (by cases f16 <;> decide))
      (by cases f16 <;> simp [buildR, buildR5, shifted_div])
  -- A conversion (R258), and the planes of `bunpack` (R261).
  | sCvt ty m cv d x =>
    cases hr
    obtain ⟨h, hx⟩ := Bool.and_eq_true_iff.mp h
    obtain ⟨h, hd⟩ := Bool.and_eq_true_iff.mp h
    obtain ⟨⟨hty, hcv⟩, hs⟩ := Bool.and_eq_true_iff.mp h |>.imp_left Bool.and_eq_true_iff.mp
    exact spells_r rfl rfl rfl ty.code_lt (Sys2Proof.shifted_lt m.code_lt cv.code_lt) (Slot.named_of_ok hd)
      (Slot.named_of_ok hx) trivial trivial
      ((tyIn_bind hty _).trans (by simp [shifted_div cv.code_lt, shifted_mod cv.code_lt, CvtCode.ofCode_code hcv, hcv, hs]))
  | cvt ty m cv d x y =>
    cases hr
    obtain ⟨hcv, h⟩ := Bool.and_eq_true_iff.mp h
    exact spells_r2 h rfl rfl (cvt_unusedOk h) ty.code_lt (Sys2Proof.shifted_lt m.code_lt cv.code_lt)
      (by simp [buildR, buildR5, shifted_div cv.code_lt, shifted_mod cv.code_lt, CvtCode.ofCode_code hcv, hcv])
  | bunpack n d x =>
    cases hr
    obtain ⟨hn, h⟩ := Bool.and_eq_true_iff.mp h
    have hlt : n < 9 := planeCodes_lt hn
    exact spells_r1 h rfl rfl rfl (by decide) (by omega) (need_of (by simp only [Nat.div_eq_of_lt (show n < 16 by omega), hn]; rfl) _)
  -- A sub-group width (R219), and `sift` (R270).
  | shfl md w wide d x y z =>
    cases hr
    exact spells_r3 h rfl rfl rfl (pairCode_lt wide) (Sys2Proof.shifted_lt w.code_lt md.code_lt)
      (by simp [buildR, buildR6, subbed_code w md.code_lt, shifted_mod md.code_lt])
  | vote md w d x z =>
    cases hr
    exact spells_rc h rfl rfl rfl (by decide) (Sys2Proof.shifted_lt w.code_lt md.code_lt)
      (by simp [buildR, buildR6, subbed_code w md.code_lt, shifted_mod md.code_lt])
  | red op w ty d x z =>
    cases hr
    obtain ⟨hty, h⟩ := Bool.and_eq_true_iff.mp h
    have hop := op.code_lt
    exact spells_rc h rfl rfl rfl ty.code_lt (Sys2Proof.shifted_lt w.code_lt (by omega)) (buildR_red w hty)
  | scan op excl w ty d x z =>
    cases hr
    obtain ⟨hty, h⟩ := Bool.and_eq_true_iff.mp h
    have hop := op.code_lt
    have hexcl := excl.toNat_lt
    exact spells_rc h rfl rfl rfl ty.code_lt (by have := w.code_lt; omega) (buildR_scan w excl hty)
  | matchOp w wide d x z =>
    cases hr
    exact spells_rc h rfl rfl rfl (pairCode_lt wide) w.shifted_lt (by simp [buildR, buildR6, subbed_shifted])
  | cmpct w d x y z =>
    cases hr
    exact spells_r3 h rfl rfl rfl (by decide) w.shifted_lt (by simp [buildR, buildR6, subbed_shifted])
  | sift home x n =>
    cases hr
    obtain ⟨⟨hx, hn⟩, hnv⟩ := Bool.and_eq_true_iff.mp h |>.imp_left Bool.and_eq_true_iff.mp
    exact spells_sift home (Slot.named_of_ok hx) (of_decide_eq_true hn) (of_decide_eq_true hnv)
  -- Barriers and queues (R278, R279, R281).
  | barArr n | barWait n | barSync n =>
    cases hr
    exact spells_r rfl rfl rfl (by decide) (Nat.lt_trans n.isLt (by decide)) trivial trivial trivial trivial
      (by simp [buildR, buildR8, Nat.div_eq_of_lt n.isLt])
  | yield =>
    cases hr
    exact spells_r rfl rfl rfl (by decide) (by decide) trivial trivial trivial trivial rfl
  | qPut q x =>
    cases hr
    obtain ⟨hq, hx⟩ := Bool.and_eq_true_iff.mp h
    exact spells_r rfl rfl rfl (by decide) (Nat.lt_trans q.isLt (by decide)) trivial (Slot.named_of_ok hx) trivial trivial (buildR_qPut hq)
  | qGet q d =>
    cases hr
    obtain ⟨hq, hd⟩ := Bool.and_eq_true_iff.mp h
    exact spells_r rfl rfl rfl (by decide) (Nat.lt_trans q.isLt (by decide)) (Slot.named_of_ok hd) trivial trivial trivial (buildR_qGet hq)
  | _ => cases hr <;> cases hf

theorem Instr.raw_spells_i {b : Budget} {r : Raw} {i : Instr} (h : WellFormed b i = true) (hr : i.raw = some r)
    (hf : r.fmt = .i) : r.Spells b i := by
  cases i with
  -- Literals (R212).
  | sAddI d x imm | sSubI d x imm | sMulI d x imm | sAndI d x imm | sOrI d x imm | sXorI d x imm | sShlI d x imm | sShrI d x imm
  | sSarI d x imm | sAddcI d x imm =>
    cases hr
    obtain ⟨hd, hx⟩ := named_two h
    exact spells_i rfl rfl rfl hd hx rfl
  | sMulhI ts d x imm | sMinI ts d x imm | sMaxI ts d x imm | addI ts d x imm | subI ts d x imm | mulI ts d x imm | andI ts d x imm
  | orI ts d x imm | xorI ts d x imm | shlI ts d x imm | shrI ts d x imm | sarI ts d x imm | mulhI ts d x imm | minI ts d x imm
  | maxI ts d x imm | addcI ts d x imm =>
    cases hr
    obtain ⟨hts, h⟩ := Bool.and_eq_true_iff.mp h
    obtain ⟨hd, hx⟩ := named_two h
    exact spells_i rfl rfl rfl hd hx (need_of hts _)
  | sMovi ts d imm | movI ts d imm =>
    cases hr
    exact spells_i rfl rfl rfl (Slot.named_of_ok h) trivial rfl
  | sFaddI dyn d x imm | sFmulI dyn d x imm | faddI dyn d x imm | fsubI dyn d x imm | fmulI dyn d x imm | fminI dyn d x imm
  | fmaxI dyn d x imm =>
    cases hr
    obtain ⟨hd, hx⟩ := named_two h
    exact spells_i rfl rfl (by cases dyn <;> rfl) hd hx rfl
  | _ => cases hr <;> cases hf

theorem Instr.raw_spells_b {b : Budget} {r : Raw} {i : Instr} (h : WellFormed b i = true) (hr : i.raw = some r)
    (hf : r.fmt = .b) : r.Spells b i := by
  cases i with
  -- Branches (R274 to R276).
  | br off =>
    cases hr
    exact spells_b rfl rfl (off_unusedOk rfl rfl) trivial rfl
  | join | exit =>
    cases hr
    exact spells_b rfl rfl rfl trivial rfl
  | bz c off | bnz c off | bexz c off | brs c off | brsSift c off | call c off =>
    cases hr
    exact spells_b rfl rfl (off_unusedOk rfl rfl) (Slot.named_of_ok h) rfl
  | ret c =>
    cases hr
    exact spells_b rfl rfl rfl (Slot.named_of_ok h) rfl
  | _ => cases hr <;> cases hf

theorem Instr.raw_spells_m {b : Budget} {r : Raw} {i : Instr} (h : WellFormed b i = true) (hr : i.raw = some r)
    (hf : r.fmt = .m) : r.Spells b i := by
  cases i with
  -- Memory (R285 to R303).
  | sLd spc w data base idx imm o | ld spc w data base idx imm o =>
    cases hr
    obtain ⟨hok, h⟩ := Bool.and_eq_true_iff.mp h
    obtain ⟨hd, hx, hy⟩ := named_wf2 h
    exact spells_m rfl rfl (imm_unusedOk rfl rfl rfl rfl imm.isLt) spc.code_lt w.code_lt imm.isLt o.code_lt hd hx hy (by simp [buildM, hok])
  | sSt spc w data base idx imm o | st spc w data base idx imm o =>
    cases hr
    obtain ⟨hok, h⟩ := Bool.and_eq_true_iff.mp h
    obtain ⟨hd, hx, hy⟩ := named_wf2 h
    exact spells_m rfl rfl (imm_unusedOk rfl rfl rfl rfl imm.isLt) spc.code_lt w.code_lt imm.isLt o.code_lt hd hx hy (by simp [buildM, hok])
  | atom spc wide op sgn data base idx k o =>
    cases hr
    obtain ⟨hok, h⟩ := Bool.and_eq_true_iff.mp h
    obtain ⟨hd, hx, hy⟩ := named_wf2 h
    have hlt := atomMode_lt op sgn k
    exact spells_m rfl rfl (imm_unusedOk rfl rfl rfl rfl hlt) spc.code_lt (by cases wide <;> decide) (by omega) o.code_lt hd hx hy
      (buildM_atom hok)
  | atomCas spc wide data base idx k o =>
    cases hr
    obtain ⟨hok, h⟩ := Bool.and_eq_true_iff.mp h
    obtain ⟨hd, hx, hy⟩ := named_wf2 h
    have hlt := k.code_lt
    exact spells_m rfl rfl (imm_unusedOk rfl rfl rfl rfl (by omega)) spc.code_lt (by cases wide <;> decide) (by omega) o.code_lt hd hx hy
      (buildM_atomCas hok)
  | fence k sc =>
    cases hr
    have hsc := sc.code_lt
    exact spells_m rfl rfl rfl (by decide) k.code_lt (by decide) (by omega) trivial trivial trivial (by simp [buildM])
  | wb len base imm | inv len base imm =>
    cases hr
    obtain ⟨hd, hx⟩ := named_two h
    exact spells_m rfl rfl (imm_unusedOk rfl rfl rfl rfl imm.isLt) (by decide) (by decide) imm.isLt (by decide) hd hx trivial
      (by simp [buildM])
  | gaugeSet spc x base idx imm | gaugeWait spc x base idx imm | gaugeAdd spc x base idx imm =>
    cases hr
    obtain ⟨hspc, h⟩ := Bool.and_eq_true_iff.mp h
    obtain ⟨hd, hx, hy⟩ := named_wf2 h
    exact spells_m rfl rfl (imm_unusedOk rfl rfl rfl rfl imm.isLt) spc.code_lt (by decide) imm.isLt (by decide) hd hx hy
      (by simp [buildM, hspc])
  | gaugeSetOff spc base idx imm =>
    cases hr
    obtain ⟨h, hy⟩ := Bool.and_eq_true_iff.mp h
    obtain ⟨hspc, hx⟩ := Bool.and_eq_true_iff.mp h
    exact spells_m rfl rfl (imm_unusedOk rfl rfl rfl rfl imm.isLt) spc.code_lt (by decide) imm.isLt (by decide) trivial
      (Slot.named_of_ok hx)
      (Slot.named_of_ok hy) (by simp [buildM, hspc])
  | clJoin d k =>
    cases hr
    obtain ⟨hd, hx⟩ := named_two h
    exact spells_m rfl rfl rfl (by decide) (by decide) (by decide) (by decide) hd hx trivial rfl
  | clLeave =>
    cases hr
    exact spells_m rfl rfl rfl (by decide) (by decide) (by decide) (by decide) trivial trivial trivial rfl
  | push x nm1 | pop x nm1 =>
    cases hr
    exact spells_m rfl rfl (imm_unusedOk rfl rfl rfl rfl nm1.isLt) (by decide) (by decide) (Nat.lt_trans nm1.isLt (by decide)) (by decide)
      (Slot.named_of_ok h) trivial trivial (by simp [buildM])
  | pfetch base idx imm o =>
    cases hr
    obtain ⟨h, hy⟩ := Bool.and_eq_true_iff.mp h
    obtain ⟨ho, hx⟩ := Bool.and_eq_true_iff.mp h
    exact spells_m rfl rfl (imm_unusedOk rfl rfl rfl rfl imm.isLt) (by decide) (by decide) imm.isLt o.code_lt trivial (Slot.named_of_ok hx)
      (Slot.named_of_ok hy) (by simp [buildM, ho])
  | _ => cases hr <;> cases hf

theorem Instr.raw_spells_j {b : Budget} {r : Raw} {i : Instr} (h : WellFormed b i = true) (hr : i.raw = some r)
    (hf : r.fmt = .j) : r.Spells b i := by
  cases i with
  -- Launches, engines and the arrays (R282, R304 to R314).
  | launch d x | cpy d x | cpym d x | fill d x | rowcpy d x | htest d x | slBind d x =>
    cases hr
    obtain ⟨hd, hx⟩ := named_two h
    exact spells_j rfl rfl rfl (by decide) (by decide) hd hx trivial trivial rfl
  | hcancel x | mma x | mmaG x | stamp x | stampSync x =>
    cases hr
    exact spells_j rfl rfl rfl (by decide) (by decide) trivial (Slot.named_of_ok h) trivial trivial rfl
  | hst spc x y =>
    cases hr
    obtain ⟨hx, hy⟩ := named_two h
    exact spells_j rfl rfl rfl spc.code_lt (by decide) trivial hx hy trivial (by simp [buildJ1])
  | hld spc d x =>
    cases hr
    obtain ⟨hd, hx⟩ := named_two h
    exact spells_j rfl rfl rfl spc.code_lt (by decide) hd hx trivial trivial (by simp [buildJ1])
  | mzero t =>
    cases hr
    exact spells_j rfl rfl rfl (by decide) (toNat_lt_256 t) trivial trivial trivial trivial (by cases t <;> rfl)
  | mrd t d x =>
    cases hr
    obtain ⟨hd, hx⟩ := named_two h
    exact spells_j rfl rfl rfl (by decide) (toNat_lt_256 t) hd hx trivial trivial (by cases t <;> rfl)
  | mstore stamp t d x slot =>
    cases hr
    obtain ⟨hd, hx⟩ := named_two h
    exact spells_j rfl rfl rfl (by cases stamp <;> cases t <;> decide) slot.isLt hd hx trivial trivial
      (by cases stamp <;> cases t <;> simp [buildJ1])
  | assaySet x slot =>
    cases hr
    exact spells_j rfl rfl rfl (by decide) slot.isLt trivial (Slot.named_of_ok h) trivial trivial (by simp [buildJ1])
  | assayGet d slot =>
    cases hr
    exact spells_j rfl rfl rfl (by decide) slot.isLt (Slot.named_of_ok h) trivial trivial trivial (by simp [buildJ1])
  | assayInv slot =>
    cases hr
    exact spells_j rfl rfl rfl (by decide) slot.isLt trivial trivial trivial trivial (by simp [buildJ1])
  -- System and debug instructions (R315 to R327, R422 to R428).
  | trap n =>
    cases hr
    exact spells_j rfl rfl rfl (by decide) n.isLt trivial trivial trivial trivial (by simp [buildJ2])
  | rti | brk =>
    cases hr
    exact spells_j rfl rfl rfl (by decide) (by decide) trivial trivial trivial trivial rfl
  | ctlRd d r =>
    cases hr
    exact spells_j rfl rfl rfl (by decide) r.code_lt (Slot.named_of_ok h) trivial trivial trivial (by simp [buildJ2])
  | ctlWr r x =>
    cases hr
    exact spells_j rfl rfl rfl (by decide) r.code_lt trivial (Slot.named_of_ok h) trivial trivial (by simp [buildJ2])
  | meterRd d n =>
    cases hr
    obtain ⟨hd, hn⟩ := Bool.and_eq_true_iff.mp h
    have hle := of_decide_eq_true hn
    exact spells_j rfl rfl rfl (by decide) (by omega) (Slot.named_of_ok hd) trivial trivial trivial (need_of hn _)
  | slUnbind d n | slStat d n =>
    cases hr
    exact spells_j rfl rfl rfl (by decide) (nibble_lt n) (Slot.named_of_ok h) trivial trivial trivial (by simp [buildJ2, n.isLt])
  | wpSet d n x y =>
    cases hr
    obtain ⟨hd, hx, hy⟩ := named_wf2 h
    exact spells_j rfl rfl rfl (by decide) (nibble_lt n) hd hx hy trivial (by simp [buildJ2, n.isLt])
  | wpClr d n y | wpRd d n y =>
    cases hr
    obtain ⟨hd, hy⟩ := named_two h
    exact spells_j rfl rfl rfl (by decide) (nibble_lt n) hd trivial hy trivial (by simp [buildJ2, n.isLt])
  | dbgHalt y | dbgRun y | dbgRunUnpark y =>
    cases hr
    exact spells_j rfl rfl rfl (by decide) (by decide) trivial trivial (Slot.named_of_ok h) trivial rfl
  | dbgStep y z | dbgStepLane y z =>
    cases hr
    obtain ⟨hy, hz⟩ := named_two h
    exact spells_j rfl rfl rfl (by decide) (by decide) trivial trivial hy hz rfl
  | dbgRd d x y z | dbgWr d x y z =>
    cases hr
    obtain ⟨hd, hx, hy, hz⟩ := named_wf3 h
    exact spells_j rfl rfl rfl (by decide) (by decide) hd hx hy hz rfl
  | dbgList d x z =>
    cases hr
    obtain ⟨hd, hx, hz⟩ := named_wf2 h
    exact spells_j rfl rfl rfl (by decide) (by decide) hd hx trivial hz rfl
  | _ => cases hr <;> cases hf

/-- The fields of a well-formed instruction spell it. -/
theorem Instr.raw_spells {b : Budget} {r : Raw} {i : Instr} (h : WellFormed b i = true) (hr : i.raw = some r) : r.Spells b i := by
  cases hf : r.fmt with
  | r => exact raw_spells_r h hr hf
  | i => exact raw_spells_i h hr hf
  | b => exact raw_spells_b h hr hf
  | m => exact raw_spells_m h hr hf
  | j => exact raw_spells_j h hr hf

theorem encode_eq_some {i : Instr} {w : Dword} (h : encode i = some w) : ∃ r, i.raw = some r ∧ BitVec.ofNat 64 r.join = w :=
  Option.map_eq_some_iff.mp h

/-- Settles O55: the fields of the word are those of the instruction, and the decoder reads each of them back. -/
theorem encodeDecode : Obligations.EncodeDecode := by
  intro b i w _ _ _ hwf hw
  obtain ⟨r, hr, rfl⟩ := encode_eq_some hw
  exact (Instr.raw_spells hwf hr).decodeWord hwf

end Sys2Proof
end

section
namespace Sys2Proof.Machine

/-! ### A machine after reset (R24, R355) -/

theorem sreg_setSpair {g : Group} (h : mrising g.sregs = true) (n : Nat) (x : Dword) {k : Nat} (hk : k ≠ n ∧ k ≠ n + 1) :
    sreg (setSpair g n x) k = sreg g k := by
  rw [setSpair, sreg_setSreg (mrising_mset 0 n _ h), if_neg hk.2, sreg_setSreg h, if_neg hk.1]

/-- Settles O60: each field of the reset state is as written there, and a group at its start is `startGroup`, whose one
register pair that is not zero is s0:1. -/
theorem resetState : Obligations.ResetState := by
  refine ⟨rfl, rfl, rfl, rfl, rfl, rfl, rfl, rfl, rfl, rfl, rfl, rfl, rfl, rfl, fun n => rfl, fun n => ⟨rfl, rfl⟩, ?_⟩
  intro t g core i sump p x
  refine ⟨rfl, rfl, rfl, rfl, rfl, rfl, rfl, rfl, rfl, rfl, fun n => rfl, fun n hn => ?_, fun n => rfl, rfl, rfl⟩
  exact sreg_setSpair rfl 0 _ (by omega)

/-! ### Branches (R274, R275) -/

section branches
variable {s : State} {c : Opnd} {x : Word}

theorem exec_bz (h : uni s 4 c = .ok x) (off : Word) : exec (.bz c off) s = .next (branchTo s (x == 0) off) := by
  show execBz c off s = _
  rw [execBz, h]
  rfl

theorem exec_bnz (h : uni s 4 c = .ok x) (off : Word) : exec (.bnz c off) s = .next (branchTo s (x != 0) off) := by
  show execBnz c off s = _
  rw [execBnz, h]
  rfl

theorem exec_bexz (h : uni s 4 c = .ok x) (off : Word) :
    exec (.bexz c off) s = .next (branchTo s (x &&& execMask s == 0) off) := by
  show execBexz c off s = _
  rw [execBexz, h]
  rfl

theorem exec_call (n : Nat) (off : Word) (h : Quiet s) :
    exec (.call (.s n) off) s = .next (setCur { s with g := setSpair s.g n ((cur s).after.setWidth 64) }
      ((cur s).jump s.now (branchTarget (cur s) off))) := by
  have hg : putRegs s.g (scaWrites (.s n) true (w64 (cur s).after.toNat)) = setSpair s.g n ((cur s).after.setWidth 64) := by
    rw [putRegs_quiet h.1, applyWrites_sca, w64, BitVec.ofNat_toNat]
    rfl
  have hcur : cur { s with g := setSpair s.g n ((cur s).after.setWidth 64) } = cur s := by
    unfold cur
    cases s.slot <;> rfl
  show control (.call (.s n) off)
    (.ok (branchTo { s with g := putRegs s.g (scaWrites (.s n) true (w64 (cur s).after.toNat)) } true off)) s = _
  rw [hg, control, branchTo, hcur]
  rfl

theorem exec_ret {l : Opnd} {d : Dword} (h : uniPair s 4 l = .ok d) :
    exec (.ret l) s = .next (setCur s ((cur s).jump s.now (d.setWidth 57))) := by
  show execRet l s = _
  rw [execRet, h]
  rfl

end branches

/-! ### The steps of R29 -/

/-- A group without path entries inside a clause whose slot `i` has taken the entry on top. -/
def popped (g : Group) (i : SlotId) (p : PcSlot) : Group := ({ g with sumpTop := g.sumpTop - 16, inside := [] } : Group).setSlot i p

section join
variable {s : State} {i : SlotId} {j : Option Addr} {n : Nat} {e : SumpEntry}

theorem joinSteps_noEntry (h : sumpTopEntry s = none) :
    joinSteps (n + 1) i j s = .ok (joinSteps.joinEnd i j s (s.g.slot i) (s.g.slot i.partner)) := by
  unfold joinSteps
  rw [h]

theorem joinSteps_otherEntry (h : sumpTopEntry s = some e) (hp : sumpPoison s (s.g.sumpTop - 16) = false) (ho : e.own ≠ i) :
    joinSteps (n + 1) i j s = .ok (joinSteps.joinEnd i j s (s.g.slot i) (s.g.slot i.partner)) := by
  unfold joinSteps
  simp [h, hp, ho]

theorem joinSteps_poisoned (h : sumpTopEntry s = some e) (hp : sumpPoison s (s.g.sumpTop - 16) = true) :
    joinSteps (n + 1) i j s = .error (sumpRaise (s.g.sumpTop - 16)) := by
  unfold joinSteps
  simp [h, hp]

/-- The other path of a slot none of whose lanes wait (R276). -/
theorem joinSteps_otherPath_empty (h : sumpTopEntry s = some e) (hp : sumpPoison s (s.g.sumpTop - 16) = false) (ho : e.own = i)
    (hw : e.why = 1) (hin : s.g.inside = []) (hm : (s.g.slot i).mask = 0) :
    joinSteps (n + 1) i j s = .ok
      { s with g := popped s.g i { (s.g.slot i).jump s.now (BitVec.ofNat 57 e.low) with mask := e.mask } } := by
  unfold joinSteps
  simp [h, hp, ho, hw, hin, hm, popEntry, sdel, popped]

@[simp] theorem standAt_mask (p : PcSlot) (s : State) (a : Addr) : (p.standAt s a).mask = p.mask := by
  unfold PcSlot.standAt
  dsimp only
  split
  · rfl
  · split <;> rfl

@[simp] theorem moveTo_mask (p : PcSlot) (now : Nat) (a : Addr) : (p.moveTo now a).mask = p.mask := by
  unfold PcSlot.moveTo
  split <;> rfl

@[simp] theorem moveTo_pc (p : PcSlot) (now : Nat) (a : Addr) : (p.moveTo now a).pc = a := by
  unfold PcSlot.moveTo
  split <;> rfl

/-- Where nothing is on the stack and the partner is not live, the slot goes on after the join. -/
theorem joinSteps_alone (ht : s.g.sumpTop < 16) (hq : (s.g.slot i.partner).mask = 0) (a : Addr) :
    joinSteps (n + 1) i (some a) s
      = .ok { s with g := s.g.setSlot i (((s.g.slot i).standAt s a).moveTo s.now (a + 8)) } := by
  rw [joinSteps_noEntry (by simp [sumpTopEntry, ht])]
  simp [joinSteps.joinEnd, PcSlot.atJoin, PcSlot.live, hq]

/-- The entry on top, which is `e`, has given back to the slot its lanes that waited at the join. -/
def rejoined (s : State) (i : SlotId) (e : SumpEntry) : State :=
  let p : PcSlot := { (s.g.slot i).standAt (popEntry s) (BitVec.ofNat 57 e.low) with mask := (s.g.slot i).mask ||| e.mask }
  { popEntry s with g := (popEntry s).g.setSlot i p }

theorem joinSteps_waiting (h : sumpTopEntry s = some e) (hp : sumpPoison s (s.g.sumpTop - 16) = false) (ho : e.own = i)
    (hw : e.why = 2) : joinSteps (n + 1) i none s = joinSteps n i (some (BitVec.ofNat 57 e.low)) (rejoined s i e) := by
  rw [joinSteps]
  simp [h, hp, ho, hw, rejoined]

/-- The lanes of the slot that wait at a join, when they are all that is on the stack and the partner is not live, go on after
it. -/
theorem joinSteps_waiting_alone (h : sumpTopEntry s = some e) (hp : sumpPoison s (s.g.sumpTop - 16) = false) (ho : e.own = i)
    (hw : e.why = 2) (ht : s.g.sumpTop = 16) (hq : (s.g.slot i.partner).mask = 0) :
    ∃ p, joinSteps (n + 2) i none s = .ok { s with g := ({ s.g with sumpTop := 0 } : Group).setSlot i p }
      ∧ p.mask = (s.g.slot i).mask ||| e.mask ∧ p.pc = BitVec.ofNat 57 e.low + 8 := by
  have htop : (rejoined s i e).g.sumpTop = 0 := by simp [rejoined, popEntry, ht]
  have hpart : (rejoined s i e).g.slot i.partner = s.g.slot i.partner := by cases i <;> rfl
  rw [joinSteps_waiting h hp ho hw, joinSteps_alone (by omega) (by rw [hpart, hq])]
  refine ⟨(((rejoined s i e).g.slot i).standAt (rejoined s i e) (BitVec.ofNat 57 e.low)).moveTo s.now (BitVec.ofNat 57 e.low + 8),
    ?_, ?_, moveTo_pc ..⟩
  · simp only [rejoined, popEntry, ht, setSlot_setSlot]
  · rw [moveTo_mask, standAt_mask, rejoined, slot_setSlot]

end join

/-! ### `exit` (R25, R58, R276) -/

theorem settleSlices_eq (s : State) : ∃ r, settleSlices s = { s with g := { s.g with returned := r } } := by
  unfold settleSlices
  split
  · exact ⟨s.g.returned, rfl⟩
  · exact ⟨_, rfl⟩

theorem settleBarriers_eq (s : State) : ∃ ps, settleBarriers s = { s with team := { s.team with phases := ps } } := by
  unfold settleBarriers
  dsimp only
  split
  · exact ⟨s.team.phases, rfl⟩
  · refine List.foldlRecOn (motive := fun t : State => ∃ ps, t = { s with team := { s.team with phases := ps } }) _ _
      ⟨s.team.phases, rfl⟩ ?_
    rintro _ ⟨ps, rfl⟩ n -
    dsimp only
    split
    · exact ⟨_, rfl⟩
    · exact ⟨ps, rfl⟩

/-- After an `exit` slices may return and phases complete; nothing else changes. -/
theorem settled_eq (s : State) : ∃ r ps, settleBarriers (settleSlices s)
    = { s with g := { s.g with returned := r }, team := { s.team with phases := ps } } := by
  obtain ⟨r, hr⟩ := settleSlices_eq s
  obtain ⟨ps, hps⟩ := settleBarriers_eq (settleSlices s)
  exact ⟨r, ps, by rw [hps, hr]⟩

/-- The issuing slot's lanes have exited. -/
def emptied (s : State) : State := setCur { s with g := { s.g with exited := s.g.exited ||| (cur s).mask } } { cur s with mask := 0 }

/-- The issuing slot's lanes have exited, and it has taken no entry. -/
def leftEmpty (s : State) : State :=
  setCur { s with g := { s.g with exited := s.g.exited ||| (cur s).mask } } { cur s with mask := 0, wait := .running, stand := .paused }

theorem exitLanes_eq (s : State) :
    exitLanes s = (joinSteps (joinFuel s) s.slot none (emptied s)).map fun t => settleBarriers (settleSlices t) := by
  unfold exitLanes joinFuel emptied setCur cur
  cases s.slot <;> rfl

theorem exitLanes_of_joinSteps {s t : State} (h : joinSteps (joinFuel s) s.slot none (emptied s) = .ok t) :
    exitLanes s = .ok (settleBarriers (settleSlices t)) := by
  rw [exitLanes_eq, h]
  rfl

theorem sumpTopEntry_emptied (s : State) : sumpTopEntry (emptied s) = sumpTopEntry s := by
  unfold sumpTopEntry emptied setCur cur
  cases s.slot <;> rfl

theorem sumpPoison_emptied (s : State) : sumpPoison (emptied s) ((emptied s).g.sumpTop - 16) = sumpPoison s (s.g.sumpTop - 16) := by
  unfold emptied setCur cur
  cases s.slot <;> rfl

theorem joinEnd_emptied (s : State) : joinSteps.joinEnd s.slot none (emptied s) ((emptied s).g.slot s.slot)
    ((emptied s).g.slot s.slot.partner) = leftEmpty s := by
  unfold joinSteps.joinEnd emptied leftEmpty setCur cur
  cases s.slot <;> rfl

/-- An `exit` whose slot has no entry of its own on top leaves the slot empty. -/
theorem joinSteps_leftEmpty {s : State} (h : ∀ e, sumpTopEntry s = some e → sumpPoison s (s.g.sumpTop - 16) = false ∧ e.own ≠ s.slot) :
    joinSteps (joinFuel s) s.slot none (emptied s) = .ok (leftEmpty s) := by
  cases he : sumpTopEntry s with
  | none => exact (joinSteps_noEntry ((sumpTopEntry_emptied s).trans he)).trans (congrArg _ (joinEnd_emptied s))
  | some e =>
    obtain ⟨hp, ho⟩ := h e he
    exact (joinSteps_otherEntry ((sumpTopEntry_emptied s).trans he) ((sumpPoison_emptied s).trans hp) ho).trans
      (congrArg _ (joinEnd_emptied s))

/-- What an `exit` that goes on keeps of the state before it. -/
structure ExitKeeps (s t : State) : Prop where
  exited : t.g.exited = s.g.exited ||| (cur s).mask
  partner : t.g.slot s.slot.partner = s.g.slot s.slot.partner
  vregs : t.g.vregs = s.g.vregs
  sregs : t.g.sregs = s.g.sregs
  mem : t.mem = s.mem
  priv : t.g.priv = s.g.priv
  parked : t.g.parked = s.g.parked
  slot : t.slot = s.slot

theorem exitKeeps_leftEmpty (s : State) : ExitKeeps s (leftEmpty s) := by
  constructor <;> (unfold leftEmpty setCur cur; cases s.slot <;> rfl)

theorem leftEmpty_slot (s : State) :
    (leftEmpty s).g.slot s.slot = { cur s with mask := 0, wait := .running, stand := .paused } := slot_setSlot ..

theorem leftEmpty_sumpTop (s : State) : (leftEmpty s).g.sumpTop = s.g.sumpTop := setSlot_sumpTop ..

/-- What the settling after an `exit` keeps. -/
theorem ExitKeeps.settled {s u : State} (h : ExitKeeps s u) : ∃ t, settleBarriers (settleSlices u) = t ∧ ExitKeeps s t
    ∧ (∀ i, t.g.slot i = u.g.slot i) ∧ t.g.sumpTop = u.g.sumpTop := by
  obtain ⟨r, ps, ht⟩ := settled_eq u
  have hslot (i : SlotId) : ({ u.g with returned := r } : Group).slot i = u.g.slot i := by cases i <;> rfl
  refine ⟨_, ht, ?_, hslot, rfl⟩
  obtain ⟨h1, h2, h3, h4, h5, h6, h7, h8⟩ := h
  exact ⟨h1, (hslot _).trans h2, h3, h4, h5, h6, h7, h8⟩

theorem ExitKeeps.inHandler {s t : State} (h : ExitKeeps s t) : inHandler t.g = inHandler s.g := by
  rw [Machine.inHandler, h.priv, Machine.inHandler]

theorem pathEntries_empty {s : State} (h : s.g.sumpTop = 0) : pathEntries s = [] := by
  simp [pathEntries, stackOffs, h, sumpOffs]

theorem sumpTopEntry_empty {s : State} (h : s.g.sumpTop = 0) : sumpTopEntry s = none := by
  simp [sumpTopEntry, h]

theorem lanesLost_of_live {s : State} {i : SlotId} (h : (s.g.slot i).mask ≠ 0) : lanesLost s = false := by
  cases i <;> simp_all [lanesLost, PcSlot.live, Group.slot]

/-- Neither slot is live, and no path entry and no parked lane is left (R276). -/
theorem lanesLost_empty {s : State} {i : SlotId} (hi : (s.g.slot i).mask = 0) (hq : (s.g.slot i.partner).mask = 0)
    (ht : s.g.sumpTop = 0) (hp : s.g.parked = 0) : lanesLost s = (s.g.exited != 0xffffffff) := by
  cases i <;> simp_all [lanesLost, PcSlot.live, Group.slot, SlotId.partner, pathEntries_empty ht]

theorem emptied_sumpTop (s : State) : (emptied s).g.sumpTop = s.g.sumpTop := setSlot_sumpTop ..

theorem emptied_partner (s : State) : (emptied s).g.slot s.slot.partner = s.g.slot s.slot.partner := by
  unfold emptied setCur
  cases s.slot <;> rfl

theorem exitKeeps_unstacked (s : State) (p : PcSlot) :
    ExitKeeps s { emptied s with g := ({ (emptied s).g with sumpTop := 0 } : Group).setSlot s.slot p } := by
  constructor <;> (unfold emptied setCur cur; cases s.slot <;> rfl)

theorem emptied_inside (s : State) : (emptied s).g.inside = s.g.inside := setSlot_inside ..

theorem emptied_slot (s : State) : (emptied s).g.slot s.slot = { cur s with mask := 0 } := slot_setSlot ..

theorem slot_popped (g : Group) (i : SlotId) (p : PcSlot) : (popped g i p).slot i = p := slot_setSlot ..

theorem exitKeeps_popped (s : State) (p : PcSlot) : ExitKeeps s { emptied s with g := popped (emptied s).g s.slot p } := by
  constructor <;> (unfold popped emptied setCur cur; cases s.slot <;> rfl)

theorem emptied_popped_sumpTop (s : State) (p : PcSlot) : (popped (emptied s).g s.slot p).sumpTop = s.g.sumpTop - 16 := by
  unfold popped emptied setCur cur
  cases s.slot <;> rfl

theorem exec_exit_goesOn {s t : State} (h : exitLanes s = .ok t) (hl : lanesLost t = false) (hh : inHandler t.g = false) :
    exec .exit s = .next t := by
  show execExit s = _
  simp [execExit, h, hl, leaveHandler, hh]

theorem exec_exit_loses {s t : State} (h : exitLanes s = .ok t) (hl : lanesLost t = true) :
    exec .exit s = .next (raise t (causeHere s (.plain 0x204 0) (nextAddr .exit (cur s)) (trapDst .exit))) := by
  show execExit s = _
  simp [execExit, h, hl]

/-- An `exit` outside a handler that leaves the group a live slot goes on. -/
theorem exec_exit_live {s u : State} {i : SlotId} (hj : joinSteps (joinFuel s) s.slot none (emptied s) = .ok u) (hk : ExitKeeps s u)
    (hh : inHandler s.g = false) (hlive : (u.g.slot i).mask ≠ 0) :
    ∃ t, exec .exit s = .next t ∧ ExitKeeps s t ∧ t.g.slot s.slot = u.g.slot s.slot ∧ t.g.sumpTop = u.g.sumpTop := by
  obtain ⟨t, ht, hkt, hslot, htop⟩ := hk.settled
  refine ⟨t, exec_exit_goesOn ((exitLanes_of_joinSteps hj).trans (congrArg _ ht)) (lanesLost_of_live (i := i) ?_)
    (hkt.inHandler.trans hh), hkt, hslot _, htop⟩
  rwa [hslot]

theorem causeHere_congr {s t : State} (hs : t.slot = s.slot) (hpc : (cur t).pc = (cur s).pc) (r : Raise) (a : Addr) (d : Word) :
    causeHere t r a d = causeHere s r a d := by
  simp [causeHere, hs, hpc]

theorem masks_zero {g : Group} {i : SlotId} (h : (g.slot i).mask = 0) (hq : (g.slot i.partner).mask = 0) :
    g.a.mask = 0 ∧ g.b.mask = 0 := by
  cases i
  · exact ⟨h, hq⟩
  · exact ⟨hq, h⟩

/-- Settles O16: each branch is `branchTo`; for an `exit`, `emptied` is the state whose issuing slot is empty, `joinSteps` says what
that slot takes from the sump, and what settles afterwards keeps slots, registers and memory (`ExitKeeps.settled`). -/
theorem branchesAndExits : Obligations.BranchesAndExits := by
  refine ⟨fun s off c x hx => ?branches, ⟨fun s n off h => exec_call n off h, fun s l x h => exec_ret h⟩, fun s ht hq hpk hh => ?ends,
    fun s hh => ⟨fun hq ho => ?waits, fun e he hp hown hm => ⟨fun hw hin => ?other, fun hw ht hq => ?joined⟩⟩⟩
  case branches =>
    refine ⟨rfl, ?_, ?_, ?_, ?_, ?_, ?_⟩ <;> intro h
    · rw [exec_bz hx, beq_iff_eq.mpr h]; rfl
    · rw [exec_bz hx, beq_eq_false_iff_ne.mpr h]; rfl
    · rw [exec_bnz hx, bne_iff_ne.mpr h]; rfl
    · rw [exec_bnz hx, bne_eq_false_iff_eq.mpr h]; rfl
    · rw [exec_bexz hx, beq_iff_eq.mpr h]; rfl
    · rw [exec_bexz hx, beq_eq_false_iff_ne.mpr h]; rfl
  case ends =>
    obtain ⟨t, ht', hk, hslot, htop⟩ := (exitKeeps_leftEmpty s).settled
    have hex : exitLanes s = .ok t := by
      rw [← ht']
      exact exitLanes_of_joinSteps (joinSteps_leftEmpty fun e he => by rw [sumpTopEntry_empty ht] at he; cases he)
    have hcur : t.g.slot s.slot = { cur s with mask := 0, wait := .running, stand := .paused } := (hslot _).trans (leftEmpty_slot s)
    have hmask : (t.g.slot s.slot).mask = 0 := by rw [hcur]
    have hpart : (t.g.slot s.slot.partner).mask = 0 := by rw [hk.partner, hq]
    have hlost : lanesLost t = (t.g.exited != 0xffffffff) :=
      lanesLost_empty hmask hpart (htop.trans ((leftEmpty_sumpTop s).trans ht)) (hk.parked.trans hpk)
    rw [hk.exited] at hlost
    refine ⟨fun hall => ?_, fun hleft => ?_⟩
    · obtain ⟨ha, hb⟩ := masks_zero hmask hpart
      exact ⟨t, exec_exit_goesOn hex (by rw [hlost, hall]; rfl) (hk.inHandler.trans hh), hk.exited.trans hall, ha, hb, hk.vregs,
        hk.sregs, hk.mem⟩
    · refine ⟨t, hk.exited, hk.mem, (exec_exit_loses hex (by rw [hlost, bne_iff_ne]; exact hleft)).trans ?_⟩
      have hpc : (cur t).pc = (cur s).pc := by
        rw [cur, hk.slot, hcur]
      rw [causeHere_congr hk.slot hpc]
  case waits =>
    have hk := exitKeeps_leftEmpty s
    obtain ⟨t, hex, hkt, hslot, htop⟩ := exec_exit_live (i := s.slot.partner) (joinSteps_leftEmpty ho) hk hh (by rwa [hk.partner])
    exact ⟨t, hex, ⟨hkt.exited, hkt.partner, hkt.vregs, hkt.sregs, hkt.mem⟩, by rw [hslot, leftEmpty_slot], htop.trans
      (leftEmpty_sumpTop s)⟩
  case other =>
    have hj := joinSteps_otherPath_empty (j := none) (n := s.g.sumpTop / 16 + 1) ((sumpTopEntry_emptied s).trans he)
      ((sumpPoison_emptied s).trans hp) hown hw (by rw [emptied_inside, hin]) (by rw [emptied_slot])
    obtain ⟨t, hex, hkt, hslot, htop⟩ := exec_exit_live (i := s.slot) hj (exitKeeps_popped s _) hh (by rw [slot_popped]; exact hm)
    rw [slot_popped] at hslot
    exact ⟨t, hex, ⟨hkt.exited, hkt.partner, hkt.vregs, hkt.sregs, hkt.mem⟩, htop.trans (emptied_popped_sumpTop s _),
      by rw [hslot], by rw [hslot]; rfl, by rw [hslot]; rfl⟩
  case joined =>
    obtain ⟨p, hj, hmask, hpc⟩ := joinSteps_waiting_alone (n := s.g.sumpTop / 16) ((sumpTopEntry_emptied s).trans he)
      ((sumpPoison_emptied s).trans hp) hown hw (emptied_sumpTop s |>.trans ht) (by rw [emptied_partner, hq])
    rw [emptied_slot] at hmask
    have hm' : p.mask = e.mask := hmask.trans (BitVec.zero_or ..)
    obtain ⟨t, hex, hkt, hslot, htop⟩ := exec_exit_live (i := s.slot) hj (exitKeeps_unstacked s p) hh (by rw [slot_setSlot, hm']; exact hm)
    rw [slot_setSlot] at hslot
    exact ⟨t, hex, ⟨hkt.exited, hkt.partner, hkt.vregs, hkt.sregs, hkt.mem⟩, htop.trans (setSlot_sumpTop ..), by rw [hslot, hm'],
      by rw [hslot, hpc]⟩

end Sys2Proof.Machine
end

section
namespace Sys2Proof.Machine

/-! ### Writes to the sump leave the rest of the state (R30) -/

theorem clearSpan_frame (s : State) (n : Nat) : ∃ m p k, clearSpan s n = { s with mem := m, poison := p, marked := k } := by
  unfold clearSpan
  split
  · exact ⟨_, _, _, rfl⟩
  · exact ⟨s.mem, s.poison, s.marked, rfl⟩

theorem putMain_frame (s : State) (pa : Nat) (x : Byte) :
    ∃ m p k, putMain s pa x = { s with mem := m, poison := p, marked := k } := by
  obtain ⟨m, p, k, h⟩ := clearSpan_frame s (pa / 32768)
  exact ⟨_, p, k, by rw [putMain, h]⟩

theorem putMains_frame (s : State) (cells : List (Nat × Byte)) :
    ∃ m p k, putMains s cells = { s with mem := m, poison := p, marked := k } := by
  have hfold : ∃ m p k, cells.foldl (fun s c => putMain s c.1 c.2) s = { s with mem := m, poison := p, marked := k } := by
    refine List.foldlRecOn (motive := fun t : State => ∃ m p k, t = { s with mem := m, poison := p, marked := k }) _ _
      ⟨s.mem, s.poison, s.marked, rfl⟩ ?_
    rintro _ ⟨m, p, k, rfl⟩ c -
    exact putMain_frame _ c.1 c.2
  obtain ⟨m, p, k, h⟩ := hfold
  unfold putMains
  rw [h]
  dsimp only
  split
  · exact ⟨m, p, k, rfl⟩
  · exact ⟨m, _, k, rfl⟩

theorem putSumps_frame (s : State) (cells : List (Nat × Byte)) :
    ∃ m p k l, putSumps s cells = { s with mem := m, poison := p, marked := k, lines := l } := by
  obtain ⟨m, p, k, h⟩ := putMains_frame s (cells.map fun c => (s.g.sumpPa + c.1, c.2))
  exact ⟨m, p, k, _, by rw [putSumps, putCached, h]⟩

theorem putSumps_g (s : State) (cells : List (Nat × Byte)) : (putSumps s cells).g = s.g := by
  obtain ⟨m, p, k, l, h⟩ := putSumps_frame s cells
  rw [h]

theorem pushEntry_g (s : State) (e : SumpEntry) : (pushEntry s e).g = { s.g with sumpTop := s.g.sumpTop + 16 } := by
  simp only [pushEntry, putSump, putSumps_g]

/-! ### `brs` (R28) -/

section split
variable {s : State} {c : Opnd} {off cond : Word}

theorem exec_brs (h : uni s 4 c = .ok cond) : exec (.brs c off) s = control (.brs c off) (splitOn s cond off) s := by
  show execBrs c off s = _
  rw [execBrs, h]
  rfl

theorem splitOn_none (ht : (cur s).mask &&& cond = 0) : splitOn s cond off = .ok (setCur s ((cur s).moveTo s.now (cur s).after)) := by
  exact if_pos ht

theorem splitOn_all (ht : (cur s).mask &&& cond ≠ 0) (hf : (cur s).mask &&& ~~~cond = 0) :
    splitOn s cond off = .ok (branchTo s true off) := by
  exact (if_neg ht).trans (if_pos hf)

theorem splitOn_partner (ht : (cur s).mask &&& cond ≠ 0) (hf : (cur s).mask &&& ~~~cond ≠ 0)
    (hq : (s.g.slot s.slot.partner).mask = 0) : splitOn s cond off = .ok { s with
      g := (s.g.setSlot s.slot.partner ((cur s).branchOff s.now (branchTarget (cur s) off) ((cur s).mask &&& cond))).setSlot s.slot
        { (cur s).moveTo s.now (cur s).after with mask := (cur s).mask &&& ~~~cond } } := by
  exact (if_neg ht).trans ((if_neg hf).trans (if_pos (by rw [PcSlot.live, hq]; rfl)))

/-- The entry of the taken lanes. -/
def takenEntry (s : State) (cond off : Word) : SumpEntry :=
  { low := (branchTarget (cur s) off).toNat, mask := (cur s).mask &&& cond, why := 1, own := s.slot }

/-- Where the partner is live, room on the sump decides. -/
theorem splitOn_live (ht : (cur s).mask &&& cond ≠ 0) (hf : (cur s).mask &&& ~~~cond ≠ 0)
    (hq : (s.g.slot s.slot.partner).mask ≠ 0) : splitOn s cond off =
      if s.g.sumpTop + 16 > sumpRoom s then .error (.plain 0x300 0)
      else .ok (setCur (pushEntry s (takenEntry s cond off))
        { (cur s).moveTo s.now (cur s).after with mask := (cur s).mask &&& ~~~cond }) := by
  have hlive : (s.g.slot s.slot.partner).live = true := bne_iff_ne.mpr hq
  exact (if_neg ht).trans ((if_neg hf).trans (if_neg (by rw [hlive]; exact Bool.false_ne_true)))

theorem splitOn_sump (ht : (cur s).mask &&& cond ≠ 0) (hf : (cur s).mask &&& ~~~cond ≠ 0)
    (hq : (s.g.slot s.slot.partner).mask ≠ 0) (hroom : s.g.sumpTop + 16 ≤ sumpRoom s) :
    splitOn s cond off = .ok (setCur (pushEntry s (takenEntry s cond off))
      { (cur s).moveTo s.now (cur s).after with mask := (cur s).mask &&& ~~~cond }) :=
  (splitOn_live ht hf hq).trans (if_neg (Nat.not_lt.mpr hroom))

theorem splitOn_full (ht : (cur s).mask &&& cond ≠ 0) (hf : (cur s).mask &&& ~~~cond ≠ 0)
    (hq : (s.g.slot s.slot.partner).mask ≠ 0) (hroom : sumpRoom s < s.g.sumpTop + 16) :
    splitOn s cond off = .error (.plain 0x300 0) :=
  (splitOn_live ht hf hq).trans (if_pos hroom)

end split

/-! ### `join` (R29) -/

section join
variable {s t : State} {i : SlotId} {e : SumpEntry}

theorem settleSlices_slot (s : State) (i : SlotId) : (settleSlices s).g.slot i = s.g.slot i := by
  obtain ⟨r, hr⟩ := settleSlices_eq s
  rw [hr]
  cases i <;> rfl

theorem settleSlices_mem (s : State) : (settleSlices s).mem = s.mem := by
  obtain ⟨r, hr⟩ := settleSlices_eq s
  rw [hr]

theorem settleSlices_sumpTop (s : State) : (settleSlices s).g.sumpTop = s.g.sumpTop := by
  obtain ⟨r, hr⟩ := settleSlices_eq s
  rw [hr]

theorem sumpTop_of_entry (h : sumpTopEntry s = some e) : 16 ≤ s.g.sumpTop := by
  unfold sumpTopEntry at h
  split at h
  · cases h
  · omega

/-- Slices stay where both slots are live (R58). -/
theorem settleSlices_split (ha : (s.g.slot i).mask ≠ 0) (hb : (s.g.slot i.partner).mask ≠ 0) : settleSlices s = s := by
  have h : s.g.b.live = true := by
    cases i
    · exact bne_iff_ne.mpr hb
    · exact bne_iff_ne.mpr ha
  rw [settleSlices, h]
  rfl

theorem joinStuck_of_slot (h : (s.g.slot i).mask = 0 ∨ (s.g.slot i).wait ≠ .join) : joinStuck s = false := by
  have hw : ((s.g.slot i).live && (s.g.slot i).wait == .join) = false := by
    rcases h with h | h <;> simp [PcSlot.live, h]
  cases i <;> simp only [joinStuck, hw, Bool.false_and, Bool.and_false]

theorem joinAt_of_joinSteps (hj : joinSteps (joinFuel s) i (some (s.g.slot i).pc) s = .ok t)
    {k : SlotId} (hk : (t.g.slot k).mask = 0 ∨ (t.g.slot k).wait ≠ .join) : joinAt s i = .ok (settleSlices t) := by
  have hs : joinStuck (settleSlices t) = false := joinStuck_of_slot (i := k) (by rwa [settleSlices_slot])
  unfold joinAt
  rw [hj]
  exact if_neg (by simp [hs])

/-- A slot at its join waits while its partner is elsewhere. -/
theorem joinSteps_waits {n : Nat} {a : Addr} (ht : s.g.sumpTop < 16) (hq : (s.g.slot i.partner).mask ≠ 0)
    (hw : (s.g.slot i.partner).wait ≠ .join) : joinSteps (n + 1) i (some a) s
      = .ok { s with g := s.g.setSlot i { (s.g.slot i).standAt s a with wait := .join, stand := .paused } } := by
  have hlive : (s.g.slot i.partner).live = true := bne_iff_ne.mpr hq
  rw [joinSteps_noEntry (by simp [sumpTopEntry, ht])]
  simp [joinSteps.joinEnd, PcSlot.atJoin, hlive, hw]

/-- Where the partner waits at the same join, slot A goes on with both masks. -/
theorem joinSteps_meets {n : Nat} {a : Addr} (ht : s.g.sumpTop < 16) (hq : (s.g.slot i.partner).atJoin a = true) :
    ∃ g, joinSteps (n + 1) i (some a) s = .ok { s with g := g } ∧ g.a.mask = s.g.a.mask ||| s.g.b.mask ∧ g.b.mask = 0
      ∧ g.vregs = s.g.vregs := by
  rw [joinSteps_noEntry (by simp [sumpTopEntry, ht]), joinSteps.joinEnd]
  simp only [hq, if_true]
  exact ⟨_, rfl, rfl, rfl, rfl⟩

/-- The group without its entry on top, none of whose path entries lies inside a clause. -/
def unstacked (s : State) : State := { s with g := { s.g with sumpTop := s.g.sumpTop - 16, inside := [] } }

/-- The slot takes the other path, and its lanes wait at the join. -/
theorem joinSteps_otherPath {n : Nat} {a : Addr} (h : sumpTopEntry s = some e) (hp : sumpPoison s (s.g.sumpTop - 16) = false)
    (ho : e.own = i) (hw : e.why = 1) (hin : s.g.inside = []) (hm : (s.g.slot i).mask ≠ 0) :
    let w := pushEntry (unstacked s) { low := a.toNat, mask := (s.g.slot i).mask, why := 2, own := i }
    joinSteps (n + 1) i (some a) s
      = .ok { w with g := w.g.setSlot i { (s.g.slot i).jump w.now (BitVec.ofNat 57 e.low) with mask := e.mask } } := by
  have hmask : ¬ (s.g.slot i).mask = 0#32 := hm
  unfold joinSteps
  simp [h, hp, ho, hw, hin, hmask, popEntry, sdel, unstacked]

theorem exec_join_of_joinAt (h : joinAt s s.slot = .ok t) : exec .join s = .next t := by
  show execJoin s = _
  rw [execJoin, h]
  rfl

theorem exec_join_faults {r : Raise} (h : joinAt s s.slot = .error r) : Faults .join s r := by
  show execJoin s = _
  rw [execJoin, h]
  rfl

/-- A slot within its clause stands where it stands. -/
theorem standAt_pc {p : PcSlot} (h8 : 8 ≤ (p.pc - p.hdr).toNat) (hc : (p.pc - p.hdr).toNat ≤ 8 * p.count) : p.standAt s p.pc = p := by
  exact if_pos ⟨by omega, hc⟩

/-! ### JOIN_RESUME -/

theorem exec_joinResume_ok (hact : canAct s s.slot = true) (hdue : s.g.haltDue = none) (hwait : (cur s).wait = .join)
    (h : joinAt s s.slot = .ok t) : exec .joinResume s = may (decide (t.g ≠ s.g)) t := by
  show execJoinResume s = _
  simp [execJoinResume, hact, clauseMayGoOn, hdue, hwait, h]

theorem exec_joinResume_raises (hact : canAct s s.slot = true) (hdue : s.g.haltDue = none) (hwait : (cur s).wait = .join) {r : Raise}
    (h : joinAt s s.slot = .error r) : exec .joinResume s = .next (afterStep (raise s (causeHere s r (cur s).pc 0x3ff))) := by
  show execJoinResume s = _
  simp [execJoinResume, hact, clauseMayGoOn, hdue, hwait, h]

end join

/-- Settles O17: a lemma for each case of `splitOn` and for each first step of `joinSteps`; the settling of slices after a join
leaves both slots as they are, and a slot that is running or empty shows that the join is not stuck. -/
theorem splitsAndJoins : Obligations.SplitsAndJoins := by
  refine ⟨fun s c off cond hc => ?split, fun s h8 hcount => ⟨fun ht hq hm => ?alone, fun ht hm hq hw => ?waits, fun ht hq => ?meets,
    fun e he hp => ?poisoned, fun e he hp hown hwhy hm hin => ?other⟩, fun s hact hdue hwait => ⟨fun t ht hne => ?resume, fun r hr =>
      ?raised⟩⟩
  case split =>
    rw [exec_brs hc]
    refine ⟨fun ht => ?_, fun ht hf => ?_, fun ht hf hq => ?_, fun ht hf hq hroom => ?_, fun ht hf hq hroom => ?_⟩
    · rw [splitOn_none ht]; rfl
    · rw [splitOn_all ht hf]; rfl
    · rw [splitOn_partner ht hf hq]; rfl
    · rw [splitOn_sump ht hf hq hroom]; rfl
    · show exec (.brs c off) s = _
      rw [exec_brs hc, splitOn_full ht hf hq hroom]; rfl
  case alone =>
    have hj := joinSteps_alone (n := s.g.sumpTop / 16 + 1) (by omega : s.g.sumpTop < 16) hq (cur s).pc
    rw [show (s.g.slot s.slot).standAt s (cur s).pc = cur s from standAt_pc h8 hcount] at hj
    refine ⟨_, exec_join_of_joinAt (joinAt_of_joinSteps (k := s.slot.partner) hj (.inl ?_)), ?_, ?_⟩
    · rw [slot_partner_setSlot, hq]
    · rw [settleSlices_slot, slot_setSlot]
    · rw [settleSlices_mem]
  case waits =>
    have hj := joinSteps_waits (n := s.g.sumpTop / 16 + 1) (a := (cur s).pc) (by omega : s.g.sumpTop < 16) hq hw
    rw [show (s.g.slot s.slot).standAt s (cur s).pc = cur s from standAt_pc h8 hcount] at hj
    refine exec_join_of_joinAt
      ((joinAt_of_joinSteps (k := s.slot.partner) hj (.inr ?_)).trans (congrArg _ (settleSlices_split (i := s.slot) ?_ ?_)))
    · rwa [slot_partner_setSlot]
    · rwa [slot_setSlot]
    · rwa [slot_partner_setSlot]
  case meets =>
    obtain ⟨g, hj, ha, hb, hv⟩ := joinSteps_meets (n := s.g.sumpTop / 16 + 1) (by omega : s.g.sumpTop < 16) hq
    obtain ⟨r, hr⟩ := settleSlices_eq { s with g := g }
    refine ⟨_, exec_join_of_joinAt (joinAt_of_joinSteps (k := .B) hj (.inl hb)), ?_⟩
    rw [hr]
    exact ⟨ha, hb, hv, rfl⟩
  case poisoned =>
    refine exec_join_faults ?_
    rw [joinAt, joinFuel, joinSteps_poisoned he hp]
    rfl
  case other =>
    have hj := joinSteps_otherPath (n := s.g.sumpTop / 16 + 1) (a := (cur s).pc) he hp hown hwhy hin hm
    refine ⟨_, exec_join_of_joinAt (joinAt_of_joinSteps (k := s.slot) hj (.inr ?_)), ?_⟩
    · rw [slot_setSlot]
      exact nofun
    · rw [settleSlices_slot, slot_setSlot, settleSlices_sumpTop, setSlot_sumpTop, pushEntry_g]
      exact ⟨rfl, rfl, rfl, by have := sumpTop_of_entry he; simp only [unstacked]; omega⟩
  case resume => exact (exec_joinResume_ok hact hdue hwait ht).trans (if_pos (decide_eq_true hne))
  case raised => exact exec_joinResume_raises hact hdue hwait hr

end Sys2Proof.Machine
end

section
namespace Sys2Proof.Machine

/-! ### Spill frames (R301 to R303) -/

/-- A long-latency instruction of an idle group that raises no flags lands the writes of its effect. -/
theorem issue_lands {i : Instr} {s : State} {e : Effect} (hx : exec i s = issue i (.ok e) s) (hl : isLong i = true) (hq : Idle e.st)
    (hm : execMask e.st = execMask s) (hfp : e.fp = []) (hsts : e.sts = 0) (ha : e.arm = none) (hu : e.until_ = .now) :
    Lands i s e.st (applyWrites e.st.g e.writes) := by
  have h := lands i s e (hx.trans (issue_long i e s hl)) hq hm (by rw [hfp]; exact fpTrap_none _) ha hu
  rw [hfp, hsts, addSts_zero, orFlags, List.foldl_nil, addFps_zero] at h
  exact h

theorem issue_faults {i : Instr} {s : State} {r : Raise} (hx : exec i s = issue i (.error r) s) : Faults i s r :=
  hx.trans (issue_error i r s)

section push
variable {s : State} {a : Opnd} {nm1 : BitVec 4}

/-- The state once a frame of `n` registers stands on the sump. -/
def pushed (s : State) (a : Opnd) (nm1 : BitVec 4) : State :=
  let body := frameBody a (nm1.toNat + 1)
  let w := putSumps s (frameCells s.g.sumpTop body (frameWords s a (nm1.toNat + 1)) (frameHeader s a nm1))
  { w with g := { w.g with sumpTop := s.g.sumpTop + body + 16 } }

theorem pushed_frame (s : State) (a : Opnd) (nm1 : BitVec 4) : ∃ m p k l, pushed s a nm1
    = { s with g := { s.g with sumpTop := s.g.sumpTop + frameBody a (nm1.toNat + 1) + 16 }
               mem := m, poison := p, marked := k, lines := l } := by
  obtain ⟨m, p, k, l, h⟩ := putSumps_frame s
    (frameCells s.g.sumpTop (frameBody a (nm1.toNat + 1)) (frameWords s a (nm1.toNat + 1)) (frameHeader s a nm1))
  exact ⟨m, p, k, l, by rw [pushed, h]⟩

/-- What canaries see of a push: the words of its body and of its header. -/
def pushEvents (s : State) (a : Opnd) (nm1 : BitVec 4) : List Watch :=
  ((frameWords s a (nm1.toNat + 1)).map (fun w => (s.g.sumpTop + w.1, leBytes 4 w.2.toNat))
    ++ headerWords (s.g.sumpTop + frameBody a (nm1.toNat + 1)) (frameHeader s a nm1)).flatMap fun w => writeEvents .sp none w.1 w.2

theorem exec_push_fits (h : s.g.sumpTop + frameBody a (nm1.toNat + 1) + 16 ≤ sumpRoom s) :
    exec (.push a nm1) s = issue (.push a nm1) (.ok { Effect.of (pushed s a nm1) with events := pushEvents s a nm1 }) s := by
  show execPush a nm1 s = _
  rw [execPush, if_neg (Nat.not_lt.mpr h)]
  rfl

theorem push_lands (hs : Idle s) (h : s.g.sumpTop + frameBody a (nm1.toNat + 1) + 16 ≤ sumpRoom s) :
    Lands (.push a nm1) s (pushed s a nm1) (pushed s a nm1).g := by
  have hx := exec_push_fits h
  obtain ⟨m, p, k, l, hf⟩ := pushed_frame s a nm1
  generalize pushed s a nm1 = st at hx hf ⊢
  have hidle : Idle st := by rw [hf]; exact ⟨hs.1, hs.2⟩
  have hmask : execMask st = execMask s := by
    rw [hf, execMask, cur, execMask, cur]
    cases s.slot <;> rfl
  exact issue_lands hx rfl hidle hmask rfl rfl rfl rfl

theorem push_faults (h : sumpRoom s < s.g.sumpTop + frameBody a (nm1.toNat + 1) + 16) : Faults (.push a nm1) s (.plain 0x300 0) := by
  refine issue_faults ?_
  show execPush a nm1 s = _
  rw [execPush, if_pos h]

end push

section pop
variable {s : State} {a : Opnd} {nm1 : BitVec 4} {e : SumpEntry}

/-- The frame on top is the slot's own and was pushed with the same registers. -/
def ownFrame (s : State) (a : Opnd) (nm1 : BitVec 4) (e : SumpEntry) : Prop :=
  e.why = 3 ∧ e.own = s.slot ∧ e.frame = (frameHeader s a nm1).frame

/-- Where the body of the frame on top begins. -/
def frameBase (s : State) (a : Opnd) (nm1 : BitVec 4) : Nat := s.g.sumpTop - (frameBody a (nm1.toNat + 1) + 16)

theorem pop_empty (h : sumpTopEntry s = none) : Faults (.pop a nm1) s (.plain 0x301 0) := by
  refine issue_faults ?_
  show execPop a nm1 s = _
  rw [execPop, h]

theorem pop_poisoned (h : sumpTopEntry s = some e) (hp : sumpPoison s (s.g.sumpTop - 16) = true) :
    Faults (.pop a nm1) s (sumpRaise (s.g.sumpTop - 16)) := by
  refine issue_faults ?_
  show execPop a nm1 s = _
  simp [execPop, h, hp]

theorem pop_other (h : sumpTopEntry s = some e) (hp : sumpPoison s (s.g.sumpTop - 16) = false) (ho : ¬ ownFrame s a nm1 e) :
    Faults (.pop a nm1) s (.plain 0x302 0) := by
  have ho : e.why ≠ 3 ∨ e.own ≠ s.slot ∨ e.frame ≠ (frameHeader s a nm1).frame := by
    simpa only [ownFrame, not_and_or] using ho
  refine issue_faults ?_
  show execPop a nm1 s = _
  simp only [execPop, h, hp, if_pos ho, Bool.false_eq_true, if_false]

theorem pop_bodyPoisoned {r : Raise} (h : sumpTopEntry s = some e) (hp : sumpPoison s (s.g.sumpTop - 16) = false)
    (ho : ownFrame s a nm1 e) (hb : popPoison s a (nm1.toNat + 1) (frameBase s a nm1) = some r) : Faults (.pop a nm1) s r := by
  obtain ⟨hw, hown, hf⟩ := ho
  refine issue_faults ?_
  show execPop a nm1 s = _
  simp only [frameBase] at hb
  simp [execPop, h, hp, hw, hown, hf, hb]

/-- What canaries see of a pop: the words that it restores and the header. -/
def popEvents (s : State) (a : Opnd) (n : Nat) : List Watch :=
  ((popReads s a n).map (fun r => s.g.sumpTop - (frameBody a n + 16) + r.2)
    ++ (List.range 4).map fun k => s.g.sumpTop - 16 + 4 * k).flatMap fun off => readEvents .sp none off (sumpBytes s off 4)

/-- The state once the frame on top is gone. -/
def unframed (s : State) (a : Opnd) (nm1 : BitVec 4) : State := { s with g := { s.g with sumpTop := frameBase s a nm1 } }

theorem exec_pop_own (h : sumpTopEntry s = some e) (hp : sumpPoison s (s.g.sumpTop - 16) = false)
    (ho : ownFrame s a nm1 e) (hb : popPoison s a (nm1.toNat + 1) (frameBase s a nm1) = none) :
    exec (.pop a nm1) s = issue (.pop a nm1)
      (.ok { Effect.write (unframed s a nm1) (popWrites s a (nm1.toNat + 1) (frameBase s a nm1)) with
             events := popEvents s a (nm1.toNat + 1) }) s := by
  have ho : ¬(e.why ≠ 3 ∨ e.own ≠ s.slot ∨ e.frame ≠ (frameHeader s a nm1).frame) := by
    simpa only [ownFrame, not_or, not_not] using ho
  rw [frameBase] at hb
  show execPop a nm1 s = _
  simp only [execPop, h, hp, if_neg ho, hb, Bool.false_eq_true, if_false]
  rfl

theorem pop_lands (hs : Idle s) (h : sumpTopEntry s = some e) (hp : sumpPoison s (s.g.sumpTop - 16) = false)
    (ho : ownFrame s a nm1 e) (hb : popPoison s a (nm1.toNat + 1) (frameBase s a nm1) = none) :
    Lands (.pop a nm1) s (unframed s a nm1)
      (applyWrites (unframed s a nm1).g (popWrites s a (nm1.toNat + 1) (frameBase s a nm1))) := by
  have hx := exec_pop_own h hp ho hb
  have hidle : Idle (unframed s a nm1) := ⟨hs.1, hs.2⟩
  have hmask : execMask (unframed s a nm1) = execMask s := by
    rw [execMask, cur, execMask, cur, unframed]
    cases s.slot <;> rfl
  generalize unframed s a nm1 = st at hx hidle hmask ⊢
  exact issue_lands hx rfl hidle hmask rfl rfl rfl rfl

end pop

/-- Settles O30: the outcomes of `push` and of `pop`, one lemma for each. -/
theorem spillFrames : Obligations.SpillFrames := by
  intro s a nm1 hs n top body base
  refine ⟨?_, ?_, ?_, ?_⟩
  · intro h w st
    have hg : w.g = s.g := putSumps_g ..
    have hv : w.g.vregs = s.g.vregs := by rw [hg]
    have hr : w.g.sregs = s.g.sregs := by rw [hg]
    exact ⟨push_lands hs h, rfl, hv, hr⟩
  · exact push_faults
  · exact pop_empty
  · intro e he own
    refine ⟨pop_poisoned he, pop_other he, fun r => pop_bodyPoisoned he, ?_⟩
    intro hp ho hb st
    exact ⟨pop_lands hs he hp ho hb, rfl⟩

end Sys2Proof.Machine
end

section
namespace Sys2Proof.Machine

/-! ### What a regrouping keeps (R39) -/

theorem mem_sadd {x n : Nat} {l : List Nat} : x ∈ sadd l n ↔ x = n ∨ x ∈ l := by
  induction l with
  | nil => simp [sadd]
  | cons k t ih =>
    simp only [sadd]
    split
    · simp
    · split
      next h => simp [h]
      next => simp [ih]; tauto

/-- Strictly ascending lists stay so. -/
theorem sadd_sorted {l : List Nat} (n : Nat) (h : l.Pairwise (· < ·)) : (sadd l n).Pairwise (· < ·) := by
  induction l with
  | nil => simp [sadd]
  | cons k t ih =>
    obtain ⟨hk, ht⟩ := List.pairwise_cons.mp h
    simp only [sadd]
    split
    next hn =>
      refine List.pairwise_cons.mpr ⟨?_, h⟩
      intro x hx
      rcases List.mem_cons.mp hx with rfl | hx
      · exact hn
      · exact hn.trans (hk x hx)
    next hn =>
      split
      · exact h
      next hne =>
        refine List.pairwise_cons.mpr ⟨?_, ih ht⟩
        intro x hx
        rcases mem_sadd.mp hx with rfl | hx
        · omega
        · exact hk x hx

theorem keysOf_nodup (ts : List Thread) : (keysOf ts).Nodup := by
  have h : (keysOf ts).Pairwise (· < ·) := List.foldlRecOn (motive := fun l : List Nat => l.Pairwise (· < ·)) _ _
    List.Pairwise.nil fun _ h n _ => sadd_sorted n h
  exact h.imp (fun hlt => Nat.ne_of_lt hlt)

theorem mem_foldl_sadd {x : Nat} (ns acc : List Nat) : x ∈ ns.foldl sadd acc ↔ x ∈ ns ∨ x ∈ acc := by
  induction ns generalizing acc with
  | nil => simp
  | cons n ns ih => simp [ih, mem_sadd]; tauto

theorem key_mem_keysOf {t : Thread} {ts : List Thread} (h : t ∈ ts) : t.key ∈ keysOf ts :=
  (mem_foldl_sadd ..).mpr (.inl (List.mem_map_of_mem h))

/-- The members of a list, sorted out by a key that each of them has among `ks`. -/
theorem flatMap_filter_perm (f : Thread → Nat) {ks : List Nat} (hk : ks.Nodup) {ts : List Thread} (h : ∀ t ∈ ts, f t ∈ ks) :
    (ks.flatMap fun k => ts.filter fun t => f t == k).Perm ts := by
  induction ks generalizing ts with
  | nil =>
    have hnil : ts = [] := List.eq_nil_iff_forall_not_mem.mpr fun t ht => List.not_mem_nil (h t ht)
    simp [hnil]
  | cons k ks ih =>
    obtain ⟨hnot, hks⟩ := List.nodup_cons.mp hk
    let rest := ts.filter fun t => !(f t == k)
    have hrest : ∀ t ∈ rest, f t ∈ ks := by
      intro t ht
      obtain ⟨hm, hne⟩ := List.mem_filter.mp ht
      exact (List.mem_cons.mp (h t hm)).resolve_left (by simpa using hne)
    have hsame : ∀ j ∈ ks, (ts.filter fun t => f t == j) = rest.filter fun t => f t == j := by
      intro j hj
      have hjk : j ≠ k := fun e => hnot (e ▸ hj)
      rw [List.filter_filter]
      refine List.filter_congr fun t _ => ?_
      by_cases hfj : f t = j
      · simp [hfj, hjk]
      · simp [hfj]
    have htail : (ks.flatMap fun j => ts.filter fun t => f t == j) = ks.flatMap fun j => rest.filter fun t => f t == j := by
      rw [List.flatMap_def, List.flatMap_def, List.map_congr_left hsame]
    rw [List.flatMap_cons, htail]
    exact ((ih hks hrest).append_left _).trans (List.filter_append_perm _ ts)

/-- Two nested enumerations in either order. -/
theorem flatMap_swap {α β γ : Type} (as : List α) (bs : List β) (f : α → β → List γ) :
    (as.flatMap fun a => bs.flatMap (f a)).Perm (bs.flatMap fun b => as.flatMap fun a => f a b) := by
  have h := Multiset.bind_bind (as : Multiset α) (bs : Multiset β) (f := fun a b => (f a b : Multiset γ))
  exact Multiset.coe_eq_coe.mp (by simpa using h)

/-- Reading a list at 0, 1, …, `n - 1`. -/
theorem filterMap_getElem? {α : Type} (ts : List α) (n : Nat) : (List.range n).filterMap (ts[·]?) = ts.take n := by
  induction n with
  | zero => rfl
  | succ n ih =>
    rw [List.range_succ, List.filterMap_append, ih, List.take_add_one]
    cases h : ts[n]? <;> simp [h]

/-- The threads of the groups that a table by group and lane gives. -/
theorem table_threads (n : Nat) (f : Nat → Nat → Option Thread) :
    (((List.range n).map fun j => lanes32.map (f j)).flatten.filterMap id)
      = (List.range n).flatMap fun j => lanes32.flatMap fun l => (f j l).toList := by
  simp [List.flatten_eq_flatMap, List.flatMap_map, List.filterMap_eq_flatMap_toList, List.flatMap_assoc]

/-- Runs of 32 hold the threads in their order. -/
theorem inGroups_threads (ts : List Thread) : (inGroups ts).flatten.filterMap id = ts := by
  have hrange : ∀ n : Nat, ((List.range n).flatMap fun j => lanes32.map fun l => 32 * j + l) = List.range (32 * n) := by
    intro n
    induction n with
    | zero => rfl
    | succ n ih => rw [List.range_succ, List.flatMap_append, ih, Nat.mul_succ, List.range_add]; simp [lanes32]
  have hflat : (inGroups ts).flatten.filterMap id = (List.range (32 * ((ts.length + 31) / 32))).filterMap (ts[·]?) := by
    rw [inGroups, ← hrange, List.filterMap_flatMap, List.filterMap_flatten]
    simp [List.flatMap_def, Function.comp_def, List.filterMap_map]
  rw [hflat, filterMap_getElem?]
  exact List.take_of_length_le (by omega)

theorem byKey_perm (ts : List Thread) : (byKey ts).Perm ts := List.mergeSort_perm ..

/-- The length of the longest list of a family is a bound of each. -/
theorem le_foldl_max (f : Nat → Nat) (ls : List Nat) (n : Nat) : n ≤ ls.foldl (fun n l => max n (f l)) n
    ∧ ∀ l ∈ ls, f l ≤ ls.foldl (fun n l => max n (f l)) n := by
  induction ls generalizing n with
  | nil => simp
  | cons l ls ih =>
    obtain ⟨hn, hls⟩ := ih (max n (f l))
    refine ⟨(Nat.le_max_left ..).trans hn, ?_⟩
    intro k hk
    rcases List.mem_cons.mp hk with rfl | hk
    · exact (Nat.le_max_right ..).trans hn
    · exact hls k hk

/-- A `sift` to home lanes: lane by lane, the column of a lane goes to its lanes of the new groups. -/
theorem regroup_home_perm (g : Nat) {ts : List Thread} (h : ∀ t ∈ ts, t.lane < 32) :
    ((regroup true g ts).flatten.filterMap id).Perm ts := by
  let col (l : Nat) : List Thread := (byKey ts).filter fun t => t.lane == l
  let most := lanes32.foldl (fun n l => max n (col l).length) 0
  have hcol : ∀ l ∈ lanes32, ((List.range most).flatMap fun j => ((col l)[j]?).toList) = col l := by
    intro l hl
    rw [← List.filterMap_eq_flatMap_toList, filterMap_getElem?]
    exact List.take_of_length_le ((le_foldl_max (fun l => (col l).length) lanes32 0).2 l hl)
  calc (regroup true g ts).flatten.filterMap id
      = (List.range most).flatMap fun j => lanes32.flatMap fun l => ((col l)[j]?).toList := table_threads ..
    _ |>.Perm (lanes32.flatMap fun l => (List.range most).flatMap fun j => ((col l)[j]?).toList) := flatMap_swap ..
    _ = lanes32.flatMap col := by rw [List.flatMap_def, List.flatMap_def, List.map_congr_left hcol]
    _ |>.Perm (byKey ts) := flatMap_filter_perm Thread.lane List.nodup_range
          fun t ht => List.mem_range.mpr (h t ((byKey_perm ts).mem_iff.mp ht))
    _ |>.Perm ts := byKey_perm ts

/-- Any other `sift`: key by key where that needs no more groups than there were, in key order without gaps elsewhere. -/
theorem regroup_away_perm (g : Nat) (ts : List Thread) : ((regroup false g ts).flatten.filterMap id).Perm ts := by
  simp only [regroup, Bool.false_eq_true, if_false]
  split
  · have hpacked : (((keysOf (byKey ts)).map fun k => inGroups ((byKey ts).filter fun t => t.key == k)).flatten.flatten.filterMap id)
        = (keysOf (byKey ts)).flatMap fun k => (byKey ts).filter fun t => t.key == k := by
      rw [List.flatten_flatten, List.filterMap_flatten, List.map_map, List.map_map, List.flatMap_def]
      exact congrArg List.flatten (List.map_congr_left fun k _ => inGroups_threads _)
    rw [hpacked]
    exact (flatMap_filter_perm Thread.key (keysOf_nodup _) fun t ht => key_mem_keysOf ht).trans (byKey_perm ts)
  · rw [inGroups_threads]
    exact byKey_perm ts

/-! ### Waiting at a sift, and its commit (R37, R57, R270) -/

theorem sift_waits {s : State} (home : Bool) (a : Opnd) (n : Nat) (h : siftSlot s s.g = some s.slot) :
    exec (.sift home a n) s = .next (setCur s ((cur s).pause .sift)) := if_pos h

theorem sift_faults {s : State} (home : Bool) (a : Opnd) (n : Nat) (h : siftSlot s s.g ≠ some s.slot) :
    Faults (.sift home a n) s (.plain 0x207 0) := by
  refine issue_faults ?_
  show execSift home a n s = _
  rw [execSift, if_neg h]

theorem brsSift_waits {s : State} {c : Opnd} {x : Word} (off : Word) (h : uni s 4 c = .ok x) (hstep : s.g.stepping = none) :
    exec (.brsSift c off) s = .next (setCur s ((cur s).pause .branchSift)) := by
  show execBrsSift c off s = _
  simp [execBrsSift, h, hstep, pauseAs]

section commit
variable {s t : State} {i : Instr} (ha : allArrived s = true) (hp : ∀ g ∈ participants s, g.halted = false ∧ g.stopped = false)
  (hg : siftAgrees s (participants s) = true) (hq : siftQuiet s (participants s) = true)
  (hi : instrAt s (s.g.slot (waitingSlot s.g)) = some i) (ht : siftNow s (participants s) i = some t)
include ha hp hg hq hi ht

/-- Where every participant has arrived at one instruction, storage alone decides whether the sift takes effect. -/
theorem exec_siftCommit : exec .siftCommit s = maySome ((some t).filter (siftFits s.g.core)) := by
  have hany : (participants s).any (fun g => g.halted || g.stopped) = false := by
    rw [List.any_eq_false]
    intro g hm
    obtain ⟨hh, hst⟩ := hp g hm
    simp [hh, hst]
  show execSiftCommit s = _
  simp [execSiftCommit, ha, hany, hg, hq, hi, ht]

theorem siftCommit_fits (h : siftFits s.g.core t = true) : exec .siftCommit s = .next t := by
  rw [exec_siftCommit ha hp hg hq hi ht, Option.filter_some_pos h]
  rfl

theorem siftCommit_waits (h : siftFits s.g.core t = false) : exec .siftCommit s = .refused .notEnabled := by
  rw [exec_siftCommit ha hp hg hq hi ht, Option.filter_some_neg (by simp [h])]
  rfl

end commit

/-- Settles O31: waiting and commit case by case, and the permutation of the threads for each form of a regrouping. -/
theorem sifts : Obligations.Sifts := by
  refine ⟨⟨?_, ?_⟩, ?_⟩
  · intro s home a c n off x
    exact ⟨sift_waits home a n, sift_faults home a n, brsSift_waits off⟩
  · intro s t i ha hp hg hq hi ht
    exact ⟨siftCommit_fits ha hp hg hq hi ht, siftCommit_waits ha hp hg hq hi ht⟩
  · intro home g ts h
    cases home with
    | true => exact regroup_home_perm g h
    | false => exact regroup_away_perm g ts

end Sys2Proof.Machine
end

section
namespace Sys2Proof.Machine

/-! ### The end of a team that is not the team of the group in focus (R25, R109)

`leaveCluster` visits the members of a cluster one by one, and goes back to the group in focus after each visit. Where the group
in focus belongs to another member than the team in focus, that member is in focus at the end, so the outcome of its own
`relaunch` is what `TEAM_END` decides on. -/

/-- The team that ends, with a second member of its cluster; it is to start again. -/
def endingTeam : Team :=
  { Team.idle with ref := { vd := 0, serial := 1 }, cluster := some (0, 0), ending := true, relaunch := true }

/-- The second member of the cluster: it is not to start again. -/
def otherMember : Team := { Team.idle with ref := { vd := 0, serial := 2 }, cluster := some (0, 1) }

/-- The ending team is in focus beside a group of the other member. -/
def mixedFocus : State :=
  { State.reset with
    g := { Group.idle with ref := { team := otherMember.ref, gid := 0 } }
    team := endingTeam, teams := [otherMember], vd := { Device.idle with alive := true } }

/-- The teams that wait for placement after a step. -/
def waitingAfter : Out → List TRef
  | .next s => s.vd.waiting
  | _ => []

theorem mixedFocus_canEnd : canEnd mixedFocus mixedFocus.team = true := by decide

theorem mixedFocus_waitingAfter : waitingAfter (exec (.teamEnd endingTeam.ref) mixedFocus) = [] := by
  show waitingAfter (execTeamEnd endingTeam.ref mixedFocus) = []
  decide

/-- Refutes O47: its clause on TEAM_END admits a state whose group in focus belongs to another team than the one in focus. In
`mixedFocus` both are members of one cluster; the team that ends is to be started again (R401), but leaving the cluster moves the
focus to the other member, and the ended team does not come to wait for placement. -/
theorem not_teamsComeAndGo : ¬ Obligations.TeamsComeAndGo := by
  intro h
  obtain ⟨-, -, hend, -⟩ := h
  obtain ⟨v, hx, -, -, hagain⟩ := hend mixedFocus mixedFocus endingTeam.ref rfl mixedFocus_canEnd
  obtain ⟨hwaits, -⟩ := hagain rfl
  have hnone := mixedFocus_waitingAfter
  rw [hx] at hnone
  rw [waitingAfter] at hnone
  rw [hnone] at hwaits
  exact List.not_mem_nil hwaits

end Sys2Proof.Machine
end

section
namespace Sys2Proof.Machine

/-! ### The device of a load or of a command in focus -/

theorem focusDevice_mem {s u : State} {n : Nat} (h : focusDevice s n = some u) : u.mem = s.mem := by
  unfold focusDevice at h
  split at h
  · rw [← Option.some.inj h]
  · obtain ⟨r, -, rfl⟩ := Option.map_eq_some_iff.mp h
    rfl

theorem deviceOnly_mem {s u : State} {n : Nat} (h : deviceOnly s n = some u) : u.mem = s.mem :=
  focusDevice_mem (s := stash s) h

theorem focusLoad_mem {s u : State} {h : HRef} {l : Load} (hf : focusLoad s h = some (u, l)) : u.mem = s.mem := by
  unfold focusLoad at hf
  obtain ⟨t, ht, hl⟩ := Option.bind_eq_some_iff.mp hf
  obtain ⟨x, -, hx⟩ := Option.map_eq_some_iff.mp hl
  obtain ⟨rfl, rfl⟩ := Prod.mk.inj hx
  exact deviceOnly_mem ht

/-! ### Intake packets (R149, R181) -/

section packet
variable {s u : State} {h : HRef} {l : Load} {k : Nat} {bs data rs cs : List Byte}
  (hf : focusLoad s h = some (u, l)) (ht : l.tensors[k]? = some bs) (hr : ∃ r ∈ l.reads, r.tensor = k)
  (hk : Tensor.takes ⟨bs⟩ data rs cs = true)
include hf ht hr hk

/-- A packet that answers a read of its tensor is taken: what writing it gives decides how the load goes on. -/
theorem exec_intakePacket : exec (.intakePacket h k data rs cs) s =
    let r := writeTensor u ⟨bs⟩ data rs cs
    .next (if r.2.1 ≠ 0 then resolveLoad r.1 l (statusWord 3 false false (l.sb || r.2.2.2) (l.qs || r.2.2.1) r.2.1)
      else putLoad r.1 { l with
        reads := l.reads.filter fun q => q.tensor != k, done := sadd l.done k, qs := l.qs || r.2.2.1, sb := l.sb || r.2.2.2 }) := by
  have hany : (l.reads.any fun r => r.tensor == k) = true := by
    obtain ⟨r, hm, he⟩ := hr
    exact List.any_eq_true.mpr ⟨r, hm, beq_iff_eq.mpr he⟩
  show execIntakePacket h k data rs cs s = _
  simp only [execIntakePacket, hf, Option.bind_some, ht, hany, hk, Bool.not_true, Bool.or_self, Bool.false_eq_true, if_false]
  split <;> rfl

theorem intakePacket_written (h0 : (writeTensor u ⟨bs⟩ data rs cs).2.1 = 0) :
    exec (.intakePacket h k data rs cs) s =
      let r := writeTensor u ⟨bs⟩ data rs cs
      .next (putLoad r.1 { l with
        reads := l.reads.filter fun q => q.tensor != k, done := sadd l.done k, qs := l.qs || r.2.2.1, sb := l.sb || r.2.2.2 }) := by
  rw [exec_intakePacket hf ht hr hk]
  exact congrArg Host.Outcome.next (if_neg (not_not.mpr h0))

theorem intakePacket_failed (h0 : (writeTensor u ⟨bs⟩ data rs cs).2.1 ≠ 0) :
    exec (.intakePacket h k data rs cs) s =
      let r := writeTensor u ⟨bs⟩ data rs cs
      .next (resolveLoad r.1 l (statusWord 3 false false (l.sb || r.2.2.2) (l.qs || r.2.2.1) r.2.1)) := by
  rw [exec_intakePacket hf ht hr hk]
  exact congrArg Host.Outcome.next (if_pos h0)

end packet

/-! ### The commit of a load (R183) -/

theorem mget?_mins_same {α : Type} (m : SMap α) (n : Nat) (x : α) : mget? (mins m n x) n = some x := by
  induction m with
  | nil => simp [mins, mget?]
  | cons e t ih =>
    obtain ⟨k, v⟩ := e
    simp only [mins]
    split
    · simp [mget?]
    · split
      · simp [mget?]
      next hk => simpa [mget?, hk] using ih

theorem resolveLoad_mem (s : State) (l : Load) (w : Word) : (resolveLoad s l w).mem = s.mem := rfl

theorem resolveLoad_weights (s : State) (l : Load) (w : Word) : (resolveLoad s l w).vd.weights = s.vd.weights := rfl

theorem resolveLoad_statuses (s : State) (l : Load) (w : Word) :
    (resolveLoad s l w).vd.statuses = (l.handle, w) :: s.vd.statuses := rfl

/-- What stands for a set once a load has been committed to it. -/
def nextWeights (d : Device) (l : Load) : Weights :=
  { gen := (((mget? d.weights l.set).map (·.gen)).getD 0 + 1) % 2 ^ 32, start := l.start, len := l.len }

/-- The device once a load has been committed: the generation that it replaces stays while a grid pins it. -/
def withWeights (d : Device) (l : Load) : Device :=
  { d with
    weights := mins d.weights l.set (nextWeights d l)
    oldWeights := keepPinned d ((((mget? d.weights l.set).map fun o => (l.set, o)).toList) ++ d.oldWeights) }

theorem exec_intakeCommit {s u : State} {h : HRef} {l : Load} (hf : focusLoad s h = some (u, l))
    (hd : ∀ k < l.tensors.length, k ∈ l.done) : exec (.intakeCommit h) s
      = .next (resolveLoad { u with vd := withWeights u.vd l } l (statusWord 1 false false l.sb l.qs 0)) := by
  have hall : (List.range l.tensors.length).all l.done.contains = true :=
    List.all_eq_true.mpr fun k hk => List.contains_iff_mem.mpr (hd k (List.mem_range.mp hk))
  show execIntakeCommit h s = _
  simp only [execIntakeCommit, hf, Option.bind_some, if_pos hall]
  rfl

/-! ### A new code version (R46, R47) -/

theorem putEntry_codes (s : State) (a : Nat) (w : Dword) : (putEntry s a w).vd.codes = s.vd.codes := rfl

theorem mapFrom_codes (va lvl entry : Nat) (ls : List (Nat × Nat × Nat)) (s : State) (tbl : Nat) :
    (mapFrom s va lvl entry ls tbl).vd.codes = s.vd.codes := by
  induction ls generalizing s tbl with
  | nil => rfl
  | cons e rest ih =>
    simp only [mapFrom]
    split
    · rfl
    · split
      · exact ih ..
      · exact ih ..

theorem mapRange_codes (s : State) (va pa len perm : Nat) : (mapRange s va pa len perm).vd.codes = s.vd.codes :=
  List.foldlRecOn (motive := fun t : State => t.vd.codes = s.vd.codes) _ _ rfl
    fun _ h _ _ => (mapFrom_codes ..).trans h

theorem putRun_vd (s : State) (pa : Nat) (bs : List Byte) : (putRun s pa bs).vd = s.vd :=
  List.foldlRecOn (motive := fun t : State => t.vd = s.vd) _ _ rfl fun _ h _ _ => (clearSpan_vd ..).trans h

/-- A code version is added to those that the device has. -/
theorem addCode_codes {s v : State} {obj : CodeObj} {ns : List Nat} (h : addCode s obj ns = some v) :
    v.vd.codes.length = s.vd.codes.length + 1 := by
  obtain ⟨pa, -, rfl⟩ := Option.map_eq_some_iff.mp h
  show (mapRange ..).vd.codes.length + 1 = _
  rw [mapRange_codes]
  show (putRun ..).vd.codes.length + 1 = _
  rw [putRun_vd]
  rfl

theorem exec_profileRetranslation {s u : State} {n kernel : Nat} {obj : CodeObj} {k : KernelDecl} {old : Code × KernelDecl}
    (hd : deviceOnly s n = some u) (hk : (markObject obj).kernels = [k]) (ho : kernelOf u.vd kernel = some old)
    (hok : kernelOk u.vd.sumpLimit obj.words k = true) (hp : k.params = old.2.params) :
    exec (.profileRetranslation n kernel obj) s = maySome (addCode u (markObject obj) [kernel]) := by
  have hok : kernelOk u.vd.sumpLimit (markObject obj).words k = true := hok
  show execProfileRetranslation n kernel obj s = _
  simp [execProfileRetranslation, hd, hk, ho, hok, hp]

/-! ### Commands for a device (R344, R353) -/

/-- The device in focus with another code object in progress. -/
def withAssembly (u : State) (a : Option Assembly) : State := { u with vd := { u.vd with assembling := a } }

/-- The load that a well-formed payload asks for, with the reads that it issues. -/
def askedLoad (u : State) (m : CmdHdr) (p : List Byte) : Load :=
  let l := newLoad m p (newHandle u 0 3).2
  { l with reads := if loadRefused (newHandle u 0 3).1 l then [] else readsOf (newHandle u 0 3).1 l }

/-- The device holds the load and has answered with its handle. -/
def loadAnswered (u : State) (m : CmdHdr) (p : List Byte) : State :=
  let q := (newHandle u 0 3).1
  answer { q with vd := { q.vd with loads := q.vd.loads ++ [askedLoad u m p] } } m 5 0 (leBytes 8 (newHandle u 0 3).2.toNat)

section command
variable {s w u : State} {m : CmdHdr} {p : List Byte} (hh : hears s = true) (hs : s.failed = false)
  (hd : deviceOnly s m.vd.toNat = some w) (hc : headerClean m p = true) (hu : meter w 6 (16 + p.length) = u)
include hh hs hd hc hu

/-- A clean command for a device that exists is performed with the device in focus, which has received its bytes. -/
theorem forDevice_performed (cmd : Nat) (f : State → Out) : forDevice m cmd p true s f = f u := by
  simp [forDevice, hh, hs, hd, hc, hu]

theorem loadCode_refused (obj : CodeObj) (ha : addSegment u.vd.assembling p = none) :
    exec (.loadCode m p obj) s = .next (answer (withAssembly u none) m 3 3 []) := by
  show execLoadCode m p obj s = _
  rw [execLoadCode, forDevice_performed hh hs hd hc hu]
  simp only [ha, withAssembly]

theorem loadCode_kept (obj : CodeObj) {a : Assembly} (ha : addSegment u.vd.assembling p = some a)
    (hlast : byteField p 12 4 ≠ 1) : exec (.loadCode m p obj) s = .next (answer (withAssembly u (some a)) m 3 0 []) := by
  show execLoadCode m p obj s = _
  rw [execLoadCode, forDevice_performed hh hs hd hc hu]
  simp only [ha, if_neg hlast, withAssembly]

theorem loadCode_rejected {obj : CodeObj} {a : Assembly} (ha : addSegment u.vd.assembling p = some a)
    (hlast : byteField p 12 4 = 1) (ho : loadObject (withAssembly u none) obj = none) :
    exec (.loadCode m p obj) s = .next (answer (withAssembly u none) m 3 7 []) := by
  rw [withAssembly] at ho ⊢
  show execLoadCode m p obj s = _
  rw [execLoadCode, forDevice_performed hh hs hd hc hu]
  simp only [ha, if_pos hlast, ho]

theorem loadCode_loaded {obj : CodeObj} {a : Assembly} (ha : addSegment u.vd.assembling p = some a)
    (hlast : byteField p 12 4 = 1) {v : State} {ns : List Nat} (ho : loadObject (withAssembly u none) obj = some (v, ns)) :
    exec (.loadCode m p obj) s = .next (answer v m 3 0 (kernelNumbers ns)) := by
  rw [withAssembly] at ho
  show execLoadCode m p obj s = _
  rw [execLoadCode, forDevice_performed hh hs hd hc hu]
  simp only [ha, if_pos hlast, ho]

theorem loadWeights_malformed (hw : weightsFormed u p = false) :
    exec (.loadWeights m p) s = .next (answer u m 5 3 []) := by
  show execLoadWeights m p s = _
  rw [execLoadWeights, forDevice_performed hh hs hd hc hu]
  simp only [hw, Bool.not_false, if_true]

theorem loadWeights_formed (hw : weightsFormed u p = true) :
    exec (.loadWeights m p) s = .next (if loadRefused (loadAnswered u m p) (askedLoad u m p)
      then resolveLoad (loadAnswered u m p) (askedLoad u m p) (statusWord 3 false false false false 0x505)
      else loadAnswered u m p) := by
  show execLoadWeights m p s = _
  rw [execLoadWeights, forDevice_performed hh hs hd hc hu]
  simp only [hw, Bool.not_true, Bool.false_eq_true, if_false]
  rfl

theorem loadWeights_taken (hw : weightsFormed u p = true)
    (hr : loadRefused (loadAnswered u m p) (askedLoad u m p) = false) :
    exec (.loadWeights m p) s = .next (loadAnswered u m p) := by
  rw [loadWeights_formed hh hs hd hc hu hw, hr]
  rfl

theorem loadWeights_refused (hw : weightsFormed u p = true)
    (hr : loadRefused (loadAnswered u m p) (askedLoad u m p) = true) :
    exec (.loadWeights m p) s
      = .next (resolveLoad (loadAnswered u m p) (askedLoad u m p) (statusWord 3 false false false false 0x505)) := by
  rw [loadWeights_formed hh hs hd hc hu hw, hr]
  rfl

end command

/-- Settles O53: a lemma for each outcome of a packet, of a commit, of a new version and of the two commands. -/
theorem loadsAndCode : Obligations.LoadsAndCode := by
  refine ⟨?_, ?_, ?_, ?_⟩
  · intro s u h l k bs data rs cs hf ht hr hk r
    exact ⟨intakePacket_written hf ht hr hk, intakePacket_failed hf ht hr hk⟩
  · intro s u h l hf hd
    refine ⟨_, nextWeights u.vd l, exec_intakeCommit hf hd, ?_, rfl, rfl, rfl, ?_, ?_⟩
    · rw [resolveLoad_weights]
      exact mget?_mins_same ..
    · rw [resolveLoad_statuses]
      rfl
    · rw [resolveLoad_mem]
      show u.mem = s.mem
      exact focusLoad_mem hf
  · intro s u v n kernel obj k old hd hk ho hok hp hv
    refine ⟨?_, addCode_codes hv⟩
    rw [exec_profileRetranslation hd hk ho hok hp, hv, maySome]
  · intro s w m p obj hh hs hd hc
    generalize hu : meter w 6 (16 + p.length) = u
    refine ⟨?_, ?_, ?_, ?_, ?_⟩
    · exact loadCode_refused hh hs hd hc hu obj
    · exact fun a => loadCode_kept hh hs hd hc hu obj
    · exact fun a ha hlast => ⟨loadCode_rejected hh hs hd hc hu ha hlast, fun v ns => loadCode_loaded hh hs hd hc hu ha hlast⟩
    · exact loadWeights_malformed hh hs hd hc hu
    · exact fun hw => ⟨loadWeights_taken hh hs hd hc hu hw, loadWeights_refused hh hs hd hc hu hw⟩

end Sys2Proof.Machine
end

section
/-!
PROOFS. O4: what an operand without one value raises, in each mould of instruction that reads one.
-/
namespace Sys2Proof.Machine

/-! ### Operands without one value (R53, R375) -/

section shapeless
variable {s : State} {o : Opnd} {pr : Bool}

theorem isUniform_iff_code (t : Tag) : t.isUniform = true ↔ ¬ (t.code = 0 ∨ t.code = 2) := by
  cases t with
  | general => exact iff_of_false Bool.noConfusion (not_not.mpr (.inl rfl))
  | affine => exact iff_of_false Bool.noConfusion (not_not.mpr (.inr rfl))
  | uniform => exact iff_of_true rfl (show ¬ (1 = 0 ∨ 1 = 2) by decide)
  | zero => exact iff_of_true rfl (show ¬ (3 = 0 ∨ 3 = 2) by decide)

theorem uniReg_shapeless {n : Nat} (h : (readTag s n).code = 0 ∨ (readTag s n).code = 2) (k : Nat) :
    uniReg s k n = .error (.plain 0x200 k) :=
  if_neg fun hu => (isUniform_iff_code _).mp hu h

theorem uniReg_uniform {n : Nat} (h : ¬ ((readTag s n).code = 0 ∨ (readTag s n).code = 2)) (k : Nat) :
    uniReg s k n = .ok (readTag s n).value :=
  if_pos ((isUniform_iff_code _).mpr h)

theorem uni_shapeless (h : Shapeless s false o) (k : Nat) : uni s k o = .error (.plain 0x200 k) := by
  cases o with
  | v n => exact uniReg_shapeless (by simpa [Shapeless] using h) k
  | lane | tid => rfl
  | _ => exact h.elim

/-- The value of an operand that has one. -/
def oneValue (s : State) : Opnd → Word
  | .v n => (readTag s n).value
  | o => srcLane s o 0

theorem uni_shaped (h : ¬ Shapeless s false o) (k : Nat) : uni s k o = .ok (oneValue s o) := by
  cases o with
  | v n => exact uniReg_uniform (by simpa [Shapeless] using h) k
  | lane | tid => exact (h trivial).elim
  | _ => rfl

theorem uniPair_shapeless (h : Shapeless s true o) (k : Nat) : uniPair s k o = .error (.plain 0x200 k) := by
  cases o with
  | v n =>
    show (uniReg s k n).bind (fun lo => (uniReg s k (n + 1)).bind fun hi => .ok (hi ++ lo)) = _
    by_cases hlo : (readTag s n).code = 0 ∨ (readTag s n).code = 2
    · rw [uniReg_shapeless hlo]; rfl
    · have hhi : (readTag s (n + 1)).code = 0 ∨ (readTag s (n + 1)).code = 2 := by
        simp only [Shapeless, true_and] at h
        tauto
      rw [uniReg_uniform hlo, uniReg_shapeless hhi]; rfl
  | lane | tid => rfl
  | _ => exact h.elim

theorem uniPair_shaped (h : ¬ Shapeless s true o) (k : Nat) : ∃ x, uniPair s k o = .ok x := by
  cases o with
  | v n =>
    simp only [Shapeless, true_and, not_or] at h
    obtain ⟨h0, h2, h0', h2'⟩ := h
    show ∃ x, (uniReg s k n).bind (fun lo => (uniReg s k (n + 1)).bind fun hi => .ok (hi ++ lo)) = .ok x
    rw [uniReg_uniform (by tauto), uniReg_uniform (by tauto)]
    exact ⟨_, rfl⟩
  | lane | tid => exact (h trivial).elim
  | _ => exact ⟨_, rfl⟩

theorem uniW_shapeless (h : Shapeless s pr o) (k : Nat) : uniW s k pr o = .error (.plain 0x200 k) := by
  cases pr
  · rw [uniW, if_neg (by simp), uni_shapeless h]; rfl
  · exact uniPair_shapeless h k

theorem uniW_shaped (h : ¬ Shapeless s pr o) (k : Nat) : ∃ x, uniW s k pr o = .ok x := by
  cases pr
  · rw [uniW, if_neg (by simp), uni_shaped h]; exact ⟨_, rfl⟩
  · exact uniPair_shaped h k

end shapeless

/-! ### The first source without one value is the one that faults -/

section moulds
variable {s : State} {i : Instr} {a b d : Opnd} {pa pb pd pr : Bool} {e : Raise}

theorem scaIssue_faults {r : Except Raise Dword} (hx : exec i s = scaIssue i d pd r s) (h : r = .error e) : Faults i s e :=
  issue_faults (by rw [hx, h]; rfl)

theorem scaFp_faults {r : Except Raise (Dword × FpFlags)} (hx : exec i s = scaFp i d pd r s) (h : r = .error e) : Faults i s e :=
  issue_faults (by rw [hx, h]; rfl)

theorem control_faults {r : Except Raise State} (hx : exec i s = control i r s) (h : r = .error e) : Faults i s e := by
  show exec i s = _
  rw [hx, h]
  rfl

/-- What reads a source that has no one value raises that source's fault. -/
theorem bind_shapeless {α : Type} {k : Nat} (h : Shapeless s pr a) (f : Dword → Except Raise α) :
    (uniW s k pr a).bind f = .error (.plain 0x200 k) := by rw [uniW_shapeless h]; rfl

theorem map_shapeless {α : Type} {k : Nat} (h : Shapeless s pr a) (f : Dword → α) :
    (uniW s k pr a).map f = .error (.plain 0x200 k) := by rw [uniW_shapeless h]; rfl

/-- A source that has one value leaves the fault to what is read after it. -/
theorem bind_shaped {α : Type} {k : Nat} (h : ¬ Shapeless s pr a) {f : Dword → Except Raise α} (hf : ∀ x, f x = .error e) :
    (uniW s k pr a).bind f = .error e := by
  obtain ⟨x, hx⟩ := uniW_shaped h k
  rw [hx]
  exact hf x

theorem uni_bind_shapeless {α : Type} {k : Nat} (h : Shapeless s false a) (f : Word → Except Raise α) :
    (uni s k a).bind f = .error (.plain 0x200 k) := by rw [uni_shapeless h]; rfl

theorem uni_map_shapeless {α : Type} {k : Nat} (h : Shapeless s false a) (f : Word → α) :
    (uni s k a).map f = .error (.plain 0x200 k) := by rw [uni_shapeless h]; rfl

theorem uni_bind_shaped {α : Type} {k : Nat} (h : ¬ Shapeless s false a) {f : Word → Except Raise α} (hf : ∀ x, f x = .error e) :
    (uni s k a).bind f = .error e := by
  rw [uni_shaped h]
  exact hf _

theorem sca2_second {f : Dword → Dword → Dword} (ha : ¬ Shapeless s pa a) (hb : Shapeless s pb b) :
    sca2 s pa pb a b f = .error (.plain 0x200 2) := bind_shaped ha fun _ => map_shapeless hb _

theorem scaFp2_second {f : FpFmt → Fv → Fv → Nat × FpFlags} (ha : ¬ Shapeless s false a) (hb : Shapeless s false b) :
    scaFp2 s a b f = .error (.plain 0x200 2) := uni_bind_shaped ha fun _ => uni_map_shapeless hb _

end moulds

/-! ### The forms of one source, two, three, and a source and a literal -/

theorem shapeFaults1_sca {mk : Opnd → Opnd → Instr} {pa pd : Bool} {f : Dword → Dword}
    (hx : ∀ s d a, exec (mk d a) s = scaIssue (mk d a) d pd (sca1 s pa a f) s) : ShapeFaults1 mk pa :=
  fun s d a ha => scaIssue_faults (hx s d a) (map_shapeless ha f)

/-- The same where the source is a single register read on its own. -/
theorem shapeFaults1_uni {mk : Opnd → Opnd → Instr} {f : State → Word → Dword}
    (hx : ∀ s d a, exec (mk d a) s = scaIssue (mk d a) d false ((uni s 1 a).map (f s)) s) : ShapeFaults1 mk false :=
  fun s d a ha => scaIssue_faults (hx s d a) (uni_map_shapeless ha (f s))

theorem shapeFaults2_sca {mk : Opnd → Opnd → Opnd → Instr} {pa pb pd : Bool} {f : Dword → Dword → Dword}
    (hx : ∀ s d a b, exec (mk d a b) s = scaIssue (mk d a b) d pd (sca2 s pa pb a b f) s) : ShapeFaults2 mk pa pb :=
  fun s d a b => ⟨fun ha => scaIssue_faults (hx s d a b) (bind_shapeless ha _),
    fun ha hb => scaIssue_faults (hx s d a b) (sca2_second ha hb)⟩

theorem shapeFaults2_scaFp {mk : Opnd → Opnd → Opnd → Instr} {f : State → FpFmt → Fv → Fv → Nat × FpFlags}
    (hx : ∀ s d a b, exec (mk d a b) s = scaFp (mk d a b) d false (scaFp2 s a b (f s)) s) : ShapeFaults2 mk false false :=
  fun s d a b => ⟨fun ha => scaFp_faults (hx s d a b) (uni_bind_shapeless ha _),
    fun ha hb => scaFp_faults (hx s d a b) (scaFp2_second ha hb)⟩

theorem shapeFaults3_sca {mk : Opnd → Opnd → Opnd → Opnd → Instr} {pr pd : Bool} {f : Dword → Dword → Dword → Dword}
    (hx : ∀ s d a b c, exec (mk d a b c) s = scaIssue (mk d a b c) d pd (sca3 s pr a b c f) s) : ShapeFaults3 mk pr :=
  fun s d a b c => ⟨fun ha => scaIssue_faults (hx s d a b c) (bind_shapeless ha _),
    fun ha hb => scaIssue_faults (hx s d a b c) (bind_shaped ha fun _ => bind_shapeless hb _),
    fun ha hb hc => scaIssue_faults (hx s d a b c) (bind_shaped ha fun _ => bind_shaped hb fun _ => map_shapeless hc _)⟩

theorem shapeFaultsI_sca {mk : Opnd → Opnd → Word → Instr} {f : Dword → Dword → Dword}
    (hx : ∀ s d a imm, exec (mk d a imm) s = scaIssue (mk d a imm) d false (scaImm s a imm f) s) : ShapeFaultsI mk :=
  fun s d a imm ha => scaIssue_faults (hx s d a imm) (map_shapeless ha _)

theorem shapeFaultsI_scaFp {mk : Opnd → Opnd → Word → Instr} {f : State → FpFmt → Fv → Fv → Nat × FpFlags}
    (hx : ∀ s d a imm, exec (mk d a imm) s = scaFp (mk d a imm) d false (scaFpI s a imm (f s)) s) : ShapeFaultsI mk :=
  fun s d a imm ha => scaFp_faults (hx s d a imm) (uni_map_shapeless ha _)

theorem sCmp_shapeFaults (ty : Ty) (cc : Cond) : ShapeFaults2 (.sCmp ty cc) (ty.regs == 2) (ty.regs == 2) :=
  fun _ _ _ _ => ⟨fun ha => scaFp_faults rfl (bind_shapeless ha _),
    fun ha hb => scaFp_faults rfl (bind_shaped ha fun _ => map_shapeless hb _)⟩

theorem sFma_shapeFaults (m : Rnd) : ShapeFaults3 (.sFma m) false :=
  fun _ _ _ _ _ => ⟨fun ha => scaFp_faults rfl (uni_bind_shapeless ha _),
    fun ha hb => scaFp_faults rfl (uni_bind_shaped ha fun _ => uni_bind_shapeless hb _),
    fun ha hb hc => scaFp_faults rfl (uni_bind_shaped ha fun _ => uni_bind_shaped hb fun _ => uni_map_shapeless hc _)⟩

/-! ### Member masks (R263, R375) -/

section members
variable {s : State} {c : Opnd}

theorem members_shapeless (h : Shapeless s false c) (hc : c ≠ .none) : members s c = .error (.plain 0x200 3) := by
  rw [members, if_neg hc, uni_bind_shapeless h]

theorem members_missing {m : Word} (h : uni s 3 c = .ok m) (hc : c ≠ .none) (hm : execMask s &&& ~~~m ≠ 0) :
    members s c = .error { Raise.plain 0x202 0 with mask := execMask s &&& ~~~m } := by
  rw [members, if_neg hc, h]
  exact if_pos hm

/-- An instruction that raises what its member set raises faults as R263 has it. -/
theorem memberFaults_of {mk : Opnd → Instr}
    (h : execMask s ≠ 0 → ∀ c e, members s c = .error e → Faults (mk c) s e) : MemberFaults mk s :=
  fun c hon hc => ⟨fun hs => h hon c _ (members_shapeless hs hc), fun _ hu hm => h hon c _ (members_missing hu hc hm)⟩

theorem memberFaults_cross {mk : Opnd → Instr} {idle : Word}
    {f : Opnd → Option Word → Except Raise (List RegWrite × Word × List FpFlags)}
    (hx : ∀ c, exec (mk c) s = crossIssue (mk c) c idle (f c) s) : MemberFaults mk s :=
  memberFaults_of fun hon c e he => issue_faults (by rw [hx c, crossIssue, if_neg hon, he]; rfl)

end members

section cmpct
variable {s : State} {w : SubW} {d a b : Opnd}

theorem cmpct_shapeFaults (hon : execMask s ≠ 0) (hb : Shapeless s false b) (c : Opnd) : FaultsAt (.cmpct w d a b c) s 2 :=
  issue_faults (by show execCmpct w d a b c s = _; rw [execCmpct, if_neg hon, uni_bind_shapeless hb])

theorem cmpct_memberFaults (hb : ¬ Shapeless s false b) : MemberFaults (.cmpct w d a b) s :=
  memberFaults_of fun hon c e he => issue_faults (by
    show execCmpct w d a b c s = _
    rw [execCmpct, if_neg hon, uni_bind_shaped hb fun _ => by rw [he]; rfl])

end cmpct

/-! ### Masks, branches and returns (R271 to R275) -/

theorem maskIssue_faults {s : State} {i : Instr} {r : Except Raise Word} {e : Raise} (hx : exec i s = maskIssue i r s)
    (h : r = .error e) : Faults i s e :=
  issue_faults (by rw [hx, h]; rfl)

theorem ret_shapeFaults {s : State} {a : Opnd} (h : Shapeless s true a) : FaultsAt (.ret a) s 4 :=
  control_faults (r := (uniPair s 4 a).map fun x => setCur s ((cur s).jump s.now (x.setWidth 57))) rfl
    (by rw [uniPair_shapeless h]; rfl)

/-- Settles O4: every form reads its sources in field order and raises what the first of them raises. -/
theorem operandFaults : Obligations.OperandFaults := by
  refine ⟨?values, ?sources, ?literals, ?masks, ?lanes⟩
  case values =>
    intro s k o pr
    refine ⟨fun h => uniW_shapeless h k, fun h => uniW_shaped h k, fun h => uni_shapeless h k, fun h => ?_⟩
    rw [uni_shaped h k]
    cases o <;> rfl
  case sources =>
    intro pr ty cc m cv co
    refine ⟨⟨?_, ?_, ?_, ?_, ?_, ?_, ?_, ?_, ?_, ?_, ?_, ?_, ?_, ?_, ?_, ?_⟩, ⟨?_, ?_, ?_, ?_, ?_⟩, ⟨?_, ?_, ?_, ?_, ?_⟩, ?_⟩
    iterate 13 exact shapeFaults2_sca fun _ _ _ _ => rfl
    · exact sCmp_shapeFaults ty cc
    iterate 2 exact shapeFaults2_scaFp fun _ _ _ _ => rfl
    iterate 4 exact shapeFaults3_sca fun _ _ _ _ _ => rfl
    · exact sFma_shapeFaults m
    iterate 4 exact shapeFaults1_sca fun _ _ _ => rfl
    · exact fun s d a ha => scaFp_faults rfl (map_shapeless ha _)
    · exact fun s d a b hb => scaIssue_faults rfl (uni_map_shapeless hb _)
  case literals =>
    refine ⟨?_, ?_, ?_, ?_, ?_, ?_, ?_, ?_, ?_, ?_, fun ts => ⟨?_, ?_, ?_⟩, fun dyn => ⟨?_, ?_⟩⟩
    iterate 13 exact shapeFaultsI_sca fun _ _ _ _ => rfl
    iterate 2 exact shapeFaultsI_scaFp fun _ _ _ _ => rfl
  case masks =>
    refine ⟨⟨?_, ?_, ?_, ?_, ?_⟩, fun s a off => ⟨fun ha => ⟨?_, ?_, ?_, ?_, ?_, ?_, ?_⟩, ret_shapeFaults⟩⟩
    iterate 3 exact shapeFaults2_sca fun _ _ _ _ => rfl
    iterate 2 exact shapeFaults1_uni fun _ _ _ => rfl
    · exact maskIssue_faults rfl (uni_bind_shapeless ha _)
    iterate 2 exact maskIssue_faults rfl (uni_map_shapeless ha _)
    iterate 3 exact control_faults rfl (uni_map_shapeless ha _)
    · exact control_faults rfl (uni_bind_shapeless ha _)
  case lanes =>
    intro s w d a b pr excl ty op sm vm
    refine ⟨?_, ?_, ?_, ?_, ?_, fun c hon hb => cmpct_shapeFaults hon hb c, cmpct_memberFaults⟩
    iterate 5 exact memberFaults_cross fun _ => rfl

end Sys2Proof.Machine
end

section
/-!
PROOFS. O5: the vector moulds of two sources and of a literal, and the tag rows of R52.
-/
namespace Sys2Proof.Machine

/-! ### Vector forms of two sources and of a literal (R52, R237) -/

theorem vecOut2_vec2 {mk : Opnd → Opnd → Opnd → Instr} {ty : Ty} {aff : Tag → Tag → Option Tag} {f : Dword → Dword → Dword}
    (hx : ∀ s d a b, exec (mk d a b) s = vec2 (mk d a b) ty aff d a b f s)
    (hp : ∀ d a b, perLane (mk d a b) = true) (hl : ∀ d a b, isLong (mk d a b) = false) : VecOut2 mk ty aff f := by
  intro s n a b hq
  rw [hx, vec2, vecIssue_quiet _ s _ hq (hp ..) (hl ..), applyWrites_vec]

theorem vecOutI_vecI {mk : Opnd → Opnd → Word → Instr} {aff : Tag → Tag → Option Tag} {f : Dword → Dword → Dword}
    (hx : ∀ s d a imm, exec (mk d a imm) s = vecI (mk d a imm) aff d a imm f s)
    (hp : ∀ d a imm, perLane (mk d a imm) = true) (hl : ∀ d a imm, isLong (mk d a imm) = false) : VecOutI mk aff f := by
  intro s n a imm hq
  rw [hx, vecI, vecIssue_quiet _ s _ hq (hp ..) (hl ..), applyWrites_vec]
  rfl

/-! ### The tag rows of `add`, `sub` and `mul` (R52) -/

theorem tagOfWrite_partly {s : State} (h : execMask s ≠ s.g.present) (aff : Option Tag) (all : Bool) (x : Word) :
    tagOfWrite s aff all x = .general := if_pos h

theorem tagOfWrite_whole {s : State} (h : execMask s = s.g.present) (all : Bool) (x : Word) :
    tagOfWrite s none all x = if all then uniTag x else .general := if_neg (not_not.mpr h)

/-- Settles O5: every form writes through the one mould of two sources, or through that of a source and a literal. -/
theorem vectorTwoSources : Obligations.VectorTwoSources := by
  refine ⟨?forms, ?literals, ⟨fun s aff all x h => tagOfWrite_partly h aff all x,
    fun s x h => ⟨tagOfWrite_whole h true x, tagOfWrite_whole h false x⟩, ?affine, ?both⟩⟩
  case forms =>
    intro ty
    refine ⟨?_, ?_, ?_, ?_, ?_, ?_, ?_, ?_, ?_, ?_, ?_, ?_⟩
    iterate 12 exact vecOut2_vec2 (fun _ _ _ _ => rfl) (fun _ _ _ => rfl) (fun _ _ _ => rfl)
  case literals =>
    intro ts
    refine ⟨?_, ?_, ?_, ?_, ?_, ?_, ?_, ?_, ?_, ?_⟩
    iterate 10 exact vecOutI_vecI (fun _ _ _ _ => rfl) (fun _ _ _ => rfl) (fun _ _ _ => rfl)
  case affine =>
    intro b d u
    refine ⟨?_, ?_, ?_, rfl⟩
    · simp [affineAdd, strideTag]
    · simp [affineAdd, strideTag]
    · simp [affineAdd, strideTag]
  case both => exact fun _ _ _ _ => rfl

end Sys2Proof.Machine
end

section
/-!
PROOFS. O9: moves, single lanes, bit planes, and `movx` through the writes of the register that its name stands for.
-/
namespace Sys2Proof.Machine

/-! ### Moves and single lanes (R245 to R248) -/

section moves
variable {s : State}

theorem exec_mov32 (hq : Quiet s) (n : Nat) (a : Opnd) : exec (.mov .b32 (.v n) a) s
    = .next (vecDone (.mov .b32 (.v n) a) s (putVec s s.g n (movTag s (srcTag s a)) (srcLane s a))) := by
  rw [← applyWrite_vec]
  exact vecIssue_quiet _ s [vecWrite s n (movTag s (srcTag s a)) (srcLane s a)] hq rfl rfl

/-- The upper half of a pair. -/
theorem append_high (x y : Word) : (((x ++ y : Dword) >>> 32).setWidth 32 : Word) = x := by
  apply BitVec.eq_of_toNat_eq
  have hx : x.toNat < 2 ^ 32 := x.isLt
  have hy : y.toNat < 2 ^ 32 := y.isLt
  rw [BitVec.toNat_setWidth, BitVec.toNat_ushiftRight, BitVec.toNat_append, ← Nat.shiftLeft_add_eq_or_of_lt hy,
    Nat.shiftLeft_eq, Nat.shiftRight_eq_div_pow]
  omega

theorem exec_mov64 (hq : Quiet s) (n m : Nat) : exec (.mov .n64 (.v n) (.v m)) s
    = .next (vecDone (.mov .n64 (.v n) (.v m)) s (putVec s (putVec s s.g n (movTag s (readTag s m)) (readV s m)) (n + 1)
      (movTag s (readTag s (m + 1))) (readV s (m + 1)))) := by
  have hhigh : readV s (m + 1) = fun l => ((srcPair s (.v m) l >>> 32).setWidth 32 : Word) := by
    funext l
    exact (append_high (readV s (m + 1) l) (readV s m l)).symm
  rw [← applyWrite_vec, ← applyWrite_vec, hhigh]
  exact vecIssue_quiet _ s [vecWrite s n (movTag s (readTag s m)) (readV s m), vecWrite s (n + 1) (movTag s (readTag s (m + 1)))
    fun l => (srcPair s (.v m) l >>> 32).setWidth 32] hq rfl rfl

theorem exec_movI (hq : Quiet s) (ts : Tsel) (n : Nat) (imm : Word) : exec (.movI ts (.v n) imm) s
    = .next (vecDone (.movI ts (.v n) imm) s (putVec s s.g n (movTag s (.uniform imm)) fun _ => imm)) := by
  show execMovI ts (.v n) imm s = _
  rw [execMovI, vecIssue_quiet _ s _ hq rfl rfl, ← applyWrite_vec]
  rfl

/-- A mask with a lane is not empty. -/
theorem ne_zero_of_laneOn {m : Word} {l : Nat} (h : laneOn m l = true) : m ≠ 0 := by
  rintro rfl
  simp [laneOn] at h

theorem exec_putl {a b : Opnd} {x l : Word} (hq : Quiet s) (ha : uni s 1 a = .ok x) (hb : uni s 2 b = .ok l) (n : Nat)
    (hon : laneOn (execMask s) (l.toNat % 32) = true) : exec (.putl (.v n) a b) s = .next (vecDone (.putl (.v n) a b) s
      (setVreg s.g n (w32 (2 ^ (l.toNat % 32))) (List.replicate 32 x) .general)) := by
  show execPutl (.v n) a b s = _
  rw [execPutl, if_neg (ne_zero_of_laneOn hon), ha, hb]
  exact (congrArg (fun ws => issue _ (.ok (Effect.write s ws)) s) (if_pos hon)).trans (vecIssue_quiet _ s _ hq rfl rfl)

theorem exec_putl_off {a b : Opnd} {x l : Word} (hq : Quiet s) (ha : uni s 1 a = .ok x) (hb : uni s 2 b = .ok l) (n : Nat)
    (hoff : laneOn (execMask s) (l.toNat % 32) = false) :
    exec (.putl (.v n) a b) s = .next (vecDone (.putl (.v n) a b) s s.g) := by
  have hnone : execPutl (.v n) a b s = issue (.putl (.v n) a b) (.ok (Effect.write s [])) s := by
    by_cases hz : execMask s = 0
    · rw [execPutl, if_pos hz]
      rfl
    · rw [execPutl, if_neg hz, ha, hb]
      exact congrArg (fun ws => issue _ (.ok (Effect.write s ws)) s) (if_neg (by simp [hoff]))
  exact hnone.trans (vecIssue_quiet _ s _ hq rfl rfl)

theorem exec_shape (hq : Quiet s) (n m : Nat) : exec (.shape (.s n) (.v m)) s
    = .next (advance (.shape (.s n) (.v m)) s (setSreg s.g n (w32 (readTag s m).code))) := by
  have hw : (w64 (readTag s m).code).setWidth 32 = w32 (readTag s m).code := by cases readTag s m <;> rfl
  refine (scaIssue_quiet _ s (.s n) false _ hq rfl rfl).trans ?_
  rw [applyWrites_sca, ← hw]
  rfl

/-! ### Bit planes (R260, R261) -/

theorem exec_bpack (hq : Quiet s) (n : Nat) (a : Opnd) : exec (.bpack (.v n) a) s = .next (vecDone (.bpack (.v n) a) s
    (putVecTy s n false none false fun l =>
      if l < 8 then ((maskOf fun j => laneOn (execMask s) j && (srcLane s a j).getLsbD (7 - l)).setWidth 64) else 0)) := by
  show execBpack (.v n) a s = _
  rw [execBpack, vecIssue_quiet _ s _ hq rfl rfl, vecGeneral, applyWrites_vec]

theorem exec_bunpack (hq : Quiet s) (c n : Nat) (a : Opnd) {p : Nat} (hp : (if c = 0 then 8 else c) = p) :
    exec (.bunpack c (.v n) a) s = .next (vecDone (.bunpack c (.v n) a) s (putVecTy s n false none false fun l =>
      let u := (List.range p).foldl (fun u k => 2 * u + ((crossLane s a k).getLsbD l).toNat) 0
      intWrap .s32 (if (crossLane s a 0).getLsbD l then (u : Int) - 2 ^ p else u))) := by
  show execBunpack c (.v n) a s = _
  rw [execBunpack, vecIssue_quiet _ s _ hq rfl rfl, vecGeneral, applyWrites_vec, hp]

end moves

/-! ### `movx`: the writes of each name (R246) -/

section movx
variable {s : State} {a b : Opnd} {name : Word} {k : Nat} {pr : Bool}

/-- The number of a name, and whether it names a pair. -/
theorem name_parts {r : Nat} (h : name.toNat % 2048 = 1024 * pr.toNat + r) (hr : r < 1024) :
    name.getLsbD 10 = pr ∧ name.toNat % 1024 = r := by
  refine ⟨?_, by cases pr <;> simp at h <;> omega⟩
  rw [BitVec.getLsbD, Nat.testBit_eq_decide_div_mod_eq]
  cases pr <;> simp at h ⊢ <;> omega

/-- The source of a vector pair is even, and a register. -/
def evenSource (pr : Bool) : Opnd → Bool
  | .v n | .s n => evenIf pr n
  | _ => !pr

/-- The writes of `movx` to the register that its name stands for. -/
def movxTo (s : State) (pr : Bool) (b : Opnd) : Opnd → Except Raise (List RegWrite)
  | .v n =>
      if n + pr.toNat < (roleOf s).vregs ∧ evenIf pr n ∧ evenSource pr b then .ok (vecGeneral s (.v n) pr fun l => srcPair s b l)
      else .error (.plain 0x201 0)
  | .s n =>
      if n + pr.toNat < (roleOf s).sregs ∧ evenIf pr n then (uniW s 2 pr b).map (scaWrites (.s n) pr)
      else .error (.plain 0x201 0)
  | _ => .error (.plain 0x201 0)

theorem movxWrites_eq (s : State) (name : Word) (b : Opnd) :
    movxWrites s name b = movxTo s (name.getLsbD 10) b (Opnd.ofCode (name.toNat % 1024)) := rfl

theorem movxWrites_vec (hn : name.toNat % 1024 = k) (hpr : name.getLsbD 10 = pr) (hk : k < 512) :
    movxWrites s name b = if k + pr.toNat < (roleOf s).vregs ∧ evenIf pr k ∧ evenSource pr b then
      .ok (vecGeneral s (.v k) pr fun l => srcPair s b l) else .error (.plain 0x201 0) := by
  have hcode : Opnd.ofCode k = .v k := if_pos hk
  rw [movxWrites_eq, hn, hpr, hcode]
  rfl

theorem movxWrites_sca (hn : name.toNat % 1024 = 0x200 + k) (hpr : name.getLsbD 10 = pr) (hk : k < 192) :
    movxWrites s name b = if k + pr.toNat < (roleOf s).sregs ∧ evenIf pr k then
      (uniW s 2 pr b).map (scaWrites (.s k) pr) else .error (.plain 0x201 0) := by
  rw [movxWrites_eq, hn, hpr, Opnd.ofCode_scalar hk]
  rfl

/-- Codes from 0x2c0 on name no vector and no scalar register (R216). -/
theorem ofCode_noRegister {n : Nat} (h : 0x2c0 ≤ n) (k : Nat) : Opnd.ofCode n ≠ .v k ∧ Opnd.ofCode n ≠ .s k := by
  rw [Opnd.ofCode, if_neg (by omega), if_neg (by omega)]
  split
  · split <;> simp
  · split <;> simp

theorem movxWrites_noRegister (hn : 0x2c0 ≤ name.toNat % 1024) : movxWrites s name b = .error (.plain 0x201 0) := by
  have hno := ofCode_noRegister hn
  rw [movxWrites_eq]
  generalize Opnd.ofCode (name.toNat % 1024) = o at hno
  cases o with
  | v n => exact absurd rfl (hno n).1
  | s n => exact absurd rfl (hno n).2
  | _ => rfl

/-! ### `movx` issues (R232, R246, R375) -/

theorem exec_movx_idle (hz : execMask s = 0) (hq : Quiet s) :
    exec (.movx a b) s = .next (vecDone (.movx a b) s s.g) := by
  show execMovx a b s = _
  rw [execMovx, if_pos hz]
  exact vecIssue_quiet _ s [] hq rfl rfl

variable (hon : execMask s ≠ 0)
include hon

theorem movx_shapeFaults (ha : Shapeless s false a) : FaultsAt (.movx a b) s 1 :=
  issue_faults (by show execMovx a b s = _; rw [execMovx, if_neg hon, uni_bind_shapeless ha])

variable (hname : uni s 1 a = .ok name)
include hname

theorem exec_movx_writes (hq : Quiet s) {ws : List RegWrite} (hw : movxWrites s name b = .ok ws) :
    exec (.movx a b) s = .next (vecDone (.movx a b) s (applyWrites s.g ws)) := by
  show execMovx a b s = _
  rw [execMovx, if_neg hon, hname]
  show issue _ ((movxWrites s name b).map (Effect.write s)) s = _
  rw [hw]
  exact vecIssue_quiet _ s ws hq rfl rfl

theorem movx_faults {e : Raise} (hw : movxWrites s name b = .error e) : Faults (.movx a b) s e :=
  issue_faults (by
    show execMovx a b s = _
    rw [execMovx, if_neg hon, hname]
    show issue _ ((movxWrites s name b).map (Effect.write s)) s = _
    rw [hw]
    rfl)

theorem exec_movx_vec (hq : Quiet s) (hn : name.toNat % 2048 = 1024 * pr.toNat + k) (hk : k < 512)
    (hv : k + pr.toNat < (roleOf s).vregs) (he : evenIf pr k = true) (hb : evenSource pr b = true) :
    exec (.movx a b) s = .next (vecDone (.movx a b) s (putVecTy s k pr none false (srcPair s b))) := by
  obtain ⟨hpr, hmod⟩ := name_parts hn (by omega)
  rw [exec_movx_writes hon hname hq ((movxWrites_vec hmod hpr hk).trans (if_pos ⟨hv, he, hb⟩)), vecGeneral, applyWrites_vec]

theorem exec_movx_sca (hq : Quiet s) (hn : name.toNat % 2048 = 1024 * pr.toNat + (0x200 + k)) (hk : k < 192)
    (hv : k + pr.toNat < (roleOf s).sregs) (he : evenIf pr k = true) {x : Dword} (hx : uniW s 2 pr b = .ok x) :
    exec (.movx a b) s = .next (vecDone (.movx a b) s (putSca s.g k pr x)) := by
  obtain ⟨hpr, hmod⟩ := name_parts hn (by omega)
  rw [exec_movx_writes hon hname hq ((movxWrites_sca hmod hpr hk).trans ((if_pos ⟨hv, he⟩).trans (by rw [hx]; rfl))),
    applyWrites_sca]

theorem movx_vec_faults (hn : name.toNat % 1024 = k) (hpr : name.getLsbD 10 = pr) (hk : k < 512)
    (h : ¬ (k + pr.toNat < (roleOf s).vregs ∧ evenIf pr k = true ∧ evenSource pr b = true)) :
    Faults (.movx a b) s (.plain 0x201 0) :=
  movx_faults hon hname ((movxWrites_vec hn hpr hk).trans (if_neg h))

theorem movx_sca_faults (hn : name.toNat % 1024 = 0x200 + k) (hpr : name.getLsbD 10 = pr) (hk : k < 192)
    (h : ¬ (k + pr.toNat < (roleOf s).sregs ∧ evenIf pr k = true)) : Faults (.movx a b) s (.plain 0x201 0) :=
  movx_faults hon hname ((movxWrites_sca hn hpr hk).trans (if_neg h))

theorem movx_value_faults (hn : name.toNat % 2048 = 1024 * pr.toNat + (0x200 + k)) (hk : k < 192)
    (hv : k + pr.toNat < (roleOf s).sregs) (he : evenIf pr k = true) (hb : Shapeless s pr b) : FaultsAt (.movx a b) s 2 := by
  obtain ⟨hpr, hmod⟩ := name_parts hn (by omega)
  exact movx_faults hon hname ((movxWrites_sca hmod hpr hk).trans ((if_pos ⟨hv, he⟩).trans (map_shapeless hb _)))

end movx

theorem evenIf_iff {pr : Bool} {k : Nat} : evenIf pr k = true ↔ (pr = true → k % 2 = 0) := by cases pr <;> simp [evenIf]

theorem evenIf_pair {k : Nat} : evenIf true k = true ↔ k % 2 = 0 := evenIf_iff.trans (forall_prop_of_true rfl)

/-- Settles O9: a name is a number and a bit for a pair; each clause is the outcome of that name's writes. -/
theorem movesAndPlanes : Obligations.MovesAndPlanes := by
  refine ⟨?moves, ?movx, fun s a b => ⟨fun hon ha => movx_shapeFaults hon ha, fun hz hq => exec_movx_idle hz hq⟩⟩
  case moves =>
    intro s n a b hq
    refine ⟨exec_mov32 hq n a, exec_mov64 hq n, fun ts imm => exec_movI hq ts n imm, fun x l ha hb => exec_putl hq ha hb n,
      fun x l ha hb => exec_putl_off hq ha hb n, exec_shape hq n, exec_bpack hq n a, fun c p hc h2 h8 => exec_bunpack hq c n a ?_⟩
    rcases hc with rfl | ⟨rfl, rfl⟩
    · exact if_neg (by omega)
    · rfl
  case movx =>
    intro s a b name k hq hon hname
    refine ⟨?vec, ?vecPair, ?vecSpecial, ?vecPairOut, ?sca, ?scaPair, ?scaPairOut, ?value, ?vecOut, ?scaOut, ?none⟩
    case vec =>
      intro hn hk hv
      exact exec_movx_vec (pr := false) hon hname hq (by simpa using hn) hk hv rfl (by cases b <;> rfl)
    case vecPair =>
      intro m hn hk hv he hb
      obtain ⟨hpr, hmod⟩ := name_parts (pr := true) hn (by omega)
      have hsrc : evenSource true b = evenIf true m := by rcases hb with rfl | rfl <;> rfl
      refine ⟨fun hm => exec_movx_vec (pr := true) hon hname hq hn hk hv (evenIf_pair.mpr he) (hsrc.trans (evenIf_pair.mpr hm)),
        fun hm => movx_vec_faults hon hname hmod hpr hk ?_⟩
      rintro ⟨-, -, hs⟩
      rw [hsrc, evenIf_pair] at hs
      omega
    case vecSpecial =>
      intro hn hk hb
      obtain ⟨hpr, hmod⟩ := name_parts (pr := true) hn (by omega)
      refine movx_vec_faults hon hname hmod hpr hk ?_
      rintro ⟨-, -, hs⟩
      cases b with
      | v m => exact (hb m).1 rfl
      | s m => exact (hb m).2 rfl
      | _ => exact Bool.noConfusion hs
    case vecPairOut =>
      intro hn hk h
      obtain ⟨hpr, hmod⟩ := name_parts (pr := true) hn (by omega)
      refine movx_vec_faults hon hname hmod hpr hk ?_
      rintro ⟨hv, he, -⟩
      rw [evenIf_pair] at he
      simp only [Bool.toNat_true] at hv
      omega
    case sca =>
      intro x hn hk hv hx
      have hw : uniW s 2 false b = .ok (x.setWidth 64) := by
        rw [uniW, if_neg (by simp), hx]
        rfl
      rw [exec_movx_sca (pr := false) hon hname hq (by simpa using hn) hk hv rfl hw]
      simp [putSca]
    case scaPair =>
      intro x hn hk hv he hx
      exact exec_movx_sca (pr := true) hon hname hq (hn.trans (Nat.add_assoc ..)) hk hv (evenIf_pair.mpr he) hx
    case scaPairOut =>
      intro hn hk h
      obtain ⟨hpr, hmod⟩ := name_parts (pr := true) (r := 0x200 + k) (hn.trans (Nat.add_assoc ..)) (by omega)
      refine movx_sca_faults hon hname hmod hpr hk ?_
      rintro ⟨hv, he⟩
      rw [evenIf_pair] at he
      simp only [Bool.toNat_true] at hv
      omega
    case value =>
      intro pr hn hk hv he hb
      exact movx_value_faults hon hname (by rw [hn, Nat.add_assoc]) (by omega) hv (evenIf_iff.mpr he) hb
    case vecOut =>
      intro hn hk hv
      exact movx_vec_faults hon hname hn rfl hk fun h => by omega
    case scaOut =>
      intro hn hk hv
      exact movx_sca_faults hon hname hn rfl hk fun h => by omega
    case none => exact fun hn => movx_faults hon hname (movxWrites_noRegister hn)

end Sys2Proof.Machine
end

section
/-!
PROOFS. O23: stores check their places and enter the queue.
-/
namespace Sys2Proof.Machine

/-! ### Stores issue, and enter the store queue (R126, R288) -/

section stores
variable {s : State} {spc : Space} {w : MWidth} {d base idx : Opnd} {imm : BitVec 16} {o : Ordf} {r : Raise}

/-- A store to another space than the sump waits in the queue. -/
theorem pushStore_mem (h : spc ≠ .sp) (cells : List (Loc × Byte)) : (pushStore s spc cells).mem = s.mem := by
  rw [pushStore, if_neg h]
  split <;> rfl

theorem queued_mem (h : spc ≠ .sp) (ho : o = .plain) (cells : List (Loc × Byte)) :
    (releaseOf (pushStore s spc cells) o).mem = s.mem := by
  subst ho
  exact pushStore_mem h cells

theorem calm_queued (s : State) (spc : Space) (cells : List (Loc × Byte)) (o : Ordf) :
    Calm s (releaseOf (pushStore s spc cells) o) := (calm_pushStore s spc cells).trans (calm_releaseOf _ o)

/-- A store whose effect puts its bytes in the queue lands with them there. -/
theorem store_lands {i : Instr} (hs : Idle s) (hl : isLong i = true) (cells : List (Loc × Byte)) (evs : List Watch)
    (hx : exec i s = issue i (.ok { Effect.of (releaseOf (pushStore s spc cells) o) with events := evs }) s) :
    let st := releaseOf (pushStore s spc cells) o
    Lands i s st st.g ∧ (spc ≠ .sp → o = .plain → st.mem = s.mem) :=
  ⟨long_done [] evs hx hs (calm_queued s spc cells o) hl, fun h ho => queued_mem h ho cells⟩

theorem exec_st (hon : execMask s ≠ 0) : exec (.st spc w d base idx imm o) s
    = issue (.st spc w d base idx imm o) ((placeLanes s spc base idx imm (widthBytes w) 2).map fun r =>
      storeEffect s spc w d (laneEa s spc r.1 idx imm) o r.2) s := if_neg hon

theorem st_lands (hs : Idle s) (hon : execMask s ≠ 0) {b : Dword} {ls : List (Nat × Loc)}
    (hp : placeLanes s spc base idx imm (widthBytes w) 2 = .ok (b, ls)) :
    let st := releaseOf (pushStore s spc (ls.map fun e => cellsOf e.2 (storeBytes s w d e.1)).flatten) o
    Lands (.st spc w d base idx imm o) s st st.g ∧ (spc ≠ .sp → o = .plain → st.mem = s.mem) :=
  store_lands hs rfl _ _ ((exec_st hon).trans (by rw [hp]; rfl))

theorem st_faults (hon : execMask s ≠ 0) (hp : placeLanes s spc base idx imm (widthBytes w) 2 = .error r) :
    Faults (.st spc w d base idx imm o) s r :=
  issue_faults ((exec_st hon).trans (by rw [hp]; rfl))

theorem exec_sSt : exec (.sSt spc w d base idx imm o) s = issue (.sSt spc w d base idx imm o)
    ((scaBytes s w d).bind fun bs => (placeOne s spc base idx imm (widthBytes w) 2).bind fun r =>
      .ok { Effect.of (releaseOf (pushStore s spc (cellsOf r.2 bs)) o) with events := writeEvents spc none r.1 bs }) s := rfl

theorem sSt_lands (hs : Idle s) {bs : List Byte} {ea : Nat} {l : Loc} (hb : scaBytes s w d = .ok bs)
    (hp : placeOne s spc base idx imm (widthBytes w) 2 = .ok (ea, l)) :
    let st := releaseOf (pushStore s spc (cellsOf l bs)) o
    Lands (.sSt spc w d base idx imm o) s st st.g ∧ (spc ≠ .sp → o = .plain → st.mem = s.mem) :=
  store_lands hs rfl _ (writeEvents spc none ea bs) (exec_sSt.trans (by rw [hb, hp]; rfl))

theorem sSt_value_faults (hb : scaBytes s w d = .error r) : Faults (.sSt spc w d base idx imm o) s r :=
  issue_faults (exec_sSt.trans (by rw [hb]; rfl))

theorem sSt_place_faults {bs : List Byte} (hb : scaBytes s w d = .ok bs)
    (hp : placeOne s spc base idx imm (widthBytes w) 2 = .error r) : Faults (.sSt spc w d base idx imm o) s r :=
  issue_faults (exec_sSt.trans (by rw [hb, hp]; rfl))

end stores

/-- Settles O23: a store's places are checked first, and its bytes then enter the queue. -/
theorem stores : Obligations.Stores := by
  intro s spc w d base idx imm o hs
  exact ⟨fun b ls hon hp => st_lands hs hon hp, fun r hon hp => st_faults hon hp, fun bs ea l hb hp => sSt_lands hs hb hp,
    fun r hb => sSt_value_faults hb, fun bs r hb hp => sSt_place_faults hb hp⟩

end Sys2Proof.Machine
end

section
/-!
PROOFS. O38: entry to the user handler, field by field, and when a cause waits, is held or is dropped.
-/
namespace Sys2Proof.Machine

/-! ### Slots that give up their port (R195) -/

theorem release_slot (g : Group) (i : SlotId) : g.release.slot i = (g.slot i).release := by cases i <;> rfl

theorem pcRelease_mask (p : PcSlot) : p.release.mask = p.mask := by unfold PcSlot.release; split <;> rfl

/-- A slot that waits at a header holds no port. -/
theorem pcRelease_header {p : PcSlot} (h : p.stand = .header) : p.release = p := if_neg (by rw [h]; decide)

/-! ### Entry to the user handler (R366) -/

section entry
variable (s : State) (c : Cause)

/-- The trap registers, with each lane's detail in v511 where the budget holds it. -/
def withDetail (s : State) (c : Cause) : Group :=
  if (roleOf s).vregs = 512 then setVreg (writeTrapRegs s.g c 0) 511 (writeTrapRegs s.g c 0).present c.lanes .general
  else writeTrapRegs s.g c 0

/-- The vector registers after entry. -/
def detailVregs (s : State) (c : Cause) : SMap VReg := (withDetail s c).vregs

theorem withDetail_eq : withDetail s c = { writeTrapRegs s.g c 0 with vregs := detailVregs s c } := by
  unfold detailVregs withDetail
  split
  · unfold setVreg
    split <;> rfl
  · rfl

theorem detailVregs_kept (h : (roleOf s).vregs ≠ 512) : detailVregs s c = s.g.vregs := by
  unfold detailVregs withDetail
  rw [if_neg h]
  rfl

/-- The group with PRIV.TRAP set, the cause's slot at the handler's header, and no port held. -/
def toHandler (s : State) (c : Cause) (g : Group) : Group :=
  (({ setHandler g true with trapHdr := (g.slot c.slot).hdr, trapStand := (g.slot c.slot).stand } : Group).setSlot c.slot
    { g.slot c.slot with pc := handlerPc g, stand := .header, wait := .running, since := s.now, waits := none }).release

/-- Beside the slots only PRIV.TRAP and what the return needs are written. -/
theorem toHandler_frame (g : Group) : ∃ h st a b,
    toHandler s c g = { g with priv := g.priv ||| 2, trapHdr := h, trapStand := st, a := a, b := b } := by
  unfold toHandler
  cases c.slot <;> exact ⟨_, _, _, _, rfl⟩

theorem toHandler_slot (g : Group) : (toHandler s c g).slot c.slot
    = { g.slot c.slot with pc := handlerPc g, stand := .header, wait := .running, since := s.now, waits := none } := by
  rw [toHandler, release_slot, slot_setSlot, pcRelease_header rfl]

theorem toHandler_mask (g : Group) (i : SlotId) : ((toHandler s c g).slot i).mask = (g.slot i).mask := by
  rw [toHandler, release_slot, pcRelease_mask]
  cases c.slot <;> cases i <;> rfl

/-- What entry leaves of the group: the trap registers, v511, PRIV.TRAP and the slots. -/
theorem enterUser_eq :
    enterUser s c = { s with g := toHandler s c { writeTrapRegs s.g c 0 with vregs := detailVregs s c } } := by
  rw [← withDetail_eq]
  rfl

theorem enterUser_pc : ((enterUser s c).g.slot c.slot).pc = handlerPc s.g := by
  rw [enterUser_eq, toHandler_slot]
  rfl

theorem enterUser_stand : ((enterUser s c).g.slot c.slot).stand = .header := by rw [enterUser_eq, toHandler_slot]

theorem enterUser_mask (i : SlotId) : ((enterUser s c).g.slot i).mask = (s.g.slot i).mask := by
  rw [enterUser_eq, toHandler_mask]
  cases i <;> rfl

/-- The group after entry but for its slots and for where the handler returns to. -/
theorem enterUser_frame : ∃ h st a b, (enterUser s c).g = { writeTrapRegs s.g c 0 with
    vregs := detailVregs s c, priv := s.g.priv ||| 2, trapHdr := h, trapStand := st, a := a, b := b } := by
  rw [enterUser_eq]
  exact toHandler_frame s c _

/-- Everything else of the group that entry leaves as it is. -/
theorem enterUser_kept : (enterUser s c).g.sregs = s.g.sregs ∧ (enterUser s c).g.hregs = s.g.hregs ∧ (enterUser s c).g.fpc = s.g.fpc
    ∧ (enterUser s c).g.fps = s.g.fps ∧ (enterUser s c).g.exited = s.g.exited := by
  obtain ⟨h, st, a, b, hg⟩ := enterUser_frame s c
  rw [hg]
  exact ⟨rfl, rfl, rfl, rfl, rfl⟩

theorem enterUser_vregs : (enterUser s c).g.vregs = detailVregs s c := by
  obtain ⟨h, st, a, b, hg⟩ := enterUser_frame s c
  rw [hg]

theorem enterUser_inHandler : inHandler (enterUser s c).g = true := by
  obtain ⟨h, st, a, b, hg⟩ := enterUser_frame s c
  rw [hg, inHandler]
  simp

/-- The trap registers after entry (R71, R366). -/
theorem enterUser_trapRegs : (enterUser s c).g.trappc = c.pc.setWidth 64
    ∧ (enterUser s c).g.trapnext = BitVec.ofNat 64 (c.next.toNat / 8 * 8) ∧ (enterUser s c).g.trapmask = c.mask
    ∧ (enterUser s c).g.trapdst = c.dst ∧ (enterUser s c).g.trapaddr = c.addr.getD s.g.trapaddr
    ∧ (enterUser s c).g.trapcause = causeWord c 0 := by
  obtain ⟨h, st, a, b, hg⟩ := enterUser_frame s c
  rw [hg]
  exact ⟨BitVec.ofNat_toNat 64 c.pc, rfl, rfl, rfl, rfl, rfl⟩

end entry

/-- TRAPCAUSE of a cause that the user handler takes: its code, its slot and its DETAIL (R71). -/
theorem causeWord_user {c : Cause} (h : c.code < 2 ^ 12) :
    (causeWord c 0).toNat = c.code + 2 ^ 15 * slotBit c.slot + 2 ^ 16 * c.detail.toNat := by
  have hd : c.detail.toNat < 256 := c.detail.isLt
  have hs : slotBit c.slot < 2 := by cases c.slot <;> decide
  simp only [causeWord, w32, pack, BitVec.toNat_ofNat]
  omega

/-! ### A group that has not drained (R171, R366) -/

theorem locksB_iff (t : Team) (g : Group) (n k : Nat) : locksB t g n k = true ↔ ∃ p ∈ mget [] t.passes (t.cores.idxOf g.core),
    p.locked = true ∧ p.zero = none ∧ p.role = g.role ∧ p.quad = g.idx / 4 ∧ p.breg < n + k ∧ n < p.breg + 16 := by
  simp [locksB, and_assoc]

theorem detailLocked_iff (s : State) (c : Cause) : detailLocked s c = true ↔
    (roleOf s).vregs = 512 ∧ serviceOf s c = 0 ∧ locksB s.team s.g 511 1 = true := by
  simp [detailLocked, and_assoc]

theorem drained_iff (s : State) (c : Cause) : drained s c = true ↔ s.g.inflight = [] ∧ ¬ detailLocked s c = true := by
  simp [drained]

/-- The service of a cause that the user handler takes. -/
theorem serviceOf_user {s : State} {c : Cause} (hk : c.kind ≠ .sup) (hh : inHandler s.g = false) (hv : s.g.trapvec.getLsbD 0 = true)
    (ho : handlerOk s = true) : serviceOf s c = 0 := by simp [serviceOf, hk, hh, hv, ho]

theorem exec_trapEntry {s : State} {c : Cause} (hd : drained s c = true) (he : s.g.entry = some c) (hs : serviceOf s c = 0) :
    exec .trapEntry s = .next (afterStep (enterUser (abandonSift { s with g := { s.g with entry := none } }) c)) := by
  have hready : entryReady s = some c := by rw [entryReady, he]; exact Option.filter_eq_some_iff.mpr ⟨rfl, hd⟩
  show execTrapEntry s = _
  rw [execTrapEntry, hready]
  dsimp only
  rw [hs, enter, serviceOf_abandon, if_pos hs]
  rfl

/-! ### While the partner's cause is handled (R367) -/

section partner
variable {s : State} {c : Cause} (hh : inHandler s.g = true) (ht : trapSlot s.g ≠ c.slot)
include hh ht

theorem raise_partner_trap (hk : c.kind = .trap) : raise s c = { s with g := setPend s.g c.slot (some c) } := by
  unfold raise
  dsimp only
  rw [hh, decide_eq_true ht, Bool.and_self, Bool.or_true, hk]
  rfl

theorem raise_partner_fault (hk : c.kind = .fault) : raise s c = abandonSift s := by
  unfold raise
  dsimp only
  rw [hh, decide_eq_true ht, Bool.and_self, Bool.or_true, hk]
  rfl

end partner

/-! ### The group whose cause is entered (R43, R366) -/

section stopped
variable (s : State)

/-- The state in which a cause is entered: it waits no more, and a sift that has not committed is abandoned. -/
def stopped : State := abandonSift { s with g := { s.g with entry := none } }

theorem stopped_g : ∃ w w', (stopped s).g = { s.g with entry := none, a := { s.g.a with wait := w }, b := { s.g.b with wait := w' } } :=
  abandonSift_g { s with g := { s.g with entry := none } }

theorem stopped_mask (i : SlotId) : ((stopped s).g.slot i).mask = (s.g.slot i).mask := by
  obtain ⟨w, w', hg⟩ := stopped_g s
  rw [hg]
  cases i <;> rfl

theorem stopped_trapRegs : (stopped s).g.trapaddr = s.g.trapaddr ∧ (stopped s).g.trapvec = s.g.trapvec := by
  obtain ⟨w, w', hg⟩ := stopped_g s
  rw [hg]
  exact ⟨rfl, rfl⟩

theorem stopped_kept : (stopped s).g.sregs = s.g.sregs ∧ (stopped s).g.hregs = s.g.hregs ∧ (stopped s).g.fpc = s.g.fpc
    ∧ (stopped s).g.fps = s.g.fps ∧ (stopped s).g.exited = s.g.exited ∧ (stopped s).g.vregs = s.g.vregs := by
  obtain ⟨w, w', hg⟩ := stopped_g s
  rw [hg]
  exact ⟨rfl, rfl, rfl, rfl, rfl, rfl⟩

theorem roleOf_stopped : roleOf (stopped s) = roleOf s := by
  obtain ⟨w, w', hg⟩ := stopped_g s
  rw [roleOf, hg]
  rfl

end stopped

/-- Settles O38: a cause that is entered finds the group as it was but for what its slots wait for, and entry writes the trap
registers, v511 and the slot; the other clauses are the cases of `raise`, of `drained` and of TRAP_ENTRY. -/
theorem userTraps : Obligations.UserTraps := by
  refine ⟨?entry, fun s c => raise_waits s c, ?drained, fun s c => exec_trapEntry,
    fun s c hh ht => ⟨raise_partner_trap hh ht, raise_partner_fault hh ht⟩⟩
  case entry =>
    intro s c hd he hk hh hv ho
    have hr : raise s c = enterUser (stopped s) c := raise_user s c hd he hh (serviceOf_user hk hh hv ho)
    obtain ⟨hpc, hnext, hmask, hdst, haddr, hcause⟩ := enterUser_trapRegs (stopped s) c
    obtain ⟨hs, hhr, hfpc, hfps, hex⟩ := enterUser_kept (stopped s) c
    obtain ⟨haddr', hvec'⟩ := stopped_trapRegs s
    obtain ⟨hs', hhr', hfpc', hfps', hex', hv'⟩ := stopped_kept s
    have hkeep (i : SlotId) : ((enterUser (stopped s) c).g.slot i).mask = (s.g.slot i).mask :=
      (enterUser_mask (stopped s) c i).trans (stopped_mask s i)
    rw [hr]
    refine ⟨hpc, hnext, hmask, hdst, by rw [haddr, haddr'], fun hcode => by rw [hcause, causeWord_user hcode],
      enterUser_inHandler .., ?_, enterUser_stand .., hkeep .A, hkeep .B, hs.trans hs', hhr.trans hhr', hfpc.trans hfpc',
      hfps.trans hfps', hex.trans hex', rfl, fun hn => ?_⟩
    · rw [enterUser_pc, handlerPc, hvec']
    · rw [enterUser_vregs, detailVregs_kept _ _ (by rw [roleOf_stopped]; exact hn), hv']
  case drained =>
    intro s c
    rw [drained_iff, detailLocked_iff, locksB_iff]

end Sys2Proof.Machine
end

section
/-!
PROOFS. O40: control registers, counts, stamps and sluice control; what a binding leaves of the state is calm.
-/
namespace Sys2Proof.Machine

/-! ### An instruction that waits for its slot's earlier ones (R67) -/

/-- An idle group with no cause to enter waits for nothing. -/
theorem afterOwn_idle {s : State} (hs : Idle s) (he : s.g.entry = none) (f : State → Out) : afterOwn s f = f s := by
  obtain ⟨⟨hi, -⟩, -, -⟩ := hs
  have hland : landOwn s = s := by rw [landOwn, hi]; rfl
  have hown : ownPending s = false := by rw [ownPending, hi]; rfl
  unfold afterOwn
  dsimp only
  rw [hland, hown, he]
  simp

/-! ### Control registers (R65 to R71, R319, R320) -/

section control
variable {s : State} (hs : Idle s) (he : s.g.entry = none)
include hs he

theorem exec_ctlRd (d : Opnd) (r : CReg) : exec (.ctlRd d r) s
    = issue (.ctlRd d r) (.ok (.write s (scaWrites d (r.regs == 2) (ctlRead s r)))) s := by
  show execCtlRd d r s = _
  rw [execCtlRd, afterOwn_idle hs he]

theorem ctlRd_lands (n : Nat) (r : CReg) : Lands (.ctlRd (.s n) r) s s (putSca s.g n (r.regs == 2) (ctlRead s r)) := by
  rw [← applyWrites_sca]
  exact long_done _ [] (exec_ctlRd hs he _ r) hs (.rfl' s) rfl

theorem exec_ctlWr {r : CReg} {a : Opnd} {x : Dword} (hx : uniW s 1 (r.regs == 2) a = .ok x) :
    exec (.ctlWr r a) s = .next (advance (.ctlWr r a) s (ctlWrite s.g r x)) := by
  have hissue : exec (.ctlWr r a) s = issue (.ctlWr r a) (.ok (.of { s with g := ctlWrite s.g r x })) s := by
    show execCtlWr r a s = _
    rw [execCtlWr, afterOwn_idle hs he, hx]
    rfl
  have hq : Quiet { s with g := ctlWrite s.g r x } := by cases r <;> exact hs.1
  have hcur : cur { s with g := ctlWrite s.g r x } = cur s := by
    unfold cur
    cases r <;> cases s.slot <;> rfl
  rw [hissue, short_done hq rfl rfl, advance, hcur]
  rfl

end control

theorem meterRd_lands {s : State} (hs : Idle s) (n k : Nat) :
    Lands (.meterRd (.s n) k) s s (setSpair s.g n (BitVec.ofNat 64 (teamCount s k))) := by
  have hw : setSpair s.g n (BitVec.ofNat 64 (teamCount s k)) = applyWrites s.g (scaWrites (.s n) true (w64 (teamCount s k))) :=
    (applyWrites_sca s.g n true _).symm
  rw [hw]
  exact long_done _ [] rfl hs (.rfl' s) rfl

/-! ### Sluice records (R325) -/

theorem natWords_length (k x : Nat) : (natWords k x).length = k := by
  induction k generalizing x with
  | zero => rfl
  | succ k ih => exact congrArg (· + 1) (ih _)

/-- Word `j` of a value. -/
theorem natWords_getD {k j : Nat} (h : j < k) (x : Nat) : (natWords k x).getD j 0 = BitVec.ofNat 32 (x / 2 ^ (32 * j)) := by
  induction k generalizing j x with
  | zero => omega
  | succ k ih =>
    cases j with
    | zero => simp [natWords, w32]
    | succ j =>
      have hdiv : x / 2 ^ 32 / 2 ^ (32 * j) = x / 2 ^ (32 * (j + 1)) := by
        rw [Nat.div_div_eq_div_mul, ← Nat.pow_add, Nat.mul_succ, Nat.add_comm]
      rw [natWords, List.getD_cons_succ, ih (by omega), hdiv]

/-- The words of a value in consecutive scalar registers, landed. -/
theorem applyWrites_natWords (g : Group) (n k x : Nat) : applyWrites g (scaRun n (natWords k x))
    = (List.range k).foldl (fun g j => setSreg g (n + j) (BitVec.ofNat 32 (x / 2 ^ (32 * j)))) g := by
  rw [applyWrites, scaRun, List.foldl_map, natWords_length]
  exact List.foldl_ext _ _ _ fun g j hj => by rw [natWords_getD (List.mem_range.mp hj)]; rfl

theorem slStat_lands {s : State} (hs : Idle s) (n : Nat) (slot : BitVec 4) :
    Lands (.slStat (.s n) slot) s s ((List.range 8).foldl (fun g k => setSreg g (n + k)
      (BitVec.ofNat 32 (((mget? s.vd.bindings slot.toNat).map bindStatus).getD 0 / 2 ^ (32 * k)))) s.g) := by
  rw [← applyWrites_natWords]
  exact long_done _ [] rfl hs (.rfl' s) rfl

/-! ### Stamps (R176, R326) -/

theorem storeBytesAt_g (s : State) (pa : Nat) (bs : List Byte) : (storeBytesAt s pa bs).g = s.g := by
  obtain ⟨m, p, k, h⟩ := putMains_frame s ((List.range bs.length).map fun i => (pa + i, bs.getD i 0))
  rw [storeBytesAt, putCached, h]

theorem stampMark_g (s : State) (x : Word) : (stampMark s x).g = s.g :=
  (storeBytesAt_g ..).trans (storeBytesAt_g ..)

theorem stampMark_lands {i : Instr} {s : State} {x : Word} (hs : Idle s) (hl : isLong i = true)
    (hx : exec i s = issue i (.ok (.of (stampMark s x))) s) : Lands i s (stampMark s x) s.g := by
  have h := long_done [] [] hx hs (calm_writeStamp s _) hl
  exact stampMark_g s x ▸ h

/-! ### What a binding leaves of the state (R140 to R143, R150 to R154) -/

theorem calm_countRange (s : State) (lo n : Nat) : Calm s (countRange s lo n) := calm_countReads s _

theorem calm_countImage (s : State) (va : Nat) : Calm s (countImage s va) := by
  unfold countImage
  dsimp only
  split
  · exact .rfl' s
  · split
    · exact calm_countRange ..
    · exact (calm_countRange ..).trans (calm_countRange ..)

theorem calm_countImages (s : State) (b : BindDesc) : Calm s (countImages s b) := by
  unfold countImages
  split
  · exact (calm_countImage ..).trans (calm_countImage ..)
  · exact .rfl' s

theorem calm_newHandle (s : State) (origin kind : Nat) : Calm s (newHandle s origin kind).1 := (Calm.rfl' s).withVd _

theorem calm_onBinding (s : State) (slot : Nat) (f : Sluice → Sluice) : Calm s (onBinding s slot f) := by
  unfold onBinding
  split
  · exact (Calm.rfl' s).withVd _
  · exact .rfl' s

theorem calm_addDieJob (s : State) (h : Dword) : Calm s (addDieJob s h) := by
  unfold addDieJob
  split
  · exact .rfl' s
  · exact .of_eq rfl rfl rfl rfl rfl rfl

theorem calm_putRun (s : State) (pa : Nat) (bs : List Byte) : Calm s (putRun s pa bs) :=
  (Calm.foldl _ (fun s _ => calm_clearSpan s _) _ s).trans (.of_eq rfl rfl rfl rfl rfl rfl)

theorem calm_initMeta (s : State) (sl : Sluice) : Calm s (initMeta s sl) := by
  refine Calm.foldl _ (fun s k => ?_) _ s
  split
  · exact (calm_putRun ..).trans (calm_meter ..)
  · exact .rfl' s

theorem calm_adoptLine (s : State) (sl : Sluice) (va : Nat) (e : Nat × Bool) : Calm s (adoptLine s sl va e) := by
  unfold adoptLine
  refine Calm.trans (t := { s with lines := mdel s.lines e.1 }) (.of_eq rfl rfl rfl rfl rfl rfl) (Calm.foldl _ (fun s k => ?_) _ _)
  exact .of_eq rfl rfl rfl rfl rfl rfl

theorem calm_adoptLines (s : State) (sl : Sluice) : Calm s (adoptLines s sl) := by
  refine Calm.foldl _ (fun s k => ?_) _ s
  dsimp only
  split
  · exact Calm.foldl _ (fun s e => calm_adoptLine s sl _ e) _ s
  · exact .rfl' s

theorem calm_storeSlot (s : State) (sl : Sluice) (pa va : Nat) (bytes : List Byte) (word : BitVec 16) :
    Calm s (storeSlot s sl pa va bytes word) := ((calm_putBytes ..).trans (calm_putBytes ..)).trans (calm_meter ..)

theorem calm_storeRaw (s : State) (sl : Sluice) (pa va : Nat) (plain : List Byte) (poison : List Nat) :
    Calm s (storeRaw s sl pa va plain poison) :=
  (calm_storeSlot ..).trans (Calm.foldl _ (fun s _ => calm_addPoison s _) _ _)

theorem calm_storeEncoded (s : State) (slot : Nat) (sl : Sluice) (pa va : Nat) (e : Encoded) (n : Nat) :
    Calm s (storeEncoded s slot sl pa va e n) := ((calm_storeSlot ..).trans (calm_onBinding ..)).trans (calm_meter ..)

theorem calm_storeBlock (s : State) (slot : Nat) (sl : Sluice) (pa va : Nat) (plain : List Byte) (poison : List Nat) :
    Calm s (storeBlock s slot sl pa va plain poison) := by
  unfold storeBlock
  split
  · exact calm_storeRaw ..
  · exact calm_storeEncoded ..

theorem calm_addRun (s : State) (r : Run) : Calm s (addRun s r) := by
  unfold addRun
  split <;> exact .of_eq rfl rfl rfl rfl rfl rfl

theorem calm_startEncode (s : State) (e : Nat) : Calm s (startEncode s e) := by
  unfold startEncode
  split
  · exact .rfl' s
  · split
    · split
      · exact calm_addRun ..
      · exact .rfl' s
    · exact .rfl' s

theorem calm_leaveClean (s : State) (pa : Nat) : Calm s (leaveClean s pa) := by
  unfold leaveClean
  split
  · split
    · exact .rfl' s
    · exact .of_eq rfl rfl rfl rfl rfl rfl
  · exact .rfl' s

theorem calm_dropRun (s : State) (pa : Nat) : Calm s (dropRun s pa) := .of_eq rfl rfl rfl rfl rfl rfl

theorem calm_finishEncode (s : State) (x : Encode) : Calm s (finishEncode s x) := by
  unfold finishEncode
  extract_lets u t
  have hu : Calm s u := .of_eq rfl rfl rfl rfl rfl rfl
  have ht : Calm u t := by
    unfold t
    split
    · split
      · split
        · exact calm_storeBlock ..
        · exact calm_storeEncoded ..
      · exact calm_storeBlock ..
    · exact calm_putBytes ..
  exact (((hu.trans ht).trans (calm_dropRun ..)).trans (calm_leaveClean ..)).trans (calm_startEncode ..)

theorem calm_finishWhere (s : State) (p : Encode → Bool) : Calm s (finishWhere s p) :=
  Calm.foldl _ calm_finishEncode _ s

/-- A new binding or a new codec pair (R141, R152) changes nothing that the issue of `sl.bind` reads. -/
theorem calm_bindRegion (s : State) (b : BindDesc) : OptInv (fun r => Calm s r.1) (bindRegion s b) := by
  unfold bindRegion
  extract_lets u bound
  have hbound : ∀ x, OptInv (fun r => Calm s r.1) (bound x) := by
    intro x
    refine OptInv.of_bind fun enc => OptInv.of_bind fun dec => ?_
    split
    · split
      · trivial
      · exact ((calm_initMeta ..).trans (calm_adoptLines ..)).withVd _
    · split
      · trivial
      · exact ((calm_finishWhere ..).trans (calm_newHandle ..)).trans (calm_onBinding ..)
  split
  · exact OptInv.of_bind hbound
  · exact hbound ()

section sluice
variable {s : State} {n r : Nat}

/-- The descriptor that `sl.bind` reads (R140). -/
def descAt (s : State) (r : Nat) : BindDesc := ⟨wordsNat (readRun s r 10)⟩

theorem slBind_torn {va : Nat} (h : tornBind s (descAt s r) = some va) : Faults (.slBind (.h n) (.s r)) s (tornRaise va) := by
  have hx : execSlBind (.h n) (.s r) s = issue (.slBind (.h n) (.s r)) (.error (tornRaise va)) s := by
    unfold execSlBind
    dsimp only
    rw [show tornBind s ⟨wordsNat (readRun s (regNo (.s r)) 10)⟩ = some va from h]
  exact issue_faults hx

/-- What `sl.bind` does once the walks of its descriptor have met no poisoned entry: a binding, or the refusal (R323). -/
def bindOutcome (n : Nat) (b : BindDesc) : Option (State × Dword) → Except Raise Effect
  | some q => .ok (.write (addDieJob q.1 q.2) [.hnd n q.2])
  | none => .error (.plain 0x20b b.slot)

theorem exec_slBind (h : tornBind s (descAt s r) = none) : exec (.slBind (.h n) (.s r)) s
    = issue (.slBind (.h n) (.s r)) (bindOutcome n (descAt s r)
        (bindRegion (drainStores (countImages s (descAt s r))) (descAt s r))) (countImages s (descAt s r)) := by
  show execSlBind (.h n) (.s r) s = _
  unfold execSlBind
  dsimp only
  rw [show tornBind s ⟨wordsNat (readRun s (regNo (.s r)) 10)⟩ = none from h]
  rfl

theorem slBind_refused (h : tornBind s (descAt s r) = none)
    (hb : bindRegion (drainStores (countImages s (descAt s r))) (descAt s r) = none) :
    FaultsIn (.slBind (.h n) (.s r)) s (countImages s (descAt s r)) (.plain 0x20b (descAt s r).slot) := by
  show exec _ s = _
  rw [exec_slBind h, hb]
  exact issue_error _ _ _

theorem slBind_lands (hs : Idle s) (h : tornBind s (descAt s r) = none) {st : State} {x : Dword}
    (hb : bindRegion (drainStores (countImages s (descAt s r))) (descAt s r) = some (st, x)) :
    Lands (.slBind (.h n) (.s r)) s (addDieJob st x) (setHreg st.g n x) := by
  have hst : Calm (drainStores (countImages s (descAt s r))) st := OptInv.of_eq (p := fun r => Calm _ r.1) hb (calm_bindRegion ..)
  have hcalm : Calm s (addDieJob st x) :=
    (((calm_countImages ..).trans (calm_drainStores _)).trans hst).trans (calm_addDieJob ..)
  have hg : (addDieJob st x).g = st.g := by
    unfold addDieJob
    split <;> rfl
  have hx : exec (.slBind (.h n) (.s r)) s
      = issue (.slBind (.h n) (.s r)) (.ok (.write (addDieJob st x) [.hnd n x])) s := by
    rw [exec_slBind h, hb]
    rfl
  rw [← hg]
  exact long_done [.hnd n x] [] hx hs hcalm rfl

/-! ### `sl.unbind` (R154, R324) -/

variable {slot : BitVec 4} {sl : Sluice}

/-- The state in which the binding of a slot is being unbound under a new handle. -/
def unbound (s : State) (slot : BitVec 4) : State :=
  let r := newHandle s s.team.die 2
  addDieJob (onBinding r.1 slot.toNat fun sl =>
    { sl with unbinding := true, unHandle := r.2, cursor := if sl.tc then sl.cursor else 0 }) r.2

theorem exec_slUnbind (hb : mget? s.vd.bindings slot.toNat = some sl) (hu : sl.unbinding = false) :
    exec (.slUnbind (.h n) slot) s = issue (.slUnbind (.h n) slot) (.ok (.write (unbound s slot)
      [.hnd n (handleWord s.vd.number s.team.die 2 (nextSerial s.vd s.team.die 2))])) s := by
  show execSlUnbind (.h n) slot s = _
  unfold execSlUnbind
  rw [hb]
  dsimp only
  rw [hu]
  rfl

theorem slUnbind_unbinding (hb : mget? s.vd.bindings slot.toNat = some sl) (hu : sl.unbinding = true) :
    Faults (.slUnbind (.h n) slot) s (.plain 0x20b slot.toNat) := by
  have hx : execSlUnbind (.h n) slot s = issue (.slUnbind (.h n) slot) (.error (.plain 0x20b slot.toNat)) s := by
    unfold execSlUnbind
    rw [hb]
    dsimp only
    rw [hu]
    rfl
  exact issue_faults hx

theorem slUnbind_none (hb : mget? s.vd.bindings slot.toNat = none) :
    Faults (.slUnbind (.h n) slot) s (.plain 0x20b slot.toNat) := by
  have hx : execSlUnbind (.h n) slot s = issue (.slUnbind (.h n) slot) (.error (.plain 0x20b slot.toNat)) s := by
    unfold execSlUnbind
    rw [hb]
  exact issue_faults hx

theorem calm_unbound (s : State) (slot : BitVec 4) : Calm s (unbound s slot) :=
  ((calm_newHandle ..).trans (calm_onBinding ..)).trans (calm_addDieJob ..)

/-- Unbinding changes the team's list of jobs, and of the device the serials and the binding. -/
theorem unbound_frame (hb : mget? s.vd.bindings slot.toNat = some sl) : ∃ (t : Team) (d : Device) (sl' : Sluice),
    unbound s slot = { s with team := t, vd := d } ∧ mget? d.bindings slot.toNat = some sl' ∧ sl'.unbinding = true := by
  have hon : mget? (newHandle s s.team.die 2).1.vd.bindings slot.toNat = some sl := hb
  unfold unbound addDieJob onBinding
  dsimp only
  rw [hon]
  dsimp only
  split
  · exact ⟨_, _, _, rfl, mget?_mins_same .., rfl⟩
  · exact ⟨_, _, _, rfl, mget?_mins_same .., rfl⟩

theorem slUnbind_lands (hs : Idle s) (hb : mget? s.vd.bindings slot.toNat = some sl) (hu : sl.unbinding = false) :
    Lands (.slUnbind (.h n) slot) s (unbound s slot)
      (setHreg s.g n (handleWord s.vd.number s.team.die 2 (nextSerial s.vd s.team.die 2))) := by
  obtain ⟨t, d, sl', hst, -, -⟩ := unbound_frame hb
  have hg : (unbound s slot).g = s.g := by rw [hst]
  rw [← hg]
  exact long_done [.hnd n _] [] (exec_slUnbind hb hu) hs (calm_unbound s slot) rfl

end sluice

/-- Settles O40: the writes of each control register are its mask; the sluice instructions and the stamps issue and land. -/
theorem systemInstructions : Obligations.SystemInstructions := by
  refine ⟨fun s n a r hs he => ⟨ctlRd_lands hs he n r, fun x hx => exec_ctlWr hs he hx, fun x => ?masks⟩,
    fun s n r a slot hs he => ⟨meterRd_lands hs n, fun va h => slBind_torn h,
      fun h => ⟨fun st x hb => slBind_lands hs h hb, fun hb => slBind_refused h hb⟩,
      fun sl hb hu => ?unbind, fun sl hb hu => slUnbind_unbinding hb hu, slUnbind_none, slStat_lands hs n slot,
      fun x hx => ⟨?stamp, ?sync⟩⟩⟩
  case masks =>
    refine ⟨rfl, rfl, rfl, rfl, rfl, rfl, fun q hq => ?_⟩
    cases q with
    | fpc | fps | sts | trapnext | trapvec => exact absurd hq (by decide)
    | _ => rfl
  case unbind =>
    obtain ⟨t, d, sl', hst, hget, hun⟩ := unbound_frame hb
    exact ⟨unbound s slot, sl', slUnbind_lands hs hb hu, by rw [hst]; exact hget, hun, by rw [hst]⟩
  case stamp => exact stampMark_lands hs rfl (by show execStamp a s = _; rw [execStamp, hx]; rfl)
  case sync =>
    exact stampMark_lands hs rfl (by show execStampSync a s = _; rw [execStampSync, afterOwn_idle hs he, hx]; rfl)

end Sys2Proof.Machine
end

section
/-!
PROOFS. O10: every short floating-point form computes lanes and flags in the one mould of an instruction with flags.
-/
namespace Sys2Proof.Machine

/-! ### Short forms (R253 to R259) -/

/-- An instruction of the mould that completes as it issues. -/
theorem vecFpDone_flagged {i : Instr} {s : State} {n : Nat} {pd all : Bool} {f : Nat → Dword × FpFlags}
    (hx : exec i s = vecFlagged i (.v n) pd all f s) (hp : perLane i = true) (hl : isLong i = false) :
    VecFpDone i s n pd all f :=
  fun hq hf => hx.trans (vecFlagged_quiet i s n pd all f hq hp hl hf)

/-- Settles O10: each form is the mould of an instruction with flags at its own lanes, and is short. -/
theorem vectorFloatingPoint : Obligations.VectorFloatingPoint := by
  refine ⟨fun s n a b c => ⟨fun ty m => ⟨?_, ?_, ?_, ?_, ?_, ?_, fun cc => ?_⟩, fun m f16 => ?_, fun m => ?_⟩,
    fun s n a imm dyn => ⟨?_, ?_, ?_, ?_, ?_⟩, fun s n a b ty m cv => ⟨?_, ?_, ?_, ?_⟩⟩
  iterate 18 exact vecFpDone_flagged rfl rfl rfl

end Sys2Proof.Machine
end

section
/-!
PROOFS. O11: a long-latency instruction of the same mould lands its lanes and flags at FLAG_CLEAR.
-/
namespace Sys2Proof.Machine

/-! ### The mould of an instruction with flags, as an effect (R232, R234) -/

section flagged
variable {i : Instr} {s : State} {n : Nat} {all : Bool}

/-- The lanes that the mould computes: those of inactive lanes are 0, without flags. -/
def flaggedLanes (s : State) (f : Nat → Dword × FpFlags) : List (Dword × FpFlags) :=
  lanes32.map fun l => if laneOn (execMask s) l then f l else (0, 0)

theorem flaggedLanes_flags (s : State) (f : Nat → Dword × FpFlags) : (flaggedLanes s f).map (·.2) = activeFlags s f := by
  rw [flaggedLanes, activeFlags, List.map_map]
  refine List.map_congr_left fun l _ => ?_
  exact apply_ite Prod.snd ..

theorem flaggedLanes_getD (s : State) (f : Nat → Dword × FpFlags) {l : Nat} (h : l < 32) :
    ((flaggedLanes s f).getD l (0, 0)).1 = if laneOn (execMask s) l then (f l).1 else 0 := by
  have hl : (flaggedLanes s f).getD l (0, 0) = if laneOn (execMask s) l then f l else (0, 0) := by
    simp [flaggedLanes, lanes32, h]
  rw [hl]
  exact apply_ite Prod.fst ..

/-- The writes of the mould, landed. -/
theorem applyWrites_flagged (s : State) (n : Nat) (pd all : Bool) (f : Nat → Dword × FpFlags) :
    applyWrites s.g (vecWrites s (.v n) pd none all fun l => ((flaggedLanes s f).getD l (0, 0)).1)
      = putVecTy s n pd none all fun l => (f l).1 := by
  rw [applyWrites_vec]
  exact putVecTy_masked s n pd none all _ _ fun l hl => flaggedLanes_getD s f hl

/-! ### An instruction that lands -/

/-- An effect with register writes, flags that trap nothing and STS bits, of a long-latency instruction. -/
theorem long_lands {ws : List RegWrite} {fp : List FpFlags} {sts : Word}
    (hx : exec i s = issue i (.ok { Effect.write s ws with fp := fp, sts := sts }) s) (hs : Idle s) (hl : isLong i = true)
    (hf : fpTrap (trapEnables s.g) fp 0 = none) : Lands i s s (addSts (addFps (applyWrites s.g ws) (orFlags fp)) sts) :=
  lands i s { Effect.write s ws with fp := fp, sts := sts } (hx.trans (issue_long _ _ _ hl)) hs rfl hf rfl rfl

theorem vecFpLands_flagged {f : Nat → Word × FpFlags} (hx : exec i s = vecFlagged i (.v n) false all (fun l => wide (f l)) s)
    (hl : isLong i = true) : VecFpLands i s n all f := by
  intro hs hf
  rw [← flaggedLanes_flags] at hf
  have h := long_lands (sts := 0) hx hs hl hf
  rw [addSts_zero] at h
  show Lands i s s (addFps (putVecTy s n false none all fun l => (wide (f l)).1) (orFlags (activeFlags s fun l => wide (f l))))
  rw [← flaggedLanes_flags, ← applyWrites_flagged]
  exact h

end flagged

/-- Settles O11: each of the seven is the mould of an instruction with flags at its own lanes, and is long-latency. -/
theorem specialFunctions : Obligations.SpecialFunctions := by
  intro s n a m
  refine ⟨?_, ?_, ?_, ?_, ?_, ?_, ?_⟩
  iterate 7 exact vecFpLands_flagged rfl rfl

end Sys2Proof.Machine
end

section
/-!
PROOFS. O13: a reduction and a scan issue with the lanes, the flags and the STS bits of the tree and of the network.
-/
namespace Sys2Proof.Machine

/-! ### Member masks that name every active lane (R263) -/

section covers
variable {s : State} {c : Opnd} {mm : Option Word}

theorem members_covers (h : Covers s c mm) : members s c = .ok mm := by
  cases mm with
  | none => exact if_pos h
  | some m =>
    obtain ⟨hc, hu, hm⟩ := h
    rw [members, if_neg hc, hu]
    exact if_neg (not_not.mpr hm)

theorem memberLanes_covers (h : Covers s c mm) : memberLanes s mm = execMask s := by
  cases mm with
  | none => rfl
  | some m =>
    obtain ⟨-, -, hm⟩ := h
    show execMask s &&& m = execMask s
    apply BitVec.eq_of_getLsbD_eq
    intro l hl
    simpa [hl] using congrArg (BitVec.getLsbD · l) hm

end covers

/-! ### A cross-lane instruction lands (R262) -/

section cross
variable {i : Instr} {s : State} {c : Opnd} {mm : Option Word} {idle sts : Word}
  {f : Option Word → Except Raise (List RegWrite × Word × List FpFlags)} {ws : List RegWrite} {fp : List FpFlags}

theorem cross_lands (hx : exec i s = crossIssue i c idle f s) (hs : Idle s) (hl : isLong i = true) (hon : execMask s ≠ 0)
    (hc : Covers s c mm) (hf : f mm = .ok (ws, sts, fp)) (ht : fpTrap (trapEnables s.g) fp 0 = none) :
    Lands i s s (addSts (addFps (applyWrites s.g ws) (orFlags fp)) (memberSts s mm ||| sts)) := by
  refine long_lands ?_ hs hl ht
  rw [hx, crossIssue, if_neg hon, members_covers hc]
  show issue i ((f mm).map _) s = _
  rw [hf]
  rfl

/-- Without an active lane only STS bits land. -/
theorem cross_idle_lands (hx : exec i s = crossIssue i c idle f s) (hs : Idle s) (hl : isLong i = true) (hz : execMask s = 0) :
    Lands i s s (addSts s.g idle) := by
  have h := long_lands (ws := []) (fp := []) (sts := idle) (by rw [hx, crossIssue, if_pos hz]; rfl) hs hl (fpTrap_none _)
  rw [show orFlags [] = 0 from rfl, addFps_zero] at h
  exact h

end cross

/-- Settles O13: the active lanes are the members, and what the tree and the network make of them is what lands. -/
theorem reductionsAndScans : Obligations.ReductionsAndScans := by
  refine ⟨?red, ?scan, fun s d a c w op ty excl hs hz => ⟨cross_idle_lands rfl hs rfl hz, ?noLane⟩⟩
  case red =>
    intro s n a c w op ty mm hs hon hc t0 r empty ht
    rw [← applyWrites_vec]
    refine cross_lands rfl hs rfl hon hc ?_ ht
    rw [memberLanes_covers hc]
  case scan =>
    intro s n a c w op ty excl mm hs hon hc t0 r ht
    rw [← applyWrites_vec, ← BitVec.or_zero (x := memberSts s mm)]
    refine cross_lands rfl hs rfl hon hc ?_ ht
    rw [memberLanes_covers hc]
    rfl
  case noLane =>
    have h := cross_idle_lands (i := .scan op excl w ty d a c) rfl hs rfl hz
    rwa [addSts_zero] at h

end Sys2Proof.Machine
end

section
/-!
PROOFS. O14: a node of the reduction tree holds the fold of its lanes, for every operation that is associative.
-/
namespace Sys2Proof.Machine

/-! ### A node of the tree is a fold (R87) -/

section tree
variable {op : Word → Word → Word} {e : Word} [Std.Associative op] [Std.LawfulIdentity op e]

theorem foldl_append_assoc (xs ys : List Word) : (xs ++ ys).foldl op e = op (xs.foldl op e) (ys.foldl op e) := by
  rw [List.foldl_append, ← List.foldl_assoc (op := op), Std.LawfulRightIdentity.right_id (op := op)]

/-- The lanes below a node of level `d`: 2^d from `lo` on. -/
def nodeLanes (t0 : List Word) (d lo : Nat) : List Word := (t0.drop lo).take (2 ^ d)

variable {f : Word → Word → Word × FpFlags} {t0 : List Word}

theorem nodeLanes_leaf {lo : Nat} (h : lo < t0.length) : nodeLanes t0 0 lo = [laneAt t0 lo] := by
  rw [nodeLanes, pow_zero, List.take_one, List.head?_drop, laneAt, List.getD_eq_getElem?_getD, List.getElem?_eq_getElem h]
  rfl

theorem nodeLanes_succ (t0 : List Word) (d lo : Nat) :
    nodeLanes t0 (d + 1) lo = nodeLanes t0 d lo ++ nodeLanes t0 d (lo + 2 ^ d) := by
  rw [nodeLanes, pow_succ, mul_two, List.take_add, List.drop_drop]
  rfl

/-- The value of a node does not depend on the flags that the lanes have so far. -/
theorem redTree_eq_foldl (hf : ∀ a b, (f a b).1 = op a b) (d lo : Nat) (fp : List FpFlags) (h : lo + 2 ^ d ≤ t0.length) :
    (redTree f t0 d lo fp).1 = (nodeLanes t0 d lo).foldl op e := by
  induction d generalizing lo fp with
  | zero =>
    rw [nodeLanes_leaf (by omega), List.foldl_cons, List.foldl_nil, Std.LawfulLeftIdentity.left_id (op := op)]
    rfl
  | succ d ih =>
    rw [pow_succ] at h
    rw [nodeLanes_succ, foldl_append_assoc, ← ih lo fp (by omega), ← ih (lo + 2 ^ d) (redTree f t0 d lo fp).2 (by omega), ← hf]
    rfl

/-- The tree over all 32 lanes. -/
theorem redTree_all (hf : ∀ a b, (f a b).1 = op a b) (h : t0.length = 32) (fp : List FpFlags) :
    (redTree f t0 5 0 fp).1 = t0.foldl op e := by
  have hlanes : nodeLanes t0 5 0 = t0 := List.take_of_length_le (by rw [List.length_drop]; omega)
  rw [redTree_eq_foldl (e := e) hf 5 0 fp (by omega), hlanes]

end tree

theorem intVal_n32 (x : Word) : intVal .n32 (x.setWidth 64) = x.toNat := by
  have hx := x.isLt
  show ((x.setWidth 64).toNat % 2 ^ 32 : Nat) = (x.toNat : Int)
  rw [BitVec.toNat_setWidth]
  omega

/-- A node that adds n32 values adds the words (R233). -/
theorem redNode_add (flush : Bool) (a b : Word) : (redNode .add flush .n32 a b).1 = a + b := by
  show (BitVec.ofInt 64 ((intVal .n32 (a.setWidth 64) + intVal .n32 (b.setWidth 64)) % 2 ^ 32)).setWidth 32 = a + b
  rw [intVal_n32, intVal_n32]
  apply BitVec.eq_of_toNat_eq
  rw [BitVec.toNat_setWidth, BitVec.toNat_ofInt, BitVec.toNat_add]
  omega

/-- Settles O14: each of the four operations is associative and has an identity, so a node of the tree is a fold. -/
theorem reductionIsFold : Obligations.ReductionIsFold := fun _ h =>
  ⟨redTree_all (redNode_add false) h _,
    redTree_all (op := (· ^^^ ·)) (fun _ _ => rfl) h _,
    redTree_all (op := (· ||| ·)) (fun _ _ => rfl) h _,
    redTree_all (op := (· &&& ·)) (e := BitVec.allOnes 32) (fun _ _ => rfl) h _⟩

end Sys2Proof.Machine
end

section
/-!
PROOFS. O3: the values and the flags of the scalar floating-point forms, and the trap of an addition that raises an enabled one.
-/
namespace Sys2Proof.Machine

/-! ### Scalar forms whose flags are not enabled (R249, R253, R258) -/

section values
variable {i : Instr} {s : State} {n : Nat} {a b : Opnd} {x y : Word}

theorem scaFpDone_scaFp {pd : Bool} {v : Except Raise (Dword × FpFlags)} {r : Dword × FpFlags} (hq : Quiet s)
    (hx : exec i s = scaFp i (.s n) pd v s) (hv : v = .ok r) (hp : perLane i = false) (hl : isLong i = false) :
    ScaFpDone i s n pd r := by
  intro hf
  rw [hx, hv, ← applyWrites_sca]
  exact scaFp_quiet i s (.s n) pd r.1 r.2 hq hp hl hf

theorem scaFp2_ok (ha : uni s 1 a = .ok x) (hb : uni s 2 b = .ok y) (f : FpFmt → Fv → Fv → Nat × FpFlags) :
    scaFp2 s a b f = .ok (wide (fp2 (ftz s.g) .f32 f x y)) := by
  rw [scaFp2, ha, hb]
  rfl

theorem scaFpI_ok (ha : uni s 1 a = .ok x) (imm : Word) (f : FpFmt → Fv → Fv → Nat × FpFlags) :
    scaFpI s a imm f = .ok (wide (fp2 (ftz s.g) .f32 f x imm)) := by
  rw [scaFpI, ha]
  rfl

end values

/-! ### The trap of an enabled flag (R90, R234, R365) -/

/-- The cause of an instruction of the issuing slot that has completed. -/
def completionCause (i : Instr) (s : State) (r : Raise) : Cause := trapCause s.slot (cur s).pc (nextAddr i (cur s)) (trapDst i) r

/-- What the canaries make of the events of an instruction that has raised a cause. -/
def watchedTold (i : Instr) (s raised : State) (evs : List Watch) : State :=
  watchSince raised true raised.now s.slot evs [1, 2] (completionCause i s (.plain 0x003 0))

/-- A short instruction of a quiet group whose flags trap writes its results, raises the cause, and is watched. -/
theorem finishShort_traps {i : Instr} {e : Effect} {r : Raise} (h : Quiet e.st) (hs : e.sts = 0) (hp : perLane i = false)
    (hf : fpTrap (trapEnables e.st.g) e.fp e.sfp = some r) :
    finishShort i e = watchedTold i e.st
      (raise (advance i e.st (addFps (applyWrites e.st.g e.writes) (orFlags e.fp ||| e.sfp))) (completionCause i e.st r))
      (ownPc i e.st ++ e.events ++ flagEvents i (cur e.st).mask e.fp e.sfp) := by
  have hst : ({ e.st with g := landShort i e } : State)
      = advance i e.st (addFps (applyWrites e.st.g e.writes) (orFlags e.fp ||| e.sfp)) := by
    rw [landShort_quiet i e h.1 hs]
    rfl
  have ht : fpTrap (trapEnables (advance i e.st (addFps (applyWrites e.st.g e.writes) (orFlags e.fp ||| e.sfp))).g)
      e.fp e.sfp = some r := by rw [trapEnables_congr (g' := e.st.g) (by simp [addFps])]; exact hf
  unfold finishShort
  dsimp only
  rw [hst, hp]
  simp only [Bool.false_eq_true, if_false, countLanes_zero, ht]
  rfl

theorem fpTrap_enabled {te f : FpFlags} (h : f &&& te ≠ 0) : fpTrap te [] f = some (.plain 0x002 f.toNat) := by
  unfold fpTrap
  dsimp only
  rw [if_neg (by simp), if_pos h]

/-- The state in which a scalar result and its enabled flags stand and their trap is raised. -/
def flagsRaised (i : Instr) (s : State) (n : Nat) (r : Word × FpFlags) : State :=
  raise (advance i s (addFps (setSreg s.g n r.1) r.2)) (completionCause i s (.plain 0x002 r.2.toNat))

/-- A scalar instruction that raises an enabled flag writes its result and its flags, and traps; the canaries see its own
event of source 0 as any instruction's (R429). -/
theorem scaFp_traps {i : Instr} {s : State} {n : Nat} {r : Word × FpFlags} (hq : Quiet s) (hp : perLane i = false)
    (hl : isLong i = false) (hf : r.2 &&& trapEnables s.g ≠ 0) :
    scaFp i (.s n) false (.ok (wide r)) s
      = .next (watchedTold i s (flagsRaised i s n r) (ownPc i s ++ flagEvents i (cur s).mask [] r.2)) := by
  have hw : applyWrites s.g (scaWrites (.s n) false (wide r).1) = setSreg s.g n r.1 := by
    rw [applyWrites_sca]
    exact congrArg (setSreg s.g n) (BitVec.setWidth_setWidth_of_le _ (by omega))
  have h := finishShort_traps (i := i) (e := { Effect.write s (scaWrites (.s n) false (wide r).1) with sfp := r.2 }) hq rfl hp
    (fpTrap_enabled hf)
  refine (issue_short i _ s hl).trans (congrArg Host.Outcome.next (h.trans ?_))
  show watchedTold i s (raise (advance i s (addFps (applyWrites s.g (scaWrites (.s n) false (wide r).1)) (0 ||| r.2)))
    (completionCause i s (.plain 0x002 r.2.toNat))) (ownPc i s ++ [] ++ flagEvents i (cur s).mask [] r.2) = _
  rw [hw, List.append_nil, show (0 : FpFlags) ||| r.2 = r.2 from BitVec.zero_or]
  rfl

/-- An addition that raises an enabled flag. -/
theorem exec_sFadd_traps {s : State} {m : Rnd} {n : Nat} {a b : Opnd} {x y : Word} (hq : Quiet s) (ha : uni s 1 a = .ok x)
    (hb : uni s 2 b = .ok y) (hf : (fp2 (ftz s.g) .f32 (fun F => F.fadd (modeOf s.g m)) x y).2 &&& trapEnables s.g ≠ 0) :
    let i : Instr := .sFadd m (.s n) a b
    let r := fp2 (ftz s.g) .f32 (fun F => F.fadd (modeOf s.g m)) x y
    exec i s = .next (watchedTold i s (flagsRaised i s n r) (ownPc i s ++ flagEvents i (cur s).mask [] r.2)) := by
  intro i r
  show scaFp i (.s n) false (scaFp2 s a b fun F => F.fadd (modeOf s.g m)) s = _
  rw [scaFp2_ok ha hb]
  exact scaFp_traps hq rfl rfl hf

end Sys2Proof.Machine
end

section
/-!
PROOFS. O3: raising a cause leaves no canary on a core that had none, unless it loses the device.
-/
namespace Sys2Proof.Machine

/-! ### A cause leaves no canary on a core that had none (R411) -/

theorem calm_writeLog (s : State) (cyc pc addr cause mask act core gid x y z : Nat) :
    Calm s (writeLog s cyc pc addr cause mask act core gid x y z) := by
  unfold writeLog
  extract_lets i bytes r
  exact (((Calm.rfl' s).withVd _).trans (calm_writeRing ..)).trans (calm_sendFor ..)

/-- No canary watches the group in focus. -/
def Unwatched (s : State) : Prop := (coreAt s s.g.core).canaries = []

section unwatched
variable {s t : State}

theorem Unwatched.of_eq (h : Unwatched s) (hc : t.cores = s.cores) (hg : t.g.core = s.g.core) : Unwatched t := by
  rw [Unwatched, coreAt, hc, hg]
  exact h

theorem Unwatched.calm (h : Unwatched s) (hc : Calm s t) : Unwatched t := h.of_eq hc.cores hc.core

theorem Unwatched.foldl {α : Type} {f : State → α → State} (h : Unwatched s) (hf : ∀ s x, Unwatched s → Unwatched (f s x))
    (l : List α) : Unwatched (l.foldl f s) := by
  induction l generalizing s with
  | nil => exact h
  | cons x l ih => exact ih (hf s x h)

theorem Unwatched.onGroups {p : Group → Bool} {f : Group → Group} (h : Unwatched s) (hf : ∀ g, (f g).core = g.core) :
    Unwatched (onGroups s p f) :=
  h.of_eq rfl (by
    show (if p s.g then f s.g else s.g).core = _
    split
    · exact hf s.g
    · rfl)

theorem Unwatched.abandonSift (h : Unwatched s) : Unwatched (abandonSift s) := h.onGroups fun _ => rfl

theorem Unwatched.writeLog (h : Unwatched s) (cyc pc addr cause mask act core gid x y z : Nat) :
    Unwatched (writeLog s cyc pc addr cause mask act core gid x y z) := h.calm (calm_writeLog ..)

theorem Unwatched.drainTeam (h : Unwatched s) : Unwatched (drainTeam s) :=
  (h.foldl (fun _ _ h => h.foldl (fun _ _ h => h.calm (calm_putVisible ..)) _) _).onGroups fun _ => rfl

theorem Unwatched.dropWaits (h : Unwatched s) (p : Loc × Nat × SlotId → Bool) : Unwatched (dropWaits s p) :=
  Unwatched.foldl (s := { s with team := { s.team with gaugers := s.team.gaugers.filter fun w => !p w } }) h
    (fun _ _ h => h.calm (calm_putAll ..)) _

/-- Canaries that apply are placed anew only where some stand. -/
theorem coreAt_setCanaries (s : State) (mark n : Nat) : (coreAt (setCanaries s mark) n).canaries
    = (coreAt s n).canaries.map fun e => (e.1, e.2.set mark s.now) := by
  show (mget Core.fresh (s.cores.map _) n).canaries = (mget Core.fresh s.cores n).canaries.map _
  induction s.cores with
  | nil => rfl
  | cons e l ih =>
    show (if n = e.1 then _ else _ : Core).canaries = (if n = e.1 then _ else _ : Core).canaries.map _
    split
    · rfl
    · exact ih

theorem Unwatched.setCanaries (h : Unwatched s) (mark : Nat) : Unwatched (setCanaries s mark) := by
  show (coreAt (Machine.setCanaries s mark) s.g.core).canaries = []
  rw [coreAt_setCanaries, h]
  rfl

theorem Unwatched.countLanes (h : Unwatched s) (n : Nat) : Unwatched (countLanes s n) :=
  h.of_eq (countLanes_cores s n) (by rw [countLanes_g])

theorem Unwatched.landOutside (h : Unwatched s) (f : InFlight) : Unwatched (landOutside s f) := by
  unfold Machine.landOutside
  cases f.arm with
  | none => exact h.countLanes _
  | some mark => exact (h.countLanes _).setCanaries mark

theorem Unwatched.landActed (h : Unwatched s) : Unwatched (landActed s) :=
  h.foldl (fun s f h => by
    show Unwatched (if f.acted then Machine.landOutside s f else s)
    split
    · exact h.landOutside f
    · exact h) _

theorem Unwatched.settleQueue (h : Unwatched s) : Unwatched (settleQueue s) := h.of_eq rfl rfl

theorem Unwatched.endTeam (h : Unwatched s) (code : Nat) (again : Bool) : Unwatched (endTeam s code again) := by
  unfold Machine.endTeam
  extract_lets s1 s2 js d d'
  have hs1 : Unwatched s1 := (h.drainTeam.dropWaits _).landActed
  have hs2 : Unwatched s2 := hs1.onGroups fun _ => rfl
  clear_value s2 d'
  exact Unwatched.settleQueue (hs2.of_eq rfl rfl)

theorem Unwatched.enterUser (h : Unwatched s) (c : Cause) : Unwatched (enterUser s c) := by
  obtain ⟨_, _, _, _, hg⟩ := enterUser_frame s c
  exact h.of_eq rfl (by rw [hg]; rfl)

/-- A cause of no page-table entry is logged, and ends its team where that runs (R370). -/
theorem Unwatched.enterSupervisor {c : Cause} (h : Unwatched s) (hc : c.code ≠ 0x406) (svc : Nat) :
    Unwatched (enterSupervisor s c svc) := by
  unfold Machine.enterSupervisor
  extract_lets g s1 repair again t torn act s2
  have hg : g.core = s.g.core := by
    unfold g
    split <;> rfl
  have hs1 : Unwatched s1 := h.of_eq rfl hg
  have hs2 : Unwatched s2 := hs1.writeLog ..
  have hr : repair = false := by simp [repair, hc]
  rw [hr, if_neg Bool.false_ne_true]
  split
  · exact hs2
  · exact hs2.endTeam ..

theorem Unwatched.repairTable (h : Unwatched s) (hr : repairFails s = false) (pa : Nat) : Unwatched (repairTable s pa) := by
  rw [Machine.repairTable, if_neg (by simp [hr])]
  exact h

/-- Where no repair of a page table fails, a cause of kind T leaves the group in focus, and its core without a canary. -/
theorem Unwatched.raise_trap {c : Cause} (h : Unwatched s) (hk : c.kind = .trap) (hc : c.code ≠ 0x406)
    (hr : repairFails s = false) : Unwatched (raise s c) := by
  have henter : Unwatched (enter s c) := by
    have hu : Unwatched (stopped s) := Unwatched.abandonSift (s := { s with g := { s.g with entry := none } }) h
    show Unwatched (if serviceOf (stopped s) c = 0 then Machine.enterUser (stopped s) c
      else match if serviceOf (stopped s) c = 4 then tornHandler (stopped s) else none with
        | some pa => Machine.repairTable { stopped s with g := { (stopped s).g with entry := some c } } pa
        | none => Machine.enterSupervisor (stopped s) c (serviceOf (stopped s) c))
    split
    · exact hu.enterUser c
    · split
      · exact Unwatched.repairTable (s := { stopped s with g := { (stopped s).g with entry := some c } }) hu hr _
      · exact hu.enterSupervisor hc _
  unfold raise
  dsimp only
  split
  · rw [hk]
    show Unwatched { s with g := setPend s.g c.slot (some c) }
    cases c.slot <;> exact h
  · unfold stopFor
    split
    · exact h
    · split
      · exact henter
      · exact h

end unwatched

end Sys2Proof.Machine
end

section
/-!
PROOFS. O3 is unsettled: its trap clause gives the canaries the addition's event of source 0 where a group that `dbg.run` has set
going makes none (R429). Canaries can tell only where the trap has lost the device, on a repair of the page table that fails
(R403), and whether one ever fails is an opaque draw. The statement is shown equivalent to its never failing.
-/
namespace Sys2Proof.Machine

/-! ### A group whose trap loses its device -/

/-- A chain of device 0 that counts the instructions of its core that raise a flag, at any address but 0 (R409, R412). -/
def flagChain : SMap Canary :=
  let word (chain src : Nat) : BitVec 128 :=
    BitVec.ofNat 128 (0xffffffff * 2 ^ 16 + 2 ^ 15 + chain * 2 ^ 14 + 2 ^ 10 + src * 2 ^ 7 + 7 * 2 ^ 4 + 2 ^ 2)
  [(0, { Canary.none_ with word := word 1 0 }), (1, { Canary.none_ with word := word 0 5 })]

/-- Core 0 with the chain. -/
def countingCores : SMap Core := [(0, { Core.fresh with canaries := flagChain })]

/-- A group of device 1 on core 1 that `dbg.run` has set going, with every flag enabled, at the addition of two numbers whose
sum is inexact; the walk to its handler meets a poisoned entry, and device 0 counts on core 0. -/
def lostAt (d : Nat) : State :=
  let s := State.reset.withFetchWord 64 0
  { s with
    g := { s.g with
      core := 1, fpc := 0x1f, trapvec := 1, sregs := [(4, 0x3f800000), (5, 1)], a := { s.g.a with calm := true } }
    vd := { s.vd with number := 1 }, poison := [2 ^ 34], cores := countingCores, draw := d }

theorem quiet_lostAt (d : Nat) : Quiet (lostAt d) := ⟨rfl, rfl⟩

/-- The addition that traps there. -/
def lostAdd : Instr := .sFadd .rn (.s 10) (.s 4) (.s 5)

def lostSum : Word × FpFlags := fp2 (ftz (lostAt 0).g) .f32 (fun F => F.fadd (modeOf (lostAt 0).g .rn)) 0x3f800000 1

theorem lostSum_enabled : lostSum.2 &&& trapEnables (lostAt 0).g ≠ 0 := by decide +kernel

/-- The state in which its trap is raised. -/
def lostDone (d : Nat) : State := advance lostAdd (lostAt d) (addFps (setSreg (lostAt d).g 10 lostSum.1) lostSum.2)

/-- The cause of that trap. -/
def lostCause (d : Nat) : Cause := completionCause lostAdd (lostAt d) (.plain 0x002 lostSum.2.toNat)

theorem mainPoison_lostDone (d : Nat) : mainPoison (lostDone d) (2 ^ 39) = true := rfl

theorem handlerPc_lostDone (d : Nat) : handlerPc (lostDone d).g = 0 := by
  have hv : (lostDone d).g.trapvec = 1 := rfl
  rw [handlerPc, hv]
  decide

/-- The walk to the handler ends at its first entry. -/
theorem walk_lostDone (d : Nat) : walk (lostDone d) (lostDone d).vd (handlerPc (lostDone d).g).toNat = .poisoned (2 ^ 39) := by
  have hroot : (lostDone d).vd.root = 2 ^ 39 := rfl
  rw [handlerPc_lostDone, walk, hroot, levels, walkFrom]
  exact if_pos (mainPoison_lostDone d)

theorem tornHandler_lostDone (d : Nat) : tornHandler (lostDone d) = some (2 ^ 39) := by rw [tornHandler, walk_lostDone]

theorem handlerOk_lostDone (d : Nat) : handlerOk (lostDone d) = false := by
  rw [handlerOk, fetchWord, walk_lostDone]

theorem inHandler_lostDone (d : Nat) : inHandler (lostDone d).g = false := by
  have hp : (lostDone d).g.priv = 0 := rfl
  rw [inHandler, hp]
  decide

theorem serviceOf_lostDone (d : Nat) : serviceOf (lostDone d) (lostCause d) = 4 := by
  have hk : (lostCause d).kind ≠ .sup := nofun
  have hv : (lostDone d).g.trapvec = 1 := rfl
  simp [serviceOf, hk, hv, inHandler_lostDone, handlerOk_lostDone]

/-- The state in which the cause waits to be entered again. -/
def lostWaiting (d : Nat) : State :=
  { stopped (lostDone d) with g := { (stopped (lostDone d)).g with entry := some (lostCause d) } }

/-- A failed repair loses the device (R403). -/
theorem raise_lostDone {d : Nat} (hd : Config.freePick d 9 0 = true) :
    raise (lostDone d) (lostCause d) = loseDevice (lostWaiting d) 1 := by
  have hs := serviceOf_lostDone d
  have hi : drained (lostDone d) (lostCause d) = true := drained_quiet rfl (by simp [detailLocked, hs])
  exact (raise_torn _ _ _ hi rfl (inHandler_lostDone d) hs (tornHandler_lostDone d)).trans (if_pos hd)

/-! ### What is in focus after the loss of a device (R443) -/

theorem focusDevice_stash {s : State} (ha : s.vd.alive = true) :
    focusDevice (stash s) s.vd.number = some { stash (stash s) with vd := s.vd, devices := s.devices } := by
  simp [focusDevice, stash, pick, ha, Device.idle]

theorem calm_resolveLoad (s : State) (l : Load) (w : Word) : Calm s (resolveLoad s l w) :=
  ((Calm.rfl' s).withVd _).trans (calm_sendFor ..)

/-- What is told of the loss of the device in focus: its loads resolve, and one record is logged. -/
def lossTold (s : State) : State :=
  let t := s.vd.loads.foldl (fun s l => resolveLoad s l (statusWord 2 false false false false 0)) s
  writeLog t (cycleOf t 0) 0 0 0 0 3 0 0 0 0 0

theorem calm_lossTold (s : State) : Calm s (lossTold s) :=
  (Calm.foldl _ (fun s l => calm_resolveLoad s l _) s.vd.loads s).trans (calm_writeLog ..)

/-- The core without the canaries of a device. -/
def withoutCanaries (n : Nat) (c : Core) : Core := { c with canaries := c.canaries.filter fun e => e.2.vd != n }

/-- The group in focus is the one that stands there with the device, and the device's canaries are gone. -/
theorem dropDevice_frame {s u : State} {n : Nat} (h : focusDevice (stash s) n = some u) :
    (dropDevice s n).g.ref = u.g.ref ∧ (dropDevice s n).g.core = u.g.core
      ∧ (dropDevice s n).cores = u.cores.foldl (fun m e => mset Core.fresh m e.1 (withoutCanaries n e.2)) [] := by
  unfold dropDevice
  split
  · next e => exact absurd (e.symm.trans h) nofun
  · next v e =>
    obtain rfl : v = u := Option.some.inj (e.symm.trans h)
    extract_lets d s1 s2 rs mine
    have hs2 : Calm v s2 := calm_lossTold v
    clear_value s2
    exact ⟨hs2.gref, hs2.core, by rw [← hs2.cores]; rfl⟩

theorem loseDevice_eq (s : State) (n : Nat) : loseDevice s n = { dropDevice s n with gone := sadd s.gone n } := rfl

theorem loseDevice_frame {s u : State} {n : Nat} (h : focusDevice (stash s) n = some u) :
    (loseDevice s n).g.ref = u.g.ref ∧ (loseDevice s n).g.core = u.g.core
      ∧ (loseDevice s n).cores = u.cores.foldl (fun m e => mset Core.fresh m e.1 (withoutCanaries n e.2)) [] := by
  have hd := dropDevice_frame h
  rw [loseDevice_eq]
  generalize dropDevice s n = v at hd ⊢
  exact hd

/-! ### What the chain sees of the lost group's instruction -/

/-- A chain asks a group for its team alone, and each of its canaries whether it applies yet. -/
theorem chainHit_congr {g g' : Group} {bank : SMap Canary} {n n' : Nat} (hg : g.ref = g'.ref)
    (ha : ∀ k, (mget Canary.none_ bank k).applies n = (mget Canary.none_ bank k).applies n') (nums : List Nat)
    (evs : List Watch) (phases : List Nat) : chainHit g bank n nums evs phases = chainHit g' bank n' nums evs phases := by
  simp [chainHit, Canary.watches, hg, Function.comp_def, ha]

theorem flagChain_applies (k n : Nat) : (mget Canary.none_ flagChain k).applies n = true := by
  have hnew : (mget Canary.none_ flagChain k).placing = none ∧ (mget Canary.none_ flagChain k).since = 0 := by
    simp only [flagChain, mget]
    split
    · exact ⟨rfl, rfl⟩
    · split <;> exact ⟨rfl, rfl⟩
  simp [Canary.applies, hnew]

/-- A hit of the chain by a scalar instruction, which is counted. -/
def countedHit : Hit := { num := 1, act := 0, lanes := 0, whole := true, late := false }

/-- The hits of the bank on events, for a group that stands where no team runs. -/
def bankHits (evs : List Watch) : List Hit := (chains flagChain).filterMap fun ns => chainHit Group.idle flagChain 0 ns evs [1, 2]

/-- The event of source 0 of the addition, and the event of its flags. -/
def lostPc : List Watch := pcEvents lostAdd (cur (lostAt 0)).pc (cur (lostAt 0)).mask
def lostFlags : List Watch := flagEvents lostAdd (cur (lostAt 0)).mask [] lostSum.2

theorem bankHits_flags : bankHits lostFlags = [] := by decide +kernel

theorem bankHits_both : bankHits (lostPc ++ lostFlags) = [countedHit] := by decide +kernel

theorem hits_flagChain {g : Group} (hg : g.ref = Group.idle.ref) (n : Nat) (evs : List Watch) :
    (chains flagChain).filterMap (fun ns => chainHit g flagChain n ns evs [1, 2]) = bankHits evs :=
  congrArg (List.filterMap · _) (funext fun ns => chainHit_congr hg (fun k => by rw [flagChain_applies, flagChain_applies]) ns _ _)

section seen
variable {t : State} (hg : t.g.ref = Group.idle.ref) (hb : (coreAt t t.g.core).canaries = flagChain) {told : Bool} {n : Nat}
  {i : SlotId} {c : Cause}
include hg hb

theorem watchSince_flags : watchSince t told n i lostFlags [1, 2] c = t := by
  unfold watchSince
  dsimp only
  rw [hb, if_neg (by decide), hits_flagChain hg, bankHits_flags]
  rfl

theorem watchSince_both : watchSince t told n i (lostPc ++ lostFlags) [1, 2] c = countHits t [countedHit] := by
  unfold watchSince
  dsimp only
  rw [hb, if_neg (by decide), hits_flagChain hg, bankHits_both]
  rfl

end seen

/-- Losing device 1 leaves the chain of device 0. -/
theorem countingCores_kept :
    countingCores.foldl (fun m e => mset Core.fresh m e.1 (withoutCanaries 1 e.2)) [] = countingCores := by
  decide +kernel

theorem lost_frame (d : Nat) : (loseDevice (lostWaiting d) 1).g.ref = Group.idle.ref
    ∧ (loseDevice (lostWaiting d) 1).g.core = 0 ∧ (loseDevice (lostWaiting d) 1).cores = countingCores := by
  obtain ⟨hr, hc, hcores⟩ := loseDevice_frame (focusDevice_stash (s := lostWaiting d) rfl)
  exact ⟨hr, hc, hcores.trans countingCores_kept⟩

/-- The hits of the chain, on its last member. -/
def chainHits (s : State) : Word := (mget Canary.none_ (coreAt s 0).canaries 1).hits

/-- The chain has counted where a hit of its own was counted, and not before. -/
theorem chainHits_counted {t : State} (hcore : t.g.core = 0) (hc : t.cores = countingCores) :
    chainHits t = 0 ∧ chainHits (countHits t [countedHit]) = 1 := by
  have hbank : coreAt t 0 = { Core.fresh with canaries := flagChain } := by
    rw [coreAt, hc]
    rfl
  refine ⟨by rw [chainHits, hbank]; decide +kernel, ?_⟩
  rw [chainHits, countHits, List.foldl_cons, List.foldl_nil, if_pos (show countedHit.act = 0 from rfl), hcore,
    coreAt_onCore (by rw [hc]; decide +kernel), hbank]
  decide +kernel

/-! ### The statement and the draw -/

/-- Where no repair of a page table fails, the addition traps as O3 has it: the canaries see nothing of it. -/
theorem sFadd_traps (hd : ∀ d, Config.freePick d 9 0 = false) {s : State} {m : Rnd} {n : Nat} {a b : Opnd} {x y : Word}
    (hq : Quiet s) (ha : uni s 1 a = .ok x) (hb : uni s 2 b = .ok y)
    (hf : (fp2 (ftz s.g) .f32 (fun F => F.fadd (modeOf s.g m)) x y).2 &&& trapEnables s.g ≠ 0) (evs : List Watch) :
    exec (.sFadd m (.s n) a b) s = .next (watchedTold (.sFadd m (.s n) a b) s
      (flagsRaised (.sFadd m (.s n) a b) s n (fp2 (ftz s.g) .f32 (fun F => F.fadd (modeOf s.g m)) x y)) evs) := by
  have hx := exec_sFadd_traps (n := n) hq ha hb hf
  have hu : Unwatched (flagsRaised (.sFadd m (.s n) a b) s n (fp2 (ftz s.g) .f32 (fun F => F.fadd (modeOf s.g m)) x y)) := by
    refine Unwatched.raise_trap ?_ rfl (show 0x002 ≠ 0x406 by decide) (hd _)
    exact Unwatched.of_eq hq.2 rfl (by simp [addFps])
  rw [hx, watchedTold, watchedTold, watchSince_none hu, watchSince_none hu]

/-- Where one does, the chain tells the events that O3 names from those of the first instruction after `dbg.run`, which makes
none of source 0. -/
theorem lostAdd_counted {d : Nat} (hd : Config.freePick d 9 0 = true) :
    exec lostAdd (lostAt d)
      ≠ .next (watchedTold lostAdd (lostAt d) (flagsRaised lostAdd (lostAt d) 10 lostSum) (lostPc ++ lostFlags)) := by
  intro h
  have hx : exec lostAdd (lostAt d)
      = .next (watchedTold lostAdd (lostAt d) (flagsRaised lostAdd (lostAt d) 10 lostSum) lostFlags) :=
    exec_sFadd_traps (quiet_lostAt d) rfl rfl lostSum_enabled
  have hlost : flagsRaised lostAdd (lostAt d) 10 lostSum = loseDevice (lostWaiting d) 1 := raise_lostDone hd
  rw [hlost] at h hx
  obtain ⟨hr, hcore, hcores⟩ := lost_frame d
  generalize loseDevice _ 1 = t at *
  have hb : (coreAt t t.g.core).canaries = flagChain := by
    rw [coreAt, hcore, hcores]
    rfl
  obtain ⟨hzero, hone⟩ := chainHits_counted hcore hcores
  have hsame := Host.Outcome.next.inj (hx.symm.trans h)
  rw [watchedTold, watchedTold, watchSince_flags hr hb, watchSince_both hr hb] at hsame
  rw [← hsame, hzero] at hone
  exact absurd hone (by decide)

/-- The addition of O3, with the events that the statement gives its canaries. -/
theorem sFadd_stated (h : Obligations.ScalarFloatingPoint) {s : State} {m : Rnd} {n : Nat} {a b : Opnd} {x y : Word} (hq : Quiet s)
    (ha : uni s 1 a = .ok x) (hb : uni s 2 b = .ok y)
    (hf : (fp2 (ftz s.g) .f32 (fun F => F.fadd (modeOf s.g m)) x y).2 &&& trapEnables s.g ≠ 0) :
    let i : Instr := .sFadd m (.s n) a b
    let r := fp2 (ftz s.g) .f32 (fun F => F.fadd (modeOf s.g m)) x y
    exec i s = .next (watchedTold i s (flagsRaised i s n r)
      (pcEvents i (cur s).pc (cur s).mask ++ flagEvents i (cur s).mask [] r.2)) := by
  obtain ⟨-, htrap⟩ := h
  exact htrap s m n a b x y hq ha hb hf

/-- What O3 states holds exactly where no repair of a page table fails, in any draw (R403). That draw is a free value, of
which nothing is known: neither O3 nor its negation follows from the model. -/
theorem scalarFloatingPoint_iff_repaired : Obligations.ScalarFloatingPoint ↔ ∀ d, Config.freePick d 9 0 = false := by
  constructor
  · intro h d
    by_contra hd
    exact lostAdd_counted (Bool.eq_true_of_not_eq_false hd) (sFadd_stated h (quiet_lostAt d) rfl rfl lostSum_enabled)
  · intro hd
    refine ⟨fun s n a b c hq => ⟨fun ty cc x y ha hb => ?cmp, fun m x y ha hb => ⟨?add, ?mul, fun z hc => ?fma⟩,
      fun dyn imm x ha => ⟨?addI, ?mulI⟩, fun ty m cv x ha => ?cvt⟩, fun s m n a b x y hq ha hb hf => ?trap⟩
    case cmp => exact scaFpDone_scaFp hq rfl (by rw [ha, hb]; rfl) rfl rfl
    case add => exact scaFpDone_scaFp hq rfl (scaFp2_ok ha hb _) rfl rfl
    case mul => exact scaFpDone_scaFp hq rfl (scaFp2_ok ha hb _) rfl rfl
    case fma => exact scaFpDone_scaFp hq rfl (by rw [ha, hb, hc]; rfl) rfl rfl
    case addI => exact scaFpDone_scaFp hq rfl (scaFpI_ok ha imm _) rfl rfl
    case mulI => exact scaFpDone_scaFp hq rfl (scaFpI_ok ha imm _) rfl rfl
    case cvt => exact scaFpDone_scaFp hq rfl (by rw [ha]; rfl) rfl rfl
    case trap => exact sFadd_traps hd hq ha hb hf _

end Sys2Proof.Machine
end

section
/-!
PROOFS. What the operations on memory leave: all of the machine but main memory, the caches, the peer modules' lines, the bytes
and poison of team shared memory, and what a device counts (`Aside`). One lemma for each operation, in the model's order.
-/
namespace Sys2Proof.Machine

/-- A team without the bytes and the poison of its shared memory. -/
def Team.bare (t : Team) : Team := { t with shared := [], poison := [] }

/-- `t` has what `s` has of everything that no byte moved in memory, in a cache or in a queue changes. -/
structure Aside (s t : State) : Prop where
  g : t.g = s.g
  slot : t.slot = s.slot
  now : t.now = s.now
  cores : t.cores = s.cores
  groups : t.groups = s.groups
  ptes : t.ptes = s.ptes
  ports : t.ports = s.ports
  replies : t.replies = s.replies
  number : t.vd.number = s.vd.number
  team : t.team.bare = s.team.bare
  teams : t.teams.map Team.bare = s.teams.map Team.bare

theorem Aside.rfl' (s : State) : Aside s s := by constructor <;> rfl

theorem Aside.trans {s t u : State} (a : Aside s t) (b : Aside t u) : Aside s u :=
  ⟨b.g.trans a.g, b.slot.trans a.slot, b.now.trans a.now, b.cores.trans a.cores, b.groups.trans a.groups, b.ptes.trans a.ptes,
    b.ports.trans a.ports, b.replies.trans a.replies, b.number.trans a.number, b.team.trans a.team, b.teams.trans a.teams⟩

theorem Aside.withVd {s t : State} (h : Aside s t) {d : Device} (hd : d.number = t.vd.number) : Aside s { t with vd := d } :=
  { h with number := hd.trans h.number }

theorem Aside.withOut {s t : State} (h : Aside s t) {n : Nat} : Aside s { t with vd := { t.vd with out := n } } :=
  h.withVd rfl

theorem Aside.foldl {α : Type} (f : State → α → State) (hf : ∀ s x, Aside s (f s x)) (l : List α) (s : State) :
    Aside s (l.foldl f s) := by
  induction l generalizing s with
  | nil => exact .rfl' s
  | cons x l ih => exact (hf s x).trans (ih _)

/-- What is aside of issue and completion is calm. -/
theorem Aside.calm {s t : State} (h : Aside s t) : Calm s t :=
  ⟨by rw [h.g], h.slot, h.now, h.cores, (congrArg Team.ref h.team :), (congrArg Team.steps h.team :)⟩

/-! ### Main memory and counters -/

theorem aside_clearSpan (s : State) (n : Nat) : Aside s (clearSpan s n) := by
  obtain ⟨m, p, k, h⟩ := clearSpan_frame s n
  rw [h]
  constructor <;> rfl

theorem aside_putMain (s : State) (pa : Nat) (b : Byte) : Aside s (putMain s pa b) :=
  (aside_clearSpan s _).trans (by constructor <;> rfl)

theorem aside_putMains (s : State) (cells : List (Nat × Byte)) : Aside s (putMains s cells) := by
  obtain ⟨m, p, k, h⟩ := putMains_frame s cells
  rw [h]
  constructor <;> rfl

theorem aside_storeBytesAt (s : State) (pa : Nat) (bs : List Byte) : Aside s (storeBytesAt s pa bs) :=
  (aside_putMains s _).trans (by constructor <;> rfl)

theorem aside_addPoison (s : State) (pa : Nat) : Aside s (addPoison s pa) :=
  (aside_clearSpan s _).trans (by constructor <;> rfl)

theorem aside_meter (s : State) (i n : Nat) : Aside s (meter s i n) := by constructor <;> rfl

theorem aside_countDie (s : State) (die : Nat) (f : Die → Die) : Aside s (countDie s die f) := by constructor <;> rfl

theorem aside_cross (s : State) (n : Nat) : Aside s (cross s n) := by
  unfold cross
  split <;> constructor <;> rfl

theorem aside_sendFor (s : State) (tag : Word) (cmd : Byte) (p : List Byte) : Aside s (sendFor s tag cmd p) := by
  constructor <;> rfl

/-! ### Sluiced blocks and the places of bytes -/

theorem aside_countMeta (s : State) (sl : Sluice) (pa : Nat) : Aside s (countMeta s sl pa) := by
  unfold countMeta
  dsimp only
  split <;> constructor <;> rfl

theorem aside_countFill (s : State) (sl : Sluice) (pa : Nat) (f : Fill) : Aside s (countFill s sl pa f) := by
  have h := ((aside_countMeta s sl pa).trans (aside_meter _ 3 (f.read + 256 * f.again.toNat))).trans (aside_meter _ 5 f.steps)
  unfold countFill
  dsimp only
  split
  · exact h.trans (aside_countDie _ _ _)
  · exact h

theorem aside_cacheBlock (s : State) (sl : Sluice) (pa va : Nat) : Aside s (cacheBlock s sl pa va).1 := by
  unfold cacheBlock
  dsimp only
  split
  · exact .rfl' s
  · exact (aside_countFill s sl _ _).trans (by constructor <;> rfl)

theorem aside_countRead (s : State) (seen : List Nat) (l : Loc) (n : Nat) : Aside s (countRead s seen l n).1 := by
  unfold countRead
  split
  · split
    · dsimp only
      split
      · exact .rfl' s
      · split
        · exact aside_cacheBlock s _ _ _
        · exact aside_countFill s _ _ _
    · dsimp only
      split
      · exact .rfl' s
      · exact aside_meter s 3 n
  · dsimp only
    split
    · exact .rfl' s
    · exact aside_cross s n
  · exact .rfl' s

theorem aside_countReads (s : State) (ls : List (Loc × Nat)) : Aside s (countReads s ls) := by
  suffices h : ∀ r : State × List Nat, Aside r.1 (ls.foldl (fun r e => countRead r.1 r.2 e.1 e.2) r).1 from h (s, [])
  induction ls with
  | nil => exact fun r => .rfl' _
  | cons e ls ih => exact fun r => (aside_countRead r.1 r.2 e.1 e.2).trans (ih _)

theorem aside_fillBlocks (s : State) (ls : List Loc) : Aside s (fillBlocks s ls) := by
  refine Aside.foldl _ (fun s l => ?_) ls s
  split
  · split
    · exact aside_cacheBlock s _ _ _
    · exact .rfl' s
  · exact .rfl' s

theorem aside_onTeam (s : State) (t : TRef) {f : Team → Team} (hf : ∀ x, (f x).bare = x.bare) : Aside s (onTeam s t f) := by
  unfold onTeam
  split
  · exact ⟨rfl, rfl, rfl, rfl, rfl, rfl, rfl, rfl, rfl, hf _, rfl⟩
  · have hmap : (s.teams.map fun x => if x.ref = t then f x else x).map Team.bare = s.teams.map Team.bare := by
      rw [List.map_map]
      refine List.map_congr_left fun x _ => ?_
      show (if x.ref = t then f x else x).bare = x.bare
      split
      · exact hf x
      · rfl
    exact ⟨rfl, rfl, rfl, rfl, rfl, rfl, rfl, rfl, rfl, rfl, hmap⟩

theorem aside_takeLine (s : State) (die : Nat) (l : Loc) : Aside s (takeLine s die l).1 := by
  unfold takeLine
  split
  · exact .rfl' s
  · exact aside_cross s 256

theorem aside_putLoc (s : State) (l : Loc) (b : Byte) : Aside s (putLoc s l b) := by
  unfold putLoc
  dsimp only
  split
  · split
    · exact (aside_cacheBlock s _ _ _).trans (by constructor <;> rfl)
    · exact (aside_putMain s l.addr b).trans (by constructor <;> rfl)
  · exact aside_onTeam s _ fun _ => rfl
  · constructor <;> rfl
  · exact (aside_takeLine s _ _).trans (by constructor <;> rfl)

theorem aside_poisonLoc (s : State) (l : Loc) : Aside s (poisonLoc s l) := by
  unfold poisonLoc
  dsimp only
  split
  · split
    · exact (aside_cacheBlock s _ _ _).trans (by constructor <;> rfl)
    · exact aside_addPoison s _
  · exact aside_onTeam s _ fun _ => rfl
  · constructor <;> rfl
  · split
    · constructor <;> rfl
    · exact .rfl' s

theorem aside_openBlocks (s : State) (cells : List (Loc × Byte)) : Aside s (openBlocks s cells) := by
  refine Aside.foldl _ (fun s c => ?_) cells s
  split
  · split
    · dsimp only
      split
      · constructor <;> rfl
      · exact .rfl' s
    · exact .rfl' s
  · exact .rfl' s

theorem aside_unpoison (s : State) (cells : List (Loc × Byte)) : Aside s (unpoison s cells) := 
  ⟨rfl, rfl, rfl, rfl, rfl, rfl, rfl, rfl, rfl, rfl, List.map_map⟩

theorem aside_putLocs (s : State) (cells : List (Loc × Byte)) : Aside s (putLocs s cells) := by
  have hopen : Aside s (if s.vd.bindings = [] then s else openBlocks s cells) := by
    split
    · exact .rfl' s
    · exact aside_openBlocks s cells
  unfold putLocs
  generalize (if s.vd.bindings = [] then s else openBlocks s cells) = u at hopen
  have hput := hopen.trans (Aside.foldl (fun s (c : Loc × Byte) => putLoc s c.1 c.2) (fun s c => aside_putLoc s c.1 c.2) cells u)
  dsimp only
  generalize cells.foldl (fun s (c : Loc × Byte) => putLoc s c.1 c.2) u = v at hput
  split
  · exact hput.trans (aside_unpoison v cells)
  · exact hput

theorem aside_checkOut (s : State) : Aside s (checkOut s) := by
  unfold checkOut
  split
  · dsimp only
    generalize mainNat s (ctxPart s.vd mailPart + 8) 8 = o
    generalize (o + 2 ^ 64 - s.vd.out) % 2 ^ 64 = n
    split
    · exact .rfl' s
    · refine Aside.withOut ?_
      split
      · refine Aside.foldl _ (fun t j => ?_) _ s
        split
        · exact .rfl' t
        · exact aside_sendFor t _ _ _
      · exact .rfl' s
  · exact .rfl' s

theorem aside_putAll (s : State) (cells : List (Loc × Byte)) : Aside s (putAll s cells) :=
  (aside_putLocs s cells).trans (aside_checkOut _)

theorem aside_putVisible (s : State) (cells : List (Loc × Byte)) : Aside s (putVisible s cells) := aside_putAll s _

theorem aside_writeRow (s : State) (ls : List Loc) (bs : List (Byte × Bool)) : Aside s (writeRow s ls bs) :=
  (aside_putVisible s _).trans (Aside.foldl _ (fun s (x : Loc × Byte × Bool) => aside_poisonLoc s x.1) _ _)

/-- A drained queue is empty, and all else is aside. -/
theorem aside_drainStores (s : State) : Aside { s with g := { s.g with stores := [] } } (drainStores s) :=
  Aside.foldl (fun s (q : QStore) => putVisible s q.cells) (fun s q => aside_putVisible s q.cells) _ _

/-! ### Lines of other modules' memory -/

theorem aside_writePeer (s : State) (k : Nat) (b : Block) : Aside s (writePeer s k b) := by
  unfold writePeer
  split
  · exact Aside.trans (by constructor <;> rfl) (aside_cross _ _)
  · exact .rfl' s

theorem aside_evictPeer (s : State) (k : Nat) : Aside s (evictPeer s k) := by
  unfold evictPeer
  split
  · exact (aside_writePeer s k _).trans (by constructor <;> rfl)
  · exact .rfl' s

theorem aside_atHome (s : State) (l : Loc) : Aside s (atHome s l) := by
  unfold atHome
  split
  · exact aside_evictPeer s _
  · exact .rfl' s

theorem aside_readyAtomic (s : State) (l : Loc) : Aside s (readyAtomic s l) := by
  unfold readyAtomic
  split
  · exact aside_cacheBlock s _ _ _
  · exact aside_atHome s l

theorem aside_readyGauge (s : State) (l : Loc) : Aside s (readyGauge s l) :=
  (aside_readyAtomic s l).trans (aside_countReads _ _)

theorem aside_putGauge (s : State) (l : Loc) (g : Nat) : Aside s (putGauge s l g) := aside_putAll s _

theorem aside_cleanPeer (s : State) (die : Option Nat) (lo hi : Nat) (drop : Bool) : Aside s (cleanPeer s die lo hi drop) := by
  have h (es : SMap Block) := Aside.foldl (fun s (e : Nat × Block) => writePeer s e.1 e.2) (fun s e => aside_writePeer s e.1 e.2) es s
  unfold cleanPeer
  dsimp only
  split
  · exact (h _).trans (by constructor <;> rfl)
  · exact h _

theorem aside_acquireAt (s : State) (sc : Scope) : Aside s (acquireAt s sc) := by
  unfold acquireAt
  split
  · exact aside_cleanPeer ..
  · exact .rfl' s

theorem aside_acquireOf (s : State) (o : Ordf) : Aside s (acquireOf s o) := by
  cases o
  case qual sc => exact aside_acquireAt s sc
  all_goals exact .rfl' s

theorem aside_releaseAt (s : State) (sc : Scope) : Aside { s with g := { s.g with stores := [] } } (releaseAt s sc) := by
  unfold releaseAt
  dsimp only
  split
  · exact (aside_drainStores s).trans (aside_cleanPeer ..)
  · exact aside_drainStores s

theorem aside_fillLine (s : State) (va : Nat) : Aside s (fillLine s va) := by
  unfold fillLine
  split
  · split
    · exact .rfl' s
    · split
      · dsimp only
        split
        · exact .rfl' s
        · exact Aside.trans (by constructor <;> rfl) (aside_cross _ 256)
      · split
        · exact Aside.foldl _ (fun s k => aside_cacheBlock s _ _ _) _ s
        · split
          · exact .rfl' s
          · constructor <;> rfl
  · exact .rfl' s

/-! ### Write-backs and ranges -/

theorem aside_onBinding (s : State) (slot : Nat) (f : Sluice → Sluice) : Aside s (onBinding s slot f) := by
  unfold onBinding
  split
  · constructor <;> rfl
  · exact .rfl' s

theorem aside_storeSlot (s : State) (sl : Sluice) (pa va : Nat) (bs : List Byte) (w : BitVec 16) :
    Aside s (storeSlot s sl pa va bs w) := ((aside_putMains s _).trans (aside_putMains _ _)).trans (aside_meter ..)

theorem aside_storeRaw (s : State) (sl : Sluice) (pa va : Nat) (plain : List Byte) (poison : List Nat) :
    Aside s (storeRaw s sl pa va plain poison) :=
  (aside_storeSlot ..).trans (Aside.foldl _ (fun s _ => aside_addPoison s _) _ _)

theorem aside_storeEncoded (s : State) (slot : Nat) (sl : Sluice) (pa va : Nat) (e : Encoded) (n : Nat) :
    Aside s (storeEncoded s slot sl pa va e n) := ((aside_storeSlot ..).trans (aside_onBinding ..)).trans (aside_meter ..)

theorem aside_storeBlock (s : State) (slot : Nat) (sl : Sluice) (pa va : Nat) (plain : List Byte) (poison : List Nat) :
    Aside s (storeBlock s slot sl pa va plain poison) := by
  unfold storeBlock
  split
  · exact aside_storeRaw ..
  · exact aside_storeEncoded ..

theorem aside_writeBack (s : State) (pa : Nat) (b : Block) : Aside s (writeBack s pa b) := by
  unfold writeBack
  split
  · refine Aside.trans (t := { s with cache := mins s.cache pa { b with dirty := false } }) (by constructor <;> rfl) ?_
    dsimp only
    split
    · exact aside_storeBlock ..
    · exact (aside_putMains ..).trans (Aside.foldl _ (fun s _ => aside_addPoison s _) _ _)
  · exact .rfl' s

theorem aside_addRun (s : State) (r : Run) : Aside s (addRun s r) := by
  unfold addRun
  split <;> constructor <;> rfl

theorem aside_startEncode (s : State) (e : Nat) : Aside s (startEncode s e) := by
  unfold startEncode
  split
  · exact .rfl' s
  · split
    · split
      · exact aside_addRun s _
      · exact .rfl' s
    · exact .rfl' s

theorem aside_leaveClean (s : State) (pa : Nat) : Aside s (leaveClean s pa) := by
  unfold leaveClean
  split
  · split
    · exact .rfl' s
    · constructor <;> rfl
  · exact .rfl' s

theorem aside_dropRun (s : State) (pa : Nat) : Aside s (dropRun s pa) := by constructor <;> rfl

theorem aside_finishEncode (s : State) (x : Encode) : Aside s (finishEncode s x) := by
  refine Aside.trans (t := { s with encodes := s.encodes.filter fun e => !(e.vd == x.vd && e.pa == x.pa) })
    (by constructor <;> rfl) ?_
  unfold finishEncode
  dsimp only
  refine Aside.trans ?_ (((aside_dropRun _ _).trans (aside_leaveClean _ _)).trans (aside_startEncode _ _))
  split
  · split
    · split
      · exact aside_storeBlock ..
      · exact aside_storeEncoded ..
    · exact aside_storeBlock ..
  · exact aside_putMains ..

theorem aside_finishWhere (s : State) (p : Encode → Bool) : Aside s (finishWhere s p) :=
  Aside.foldl _ (fun s x => aside_finishEncode s x) _ s

theorem aside_cleanRange (s : State) (lo hi : Nat) (drop : Bool) : Aside s (cleanRange s lo hi drop) := by
  have hback (t : State) (es : SMap Block) := Aside.foldl (fun s (e : Nat × Block) => writeBack s e.1 e.2)
    (fun s e => aside_writeBack s e.1 e.2) es t
  unfold cleanRange
  extract_lets lo' hi' u blocks v inLines n w
  have h : Aside s w := ((aside_finishWhere s _).trans (hback u blocks)).trans (aside_meter ..)
  split
  · exact h.trans (by constructor <;> rfl)
  · exact h.trans (by constructor <;> rfl)

theorem aside_cleanVirtual (s : State) (lo len : Nat) (drop : Bool) : Aside s (cleanVirtual s lo len drop) := by
  refine Aside.foldl _ (fun s p => ?_) _ s
  split
  · split
    · exact aside_cleanPeer ..
    · exact aside_cleanRange ..
  · exact .rfl' s

theorem aside_dropLines (s : State) (va need : Nat) : Aside s (dropLines s va need) := by
  unfold dropLines
  split
  · exact aside_cleanRange ..
  · exact .rfl' s

/-! ### Records -/

theorem aside_writeRing (s : State) (part off size slots i : Nat) (bs : List Byte) :
    Aside s (writeRing s part off size slots i bs) := (aside_storeBytesAt ..).trans (aside_storeBytesAt ..)

theorem aside_writeStamp (s : State) (bs : List Byte) : Aside s (writeStamp s bs) :=
  Aside.trans (by constructor <;> rfl) (aside_writeRing ..)

theorem aside_writeLog (s : State) (cyc pc addr cause mask act core gid x y z : Nat) :
    Aside s (writeLog s cyc pc addr cause mask act core gid x y z) := by
  unfold writeLog
  extract_lets i bytes r
  exact (((Aside.rfl' s).withVd (d := { s.vd with logged := i + 1 }) rfl).trans (aside_writeRing ..)).trans (aside_sendFor ..)

theorem aside_resolveLoad (s : State) (l : Load) (w : Word) : Aside s (resolveLoad s l w) := by
  unfold resolveLoad
  exact ((Aside.rfl' s).withVd (d := resolve s.vd l.handle w) rfl).trans (aside_sendFor ..)

end Sys2Proof.Machine
end

section
/-!
PROOFS. O28: fields of a gauge word, and what an arrival makes of them (R112).
-/
namespace Sys2Proof.Machine

/-! ### A word with one field replaced -/

theorem setField_eq (g lo w x : Nat) :
    setField g lo w x = g % 2 ^ lo + 2 ^ lo * (x % 2 ^ w + 2 ^ w * (g / 2 ^ (lo + w))) := by
  have hg := Nat.div_add_mod g (2 ^ lo)
  have ha := Nat.div_add_mod (g / 2 ^ lo) (2 ^ w)
  rw [Nat.div_div_eq_div_mul, ← pow_add] at ha
  unfold setField
  generalize g / 2 ^ lo % 2 ^ w = old at ha ⊢
  rw [← ha, Nat.mul_add, Nat.mul_comm _ old] at hg
  rw [Nat.mul_add, Nat.mul_comm _ (x % 2 ^ w)]
  omega

theorem setField_low (g lo w x : Nat) : setField g lo w x % 2 ^ lo = g % 2 ^ lo := by
  rw [setField_eq, Nat.add_mul_mod_self_left, Nat.mod_mod]

theorem setField_from (g lo w x : Nat) : setField g lo w x / 2 ^ lo = x % 2 ^ w + 2 ^ w * (g / 2 ^ (lo + w)) := by
  rw [setField_eq, Nat.add_mul_div_left _ _ (by positivity), Nat.div_eq_of_lt (Nat.mod_lt _ (by positivity)), Nat.zero_add]

theorem setField_same (g lo w x : Nat) : setField g lo w x / 2 ^ lo % 2 ^ w = x % 2 ^ w := by
  rw [setField_from, Nat.add_mul_mod_self_left, Nat.mod_mod]

theorem setField_high (g lo w x : Nat) : setField g lo w x / 2 ^ (lo + w) = g / 2 ^ (lo + w) := by
  rw [pow_add, ← Nat.div_div_eq_div_mul, setField_from, Nat.add_mul_div_left _ _ (by positivity),
    Nat.div_eq_of_lt (Nat.mod_lt _ (by positivity)), Nat.zero_add, pow_add]

/-! ### Arrivals (R112) -/

theorem gaugeArrive_of_discarded {g vd : Nat} (n : Nat) (h : g / 2 ^ 127 % 2 = 0 ∨ g / 2 ^ 96 % 64 ≠ vd) :
    gaugeArrive g vd n = none := if_pos h

/-- COUNT and GEN of a word after an arrival of `n` bytes, before COUNT and GEN are cut to their 32 bits. -/
def arrivedCount (g n : Nat) : Nat :=
  (g / 2 ^ 32 % 2 ^ 32 + n) % 2 ^ 32 - (if g % 2 ^ 32 = 0 then 0 else (g / 2 ^ 32 % 2 ^ 32 + n) % 2 ^ 32 / (g % 2 ^ 32)) * (g % 2 ^ 32)

@[inherit_doc arrivedCount]
def arrivedGen (g n : Nat) : Nat :=
  g / 2 ^ 64 % 2 ^ 32 + if g % 2 ^ 32 = 0 then 0 else (g / 2 ^ 32 % 2 ^ 32 + n) % 2 ^ 32 / (g % 2 ^ 32)

theorem gaugeArrive_of_counted {g vd : Nat} (n : Nat) (hv : g / 2 ^ 127 % 2 = 1) (hd : g / 2 ^ 96 % 64 = vd) :
    gaugeArrive g vd n = some (setField (setField g 32 32 (arrivedCount g n)) 64 32 (arrivedGen g n)) := if_neg (by omega)

/-- The four fields of a word whose COUNT and GEN are replaced. -/
theorem setField_count_gen (g c e : Nat) :
    let u := setField (setField g 32 32 c) 64 32 e
    u % 2 ^ 32 = g % 2 ^ 32 ∧ u / 2 ^ 32 % 2 ^ 32 = c % 2 ^ 32 ∧ u / 2 ^ 64 % 2 ^ 32 = e % 2 ^ 32 ∧ u / 2 ^ 96 = g / 2 ^ 96 := by
  have hlow := setField_low g 32 32 c
  have hcount := setField_same g 32 32 c
  have htop : setField g 32 32 c / 2 ^ 64 = g / 2 ^ 64 := setField_high g 32 32 c
  have hbelow := setField_low (setField g 32 32 c) 64 32 e
  have hgen := setField_same (setField g 32 32 c) 64 32 e
  have habove : setField (setField g 32 32 c) 64 32 e / 2 ^ 96 = setField g 32 32 c / 2 ^ 96 :=
    setField_high (setField g 32 32 c) 64 32 e
  generalize setField g 32 32 c = h at hlow hcount htop hbelow hgen habove ⊢
  refine ⟨?_, ?_, hgen, ?_⟩ <;> omega

theorem arrivedCount_of_target {g n : Nat} (h : g % 2 ^ 32 ≠ 0) :
    arrivedCount g n = (g / 2 ^ 32 % 2 ^ 32 + n) % 2 ^ 32 % (g % 2 ^ 32) := by
  unfold arrivedCount
  rw [if_neg h, Nat.mod_eq_sub_div_mul (k := g % 2 ^ 32)]

theorem gaugeReached_iff (g : Nat) (w : Word) :
    gaugeReached g w = true ↔ 0 ≤ (BitVec.ofNat 32 (g / 2 ^ 64 % 2 ^ 32) - w).toInt := by
  have hgen : BitVec.ofNat 32 (g / 2 ^ 64 % 2 ^ 32) = w32 (g / 2 ^ 64) := BitVec.eq_of_toNat_eq (by simp [w32])
  rw [hgen]
  exact decide_eq_true_iff

section
variable {s : State} {j : Job} {n : Nat} (hn : n ≠ 0)
include hn

theorem arriveBytes_of_error {k : Nat} (h : jobGauge s j = some (.error k)) :
    arriveBytes s j n = (s, { j with counted := j.counted + n, code := if j.code = 0 then k else j.code }) := by
  rw [arriveBytes, if_neg hn, h]

variable {l : Loc} (h : jobGauge s j = some (.ok l))
include h

theorem arriveBytes_of_poisoned (hp : gaugePoison (readyGauge s l) l = true) :
    arriveBytes s j n
      = (readyGauge s l, { j with counted := j.counted + n, code := if j.code = 0 then 0x406 else j.code }) := by
  simp only [arriveBytes, if_neg hn, h, if_pos hp]

theorem arriveBytes_of_counted (hp : gaugePoison (readyGauge s l) l = false) {g : Nat}
    (hg : gaugeArrive (gaugeAt (readyGauge s l) l) (readyGauge s l).vd.number n = some g) :
    arriveBytes s j n = (putGauge (readyGauge s l) l g, { j with counted := j.counted + n }) := by
  simp only [arriveBytes, if_neg hn, h, hp, hg, Bool.false_eq_true, if_false]

theorem arriveBytes_of_discarded (hp : gaugePoison (readyGauge s l) l = false)
    (hg : gaugeArrive (gaugeAt (readyGauge s l) l) (readyGauge s l).vd.number n = none) :
    arriveBytes s j n = (readyGauge s l, { j with counted := j.counted + n, gd := true }) := by
  simp only [arriveBytes, if_neg hn, h, hp, hg, Bool.false_eq_true, if_false]

end

/-- Settles O28: an arrival by the fields of the word it replaces, and the branches of an arrival at a place. -/
theorem gaugeArrivals : Obligations.GaugeArrivals := by
  refine ⟨fun g vd n hg hn => ⟨fun h => gaugeArrive_of_discarded n (by omega), fun hv hd => ?_, gaugeReached_iff g⟩,
    fun s j n k hn h => arriveBytes_of_error hn h, fun s j l n hn h => ?_⟩
  · obtain ⟨htarget, hcount, hgen, htop⟩ := setField_count_gen g (arrivedCount g n) (arrivedGen g n)
    refine ⟨_, gaugeArrive_of_counted n (by omega) hd, htarget, htop, fun h0 => ?_, fun h0 => ?_⟩
    · rw [hcount, hgen, arrivedCount, arrivedGen, if_pos h0]
      omega
    · have hlt := Nat.mod_lt ((g / 2 ^ 32 % 2 ^ 32 + n) % 2 ^ 32) (Nat.pos_of_ne_zero h0)
      rw [hcount, hgen, arrivedCount_of_target h0, Nat.mod_eq_of_lt (by omega)]
      refine ⟨hlt, _, (Nat.div_add_mod' _ _).symm, ?_⟩
      rw [arrivedGen, if_neg h0]
  · exact ⟨arriveBytes_of_poisoned hn h, fun _ hp hg => arriveBytes_of_counted hn h hp hg, arriveBytes_of_discarded hn h⟩

end Sys2Proof.Machine
end

section
/-!
PROOFS. O29: a team joins a cluster with its queue drained, and leaves it.
-/
namespace Sys2Proof.Machine

/-! ### The members of a cluster -/

/-- A team's part in the cluster of a key on the die of the team in focus. -/
def memberOf (s : State) (k : Word) (t : Team) : Option (TRef × Nat) :=
  match t.cluster with
  | some (k', m) => if k' = k ∧ t.ref.vd = s.team.ref.vd ∧ t.die = s.team.die then some (t.ref, m) else none
  | none => none

theorem clusterOf_eq (s : State) (k : Word) : clusterOf s k = (allTeams s).filterMap (memberOf s k) := rfl

theorem Aside.allTeams {s t : State} (h : Aside s t) : (allTeams t).map Team.bare = (allTeams s).map Team.bare := by
  have href : t.team.ref = s.team.ref := (congrArg Team.ref h.team :)
  unfold Machine.allTeams
  rw [href]
  split
  · exact h.teams
  · rw [List.map_cons, List.map_cons, h.team, h.teams]

theorem Aside.clusterOf {s t : State} (h : Aside s t) (k : Word) : clusterOf t k = clusterOf s k := by
  have href : t.team.ref = s.team.ref := (congrArg Team.ref h.team :)
  have hdie : t.team.die = s.team.die := (congrArg Team.die h.team :)
  have hm : memberOf t k = memberOf s k := by
    funext x
    unfold memberOf
    rw [href, hdie]
  have hb (l : List Team) : l.filterMap (memberOf s k) = (l.map Team.bare).filterMap (memberOf s k) := by
    rw [List.filterMap_map]
    rfl
  rw [clusterOf_eq, clusterOf_eq, hm, hb, h.allTeams, ← hb]

theorem drainStores_cluster (s : State) : (drainStores s).team.cluster = s.team.cluster :=
  (congrArg Team.cluster (aside_drainStores s).team :)

theorem drainStores_clusterOf (s : State) (k : Word) : clusterOf (drainStores s) k = clusterOf s k :=
  (aside_drainStores s).clusterOf k

theorem drainStores_stores (s : State) : (drainStores s).g.stores = [] := by rw [(aside_drainStores s).g]

/-! ### A pre-emption request reaches the members of a cluster (R110) -/

/-- A pre-emption request sets requests of teams and stops groups, which release their ports. -/
theorem requestStop_frame (s : State) (t : TRef) (a : Nat) (forced : Bool) : ∃ g gs r ts,
    requestStop s t a forced = { s with g := g, groups := gs, team := { s.team with request := r }, teams := ts }
      ∧ (g = s.g ∨ g = { s.g.release with stopped := true }) := by
  unfold requestStop
  split
  · exact ⟨s.g, s.groups, s.team.request, s.teams, rfl, .inl rfl⟩
  · have hteam (p : Bool) : ∃ r, (if p then { s.team with request := some (a, forced) } else s.team)
        = { s.team with request := r } := by
      cases p
      · exact ⟨s.team.request, rfl⟩
      · exact ⟨_, rfl⟩
    have hgroup (p : Bool) : (if p then { s.g.release with stopped := true } else s.g) = s.g
        ∨ (if p then { s.g.release with stopped := true } else s.g) = { s.g.release with stopped := true } := by
      cases p
      · exact .inl rfl
      · exact .inr rfl
    unfold onTeams onGroups
    dsimp only
    generalize (List.filter _ _ : List TRef) = ts
    obtain ⟨r, hr⟩ := hteam (ts.contains s.team.ref && (s.team.request.isNone || forced))
    rw [hr]
    exact ⟨_, _, r, _, rfl, hgroup _⟩

theorem spreadRequest_frame (s : State) : ∃ g gs r ts,
    spreadRequest s = { s with g := g, groups := gs, team := { s.team with request := r }, teams := ts }
      ∧ (g = s.g ∨ g = { s.g.release with stopped := true }) := by
  unfold spreadRequest
  split
  · exact requestStop_frame ..
  · exact ⟨s.g, s.groups, s.team.request, s.teams, rfl, .inl rfl⟩

theorem PcSlot.release_mask (p : PcSlot) : p.release.mask = p.mask := by
  unfold PcSlot.release
  split <;> rfl

theorem Group.release_slot_mask (g : Group) (i : SlotId) : (g.release.slot i).mask = (g.slot i).mask := by
  cases i <;> exact PcSlot.release_mask _

section spread
variable (s : State)

theorem spreadRequest_idle (h : Idle s) : Idle (spreadRequest s) := by
  obtain ⟨g, gs, r, ts, he, rfl | rfl⟩ := spreadRequest_frame s <;> (rw [he]; exact h)

theorem spreadRequest_execMask : execMask (spreadRequest s) = execMask s := by
  obtain ⟨g, gs, r, ts, he, rfl | rfl⟩ := spreadRequest_frame s <;> rw [he]
  · rfl
  · exact Group.release_slot_mask s.g s.slot

theorem spreadRequest_stores : (spreadRequest s).g.stores = s.g.stores := by
  obtain ⟨g, gs, r, ts, he, rfl | rfl⟩ := spreadRequest_frame s
  · rw [he]
  · rw [he]
    rfl

theorem spreadRequest_team : ∃ r, (spreadRequest s).team = { s.team with request := r } := by
  obtain ⟨g, gs, r, ts, he, -⟩ := spreadRequest_frame s
  exact ⟨r, by rw [he]⟩

end spread

/-! ### Joining -/

/-- The team in focus as member `m` of the cluster of a key: the others reach its window again, and it reaches theirs. -/
def joined (d : State) (key : Word) (m : Nat) : State :=
  let u := onTeams d (fun t => (clusterOf d key).any fun e => decide (e.1 = t.ref)) fun t => { t with revoked := sdel t.revoked m }
  { u with team := { u.team with cluster := some (key, m), revoked := [] } }

theorem joined_frame (d : State) (key : Word) (m : Nat) :
    ∃ ts, joined d key m = { d with team := { d.team with cluster := some (key, m), revoked := [] }, teams := ts } := by
  have hteam (p : Bool) : { (if p then { d.team with revoked := sdel d.team.revoked m } else d.team) with
      cluster := some (key, m), revoked := [] } = { d.team with cluster := some (key, m), revoked := [] } := by
    cases p <;> rfl
  unfold joined onTeams
  dsimp only
  rw [hteam]
  exact ⟨_, rfl⟩

theorem joined_idle {d : State} (h : Idle d) (key : Word) (m : Nat) : Idle (joined d key m) := by
  obtain ⟨ts, he⟩ := joined_frame d key m
  rw [he]
  exact h

theorem joined_team (d : State) (key : Word) (m : Nat) :
    (joined d key m).team = { d.team with cluster := some (key, m), revoked := [] } := by
  obtain ⟨ts, he⟩ := joined_frame d key m
  rw [he]

theorem joined_execMask (d : State) (key : Word) (m : Nat) : execMask (joined d key m) = execMask d := rfl

section join
variable {s : State} {n : Nat} {a : Opnd} {key : Word} (hk : uni s 2 a = .ok key)
include hk

theorem exec_clJoin_of_member {k : Word} {m : Nat} (hc : s.team.cluster = some (k, m)) :
    exec (.clJoin (.s n) a) s = issue (.clJoin (.s n) a)
      (if k = key then .ok (.write (drainStores s) [.sca n (w32 m)]) else .error (.plain 0x20a 0)) s := by
  show execClJoin _ _ s = _
  unfold execClJoin
  rw [hk]
  show issue _ (match (drainStores s).team.cluster with | some (k', m) => _ | none => _) s = _
  rw [drainStores_cluster, hc]
  rfl

theorem exec_clJoin_of_none (hc : s.team.cluster = none) :
    exec (.clJoin (.s n) a) s = issue (.clJoin (.s n) a)
      (match (List.range 16).find? fun m => !((clusterOf (drainStores s) key).any fun e => e.2 == m) with
        | none => .ok (.write (drainStores s) [.sca n 0xffffffff])
        | some m => .ok (.write (spreadRequest (joined (drainStores s) key m)) [.sca n (w32 m)])) s := by
  show execClJoin _ _ s = _
  unfold execClJoin
  rw [hk]
  show issue _ (match (drainStores s).team.cluster with | some (k', m) => _ | none => _) s = _
  rw [drainStores_cluster, hc]
  rfl

section lands
variable (hs : Idle s)
include hs

theorem clJoin_lands_again {m : Nat} (hc : s.team.cluster = some (key, m)) :
    Lands (.clJoin (.s n) a) s (drainStores s) (setSreg (drainStores s).g n (w32 m)) :=
  long_done [.sca n (w32 m)] [] ((exec_clJoin_of_member hk hc).trans (by rw [if_pos rfl]; rfl)) hs (calm_drainStores s) rfl

theorem clJoin_lands_full (hc : s.team.cluster = none)
    (hfull : ((List.range 16).find? fun m => !((clusterOf s key).any fun e => e.2 == m)) = none) :
    Lands (.clJoin (.s n) a) s (drainStores s) (setSreg (drainStores s).g n 0xffffffff) := by
  refine long_done [.sca n 0xffffffff] [] ((exec_clJoin_of_none hk hc).trans ?_) hs (calm_drainStores s) rfl
  rw [drainStores_clusterOf, hfull]
  rfl

theorem clJoin_lands_new (hc : s.team.cluster = none) {m : Nat}
    (hfree : ((List.range 16).find? fun m => !((clusterOf s key).any fun e => e.2 == m)) = some m) :
    let st := spreadRequest (joined (drainStores s) key m)
    Lands (.clJoin (.s n) a) s st (setSreg st.g n (w32 m)) := by
  intro st
  have hx : exec (.clJoin (.s n) a) s = issue (.clJoin (.s n) a) (.ok (.write st [.sca n (w32 m)])) s := by
    rw [exec_clJoin_of_none hk hc, drainStores_clusterOf, hfree]
  have hidle : Idle st := spreadRequest_idle _ (joined_idle ((calm_drainStores s).idle hs) key m)
  have hmask : execMask st = execMask s := (spreadRequest_execMask _).trans ((joined_execMask ..).trans (calm_drainStores s).execMask)
  clear_value st
  exact issue_lands hx rfl hidle hmask rfl rfl rfl rfl

end lands
end join

theorem clJoin_new_team (s : State) (key : Word) (m : Nat) :
    let st := spreadRequest (joined (drainStores s) key m)
    st.team.cluster = some (key, m) ∧ st.team.revoked = [] ∧ st.g.stores = [] := by
  intro st
  obtain ⟨r, hr⟩ := spreadRequest_team (joined (drainStores s) key m)
  rw [joined_team] at hr
  have ht : st.team = _ := hr
  exact ⟨by rw [ht], by rw [ht], (spreadRequest_stores _).trans (drainStores_stores s)⟩

/-! ### Leaving -/

theorem leaveCluster_of_none {s : State} (h : s.team.cluster = none) : leaveCluster s = s := by rw [leaveCluster, h]

theorem leaveCluster_cluster (s : State) : (leaveCluster s).team.cluster = none := by
  unfold leaveCluster
  split
  · assumption
  · rfl

theorem clLeave_lands {s : State} (hq : Idle (leaveCluster s)) (hm : execMask (leaveCluster s) = execMask s) :
    Lands .clLeave s (leaveCluster s) (leaveCluster s).g :=
  issue_lands (e := .of (leaveCluster s)) rfl rfl hq hm rfl rfl rfl rfl

theorem find?_range_least {n m : Nat} {p : Nat → Bool} (hm : m < n) (hp : p m = true) (hl : ∀ j < m, p j = false) :
    (List.range n).find? p = some m := by
  rw [List.find?_range_eq_some]
  exact ⟨hp, List.mem_range.mpr hm, fun j hj => by rw [hl j hj]; rfl⟩

/-- Settles O29: the member number is the lowest that no member holds, searched once the queue has drained. -/
theorem clusters : Obligations.Clusters := by
  intro s n a key hs hk
  refine ⟨fun m hc hm hfree htaken => ?new, fun hc htaken => ?full, fun m hc => clJoin_lands_again hk hs hc,
    fun k m hc hne => ?other, fun hc => ?outside, fun k m _ hq hm => ⟨clLeave_lands hq hm, leaveCluster_cluster s⟩⟩
  case new =>
    have hfind : ((List.range 16).find? fun m => !((clusterOf s key).any fun e => e.2 == m)) = some m :=
      find?_range_least hm (congrArg (!·) hfree) fun j hj => congrArg (!·) (htaken j hj)
    exact ⟨_, clJoin_lands_new hk hs hc hfind, clJoin_new_team s key m⟩
  case full =>
    refine clJoin_lands_full hk hs hc (List.find?_eq_none.mpr fun m hm => ?_)
    exact ne_true_of_eq_false (congrArg (!·) (htaken m (List.mem_range.mp hm)))
  case other =>
    exact issue_faults ((exec_clJoin_of_member hk hc).trans (by rw [if_neg hne]))
  case outside =>
    have h := clLeave_lands (s := s) (by rwa [leaveCluster_of_none hc]) (by rw [leaveCluster_of_none hc])
    rwa [leaveCluster_of_none hc] at h

end Sys2Proof.Machine
end

section
/-!
PROOFS. O21: what reads count, and the landing of loads.
-/
namespace Sys2Proof.Machine

/-! ### Reads and fills write no byte -/

/-- No byte of main memory, of the peer module or of a team's shared memory, and no poison of main memory, differs. -/
structure Unwritten (s t : State) : Prop where
  mem : t.mem = s.mem
  poison : t.poison = s.poison
  peer : t.peer = s.peer
  team : t.team = s.team
  teams : t.teams = s.teams

theorem Unwritten.rfl' (s : State) : Unwritten s s := ⟨rfl, rfl, rfl, rfl, rfl⟩

theorem Unwritten.trans {s t u : State} (a : Unwritten s t) (b : Unwritten t u) : Unwritten s u :=
  ⟨b.mem.trans a.mem, b.poison.trans a.poison, b.peer.trans a.peer, b.team.trans a.team, b.teams.trans a.teams⟩

theorem unwritten_cross (s : State) (n : Nat) : Unwritten s (cross s n) := by
  unfold cross
  split <;> exact ⟨rfl, rfl, rfl, rfl, rfl⟩

theorem unwritten_meter (s : State) (i n : Nat) : Unwritten s (meter s i n) := ⟨rfl, rfl, rfl, rfl, rfl⟩

theorem unwritten_countMeta (s : State) (sl : Sluice) (pa : Nat) : Unwritten s (countMeta s sl pa) := by
  unfold countMeta
  dsimp only
  split
  · exact .rfl' s
  · exact ⟨rfl, rfl, rfl, rfl, rfl⟩

theorem unwritten_countFill (s : State) (sl : Sluice) (pa : Nat) (f : Fill) : Unwritten s (countFill s sl pa f) := by
  have h := ((unwritten_countMeta s sl pa).trans (unwritten_meter _ 3 (f.read + 256 * f.again.toNat))).trans
    (unwritten_meter _ 5 f.steps)
  unfold countFill
  dsimp only
  split
  · exact h.trans ⟨rfl, rfl, rfl, rfl, rfl⟩
  · exact h

theorem unwritten_cacheBlock (s : State) (sl : Sluice) (pa va : Nat) : Unwritten s (cacheBlock s sl pa va).1 := by
  unfold cacheBlock
  dsimp only
  split
  · exact .rfl' s
  · exact (unwritten_countFill s sl _ _).trans ⟨rfl, rfl, rfl, rfl, rfl⟩

theorem unwritten_countRead (s : State) (seen : List Nat) (l : Loc) (n : Nat) : Unwritten s (countRead s seen l n).1 := by
  unfold countRead
  split
  · split
    · dsimp only
      split
      · exact .rfl' s
      · split
        · exact unwritten_cacheBlock s _ _ _
        · exact unwritten_countFill s _ _ _
    · dsimp only
      split
      · exact .rfl' s
      · exact ⟨rfl, rfl, rfl, rfl, rfl⟩
  · dsimp only
    split
    · exact .rfl' s
    · exact unwritten_cross s n
  · exact .rfl' s

theorem unwritten_countReads (s : State) (ls : List (Loc × Nat)) : Unwritten s (countReads s ls) := by
  suffices h : ∀ r : State × List Nat, Unwritten r.1 (ls.foldl (fun r e => countRead r.1 r.2 e.1 e.2) r).1 from h (s, [])
  induction ls with
  | nil => exact fun r => .rfl' _
  | cons e ls ih => exact fun r => (unwritten_countRead r.1 r.2 e.1 e.2).trans (ih _)

theorem writePeer_mem (s : State) (k : Nat) (b : Block) : (writePeer s k b).mem = s.mem := by
  unfold writePeer
  split
  · exact (unwritten_cross _ _).mem
  · rfl

theorem cleanPeer_mem (s : State) (die : Option Nat) (lo hi : Nat) (drop : Bool) : (cleanPeer s die lo hi drop).mem = s.mem := by
  have h (es : SMap Block) : (es.foldl (fun s (e : Nat × Block) => writePeer s e.1 e.2) s).mem = s.mem :=
    List.foldlRecOn es _ (motive := fun t : State => t.mem = s.mem) rfl fun t ht e _ => (writePeer_mem t _ _).trans ht
  unfold cleanPeer
  dsimp only
  split <;> exact h _

theorem acquireOf_mem (s : State) (o : Ordf) : (acquireOf s o).mem = s.mem := by
  cases o
  case qual sc =>
    show (acquireAt s sc).mem = s.mem
    unfold acquireAt
    split
    · exact cleanPeer_mem ..
    · rfl
  all_goals rfl

/-! ### A mask from its lanes -/

theorem testBit_laneSum (f : Nat → Bool) (n k : Nat) :
    ((List.range n).foldl (fun acc l => if f l then acc + 2 ^ l else acc) 0).testBit k = (decide (k < n) && f k) := by
  suffices h : (List.range n).foldl (fun acc l => if f l then acc + 2 ^ l else acc) 0 < 2 ^ n
      ∧ ∀ k, ((List.range n).foldl (fun acc l => if f l then acc + 2 ^ l else acc) 0).testBit k = (decide (k < n) && f k) from
    h.2 k
  induction n with
  | zero => simp
  | succ n ih =>
    obtain ⟨hlt, hbit⟩ := ih
    rw [List.range_succ, List.foldl_append, List.foldl_cons, List.foldl_nil]
    generalize (List.range n).foldl (fun acc l => if f l then acc + 2 ^ l else acc) 0 = acc at hlt hbit ⊢
    by_cases hf : f n = true
    · rw [if_pos hf]
      refine ⟨by omega, fun k => ?_⟩
      rw [Nat.add_comm]
      rcases Nat.lt_trichotomy k n with hk | rfl | hk
      · rw [Nat.testBit_two_pow_add_gt hk, hbit]
        simp [hk, Nat.lt_succ_of_lt hk]
      · rw [Nat.testBit_two_pow_add_eq, hbit]
        simp [hf]
      · rw [Nat.testBit_lt_two_pow]
        · rw [decide_eq_false (by omega), Bool.false_and]
        · calc 2 ^ n + acc < 2 ^ (n + 1) := by rw [pow_succ]; omega
            _ ≤ 2 ^ k := Nat.pow_le_pow_right (by decide) hk
    · rw [if_neg hf]
      refine ⟨by omega, fun k => ?_⟩
      rw [hbit]
      rcases Nat.lt_trichotomy k n with hk | rfl | hk
      · simp [hk, Nat.lt_succ_of_lt hk]
      · simp [hf]
      · rw [decide_eq_false (by omega), decide_eq_false (by omega), Bool.false_and]

theorem laneOn_maskOf (f : Nat → Bool) {k : Nat} (hk : k < 32) : laneOn (maskOf f) k = f k := by
  unfold laneOn maskOf w32 lanes32
  rw [BitVec.getLsbD_ofNat, testBit_laneSum]
  simp [hk]

/-! ### Loads that would take poison (R366, R394) -/

/-- An access takes a poisoned byte. -/
def Eats (s : State) (n : Nat) (l : Loc) : Prop := ∃ b ∈ accessBytes s l n, b.2 = true

theorem any_poisoned_iff (s : State) (n : Nat) (l : Loc) : (accessBytes s l n).any (·.2) = true ↔ Eats s n l := List.any_eq_true

/-- The lanes that take a poisoned byte. -/
def badLanes (s : State) (n : Nat) (ls : List (Nat × Loc)) : List (Nat × List (Byte × Bool)) :=
  (ls.map fun e => (e.1, accessBytes s e.2 n)).filter fun r => r.2.any (·.2)

section poison
variable {s : State} {n : Nat} {ls : List (Nat × Loc)}

theorem mem_badLanes {r : Nat × List (Byte × Bool)} :
    r ∈ badLanes s n ls ↔ ∃ d ∈ ls, Eats s n d.2 ∧ (d.1, accessBytes s d.2 n) = r := by
  unfold badLanes
  rw [List.mem_filter, List.mem_map]
  constructor
  · rintro ⟨⟨d, hd, rfl⟩, hp⟩
    exact ⟨d, hd, (any_poisoned_iff s n d.2).mp hp, rfl⟩
  · rintro ⟨d, hd, hp, rfl⟩
    exact ⟨⟨d, hd, rfl⟩, (any_poisoned_iff s n d.2).mpr hp⟩

theorem badLanes_eq_nil (h : ∀ e ∈ ls, ¬ Eats s n e.2) : badLanes s n ls = [] :=
  List.eq_nil_iff_forall_not_mem.mpr fun _ hr =>
    have ⟨d, hd, hp, _⟩ := mem_badLanes.mp hr
    h d hd hp

theorem badLanes_head? {pre post : List (Nat × Loc)} {e : Nat × Loc} (hpre : ∀ d ∈ pre, ¬ Eats s n d.2) (he : Eats s n e.2) :
    (badLanes s n (pre ++ e :: post)).head? = some (e.1, accessBytes s e.2 n) := by
  have hsplit : badLanes s n (pre ++ e :: post) = badLanes s n pre ++ (e.1, accessBytes s e.2 n) :: badLanes s n post := by
    unfold badLanes
    rw [List.map_append, List.filter_append, List.map_cons,
      List.filter_cons_of_pos (p := fun r : Nat × List (Byte × Bool) => r.2.any (·.2)) ((any_poisoned_iff s n e.2).mpr he)]
  rw [hsplit, badLanes_eq_nil hpre]
  rfl

theorem laneOn_badLanes {k : Nat} (hk : k < 32) :
    laneOn (maskOf fun l => (badLanes s n ls).any fun r => r.1 == l) k = true ↔ ∃ d ∈ ls, d.1 = k ∧ Eats s n d.2 := by
  rw [laneOn_maskOf _ hk, List.any_eq_true]
  constructor
  · rintro ⟨r, hr, hrk⟩
    obtain ⟨d, hd, hp, rfl⟩ := mem_badLanes.mp hr
    exact ⟨d, hd, beq_iff_eq.mp hrk, hp⟩
  · rintro ⟨d, hd, rfl, hp⟩
    exact ⟨_, mem_badLanes.mpr ⟨d, hd, hp, rfl⟩, beq_iff_eq.mpr rfl⟩

variable (spc : Space) (ea : Nat → Nat)

theorem lanesBytes_of_clean (h : ∀ e ∈ ls, ¬ Eats s n e.2) : ∃ rs, lanesBytes s spc ea n ls = .ok rs := by
  have hb : lanesBytes s spc ea n ls = match (badLanes s n ls).head? with | none => _ | some b => _ := rfl
  rw [hb, badLanes_eq_nil h]
  exact ⟨_, rfl⟩

theorem lanesBytes_of_poisoned {b : Nat × List (Byte × Bool)} (h : (badLanes s n ls).head? = some b) :
    lanesBytes s spc ea n ls = .error (poisonRaise spc (maskOf fun l => (badLanes s n ls).any fun r => r.1 == l) (ea b.1)
      (tabulate fun l => if ls.any fun e => e.1 == l then w32 (ea l) else 0)) := by
  have hb : lanesBytes s spc ea n ls = match (badLanes s n ls).head? with | none => _ | some b => _ := rfl
  rw [hb, h]
  rfl

theorem oneBytes_of_clean {l : Loc} (h : ¬ Eats s n l) (a : Nat) : oneBytes s spc a n l = .ok ((accessBytes s l n).map (·.1)) :=
  if_neg fun hp => h ((any_poisoned_iff s n l).mp hp)

theorem oneBytes_of_poisoned {l : Loc} (h : Eats s n l) (a : Nat) : oneBytes s spc a n l = .error (poisonRaise spc 0 a []) :=
  if_pos ((any_poisoned_iff s n l).mpr h)

end poison

/-! ### Instructions that read -/

section reads
variable {i : Instr} {s st : State} {ls : List (Loc × Nat)} {r : Except Raise Effect}

theorem issueRead_of_none (h : poisonedWindow st ls = none) : issueRead i ls r st = issue i r st := by rw [issueRead, h]

theorem issueRead_of_some {t : TRef} (h : poisonedWindow st ls = some t) : issueRead i ls r st = .next (loseTeam st t 0x600 1) := by
  rw [issueRead, h]

end reads

/-- A per-lane instruction without an active lane moves on and changes nothing else (R286). -/
theorem exec_still {i : Instr} {s : State} (hs : Idle s) (hz : execMask s = 0) (hx : exec i s = issueIdle i s) :
    exec i s = .next (advance i s s.g) := by
  have hm : (cur (Effect.of s).st).mask = 0 := hz
  have hpop : popcount 0 = 0 := by decide
  rw [hx, issueIdle, finishShort_quiet i (.of s) hs.1 rfl (fpTrap_none _), hm, hpop, ite_self, countLanes_zero]
  show Host.Outcome.next (advance i s (addFps s.g (0 ||| 0))) = _
  rw [show (0 : FpFlags) ||| 0 = 0 from rfl, addFps_zero]

/-! ### Loads land (R251, R287) -/

theorem applyWrites_map_vec (s : State) (g : Group) (d k : Nat) (tag : Word → Tag) (f : Nat → Nat → Word) :
    applyWrites g ((List.range k).map fun j => vecWrite s (d + j) tag (f j))
      = (List.range k).foldl (fun g j => putVec s g (d + j) tag (f j)) g := by
  rw [applyWrites, List.foldl_map]
  simp only [applyWrite_vec]

theorem applyWrites_scaRun (g : Group) (n k : Nat) (f : Nat → Word) :
    applyWrites g (scaRun n ((List.range k).map f)) = (List.range k).foldl (fun g j => setSreg g (n + j) (f j)) g := by
  rw [applyWrites, scaRun, List.foldl_map, List.length_map, List.length_range]
  refine List.foldl_ext _ _ _ fun g j hj => ?_
  have hf : ((List.range k).map f).getD j 0 = f j := by simp [List.getD, List.mem_range.mp hj]
  rw [hf]
  rfl

section loads
variable {s : State} {spc : Space} {w : MWidth} {n : Nat} {base idx : Opnd} {imm : BitVec 16} {o : Ordf} {r : Raise}

theorem aside_readAt (s : State) (o : Ordf) (reads : List (Loc × Nat)) : Aside s (countReads (acquireOf s o) reads) :=
  (aside_acquireOf s o).trans (aside_countReads _ reads)

theorem readAt_mem (s : State) (o : Ordf) (reads : List (Loc × Nat)) : (countReads (acquireOf s o) reads).mem = s.mem :=
  (unwritten_countReads _ reads).mem.trans (acquireOf_mem s o)

theorem exec_ld_of_error (hon : execMask s ≠ 0) (hp : placeLanes s spc base idx imm (widthBytes w) 1 = .error r) :
    exec (.ld spc w (.v n) base idx imm o) s = issue (.ld spc w (.v n) base idx imm o) (.error r) s := by
  show execLd .. = _
  rw [execLd, if_neg hon, hp]

theorem exec_sLd_of_error (hp : placeOne s spc base idx imm (widthBytes w) 1 = .error r) :
    exec (.sLd spc w (.s n) base idx imm o) s = issue (.sLd spc w (.s n) base idx imm o) (.error r) s := by
  show execSLd .. = _
  rw [execSLd, hp]

section lanes
variable {b : Dword} {ls : List (Nat × Loc)} (hon : execMask s ≠ 0)
  (hp : placeLanes s spc base idx imm (widthBytes w) 1 = .ok (b, ls))
include hon hp

theorem exec_ld : exec (.ld spc w (.v n) base idx imm o) s
    = issueRead (.ld spc w (.v n) base idx imm o) (ls.map fun e => (e.2, widthBytes w))
      (loadEffect (countReads (acquireOf s o) (ls.map fun e => (e.2, widthBytes w))) spc w (.v n) (laneEa s spc b idx imm) ls)
      (countReads (acquireOf s o) (ls.map fun e => (e.2, widthBytes w))) := by
  show execLd .. = _
  rw [execLd, if_neg hon, hp]

theorem ld_lands (hs : Idle s) {st : State} (hst : st = countReads (acquireOf s o) (ls.map fun e => (e.2, widthBytes w)))
    (hw : poisonedWindow st (ls.map fun e => (e.2, widthBytes w)) = none) {rs : List (Nat × List Byte)}
    (hb : lanesBytes st spc (laneEa s spc b idx imm) (widthBytes w) ls = .ok rs) :
    Lands (.ld spc w (.v n) base idx imm o) s st ((List.range (widthRegs w)).foldl (fun g k =>
      putVec s g (n + k) (fun _ => .general) fun l => loadValue w (laneBytes rs l) k) s.g) := by
  have ha : Aside s st := hst ▸ aside_readAt s o _
  have hput (g : Group) (k : Nat) (f : Nat → Word) : putVec st g k (fun _ => .general) f = putVec s g k (fun _ => .general) f := by
    unfold putVec
    rw [ha.calm.execMask]
  have hx := exec_ld (n := n) (o := o) hon hp
  rw [← hst, issueRead_of_none hw, loadEffect, hb] at hx
  have h := long_done _ _ hx hs ha.calm rfl
  rw [applyWrites_map_vec, ha.g] at h
  simp only [hput] at h
  exact h

theorem ld_faults {st : State} (hst : st = countReads (acquireOf s o) (ls.map fun e => (e.2, widthBytes w)))
    (hw : poisonedWindow st (ls.map fun e => (e.2, widthBytes w)) = none)
    (hb : lanesBytes st spc (laneEa s spc b idx imm) (widthBytes w) ls = .error r) :
    FaultsIn (.ld spc w (.v n) base idx imm o) s st r := by
  have hx := exec_ld (n := n) (o := o) hon hp
  rw [← hst, issueRead_of_none hw, loadEffect, hb] at hx
  exact hx.trans (issue_error _ r st)

theorem ld_loses {st : State} (hst : st = countReads (acquireOf s o) (ls.map fun e => (e.2, widthBytes w))) {t : TRef}
    (hw : poisonedWindow st (ls.map fun e => (e.2, widthBytes w)) = some t) :
    exec (.ld spc w (.v n) base idx imm o) s = .next (loseTeam st t 0x600 1) := by
  subst hst
  exact (exec_ld hon hp).trans (issueRead_of_some hw)

end lanes

section one
variable {ea : Nat} {l : Loc} (hp : placeOne s spc base idx imm (widthBytes w) 1 = .ok (ea, l))
include hp

theorem exec_sLd : exec (.sLd spc w (.s n) base idx imm o) s
    = issueRead (.sLd spc w (.s n) base idx imm o) [(l, widthBytes w)]
      (scaLoadEffect (countReads (acquireOf s o) [(l, widthBytes w)]) spc w (.s n) ea l)
      (countReads (acquireOf s o) [(l, widthBytes w)]) := by
  show execSLd .. = _
  rw [execSLd, hp]

theorem sLd_lands (hs : Idle s) {st : State} (hst : st = countReads (acquireOf s o) [(l, widthBytes w)])
    (hw : poisonedWindow st [(l, widthBytes w)] = none) {bs : List Byte} (hb : oneBytes st spc ea (widthBytes w) l = .ok bs) :
    Lands (.sLd spc w (.s n) base idx imm o) s st
      ((List.range (widthRegs w)).foldl (fun g k => setSreg g (n + k) (loadValue w bs k)) s.g) := by
  have ha : Aside s st := hst ▸ aside_readAt s o _
  have hx := exec_sLd (n := n) (o := o) hp
  rw [← hst, issueRead_of_none hw, scaLoadEffect, hb] at hx
  have h := long_done _ _ hx hs ha.calm rfl
  rw [applyWrites_scaRun, ha.g] at h
  exact h

theorem sLd_faults {st : State} (hst : st = countReads (acquireOf s o) [(l, widthBytes w)])
    (hw : poisonedWindow st [(l, widthBytes w)] = none) (hb : oneBytes st spc ea (widthBytes w) l = .error r) :
    FaultsIn (.sLd spc w (.s n) base idx imm o) s st r := by
  have hx := exec_sLd (n := n) (o := o) hp
  rw [← hst, issueRead_of_none hw, scaLoadEffect, hb] at hx
  exact hx.trans (issue_error _ r st)

theorem sLd_loses {st : State} (hst : st = countReads (acquireOf s o) [(l, widthBytes w)]) {t : TRef}
    (hw : poisonedWindow st [(l, widthBytes w)] = some t) :
    exec (.sLd spc w (.s n) base idx imm o) s = .next (loseTeam st t 0x600 1) := by
  subst hst
  exact (exec_sLd hp).trans (issueRead_of_some hw)

end one

end loads

/-- Settles O21: the places first, then poison, then the registers; what poison takes by the list of the lanes that read. -/
theorem loads : Obligations.Loads := by
  refine ⟨?still, ?vector, ?scalar, fun s spc ea n ls => ⟨lanesBytes_of_clean spc ea, ?lanes, fun l => ⟨?clean, ?poisoned⟩⟩⟩
  case still =>
    intro s spc w wide sgn op d b x imm o k hs hz
    exact ⟨exec_still hs hz (if_pos hz), exec_still hs hz (if_pos hz), exec_still hs hz (if_pos hz),
      exec_still hs hz (if_pos hz), exec_still hs hz (if_pos hz)⟩
  case vector =>
    intro s spc w n base idx imm o hs hon
    refine ⟨fun b ls hp => ⟨fun rs hw hb => ⟨ld_lands hon hp hs rfl hw hb, readAt_mem s o _⟩,
      fun r hw hb => ld_faults hon hp rfl hw hb, fun t hw => ld_loses hon hp rfl hw⟩, fun r hp => ?_⟩
    exact issue_faults (exec_ld_of_error hon hp)
  case scalar =>
    intro s spc w n base idx imm o hs
    refine ⟨fun ea l hp => ⟨fun bs hw hb => ⟨sLd_lands hp hs rfl hw hb, readAt_mem s o _⟩,
      fun r hw hb => sLd_faults hp rfl hw hb, fun t hw => sLd_loses hp rfl hw⟩, fun r hp => ?_⟩
    exact issue_faults (exec_sLd_of_error hp)
  case lanes =>
    rintro pre post e rfl hpre he
    refine ⟨_, lanesBytes_of_poisoned spc ea (badLanes_head? hpre he), rfl, rfl, fun k hk => laneOn_badLanes hk⟩
  case clean =>
    exact fun h => ⟨_, oneBytes_of_clean spc h _⟩
  case poisoned =>
    exact fun h => ⟨_, oneBytes_of_poisoned spc h _, rfl, rfl, rfl⟩

end Sys2Proof.Machine
end

section
/-!
PROOFS. O27: gauge instructions on a word at its home, and the wait that sets W.
-/
namespace Sys2Proof.Machine

/-! ### Instructions that update the word (R297, R298) -/

theorem aside_readied (s : State) (l : Loc) : Aside { s with g := { s.g with stores := [] } } (readyGauge (drainStores s) l) :=
  (aside_drainStores s).trans (aside_readyGauge _ l)

theorem calm_readied (s : State) (l : Loc) : Calm s (readyGauge (drainStores s) l) :=
  (calm_drainStores s).trans (aside_readyGauge _ l).calm

section update
variable {s : State} {i : Instr} {spc : Space} {x : Except Raise Word} {base idx : Opnd} {imm : BitVec 16} {v : Word} {ea : Nat}
  {l : Loc} {f : State → Nat → Loc → Word → Effect} (hx : exec i s = gaugeIssue i spc x base idx imm f s) (hv : x = .ok v)
  (hp : placeOne s spc base idx imm 16 3 = .ok (ea, l)) (hw : poisonedWindow (readyGauge (drainStores s) l) [(l, 16)] = none)
include hx hv hp hw

theorem exec_gauge : exec i s = issue i ((oneBytes (readyGauge (drainStores s) l) spc ea 16 l).map fun _ =>
    f (readyGauge (drainStores s) l) ea l v) (readyGauge (drainStores s) l) := by
  rw [hx, gaugeIssue, hv]
  show (match (placeOne s spc base idx imm 16 3).bind fun p => Except.ok (v, p) with | .error r => _ | .ok (v, ea, l) => _) = _
  rw [hp]
  exact issueRead_of_none hw

/-- The instruction has put what it makes of the word, and lands. -/
theorem gauge_lands (hs : Idle s) (hl : isLong i = true) (hb : ∃ bs, oneBytes (readyGauge (drainStores s) l) spc ea 16 l = .ok bs)
    {st : State} (hf : ∃ evs, f (readyGauge (drainStores s) l) ea l v = { Effect.of st with events := evs })
    (ha : Aside (readyGauge (drainStores s) l) st) : Lands i s st st.g := by
  obtain ⟨bs, hb⟩ := hb
  obtain ⟨evs, hf⟩ := hf
  have h := exec_gauge hx hv hp hw
  rw [hb] at h
  refine long_done [] evs (h.trans ?_) hs ((calm_readied s l).trans ha.calm) hl
  show issue i (.ok (f _ ea l v)) _ = _
  rw [hf]
  exact (issue_long i _ _ hl).trans (issue_long i _ _ hl).symm

theorem gauge_faults {r : Raise} (hb : oneBytes (readyGauge (drainStores s) l) spc ea 16 l = .error r) :
    FaultsIn i s (readyGauge (drainStores s) l) r := by
  have h := exec_gauge hx hv hp hw
  rw [hb] at h
  exact h.trans (issue_error i r _)

end update

/-- The word that `gauge.set` writes: TARGET, COUNT 0, the device and V. -/
def setWord (g : Nat) (x : Word) (vd : Nat) : Nat := setField (setField (setField (setField g 0 32 x.toNat) 32 32 0) 96 6 vd) 127 1 1

/-- What `gauge.add` makes of a word that its place holds. -/
def addEffect (spc : Space) (s : State) (ea : Nat) (l : Loc) (x : Word) : Effect :=
  let seen := readEvents spc none ea (leBytes 16 (gaugeAt s l))
  match gaugeArrive (gaugeAt s l) s.vd.number x.toNat with
  | some g => { Effect.of (putGauge s l g) with events := seen ++ writeEvents spc none ea (leBytes 16 g) }
  | none => { Effect.of s with events := seen }

section instructions
variable (s : State) (spc : Space) (x base idx : Opnd) (imm : BitVec 16)

theorem exec_gaugeSet : exec (.gaugeSet spc x base idx imm) s = gaugeIssue (.gaugeSet spc x base idx imm) spc (uni s 1 x) base idx imm
    (fun s _ l x => .of (putGauge s l (setWord (gaugeAt s l) x s.vd.number))) s := rfl

theorem exec_gaugeSetOff : exec (.gaugeSetOff spc base idx imm) s = gaugeIssue (.gaugeSetOff spc base idx imm) spc (.ok 0) base idx imm
    (fun s _ l _ => .of (putGauge s l (setField (gaugeAt s l) 127 1 0))) s := rfl

theorem exec_gaugeAdd : exec (.gaugeAdd spc x base idx imm) s = gaugeIssue (.gaugeAdd spc x base idx imm) spc (uni s 1 x) base idx imm
    (addEffect spc) s := rfl

end instructions

section lands
variable {s : State} {spc : Space} {x base idx : Opnd} {imm : BitVec 16} {v : Word} {ea : Nat} {l : Loc} (hs : Idle s)
  (hp : placeOne s spc base idx imm 16 3 = .ok (ea, l)) (hw : poisonedWindow (readyGauge (drainStores s) l) [(l, 16)] = none)
  (hb : ∃ bs, oneBytes (readyGauge (drainStores s) l) spc ea 16 l = .ok bs)
include hs hp hw hb

theorem gaugeSetOff_lands :
    let st := putGauge (readyGauge (drainStores s) l) l (setField (gaugeAt (readyGauge (drainStores s) l) l) 127 1 0)
    Lands (.gaugeSetOff spc base idx imm) s st st.g :=
  gauge_lands (exec_gaugeSetOff ..) rfl hp hw hs rfl hb ⟨[], rfl⟩ (aside_putGauge ..)

variable (hv : uni s 1 x = .ok v)
include hv

theorem gaugeSet_lands :
    let st := putGauge (readyGauge (drainStores s) l) l (setWord (gaugeAt (readyGauge (drainStores s) l) l) v s.vd.number)
    Lands (.gaugeSet spc x base idx imm) s st st.g := by
  have hn : (readyGauge (drainStores s) l).vd.number = s.vd.number := (aside_readied s l).number
  rw [← hn]
  exact gauge_lands (exec_gaugeSet ..) hv hp hw hs rfl hb ⟨[], rfl⟩ (aside_putGauge ..)

theorem gaugeAdd_lands {g : Nat} (hg : gaugeArrive (gaugeAt (readyGauge (drainStores s) l) l) s.vd.number v.toNat = some g) :
    let st := putGauge (readyGauge (drainStores s) l) l g
    Lands (.gaugeAdd spc x base idx imm) s st st.g := by
  have hn : (readyGauge (drainStores s) l).vd.number = s.vd.number := (aside_readied s l).number
  rw [← hn] at hg
  refine gauge_lands (exec_gaugeAdd ..) hv hp hw hs rfl hb ?_ (aside_putGauge ..)
  rw [addEffect, hg]
  exact ⟨_, rfl⟩

theorem gaugeAdd_lands_discarded (hg : gaugeArrive (gaugeAt (readyGauge (drainStores s) l) l) s.vd.number v.toNat = none) :
    Lands (.gaugeAdd spc x base idx imm) s (readyGauge (drainStores s) l) (readyGauge (drainStores s) l).g := by
  have hn : (readyGauge (drainStores s) l).vd.number = s.vd.number := (aside_readied s l).number
  rw [← hn] at hg
  refine gauge_lands (exec_gaugeAdd ..) hv hp hw hs rfl hb ?_ (.rfl' _)
  rw [addEffect, hg]
  exact ⟨_, rfl⟩

end lands

/-! ### The wait issues (R299) -/

theorem calm_dropWaits (s : State) (p : Loc × Nat × SlotId → Bool) : Calm s (dropWaits s p) :=
  Calm.trans (t := { s with team := { s.team with gaugers := s.team.gaugers.filter fun w => !p w } }) (.of_eq rfl rfl rfl rfl rfl rfl)
    (Calm.foldl (fun s (w : Loc × Nat × SlotId) => showPending s w.1) (fun s w => (aside_putGauge s w.1 _).calm) _ _)

/-- The state in which the word of a wait is looked at. -/
def beforeWait (s : State) : State := dropGauger (drainStores s)

theorem calm_beforeWait (s : State) : Calm s (beforeWait s) := (calm_drainStores s).trans (calm_dropWaits ..)

/-- The slot in focus is among the waits of its team. -/
def enlist (u : State) (l : Loc) : State := { u with team := { u.team with gaugers := u.team.gaugers ++ [(l, me u)] } }

section wait
variable {s : State} {spc : Space} {x base idx : Opnd} {imm : BitVec 16} {v : Word} {ea : Nat} {l : Loc} (hv : uni s 1 x = .ok v)
  (hp : placeOne s spc base idx imm 16 1 = .ok (ea, l))
include hv hp

theorem exec_gaugeWait : exec (.gaugeWait spc x base idx imm) s
    = if gaugePoison (beforeWait s) l ∨ gaugeReached (gaugeAt (beforeWait s) l) v then
        issueRead (.gaugeWait spc x base idx imm) [(l, 16)] ((oneBytes (countReads (beforeWait s) [(l, 16)]) spc ea 16 l).map fun _ =>
          .of (countReads (beforeWait s) [(l, 16)])) (countReads (beforeWait s) [(l, 16)])
      else .next (pauseAs (showPending (enlist (readyGauge (beforeWait s) l) l) l) .gauge) := by
  show execGaugeWait .. = _
  rw [execGaugeWait, hv]
  show (match (placeOne s spc base idx imm 16 1).bind fun p => Except.ok (v, p) with | .error r => _ | .ok (v, ea, l) => _) = _
  rw [hp]
  rfl

theorem gaugeWait_lands (hs : Idle s) (hr : gaugeReached (gaugeAt (beforeWait s) l) v = true) {c : State}
    (hc : c = countReads (beforeWait s) [(l, 16)]) (hw : poisonedWindow c [(l, 16)] = none)
    (hb : ∃ bs, oneBytes c spc ea 16 l = .ok bs) : Lands (.gaugeWait spc x base idx imm) s c c.g := by
  have h := exec_gaugeWait hv hp
  obtain ⟨bs, hb⟩ := hb
  rw [if_pos (.inr hr), ← hc, issueRead_of_none hw, hb] at h
  refine long_done [] [] h hs ?_ rfl
  exact hc ▸ (calm_beforeWait s).trans (aside_countReads _ _).calm

theorem gaugeWait_faults {r : Raise} (hg : gaugePoison (beforeWait s) l = true) {c : State}
    (hc : c = countReads (beforeWait s) [(l, 16)]) (hw : poisonedWindow c [(l, 16)] = none)
    (hb : oneBytes c spc ea 16 l = .error r) : FaultsIn (.gaugeWait spc x base idx imm) s c r := by
  have h := exec_gaugeWait hv hp
  rw [if_pos (.inl hg), ← hc, issueRead_of_none hw, hb] at h
  exact h.trans (issue_error _ r c)

theorem gaugeWait_waits (hr : gaugeReached (gaugeAt (beforeWait s) l) v = false) (hg : gaugePoison (beforeWait s) l = false) :
    exec (.gaugeWait spc x base idx imm) s
      = .next (pauseAs (showPending (enlist (readyGauge (beforeWait s) l) l) l) .gauge) := by
  rw [exec_gaugeWait hv hp, if_neg]
  rw [hr, hg]
  decide

end wait

/-! ### The slot that waits -/

theorem calm_waiting (s : State) (l : Loc) : Calm s (showPending (enlist (readyGauge (beforeWait s) l) l) l) := by
  have hready : Calm s (readyGauge (beforeWait s) l) := (calm_beforeWait s).trans (aside_readyGauge _ l).calm
  generalize readyGauge (beforeWait s) l = u at hready ⊢
  have henlist : Calm u (enlist u l) := .of_eq rfl rfl rfl rfl rfl rfl
  exact (hready.trans henlist).trans (aside_putGauge (enlist u l) l _).calm

theorem enlisted_gaugers (u : State) (l : Loc) : (l, me u) ∈ (showPending (enlist u l) l).team.gaugers := by
  have h : (showPending (enlist u l) l).team.gaugers = (enlist u l).team.gaugers :=
    (congrArg Team.gaugers (aside_putGauge (enlist u l) l _).team :)
  rw [h]
  exact List.mem_append_right _ (List.mem_singleton_self _)

theorem Calm.me {s t : State} (h : Calm s t) : me t = me s := by
  unfold Machine.me
  rw [h.gref, h.slot]

theorem enlist_eq {s u : State} (h : Calm s u) (l : Loc) :
    enlist u l = { u with team := { u.team with gaugers := u.team.gaugers ++ [(l, me s)] } } := by
  unfold enlist
  rw [h.me]

/-- The slot waits at its instruction, with its registers as they were. -/
theorem paused_of_calm {s u : State} (h : Calm s u) (w : Wait) : (cur (pauseAs u w)).wait = w ∧ (cur (pauseAs u w)).pc = (cur s).pc
    ∧ (pauseAs u w).g.vregs = s.g.vregs ∧ (pauseAs u w).g.sregs = s.g.sregs := by
  have hcur : cur (pauseAs u w) = (cur u).pause w := cur_setCur u _
  have hv : (pauseAs u w).g.vregs = u.g.vregs := by
    unfold pauseAs setCur
    cases u.slot <;> rfl
  have hsr : (pauseAs u w).g.sregs = u.g.sregs := by
    unfold pauseAs setCur
    cases u.slot <;> rfl
  rw [hcur, hv, hsr, h.vregs, h.sregs, ← h.cur]
  exact ⟨rfl, rfl, rfl, rfl⟩

/-! ### W of a word in main memory (R111) -/

theorem leNat_leBytes (n x : Nat) : leNat (leBytes n x) = x % 256 ^ n := by
  induction n generalizing x with
  | zero => rw [pow_zero, Nat.mod_one]; rfl
  | succ n ih =>
    show (BitVec.ofNat 8 x).toNat + 256 * leNat (leBytes n (x / 256)) = _
    rw [ih, BitVec.toNat_ofNat, show 256 ^ (n + 1) = 256 * 256 ^ n from pow_succ' ..]
    exact (Nat.mod_mul ..).symm

theorem length_leBytes (n x : Nat) : (leBytes n x).length = n := by
  induction n generalizing x with
  | zero => rfl
  | succ n ih => exact congrArg (· + 1) (ih _)

theorem leNat_lt (l : List Byte) : leNat l < 256 ^ l.length := by
  induction l with
  | nil => exact Nat.one_pos
  | cons b l ih =>
    have hb := b.isLt
    rw [leNat, List.length_cons, pow_succ']
    omega

theorem lastByte_of_mem {b x : Byte} {a : Nat} {cells : List (Loc × Byte)} (h : ∀ c ∈ cells, c.1.addr = a → c.2 = x)
    (hm : ∃ c ∈ cells, c.1.addr = a) : lastByte b a cells = x := by
  obtain ⟨c, hc, ha⟩ := hm
  obtain ⟨pre, post, rfl⟩ := List.append_of_mem hc
  unfold lastByte
  rw [List.foldl_append, List.foldl_cons, if_pos ha.symm]
  have hx := h c hc ha
  rw [hx]
  exact lastByte_eq_self fun d hd hda => h d (List.mem_append_right _ (List.mem_cons_of_mem _ hd)) hda

theorem mem_cellsOf {l : Loc} {bs : List Byte} {c : Loc × Byte} :
    c ∈ cellsOf l bs ↔ ∃ i < bs.length, ({ l with addr := l.addr + i, va := l.va + i }, bs.getD i 0) = c := by
  simp [cellsOf]

theorem lastByte_cellsOf (b : Byte) (l : Loc) (bs : List Byte) {i : Nat} (hi : i < bs.length) :
    lastByte b (l.addr + i) (cellsOf l bs) = bs.getD i 0 := by
  refine lastByte_of_mem (fun c hc ha => ?_) ⟨_, mem_cellsOf.mpr ⟨i, hi, rfl⟩, rfl⟩
  obtain ⟨j, hj, rfl⟩ := mem_cellsOf.mp hc
  have hij : j = i := Nat.add_left_cancel ha
  rw [hij]

theorem lastByte_cellsOf_outside (b : Byte) {l : Loc} {bs : List Byte} {a : Nat} (ha : a < l.addr ∨ l.addr + bs.length ≤ a) :
    lastByte b a (cellsOf l bs) = b := by
  refine lastByte_eq_self fun c hc he => ?_
  obtain ⟨j, hj, rfl⟩ := mem_cellsOf.mp hc
  have he' : l.addr + j = a := he
  omega

theorem bindingAt_congr {d e : Device} (h : e.bindings = d.bindings) : bindingAt e = bindingAt d := by
  unfold bindingAt
  rw [h]

theorem withOut_bindings (s : State) (n : Nat) : ({ s with vd := { s.vd with out := n } } : State).vd.bindings = s.vd.bindings :=
  rfl

theorem checkOut_bindings (s : State) : (checkOut s).vd.bindings = s.vd.bindings := by
  unfold checkOut
  split
  · dsimp only
    generalize mainNat s (ctxPart s.vd mailPart + 8) 8 = o
    generalize (o + 2 ^ 64 - s.vd.out) % 2 ^ 64 = n
    split
    · rfl
    · refine (withOut_bindings _ o).trans ?_
      split
      · refine List.foldlRecOn _ _ (motive := fun t : State => t.vd.bindings = s.vd.bindings) rfl fun t ht j _ => ?_
        split
        · exact ht
        · exact ht
      · rfl
  · rfl

theorem putAll_bindings {s : State} {cells : List (Loc × Byte)} (hc : Unbound s.vd cells) :
    (putAll s cells).vd.bindings = s.vd.bindings := by
  have hfold : (cells.foldl (fun s c => putLoc s c.1 c.2) s).vd = s.vd := by
    induction cells generalizing s with
    | nil => rfl
    | cons c cells ih =>
      obtain ⟨⟨hl, hb⟩, hcells⟩ := List.forall_mem_cons.mp hc
      rw [List.foldl_cons, ih (by rwa [putLoc_vd_of_unbound hl hb]), putLoc_vd_of_unbound hl hb]
  rw [putAll, checkOut_bindings, putLocs_of_unbound hc, ← hfold]
  dsimp only
  split <;> rfl

theorem gaugeAt_lt (s : State) (l : Loc) : gaugeAt s l < 2 ^ 128 := by
  unfold gaugeAt locRun
  exact (leNat_lt _).trans_eq (by simp)

section word
variable {s : State} {l : Loc} (hl : l.home = .main) (hb : ∀ k < 16, bindingAt s.vd (l.va + k) = none)
include hl hb

theorem gaugeAt_of_unbound : gaugeAt s l = leNat ((List.range 16).map fun i => mainByte s (l.addr + i)) := by
  unfold gaugeAt locRun
  rw [List.map_map]
  refine congrArg leNat (List.map_congr_left fun i hi => ?_)
  exact congrArg Prod.fst (locByte_of_unbound (l := { l with addr := l.addr + i, va := l.va + i }) hl (hb i (List.mem_range.mp hi)))

theorem unbound_cellsOf (g : Nat) : Unbound s.vd (cellsOf l (leBytes 16 g)) := by
  intro c hc
  obtain ⟨i, hi, rfl⟩ := mem_cellsOf.mp hc
  rw [length_leBytes] at hi
  exact ⟨hl, hb i hi⟩

theorem putGauge_bindings (g : Nat) (k : Nat) : bindingAt (putGauge s l g).vd k = bindingAt s.vd k := by
  exact congrFun (bindingAt_congr (putAll_bindings (unbound_cellsOf hl hb g))) k

theorem mainByte_putGauge (h : s.Inv) (g a : Nat) :
    mainByte (putGauge s l g) a = lastByte (mainByte s a) a (cellsOf l (leBytes 16 g)) :=
  ((sameBytes_checkOut _).mainByte a).trans (mainByte_putLocs h (unbound_cellsOf hl hb g) a)

theorem gaugeAt_putGauge (h : s.Inv) {g : Nat} (hg : g < 2 ^ 128) : gaugeAt (putGauge s l g) l = g := by
  rw [gaugeAt_of_unbound hl fun k hk => (putGauge_bindings hl hb g _).trans (hb k hk)]
  have hbytes : ((List.range 16).map fun i => mainByte (putGauge s l g) (l.addr + i)) = leBytes 16 g := by
    refine List.ext_getElem (by rw [length_leBytes]; rfl) fun i h₁ h₂ => ?_
    rw [List.getElem_map, List.getElem_range, mainByte_putGauge hl hb h, lastByte_cellsOf _ _ _ h₂]
    exact List.getD_eq_getElem _ _ h₂
  rw [hbytes, leNat_leBytes]
  exact Nat.mod_eq_of_lt hg

theorem mainByte_putGauge_outside (h : s.Inv) (g : Nat) {a : Nat} (ha : a < l.addr ∨ l.addr + 16 ≤ a) :
    mainByte (putGauge s l g) a = mainByte s a := by
  rw [mainByte_putGauge hl hb h, lastByte_cellsOf_outside]
  rwa [length_leBytes]

theorem readyGauge_of_unbound : readyGauge s l = s ∨ readyGauge s l = meter s 3 16 := by
  have hbind : bindingAt s.vd l.va = none := hb 0 (by decide)
  have hready : readyAtomic s l = s := by
    unfold readyAtomic atHome
    rw [hl, hbind]
  have hread : readyGauge s l = (if (mget? s.lines (l.addr / 256)).isSome then s else meter s 3 16) := by
    unfold readyGauge countReads countRead
    rw [hready, List.foldl_cons, List.foldl_nil, hl]
    dsimp only
    rw [hbind]
  rw [hread]
  split
  · exact .inl rfl
  · exact .inr rfl

end word

theorem gaugePending_enlist (u : State) (l : Loc) (hs : u.team.ref.serial ≠ 0) : gaugePending (enlist u l) l = true := by
  have hsame : l.same l = true := by simp [Loc.same]
  have hteams : allTeams (enlist u l) = (enlist u l).team :: (enlist u l).teams := if_neg hs
  unfold gaugePending
  rw [hteams, List.any_cons]
  have hin : ((enlist u l).team.gaugers.any fun w => w.1.same l) = true :=
    List.any_eq_true.mpr ⟨(l, me u), List.mem_append_right _ (List.mem_singleton_self _), hsame⟩
  rw [hin, Bool.true_or]

/-- W is set, the other bits and the other bytes of main memory stay. -/
theorem word_of_waiting {w : State} {l : Loc} (hl : l.home = .main) (hw : w.Inv) (hb : ∀ k < 16, bindingAt w.vd (l.va + k) = none)
    (hs : w.team.ref.serial ≠ 0) :
    let t := showPending (enlist (readyGauge w l) l) l
    gaugeAt t l = setField (gaugeAt w l) 126 1 1
      ∧ ∀ a, (a < l.addr ∨ l.addr + 16 ≤ a) → mainByte t a = mainByte w a := by
  have hkeep (u : State) (hu : u = w ∨ u = meter w 3 16) : (enlist u l).Inv ∧ (∀ k < 16, bindingAt (enlist u l).vd (l.va + k) = none)
      ∧ (∀ a, mainByte (enlist u l) a = mainByte w a) ∧ u.team.ref.serial ≠ 0 := by
    rcases hu with rfl | rfl
    · exact ⟨.update hw, hb, fun _ => rfl, hs⟩
    · exact ⟨.update hw, hb, fun _ => rfl, hs⟩
  obtain ⟨hinv, hbind, hmain, hserial⟩ := hkeep _ (readyGauge_of_unbound hl hb)
  intro t
  have hg : gaugeAt (enlist (readyGauge w l) l) l = gaugeAt w l := by
    rw [gaugeAt_of_unbound hl hbind, gaugeAt_of_unbound hl hb]
    simp only [hmain]
  have ht : t = putGauge (enlist (readyGauge w l) l) l (setField (gaugeAt w l) 126 1 1) := by
    show putGauge _ l (setField _ 126 1 (gaugePending _ l).toNat) = _
    rw [hg, gaugePending_enlist _ l hserial]
    rfl
  have hlt : setField (gaugeAt w l) 126 1 1 < 2 ^ 128 := by
    have hold := gaugeAt_lt w l
    have htop : setField (gaugeAt w l) 126 1 1 / 2 ^ 127 = gaugeAt w l / 2 ^ 127 := setField_high _ 126 1 1
    omega
  have hat : gaugeAt t l = setField (gaugeAt w l) 126 1 1 := by rw [ht, gaugeAt_putGauge hl hbind hinv hlt]
  refine ⟨hat, fun a ha => ?_⟩
  rw [ht, mainByte_putGauge_outside hl hbind hinv _ ha, hmain]

theorem gaugeAt_pauseAs (u : State) (w : Wait) (l : Loc) : gaugeAt (pauseAs u w) l = gaugeAt u l := rfl

theorem mainByte_pauseAs (u : State) (w : Wait) (a : Nat) : mainByte (pauseAs u w) a = mainByte u a := rfl

/-- What the wait leaves: the slot, its team's waits and the word. -/
theorem waiting_gauge {s : State} {spc : Space} {x base idx : Opnd} {imm : BitVec 16} {v : Word} {ea : Nat} {l : Loc} {t : State}
    (hs : Idle s) (hv : uni s 1 x = .ok v) (hp : placeOne s spc base idx imm 16 1 = .ok (ea, l))
    (hr : gaugeReached (gaugeAt (beforeWait s) l) v = false) (hg : gaugePoison (beforeWait s) l = false)
    (ht : t = pauseAs (showPending (enlist (readyGauge (beforeWait s) l) l) l) .gauge) :
    exec (.gaugeWait spc x base idx imm) s = .next t ∧ (cur t).wait = .gauge ∧ (cur t).pc = (cur s).pc
      ∧ (l, me s) ∈ t.team.gaugers ∧ t.g.vregs = s.g.vregs ∧ t.g.sregs = s.g.sregs
      ∧ (l.home = .main → (beforeWait s).Inv → (∀ k < 16, bindingAt (beforeWait s).vd (l.va + k) = none) →
        gaugeAt t l / 2 ^ 126 % 2 = 1
          ∧ gaugeAt t l % 2 ^ 126 = gaugeAt (beforeWait s) l % 2 ^ 126 ∧ gaugeAt t l / 2 ^ 127 = gaugeAt (beforeWait s) l / 2 ^ 127
          ∧ ∀ a, (a < l.addr ∨ l.addr + 16 ≤ a) → mainByte t a = mainByte (beforeWait s) a) := by
  have hready : Calm s (readyGauge (beforeWait s) l) := (calm_beforeWait s).trans (aside_readyGauge _ l).calm
  have hserial : (beforeWait s).team.ref.serial ≠ 0 := by
    rw [(calm_beforeWait s).ref]
    exact hs.2.1.2.1
  have hcalm := calm_waiting s l
  have hin := enlisted_gaugers (readyGauge (beforeWait s) l) l
  have hword := word_of_waiting (w := beforeWait s) (l := l)
  have hexec := gaugeWait_waits hv hp hr hg
  rw [hready.me] at hin
  rw [← ht] at hexec
  generalize showPending _ l = u at ht hcalm hin hword
  obtain ⟨hwait, hpc, hvr, hsr⟩ := paused_of_calm hcalm .gauge
  subst ht
  refine ⟨hexec, hwait, hpc, hin, hvr, hsr, fun hl hinv hb => ?_⟩
  obtain ⟨hat, hout⟩ := hword hl hinv hb hserial
  simp only [gaugeAt_pauseAs, mainByte_pauseAs]
  rw [hat]
  exact ⟨setField_same _ 126 1 1, setField_low _ 126 1 1, setField_high _ 126 1 1, hout⟩

/-- Settles O27: each instruction by the word it puts, and the wait by the bytes that setting W writes. -/
theorem gaugeWords : Obligations.GaugeWords := by
  intro s spc x base idx imm v ea l hs hv
  refine ⟨fun hp => ?update, fun hp => ?wait⟩
  case update =>
    intro d g done hw
    have hn : d.vd.number = s.vd.number := (aside_readied s l).number
    exact ⟨fun hb => ⟨gaugeSet_lands hs hp hw hb hv, gaugeSetOff_lands hs hp hw hb, fun g' hg => gaugeAdd_lands hs hp hw hb hv hg,
      fun hg => gaugeAdd_lands_discarded hs hp hw hb hv hg⟩, fun r hb => ⟨gauge_faults (exec_gaugeSet ..) hv hp hw hb,
        gauge_faults (exec_gaugeSetOff ..) rfl hp hw hb, gauge_faults (exec_gaugeAdd ..) hv hp hw hb⟩⟩
  case wait =>
    refine ⟨fun hr hw hb => gaugeWait_lands hv hp hs hr rfl hw hb, fun r hg hw hb => gaugeWait_faults hv hp hg rfl hw hb,
      fun hr hg => ?_⟩
    have hready : Calm s (readyGauge (beforeWait s) l) := (calm_beforeWait s).trans (aside_readyGauge _ l).calm
    exact waiting_gauge hs hv hp hr hg (congrArg (fun u => pauseAs (showPending u l) .gauge) (enlist_eq hready l).symm)

end Sys2Proof.Machine
end

section
/-!
PROOFS. O26: fences and ranges land with the queue drained; what a fill, a prefetch and a page walk leave.
-/
namespace Sys2Proof.Machine

/-! ### Poisoned sectors of main memory -/

theorem mainPoison_addPoison_self (s : State) (pa : Nat) : mainPoison (addPoison s pa) pa = true := by
  have hin : (sadd (clearSpan s (pa / 32768)).poison (pa / 32)).contains (pa / 32) = true :=
    List.contains_iff_mem.mpr (mem_sadd.mpr (.inl rfl))
  have hspan : inRanges (clearSpan s (pa / 32768)).marked (pa / 32768) = false := by
    rw [marked_clearSpan, decide_eq_false (not_not_intro rfl), Bool.and_false]
  show (_ && !inRanges (clearSpan s (pa / 32768)).marked (pa / 32768)) = true
  rw [hspan]
  exact (Bool.and_true _).trans hin

/-! ### Fences (R294) -/

/-- The state that a fence leaves. -/
def fenced (s : State) (k : FKind) (sc : Scope) : State :=
  let d := drainStores s
  let d := if k = .acq then d else releaseAt d sc
  if k = .rel then d else acquireAt d sc

theorem fence_lands {s : State} (hs : Idle s) (k : FKind) (sc : Scope) : Lands (.fence k sc) s (fenced s k sc) (fenced s k sc).g := by
  have hcalm : Calm s (fenced s k sc) := by
    have hrel : Calm s (if k = .acq then drainStores s else releaseAt (drainStores s) sc) := by
      split
      · exact calm_drainStores s
      · exact (calm_drainStores s).trans (calm_releaseAt _ sc)
    unfold fenced
    dsimp only
    split
    · exact hrel
    · exact hrel.trans (calm_acquireAt _ sc)
  exact long_done [] [] rfl hs hcalm rfl

/-! ### Ranges (R296) -/

section ranges
variable {s : State} {a b : Opnd} {imm : BitVec 16} {n : Word} {v : Dword} (hn : uni s 1 a = .ok n) (hv : uniPair s 2 b = .ok v)
include hn hv

theorem rangeIssue_eq (i : Instr) (drop : Bool) :
    rangeIssue i a b imm drop s = issue i (match rangeFault s (v + imm.signExtend 64).toNat n.toNat with
      | some r => .error r
      | none => .ok (.of (cleanVirtual (drainStores s) (v + imm.signExtend 64).toNat n.toNat drop))) s := by
  have hlo : effAddr .g v 0 imm = (v + imm.signExtend 64).toNat := by simp [effAddr, wideSpace]
  unfold rangeIssue
  rw [hn, hv]
  show issue i (match rangeFault s (effAddr .g v 0 imm) n.toNat with | some r => _ | none => _) s = _
  rw [hlo]

theorem range_lands {i : Instr} {drop : Bool} (hx : exec i s = rangeIssue i a b imm drop s) (hl : isLong i = true) (hs : Idle s)
    (hf : rangeFault s (v + imm.signExtend 64).toNat n.toNat = none) :
    let st := cleanVirtual (drainStores s) (v + imm.signExtend 64).toNat n.toNat drop
    Lands i s st st.g := by
  refine long_done [] [] (hx.trans ?_) hs ((calm_drainStores s).trans (aside_cleanVirtual ..).calm) hl
  rw [rangeIssue_eq hn hv, hf]
  rfl

theorem range_faults {i : Instr} {drop : Bool} (hx : exec i s = rangeIssue i a b imm drop s) {r : Raise}
    (hf : rangeFault s (v + imm.signExtend 64).toNat n.toNat = some r) : Faults i s r :=
  issue_faults (hx.trans (by rw [rangeIssue_eq hn hv, hf]))

end ranges

/-! ### Fills and prefetches (R295) -/

theorem unwritten_fillLine (s : State) (va : Nat) : Unwritten s (fillLine s va) := by
  unfold fillLine
  split
  · split
    · exact .rfl' s
    · split
      · dsimp only
        split
        · exact .rfl' s
        · exact Unwritten.trans (by constructor <;> rfl) (unwritten_cross _ 256)
      · split
        · exact List.foldlRecOn _ _ (motive := Unwritten s) (.rfl' s) fun t ht k _ => ht.trans (unwritten_cacheBlock t _ _ _)
        · split
          · exact .rfl' s
          · exact ⟨rfl, rfl, rfl, rfl, rfl⟩
  · exact .rfl' s

/-- The lines of the active lanes' addresses filled. -/
def prefetched (s : State) (x : Opnd) (imm : BitVec 16) (v : Dword) : State :=
  (lanes32.filter (laneOn (execMask s))).foldl (fun t l =>
    if laneEa s .g v x imm l < 2 ^ 57 then fillLine t (laneEa s .g v x imm l) else t) s

theorem aside_prefetched (s : State) (x : Opnd) (imm : BitVec 16) (v : Dword) : Aside s (prefetched s x imm v) := by
  refine Aside.foldl _ (fun t l => ?_) _ s
  split
  · exact aside_fillLine t _
  · exact .rfl' t

section prefetch
variable {s : State} {b x : Opnd} {imm : BitVec 16} {o : Ordf} (hs : Idle s) (hon : execMask s ≠ 0)
include hs hon

theorem pfetch_lands {v : Dword} (hb : baseOf s .g b = .ok v) : Lands (.pfetch b x imm o) s (prefetched s x imm v) s.g := by
  have hx : exec (.pfetch b x imm o) s = issue (.pfetch b x imm o) (.ok (.of (prefetched s x imm v))) s := by
    show execPfetch .. = _
    rw [execPfetch, if_neg hon, hb]
    rfl
  have ha := aside_prefetched s x imm v
  generalize prefetched s x imm v = t at hx ha ⊢
  rw [← ha.g]
  exact long_done [] [] hx hs ha.calm rfl

theorem pfetch_lands_shapeless {r : Raise} (hb : baseOf s .g b = .error r) : Lands (.pfetch b x imm o) s s s.g := by
  have hx : exec (.pfetch b x imm o) s = issue (.pfetch b x imm o) (.ok (.of s)) s := by
    show execPfetch .. = _
    rw [execPfetch, if_neg hon, hb]
  exact long_done [] [] hx hs (.rfl' s) rfl

end prefetch

/-! ### Page walks (R101, R403) -/

/-- What a walk reads is counted for its device. -/
def countWalk (s : State) (n : Nat) (es : List (Nat × Nat)) : State :=
  onDevice s n fun d =>
    { d with meters := setAt d.meters 3 (natAt d.meters 3 + 8 * (es.filter fun e => decide (e.2 < Config.memBytes)).length) }

section pageWalk
variable {s : State} {n va : Nat} {dv : Device} (hd : deviceAt s n = some dv) (hva : va < 2 ^ 57)
include hd hva

theorem exec_pageWalk (bad : Option Nat) : exec (.pageWalk n { va := va, bad := bad }) s
    = maySome (match bad with
      | none => some (countWalk s n (walkEntries s va levels dv.root))
      | some lvl => ((walkEntries s va levels dv.root).find? fun e => e.1 == lvl).map fun e =>
          addPoison (countDie (countWalk s n (walkEntries s va levels dv.root)) (dieOfPa e.2) fun d =>
            { d with unc := satAdd d.unc 1 255 }) e.2) := by
  show execPageWalk .. = _
  unfold execPageWalk
  rw [hd]
  show maySome (if va ≥ 2 ^ 57 then none else _) = _
  rw [if_neg (by omega)]
  rfl

theorem pageWalk_poisons {e : Nat × Nat} (he : e ∈ walkEntries s va levels dv.root) :
    ∃ (t : State) (e' : Nat × Nat), exec (.pageWalk n { va := va, bad := some e.1 }) s = .next t ∧ e'.1 = e.1
      ∧ e' ∈ walkEntries s va levels dv.root ∧ mainPoison t e'.2 = true ∧ t.g = s.g := by
  obtain ⟨e', hfind⟩ := Option.isSome_iff_exists.mp
    (List.find?_isSome (p := fun f : Nat × Nat => f.1 == e.1).mpr ⟨e, he, beq_self_eq_true _⟩)
  have hx := exec_pageWalk hd hva (some e.1)
  simp only [hfind, Option.map_some] at hx
  exact ⟨_, e', hx, beq_iff_eq.mp (List.find?_some (p := fun f : Nat × Nat => f.1 == e.1) hfind),
    List.mem_of_find?_eq_some hfind, mainPoison_addPoison_self _ _, ((aside_countDie _ _ _).trans (aside_addPoison _ _)).g⟩

end pageWalk

/-- Settles O26: each instruction by the state it leaves, which issue and completion do not tell apart from the one before. -/
theorem fencesAndRanges : Obligations.FencesAndRanges := by
  intro s sc a b x imm o hs
  refine ⟨fence_lands hs .rel sc, fence_lands hs .acq sc, fence_lands hs .ar sc, fence_lands hs .sc sc, ?released,
    fun n v hn hv => ⟨fun hf => ⟨range_lands hn hv rfl rfl hs hf, range_lands hn hv rfl rfl hs hf⟩,
      fun r hf => ⟨range_faults hn hv rfl hf, range_faults hn hv rfl hf⟩⟩,
    fun v hon hb => pfetch_lands hs hon hb, fun va => ?fill, fun r hon hb => pfetch_lands_shapeless hs hon hb,
    fun n va dv hd hva => ⟨⟨_, exec_pageWalk hd hva none, rfl, rfl, rfl, rfl, rfl⟩, fun e he => pageWalk_poisons hd hva he⟩⟩
  case released =>
    rw [(aside_releaseAt (drainStores s) sc).g]
  case fill =>
    have ha := aside_fillLine s va
    have hu := unwritten_fillLine s va
    exact ⟨ha.g, ha.groups, hu.team, hu.teams, hu.mem, hu.poison, hu.peer, ha.ptes⟩

end Sys2Proof.Machine
end

section
/-!
PROOFS. O50 fails: an error of storage may strike the page-table entry that translates the line, and the line is then not
filled (CACHE_FILL reads the table again once the errors are met).
-/
namespace Sys2Proof.Machine

/-- A device whose table of levels 4 and 3 lies at address 0: the entry at 0 names the table itself, and the one at 8 maps
the readable page from 2^36 to address 0, so that the entries lie in the line they map. -/
def selfMapped : State :=
  { State.reset with vd := { Device.idle with alive := true, root := 0 }, mem := [(0, 1), (8, 18)] }

/-- Sector 0 of the line proves uncorrectable. -/
def firstSector : StoreErrs := { beats := [], fixed := [], soft := 0, bad := [0] }

theorem deviceOnly_selfMapped : deviceOnly selfMapped 0 = some selfMapped := rfl

theorem walk_selfMapped : walk selfMapped selfMapped.vd (2 ^ 36) = .leaf 0 false false false true := by decide +kernel

/-- The walk of the fill meets the sector that was struck. -/
theorem exec_cacheFill_selfMapped :
    ∃ t, exec (.cacheFill 0 { va := 2 ^ 36, errs := firstSector }) selfMapped = .next t ∧ t.lines = [] := by
  refine ⟨fillLine (strikeLine selfMapped 0 (2 ^ 36) false firstSector) (2 ^ 36), ?_, ?_⟩
  · show execCacheFill _ _ _ = _
    unfold execCacheFill
    rw [deviceOnly_selfMapped, Option.bind_some, walk_selfMapped]
    rfl
  · have hw : walk (strikeLine selfMapped 0 (2 ^ 36) false firstSector) (strikeLine selfMapped 0 (2 ^ 36) false firstSector).vd (2 ^ 36)
        = .poisoned 0 := by decide +kernel
    rw [fillLine, hw]
    decide +kernel

/-- Refutes O50: the line that the fill should bring in is not cached where the error that the fill meets has poisoned the
entry that translates it. -/
theorem not_cacheEvents : ¬ Obligations.CacheEvents := by
  rintro ⟨-, hfill, -⟩
  obtain ⟨hplain, -⟩ := hfill selfMapped selfMapped 0 (2 ^ 36) 0 false false firstSector deviceOnly_selfMapped walk_selfMapped
  obtain ⟨t, ht, -, -, -, -, hin, -⟩ := hplain rfl
  obtain ⟨u, hu, hlines⟩ := exec_cacheFill_selfMapped
  rw [hu] at ht
  cases ht
  rw [hlines] at hin
  cases hin

end Sys2Proof.Machine
end

section
/-!
PROOFS. O49: the events of jobs, each on the job that it names; what a job moves changes neither its handle nor its kind.
-/
namespace Sys2Proof.Machine

/-! ### What a job is stays while its bytes move -/

/-- The two are one job by its handle and its kind. -/
def Job.Same (j k : Job) : Prop := k.handle = j.handle ∧ k.kind = j.kind

theorem Job.Same.rfl' (j : Job) : j.Same j := ⟨rfl, rfl⟩

theorem Job.Same.trans {i j k : Job} (a : i.Same j) (b : j.Same k) : i.Same k := ⟨b.1.trans a.1, b.2.trans a.2⟩

theorem moveRow_same (s : State) (j : Job) (r off n : Nat) : j.Same (moveRow s j r off n).2 := by
  unfold moveRow
  dsimp only
  split
  · exact .rfl' j
  · split
    · exact ⟨rfl, rfl⟩
    · exact ⟨rfl, rfl⟩

theorem moveTo_same (s : State) (j : Job) (n : Nat) : j.Same (moveTo s j n).2 := by
  unfold moveTo
  extract_lets c q
  have hq : j.Same q.2 := by
    refine List.foldlRecOn _ _ (motive := fun q : State × Job => j.Same q.2) (.rfl' j) fun q hq r _ => ?_
    exact List.foldlRecOn _ _ (motive := fun q : State × Job => j.Same q.2) hq fun q hq p _ => hq.trans (moveRow_same ..)
  split
  · exact hq
  · exact hq

theorem moveAll_same (s : State) (j : Job) : j.Same (moveAll s j).2 := by
  unfold moveAll
  split
  · exact .rfl' j
  · exact moveTo_same s j _

theorem arriveBytes_same (s : State) (j : Job) (n : Nat) : j.Same (arriveBytes s j n).2 := by
  unfold arriveBytes
  split
  · exact .rfl' j
  · split
    · exact ⟨rfl, rfl⟩
    · exact ⟨rfl, rfl⟩
    · dsimp only
      split
      · exact ⟨rfl, rfl⟩
      · split
        · exact ⟨rfl, rfl⟩
        · exact ⟨rfl, rfl⟩

/-! ### A status word (R165) -/

theorem statusWord_done (fb gd : Bool) : (statusWord 1 fb gd false false 0).toNat / 2 ^ 30 = 1 := by
  cases fb <;> cases gd <;> rfl

theorem statusWord_failed (fb gd : Bool) {code : Nat} (h : code < 2 ^ 16) :
    (statusWord 3 fb gd false false code).toNat / 2 ^ 30 = 3 ∧ (statusWord 3 fb gd false false code).toNat % 2 ^ 16 = code := by
  have hfb := Bool.toNat_le fb
  have hgd := Bool.toNat_le gd
  have hw : (statusWord 3 fb gd false false code).toNat = 3 * 2 ^ 30 + fb.toNat * 2 ^ 28 + gd.toNat * 2 ^ 27 + code := by
    unfold statusWord w32
    rw [BitVec.toNat_ofNat, Nat.mod_eq_of_lt]
    · simp
    · simp
      omega
  rw [hw]
  omega

/-! ### A job ends (R136, R163, R165) -/

theorem mem_resolve_jobs {d : Device} {h : Dword} {w : Word} {x : Job} (hx : x ∈ (resolve d h w).jobs) : x.handle ≠ h := by
  obtain ⟨y, hy, rfl⟩ := List.mem_map.mp hx
  exact of_decide_eq_true (List.mem_filter.mp hy).2

/-- The job that ends, with its last bytes counted. -/
def endedJob (s : State) (j : Job) : Job :=
  (arriveBytes (releaseAt s (scopeOf (Card.scope ⟨j.card.toNat⟩))) j (j.moved - j.counted)).2

theorem arriveBytes_of_none {s : State} {j : Job} {n : Nat} (h : jobGauge s j = none) :
    (arriveBytes s j n).2 = if n = 0 then j else { j with counted := j.counted + n } := by
  unfold arriveBytes
  split
  · rfl
  · rw [h]

/-- An `mstore` has no gauge, so that its last count does not depend on what is in memory. -/
theorem endedJob_of_mstore {j : Job} {sub slot : Nat} {tile : Bool} (hk : j.kind = .mstore sub tile slot) (s t : State) (n : Nat) :
    (arriveBytes s j n).2 = (arriveBytes t j n).2 := by
  have hg (u : State) : jobGauge u j = none := by
    unfold jobGauge
    rw [hk]
  rw [arriveBytes_of_none (hg s), arriveBytes_of_none (hg t)]

/-- The status word of a job that ends. -/
def endWord (j : Job) (cancelled : Bool) : Word :=
  let state : Nat := if cancelled then 2 else if j.code = 0 then 1 else 3
  statusWord state j.fb j.gd false false (if state = 3 then j.code else 0)

/-- The handle resolves with the status of the job that ended. -/
theorem endJob_vd (s : State) (j : Job) (cancelled : Bool) :
    ∃ d, (endJob s j cancelled).vd = resolve d (endedJob s j).handle (endWord (endedJob s j) cancelled) := by
  cases hk : j.kind
  case mstore sub tile slot =>
    have he : endedJob s j = (arriveBytes s j (j.moved - j.counted)).2 := endedJob_of_mstore hk _ _ _
    rw [he]
    unfold endJob
    simp only [hk]
    exact ⟨_, rfl⟩
  all_goals
    unfold endJob
    simp only [hk]
    exact ⟨_, rfl⟩

theorem endWord_done {j : Job} (h : j.code = 0) : (endWord j false).toNat / 2 ^ 30 = 1 := by
  simp only [endWord, h]
  exact statusWord_done _ _

theorem endWord_failed {j : Job} (h : j.code ≠ 0) (hlt : j.code < 2 ^ 16) :
    (endWord j false).toNat / 2 ^ 30 = 3 ∧ (endWord j false).toNat % 2 ^ 16 = j.code := by
  simp only [endWord, h, if_false, if_true, Bool.false_eq_true]
  exact statusWord_failed _ _ hlt

theorem endJob_resolved (s : State) (j : Job) (cancelled : Bool) :
    ∀ x ∈ (endJob s j cancelled).vd.jobs, x.handle ≠ j.handle := by
  obtain ⟨d, hd⟩ := endJob_vd s j cancelled
  have hh : (endedJob s j).handle = j.handle := (arriveBytes_same ..).1
  intro x hx
  rw [hd, hh] at hx
  exact mem_resolve_jobs hx

theorem endJob_status (s : State) (j : Job) : ∃ w, (endJob s j false).vd.statuses.head? = some (j.handle, w)
    ∧ ((endedJob s j).code = 0 → w.toNat / 2 ^ 30 = 1)
    ∧ ((endedJob s j).code ≠ 0 → (endedJob s j).code < 2 ^ 16 →
      w.toNat / 2 ^ 30 = 3 ∧ w.toNat % 2 ^ 16 = (endedJob s j).code) := by
  obtain ⟨d, hd⟩ := endJob_vd s j false
  have hh : (endedJob s j).handle = j.handle := (arriveBytes_same ..).1
  rw [hd, hh]
  exact ⟨_, rfl, endWord_done, endWord_failed⟩

/-! ### The events -/

section events
variable {s u : State} {h : HRef} {j : Job} (hf : focusJob s h = some (u, j))
include hf

section start
variable (hst : j.started = false) (hp : j.preds = []) (hb : stillBehind u j = false) (bad : List Nat)
include hst hp hb

theorem exec_jobStart_of_mover (hk : j.kind ∈ [JobKind.cpy, .cpym, .fill, .rowcpy]) : exec (.jobStart { h := h, bad := bad }) s
    = .next (putJob (acquireAt (strikeJob u j bad) (scopeOf (Card.scope ⟨j.card.toNat⟩))) { j with started := true }) := by
  show execJobStart _ s = _
  unfold execJobStart
  rw [hf, Option.bind_some]
  simp only [hst, hp, hb]
  simp only [List.mem_cons, List.not_mem_nil, or_false] at hk
  rcases hk with hk | hk | hk | hk <;> rw [hk] <;> rfl

theorem exec_jobStart_of_mstore {sub slot : Nat} {tile : Bool} (hk : j.kind = .mstore sub tile slot) :
    let v := strikeJob u j bad
    let j' : Job := { j with started := true, t1 := cycle32 v j.core }
    let e := entryAt v.vd slot
    (mstoreOk e ⟨j.card.toNat⟩ = true →
      exec (.jobStart { h := h, bad := bad }) s = .next (putJob (storeTile v j' sub tile e).1 (storeTile v j' sub tile e).2))
    ∧ (mstoreOk e ⟨j.card.toNat⟩ = false →
      exec (.jobStart { h := h, bad := bad }) s = .next (putJob v { j' with code := 0x503 })) := by
  intro v j' e
  have hx : exec (.jobStart { h := h, bad := bad }) s = maySome (if mstoreOk e ⟨j.card.toNat⟩ then
      some (putJob (storeTile v j' sub tile e).1 (storeTile v j' sub tile e).2) else some (putJob v { j' with code := 0x503 })) := by
    show execJobStart _ s = _
    unfold execJobStart
    have hguard : (j.started || j.preds != [] || stillBehind u j) = false := by
      rw [hst, hp, hb]
      rfl
    rw [hf, Option.bind_some]
    simp only [hguard, Bool.false_eq_true, if_false]
    split
    · next he =>
      cases hk.symm.trans he
      rfl
    · next hne => exact absurd hk (hne _ _ _)
  exact ⟨fun hok => by rw [hx, if_pos hok]; rfl, fun hok => by rw [hx, hok]; rfl⟩

end start

section running
variable (hst : j.started = true)
include hst

theorem exec_gaugeArrival {n : Word} (hn : n ≠ 0) (hg : (jobGauge u j).isSome = true) (hle : j.counted + n.toNat ≤ j.total) :
    let r := if j.moved < j.counted + n.toNat then moveTo u j (wholeRows j (j.counted + n.toNat)) else (u, j)
    r.2.counted + n.toNat ≤ r.2.moved →
      exec (.gaugeArrival h n) s = .next (putJob (arriveBytes r.1 r.2 n.toNat).1 (arriveBytes r.1 r.2 n.toNat).2) := by
  intro r hr
  have hguard : (!j.started || n == 0 || (jobGauge u j).isNone || decide (j.counted + n.toNat > j.total)) = false := by
    have hnone : (jobGauge u j).isNone = false := by rw [← Option.not_isSome, hg]; rfl
    rw [hst, hnone, beq_false_of_ne hn, decide_eq_false (by omega)]
    rfl
  show execGaugeArrival h n s = _
  unfold execGaugeArrival
  rw [hf, Option.bind_some]
  simp only [hguard, Bool.false_eq_true, if_false]
  exact congrArg maySome (if_pos hr)

theorem exec_jobFinish_of_follower (hs : j.sent = true) (ho : followOn u j = false) :
    exec (.jobFinish h) s = .next (endJob u j false) := by
  show execJobFinish h s = _
  unfold execJobFinish
  rw [hf, Option.bind_some]
  simp [hst, hs, ho, maySome]

section unsent
variable (hs : j.sent = false)
include hs

theorem exec_jobFinish (hc : j.cancel = false) (hk : j.kind ≠ .cpym) :
    exec (.jobFinish h) s = .next (endJob (moveAll u j).1 (moveAll u j).2 false) := by
  have hfollow : follows (moveAll u j).1 (moveAll u j).2 = false := by
    unfold follows
    rw [(moveAll_same u j).2, beq_false_of_ne hk, Bool.false_and]
  show execJobFinish h s = _
  unfold execJobFinish
  rw [hf, Option.bind_some]
  simp only [hst, hs, hc, hfollow]
  rfl

theorem exec_jobCancelStop_of_mstore (hc : j.cancel = true) {sub slot : Nat} {tile : Bool} (hk : j.kind = .mstore sub tile slot)
    (n : Nat) : exec (.jobCancelStop h n) s = .next (endJob u j true) := by
  show execJobCancelStop h n s = _
  unfold execJobCancelStop
  rw [hf, Option.bind_some]
  simp only [hst, hs, hc]
  rw [hk]
  rfl

theorem exec_jobCancelStop_of_mover (hc : j.cancel = true) {n : Nat} (hlo : j.moved ≤ n) (hhi : n ≤ j.total) (hn : n % 256 = 0)
    (hk : j.kind ∈ [JobKind.cpy, .cpym, .fill, .rowcpy]) :
    exec (.jobCancelStop h n) s = .next (endJob (moveTo u j n).1 (moveTo u j n).2 true) := by
  show execJobCancelStop h n s = _
  unfold execJobCancelStop
  rw [hf, Option.bind_some]
  have hunit : j.moved ≤ n ∧ n ≤ j.total ∧ (n % 256 = 0 ∨ n = j.total ∨ n = j.moved) := ⟨hlo, hhi, .inl hn⟩
  simp only [hst, hs, hc, if_pos hunit]
  simp only [List.mem_cons, List.not_mem_nil, or_false] at hk
  rcases hk with hk | hk | hk | hk <;> rw [hk] <;> rfl

/-- The command of a follow-on: queued, or refused for want of a quad or for a rule of commands. -/
theorem exec_followOnSend (hc : j.cancel = false) (hres : u.team.resident = true) (hseq : sequencersFull u j.place [0, 1, 2, 3] = false)
    (hfol : follows (moveAll u j).1 (moveAll u j).2 = true) :
    let v := (moveAll u j).1
    let j' := (moveAll u j).2
    let p := followPass v j'
    exec (.followOnSend h) s = .next (
      if (quadOf v v.team.ref (natAt v.team.cores j'.place) p.role p.quad).isNone then endJob v { j' with code := 0x502 } false
      else if !followOk v p then endJob v { j' with code := 0x503 } false
      else queuePass (putJob v { j' with sent := true }) j'.place p) := by
  intro v j' p
  show execFollowOnSend h s = _
  unfold execFollowOnSend
  rw [hf, Option.bind_some]
  simp only [hst, hs, hc, hres, hseq, hfol]
  show maySome (if _ then some _ else if _ then some _ else some _) = _
  split
  · rfl
  · split <;> rfl

end unsent
end running
end events

theorem followOk_of_rules {s : State} {p : Pass} (hz : cmdBits p.m1 0 4 = 0) (hg : p.gathered = true ∨ cmdBits p.m2 0 19 = 0)
    (hp : passOk s p = true)
    (hb : p.breg + 16 ≤ (s.team.kernel.roles.getD p.role { groups := 0, vregs := 0, sregs := 0 }).vregs) : followOk s p = true := by
  have hgather : (p.gathered || cmdBits p.m2 0 19 == 0) = true := by
    rw [Bool.or_eq_true, beq_iff_eq]
    exact hg
  unfold followOk
  dsimp only
  rw [hz, hgather, decide_eq_true hb, hp]
  rfl

/-- Settles O49: each event on the job it names; the status is that of the job once its last bytes are counted. -/
theorem jobEvents : Obligations.JobEvents := by
  intro s u h j hf
  refine ⟨fun hst hp hb bad => ⟨exec_jobStart_of_mover hf hst hp hb bad,
      fun sub tile slot hk => exec_jobStart_of_mstore hf hst hp hb bad hk⟩,
    fun hst hc hs hk => ⟨_, exec_jobFinish hf hst hs hc hk, rfl, endJob_resolved _ _ false, endJob_status _ _⟩,
    fun hst hs ho => exec_jobFinish_of_follower hf hst hs ho,
    fun hst hc hs n hlo hhi hn hk => exec_jobCancelStop_of_mover hf hst hs hc hlo hhi hn hk,
    fun sub tile slot n hk hst hc hs => exec_jobCancelStop_of_mstore hf hst hs hc hk n,
    fun n hst hn hg hle => exec_gaugeArrival hf hst hn hg hle, fun hst hs hc hres hseq hfol => ?follow⟩
  have hx := exec_followOnSend hf hst hs hc hres hseq hfol
  refine ⟨fun hq hz hg hp hb => ⟨_, ?queued, rfl⟩, fun hq => ?noQuad, fun hq ho => ?refused⟩
  case queued =>
    rw [hx, if_neg (by rw [← Option.not_isSome, hq]; decide), if_neg (by rw [followOk_of_rules hz hg hp hb]; decide)]
  case noQuad =>
    rw [hx, if_pos (by rw [hq]; rfl)]
  case refused =>
    rw [hx, if_neg (by rw [← Option.not_isSome, hq]; decide), if_pos (by rw [ho]; rfl)]

end Sys2Proof.Machine
end

section
/-!
PROOFS. O52, first part: refresh and scrub, spans, the accesses of peers and the ports.
-/
namespace Sys2Proof.Machine

/-! ### Poison that stays while other sectors are poisoned (R393) -/

theorem mainPoison_clearSpan {s : State} {a : Nat} (h : mainPoison s a = true) (n : Nat) : mainPoison (clearSpan s n) a = true := by
  unfold mainPoison at h ⊢
  rw [Bool.and_eq_true, List.contains_iff_mem, Bool.not_eq_true'] at h
  obtain ⟨hin, hspan⟩ := h
  rw [marked_clearSpan, hspan, Bool.false_and, Bool.not_false, Bool.and_true, List.contains_iff_mem]
  unfold clearSpan
  split
  · next hn =>
    refine List.mem_filter.mpr ⟨hin, ?_⟩
    have hne : a / 32768 ≠ n := by
      rintro rfl
      rw [hn] at hspan
      cases hspan
    exact bne_iff_ne.mpr (by omega)
  · exact hin

theorem mainPoison_addPoison {s : State} {a : Nat} (h : mainPoison s a = true) (pa : Nat) : mainPoison (addPoison s pa) a = true := by
  have hc := mainPoison_clearSpan h (pa / 32768)
  unfold mainPoison at hc ⊢
  rw [Bool.and_eq_true, List.contains_iff_mem] at hc
  rw [Bool.and_eq_true, List.contains_iff_mem]
  exact ⟨mem_sadd.mpr (.inr hc.1), hc.2⟩

/-- Sectors of main memory that prove uncorrectable are poisoned. -/
def poisonSectors (s : State) (ks : List Nat) : State := ks.foldl (fun s k => addPoison s (32 * k)) s

theorem mainPoison_poisonSectors {s : State} {ks : List Nat} {k : Nat} (hk : k ∈ ks) :
    mainPoison (poisonSectors s ks) (32 * k) = true := by
  have hkeep (ks : List Nat) (t : State) (h : mainPoison t (32 * k) = true) : mainPoison (poisonSectors t ks) (32 * k) = true :=
    List.foldlRecOn ks _ (motive := fun t : State => mainPoison t (32 * k) = true) h fun t ht n _ => mainPoison_addPoison ht (32 * n)
  obtain ⟨pre, post, rfl⟩ := List.append_of_mem hk
  unfold poisonSectors
  rw [List.foldl_append, List.foldl_cons]
  exact hkeep post _ (mainPoison_addPoison_self _ _)

theorem poisonSectors_frame (s : State) (ks : List Nat) :
    ∃ m p k, poisonSectors s ks = { s with mem := m, poison := p, marked := k } := by
  refine List.foldlRecOn ks _ (motive := fun t : State => ∃ m p k, t = { s with mem := m, poison := p, marked := k })
    ⟨s.mem, s.poison, s.marked, rfl⟩ ?_
  rintro _ ⟨m, p, k, rfl⟩ n -
  obtain ⟨m', p', k', h⟩ := clearSpan_frame { s with mem := m, poison := p, marked := k } (32 * n / 32768)
  exact ⟨m', _, k', by rw [addPoison, h]⟩

/-! ### Refresh and scrub (R116, R117, R399) -/

theorem isRow_iff {stack bank row : Nat} : isRow stack bank row = true ↔ stack < 8 ∧ bank < 32 ∧ row < 65536 := by
  unfold isRow
  rw [Bool.and_eq_true, Bool.and_eq_true, decide_eq_true_iff, decide_eq_true_iff, decide_eq_true_iff, and_assoc]
  exact Iff.rfl

/-- A row with its class shortened where an error of it has been corrected. -/
def scrubClass (s : State) (k : Nat) (corrected : List Nat) : State := if corrected = [] then s else demoteRow s k

/-- A scrubbed row: its class, what its die counts, and its uncorrectable sectors. -/
def scrubbed (s : State) (stack bank row : Nat) (corrected uncorrectable : List Nat) : State :=
  poisonSectors (countDie (scrubClass s (rowKey stack bank row) corrected) (stack / 2) fun d =>
    { d with memc := satAdd d.memc corrected.length 0xffff, unc := satAdd d.unc uncorrectable.length 255 }) uncorrectable

section rows
variable {s : State} {stack bank row : Nat}

theorem exec_refresh (hr : isRow stack bank row = true) :
    exec (.refresh stack bank row) s = .next { s with refreshing := mins s.refreshing (32 * stack + bank) row } := if_pos hr

theorem exec_refreshRetry (h : (mget? s.refreshing (32 * stack + bank)).isSome = true) :
    exec (.refreshRetry stack bank) s = .next { s with refreshing := mdel s.refreshing (32 * stack + bank) } := if_pos h

theorem exec_scrubRow (hr : isRow stack bank row = true) {corrected uncorrectable : List Nat}
    (hin : ∀ k ∈ corrected ++ uncorrectable, sectorInRow stack bank row k = true) :
    exec (.scrubRow stack bank row corrected uncorrectable) s = .next (scrubbed s stack bank row corrected uncorrectable) :=
  if_pos (by rw [hr, List.all_eq_true.mpr hin]; rfl)

theorem no_such_row (hr : ¬ isRow stack bank row = true) (xs ys : List Nat) :
    exec (.refresh stack bank row) s = .fault .noSuchPlace ∧ exec (.scrubRow stack bank row xs ys) s = .fault .noSuchPlace :=
  ⟨if_neg hr, if_neg fun h => hr (Bool.and_eq_true .. ▸ h).1⟩

theorem scrubClass_dies (k : Nat) (corrected : List Nat) : (scrubClass s k corrected).dies = s.dies := by
  unfold scrubClass
  split <;> rfl

theorem scrubbed_dies (hm : mrising s.dies = true) (corrected uncorrectable : List Nat) :
    mget Die.fresh (scrubbed s stack bank row corrected uncorrectable).dies (stack / 2)
      = { mget Die.fresh s.dies (stack / 2) with
          memc := min ((mget Die.fresh s.dies (stack / 2)).memc + corrected.length) 0xffff
          unc := min ((mget Die.fresh s.dies (stack / 2)).unc + uncorrectable.length) 255 } := by
  unfold scrubbed
  obtain ⟨m, p, k, h⟩ := poisonSectors_frame (countDie (scrubClass s (rowKey stack bank row) corrected) (stack / 2) fun d =>
    { d with memc := satAdd d.memc corrected.length 0xffff, unc := satAdd d.unc uncorrectable.length 255 }) uncorrectable
  rw [h]
  show mget Die.fresh (mset Die.fresh (scrubClass s (rowKey stack bank row) corrected).dies (stack / 2) _) (stack / 2) = _
  rw [scrubClass_dies, mget_mset _ hm, if_pos rfl]
  rfl

theorem scrubbed_classes (corrected uncorrectable : List Nat) :
    (scrubbed s stack bank row corrected uncorrectable).classes = (scrubClass s (rowKey stack bank row) corrected).classes
      ∧ (scrubbed s stack bank row corrected uncorrectable).reports = (scrubClass s (rowKey stack bank row) corrected).reports := by
  unfold scrubbed
  obtain ⟨m, p, k, h⟩ := poisonSectors_frame (countDie (scrubClass s (rowKey stack bank row) corrected) (stack / 2) fun d =>
    { d with memc := satAdd d.memc corrected.length 0xffff, unc := satAdd d.unc uncorrectable.length 255 }) uncorrectable
  rw [h]
  exact ⟨rfl, rfl⟩

/-- The class that a corrected row takes, and the report of one that has the shortest already (R399). -/
theorem demoteRow_class (k : Nat) : classAt (demoteRow s k) k = (if classAt s k ≤ 32 then 32 else classAt s k / 2)
    ∧ (classAt s k ≤ 32 → k ∈ (demoteRow s k).reports) ∧ (32 < classAt s k → (demoteRow s k).reports = s.reports) := by
  refine ⟨?_, fun h => ?_, fun h => if_neg (by omega)⟩
  · show (mget? (mins s.classes k (demote (classAt s k))) k).getD _ = _
    rw [mget?_mins_same]
    rfl
  · show k ∈ (if classAt s k ≤ 32 then sadd s.reports k else s.reports)
    rw [if_pos h]
    exact mem_sadd.mpr (.inl rfl)

end rows

/-- What a scrub of a row leaves (R392, R393, R399). -/
theorem scrubRow_spec {s : State} {stack bank row : Nat} {corrected uncorrectable : List Nat} (hr : isRow stack bank row = true)
    (hin : ∀ k ∈ corrected ++ uncorrectable, sectorInRow stack bank row k = true) (hm : mrising s.dies = true) : ∃ t,
    exec (.scrubRow stack bank row corrected uncorrectable) s = .next t
    ∧ (∀ k ∈ uncorrectable, mainPoison t (32 * k) = true)
    ∧ (mget Die.fresh t.dies (stack / 2)).memc = min ((mget Die.fresh s.dies (stack / 2)).memc + corrected.length) 0xffff
    ∧ (mget Die.fresh t.dies (stack / 2)).unc = min ((mget Die.fresh s.dies (stack / 2)).unc + uncorrectable.length) 255
    ∧ (let k := rowKey stack bank row
       (corrected = [] → t.classes = s.classes ∧ t.reports = s.reports)
       ∧ (corrected ≠ [] → classAt t k = (if classAt s k ≤ 32 then 32 else classAt s k / 2)
         ∧ (classAt s k ≤ 32 → k ∈ t.reports) ∧ (32 < classAt s k → t.reports = s.reports))) := by
  refine ⟨_, exec_scrubRow hr hin, fun k hk => mainPoison_poisonSectors hk, by rw [scrubbed_dies hm], by rw [scrubbed_dies hm], ?_⟩
  obtain ⟨hc, hrep⟩ := scrubbed_classes (s := s) (stack := stack) (bank := bank) (row := row) corrected uncorrectable
  refine ⟨fun h => ?_, fun h => ?_⟩
  · rw [hc, hrep, scrubClass, if_pos h]
    exact ⟨rfl, rfl⟩
  · rw [scrubClass, if_neg h] at hc hrep
    have hclass : classAt (scrubbed s stack bank row corrected uncorrectable) (rowKey stack bank row)
        = classAt (demoteRow s (rowKey stack bank row)) (rowKey stack bank row) := by
      unfold classAt
      rw [hc]
    rw [hclass, hrep]
    exact demoteRow_class _

/-! ### Spans (R104) -/

theorem mainByte_of_marked {s : State} {a : Nat} (h : inRanges s.marked (a / 32768) = true) : mainByte s a = 0 := if_pos h

theorem mainPoison_clearSpan_inside {s : State} {n a : Nat} (hm : inRanges s.marked n = true) (ha : a / 32768 = n) :
    mainPoison (clearSpan s n) a = false := by
  unfold mainPoison clearSpan
  rw [if_pos hm, Bool.and_eq_false_iff]
  left
  rw [Bool.eq_false_iff, Ne, List.contains_iff_mem]
  intro hin
  have hne := bne_iff_ne.mp (List.mem_filter.mp hin).2
  omega

theorem spanInitialise_spec {s : State} {span : Nat} (hm : inRanges s.marked span = true) (hlt : span < 16777216) : ∃ t,
    exec (.spanInitialise span) s = .next t
    ∧ (∀ a, a / 32768 = span → mainByte t a = 0 ∧ mainPoison t a = false)
    ∧ (∀ a, a / 32768 ≠ span → mainByte t a = mainByte s a)
    ∧ inRanges t.marked span = false := by
  have hin : 32768 * span < Config.memBytes := by
    show 32768 * span < 2 ^ 39
    omega
  have hx : exec (.spanInitialise span) s = .next (clearSpan s span) := (if_pos hin).trans (if_pos hm)
  refine ⟨_, hx, fun a ha => ⟨?_, mainPoison_clearSpan_inside hm ha⟩, fun a _ => mainByte_clearSpan s span a, ?_⟩
  · rw [mainByte_clearSpan]
    exact mainByte_of_marked (ha ▸ hm)
  · rw [marked_clearSpan, decide_eq_false (not_not_intro rfl), Bool.and_false]

theorem no_such_span {s : State} {span : Nat} (h : 16777216 ≤ span) : exec (.spanInitialise span) s = .fault .noSuchPlace :=
  if_neg (show ¬ 32768 * span < 2 ^ 39 by omega)

/-! ### Accesses of peers (R340, R443) -/

theorem linked_of_linkUp {s : State} (h : linkUp s = true) : linked s = true := by
  obtain ⟨n, hn, hup⟩ := List.any_eq_true.mp h
  refine List.any_eq_true.mpr ⟨n, hn, ?_⟩
  rw [eq_of_beq hup]
  rfl

theorem reply_replies (s : State) (bs : List (Byte × Bool)) (error : Bool) (h : linked s = true) :
    ∃ r, (reply s error bs).replies = s.replies ++ [r] ∧ r.error = error ∧ r.data = bs.map (·.1) := ⟨_, if_pos h, rfl, rfl⟩

theorem reply_of_unlinked {s : State} (h : linked s = false) (bs : List (Byte × Bool)) (error : Bool) : reply s error bs = s := by
  unfold reply
  rw [h]
  rfl

theorem focusDevice_frame {s u : State} {n : Nat} (h : focusDevice s n = some u) :
    u.mem = s.mem ∧ u.peer = s.peer ∧ u.ports = s.ports ∧ u.replies = s.replies := by
  unfold focusDevice at h
  split at h
  · rw [← Option.some.inj h]
    exact ⟨rfl, rfl, rfl, rfl⟩
  · obtain ⟨r, -, rfl⟩ := Option.map_eq_some_iff.mp h
    exact ⟨rfl, rfl, rfl, rfl⟩

theorem deviceOnly_frame {s u : State} {n : Nat} (h : deviceOnly s n = some u) :
    u.mem = s.mem ∧ u.peer = s.peer ∧ u.ports = s.ports ∧ u.replies = s.replies := focusDevice_frame (s := stash s) h

section peers
variable {s : State} {pa len : Nat}

theorem exec_peerAccess_unlinked (op : PeerOp) (h : linkUp s = false) : exec (.peerAccess pa len op) s = .refused .notEnabled :=
  if_pos (by rw [h]; rfl)

section up
variable {op : PeerOp} (hup : linkUp s = true) (hok : peerOpOk pa len op = true)
include hup hok

theorem exec_peerAccess : exec (.peerAccess pa len op) s = match ownerOf s pa with
    | none => .next (reply s true [])
    | some d =>
        if pa + len > d.memPa + d.gib * 2 ^ 30 then .next (reply s true [])
        else maySome ((deviceOnly s d.number).map fun s => servePeer s pa len op) :=
  if_neg (by rw [hup, hok]; decide)

theorem exec_peerAccess_unowned (ho : ownerOf s pa = none) : exec (.peerAccess pa len op) s = .next (reply s true []) := by
  rw [exec_peerAccess hup hok, ho]

variable {d : Device} (ho : ownerOf s pa = some d)
include ho

theorem exec_peerAccess_past (h : d.memPa + d.gib * 2 ^ 30 < pa + len) : exec (.peerAccess pa len op) s = .next (reply s true []) := by
  rw [exec_peerAccess hup hok, ho]
  exact if_pos h

theorem exec_peerAccess_served {u : State} (hu : deviceOnly s d.number = some u) (h : pa + len ≤ d.memPa + d.gib * 2 ^ 30) :
    exec (.peerAccess pa len op) s = .next (servePeer u pa len op) := by
  rw [exec_peerAccess hup hok, ho]
  show (if _ then _ else maySome _) = _
  rw [if_neg (by omega), hu]
  rfl

end up
end peers

/-- The places of the bytes of a peer's access. -/
def peerPlaces (u : State) (pa len : Nat) : List Loc := (List.range len).map fun i => peerPlace u (pa + i)

theorem servePeer_load {s u : State} (hup : linkUp s = true) {n : Nat} (hu : deviceOnly s n = some u) (pa len : Nat) :
    (servePeer u pa len .load).mem = s.mem ∧ ∃ r, (servePeer u pa len .load).replies = s.replies ++ [r] ∧ r.error = false
      ∧ r.data = (peerPlaces u pa len).map fun l => (locByte u l).1 := by
  obtain ⟨hmem, -, hports, hreplies⟩ := deviceOnly_frame hu
  let ls := peerPlaces u pa len
  let c := countReads (meter u 6 len) (ls.map fun l => (l, 1))
  have ha : Aside u c := (aside_meter ..).trans (aside_countReads ..)
  have hw : Unwritten u c := (unwritten_meter ..).trans (unwritten_countReads ..)
  have hlinked : linked c = true := by
    have hl : linked c = linked s := by
      unfold linked
      rw [ha.ports, hports]
    rw [hl]
    exact linked_of_linkUp hup
  obtain ⟨r, hr, herr, hdata⟩ := reply_replies c (ls.map (locByte (meter u 6 len))) false hlinked
  refine ⟨hw.mem.trans hmem, r, hr.trans (by rw [ha.replies, hreplies]), herr, hdata.trans ?_⟩
  rw [List.map_map]
  rfl

/-! ### What crosses the fabric (R353, R440) -/

theorem cross_of_up {s : State} (h : linkUp s = true) (n : Nat) : cross s n = meter s 6 n := if_pos h

theorem cross_of_down {s : State} (h : linkUp s = false) (n : Nat) : cross s n = { meter s 6 n with stalled := true } :=
  if_neg (by rw [h]; decide)

/-! ### Ports (R340, R440) -/

theorem portAt_putPort {s : State} (hm : mrising s.ports = true) (n : Nat) (p : Port) (k : Nat) :
    portAt (putPort s n p) k = if k = n then p else portAt s k := mget_mset _ hm n p k

theorem linked_iff (s : State) : linked s = true ↔ ∃ k < Config.aditPorts, (portAt s k).mode ≠ .down := by
  unfold linked portAt
  simp

section ports
variable {s : State} {n : Nat} (hn : n < Config.aditPorts)
include hn

theorem exec_flitReplay {flit : List Byte} (hf : flitOk flit = false) (hu : (portAt s n).mode = .up) (hr : (portAt s n).replays < 8) :
    exec (.flitReplay { port := n, flit := flit }) s = .next (putPort s n { portAt s n with
      replays := if Config.freePick s.draw n 0 then (portAt s n).replays + 1 else 1 }) := by
  show (if isPort n then _ else _) = _
  rw [isPort, if_pos (decide_eq_true hn)]
  exact if_pos (by rw [hf, hu, decide_eq_true hr]; rfl)

theorem exec_portRetrain (hu : (portAt s n).mode = .up) (hr : 8 ≤ (portAt s n).replays) :
    exec (.portRetrain n) s = .next (putPort s n { mode := .retraining, replays := 0 }) := by
  show (if isPort n then _ else _) = _
  rw [isPort, if_pos (decide_eq_true hn)]
  exact if_pos (by rw [hu, decide_eq_true hr]; rfl)

theorem exec_portRetrainingEnd (hu : (portAt s n).mode = .retraining) (ok : Bool) :
    exec (.portRetrainingEnd n ok) s = .next (if ok then putPort s n .fresh
      else moduleEvent (putPort s n { mode := .down, replays := 0 }) 2 n) := by
  show (if isPort n then _ else _) = _
  rw [isPort, if_pos (decide_eq_true hn)]
  exact if_pos (by rw [hu]; rfl)

end ports

theorem no_such_port {s : State} {n : Nat} (h : Config.aditPorts ≤ n) (flit : List Byte) (ok : Bool) :
    exec (.flitReplay { port := n, flit := flit }) s = .fault .noSuchPlace
      ∧ exec (.portRetrain n) s = .fault .noSuchPlace ∧ exec (.portRetrainingEnd n ok) s = .fault .noSuchPlace := by
  have hp : ¬ isPort n = true := by simpa [isPort] using h
  exact ⟨if_neg hp, if_neg hp, if_neg hp⟩

theorem send_of_unlinked {s : State} (h : linked s = false) (tag : Word) (cmd : Byte) (vd : Nat) (p : List Byte) :
    send s tag cmd vd p = s := by
  unfold send
  rw [h]
  rfl

/-- A port that goes down is reported where another is not down. -/
theorem moduleEvent_outbox {s : State} (hm : mrising s.ports = true) {n : Nat}
    (h : ∃ k < Config.aditPorts, k ≠ n ∧ (portAt s k).mode ≠ .down) :
    (moduleEvent (putPort s n { mode := .down, replays := 0 }) 2 n).outbox = (send s 0 0xe3 0 (leBytes 4 2 ++ leBytes 4 n)).outbox := by
  obtain ⟨k, hk, hne, hup⟩ := h
  have hs : linked s = true := (linked_iff s).mpr ⟨k, hk, hup⟩
  have ht : linked (putPort s n { mode := .down, replays := 0 }) = true :=
    (linked_iff _).mpr ⟨k, hk, by rwa [portAt_putPort hm, if_neg hne]⟩
  unfold moduleEvent send
  rw [hs, ht]
  rfl

end Sys2Proof.Machine
end

section
/-!
PROOFS. O52, second part: a peer module that does not answer (R440).
-/
namespace Sys2Proof.Machine

/-! ### A record leaves the lines of peer modules as they are -/

theorem storeBytesAt_frame (s : State) (pa : Nat) (bs : List Byte) :
    ∃ m p k l, storeBytesAt s pa bs = { s with mem := m, poison := p, marked := k, lines := l } := by
  obtain ⟨m, p, k, h⟩ := putMains_frame s ((List.range bs.length).map fun i => (pa + i, bs.getD i 0))
  exact ⟨m, p, k, _, by rw [storeBytesAt, putCached, h]⟩

theorem writeRing_frame (s : State) (part off size slots i : Nat) (bs : List Byte) :
    ∃ m p k l, writeRing s part off size slots i bs = { s with mem := m, poison := p, marked := k, lines := l } := by
  unfold writeRing
  extract_lets pa t
  obtain ⟨m, p, k, l, ht⟩ := storeBytesAt_frame s (pa + off + size * (i % slots)) bs
  obtain ⟨m', p', k', l', h⟩ := storeBytesAt_frame t pa (leBytes 8 (i + 1))
  have he : t = { s with mem := m, poison := p, marked := k, lines := l } := ht
  rw [h, he]
  exact ⟨m', p', k', l', rfl⟩

theorem writeRing_keeps (s : State) (part off size slots i : Nat) (bs : List Byte) :
    (writeRing s part off size slots i bs).vd = s.vd ∧ (writeRing s part off size slots i bs).peerLines = s.peerLines
      ∧ (writeRing s part off size slots i bs).peer = s.peer := by
  obtain ⟨m, p, k, l, h⟩ := writeRing_frame s part off size slots i bs
  rw [h]
  exact ⟨rfl, rfl, rfl⟩

theorem sendFor_keeps (s : State) (tag : Word) (cmd : Byte) (p : List Byte) :
    (sendFor s tag cmd p).vd.logged = s.vd.logged ∧ (sendFor s tag cmd p).peerLines = s.peerLines
      ∧ (sendFor s tag cmd p).peer = s.peer := ⟨rfl, rfl, rfl⟩

/-- One record more is logged, and the lines and bytes of peer modules are as before. -/
def LogsOne (s t : State) : Prop := t.vd.logged = s.vd.logged + 1 ∧ t.peerLines = s.peerLines ∧ t.peer = s.peer

theorem writeLog_logsOne (s : State) (cyc pc addr cause mask act core gid x y z : Nat) :
    LogsOne s (writeLog s cyc pc addr cause mask act core gid x y z) := by
  unfold writeLog
  extract_lets i bs d r
  clear_value bs
  obtain ⟨hv, hl, hp⟩ : r.vd = { d with logged := i + 1 } ∧ r.peerLines = s.peerLines ∧ r.peer = s.peer :=
    writeRing_keeps { s with vd := { d with logged := i + 1 } } logPart 4096 64 1024 i bs
  clear_value r
  obtain ⟨sv, sl, sp⟩ := sendFor_keeps r 0 0xe0 bs
  exact ⟨sv.trans (congrArg Device.logged hv), sl.trans hl, sp.trans hp⟩

/-! ### Reads and writes that meet no answer -/

/-- The die whose read meets no answer. -/
def missDie (u : State) : Nat := Config.freeNat u.draw 0 % 4

theorem mem_missedLine (u : State) (pa va : Nat) (sectors : List Nat) {k : Nat} (hk : k < 8) :
    k ∈ (missedLine u pa va sectors).poison ↔ k ∈ sectors ∨ pa / 256 * 8 + k ∈ u.peerPoison := by
  unfold missedLine peerLine
  rw [mem_foldl_sadd]
  simp [hk]

section
variable {s u : State} {n va pa : Nat} {x w r : Bool} (hu : deviceOnly s n = some u) (hw : walk u u.vd va = .leaf pa true x w r)
include hu hw

theorem exec_peerUnreachable (how : PeerMiss) : exec (.peerUnreachable n va how) s = maySome (match how with
    | .write =>
        match (peerKeys u pa).filter fun k => (mget? u.peerLines k).any (·.dirty) with
        | [] => none
        | ks =>
            let v : State := { u with peerLines := mdel u.peerLines (somePeerKey u ks) }
            some (writeLog v (cycleOf v 0) 0 (va % 2 ^ 57) 0x406 0 0 0 0 0 0 0)
    | .read sectors =>
        let k := lineKey (missDie u) pa
        if (mget? u.peerLines k).isSome then none
        else some { u with peerLines := mins u.peerLines k (missedLine u pa va sectors) }) := by
  show execPeerUnreachable n va how s = _
  unfold execPeerUnreachable
  rw [hu, Option.bind_some, hw]
  rfl

theorem peerUnreachable_write (hd : ∃ k ∈ peerKeys u pa, ∃ b, mget? u.peerLines k = some b ∧ b.dirty = true) :
    ∃ t, ∃ k ∈ peerKeys u pa, exec (.peerUnreachable n va .write) s = .next t ∧ t.vd.logged = u.vd.logged + 1
      ∧ t.peerLines = mdel u.peerLines k ∧ t.peer = s.peer := by
  obtain ⟨k, hk, b, hb, hdirty⟩ := hd
  have hx := exec_peerUnreachable hu hw .write
  dsimp only at hx
  generalize hks : (peerKeys u pa).filter (fun k => (mget? u.peerLines k).any (·.dirty)) = ks at hx
  have hmem : k ∈ ks := hks ▸ List.mem_filter.mpr ⟨hk, by rw [hb]; exact hdirty⟩
  have hpos : 0 < ks.length := List.length_pos_of_mem hmem
  have hsome : somePeerKey u ks ∈ ks := by
    unfold somePeerKey
    rw [List.getD_eq_getElem _ _ (Nat.mod_lt _ hpos)]
    exact List.getElem_mem _
  have hin : somePeerKey u ks ∈ peerKeys u pa := by
    rw [← hks] at hsome
    rw [← hks]
    exact (List.mem_filter.mp hsome).1
  obtain ⟨hlog, hlines, hpeer⟩ := writeLog_logsOne { u with peerLines := mdel u.peerLines (somePeerKey u ks) }
    (cycleOf { u with peerLines := mdel u.peerLines (somePeerKey u ks) } 0) 0 (va % 2 ^ 57) 0x406 0 0 0 0 0 0 0
  cases ks with
  | nil => exact absurd hmem (List.not_mem_nil)
  | cons e ks => exact ⟨_, _, hin, hx, hlog, hlines, hpeer.trans (deviceOnly_frame hu).2.1⟩

theorem peerUnreachable_read {sectors : List Nat} (hn : mget? u.peerLines (lineKey (missDie u) pa) = none) : ∃ t,
    exec (.peerUnreachable n va (.read sectors)) s = .next t ∧ t.mem = s.mem ∧ t.peer = s.peer
      ∧ ∃ b, mget? t.peerLines (lineKey (missDie u) pa) = some b ∧ b.dirty = false
        ∧ ∀ k < 8, k ∈ b.poison ↔ k ∈ sectors ∨ pa / 256 * 8 + k ∈ u.peerPoison := by
  obtain ⟨hmem, hpeer, -⟩ := deviceOnly_frame hu
  have hx := exec_peerUnreachable hu hw (.read sectors)
  have hnot : ¬ (mget? u.peerLines (lineKey (missDie u) pa)).isSome = true := by
    rw [hn]
    decide
  dsimp only at hx
  rw [if_neg hnot] at hx
  exact ⟨_, hx, hmem, hpeer, _, mget?_mins_same _ _ _, rfl, fun k hk => mem_missedLine u pa va sectors hk⟩

theorem peerUnreachable_held {sectors : List Nat} (hn : (mget? u.peerLines (lineKey (missDie u) pa)).isSome = true) :
    exec (.peerUnreachable n va (.read sectors)) s = .refused .notEnabled := by
  have hx := exec_peerUnreachable hu hw (.read sectors)
  dsimp only at hx
  rw [if_pos hn] at hx
  exact hx

end

end Sys2Proof.Machine
end

section
/-!
PROOFS. O52, third part: a shootdown (R103). Once the device's queues are emptied they stay empty, since what goes on of its jobs
puts nothing in a queue.
-/
namespace Sys2Proof.Machine

/-! ### Queues of a device that stay empty -/

/-- A group of device `n` has nothing in its queue. -/
def Group.Drained (n : Nat) (g : Group) : Prop := g.ref.team.vd = n → g.stores = []

/-- No group of device `n` has anything in its queue. -/
def QueuesEmpty (n : Nat) (s : State) : Prop := s.g.Drained n ∧ ∀ g ∈ s.groups, g.Drained n

theorem Group.drained_of_stores {g : Group} (h : g.stores = []) (n : Nat) : g.Drained n := fun _ => h

section queues
variable {s t : State} {n : Nat} (h : QueuesEmpty n s)
include h

theorem QueuesEmpty.of_eq (hg : t.g = s.g) (hgs : t.groups = s.groups) : QueuesEmpty n t := by
  unfold QueuesEmpty
  rw [hg, hgs]
  exact h

theorem QueuesEmpty.aside (ha : Aside s t) : QueuesEmpty n t := h.of_eq ha.g ha.groups

theorem QueuesEmpty.of_subset (hg : t.g.stores = []) (hgs : ∀ g ∈ t.groups, g ∈ s.groups) : QueuesEmpty n t :=
  ⟨Group.drained_of_stores hg n, fun g hm => h.2 g (hgs g hm)⟩

theorem QueuesEmpty.withG {g : Group} (hg : g.stores = []) : QueuesEmpty n { s with g := g } := h.of_subset hg fun _ hm => hm

theorem QueuesEmpty.allGroups : ∀ g ∈ allGroups s, g.Drained n := by
  unfold Machine.allGroups
  split
  · exact h.2
  · exact List.forall_mem_cons.mpr h

/-! ### A change of focus -/

theorem QueuesEmpty.stash : QueuesEmpty n (stash s) := by
  refine ⟨Group.drained_of_stores rfl n, ?_⟩
  show ∀ g ∈ (if s.g.ref.team.serial = 0 then s.groups else s.g :: s.groups), g.Drained n
  exact h.allGroups

theorem QueuesEmpty.focusDevice {k : Nat} (hf : focusDevice s k = some t) : QueuesEmpty n t := by
  unfold Machine.focusDevice at hf
  split at hf
  · rwa [← Option.some.inj hf]
  · obtain ⟨r, -, rfl⟩ := Option.map_eq_some_iff.mp hf
    exact h.stash.of_eq rfl rfl

theorem QueuesEmpty.deviceOnly {k : Nat} (hf : deviceOnly s k = some t) : QueuesEmpty n t := h.stash.focusDevice hf

theorem QueuesEmpty.focusTeam {r : TRef} (hf : focusTeam s r = some t) : QueuesEmpty n t := by
  unfold Machine.focusTeam at hf
  split at hf
  · cases hf
  · split at hf
    · rwa [← Option.some.inj hf]
    · obtain ⟨u, hu, hm⟩ := Option.bind_eq_some_iff.mp hf
      obtain ⟨q, -, rfl⟩ := Option.map_eq_some_iff.mp hm
      exact (h.stash.focusDevice hu).of_eq rfl rfl

theorem QueuesEmpty.focusJob {r : HRef} {j : Job} (hf : focusJob s r = some (t, j)) : QueuesEmpty n t := by
  unfold Machine.focusJob at hf
  obtain ⟨u, hu, hj⟩ := Option.bind_eq_some_iff.mp hf
  obtain ⟨k, -, hk⟩ := Option.bind_eq_some_iff.mp hj
  obtain ⟨v, hv, he⟩ := Option.map_eq_some_iff.mp hk
  obtain ⟨rfl, rfl⟩ := Prod.mk.inj he
  exact ((h.deviceOnly hu).focusTeam hv).withG rfl

/-! ### A table is repaired, or its device destroyed (R403, R443) -/

theorem QueuesEmpty.dropDevice (k : Nat) : QueuesEmpty n (dropDevice s k) := by
  unfold Machine.dropDevice
  split
  · exact h
  · next v hv =>
    have hq : QueuesEmpty n v := h.stash.focusDevice hv
    extract_lets d s1 s2 rs mine
    have ha : Aside v s2 := (Aside.foldl _ (fun s l => aside_resolveLoad s l _) _ v).trans (aside_writeLog ..)
    have h2 : QueuesEmpty n s2 := hq.aside ha
    clear_value s2
    exact ⟨h2.1, fun g hm => h2.2 g (List.mem_of_mem_filter hm)⟩

theorem QueuesEmpty.repairTable (pa : Nat) : QueuesEmpty n (repairTable s pa) := by
  unfold Machine.repairTable
  split
  · exact (h.dropDevice _).of_eq rfl rfl
  · exact h.of_eq rfl rfl

end queues

theorem QueuesEmpty.repairWalk {n : Nat} (k va : Nat) {s : State} (h : QueuesEmpty n s) : QueuesEmpty n (repairWalk k va s) := by
  induction k generalizing s with
  | zero => exact h
  | succ k ih =>
    unfold Machine.repairWalk
    split
    · exact ih (h.repairTable _)
    · exact h

/-! ### The bytes of a job move on -/

section jobs
variable {n : Nat}

theorem QueuesEmpty.jobPlace {s : State} (h : QueuesEmpty n s) (spc a need : Nat) : QueuesEmpty n (jobPlace s spc a need).1 := by
  unfold Machine.jobPlace
  split
  · exact h
  · split
    · dsimp only
      split
      · exact h.repairWalk _ _
      · exact h.repairWalk _ _
    · exact h

theorem QueuesEmpty.jobPlaces {s : State} (h : QueuesEmpty n s) (spc a need k : Nat) : QueuesEmpty n (jobPlaces s spc a need k).1 := by
  induction k with
  | zero => exact h
  | succ k ih =>
    unfold Machine.jobPlaces
    dsimp only
    split
    · exact ih
    · split
      · exact ih.jobPlace ..
      · exact ih.jobPlace ..

theorem QueuesEmpty.rowBytesOf {s : State} (h : QueuesEmpty n s) (j : Job) (r off k : Nat) :
    QueuesEmpty n (rowBytesOf s j r off k).1 := by
  unfold Machine.rowBytesOf
  dsimp only
  split
  · exact (h.jobPlaces ..).aside ((aside_fillBlocks _ _).trans (aside_countReads _ _))
  · split
    · exact h
    · exact h

theorem QueuesEmpty.moveBytes {s : State} (h : QueuesEmpty n s) (j : Job) (r off k : Nat) :
    QueuesEmpty n (moveBytes s j r off k).1 := by
  unfold Machine.moveBytes
  exact ((h.rowBytesOf ..).jobPlaces ..).aside (aside_writeRow ..)

theorem QueuesEmpty.moveRow {s : State} (h : QueuesEmpty n s) (j : Job) (r off k : Nat) : QueuesEmpty n (moveRow s j r off k).1 := by
  have hclean {s : State} (h : QueuesEmpty n s) (c : Card) (dva sva : Nat) :
      QueuesEmpty n (if c.init then dropLines s dva 2 else dropLines (dropLines s dva 2) sva 1) := by
    split
    · exact h.aside (aside_dropLines ..)
    · exact (h.aside (aside_dropLines ..)).aside (aside_dropLines ..)
  unfold Machine.moveRow
  dsimp only
  split
  · exact h
  · split
    · exact (hclean ((hclean h _ _ _).moveBytes ..) _ _ _).of_eq rfl rfl
    · exact h.moveBytes ..

theorem QueuesEmpty.moveTo {s : State} (h : QueuesEmpty n s) (j : Job) (k : Nat) : QueuesEmpty n (moveTo s j k).1 := by
  unfold Machine.moveTo
  extract_lets c q
  have hq : QueuesEmpty n q.1 := by
    refine List.foldlRecOn _ _ (motive := fun q : State × Job => QueuesEmpty n q.1) h fun q hq r _ => ?_
    exact List.foldlRecOn _ _ (motive := fun q : State × Job => QueuesEmpty n q.1) hq fun q hq p _ => hq.moveRow ..
  split
  · exact hq
  · exact hq

theorem aside_arriveBytes (s : State) (j : Job) (k : Nat) : Aside s (arriveBytes s j k).1 := by
  unfold arriveBytes
  split
  · exact .rfl' s
  · split
    · exact .rfl' s
    · exact .rfl' s
    · dsimp only
      split
      · exact aside_readyGauge ..
      · split
        · exact (aside_readyGauge ..).trans (aside_putGauge ..)
        · exact aside_readyGauge ..

theorem QueuesEmpty.endJob {s : State} (h : QueuesEmpty n s) (j : Job) (cancelled : Bool) : QueuesEmpty n (endJob s j cancelled) := by
  have hrelease (sc : Scope) : QueuesEmpty n (releaseAt s sc) := (h.withG rfl).aside (aside_releaseAt s sc)
  unfold Machine.endJob
  extract_lets c s₁ r j₁ s₂ s₃ state
  have h₁ : QueuesEmpty n s₁ := by
    unfold s₁
    split
    · exact h
    · exact hrelease _
  have h₂ : QueuesEmpty n s₂ := h₁.aside (aside_arriveBytes s₁ j (j.moved - j.counted))
  clear_value s₂
  have h₃ : QueuesEmpty n s₃ := by
    unfold s₃
    split
    · split
      · exact h₂.aside (aside_writeStamp ..)
      · exact h₂
    · exact h₂
  clear_value s₃
  exact h₃.of_eq rfl rfl

theorem QueuesEmpty.finishPages {s : State} (h : QueuesEmpty n s) (w : Dword) : QueuesEmpty n (finishPages s w) := by
  unfold Machine.finishPages
  split
  · next t j hf =>
    split
    · dsimp only
      split
      · exact ((h.focusJob hf).moveTo ..).endJob ..
      · exact ((h.focusJob hf).moveTo ..).of_eq rfl rfl
    · exact h
  · exact h

end jobs

/-! ### Pages move, and the new entries are written -/

/-- The groups and the tables of firmware are as before. -/
structure Tabled (s t : State) : Prop where
  g : t.g = s.g
  groups : t.groups = s.groups
  ptes : t.ptes = s.ptes

theorem Tabled.trans {s t u : State} (a : Tabled s t) (b : Tabled t u) : Tabled s u :=
  ⟨b.g.trans a.g, b.groups.trans a.groups, b.ptes.trans a.ptes⟩

theorem Tabled.foldl {α : Type} (f : State → α → State) (hf : ∀ s x, Tabled s (f s x)) (l : List α) (s : State) :
    Tabled s (l.foldl f s) := by
  induction l generalizing s with
  | nil => exact ⟨rfl, rfl, rfl⟩
  | cons x l ih => exact (hf s x).trans (ih _)

theorem Aside.tabled {s t : State} (h : Aside s t) : Tabled s t := ⟨h.g, h.groups, h.ptes⟩

theorem tabled_holdAt (s : State) (b k : Nat) (h : Held) : Tabled s (holdAt s b k h) :=
  (Aside.foldl _ (fun s x => aside_clearSpan s (b / 32768 + x)) _ s).tabled.trans ⟨rfl, rfl, rfl⟩

theorem tabled_movePages (s : State) (ms : List (Nat × Nat × Nat)) : Tabled s (movePages s ms) := by
  unfold movePages
  extract_lets rs t held k
  have hclean : Tabled s t := (Aside.foldl _ (fun s (r : Nat × Nat × Nat) =>
    (aside_cleanRange ..).trans (aside_cleanRange ..)) rs s).tabled
  have hmeter : Tabled t (meter (meter t 3 k) 4 k) := ((aside_meter ..).trans (aside_meter ..)).tabled
  have hhold := Tabled.foldl (fun s (h : (Nat × Nat × Nat) × Held) => holdAt s h.1.2.1 h.1.2.2 h.2)
    (fun s h => tabled_holdAt ..) held (meter (meter t 3 k) 4 k)
  exact ((hclean.trans hmeter).trans hhold).trans ⟨rfl, rfl, rfl⟩

theorem tableWord_editTable {s : State} (hm : mrising s.ptes = true) (e : PtEdit) (ha : Config.memBytes ≤ e.pa) :
    tableWord (editTable s e) e.pa = e.val.toNat := by
  show (if e.pa ≥ Config.memBytes then (mget 0 (mset 0 s.ptes (e.pa / 8) e.val) (e.pa / 8)).toNat else _) = _
  rw [if_pos ha, mget_mset _ hm, if_pos rfl]

/-! ### The shootdown -/

/-- The device's queued stores have been performed. -/
def flushQueues (u : State) (n : Nat) : State :=
  onGroups ((u.groups.filter fun g => g.ref.team.vd == n).foldl (fun y g => g.stores.foldl (fun y q => putVisible y q.cells) y) u)
    (fun g => g.ref.team.vd == n) fun g => { g with stores := [] }

theorem flushQueues_empty (u : State) (n : Nat) : QueuesEmpty n (flushQueues u n) := by
  have hgroup (g : Group) : (if g.ref.team.vd == n then { g with stores := [] } else g : Group).Drained n := by
    split
    · exact Group.drained_of_stores rfl n
    · next h => exact fun he => absurd (beq_iff_eq.mpr he) h
  exact ⟨hgroup _, List.forall_mem_map.mpr fun g _ => hgroup g⟩

section shootdown
variable {s u : State} {n : Nat} {edits : List PtEdit} (hu : deviceOnly s n = some u) (he : ∀ e ∈ edits, isTableWord u.vd e.pa = true)
include hu

theorem exec_shootdown_waits (h : ∃ x ∈ u.teams, x.ref.vd = n ∧ readsPages x = true) :
    exec (.translationShootdown n edits) s = .refused .notEnabled := by
  obtain ⟨x, hx, hvd, hr⟩ := h
  have hany : (u.teams.any fun t => t.ref.vd == n && readsPages t) = true :=
    List.any_eq_true.mpr ⟨x, hx, by rw [hvd, hr, beq_self_eq_true]; rfl⟩
  show execTranslationShootdown n edits s = _
  unfold execTranslationShootdown
  rw [hu, Option.bind_some, if_pos hany]
  rfl

include he

theorem exec_shootdown (h : ∀ x ∈ u.teams, x.ref.vd = n → readsPages x = false) {w : State}
    (hw : deviceOnly (((flushQueues u n).vd.jobs.map (·.handle)).foldl finishPages (flushQueues u n)) n = some w) :
    exec (.translationShootdown n edits) s = .next (edits.foldl editTable
      (if edits.filterMap (movedPage w) = [] then w else movePages w (edits.filterMap (movedPage w)))) := by
  have hany : ¬ (u.teams.any fun t => t.ref.vd == n && readsPages t) = true := by
    rw [List.any_eq_true]
    rintro ⟨x, hx, ht⟩
    obtain ⟨hvd, hr⟩ := Bool.and_eq_true_iff.mp ht
    rw [h x hx (beq_iff_eq.mp hvd)] at hr
    cases hr
  show execTranslationShootdown n edits s = _
  unfold execTranslationShootdown
  rw [hu, Option.bind_some, if_neg hany, if_pos (List.all_eq_true.mpr he)]
  show maySome ((deviceOnly (((flushQueues u n).vd.jobs.map (·.handle)).foldl finishPages (flushQueues u n)) n).map _) = _
  rw [hw]
  rfl

end shootdown

theorem tabled_moved (w : State) (ms : List (Nat × Nat × Nat)) : Tabled w (if ms = [] then w else movePages w ms) := by
  split
  · exact ⟨rfl, rfl, rfl⟩
  · exact tabled_movePages w ms

/-- No queue of the device holds anything when the new entries stand. -/
theorem shootdown_queues {u w : State} {n : Nat} (edits : List PtEdit) (ms : List (Nat × Nat × Nat))
    (hw : deviceOnly (((flushQueues u n).vd.jobs.map (·.handle)).foldl finishPages (flushQueues u n)) n = some w) :
    ∀ g ∈ allGroups (edits.foldl editTable (if ms = [] then w else movePages w ms)), g.ref.team.vd = n → g.stores = [] := by
  have hjobs : QueuesEmpty n (((flushQueues u n).vd.jobs.map (·.handle)).foldl finishPages (flushQueues u n)) :=
    List.foldlRecOn _ _ (motive := QueuesEmpty n) (flushQueues_empty u n) fun t ht w _ => ht.finishPages w
  have hmoved := tabled_moved w ms
  have hw' : QueuesEmpty n (if ms = [] then w else movePages w ms) := (hjobs.deviceOnly hw).of_eq hmoved.g hmoved.groups
  exact (List.foldlRecOn edits editTable (motive := QueuesEmpty n) hw' fun t ht e _ => ht.of_eq rfl rfl).allGroups

theorem shootdown_entry {w : State} (ms : List (Nat × Nat × Nat)) {e : PtEdit} (hm : mrising w.ptes = true)
    (ha : Config.memBytes ≤ e.pa) : tableWord ([e].foldl editTable (if ms = [] then w else movePages w ms)) e.pa = e.val.toNat :=
  tableWord_editTable (by rwa [(tabled_moved w ms).ptes]) e ha

end Sys2Proof.Machine
end

section
/-!
PROOFS. O52, assembled from its parts.
-/
namespace Sys2Proof.Machine

theorem not_any_poisoned {bs : List (Byte × Bool)} (h : ∀ b ∈ bs, b.2 = false) : ¬ bs.any (·.2) = true := by
  rw [List.any_eq_true]
  rintro ⟨b, hb, hp⟩
  rw [h b hb] at hp
  cases hp

theorem SameStore.sluicedVa {s t : State} (h : SameStore s t) {d e : Device} (hb : e.bindings = d.bindings) (hr : e.root = d.root)
    (pa : Nat) : sluicedVa t e pa = sluicedVa s d pa := by
  have hw (va : Nat) : Machine.walk t e va = Machine.walk s d va := by
    rw [h.walk]
    unfold Machine.walk
    rw [hr]
  unfold Machine.sluicedVa
  simp only [hb, hw]

/-- What is counted moves no place. -/
theorem peerPlaces_meter (u : State) (i k pa len : Nat) : peerPlaces (meter u i k) pa len = peerPlaces u pa len := by
  have h : SameStore u (meter u i k) := ⟨rfl, rfl, rfl, rfl, rfl, rfl, rfl⟩
  unfold peerPlaces peerPlace
  simp only [h.sluicedVa (d := u.vd) (e := (meter u i k).vd) rfl rfl]

section atomic
variable {s v c : State} {pa n : Nat} {f : Nat → Option Nat} {ls : List Loc} {old : List (Byte × Bool)}
  (hls : peerPlaces s pa n = ls) (hv : ls.foldl readyAtomic s = v) (hold : ls.map (locByte v) = old)
  (hcount : countReads v (ls.map fun l => (l, 1)) = c) (hclean : ∀ b ∈ old, b.2 = false)
include hls hv hold hcount hclean

/-- An atomic of a peer on bytes that are not poisoned (R125). -/
theorem peerAtomic_of_clean : peerAtomic s pa n f
    = reply (meter ((f (leNat (old.map (·.1)))).elim c fun x => putVisible c (ls.zip (leBytes n x))) 6 n) false old := by
  have hany := not_any_poisoned hclean
  unfold peerPlaces at hls
  unfold peerAtomic
  simp only [hls, hv, hold, hcount, if_neg hany]
  cases f (leNat (old.map (·.1))) <;> rfl

end atomic

section served
variable (u : State) (pa len : Nat)

theorem servePeer_atom (op : AOp) (ty : Ty) (x : Dword) : servePeer u pa len (.atom op ty x) = peerAtomic (meter u 6 len) pa len
    fun old => some (atomValue op (tySigned ty) len old (x.toNat % 2 ^ (8 * len))) := rfl

theorem servePeer_cas (cmp new : Dword) : servePeer u pa len (.cas cmp new) = peerAtomic (meter u 6 len) pa len fun old =>
    if old = cmp.toNat % 2 ^ (8 * len) then some (new.toNat % 2 ^ (8 * len)) else none := rfl

end served

theorem aligned_ok {pa len : Nat} (hlen : len = 4 ∨ len = 8) (hal : pa % len = 0) : ((len == 4 || len == 8) && pa % len == 0) = true := by
  rw [Bool.and_eq_true, Bool.or_eq_true, beq_iff_eq, beq_iff_eq, beq_iff_eq]
  exact ⟨hlen, hal⟩

/-- Settles O52: refresh, scrub and spans; a shootdown, with the queues that its jobs leave empty; peers and ports. -/
theorem memoryUpkeep : Obligations.MemoryUpkeep := by
  refine ⟨⟨?rows, fun s span _ hm hlt => spanInitialise_spec hm hlt, ?shootdown, ?answers,
    fun s pa len op h => exec_peerAccess_unlinked op h,
    fun s n => ⟨fun h => cross_of_up h n, ?waits⟩, fun s pa len op hup hok ho => exec_peerAccess_unowned hup hok ho, ?peers,
    ?nowhere⟩,
    ?ports, ?unsent, ?unanswered, fun s n flit ok h => no_such_port h flit ok⟩
  case rows =>
    intro s stack bank row corrected uncorrectable hs hb hr
    have hrow := isRow_iff.mpr ⟨hs, hb, hr⟩
    exact ⟨exec_refresh hrow, fun h => exec_refreshRetry h, fun hin hm => scrubRow_spec hrow hin hm⟩
  case shootdown =>
    intro s u n edits hu he
    refine ⟨fun h => exec_shootdown_waits hu h, fun h => fun w hw =>
      ⟨_, exec_shootdown hu he h hw, rfl, shootdown_queues edits _ hw, ?_⟩⟩
    rintro e rfl hm ha
    exact shootdown_entry _ hm ha
  case answers =>
    intro s
    refine ⟨rfl, fun h => ?_, fun h => reply_of_unlinked h [] true⟩
    obtain ⟨r, hr, herr, -⟩ := reply_replies s [] true h
    rw [hr, List.map_append, List.map_singleton, herr]
  case waits =>
    intro h
    rw [cross_of_down h]
    exact ⟨rfl, rfl⟩
  case peers =>
    intro s u d pa len hup ho hu ls
    refine ⟨fun op hok h => exec_peerAccess_past hup hok ho h, fun h => ⟨fun hlen => ?load, fun bs hlen hbs => ?store,
      fun op ty x hlen hal => ?atom, fun cmp new hlen hal => ?cas⟩⟩
    case load =>
      have hok : peerOpOk pa len .load = true := bne_iff_ne.mpr (Nat.ne_of_gt hlen)
      exact ⟨_, exec_peerAccess_served hup hok ho hu h, servePeer_load hup hu pa len⟩
    case store =>
      have hok : peerOpOk pa len (.store bs) = true :=
        Bool.and_eq_true_iff.mpr ⟨bne_iff_ne.mpr (Nat.ne_of_gt hlen), beq_iff_eq.mpr hbs⟩
      exact exec_peerAccess_served hup hok ho hu h
    case atom =>
      intro v old hclean
      have hok : peerOpOk pa len (.atom op ty x) = true := aligned_ok hlen hal
      rw [exec_peerAccess_served hup hok ho hu h, servePeer_atom,
        peerAtomic_of_clean (peerPlaces_meter u 6 len pa len) rfl rfl rfl hclean]
      rfl
    case cas =>
      intro v old c hclean
      have hok : peerOpOk pa len (.cas cmp new) = true := aligned_ok hlen hal
      rw [exec_peerAccess_served hup hok ho hu h, servePeer_cas,
        peerAtomic_of_clean (peerPlaces_meter u 6 len pa len) rfl rfl rfl hclean]
      refine congrArg (fun t => Host.Outcome.next (reply (meter t 6 len) false old)) ?_
      by_cases heq : leNat (old.map (·.1)) = cmp.toNat % 2 ^ (8 * len)
      · rw [if_pos heq]
        exact congrArg (fun o : Option Nat => o.elim c fun x => putVisible c (ls.zip (leBytes len x))) (if_pos heq)
      · rw [if_neg heq]
        exact congrArg (fun o : Option Nat => o.elim c fun x => putVisible c (ls.zip (leBytes len x))) (if_neg heq)
  case nowhere =>
    intro s stack bank row span xs ys hrow hspan
    have hr : ¬ isRow stack bank row = true := by
      rw [isRow_iff]
      omega
    obtain ⟨h₁, h₂⟩ := no_such_row hr xs ys
    exact ⟨h₁, h₂, no_such_span hspan⟩
  case ports =>
    intro s n hn hm
    refine ⟨fun flit hf hu hr => ⟨_, exec_flitReplay hn hf hu hr, ?replayed⟩, fun hu hr => ⟨_, exec_portRetrain hn hu hr, ?_⟩,
      fun hu => ⟨⟨_, exec_portRetrainingEnd hn hu true, ?_, rfl⟩,
        _, exec_portRetrainingEnd hn hu false, ?_, moduleEvent_outbox hm⟩⟩
    case replayed =>
      rw [portAt_putPort hm, if_pos rfl]
      refine ⟨hu, ?_⟩
      dsimp only
      split <;> omega
    · rw [portAt_putPort hm, if_pos rfl]
    · exact (portAt_putPort hm n .fresh n).trans (if_pos rfl)
    · exact congrArg Port.mode ((portAt_putPort hm n { mode := .down, replays := 0 } n).trans (if_pos rfl))
  case unsent =>
    intro s tag cmd vd p hdown
    refine send_of_unlinked (Bool.eq_false_iff.mpr fun h => ?_) tag cmd vd p
    obtain ⟨k, hk, hne⟩ := (linked_iff s).mp h
    exact hne (hdown k hk)
  case unanswered =>
    intro s u n va pa x w r hu hw
    refine ⟨fun hd => peerUnreachable_write hu hw hd, missDie u, Nat.mod_lt _ (by decide), fun sectors =>
      ⟨fun hn => peerUnreachable_read hu hw hn, fun hn => peerUnreachable_held hu hw hn⟩⟩

end Sys2Proof.Machine
end

section
/-!
PROOFS. O25: the order in which an atomic drains its queue and makes its places ready, and the landing of its lanes.
-/
namespace Sys2Proof.Machine

/-! ### What an atomic leaves of the group -/

theorem calm_putHome (s : State) (l : Loc) (cells : List (Loc × Byte)) : Calm s (putHome s l cells) :=
  (calm_putVisible s cells).trans (aside_atHome _ l).calm

theorem calm_readyLanes (s : State) (n : Nat) (ls : List (Nat × Loc)) : Calm s (readyLanes s n ls) :=
  (Calm.foldl _ (fun s (e : Nat × Loc) => (aside_readyAtomic s e.2).calm) ls s).trans (calm_countReads _ _)

theorem calm_atomLanes (s : State) (spc : Space) (ea : Nat → Nat) (n : Nat) (f : Nat → Nat → Option Nat)
    (ls : List (Nat × Loc)) : Calm s (atomLanes s spc ea n f ls).1 := by
  refine List.foldlRecOn ls _ (motive := fun r : State × List (Nat × Nat) × List Watch => Calm s r.1) (.rfl' s) fun r hr e _ => ?_
  dsimp only
  split
  · exact hr.trans (calm_putHome r.1 e.2 _)
  · exact hr

/-! ### An atomic of the active lanes (R125, R291, R292) -/

section atomic
variable {i : Instr} {s : State} {spc : Space} {base idx : Opnd} {n m : Nat} {k : AKind} {o : Ordf}
  {f : Nat → Nat → Option Nat} (hx : exec i s = atomIssue i spc (.v n) base idx m k o f s) (hon : execMask s ≠ 0)
include hx hon

theorem atomic_faults {r : Raise} (hp : placeLanes s spc base idx 0 m 3 = .error r) : Faults i s r := by
  rw [atomIssue, if_neg hon, hp] at hx
  exact issue_faults hx

variable {b : Dword} {ls : List (Nat × Loc)} (hp : placeLanes s spc base idx 0 m 3 = .ok (b, ls)) {rd : State}
  (hrd : rd = readyLanes (atomOrder s k o) m ls)
include hp hrd

theorem exec_atomic : exec i s
    = issueRead i (ls.map fun e => (e.2, m)) (atomEffect rd spc (.v n) (laneEa s spc b idx 0) m f ls) rd := by
  rw [hx, atomIssue, if_neg hon, hp, hrd]

theorem atomic_loses {t : TRef} (hw : poisonedWindow rd (ls.map fun e => (e.2, m)) = some t) :
    exec i s = .next (loseTeam rd t 0x600 1) :=
  (exec_atomic hx hon hp hrd).trans (issueRead_of_some hw)

variable (hw : poisonedWindow rd (ls.map fun e => (e.2, m)) = none)
include hw

theorem atomic_faults_poisoned {r : Raise} (hb : lanesBytes rd spc (laneEa s spc b idx 0) m ls = .error r) : FaultsIn i s rd r := by
  have h := exec_atomic hx hon hp hrd
  rw [issueRead_of_none hw, atomEffect, hb] at h
  exact h.trans (issue_error i r rd)

theorem atomic_lands (hs : Idle s) (hl : isLong i = true) {rs : List (Nat × List Byte)}
    (hb : lanesBytes rd spc (laneEa s spc b idx 0) m ls = .ok rs) :
    let r := atomLanes rd spc (laneEa s spc b idx 0) m f ls
    Lands i s r.1 ((List.range (m / 4)).foldl (fun g j => putVec s g (n + j) (fun _ => .general) fun l =>
      BitVec.ofNat 32 (((r.2.1.find? fun x => x.1 == l).map (·.2)).getD 0 / 2 ^ (32 * j))) r.1.g) := by
  intro r
  have hready : Calm s rd := hrd ▸ (calm_atomOrder s k o).trans (calm_readyLanes _ m ls)
  have hput (g : Group) (k : Nat) (f : Nat → Word) : putVec rd g k (fun _ => .general) f = putVec s g k (fun _ => .general) f := by
    unfold putVec
    rw [hready.execMask]
  have h := exec_atomic hx hon hp hrd
  rw [issueRead_of_none hw, atomEffect, hb] at h
  have hland := long_done _ _ h hs (hready.trans (calm_atomLanes rd spc _ m f ls)) hl
  rw [applyWrites_map_vec] at hland
  simp only [hput] at hland
  exact hland

end atomic

/-- Settles O25: one argument for both atomics, whose lanes differ in what they make of the old value. -/
theorem atomics : Obligations.Atomics := by
  intro s spc wide sgn op n base idx k o hs hon m opnd does
  have hdoes {i : Instr} {f : Nat → Nat → Option Nat} (hx : exec i s = atomIssue i spc (.v n) base idx m k o f s)
      (hl : isLong i = true) : does i f := fun b ls hp =>
    ⟨fun rs hw hb => atomic_lands hx hon hp rfl hw hs hl hb, fun r hw hb => atomic_faults_poisoned hx hon hp rfl hw hb,
      fun t hw => atomic_loses hx hon hp rfl hw⟩
  exact ⟨hdoes rfl rfl, hdoes rfl rfl, fun r hp => ⟨atomic_faults (n := n) rfl hon hp, atomic_faults (n := n) rfl hon hp⟩⟩

end Sys2Proof.Machine
end

section
/-!
PROOFS. What the operations on memory leave of the device in focus: all but the bytes and poison of its scratchpads, what it
counts, and how far its debug mailbox is read. One lemma for each operation, in the model's order.
-/
namespace Sys2Proof.Machine

/-- A device without what the bytes that move for it change of it. -/
def Device.bare (d : Device) : Device := { d with scratch := [], scPoison := [], meters := [], out := 0 }

/-- The device in focus differs in nothing but what moving bytes changes of it. -/
def SameDevice (s t : State) : Prop := t.vd.bare = s.vd.bare

theorem SameDevice.rfl' (s : State) : SameDevice s s := Eq.refl _

theorem SameDevice.trans {s t u : State} (a : SameDevice s t) (b : SameDevice t u) : SameDevice s u := Eq.trans b a

theorem SameDevice.of_eq {s t : State} (h : t.vd = s.vd) : SameDevice s t := congrArg Device.bare h

theorem SameDevice.foldl {α : Type} (f : State → α → State) (hf : ∀ s x, SameDevice s (f s x)) (l : List α) (s : State) :
    SameDevice s (l.foldl f s) :=
  List.foldlRecOn l f (motive := SameDevice s) (.rfl' s) fun t h x _ => h.trans (hf t x)

theorem SameDevice.withOut {s t : State} (h : SameDevice s t) (n : Nat) : SameDevice s { t with vd := { t.vd with out := n } } :=
  Eq.trans rfl h

section fields
variable {s t : State} (h : SameDevice s t)
include h

theorem SameDevice.number : t.vd.number = s.vd.number := (congrArg Device.number h :)
theorem SameDevice.jobs : t.vd.jobs = s.vd.jobs := (congrArg Device.jobs h :)
theorem SameDevice.serials : t.vd.serials = s.vd.serials := (congrArg Device.serials h :)

theorem SameDevice.nextSerial (origin kind : Nat) : nextSerial t.vd origin kind = nextSerial s.vd origin kind := by
  unfold Machine.nextSerial
  rw [h.serials]

theorem SameDevice.unresolved (x : Dword) : unresolved t.vd x = unresolved s.vd x :=
  (congrArg (fun d : Device => Machine.unresolved d x) (show t.vd.bare = s.vd.bare from h) :)

end fields

/-! ### Main memory, blocks and counters -/

theorem sameDevice_clearSpan (s : State) (n : Nat) : SameDevice s (clearSpan s n) := by
  obtain ⟨m, p, k, h⟩ := clearSpan_frame s n
  rw [h]
  exact .of_eq rfl

theorem sameDevice_putMain (s : State) (pa : Nat) (b : Byte) : SameDevice s (putMain s pa b) :=
  (sameDevice_clearSpan s _).trans (.of_eq rfl)

theorem sameDevice_meter (s : State) (i n : Nat) : SameDevice s (meter s i n) := Eq.refl _

theorem sameDevice_cross (s : State) (n : Nat) : SameDevice s (cross s n) := by
  unfold cross
  split <;> exact Eq.refl _

theorem sameDevice_countMeta (s : State) (sl : Sluice) (pa : Nat) : SameDevice s (countMeta s sl pa) := by
  unfold countMeta
  dsimp only
  split <;> exact Eq.refl _

theorem sameDevice_countFill (s : State) (sl : Sluice) (pa : Nat) (f : Fill) : SameDevice s (countFill s sl pa f) := by
  have h := ((sameDevice_countMeta s sl pa).trans (sameDevice_meter _ 3 (f.read + 256 * f.again.toNat))).trans
    (sameDevice_meter _ 5 f.steps)
  unfold countFill
  dsimp only
  split
  · exact h.trans (.of_eq rfl)
  · exact h

theorem sameDevice_cacheBlock (s : State) (sl : Sluice) (pa va : Nat) : SameDevice s (cacheBlock s sl pa va).1 := by
  unfold cacheBlock
  dsimp only
  split
  · exact .rfl' s
  · exact (sameDevice_countFill s sl _ _).trans (.of_eq rfl)

/-! ### Bytes at their places -/

theorem sameDevice_takeLine (s : State) (die : Nat) (l : Loc) : SameDevice s (takeLine s die l).1 := by
  unfold takeLine
  split
  · exact .rfl' s
  · exact sameDevice_cross s 256

theorem sameDevice_onTeam (s : State) (t : TRef) (f : Team → Team) : SameDevice s (onTeam s t f) := by
  unfold onTeam
  split <;> exact .of_eq rfl

theorem sameDevice_putLoc (s : State) (l : Loc) (b : Byte) : SameDevice s (putLoc s l b) := by
  unfold putLoc
  dsimp only
  split
  · split
    · exact (sameDevice_cacheBlock s _ _ _).trans (.of_eq rfl)
    · exact (sameDevice_putMain s l.addr b).trans (.of_eq rfl)
  · exact sameDevice_onTeam s _ _
  · exact Eq.refl _
  · exact (sameDevice_takeLine s _ _).trans (.of_eq rfl)

theorem sameDevice_openBlocks (s : State) (cells : List (Loc × Byte)) : SameDevice s (openBlocks s cells) := by
  refine SameDevice.foldl _ (fun s c => ?_) cells s
  split
  · split
    · dsimp only
      split <;> exact .of_eq rfl
    · exact .rfl' s
  · exact .rfl' s

theorem sameDevice_putLocs (s : State) (cells : List (Loc × Byte)) : SameDevice s (putLocs s cells) := by
  have hopen : SameDevice s (if s.vd.bindings = [] then s else openBlocks s cells) := by
    split
    · exact .rfl' s
    · exact sameDevice_openBlocks s cells
  unfold putLocs
  generalize (if s.vd.bindings = [] then s else openBlocks s cells) = u at hopen
  have hput := hopen.trans
    (SameDevice.foldl (fun s (c : Loc × Byte) => putLoc s c.1 c.2) (fun s c => sameDevice_putLoc s c.1 c.2) cells u)
  dsimp only
  generalize cells.foldl (fun s (c : Loc × Byte) => putLoc s c.1 c.2) u = v at hput
  split
  · exact hput.trans (Eq.refl _)
  · exact hput

theorem sameDevice_sendFor (s : State) (tag : Word) (cmd : Byte) (p : List Byte) : SameDevice s (sendFor s tag cmd p) :=
  sameDevice_meter s 6 _

theorem sameDevice_checkOut (s : State) : SameDevice s (checkOut s) := by
  unfold checkOut
  split
  · dsimp only
    generalize mainNat s (ctxPart s.vd mailPart + 8) 8 = o
    generalize (o + 2 ^ 64 - s.vd.out) % 2 ^ 64 = n
    split
    · exact .rfl' s
    · refine SameDevice.withOut ?_ o
      split
      · refine SameDevice.foldl _ (fun t j => ?_) _ s
        split
        · exact .rfl' t
        · exact sameDevice_sendFor t _ _ _
      · exact .rfl' s
  · exact .rfl' s

/-! ### Queues, lines of other modules' memory, and ordering -/

theorem sameDevice_putVisible (s : State) (cells : List (Loc × Byte)) : SameDevice s (putVisible s cells) :=
  (sameDevice_putLocs s _).trans (sameDevice_checkOut _)

theorem sameDevice_drainStores (s : State) : SameDevice s (drainStores s) :=
  SameDevice.trans (t := { s with g := { s.g with stores := [] } }) (.of_eq rfl)
    (SameDevice.foldl (fun s (q : QStore) => putVisible s q.cells) (fun s q => sameDevice_putVisible s q.cells) _ _)

theorem sameDevice_writePeer (s : State) (k : Nat) (b : Block) : SameDevice s (writePeer s k b) := by
  unfold writePeer
  split
  · exact SameDevice.trans (.of_eq rfl) (sameDevice_cross _ _)
  · exact .rfl' s

theorem sameDevice_cleanPeer (s : State) (die : Option Nat) (lo hi : Nat) (drop : Bool) :
    SameDevice s (cleanPeer s die lo hi drop) := by
  have h (es : SMap Block) :=
    SameDevice.foldl (fun s (e : Nat × Block) => writePeer s e.1 e.2) (fun s e => sameDevice_writePeer s e.1 e.2) es s
  unfold cleanPeer
  dsimp only
  split
  · exact (h _).trans (.of_eq rfl)
  · exact h _

theorem sameDevice_releaseAt (s : State) (sc : Scope) : SameDevice s (releaseAt s sc) := by
  unfold releaseAt
  dsimp only
  split
  · exact (sameDevice_drainStores s).trans (sameDevice_cleanPeer ..)
  · exact sameDevice_drainStores s

end Sys2Proof.Machine
end

section
/-!
PROOFS. O34: a card is released at its scope and named, and is then rejected or taken as a job.
-/
namespace Sys2Proof.Machine

/-! ### The fields of a handle, and its status (R164, R165) -/

section handles
variable {vd origin kind serial : Nat} (hv : vd < 64) (ho : origin < 512) (hk : kind < 4) (hs : serial < 2 ^ 47)
include hv ho hk hs

theorem handleWord_toNat :
    (handleWord vd origin kind serial).toNat = serial + 2 ^ 47 * (kind + 2 ^ 2 * (origin + 2 ^ 9 * vd)) := by
  simp only [handleWord, pack, w64, BitVec.toNat_ofNat]
  omega

/-- The fields of a handle are those that it was made of. -/
theorem handleWord_fields : handleSerial (handleWord vd origin kind serial) = serial
    ∧ handleKind (handleWord vd origin kind serial) = kind ∧ handleOrigin (handleWord vd origin kind serial) = origin
    ∧ handleVd (handleWord vd origin kind serial) = vd := by
  simp only [handleSerial, handleKind, handleOrigin, handleVd, handleWord_toNat hv ho hk hs]
  omega

end handles

section status
variable {s : State} {origin kind n : Nat} (hv : s.vd.number < 64) (ho : origin < 512) (hk : kind < 4) (h0 : n ≠ 0)
  (hn : n < 2 ^ 47) (hnext : nextSerial s.vd origin kind = n + 1)
include hv ho hk h0 hn hnext

/-- Of the newest handle of an origin and kind the status is that of its work, or the word with which it resolved. -/
theorem statusOf_newest : statusOf s (handleWord s.vd.number origin kind n)
    = if unresolved s.vd (handleWord s.vd.number origin kind n) then 0
      else ((s.vd.statuses.find? fun e => e.1 = handleWord s.vd.number origin kind n).map (·.2)).getD 0x60000000 := by
  obtain ⟨hserial, hkind, horigin, hvd⟩ := handleWord_fields hv ho hk hn
  have hne : handleWord s.vd.number origin kind n ≠ 0 := by
    intro h
    rw [h] at hserial
    exact h0 hserial.symm
  generalize handleWord s.vd.number origin kind n = h at *
  unfold statusOf
  rw [if_neg hne, hserial, hkind, horigin, hvd, hnext, if_neg (by omega), if_neg (by unfold Config.statusesKept; omega)]
  split
  · rfl
  · cases s.vd.statuses.find? fun e => e.1 = h <;> rfl

end status

/-! ### A handle that names no work resolves -/

theorem jobs_of_not_unresolved {d : Device} {h : Dword} (hu : unresolved d h = false) : ∀ j ∈ d.jobs, j.handle ≠ h := by
  simp only [unresolved, Bool.or_eq_false_iff, List.any_eq_false, decide_eq_true_eq] at hu
  exact hu.1.1.1

theorem unresolved_resolve {d : Device} {h : Dword} (hu : unresolved d h = false) (w : Word) :
    unresolved (resolve d h w) h = false := by
  simp only [unresolved, Bool.or_eq_false_iff] at hu ⊢
  refine ⟨⟨⟨?_, ?_⟩, ?_⟩, hu.2⟩
  · exact List.any_eq_false.mpr fun j hj => by simpa using mem_resolve_jobs hj
  · exact List.any_eq_false.mpr fun l hl => by simpa using (List.mem_filter.mp hl).2
  · exact List.any_eq_false.mpr fun l hl => by simpa using (List.mem_filter.mp hl).2

theorem resolve_jobs_length {d : Device} {h : Dword} (hu : unresolved d h = false) (w : Word) :
    (resolve d h w).jobs.length = d.jobs.length := by
  have hall : d.jobs.filter (fun j => j.handle ≠ h) = d.jobs :=
    List.filter_eq_self.mpr fun j hj => decide_eq_true (jobs_of_not_unresolved hu j hj)
  show ((d.jobs.filter fun j => j.handle ≠ h).map _).length = _
  rw [List.length_map, hall]

/-! ### New work of an engine is named (R164) -/

/-- The state in which new work of the group in focus is taken: its scope is released, and its handle is named. -/
def named (s : State) (sc : Scope) : State := (newHandle (releaseAt s sc) s.g.core 0).1

/-- The handle that new work of an engine gets. -/
def workHandle (s : State) : Dword := handleWord s.vd.number s.g.core 0 (nextSerial s.vd s.g.core 0)

section named
variable {s : State} {sc : Scope}

theorem named_core : (named s sc).g.core = s.g.core := (congrArg Group.core (aside_releaseAt s sc).g :)

theorem named_team : (named s sc).team.ref = s.team.ref := (congrArg Team.ref (aside_releaseAt s sc).team :)

theorem named_handle : (newHandle (releaseAt s sc) s.g.core 0).2 = workHandle s := by
  show handleWord _ _ _ (nextSerial _ _ _) = _
  rw [(sameDevice_releaseAt s sc).number, (sameDevice_releaseAt s sc).nextSerial]
  rfl

theorem calm_named : Calm s (named s sc) := (calm_releaseAt s sc).trans (.of_eq rfl rfl rfl rfl rfl rfl)

theorem named_jobs : (named s sc).vd.jobs = s.vd.jobs := (sameDevice_releaseAt s sc).jobs

theorem named_number : (named s sc).vd.number = s.vd.number := (sameDevice_releaseAt s sc).number

theorem named_unresolved (h : Dword) : unresolved (named s sc).vd h = unresolved s.vd h :=
  (sameDevice_releaseAt s sc).unresolved h

theorem named_nextSerial (hm : mrising s.vd.serials = true) :
    nextSerial (named s sc).vd s.g.core 0 = nextSerial s.vd s.g.core 0 + 1 := by
  have hd := sameDevice_releaseAt s sc
  show mget 1 (mset 1 _ _ (nextSerial _ _ _ + 1)) _ = _
  rw [mget_mset 1 (by rw [hd.serials]; exact hm), if_pos rfl, hd.nextSerial]

/-- The jobs that a new job follows are the unfinished ones of its die with an edge to it. -/
theorem mem_predsOf_named (reads writes : List Region) (x : Dword) : x ∈ predsOf (named s sc) reads writes
    ↔ ∃ y ∈ s.vd.jobs, y.handle = x ∧ y.core / 128 = s.g.core / 128 ∧ edge s.team.ref reads writes y = true := by
  unfold predsOf
  rw [named_jobs, named_core, named_team]
  simp only [List.mem_map, List.mem_filter, Bool.and_eq_true, beq_iff_eq]
  exact ⟨fun ⟨y, ⟨hy, hc, he⟩, hx⟩ => ⟨y, hy, hx, hc, he⟩, fun ⟨y, hy, hx, hc, he⟩ => ⟨y, ⟨hy, hc, he⟩, hx⟩⟩

end named

/-! ### A card is rejected or taken (R135, R162) -/

/-- A card that is rejected: its handle has resolved. -/
def rejected (v : State) (h : Dword) (code : Nat) : State :=
  { v with vd := resolve v.vd h (statusWord 3 false false false false code) }

/-- A card that is accepted: one more job of the device, behind those with an edge to it. -/
def accepted (v : State) (h : Dword) (k : JobKind) (w : Nat) : State :=
  { v with vd := { v.vd with
      jobs := v.vd.jobs ++ [newJob v h k (BitVec.ofNat 512 w) (Card.readRegions ⟨w⟩ k) [Card.dstExtent ⟨w⟩] []]
      fabJobs := if Card.scope ⟨w⟩ = 5 then v.vd.fabJobs ++ [h] else v.vd.fabJobs } }

/-- What becomes of a card that is released and named. -/
def cardOutcome (v : State) (h : Dword) (k : JobKind) (w : Nat) : State × Dword :=
  if !cardOk v k ⟨w⟩ then (rejected v h 0x500, h)
  else if !extentsOk v k ⟨w⟩ then (rejected v h 0x402, h)
  else (accepted v h k w, h)

theorem rejected_statuses (v : State) (h : Dword) (code : Nat) :
    (rejected v h code).vd.statuses = (h, statusWord 3 false false false false code) :: v.vd.statuses := rfl

section outcome
variable {v : State} {h : Dword} {k : JobKind} {w : Nat}

theorem cardOutcome_of_rejected (hk : cardOk v k ⟨w⟩ = false) : cardOutcome v h k w = (rejected v h 0x500, h) := by
  rw [cardOutcome, hk]
  rfl

theorem cardOutcome_of_outside (hk : cardOk v k ⟨w⟩ = true) (he : extentsOk v k ⟨w⟩ = false) :
    cardOutcome v h k w = (rejected v h 0x402, h) := by
  rw [cardOutcome, hk, he]
  rfl

theorem cardOutcome_of_accepted (hk : cardOk v k ⟨w⟩ = true) (he : extentsOk v k ⟨w⟩ = true) :
    cardOutcome v h k w = (accepted v h k w, h) := by
  rw [cardOutcome, hk, he]
  rfl

variable (v h k w)

/-- A card's three outcomes. -/
theorem cardOutcome_cases : (∃ code, cardOutcome v h k w = (rejected v h code, h)) ∨ cardOutcome v h k w = (accepted v h k w, h) := by
  unfold cardOutcome
  split
  · exact .inl ⟨_, rfl⟩
  · split
    · exact .inl ⟨_, rfl⟩
    · exact .inr rfl

theorem cardOutcome_handle : (cardOutcome v h k w).2 = h := by
  rcases cardOutcome_cases v h k w with ⟨_, hc⟩ | hc <;> rw [hc]

theorem cardOutcome_mem : (cardOutcome v h k w).1.mem = v.mem := by
  rcases cardOutcome_cases v h k w with ⟨_, hc⟩ | hc <;> rw [hc] <;> rfl

theorem calm_cardOutcome : Calm v (cardOutcome v h k w).1 := by
  rcases cardOutcome_cases v h k w with ⟨_, hc⟩ | hc <;> rw [hc] <;> exact .of_eq rfl rfl rfl rfl rfl rfl

end outcome

section card
variable {s : State} {sc : Scope}

theorem rejected_jobs_length (hu : unresolved s.vd (workHandle s) = false) (code : Nat) :
    (rejected (named s sc) (workHandle s) code).vd.jobs.length = s.vd.jobs.length := by
  rw [← named_jobs (s := s) (sc := sc)]
  exact resolve_jobs_length ((named_unresolved _).trans hu) _

theorem accepted_jobs (k : JobKind) (w : Nat) : (accepted (named s sc) (workHandle s) k w).vd.jobs = s.vd.jobs
    ++ [newJob (named s sc) (workHandle s) k (BitVec.ofNat 512 w) (Card.readRegions ⟨w⟩ k) [Card.dstExtent ⟨w⟩] []] := by
  rw [← named_jobs (s := s) (sc := sc)]
  rfl

theorem accepted_unresolved (k : JobKind) (w : Nat) : unresolved (accepted (named s sc) (workHandle s) k w).vd (workHandle s) = true := by
  have hjob : (accepted (named s sc) (workHandle s) k w).vd.jobs.any (fun j => j.handle = workHandle s) = true := by
    rw [accepted_jobs, List.any_append, List.any_cons]
    simp [newJob]
  unfold unresolved
  rw [hjob]
  rfl

section status
variable (hv : s.vd.number < 64) (hc : s.g.core < 512) (hm : mrising s.vd.serials = true) (hlt : nextSerial s.vd s.g.core 0 < 2 ^ 46)
  (h0 : nextSerial s.vd s.g.core 0 ≠ 0)
include hv hc hm hlt h0

section newest
variable {u : State} (hnum : u.vd.number = s.vd.number) (hser : u.vd.serials = (named s sc).vd.serials)
include hnum hser

/-- The handle of new work is the newest of its origin and kind, so that its status is that of its work. -/
theorem statusOf_workHandle : statusOf u (workHandle s) = if unresolved u.vd (workHandle s) then 0
    else ((u.vd.statuses.find? fun e => e.1 = workHandle s).map (·.2)).getD 0x60000000 := by
  have hnext : nextSerial u.vd s.g.core 0 = nextSerial s.vd s.g.core 0 + 1 := by
    rw [← named_nextSerial (sc := sc) hm, nextSerial, hser, nextSerial]
  have h := statusOf_newest (hnum ▸ hv) hc (by decide : 0 < 4) h0 (by omega) hnext
  rw [hnum] at h
  exact h

theorem statusOf_workHandle_pending (hu : unresolved u.vd (workHandle s) = true) : statusOf u (workHandle s) = 0 := by
  rw [statusOf_workHandle hv hc hm hlt h0 hnum hser, if_pos hu]

theorem statusOf_workHandle_done (hu : unresolved u.vd (workHandle s) = false) {x : Word} {rest : List (Dword × Word)}
    (hst : u.vd.statuses = (workHandle s, x) :: rest) : statusOf u (workHandle s) = x := by
  rw [statusOf_workHandle hv hc hm hlt h0 hnum hser, if_neg (by rw [hu]; decide), hst, List.find?_cons_of_pos (by simp)]
  rfl

end newest

theorem rejected_status (hu : unresolved s.vd (workHandle s) = false) (code : Nat) :
    statusOf (rejected (named s sc) (workHandle s) code) (workHandle s) = statusWord 3 false false false false code := by
  have hnum : (rejected (named s sc) (workHandle s) code).vd.number = s.vd.number := named_number (sc := sc)
  have hdone : unresolved (rejected (named s sc) (workHandle s) code).vd (workHandle s) = false :=
    unresolved_resolve ((named_unresolved _).trans hu) _
  exact statusOf_workHandle_done hv hc hm hlt h0 hnum rfl hdone (rejected_statuses ..)

theorem accepted_status (k : JobKind) (w : Nat) : statusOf (accepted (named s sc) (workHandle s) k w) (workHandle s) = 0 :=
  statusOf_workHandle_pending hv hc hm hlt h0 (named_number (sc := sc)) rfl (accepted_unresolved k w)

end status

/-- A card is checked in the state in which it is named. -/
theorem takeCard_eq (s : State) (k : JobKind) (w : Nat) :
    takeCard s k w = cardOutcome (named s (scopeOf (Card.scope ⟨w⟩))) (workHandle s) k w := by
  have hc : (releaseAt s (scopeOf (Card.scope ⟨w⟩))).g.core = s.g.core := named_core
  show (let d := releaseAt s (scopeOf (Card.scope ⟨w⟩))
    cardOutcome (newHandle d d.g.core 0).1 (newHandle d d.g.core 0).2 k w) = _
  dsimp only
  rw [hc, named_handle]
  rfl

theorem calm_takeCard (s : State) (k : JobKind) (w : Nat) : Calm s (takeCard s k w).1 := by
  rw [takeCard_eq]
  exact calm_named.trans (calm_cardOutcome ..)

end card

/-- Settles O34: the three outcomes of a card that has been released and named, and the status of its handle in each. -/
theorem cardsTaken : Obligations.CardsTaken := by
  intro s k w hv hc hm hlt h0 h r c d v hu
  have hr : r = cardOutcome v h k w := takeCard_eq s k w
  refine ⟨by rw [hr, cardOutcome_handle], by rw [hr, cardOutcome_mem]; rfl, fun hk => ?_, fun hk he => ?_, fun hk he => ?_⟩
  · rw [hr, cardOutcome_of_rejected hk]
    exact ⟨rejected_status hv hc hm hlt h0 hu _, rejected_jobs_length hu _⟩
  · rw [hr, cardOutcome_of_outside hk he]
    exact ⟨rejected_status hv hc hm hlt h0 hu _, rejected_jobs_length hu _⟩
  · rw [hr, cardOutcome_of_accepted hk he]
    exact ⟨accepted_status hv hc hm hlt h0 k w, _, accepted_jobs k w, rfl, rfl, rfl, rfl, rfl, mem_predsOf_named _ _⟩

end Sys2Proof.Machine
end

section
/-!
PROOFS. O33: instructions that issue cards and `mstore`, and the instructions on handles.
-/
namespace Sys2Proof.Machine

/-! ### Instructions that issue a card (R305) -/

section issue
variable {s : State} {n r : Nat} {i : Instr} {k : JobKind} (hx : exec i s = cardIssue i (.h n) (.s r) k s)
include hx

theorem card_waits (hb : Config.bucketJobs ≤ bucketCount s s.g.core) : exec i s = .next (setCur s ((cur s).pause .jobIssue)) :=
  hx.trans (if_pos hb)

theorem card_lands (hs : Idle s) (hl : isLong i = true) (hb : bucketCount s s.g.core < Config.bucketJobs) :
    let c := takeCard s k (wordsNat (readRun s r 16))
    Lands i s c.1 (setHreg c.1.g n c.2) :=
  long_done [.hnd n (takeCard s k (wordsNat (readRun s r 16))).2] [] (hx.trans (if_neg (Nat.not_le.mpr hb))) hs
    (calm_takeCard ..) hl

end issue

/-! ### `mstore` (R312) -/

section mstore
variable {s : State} {n r : Nat} {stamp t : Bool} {slot : Byte}

theorem mstore_waits (hb : Config.bucketJobs ≤ bucketCount s s.g.core) :
    exec (.mstore stamp t (.h n) (.s r) slot) s = .next (setCur s ((cur s).pause .jobIssue)) := if_pos hb

/-- The state with one more job of the device. -/
def withJob (v : State) (j : Job) : State := { v with vd := { v.vd with jobs := v.vd.jobs ++ [j] } }

theorem exec_mstore (hb : bucketCount s s.g.core < Config.bucketJobs) : ∃ writes behind,
    exec (.mstore stamp t (.h n) (.s r) slot) s = issue (.mstore stamp t (.h n) (.s r) slot)
      (.ok (.write (withJob (named s .pkg) (newJob (named s .pkg) (workHandle s) (.mstore s.g.sub t slot.toNat)
        (BitVec.ofNat 512 (wordsNat (readRun s r 2) + stamp.toNat * 2 ^ 64)) [] writes behind)) [.hnd n (workHandle s)])) s := by
  rw [← named_handle (sc := .pkg)]
  exact ⟨_, _, if_neg (Nat.not_le.mpr hb)⟩

theorem mstore_lands (hs : Idle s) (hb : bucketCount s s.g.core < Config.bucketJobs) : ∃ (st : State) (j : Job),
    Lands (.mstore stamp t (.h n) (.s r) slot) s st (setHreg st.g n (workHandle s))
      ∧ st.vd.jobs = s.vd.jobs ++ [j] ∧ j.kind = .mstore s.g.sub t slot.toNat ∧ j.started = false
      ∧ j.card = BitVec.ofNat 512 (wordsNat (readRun s r 2) + stamp.toNat * 2 ^ 64) ∧ j.handle = workHandle s := by
  obtain ⟨writes, behind, hx⟩ := exec_mstore (n := n) (r := r) (stamp := stamp) (t := t) (slot := slot) hb
  have hcalm (j : Job) : Calm s (withJob (named s .pkg) j) := calm_named.trans (.of_eq rfl rfl rfl rfl rfl rfl)
  have hjobs (j : Job) : (withJob (named s .pkg) j).vd.jobs = s.vd.jobs ++ [j] := by
    rw [← named_jobs (s := s) (sc := .pkg)]
    rfl
  exact ⟨_, _, long_done [.hnd n (workHandle s)] [] hx hs (hcalm _) rfl, hjobs _, rfl, rfl, rfl, rfl⟩

end mstore

/-! ### `htest` (R136, R306) -/

section htest
variable {s : State} {h : Dword}

theorem observe_of_elsewhere (hf : s.vd.fabJobs.contains h = false) : observe s h = s := by
  rw [observe, hf]
  rfl

theorem observe_of_pending (hr : resolved s h = false) : observe s h = s := by
  rw [observe, hr, Bool.and_false]
  rfl

variable (s h)

theorem aside_observe : Aside s (observe s h) := by
  unfold observe
  split
  · exact aside_acquireAt s _
  · exact .rfl' s

theorem observe_mem : (observe s h).mem = s.mem := by
  unfold observe
  split
  · exact acquireOf_mem s (.qual .fab)
  · rfl

end htest

theorem htest_lands {s : State} (hs : Idle s) (n m : Nat) : Lands (.htest (.s n) (.h m)) s (observe s (readH s m))
    (setSreg s.g n (statusOf s (readH s m))) := by
  have hx : exec (.htest (.s n) (.h m)) s = issue (.htest (.s n) (.h m))
      (.ok (.write (observe s (readH s m)) [.sca n (statusOf s (readH s m))])) s := rfl
  have h := long_done (st := observe s (readH s m)) [.sca n (statusOf s (readH s m))] [] hx hs (aside_observe s (readH s m)).calm rfl
  rw [(aside_observe s (readH s m)).g] at h
  exact h

/-! ### `hcancel` (R307) -/

/-- The host hears of a grid that has ended, where it asked for it. -/
def tellEnd (s : State) (g : Grid) : State :=
  match g.tag with
  | some t => sendFor s t 0xd0 (leBytes 4 (g.fault.getD 0) ++ leBytes 4 0)
  | none => s

theorem aside_tellEnd (s : State) (g : Grid) : Aside s (tellEnd s g) := by
  unfold tellEnd
  split
  · exact aside_sendFor s _ _ _
  · exact .rfl' s

theorem sameDevice_tellEnd (s : State) (g : Grid) : SameDevice s (tellEnd s g) := by
  unfold tellEnd
  split
  · exact sameDevice_sendFor s _ _ _
  · exact .rfl' s

theorem settleLaunches_frame (d : Device) : ∃ js ls os ss, settleLaunches d
    = { d with jobs := js, launches := ls, loads := os, statuses := ss } := by
  refine List.foldlRecOn d.launches _
    (motive := fun e : Device => ∃ js ls os ss, e = { d with jobs := js, launches := ls, loads := os, statuses := ss })
    ⟨_, _, _, _, rfl⟩ ?_
  rintro e ⟨js, ls, os, ss, rfl⟩ l -
  split
  · exact ⟨_, _, _, _, rfl⟩
  · exact ⟨js, ls, os, ss, rfl⟩

theorem settleGrids_frame (s : State) : ∃ d : Device, settleGrids s = { (s.vd.grids.filter Grid.ended).foldl tellEnd s with vd := d }
    ∧ d.number = ((s.vd.grids.filter Grid.ended).foldl tellEnd s).vd.number ∧ d.grids = s.vd.grids.filter fun g => !g.ended := by
  have hgrids : ((s.vd.grids.filter Grid.ended).foldl tellEnd s).vd.grids = s.vd.grids :=
    (congrArg Device.grids (SameDevice.foldl tellEnd sameDevice_tellEnd (s.vd.grids.filter Grid.ended) s) :)
  refine ⟨settleLaunches { ((s.vd.grids.filter Grid.ended).foldl tellEnd s).vd with
    grids := _, pool := _, launches := _ }, rfl, ?_⟩
  obtain ⟨js, ls, os, ss, h⟩ := settleLaunches_frame { ((s.vd.grids.filter Grid.ended).foldl tellEnd s).vd with
    grids := _, pool := _, launches := _ }
  rw [h]
  exact ⟨rfl, congrArg (List.filter fun g => !g.ended) hgrids⟩

theorem aside_settleGrids (s : State) : Aside s (settleGrids s) := by
  obtain ⟨d, h, hn, -⟩ := settleGrids_frame s
  rw [h]
  exact (Aside.foldl tellEnd aside_tellEnd _ s).withVd hn

theorem aside_settleQueue (s : State) : Aside s (settleQueue s) := (Aside.rfl' s).withVd rfl

/-- The grids without their teams to come where a cancelled execution of `launch` made them. -/
def withdrawn (s : State) (l : Launch) : State :=
  let waits (g : Grid) : Bool := l.children.contains g.serial && g.next == 0
  { s with vd := { s.vd with
      grids := s.vd.grids.map fun g => if waits g then { g with next := g.total } else g
      launches := s.vd.launches.map fun x =>
        if x.handle = l.handle then { x with removed := x.removed || s.vd.grids.any waits } else x } }

section launch
variable {s : State} {h : Dword} {l : Launch} (hl : s.vd.launches.find? (fun l => l.handle = h) = some l)
include hl

theorem cancelLaunch_eq : cancelLaunch s h = settleQueue (settleGrids (withdrawn s l)) := by
  have hh : l.handle = h := by simpa using List.find?_some hl
  unfold cancelLaunch withdrawn
  rw [hl, hh]

/-- Of the children of a cancelled execution only those stay that have a team. -/
theorem cancelLaunch_children : ∀ g ∈ (cancelLaunch s h).vd.grids, l.children.contains g.serial = true → g.live = 0 → g.next ≠ 0 := by
  obtain ⟨d, hd, -, hgrids⟩ := settleGrids_frame (withdrawn s l)
  have hq : (cancelLaunch s h).vd.grids = (withdrawn s l).vd.grids.filter fun g => !g.ended := by
    rw [cancelLaunch_eq hl, ← hgrids]
    show (settleGrids (withdrawn s l)).vd.grids = _
    rw [hd]
  intro g hg hchild hlive hnext
  rw [hq] at hg
  obtain ⟨hmem, hgoes⟩ := List.mem_filter.mp hg
  obtain ⟨x, -, hx⟩ := List.mem_map.mp hmem
  by_cases hw : (l.children.contains x.serial && x.next == 0) = true
  · rw [if_pos hw] at hx
    subst hx
    have hended : Grid.ended { x with next := x.total } = true := by
      show (decide (x.total ≤ x.total) && x.live == 0) = true
      rw [decide_eq_true le_rfl, hlive]
      rfl
    rw [hended] at hgoes
    cases hgoes
  · rw [if_neg hw] at hx
    subst hx
    exact hw (by rw [hchild, hnext]; rfl)

end launch

theorem aside_cancelLaunch (s : State) (h : Dword) : Aside s (cancelLaunch s h) := by
  cases hl : s.vd.launches.find? fun l => l.handle = h with
  | none =>
    rw [cancelLaunch, hl]
    exact .rfl' s
  | some l =>
    rw [cancelLaunch_eq hl]
    exact Aside.trans (t := withdrawn s l) ((Aside.rfl' s).withVd rfl) ((aside_settleGrids _).trans (aside_settleQueue _))

theorem cancelJob_number (d : Device) (j : Job) : (cancelJob d j).number = d.number := by
  unfold cancelJob
  split
  · rfl
  · split <;> rfl

section cancel
variable {s : State} {h : Dword}

theorem cancelWork_of_job {j : Job} (hj : s.vd.jobs.find? (fun j => j.handle = h) = some j) :
    cancelWork s h = { s with vd := cancelJob s.vd j } := by rw [cancelWork, hj]

section jobless
variable (hj : ∀ j ∈ s.vd.jobs, j.handle ≠ h)
include hj

theorem cancelWork_jobless : cancelWork s h = if s.vd.launches.any fun l => l.handle = h then cancelLaunch s h
    else ((s.vd.loads.find? fun l => l.handle = h).map fun l => resolveLoad s l (statusWord 2 false false false false 0)).getD s := by
  have hnone : (s.vd.jobs.find? fun j => j.handle = h) = none := List.find?_eq_none.mpr fun j hm => by simpa using hj j hm
  rw [cancelWork, hnone]
  dsimp only
  split
  · rfl
  · cases s.vd.loads.find? fun l => l.handle = h <;> rfl

theorem cancelWork_of_launch {l : Launch} (hl : s.vd.launches.find? (fun l => l.handle = h) = some l) :
    cancelWork s h = cancelLaunch s h := by
  have hh : l.handle = h := by simpa using List.find?_some hl
  have hany : (s.vd.launches.any fun l => l.handle = h) = true :=
    List.any_eq_true.mpr ⟨l, List.mem_of_find?_eq_some hl, decide_eq_true hh⟩
  rw [cancelWork_jobless hj, if_pos hany]

variable (hl : ∀ l ∈ s.vd.launches, l.handle ≠ h)
include hl

theorem cancelWork_launchless : cancelWork s h
    = ((s.vd.loads.find? fun l => l.handle = h).map fun l => resolveLoad s l (statusWord 2 false false false false 0)).getD s := by
  have hany : ¬ (s.vd.launches.any fun l => l.handle = h) = true := by simpa using hl
  rw [cancelWork_jobless hj, if_neg hany]

theorem cancelWork_of_nothing (ho : ∀ l ∈ s.vd.loads, l.handle ≠ h) : cancelWork s h = s := by
  have hnone : (s.vd.loads.find? fun l => l.handle = h) = none := List.find?_eq_none.mpr fun l hm => by simpa using ho l hm
  rw [cancelWork_launchless hj hl, hnone]
  rfl

theorem cancelWork_of_load (ho : ∃ l ∈ s.vd.loads, l.handle = h) :
    (cancelWork s h).vd.statuses.head? = some (h, statusWord 2 false false false false 0) := by
  have hsome : (s.vd.loads.find? fun l => l.handle = h).isSome = true := by simpa using ho
  obtain ⟨l, hfind⟩ := Option.isSome_iff_exists.mp hsome
  have hh : l.handle = h := by simpa using List.find?_some hfind
  rw [cancelWork_launchless hj hl, hfind, ← hh]
  rfl

end jobless

theorem aside_cancelWork (s : State) (h : Dword) : Aside s (cancelWork s h) := by
  unfold cancelWork
  split
  · exact (Aside.rfl' s).withVd (cancelJob_number ..)
  · split
    · exact aside_cancelLaunch s h
    · split
      · exact aside_resolveLoad s _ _
      · exact .rfl' s

/-- What becomes of the job that a cancelled handle names. -/
theorem cancelWork_job {j : Job} (hj : s.vd.jobs.find? (fun j => j.handle = h) = some j) :
    let st := cancelWork s h
    (j.sent = true → st = s)
    ∧ (j.sent = false → j.started = true → st.vd.jobs = s.vd.jobs.map fun x => if x.handle = h then { x with cancel := true } else x)
    ∧ (j.sent = false → j.started = false →
      st.vd.statuses.head? = some (h, statusWord 2 false false false false 0) ∧ ∀ x ∈ st.vd.jobs, x.handle ≠ h) := by
  have hh : j.handle = h := by simpa using List.find?_some hj
  intro st
  have hst : st = { s with vd := cancelJob s.vd j } := cancelWork_of_job hj
  clear_value st
  subst hst hh
  refine ⟨fun hs => ?_, fun hs hr => ?_, fun hs hr => ?_⟩
  · rw [cancelJob, if_pos hs]
  · rw [cancelJob, hs, hr]
    rfl
  · rw [cancelJob, hs, hr]
    exact ⟨rfl, fun x hx => mem_resolve_jobs hx⟩

end cancel

theorem hcancel_lands {s : State} (hs : Idle s) (m : Nat) : Lands (.hcancel (.h m)) s (cancelWork s (readH s m)) s.g := by
  have ha := aside_cancelWork s (readH s m)
  have h := long_done (i := .hcancel (.h m)) (st := cancelWork s (readH s m)) [] [] rfl hs ha.calm rfl
  rw [ha.g] at h
  exact h

/-! ### `hst` and `hld` (R308) -/

section places
variable {s : State} {spc : HSpace} {a : Opnd} {n m ea : Nat} {l : Loc} {r : Raise}

theorem hspace_ne_sp (spc : HSpace) : hspace spc ≠ .sp := by cases spc <;> decide

theorem exec_hst : exec (.hst spc a (.h m)) s = issue (.hst spc a (.h m)) ((handlePlace s spc a 2).map fun r =>
    { Effect.of (pushStore s (hspace spc) (cellsOf r.2 (leBytes 8 (readH s m).toNat))) with
      events := writeEvents (hspace spc) none r.1 (leBytes 8 (readH s m).toNat) }) s := rfl

theorem hst_lands (hs : Idle s) (hp : handlePlace s spc a 2 = .ok (ea, l)) :
    let st := pushStore s (hspace spc) (cellsOf l (leBytes 8 (readH s m).toNat))
    Lands (.hst spc a (.h m)) s st st.g ∧ st.mem = s.mem := by
  have h := store_lands (o := .plain) hs rfl (cellsOf l (leBytes 8 (readH s m).toNat))
    (writeEvents (hspace spc) none ea (leBytes 8 (readH s m).toNat)) (exec_hst.trans (by rw [hp]; rfl))
  exact ⟨h.1, h.2 (hspace_ne_sp spc) rfl⟩

theorem hst_faults (hp : handlePlace s spc a 2 = .error r) : Faults (.hst spc a (.h m)) s r :=
  issue_faults (exec_hst.trans (by rw [hp]; rfl))

theorem hld_faults_place (hp : handlePlace s spc a 1 = .error r) : Faults (.hld spc (.h n) a) s r := by
  refine issue_faults ?_
  show execHld .. = _
  rw [execHld, hp]

section reads
variable (hp : handlePlace s spc a 1 = .ok (ea, l)) {st : State} (hst : st = countReads s [(l, 8)])
include hp hst

theorem exec_hld : exec (.hld spc (.h n) a) s = issueRead (.hld spc (.h n) a) [(l, 8)]
    ((oneBytes st (hspace spc) ea 8 l).map fun bs =>
      { Effect.write st [.hnd n (w64 (leNat bs))] with events := readEvents (hspace spc) none ea bs }) st := by
  subst hst
  show execHld .. = _
  rw [execHld, hp]
  rfl

theorem hld_loses {t : TRef} (hw : poisonedWindow st [(l, 8)] = some t) :
    exec (.hld spc (.h n) a) s = .next (loseTeam st t 0x600 1) := (exec_hld hp hst).trans (issueRead_of_some hw)

variable (hw : poisonedWindow st [(l, 8)] = none)
include hw

theorem hld_lands (hs : Idle s) {bs : List Byte} (hb : oneBytes st (hspace spc) ea 8 l = .ok bs) :
    Lands (.hld spc (.h n) a) s st (setHreg s.g n (BitVec.ofNat 64 (leNat bs))) := by
  have ha : Aside s st := hst ▸ aside_countReads s _
  have hx := exec_hld (n := n) hp hst
  rw [issueRead_of_none hw, hb] at hx
  have h := long_done _ _ hx hs ha.calm rfl
  rw [ha.g] at h
  exact h

theorem hld_faults (hb : oneBytes st (hspace spc) ea 8 l = .error r) : FaultsIn (.hld spc (.h n) a) s st r := by
  have hx := exec_hld (n := n) hp hst
  rw [issueRead_of_none hw, hb] at hx
  exact hx.trans (issue_error _ r st)

end reads
end places

/-- Settles O33: each instruction that issues work by the state in which it is taken, and each on a handle by what it names. -/
theorem cardsAndHandles : Obligations.CardsAndHandles := by
  refine ⟨?work, ?handles⟩
  case work =>
    intro s n r hs w issues
    have hcard {i : Instr} {k : JobKind} (hx : exec i s = cardIssue i (.h n) (.s r) k s) (hl : isLong i = true) : issues i k :=
      ⟨card_lands hx hs hl, card_waits hx⟩
    exact ⟨hcard rfl rfl, hcard rfl rfl, hcard rfl rfl, hcard rfl rfl, fun _ _ _ hb => mstore_lands hs hb, fun _ _ _ => mstore_waits⟩
  case handles =>
    intro s n m spc a hs h
    refine ⟨⟨htest_lands hs n m, observe_mem s h, observe_of_elsewhere, observe_of_pending⟩,
      ⟨hcancel_lands hs m, fun j hj => cancelWork_job hj, fun hj => ⟨fun l hl => ?launch, fun hl ho => cancelWork_of_nothing hj hl ho,
        fun hl ho => cancelWork_of_load hj hl ho⟩⟩,
      fun ea l hp => hst_lands hs hp, fun ea l hp => ⟨fun bs hw hb => hld_lands hp rfl hw hs hb, fun r hw hb => hld_faults hp rfl hw hb,
        fun t hw => hld_loses hp rfl hw⟩, fun r hp => hst_faults hp, fun r hp => hld_faults_place hp⟩
    rw [cancelWork_of_launch hj hl]
    exact cancelLaunch_children hl

end Sys2Proof.Machine
end

section
/-!
PROOFS. O45: a slot takes a port at a good header, or its arrival raises a cause; ports of a sub-core are counted by their groups.
-/
namespace Sys2Proof.Machine

/-! ### Fetching and observing leave the group (R136, R353) -/

/-- What the words of a clause count, one word after another. -/
theorem aside_countFetch (s : State) (p : PcSlot) : Aside s (countFetch s p) := by
  refine Aside.foldl _ (fun s k => ?_) _ s
  split
  · exact aside_countRead ..
  · exact .rfl' s

theorem countFetch_mem (s : State) (p : PcSlot) : (countFetch s p).mem = s.mem := by
  refine List.foldlRecOn _ _ (motive := fun t : State => t.mem = s.mem) rfl fun t ht k _ => ?_
  split
  · exact (unwritten_countRead ..).mem.trans ht
  · exact ht

theorem aside_observeWaits (s : State) (p : PcSlot) : Aside s (observeWaits s p) := by
  unfold observeWaits
  split
  · exact .rfl' s
  · exact Aside.foldl observe aside_observe _ s

theorem observeWaits_mem (s : State) (p : PcSlot) : (observeWaits s p).mem = s.mem := by
  unfold observeWaits
  split
  · rfl
  · exact List.foldlRecOn _ _ (motive := fun t : State => t.mem = s.mem) rfl fun t ht h _ => (observe_mem t h).trans ht

/-! ### Ports of a sub-core (R191) -/

/-- Ports that the slots of a group hold. -/
def Group.ports (g : Group) : Nat := ([g.a, g.b].filter fun p => p.live && p.stand == .issuing).length

/-- A team holds ports. -/
def runs (s : State) (t : TRef) : Bool := (teamOf s t).any fun t => t.resident && !t.ending

/-- A group's ports are among those of a sub-core, given which teams run. -/
def Group.counts (g : Group) (run : TRef → Bool) (core sub : Nat) : Bool := run g.ref.team && (g.core == core && g.sub == sub)

/-- Ports that some groups hold on a sub-core. -/
def portsOf (run : TRef → Bool) (core sub : Nat) (gs : List Group) : Nat :=
  ((gs.filter (·.counts run core sub)).map Group.ports).sum

theorem portsOf_cons (run : TRef → Bool) (core sub : Nat) (g : Group) (gs : List Group) :
    portsOf run core sub (g :: gs) = (if g.counts run core sub then g.ports else 0) + portsOf run core sub gs := by
  unfold portsOf
  rw [List.filter_cons]
  split
  · rw [List.map_cons, List.sum_cons]
  · rw [Nat.zero_add]

theorem portsHeld_eq (s : State) (core sub : Nat) : portsHeld s core sub = portsOf (runs s) core sub (allGroups s) := by
  have hsum (gs : List Group) : gs.foldl (fun n g => n + g.ports) 0 = (gs.map Group.ports).sum := by
    rw [List.sum_eq_foldl, List.foldl_map]
  show List.foldl (fun n (g : Group) => n + g.ports) 0
    (((allGroups s).filter fun g => g.core == core && g.sub == sub).filter fun g => runs s g.ref.team) = _
  rw [List.filter_filter, hsum]
  rfl

/-- Ports that a slot holds. -/
def PcSlot.ports (p : PcSlot) : Nat := if p.live && p.stand == .issuing then 1 else 0

theorem PcSlot.ports_le (p : PcSlot) : p.ports ≤ 1 := by
  unfold PcSlot.ports
  split <;> decide

theorem Group.ports_eq (g : Group) : g.ports = g.b.ports + g.a.ports := by
  unfold Group.ports
  rw [← List.countP_eq_length_filter, List.countP_cons, List.countP_cons, List.countP_nil, Nat.zero_add]
  rfl

theorem Group.ports_setSlot (g : Group) (i : SlotId) (p : PcSlot) : (g.setSlot i p).ports ≤ g.ports + 1 := by
  have hp := p.ports_le
  rw [Group.ports_eq, Group.ports_eq]
  cases i
  · show g.b.ports + p.ports ≤ _
    omega
  · show p.ports + g.a.ports ≤ _
    omega

theorem Aside.teamOf {s t : State} (h : Aside s t) (r : TRef) : (teamOf t r).map Team.bare = (teamOf s r).map Team.bare := by
  have href : t.team.ref = s.team.ref := (congrArg Team.ref h.team :)
  have hfind (l : List Team) : (l.find? fun x => decide (x.ref = r)).map Team.bare
      = (l.map Team.bare).find? fun x => decide (x.ref = r) := by
    rw [List.find?_map]
    rfl
  unfold Machine.teamOf
  rw [href]
  split
  · rw [Option.map_some, Option.map_some, h.team]
  · rw [hfind, hfind, h.teams]

theorem Aside.runs {s t : State} (h : Aside s t) : runs t = runs s := by
  funext r
  have hbare (o : Option Team) : (o.any fun t => t.resident && !t.ending) = (o.map Team.bare).any fun t => t.resident && !t.ending := by
    cases o <;> rfl
  unfold Machine.runs
  rw [hbare, h.teamOf, ← hbare]

/-- A slot that changes takes one port more at most. -/
theorem portsHeld_setCur {s u : State} (h : Aside s u) (p : PcSlot) (core sub : Nat) :
    portsHeld (setCur u p) core sub ≤ portsHeld s core sub + 1 := by
  have hruns : Machine.runs (setCur u p) = Machine.runs s := h.runs
  rw [portsHeld_eq, portsHeld_eq, hruns]
  unfold allGroups setCur
  rw [h.g, h.groups, setSlot_ref]
  split
  · exact Nat.le_succ _
  · have hcounts : (s.g.setSlot u.slot p).counts (Machine.runs s) core sub = s.g.counts (Machine.runs s) core sub := by
      simp only [Group.counts, setSlot_ref, setSlot_core, setSlot_sub]
    have hports := s.g.ports_setSlot u.slot p
    dsimp only
    rw [portsOf_cons, portsOf_cons, hcounts]
    split <;> omega

/-! ### Arrival at a header (R210, R211) -/

section arrival
variable {s : State} {p : PcSlot} {w : Dword} (hf : fetchWord s p.pc = .ok w)
include hf

theorem arrive?_of_no_header (hst : p.stand = .arrived) (h : p.pc.toNat % 8 ≠ 0 ∨ w.toNat / 2 ^ 56 ≠ 0xca) :
    arrive? s p = .error (.plain 0x103 0) := by
  unfold arrive?
  split
  · rfl
  · next haligned =>
    have hmark : marked w = false := by
      rcases h with h | h
      · exact absurd ⟨hst, h⟩ haligned
      · exact beq_false_of_ne h
    rw [hf]
    exact if_pos ⟨hst, by rw [hmark]; rfl⟩

theorem arrive?_of_malformed (hst : p.stand = .arrived → p.pc.toNat % 8 = 0 ∧ w.toNat / 2 ^ 56 = 0xca) (hbad : headerGood w = false) :
    arrive? s p = .error (.plain 0x102 0) := by
  have hmark (h : p.stand = .arrived) : marked w = true := beq_iff_eq.mpr (hst h).2
  unfold arrive?
  rw [if_neg fun h => h.2 (hst h.1).1, hf]
  dsimp only
  rw [if_neg fun h => by rw [hmark h.1] at h; exact absurd h.2 (by decide), hbad]
  rfl

end arrival

/-! ### CLAUSE_ISSUE, CLAUSE_RESUME and FLAG_CLEAR (R193, R195, R207) -/

section issue
variable {s : State} (hst : (cur s).stand = .arrived ∨ (cur s).stand = .header)
include hst

theorem clauseIssue_may (hw : wantsPort s = true) :
    (!((cur s).stand == .arrived || (cur s).stand == .header) || !wantsPort s) = false := by
  rw [hw]
  rcases hst with h | h <;> rw [h] <;> rfl

theorem exec_clauseIssue_of_error {r : Raise} (hw : wantsPort s = true) (ha : arrive? s (cur s) = .error r) :
    exec .clauseIssue s = .next (raiseHere s r) := by
  show execClauseIssue s = _
  unfold execClauseIssue
  dsimp only
  rw [clauseIssue_may hst hw, ha]
  rfl

/-- The slot with a port, at the first instruction of the clause whose header it has reached. -/
def begun (q : PcSlot) (now : Nat) : PcSlot :=
  { q with pc := q.pc + 8, stand := .issuing, wait := .running, since := now, ageless := false }

theorem exec_clauseIssue {q : PcSlot} (hw : wantsPort s = true) (ha : arrive? s (cur s) = .ok q) (ht : takesPort s = true)
    (hf : fetchFails s q = none) : exec .clauseIssue s = .next (setCur (observeWaits (countFetch s q) q) (begun q s.now)) := by
  have hnow : (observeWaits (countFetch s q) q).now = s.now := ((aside_countFetch s q).trans (aside_observeWaits _ q)).now
  rw [← hnow]
  show execClauseIssue s = _
  unfold execClauseIssue
  dsimp only
  rw [clauseIssue_may hst hw, ha, ht]
  dsimp only
  rw [hf]
  rfl

/-- A word that is no good header needs no more than the slot's arrival. -/
theorem wantsPort_of_error {r : Raise} (hc : canAct s s.slot = true) (hh : s.g.haltDue = none) (ha : arrive? s (cur s) = .error r) :
    wantsPort s = true := by
  have hstart : clauseMayStart s.g = true := by rw [clauseMayStart, hh]; rfl
  unfold wantsPort
  dsimp only
  rw [hc, hstart, ha]
  rcases hst with h | h <;> rw [h] <;> rfl

end issue

theorem exec_clauseResume {s : State} (hst : (cur s).stand = .paused) (hw : wantsPort s = true) (ht : takesPort s = true) :
    let t := observeWaits s (cur s)
    exec .clauseResume s = .next (setCur t { cur t with stand := .issuing, ageless := false }) := by
  show execClauseResume s = _
  unfold execClauseResume
  rw [hst, hw, ht]
  rfl

theorem exec_flagClear {s : State} {k : Nat} {f : InFlight} (hk : s.g.inflight[k]? = some f) (hu : f.until_ = .now) :
    exec (.flagClear k) s = .next (afterStep (landAt s k)) := by
  show execFlagClear k s = _
  unfold execFlagClear
  rw [hk]
  dsimp only
  rw [hu]
  rfl

theorem takesPort_free {s : State} (h : takesPort s = true) : portsHeld s s.g.core s.g.sub < 4 := by
  unfold takesPort at h
  exact of_decide_eq_true (Bool.and_eq_true_iff.mp h).1

/-- Settles O45: a slot that takes a port was counted without it; the others are the branches of arrival and of the events. -/
theorem clausesTakePorts : Obligations.ClausesTakePorts := by
  refine ⟨?issue, fun s hst hw ht => exec_clauseResume hst hw ht, fun s w hc hh hf => ?faults, fun s k f hk hu => exec_flagClear hk hu⟩
  case issue =>
    intro s q hst hw ha ht hf
    have haside := (aside_countFetch s q).trans (aside_observeWaits _ q)
    have hfree := takesPort_free ht
    refine ⟨_, exec_clauseIssue hst hw ha ht hf, rfl, (observeWaits_mem ..).trans (countFetch_mem ..), ?_, ?_, hfree,
      (portsHeld_setCur haside _ _ _).trans hfree⟩
    · exact (setSlot_sregs ..).trans (congrArg Group.sregs haside.g)
    · exact (setSlot_vregs ..).trans (congrArg Group.vregs haside.g)
  case faults =>
    have hraises {r : Raise} (hst : (cur s).stand = .arrived ∨ (cur s).stand = .header) (ha : arrive? s (cur s) = .error r) :=
      exec_clauseIssue_of_error hst (wantsPort_of_error hst hc hh ha) ha
    refine ⟨fun hst h => hraises (.inl hst) (arrive?_of_no_header hf hst h),
      fun hst hal hm hbad => hraises (.inl hst) (arrive?_of_malformed hf (fun _ => ⟨hal, hm⟩) hbad),
      fun hst hbad => hraises (.inr hst) (arrive?_of_malformed hf (fun h => ?_) hbad)⟩
    rw [hst] at h
    cases h

end Sys2Proof.Machine
end

section
/-!
PROOFS. The background jobs of a binding (R152 to R154, R397, R403): what transcode and unbind make of one block, how a job goes from
block to block, and its end.
-/
namespace Sys2Proof.Machine

/-! ### One block of a job -/

theorem holdsPoison_eq_false_iff {s : State} {pa : Nat} :
    holdsPoison s pa = false ↔ ∀ y, mget? s.cache pa = some y → y.poison = [] := by
  unfold holdsPoison
  cases mget? s.cache pa <;> simp

/-- The cache holds the block, if at all, as memory has it. -/
theorem cachedDirty_eq_false_iff {s : State} {pa : Nat} :
    (mget? s.cache pa).any (·.dirty) = false ↔ ∀ y, mget? s.cache pa = some y → y.dirty = false := by
  cases mget? s.cache pa <;> simp

theorem transcodeOne_cases (s : State) (slot : Nat) (sl : Sluice) (pa va : Nat) :
    let v := finishEncodes s pa (pa + sl.bs)
    let b := visitBlock v sl pa va
    let passes : Prop := isCurrent v sl pa = true ∧ ∀ y, mget? v.cache pa = some y → y.poison = []
    (passes → transcodeOne s slot sl pa va = countMeta v sl pa)
    ∧ (¬ passes → transcodeOne s slot sl pa va =
        onBinding (markClean (storeBlock b.1 slot sl pa va b.2.1 b.2.2) pa) slot fun y =>
          { y with tcDone := min (y.tcDone + 1) 0xffffffff }) := by
  intro v b passes
  have htest : (isCurrent v sl pa && !holdsPoison v pa) = true ↔ passes := by
    rw [Bool.and_eq_true, Bool.not_eq_true', holdsPoison_eq_false_iff]
  exact ⟨fun h => if_pos (htest.mpr h), fun h => if_neg (htest.not.mpr h)⟩

theorem unbindOne_cases (s : State) (sl : Sluice) (pa va : Nat) :
    let v := finishEncodes s pa (pa + sl.bs)
    let b := visitBlock v sl pa va
    let clean : Prop := (∀ y, mget? v.cache pa = some y → y.dirty = false ∧ y.poison = []) ∧ isRaw v sl pa = true
    (clean → unbindOne s sl pa va = countMeta v sl pa)
    ∧ (¬ clean → unbindOne s sl pa va = markClean (storeRaw b.1 sl pa va b.2.1 b.2.2) pa) := by
  intro v b clean
  have htest : (!(mget? v.cache pa).any (·.dirty) && !holdsPoison v pa && isRaw v sl pa) = true ↔ clean := by
    rw [Bool.and_eq_true, Bool.and_eq_true, Bool.not_eq_true', Bool.not_eq_true', holdsPoison_eq_false_iff, cachedDirty_eq_false_iff,
      ← forall₂_and]
  exact ⟨fun h => if_pos (htest.mpr h), fun h => if_neg (htest.not.mpr h)⟩

/-! ### From block to block -/

section next
variable {s : State} {slot : Nat} {sl : Sluice} {one : State → Nat → Nat → State}

theorem nextBlock_leaf {pa : Nat} {x w r : Bool} (h : walk s s.vd (sl.base + sl.bs * sl.cursor) = .leaf pa false x w r) :
    nextBlock s slot sl one =
      onBinding (one s pa (sl.base + sl.bs * sl.cursor)) slot fun b => { b with cursor := b.cursor + 1 } := by
  unfold nextBlock
  dsimp only
  rw [h]

theorem nextBlock_poisoned {at_ : Nat} (h : walk s s.vd (sl.base + sl.bs * sl.cursor) = .poisoned at_) :
    nextBlock s slot sl one = repairTable s at_ := by
  unfold nextBlock
  dsimp only
  rw [h]

/-- A block whose page is not in local memory is passed. -/
theorem nextBlock_elsewhere (hl : ∀ (pa : Nat) (x w r : Bool), walk s s.vd (sl.base + sl.bs * sl.cursor) ≠ .leaf pa false x w r)
    (hp : ∀ at_, walk s s.vd (sl.base + sl.bs * sl.cursor) ≠ .poisoned at_) :
    nextBlock s slot sl one = onBinding s slot fun b => { b with cursor := b.cursor + 1 } := by
  unfold nextBlock
  dsimp only
  split
  · next h => exact (hl _ _ _ _ h).elim
  · next h => exact (hp _ h).elim
  · rfl

end next

/-! ### Bindings stay in order while blocks are stored -/

theorem onBinding_of_some {s : State} {slot : Nat} {sl : Sluice} (hb : mget? s.vd.bindings slot = some sl) (f : Sluice → Sluice) :
    onBinding s slot f = { s with vd := { s.vd with bindings := mins s.vd.bindings slot (f sl) } } := by
  unfold onBinding
  rw [hb]

/-- The bindings of the device in focus are in the order of their slots. -/
def BindingsRise (s : State) : Prop := mrising s.vd.bindings = true

section rise
variable {s : State} (h : BindingsRise s)
include h

theorem BindingsRise.same {t : State} (hst : SameDevice s t) : BindingsRise t := by
  have hb : t.vd.bindings = s.vd.bindings := (congrArg Device.bindings hst :)
  rw [BindingsRise, hb]
  exact h

theorem BindingsRise.foldl {α : Type} {f : State → α → State} (hf : ∀ t x, BindingsRise t → BindingsRise (f t x)) (l : List α) :
    BindingsRise (l.foldl f s) :=
  List.foldlRecOn l f (motive := BindingsRise) h fun t ht x _ => hf t x ht

theorem BindingsRise.onBinding (slot : Nat) (f : Sluice → Sluice) : BindingsRise (onBinding s slot f) := by
  unfold Machine.onBinding
  split
  · exact mrising_mins _ _ h
  · exact h

end rise

theorem sameDevice_putBytes (s : State) (pa : Nat) (bs : List Byte) : SameDevice s (putBytes s pa bs) := by
  obtain ⟨m, p, k, h⟩ := putMains_frame s ((List.range bs.length).map fun i => (pa + i, bs.getD i 0))
  exact .of_eq (by rw [putBytes, h])

theorem sameDevice_addPoison (s : State) (pa : Nat) : SameDevice s (addPoison s pa) :=
  (sameDevice_clearSpan s _).trans (.of_eq rfl)

theorem sameDevice_storeSlot (s : State) (sl : Sluice) (pa va : Nat) (bs : List Byte) (w : BitVec 16) :
    SameDevice s (storeSlot s sl pa va bs w) :=
  ((sameDevice_putBytes s _ _).trans (sameDevice_putBytes _ _ _)).trans (sameDevice_meter _ _ _)

theorem sameDevice_storeRaw (s : State) (sl : Sluice) (pa va : Nat) (plain : List Byte) (poison : List Nat) :
    SameDevice s (storeRaw s sl pa va plain poison) :=
  (sameDevice_storeSlot s sl pa va plain _).trans (SameDevice.foldl _ (fun s _ => sameDevice_addPoison s _) _ _)

theorem sameDevice_dropRun (s : State) (pa : Nat) : SameDevice s (dropRun s pa) := .of_eq rfl

theorem sameDevice_leaveClean (s : State) (pa : Nat) : SameDevice s (leaveClean s pa) := by
  unfold leaveClean
  split
  · split
    · exact .rfl' s
    · exact .of_eq rfl
  · exact .rfl' s

theorem sameDevice_startEncode (s : State) (e : Nat) : SameDevice s (startEncode s e) := by
  unfold startEncode addRun
  split
  · exact .rfl' s
  · split
    · split
      · split <;> exact .of_eq rfl
      · exact .rfl' s
    · exact .rfl' s

section stores
variable {s : State} (h : BindingsRise s)
include h

theorem BindingsRise.storeEncoded {slot sl pa va e n} : BindingsRise (storeEncoded s slot sl pa va e n) :=
  ((h.same (sameDevice_storeSlot ..)).onBinding slot _).same (sameDevice_meter ..)

theorem BindingsRise.storeBlock {slot sl pa va plain poison} : BindingsRise (storeBlock s slot sl pa va plain poison) := by
  unfold Machine.storeBlock
  split
  · exact h.same (sameDevice_storeRaw ..)
  · exact h.storeEncoded

theorem BindingsRise.finishEncode (x : Encode) : BindingsRise (finishEncode s x) := by
  have hs : BindingsRise { s with encodes := s.encodes.filter fun e => !(e.vd == x.vd && e.pa == x.pa) } := h
  unfold Machine.finishEncode
  dsimp only
  refine ((BindingsRise.same ?_ (sameDevice_dropRun _ _)).same (sameDevice_leaveClean _ _)).same (sameDevice_startEncode _ _)
  split
  · split
    · split
      · exact hs.storeBlock
      · exact hs.storeEncoded
    · exact hs.storeBlock
  · exact hs.same (sameDevice_putBytes ..)

theorem BindingsRise.finishWhere (p : Encode → Bool) : BindingsRise (finishWhere s p) := h.foldl (fun _ x h => h.finishEncode x) _

theorem BindingsRise.releaseBlocks (sl : Sluice) : BindingsRise (releaseBlocks s sl) := by
  refine h.foldl (fun t e ht => ?_) _
  dsimp only
  split
  · exact (ht.same (sameDevice_storeRaw ..)).same (.of_eq rfl)
  · exact ht

end stores

/-! ### The jobs of the device in focus -/

section jobs
variable {s u : State} {n slot : Nat} {sl : Sluice} (hu : deviceOnly s n = some u) (hb : mget? u.vd.bindings slot = some sl)
include hu hb

theorem exec_transcodeBlock (htc : sl.tc = true) (hl : sl.bs * sl.cursor < sl.len) :
    exec (.transcodeBlock n slot) s = .next (nextBlock u slot sl fun s => transcodeOne s slot sl) := by
  show execTranscodeBlock n slot s = _
  simp only [execTranscodeBlock, hu, hb, Option.bind_some, if_pos (And.intro htc hl)]
  rfl

theorem exec_unbindBlock (hun : sl.unbinding = true) (htc : sl.tc = false) (hl : sl.bs * sl.cursor < sl.len) :
    exec (.unbindBlock n slot) s = .next (nextBlock u slot sl fun s => unbindOne s sl) := by
  have hmay : sl.unbinding = true ∧ (!sl.tc) = true ∧ sl.bs * sl.cursor < sl.len := ⟨hun, by rw [htc]; rfl, hl⟩
  show execUnbindBlock n slot s = _
  simp only [execUnbindBlock, hu, hb, Option.bind_some, if_pos hmay]
  rfl

/-- What the last block of transcode leaves (R152): one pair, and a handle that says done. -/
theorem exec_transcodeEnd (htc : sl.tc = true) (hl : sl.len ≤ sl.bs * sl.cursor) :
    let done : Sluice := { sl with tc := false, oldEnc := ([], []), oldDec := ([], []), cursor := 0 }
    exec (.transcodeEnd n slot) s = .next { u with
      vd := resolve { u.vd with bindings := mins u.vd.bindings slot done } sl.handle 0x40000000 } := by
  have hstatus : statusWord 1 false false false false 0 = 0x40000000 := by decide
  show execTranscodeEnd n slot s = _
  simp only [execTranscodeEnd, hu, hb, Option.bind_some, if_pos (And.intro htc (ge_iff_le.mpr hl)), onBinding_of_some hb, hstatus]
  rfl

/-- The state that the end of unbind leaves (R154): the blocks of the region have left the cache and the engines, and the slot is free. -/
theorem exec_unbindEnd (hun : sl.unbinding = true) (htc : sl.tc = false) (hl : sl.len ≤ sl.bs * sl.cursor) :
    let v := releaseBlocks (finishWhere u fun e => decide (sl.base ≤ e.va) && decide (e.va < sl.base + sl.len)) sl
    exec (.unbindEnd n slot) s = .next { v with
      vd := resolve { v.vd with bindings := mdel v.vd.bindings slot } sl.unHandle 0x40000000 } := by
  have hmay : sl.unbinding = true ∧ (!sl.tc) = true ∧ sl.bs * sl.cursor ≥ sl.len := ⟨hun, by rw [htc]; rfl, hl⟩
  have hstatus : statusWord 1 false false false false 0 = 0x40000000 := by decide
  show execUnbindEnd n slot s = _
  simp only [execUnbindEnd, hu, hb, Option.bind_some, if_pos hmay, hstatus]
  rfl

end jobs

/-- Settles O51: a job makes of each block what its walk says, and its end is one state. -/
theorem backgroundJobs : Obligations.BackgroundJobs := by
  intro s u n slot sl hu hb _ va on
  refine ⟨fun htc hl => ?transcodes, fun htc hl => ?transcoded, fun hun htc hl => ?unbinds, fun hun htc hl hrise => ?unbound⟩
  case transcodes =>
    rw [exec_transcodeBlock hu hb htc hl]
    refine ⟨fun pa x w r hw => ?_, fun at_ hw => congrArg _ (nextBlock_poisoned hw), fun hleaf hp => congrArg _ (nextBlock_elsewhere hleaf hp)⟩
    rw [nextBlock_leaf hw]
    obtain ⟨hpasses, hstores⟩ := transcodeOne_cases u slot sl pa va
    exact ⟨fun h => congrArg (Host.Outcome.next ∘ on) (hpasses h), fun h => congrArg (Host.Outcome.next ∘ on) (hstores h)⟩
  case unbinds =>
    rw [exec_unbindBlock hu hb hun htc hl]
    refine ⟨fun pa x w r hw => ?_, fun at_ hw => congrArg _ (nextBlock_poisoned hw), fun hleaf hp => congrArg _ (nextBlock_elsewhere hleaf hp)⟩
    rw [nextBlock_leaf hw]
    obtain ⟨hpasses, hstores⟩ := unbindOne_cases u sl pa va
    exact ⟨fun h => congrArg (Host.Outcome.next ∘ on) (hpasses h), fun h => congrArg (Host.Outcome.next ∘ on) (hstores h)⟩
  case transcoded =>
    have hmem : u.mem = s.mem := deviceOnly_mem hu
    exact ⟨_, _, exec_transcodeEnd hu hb htc hl, mget?_mins_same _ slot _, rfl, rfl, rfl, rfl, rfl, rfl, rfl, hmem⟩
  case unbound =>
    have hrise' := (BindingsRise.finishWhere hrise fun e => decide (sl.base ≤ e.va) && decide (e.va < sl.base + sl.len)).releaseBlocks sl
    exact ⟨_, exec_unbindEnd hu hb hun htc hl, mget?_mdel_same hrise' slot, rfl⟩

end Sys2Proof.Machine
end

section
/-!
PROOFS. Sluice programs (R155 to R158): what each instruction makes of the run, by the lemmas on registers, cursors, branches and
output; a step with its cost and its budget; and the bound on a run's steps.
-/
namespace Sys2Proof.Machine

/-! ### What an instruction leaves of a run -/

/-- The run without its registers, cursors, pc and end: what no instruction's effect changes. -/
def Run.fixed (r : Run) : Run := { r with k := [], c := 0, out := [], pc := 0, fin := .running }

theorem fixed_put (r : Run) (n : BitVec 4) (x : BitVec 16) : (r.put n x).fixed = r.fixed := rfl
theorem fixed_branch (r : Run) (b : Bool) (o : BitVec 15) : (r.branch b o).fixed = r.fixed := rfl

theorem fixed_emit (r : Run) (bs : List Byte) : (r.emit bs).fixed = r.fixed := by
  unfold Run.emit
  split <;> rfl

theorem fixed_of_ite {p : Prop} [Decidable p] {a b r : Run} (ha : a.fixed = r.fixed) (hb : b.fixed = r.fixed) :
    (if p then a else b).fixed = r.fixed := by
  split
  · exact ha
  · exact hb

theorem fixed_sluiceEffect (i : Instr) (r : Run) : (sluiceEffect i r).fixed = r.fixed := by
  cases i with
  | sluicePut | sluicePutw | sluicePutn => exact fixed_emit ..
  | sluiceGet | sluiceGetw | sluiceCopyBack => exact fixed_of_ite rfl rfl
  | sluiceCopy => exact fixed_of_ite rfl (fixed_emit ..)
  | _ => rfl

theorem sluiceEffect_words (i : Instr) (r : Run) : (sluiceEffect i r).words = r.words :=
  (congrArg Run.words (fixed_sluiceEffect i r) :)

theorem sluiceStep_steps (i : Instr) (r : Run) : (sluiceStep i r).steps = r.steps + sluiceCost i r := by
  unfold sluiceStep
  dsimp only
  split <;> rfl

theorem sluiceStep_bs (i : Instr) (r : Run) : (sluiceStep i r).bs = r.bs := by
  have hbs : (sluiceEffect i r).bs = r.bs := (congrArg Run.bs (fixed_sluiceEffect i r) :)
  unfold sluiceStep
  dsimp only
  split <;> exact hbs

/-! ### A step of the run in progress -/

@[simp] theorem meterSteps_run (s : State) (n : Nat) : (meterSteps s n).run = s.run := by
  unfold meterSteps onDevice
  split <;> rfl

/-- The run ends by a fault where its pc is past the last of `n` words (R157). -/
def Run.checked (n : Nat) (r : Run) : Run := if r.fin = .running ∧ n ≤ r.pc then { r with fin := .faulted } else r

theorem sluiceStep_eq (i : Instr) (r : Run) :
    sluiceStep i r = Run.checked r.words.length { sluiceEffect i r with steps := r.steps + sluiceCost i r } := by
  unfold sluiceStep Run.checked
  dsimp only
  rw [sluiceEffect_words]
  rfl

/-- The instruction is executed, within the budget, at a cost and with an effect on the run. -/
def Does (s : State) (i : Instr) (cost : Nat) (r' : Run) : Prop :=
  s.run.steps + cost ≤ 8 * s.run.bs + 64 →
    exec i s = .next (meterSteps { s with run := Run.checked s.run.words.length { r' with steps := s.run.steps + cost } } cost)

theorem does_of_effect {s : State} {i : Instr} {cost : Nat} {r' : Run} (hx : exec i s = sluiceRun i s) (hrun : s.run.fin = .running)
    (hc : sluiceCost i s.run = cost) (he : sluiceEffect i s.run = r') : Does s i cost r' := by
  intro hle
  have hmay : (s.run.fin == .running && !s.run.overBudget i) = true := by
    rw [hrun, Run.overBudget, hc, Run.budget, decide_eq_false (by omega)]
    rfl
  rw [hx, sluiceRun, may_of_true hmay, sluiceStep_eq, hc, he]

/-! ### Registers, input and output (R156) -/

theorem inByte_eq (r : Run) (i : Nat) : r.inByte i = (r.input.getD i 0).setWidth 16 := BitVec.ofNat_toNat ..

theorem imm16_eq (j : BitVec 14) : imm16 j = j.setWidth 16 := BitVec.ofNat_toNat ..

/-- A 16-bit value from its bytes, the low one first. -/
theorem inWord_eq (r : Run) (i : Nat) : r.inByte i + 256 * r.inByte (i + 1) = r.input.getD (i + 1) 0 ++ r.input.getD i 0 := by
  rw [inByte_eq, inByte_eq]
  generalize r.input.getD i 0 = lo
  generalize r.input.getD (i + 1) 0 = hi
  apply BitVec.eq_of_toNat_eq
  have hlo := lo.isLt
  have hhi := hi.isLt
  rw [BitVec.toNat_append, ← Nat.shiftLeft_add_eq_or_of_lt hlo, Nat.shiftLeft_eq]
  simp
  omega

theorem leBytes_two (x : BitVec 16) : leBytes 2 x.toNat = [x.setWidth 8, (x >>> 8).setWidth 8] := by
  have hhi : BitVec.ofNat 8 (x.toNat / 256) = (x >>> 8).setWidth 8 := BitVec.eq_of_toNat_eq (by simp [Nat.shiftRight_eq_div_pow])
  simp only [leBytes, BitVec.ofNat_toNat, hhi]

/-- A shift of 16 places or more leaves nothing. -/
theorem sluiceAlu_shl (x y : BitVec 16) : sluiceAlu 16 x y = x <<< y.toNat := by
  show (if y.toNat ≥ 16 then 0 else x <<< y.toNat) = _
  split
  · next h => exact (BitVec.shiftLeft_eq_zero h).symm
  · rfl

theorem sluiceAlu_shr (x y : BitVec 16) : sluiceAlu 17 x y = x >>> y.toNat := by
  show (if y.toNat ≥ 16 then 0 else x >>> y.toNat) = _
  split
  · next h => exact (BitVec.ushiftRight_eq_zero h).symm
  · rfl

theorem emit_fits {r : Run} {bs : List Byte} (h : r.out.length + bs.length ≤ r.bs) :
    r.emit bs = { r with out := r.out ++ bs, pc := r.pc + 1 } := if_neg (by omega)

theorem emit_full {r : Run} {bs : List Byte} (h : r.bs < r.out.length + bs.length) : r.emit bs = r.fault := if_pos h

/-- The bytes that repeat go on from those that are there, each like the byte `back` places before it. -/
theorem backBytes_eq_append {back : Nat} (hb : 1 ≤ back) (n : Nat) (out : List Byte) (ho : back ≤ out.length) :
    ∃ bs, backBytes n out back = out ++ bs ∧ bs.length = n
      ∧ ∀ k < n, (out ++ bs)[out.length + k]? = (out ++ bs)[out.length + k - back]? := by
  induction n generalizing out with
  | zero => exact ⟨[], (List.append_nil out).symm, rfl, fun k hk => absurd hk (Nat.not_lt_zero k)⟩
  | succ n ih =>
    have hlen : (out ++ [out.getD (out.length - back) 0]).length = out.length + 1 := List.length_append
    obtain ⟨bs, hbs, hn, hrep⟩ := ih (out ++ [out.getD (out.length - back) 0]) (by omega)
    rw [hlen, List.append_assoc] at hrep
    refine ⟨out.getD (out.length - back) 0 :: bs, hbs.trans (List.append_assoc ..), congrArg (· + 1) hn, fun k hk => ?_⟩
    cases k with
    | zero =>
      have hin : out.length - back < out.length := by omega
      rw [Nat.add_zero, List.getElem?_append_right (Nat.le_refl _), List.getElem?_append_left hin]
      simp [List.getD_eq_getElem?_getD, hin]
    | succ k =>
      have h := hrep k (by omega)
      rwa [Nat.add_right_comm, Nat.add_assoc] at h

/-! ### Each instruction's effect (R156) -/

section effects
variable {r : Run} {d a b : BitVec 4}

theorem effect_get (h : 1 ≤ r.input.length - r.c) :
    sluiceEffect (.sluiceGet d) r = { r.put d ((r.input.getD r.c 0).setWidth 16) with c := r.c + 1 } := by
  rw [← inByte_eq]
  exact if_neg (by omega)

theorem effect_get_empty (h : r.input.length - r.c = 0) : sluiceEffect (.sluiceGet d) r = r.fault := if_pos (by omega)

theorem effect_peek (n : BitVec 15) : sluiceEffect (.sluicePeek d n) r =
    r.put d (if n.toNat < r.input.length - r.c then (r.input.getD (r.c + n.toNat) 0).setWidth 16 else 0) := by
  have hin : r.c + n.toNat < r.input.length ↔ n.toNat < r.input.length - r.c := by omega
  rw [← inByte_eq, ← if_congr hin rfl rfl]
  rfl

theorem effect_getw (h : 2 ≤ r.input.length - r.c) :
    sluiceEffect (.sluiceGetw d) r = { r.put d (r.input.getD (r.c + 1) 0 ++ r.input.getD r.c 0) with c := r.c + 2 } := by
  rw [← inWord_eq]
  exact if_neg (by omega)

theorem effect_getw_short (h : r.input.length - r.c < 2) : sluiceEffect (.sluiceGetw d) r = r.fault := if_pos (by omega)

theorem effect_put : sluiceEffect (.sluicePut a) r = r.emit [(r.reg a).setWidth 8] :=
  congrArg (fun x => r.emit [x]) (BitVec.ofNat_toNat ..)

theorem effect_putw : sluiceEffect (.sluicePutw a) r = r.emit [(r.reg a).setWidth 8, (r.reg a >>> 8).setWidth 8] :=
  congrArg r.emit (leBytes_two _)

theorem effect_putn : sluiceEffect (.sluicePutn a b) r = r.emit (List.replicate (r.reg b).toNat ((r.reg a).setWidth 8)) :=
  congrArg (fun x => r.emit (List.replicate _ x)) (BitVec.ofNat_toNat ..)

theorem effect_copy (hin : (r.reg b).toNat ≤ r.input.length - r.c) (hc : r.c ≤ r.input.length)
    (hout : r.out.length + (r.reg b).toNat ≤ r.bs) : sluiceEffect (.sluiceCopy b) r =
      { r with out := r.out ++ (r.input.drop r.c).take (r.reg b).toNat, pc := r.pc + 1, c := r.c + (r.reg b).toNat } := by
  have hlen : ((r.input.drop r.c).take (r.reg b).toNat).length = (r.reg b).toNat := by simpa using hin
  refine (if_neg (by omega)).trans ?_
  rw [emit_fits (by omega), if_neg (by omega)]

theorem effect_copy_fault (hc : r.c ≤ r.input.length)
    (h : r.input.length - r.c < (r.reg b).toNat ∨ r.bs < r.out.length + (r.reg b).toNat) :
    sluiceEffect (.sluiceCopy b) r = r.fault := by
  by_cases hin : r.c + (r.reg b).toNat > r.input.length
  · exact if_pos hin
  · have hout : r.bs < r.out.length + (r.reg b).toNat := h.resolve_left (by omega)
    have hlen : ((r.input.drop r.c).take (r.reg b).toNat).length = (r.reg b).toNat := by simp; omega
    refine (if_neg hin).trans ?_
    rw [emit_full (by omega), if_pos hout]
    rfl

theorem effect_copyBack (h1 : 1 ≤ (r.reg a).toNat) (hback : (r.reg a).toNat ≤ r.out.length)
    (hout : r.out.length + (r.reg b).toNat ≤ r.bs) : sluiceEffect (.sluiceCopyBack a b) r =
      { r with out := backBytes (r.reg b).toNat r.out (r.reg a).toNat, pc := r.pc + 1 } := if_neg (by omega)

theorem effect_copyBack_fault (h : r.reg a = 0 ∨ r.out.length < (r.reg a).toNat ∨ r.bs < r.out.length + (r.reg b).toNat) :
    sluiceEffect (.sluiceCopyBack a b) r = r.fault :=
  if_pos (h.imp_left fun h0 => by rw [h0]; rfl)

/-- R156: K counts down, and the branch is taken until it is 0. -/
theorem effect_loop (o : BitVec 15) (h : r.reg d - 1 ≠ 0) : sluiceEffect (.sluiceLoop d o) r =
    { r with k := setAt r.k d.toNat (r.reg d - 1), pc := (r.pc + o.toInt).toNat } := by
  have htaken : (r.reg d - 1 != 0) = true := bne_iff_ne.mpr h
  show { r.branch (r.reg d - 1 != 0) o with k := setAt r.k d.toNat (r.reg d - 1) } = _
  rw [htaken]
  rfl

theorem effect_loop_end (o : BitVec 15) (h : r.reg d - 1 = 0) : sluiceEffect (.sluiceLoop d o) r = r.put d 0 := by
  show { r.branch (r.reg d - 1 != 0) o with k := setAt r.k d.toNat (r.reg d - 1) } = _
  rw [h]
  rfl

theorem effect_tbl : sluiceEffect (.sluiceTbl d a) r = r.put d ((r.table.getD ((r.reg a).toNat % 256) 0).setWidth 16) :=
  congrArg (r.put d) (BitVec.ofNat_toNat ..)

theorem effect_movi (n : BitVec 15) : sluiceEffect (.sluiceMovi d n) r = r.put d (n.setWidth 16) :=
  congrArg (r.put d) (BitVec.ofNat_toNat ..)

theorem branch_taken {taken : Bool} (o : BitVec 15) (h : taken = true) : r.branch taken o = { r with pc := (r.pc + o.toInt).toNat } := by
  rw [h]
  rfl

theorem branch_not_taken {taken : Bool} (o : BitVec 15) (h : taken = false) : r.branch taken o = { r with pc := r.pc + 1 } := by
  rw [h]
  rfl

end effects

/-- Settles O43: the effect of each instruction, with its cost and the check of the next pc around it. -/
theorem sluiceInstructions : Obligations.SluiceInstructions := by
  refine ⟨fun s d a b n o j hrun => ?_, fun s d a hrun hlast hsteps => ?_⟩
  · intro r x y next left stray does faults sets emits alu goes
    have hdoes {i : Instr} {cost : Nat} {r' : Run} (hx : exec i s = sluiceRun i s) (hc : sluiceCost i r = cost)
        (he : sluiceEffect i r = r') : does i cost r' := does_of_effect hx hrun hc he
    have halu {v w : Instr} {f : BitVec 16 → BitVec 16 → BitVec 16} {op : Nat} (hv : exec v s = sluiceRun v s)
        (hw : exec w s = sluiceRun w s) (hcv : sluiceCost v r = 1) (hcw : sluiceCost w r = 1)
        (hev : sluiceEffect v r = r.put d (sluiceAlu op x y)) (hew : sluiceEffect w r = r.put d (sluiceAlu op x (imm16 j)))
        (hf : ∀ p q, sluiceAlu op p q = f p q) : alu v w f := by
      rw [hf] at hev hew
      rw [imm16_eq] at hew
      exact ⟨hdoes hv hcv hev, hdoes hw hcw hew⟩
    have hgoes {i : Instr} {p : Prop} {t : Bool} (hx : exec i s = sluiceRun i s) (hc : sluiceCost i r = 1)
        (he : sluiceEffect i r = r.branch t o) (ht : t = true ↔ p) : goes i p :=
      ⟨fun hp => hdoes hx hc (he.trans (branch_taken o (ht.mpr hp))),
        fun hp => hdoes hx hc (he.trans (branch_not_taken o (Bool.eq_false_iff.mpr (ht.not.mpr hp))))⟩
    refine ⟨hdoes rfl rfl rfl, hdoes rfl rfl rfl,
      fun h => hdoes rfl rfl (effect_get h), fun h => hdoes rfl rfl (effect_get_empty h),
      hdoes rfl rfl (effect_peek n),
      fun h => hdoes rfl rfl (effect_getw h), fun h => hdoes rfl rfl (effect_getw_short h),
      fun h => hdoes rfl rfl (effect_put.trans (emit_fits h)), fun h => hdoes rfl rfl (effect_put.trans (emit_full h)),
      fun h => hdoes rfl rfl (effect_putw.trans (emit_fits h)), fun h => hdoes rfl rfl (effect_putw.trans (emit_full h)),
      fun h => hdoes rfl rfl (effect_putn.trans (emit_fits ?fits)), fun h => hdoes rfl rfl (effect_putn.trans (emit_full ?full)),
      fun hc hin hout => hdoes rfl rfl (effect_copy hin hc hout), fun hc h => hdoes rfl rfl (effect_copy_fault hc h),
      ?copyBack, fun h => hdoes rfl rfl (effect_copyBack_fault h),
      hdoes rfl rfl (effect_movi n), hdoes rfl rfl rfl,
      ?add, ?sub, ?and, ?or, ?xor,
      halu rfl rfl rfl rfl rfl rfl sluiceAlu_shl, halu rfl rfl rfl rfl rfl rfl sluiceAlu_shr,
      hgoes rfl rfl rfl beq_iff_eq, hgoes rfl rfl rfl bne_iff_ne, hgoes rfl rfl rfl decide_eq_true_iff,
      hgoes rfl rfl rfl (decide_eq_true_iff.trans (by omega)), hgoes rfl rfl rfl (iff_of_true rfl trivial),
      ?loop, hdoes rfl rfl effect_tbl⟩
    case fits | full => rwa [List.length_replicate]
    case copyBack =>
      intro h1 hback hout
      obtain ⟨bs, hbs, hlen, hrep⟩ := backBytes_eq_append h1 y.toNat r.out hback
      refine ⟨bs, hlen, hrep, hdoes rfl rfl ((effect_copyBack h1 hback hout).trans ?_)⟩
      rw [hbs]
    case add | sub | and | or | xor => exact halu rfl rfl rfl rfl rfl rfl fun _ _ => rfl
    case loop => exact ⟨fun h => hdoes rfl rfl (effect_loop o h), fun h => hdoes rfl rfl (effect_loop_end o h)⟩
  · have hstep : Does s (.sluiceMov d a) 1 (s.run.put d (s.run.reg a)) := does_of_effect rfl hrun rfl rfl
    refine ⟨_, hstep hsteps, ?_⟩
    rw [meterSteps_run, Run.checked, if_pos ⟨hrun, hlast.ge⟩]

/-! ### The budget of a run (R158) -/

theorem finish_steps_le (n : Nat) (r : Run) (h : r.steps ≤ 8 * r.bs + 64) : (r.finish n).steps ≤ 8 * r.bs + 64 := by
  induction n generalizing r with
  | zero => exact h
  | succ n ih =>
    unfold Run.finish
    split
    · split <;> exact h
    · next i _ =>
      split
      · exact h
      · next hbudget =>
        have hle : r.steps + sluiceCost i r ≤ 8 * r.bs + 64 := by
          simpa [Run.overBudget, Run.budget] using hbudget
        have hstep := ih (sluiceStep i r)
        rw [sluiceStep_steps, sluiceStep_bs] at hstep
        exact hstep hle

/-- Settles O44: an engine that meets an instruction over the budget ends the run by a fault, and so each run's steps are bounded. -/
theorem sluiceBudget : Obligations.SluiceBudget := by
  refine ⟨finish_steps_le, fun s i hi hover => ?_, fun _ _ _ _ => rfl⟩
  have hstops : exec .sluiceStepBudget s = .next { s with run := s.run.fault } := by
    show execSluiceStepBudget s = _
    rw [execSluiceStepBudget, hi]
    exact may_of_true (decide_eq_true hover) _
  refine ⟨?_, hstops⟩
  rw [sluiceMove, hi]
  exact (if_pos (decide_eq_true hover)).trans hstops

end Sys2Proof.Machine
end

section
/-!
PROOFS. The words of `mov` with a literal of type f32 (R212, R245): the decoder accepts either value of the M bit, and the instruction
keeps neither, so that two words are the same instruction.
-/
namespace Sys2Proof

/-- `mov.f32 v0, 0` in its I form with the M bit set, which says dyn (R212). -/
def dynMovWord : Dword := 0x35e007ff00000000

theorem decodeWord_dynMov : decodeWord Budget.full 0 dynMovWord.toNat = .ok (.movI .f32 (.v 0) 0) := by decide

/-- The encoder leaves the M bit clear. -/
theorem encode_movI_ne_dynMov : encode (.movI .f32 (.v 0) 0) ≠ some dynMovWord := by decide

/-- Refutes O56: the word of `mov.f32` with the M bit set decodes to the instruction whose encoding has it clear. -/
theorem not_wordsHaveOneMeaning : ¬ Obligations.WordsHaveOneMeaning := by
  rintro ⟨hwords, -⟩
  obtain ⟨-, -, henc⟩ := hwords Budget.full 0 dynMovWord _ decodeWord_dynMov
  exact encode_movI_ne_dynMov henc

end Sys2Proof
end

section
/-!
PROOFS. O35: what a quad makes of the commands that its groups have offered, and the queueing of `mzero`.
-/
namespace Sys2Proof.Machine

/-! ### What the members of a quad do once all of them may have offered (R309, R382, R394) -/

/-- Every group of a list meets a change of the machine by its reference. -/
def inEach (f : State → GRef → State) (gs : List Group) (s : State) : State := gs.foldl (fun t x => f t x.ref) s

/-- The pass of the quad of the group in focus by words M0 to M2. -/
def quadPass (here : State) (w : Word × Word × Word) : Pass :=
  newPass here here.g.role (here.g.idx / 4) [0, 1, 2, 3] w.1 w.2.1 w.2.2 none 0

/-- The pass is queued, with the stores of its groups performed, and is in flight in each of them. -/
def acceptPass (i : Instr) (here : State) (p : Pass) (gs : List Group) : State :=
  inEach (acceptGroup i (coreIdx here here.g.core) p.serial) gs
    (queuePass (inEach (fun t r => withGroup t r drainStores) gs here) (coreIdx here here.g.core) p)

/-- The answer to four commands of the same words, given whether each passes R309 in its form. -/
def passOutcome (i : Instr) (here : State) (p : Pass) (gs : List Group) (forms : Bool) : Out :=
  if forms && (listPoison here p).isSome then
    .next (inEach (fun t r => matrixRaise t r (poisonRaise .sh 0 ((listPoison here p).getD 0) [])) gs here)
  else if !(forms && passOk here p) then .next (inEach (matrixFault · · 3) gs here)
  else if sequencersFull here (coreIdx here here.g.core) [0, 1, 2, 3] then .next (pauseAs here .pass)
  else .next (acceptPass i here p gs)

/-- The answer to what the members of a complete quad have offered; `w` are the words of the group in focus, and `cmd` stands
for a command where none is offered, which no outcome shows. -/
def quadOutcome (i : Instr) (here : State) (w : Word × Word × Word) (cmd : Bool × Word × Word × Word) (gs : List Group) : Out :=
  if gs.any fun x => x.offered.isNone then .next here
  else if gs.any fun x => x.offered.map (·.2) != some w then .next (inEach (matrixFault · · 2) gs here)
  else passOutcome i here (quadPass here w) gs (gs.all fun x => commandOk here (x.offered.getD cmd).1 w.2.1 w.2.2)

section outcome
variable {i : Instr} {here : State} {p : Pass} {gs : List Group} {c cmd : Bool × Word × Word × Word}

theorem quadOutcome_of_waiting (h : ∃ x ∈ gs, x.offered = none) : quadOutcome i here c.2 cmd gs = .next here := by
  obtain ⟨x, hx, hnone⟩ := h
  exact if_pos (List.any_eq_true.mpr ⟨x, hx, by rw [hnone]; rfl⟩)

theorem not_any_isNone (h : ∀ x ∈ gs, x.offered ≠ none) : ¬ (gs.any fun x => x.offered.isNone) = true := by
  rw [List.any_eq_true]
  rintro ⟨x, hx, hnone⟩
  exact h x hx (Option.isNone_iff_eq_none.mp hnone)

theorem quadOutcome_of_words_differ (hall : ∀ x ∈ gs, x.offered ≠ none) (h : ∃ x ∈ gs, x.offered.map (·.2) ≠ some c.2) :
    quadOutcome i here c.2 cmd gs = .next (inEach (matrixFault · · 2) gs here) := by
  obtain ⟨x, hx, hne⟩ := h
  have hdiffer : (gs.any fun x => x.offered.map (·.2) != some c.2) = true := List.any_eq_true.mpr ⟨x, hx, bne_iff_ne.mpr hne⟩
  exact (if_neg (not_any_isNone hall)).trans (if_pos hdiffer)

theorem quadOutcome_of_words_agree (h : ∀ x ∈ gs, x.offered.map (·.2) = some c.2) : quadOutcome i here c.2 cmd gs
    = passOutcome i here (quadPass here c.2) gs (gs.all fun x => commandOk here (x.offered.getD cmd).1 c.2.2.1 c.2.2.2) := by
  have hall : ∀ x ∈ gs, x.offered ≠ none := fun x hx hnone => by simpa [hnone] using h x hx
  have hsame : ¬ (gs.any fun x => x.offered.map (·.2) != some c.2) = true := by
    rw [List.any_eq_true]
    rintro ⟨x, hx, hne⟩
    exact bne_iff_ne.mp hne (h x hx)
  exact (if_neg (not_any_isNone hall)).trans (if_neg hsame)

/-- Of two forms M2.G suits one alone (R309). -/
theorem commandOk_one_form {m1 m2 : Word} (h : commandOk here true m1 m2 = true) : commandOk here false m1 m2 = false := by
  unfold commandOk at h ⊢
  simp only [Bool.and_eq_true, beq_iff_eq] at h
  obtain ⟨⟨⟨⟨⟨hg, -⟩, -⟩, -⟩, -⟩, -⟩ := h
  rw [hg]
  rfl

theorem forms_of_mixed (ht : ∃ x ∈ gs, x.offered = some (true, c.2)) (hf : ∃ x ∈ gs, x.offered = some (false, c.2)) :
    (gs.all fun x => commandOk here (x.offered.getD cmd).1 c.2.2.1 c.2.2.2) = false := by
  obtain ⟨x, hx, hxo⟩ := ht
  obtain ⟨y, hy, hyo⟩ := hf
  rw [List.all_eq_false]
  by_cases h : commandOk here true c.2.2.1 c.2.2.2 = true
  · exact ⟨y, hy, by rw [hyo, Option.getD_some, commandOk_one_form h]; exact Bool.false_ne_true⟩
  · exact ⟨x, hx, by rw [hxo]; exact h⟩

theorem forms_of_ok (h : ∀ x ∈ gs, x.offered = some c) (hok : commandOk here c.1 c.2.2.1 c.2.2.2 = true) :
    (gs.all fun x => commandOk here (x.offered.getD cmd).1 c.2.2.1 c.2.2.2) = true :=
  List.all_eq_true.mpr fun x hx => by rw [h x hx]; exact hok

theorem forms_of_bad (h : ∀ x ∈ gs, x.offered = some c) (hne : gs ≠ []) (hok : commandOk here c.1 c.2.2.1 c.2.2.2 = false) :
    (gs.all fun x => commandOk here (x.offered.getD cmd).1 c.2.2.1 c.2.2.2) = false := by
  obtain ⟨x, hx⟩ := List.exists_mem_of_ne_nil gs hne
  exact List.all_eq_false.mpr ⟨x, hx, by rw [h x hx, Option.getD_some, hok]; exact Bool.false_ne_true⟩

theorem passOutcome_of_form : passOutcome i here p gs false = .next (inEach (matrixFault · · 3) gs here) := rfl

theorem passOutcome_of_poison {a : Nat} (h : listPoison here p = some a) : passOutcome i here p gs true
    = .next (inEach (fun t r => matrixRaise t r (poisonRaise .sh 0 a [])) gs here) := by
  simp only [passOutcome, h, Option.isSome_some, Bool.and_self, if_true, Option.getD_some]

section clean
variable (hl : listPoison here p = none)
include hl

theorem passOutcome_of_entries (h : passOk here p = false) :
    passOutcome i here p gs true = .next (inEach (matrixFault · · 3) gs here) := by
  simp [passOutcome, hl, h]

theorem passOutcome_of_ok (h : passOk here p = true) : passOutcome i here p gs true
    = if sequencersFull here (coreIdx here here.g.core) [0, 1, 2, 3] then .next (pauseAs here .pass)
      else .next (acceptPass i here p gs) := by
  simp [passOutcome, hl, h]

end clean
end outcome

/-! ### A group offers its command (R382) -/

/-- The group in focus waits for its quad with a command, its port given up. -/
def withOffer (s : State) (c : Bool × Word × Word × Word) : State :=
  pauseAs { s with g := { s.g with offered := some c, offerSlot := s.slot } } .accept

theorem withOffer_offered (s : State) (c : Bool × Word × Word × Word) : (withOffer s c).g.offered = some c :=
  setSlot_offered _ _ _

/-- The command of an instruction by the three scalar registers that it names. -/
def commandFrom (s : State) (g : Bool) (r : Nat) : Bool × Word × Word × Word :=
  (g, (readRun s r 3).getD 0 0, (readRun s r 3).getD 1 0, (readRun s r 3).getD 2 0)

/-- The other slot of the group waits with no command: either nothing is offered, or the issuing slot offered it. -/
theorem no_other_offer {s : State} (ho : s.g.offered = none ∨ s.g.offerSlot = s.slot) :
    ¬ (s.g.offered.isSome && s.g.offerSlot != s.slot) = true := by
  rcases ho with h | h <;> simp [h]

section offer
variable {i : Instr} {s : State} {g : Bool} {r : Nat} {c : Bool × Word × Word × Word}
  (ho : s.g.offered = none ∨ s.g.offerSlot = s.slot) (hc : c = s.g.offered.getD (commandFrom s g r))
include ho hc

theorem matrixIssue_of_no_quad (hq : quadHere (withOffer s c) = none) :
    matrixIssue i g (.s r) s = .next (inEach (matrixFault · · 1) (quadWaiters (withOffer s c)) (withOffer s c)) := by
  subst hc
  unfold withOffer commandFrom at hq
  unfold matrixIssue regNo Opnd.reg
  rw [if_neg (no_other_offer ho)]
  dsimp only
  rw [hq]
  rfl

theorem matrixIssue_of_quad {gs : List Group} (hq : quadHere (withOffer s c) = some gs) :
    matrixIssue i g (.s r) s = quadOutcome i (withOffer s c) c.2 (commandFrom s g r) gs := by
  have hoff := withOffer_offered s c
  subst hc
  unfold withOffer commandFrom at hq hoff
  unfold matrixIssue regNo Opnd.reg
  rw [if_neg (no_other_offer ho)]
  dsimp only
  rw [hq]
  dsimp only
  rw [hoff]
  rfl

end offer

theorem exec_matrix (s : State) (g : Bool) (r : Nat) : exec (if g then .mmaG (.s r) else .mma (.s r)) s
    = matrixIssue (if g then .mmaG (.s r) else .mma (.s r)) g (.s r) s := by
  cases g <;> rfl

/-! ### `mzero` (R310) -/

section mzero
variable {s : State} {t : Bool}

theorem mzero_waits (h : sequencersFull s (coreIdx s s.g.core) [s.g.sub] = true) :
    exec (.mzero t) s = .next (setCur s ((cur s).pause .pass)) := if_pos h

theorem mzero_queues (hs : Idle s) (h : sequencersFull s (coreIdx s s.g.core) [s.g.sub] = false) : ∃ u, exec (.mzero t) s = .next u
    ∧ InFlightOnly (.mzero t) (queuePass s (coreIdx s s.g.core) (newPass s 0 0 [s.g.sub] 0 0 0 (some t) 0)) u := by
  obtain ⟨⟨hquiet, hcanary⟩, -⟩ := hs
  have hroom : ¬ sequencersFull s (coreIdx s s.g.core) [s.g.sub] = true := by rw [h]; exact Bool.false_ne_true
  exact ⟨_, (if_neg hroom).trans (issue_long _ _ _ rfl), _, launchLong_quiet _ _ ⟨hquiet, hcanary⟩⟩

end mzero

/-- Settles O35: a group offers its command; the outcomes of a quad, by what its members have offered; and `mzero`. -/
theorem matrixCommands : Obligations.MatrixCommands := by
  refine ⟨fun s g r ho => ?_, fun s t hs => ⟨mzero_queues hs, mzero_waits⟩⟩
  intro i m c here k p
  have hx : exec i s = matrixIssue i g (.s r) s := exec_matrix s g r
  refine ⟨fun hq => hx.trans (matrixIssue_of_no_quad ho rfl hq), fun gs hq => ?_⟩
  have hx : exec i s = quadOutcome i here c.2 (commandFrom s g r) gs := hx.trans (matrixIssue_of_quad ho rfl hq)
  have hsame (h : ∀ x ∈ gs, x.offered = some c) : ∀ x ∈ gs, x.offered.map (·.2) = some c.2 := fun x hx => by rw [h x hx]; rfl
  refine ⟨fun h => hx.trans (quadOutcome_of_waiting h), fun hall h => hx.trans (quadOutcome_of_words_differ hall h),
    fun h ht hf => ?mixed, fun a h hne hok hl => ?poison, fun h hok hl hp => ?accepted, fun h hne hbad => ?refused⟩
  case mixed => rw [hx, quadOutcome_of_words_agree h, forms_of_mixed ht hf]; exact passOutcome_of_form
  case poison => rw [hx, quadOutcome_of_words_agree (hsame h), forms_of_ok h hok]; exact passOutcome_of_poison hl
  case accepted =>
    rw [hx, quadOutcome_of_words_agree (hsame h), forms_of_ok h hok]
    rw [show passOutcome i here (quadPass here c.2) gs true = _ from passOutcome_of_ok hl hp]
    exact ⟨fun hroom => if_neg (by rw [hroom]; exact Bool.false_ne_true), fun hfull => if_pos hfull⟩
  case refused =>
    rw [hx, quadOutcome_of_words_agree (hsame h)]
    rcases hbad with hbad | ⟨hl, hp⟩
    · rw [forms_of_bad h hne hbad]
      exact passOutcome_of_form
    · cases hok : commandOk here c.1 c.2.2.1 c.2.2.2
      · rw [forms_of_bad h hne hok]
        exact passOutcome_of_form
      · rw [forms_of_ok h hok]
        exact passOutcome_of_entries hl hp

end Sys2Proof.Machine
end

section
/-!
PROOFS. O36: a pass starts, makes its steps and retires; `mrd`, and the table of assay entries.
-/
namespace Sys2Proof.Machine

/-! ### PASS_START (R169, R170, R174, R382) -/

/-- The job whose follow-on a pass is (R166). -/
def jobOf (u : State) (p : Pass) : Option Job := u.vd.jobs.find? fun j => j.handle = p.handle && p.handle != 0

/-- A pass that starts without taking a step, with its failure. -/
def Pass.fails (q : Pass) (code a : Nat) : Pass := { q with steps := 0, locked := false, failed := some (code, w64 a) }

/-- The pass starts where its pages pass, and fails with their cause where they do not (R382). -/
def startChecked (v : State) (c k : Nat) (p q : Pass) : Option State :=
  match passFault v q with
  | some (f, a) =>
      some (if p.handle = 0 then passRaise (replacePass v c k (q.fails f.code a)) (q.fails f.code a) c f.code f.detail a
        else replacePass v c k (q.fails f.code a))
  | none => some (replacePass v c k q)

/-- A pass starts as `q`, which holds what its entries and lists are now. -/
def startPass (u : State) (c k : Nat) (p q : Pass) : Option State :=
  match listPoison u p with
  | some a => some (passRaise (replacePass u c k (q.fails 0x406 a)) (q.fails 0x406 a) c 0x600 1 a)
  | none =>
      if q.failed.isSome then some (replacePass u c k q)
      else if (jobOf u p).any fun j => !insideFootprint q j then some (replacePass u c k (q.fails 0x501 0))
      else startChecked (repairReads u (passReads q)) c k p q

section outcomes
variable {u v : State} {c k a : Nat} {p q : Pass}

theorem startPass_of_poison (hl : listPoison u p = some a) :
    startPass u c k p q = some (passRaise (replacePass u c k (q.fails 0x406 a)) (q.fails 0x406 a) c 0x600 1 a) := by
  rw [startPass, hl]

section clean
variable (hl : listPoison u p = none)
include hl

theorem startPass_of_failed (hq : q.failed ≠ none) : startPass u c k p q = some (replacePass u c k q) := by
  rw [startPass, hl]
  exact if_pos (Option.isSome_iff_ne_none.mpr hq)

variable (hq : q.failed = none)
include hq

theorem startPass_of_outside (ho : (jobOf u p).any (fun j => !insideFootprint q j) = true) :
    startPass u c k p q = some (replacePass u c k (q.fails 0x501 0)) := by
  rw [startPass, hl, hq]
  exact if_pos ho

theorem startPass_of_inside (ho : ¬ (jobOf u p).any (fun j => !insideFootprint q j) = true) :
    startPass u c k p q = startChecked (repairReads u (passReads q)) c k p q := by
  rw [startPass, hl, hq]
  exact if_neg ho

end clean

theorem startChecked_of_fault {f : Chk} (h : passFault v q = some (f, a)) : startChecked v c k p q
    = some (if p.handle = 0 then passRaise (replacePass v c k (q.fails f.code a)) (q.fails f.code a) c f.code f.detail a
      else replacePass v c k (q.fails f.code a)) := by
  rw [startChecked, h]

theorem startChecked_of_pages (h : passFault v q = none) : startChecked v c k p q = some (replacePass v c k q) := by
  rw [startChecked, h]

/-- The A data of a follow-on lies outside its job's regions (R174). -/
theorem jobOf_outside_iff : (jobOf u p).any (fun j => !insideFootprint q j) = true
    ↔ ¬ (p.handle = 0 ∨ ∀ j, u.vd.jobs.find? (fun j => j.handle = p.handle) = some j → insideFootprint q j = true) := by
  unfold jobOf
  by_cases hh : p.handle = 0
  · have hnone : (u.vd.jobs.find? fun _ => false) = none := List.find?_eq_none.mpr fun _ _ => Bool.false_ne_true
    simp [hh, hnone]
  · have htest : (p.handle != 0) = true := bne_iff_ne.mpr hh
    simp only [htest, Bool.and_true, hh, false_or]
    cases u.vd.jobs.find? fun j => decide (j.handle = p.handle) <;> simp

end outcomes

/-- Nothing holds up a pass that has its turn in a team that runs (R172). -/
theorem start_not_held {u : State} {c k : Nat} {p : Pass} (hrun : u.team.mode = .running) (hst : p.started = false)
    (hfree : ∀ i < (passesAt u c).length, waitsFor (passesAt u c) k i = false) :
    ¬ (p.started || (List.range (passesAt u c).length).any (waitsFor (passesAt u c) k) || u.team.mode != .running) = true := by
  have hany : (List.range (passesAt u c).length).any (waitsFor (passesAt u c) k) = false :=
    List.any_eq_false.mpr fun i hi => by rw [hfree i (List.mem_range.mp hi)]; exact Bool.false_ne_true
  rw [hst, hany, hrun]
  decide

/-- CYCLE[31:0] of the core whose stamps a pass takes, now. -/
def passNow (u : State) (c : Nat) (p : Pass) : Nat := cycle32 u (stampCore u p (natAt u.team.cores c))

section start
variable {s u : State} {t : TRef} {c k : Nat} {p : Pass} (hf : focusPass s t c k = some (u, p)) (hrun : u.team.mode = .running)
  (hst : p.started = false) (hfree : ∀ i < (passesAt u c).length, waitsFor (passesAt u c) k i = false)
include hf hrun hst hfree

theorem passStart_of_zero {z : Bool} (hz : p.zero = some z) : exec (.passStart t c k) s
    = .next (replacePass u c k { p with started := true, steps := 1, t2 := passNow u c p }) := by
  show maySome ((focusPass s t c k).bind _) = _
  rw [hf]
  exact congrArg maySome ((if_neg (start_not_held hrun hst hfree)).trans (if_pos (by rw [hz]; rfl)))

theorem passStart_of_command (hz : p.zero = none)
    (hb : ∀ g, some g ∈ quadGroups u t (natAt u.team.cores c) p.role p.quad → bInFlight p g = false) :
    exec (.passStart t c k) s = maySome (startPass u c k p { startedPass u p with t2 := passNow u c p }) := by
  have hlands : ¬ ((quadGroups u t (natAt u.team.cores c) p.role p.quad).any fun g => g.any (bInFlight p)) = true := by
    rw [List.any_eq_true]
    rintro ⟨_ | g, hg, hw⟩
    · cases hw
    · exact Bool.false_ne_true ((hb g hg).symm.trans hw)
  show maySome ((focusPass s t c k).bind _) = _
  rw [hf]
  exact congrArg maySome ((if_neg (start_not_held hrun hst hfree)).trans
    ((if_neg (by rw [hz]; exact Bool.false_ne_true)).trans (if_neg hlands)))

end start

/-! ### PASS_STEP (R169, R170, R394, R400) -/

/-- Nothing holds up a step of a pass that has started and has steps to make. -/
theorem step_not_held {u : State} {p : Pass} (hrun : u.team.mode = .running) (hst : p.started = true) (hstep : p.step < p.steps)
    (hok : p.failed = none) : ¬ (!p.started || decide (p.step ≥ p.steps) || p.failed.isSome || u.team.mode != .running) = true := by
  rw [hst, decide_eq_false (Nat.not_le.mpr hstep), hok, hrun]
  decide

/-- The state in which a step is made: what it reads has crossed the ports, and firmware has repaired the page-table entries on
the way (R353, R403). -/
def afterReads (u : State) (p : Pass) : State := countStep (repairReads u (stepReads p p.step)) (stepReads p p.step)

/-- A step of a pass of a quad, made whole. -/
def madeStep (v : State) (quad : List (Option Group)) (c k now : Nat) (p : Pass) : State :=
  countCells (replacePass { v with team := stepTiles v p quad p.step c } c k { p with step := p.step + 1, t3 := now })
    (if p.gathered then 32768 else 131072)

/-- A step of a pass would read poison at an address of a space. -/
def poisonedStep (v : State) (c k spc a : Nat) (p : Pass) : Option State :=
  match otherOwner v spc a with
  | some o => some (loseTeam v o 0x600 1)
  | none =>
      some (passRaise (replacePass v c k { p with failed := some (0x406, w64 a) }) { p with failed := some (0x406, w64 a) } c
        (if spc = 0 then 0x406 else 0x600) spc a)

/-- A pass of a quad makes its next step, unless that would read poison. -/
def stepPass (v : State) (quad : List (Option Group)) (c k now : Nat) (p : Pass) : Option State :=
  match passPoison v p p.step with
  | some (spc, a) => poisonedStep v c k spc a p
  | none => some (madeStep v quad c k now p)

section outcomes
variable {v : State} {quad : List (Option Group)} {c k now spc a : Nat} {p : Pass}

theorem stepPass_of_clean (h : passPoison v p p.step = none) : stepPass v quad c k now p = some (madeStep v quad c k now p) := by
  rw [stepPass, h]

theorem stepPass_of_poison (h : passPoison v p p.step = some (spc, a)) : stepPass v quad c k now p = poisonedStep v c k spc a p := by
  rw [stepPass, h]

theorem poisonedStep_of_window {o : TRef} (h : otherOwner v spc a = some o) :
    poisonedStep v c k spc a p = some (loseTeam v o 0x600 1) := by
  rw [poisonedStep, h]

theorem poisonedStep_of_own (h : otherOwner v spc a = none) : poisonedStep v c k spc a p
    = some (passRaise (replacePass v c k { p with failed := some (0x406, w64 a) }) { p with failed := some (0x406, w64 a) } c
      (if spc = 0 then 0x406 else 0x600) spc a) := by
  rw [poisonedStep, h]

end outcomes

/-- A team without the elements of one tile. -/
def Team.clearTile (t : Team) (c sub tile : Nat) : Team :=
  { t with tiles := t.tiles.filter fun e => e.1 / 16384 != (c * 4 + sub) * 2 + tile }

theorem tileAt_clearTile (t : Team) (c sub tile : Nat) {row col : Nat} (hr : row < 128) (hc : col < 128) :
    tileAt (t.clearTile c sub tile) c sub tile row col = 0 := by
  have hkey : tileKey c sub tile row col / 16384 = (c * 4 + sub) * 2 + tile := by
    unfold tileKey
    omega
  exact mget_filter_of_dropped 0 t.tiles fun _ => bne_eq_false_iff_eq.mpr hkey

section step
variable {s u : State} {t : TRef} {c k : Nat} {p : Pass} (hf : focusPass s t c k = some (u, p)) (hrun : u.team.mode = .running)
  (hst : p.started = true) (hstep : p.step < p.steps) (hok : p.failed = none)
include hf hrun hst hstep hok

theorem passStep_of_zero {z : Bool} (hz : p.zero = some z) : exec (.passStep t c k) s
    = .next (replacePass { u with team := u.team.clearTile c (p.subs.headD 0) z.toNat } c k
      { p with step := 1, t3 := passNow u c p }) := by
  show maySome ((focusPass s t c k).bind _) = _
  rw [hf]
  rw [Option.bind_some]
  dsimp only
  rw [if_neg (step_not_held hrun hst hstep hok)]
  split
  · next tile htile =>
    obtain rfl := Option.some.inj (hz.symm.trans htile)
    rfl
  · next hnone => cases hz.symm.trans hnone

theorem passStep_of_command (hz : p.zero = none) : exec (.passStep t c k) s
    = maySome (stepPass (afterReads u p) (quadGroups (afterReads u p) t (natAt u.team.cores c) p.role p.quad) c k
      (passNow u c p) p) := by
  show maySome ((focusPass s t c k).bind _) = _
  rw [hf]
  rw [Option.bind_some]
  dsimp only
  rw [if_neg (step_not_held hrun hst hstep hok)]
  split
  · next tile htile => cases hz.symm.trans htile
  · rfl

end step

/-! ### PASS_RETIRE (R171, R176) -/

theorem over_of_ended {p : Pass} (hst : p.started = true) (h : p.failed ≠ none ∨ p.steps ≤ p.step) : p.over = true := by
  have hend : (p.failed.isSome || decide (p.step ≥ p.steps)) = true := by
    rw [Bool.or_eq_true, decide_eq_true_iff, Option.isSome_iff_ne_none]
    exact h
  rw [Pass.over, hst, hend]
  rfl

/-- A job takes the outcome of its follow-on. -/
def Job.takes (j : Job) (p : Pass) : Job := { j with behind := [], code := (p.failed.map (·.1)).getD j.code }

/-- The job of a pass, if it has one, with the pass's outcome. -/
def withOutcome (r : State) (p : Pass) : State :=
  { r with vd := { r.vd with jobs := r.vd.jobs.map fun j => if j.handle = p.handle then j.takes p else j } }

/-- The record of a retired follow-on, where its job's card asks for one (R176). -/
def stampPass (w : State) (p : Pass) : State :=
  match w.vd.jobs.find? fun j => j.handle = p.handle with
  | some j =>
      if j.card.toNat / 2 ^ 20 % 2 = 1 then
        writeStamp w (stampRecord w.team j.core 0 (j.card.toNat / 2 ^ 80 % 2 ^ 16) j.t0 j.t1 p.t2
          (if p.step = 0 then cycle32 w j.core else p.t3))
      else w
  | none => w

theorem stampPass_of_unstamped {w : State} {p : Pass}
    (h : ∀ j, w.vd.jobs.find? (fun j => j.handle = p.handle) = some j → ¬ j.card.toNat / 2 ^ 20 % 2 = 1) : stampPass w p = w := by
  unfold stampPass
  split
  · next j hj => exact if_neg (h j hj)
  · rfl

theorem stampPass_of_stamped {w : State} {p : Pass} {j : Job} (hj : w.vd.jobs.find? (fun j => j.handle = p.handle) = some j)
    (h : j.card.toNat / 2 ^ 20 % 2 = 1) : stampPass w p = writeStamp w (stampRecord w.team j.core 0
      (j.card.toNat / 2 ^ 80 % 2 ^ 16) j.t0 j.t1 p.t2 (if p.step = 0 then cycle32 w j.core else p.t3)) := by
  rw [stampPass, hj]
  exact if_pos h

section retire
variable {s u : State} {t : TRef} {c k : Nat} {p : Pass} (hf : focusPass s t c k = some (u, p)) (hover : p.over = true)
include hf hover

theorem passRetire_of_instruction (hh : p.handle = 0) :
    exec (.passRetire t c k) s = .next (setPasses u c (dropAt (passesAt u c) k)) := by
  show maySome ((focusPass s t c k).bind _) = _
  rw [hf]
  exact congrArg maySome ((if_pos hover).trans (congrArg some (if_pos hh)))

theorem passRetire_of_followOn (hh : p.handle ≠ 0) : exec (.passRetire t c k) s
    = .next (stampPass (withOutcome (setPasses u c (dropAt (passesAt u c) k)) p) p) := by
  have htakes (j : Job) : j.takes p = { j with behind := [], code := match p.failed with | some f => f.1 | none => j.code } := by
    unfold Job.takes
    cases p.failed <;> rfl
  show maySome ((focusPass s t c k).bind _) = _
  rw [hf]
  simp only [withOutcome, htakes]
  exact congrArg maySome ((if_pos hover).trans (congrArg some (if_neg hh)))

end retire

/-! ### `mrd` and the assay table (R175, R311, R313) -/

/-- Row `row` of a tile in registers from `n` on, 32 columns in each. -/
def rowRead (s : State) (t : Bool) (n row : Nat) : Group :=
  (List.range 4).foldl (fun g k => putVec s g (n + k) (fun _ => .general) fun l =>
    tileAt s.team (coreIdx s s.g.core) s.g.sub t.toNat row (32 * k + l)) s.g

theorem mrdRow_of_ok {s : State} {a : Opnd} {x : Word} (h : uni s 1 a = .ok x) : mrdRow s a = x.toNat % 128 := by
  rw [mrdRow, h]

theorem mrdRow_lt (s : State) (a : Opnd) : mrdRow s a < 128 := by
  unfold mrdRow
  split <;> exact Nat.mod_lt _ (by decide)

/-- The device in focus with an entry in a slot of its table. -/
def withEntry (s : State) (slot : Byte) (x : BitVec 512) : State :=
  { s with vd := { s.vd with assay := mset 0 s.vd.assay slot.toNat x } }

section table
variable {s : State} (hs : Idle s)
include hs

theorem mrd_lands (t : Bool) (n : Nat) (a : Opnd) : Lands (.mrd t (.v n) a) s s (rowRead s t n (mrdRow s a)) := by
  rw [rowRead, ← applyWrites_map_vec]
  exact long_done _ [] rfl hs (.rfl' s) rfl

theorem withEntry_lands {i : Instr} {slot : Byte} {x : BitVec 512}
    (hx : exec i s = issue i (.ok (.of (withEntry s slot x))) s) (hl : isLong i = true) : Lands i s (withEntry s slot x) s.g :=
  long_done [] [] hx hs (.of_eq rfl rfl rfl rfl rfl rfl) hl

theorem assaySet_lands {n : Nat} {slot : Byte} (h : Entry.clean ⟨wordsNat (readRun s n 16)⟩ = true) :
    Lands (.assaySet (.s n) slot) s (withEntry s slot (BitVec.ofNat 512 (wordsNat (readRun s n 16)))) s.g := by
  refine withEntry_lands hs ?_ rfl
  show execAssaySet (.s n) slot s = _
  exact congrArg (issue (.assaySet (.s n) slot) · s) (if_pos h)

theorem assayInv_lands (slot : Byte) : Lands (.assayInv slot) s (withEntry s slot 0) s.g := by
  refine withEntry_lands hs ?_ rfl
  show execAssayInv slot s = _
  rfl

theorem assayGet_lands (n : Nat) (slot : Byte) : Lands (.assayGet (.s n) slot) s s ((List.range 16).foldl (fun g k =>
    setSreg g (n + k) (BitVec.ofNat 32 ((mget 0 s.vd.assay slot.toNat).toNat / 2 ^ (32 * k)))) s.g) := by
  rw [← applyWrites_natWords]
  exact long_done _ [] rfl hs (.rfl' s) rfl

end table

theorem assaySet_faults {s : State} {n : Nat} {slot : Byte} (h : Entry.clean ⟨wordsNat (readRun s n 16)⟩ = false) :
    Faults (.assaySet (.s n) slot) s (.plain 0x20d 0) := by
  have hx : exec (.assaySet (.s n) slot) s = issue (.assaySet (.s n) slot) (.error (.plain 0x20d 0)) s :=
    congrArg (issue (.assaySet (.s n) slot) · s) (if_neg (ne_true_of_eq_false h))
  exact hx

/-- Settles O36: a start, a step and a retirement by the outcomes of each; a row read, and the entries of the table. -/
theorem matrixPasses : Obligations.MatrixPasses := by
  refine ⟨⟨fun s u t c k p hf hrun => ?passes, fun s t n a hs => ?row⟩, fun s n slot hs => ?table⟩
  case passes =>
    intro core now free
    refine ⟨fun z hz hst hfree => passStart_of_zero hf hrun hst hfree hz, ?starts, fun z hz hst h0 h1 hok => ?zeroes, ?steps,
      ?retires⟩
    case starts =>
      intro hz hst hfree hb job q v inside
      have hx (o : Option State) (h : startPass u c k p q = o) : exec (.passStart t c k) s = maySome o :=
        (passStart_of_command hf hrun hst hfree hz hb).trans (congrArg maySome h)
      have hin (h : inside) := mt (jobOf_outside_iff (q := q)).mp (not_not_intro h)
      exact ⟨fun a hl => hx _ (startPass_of_poison hl), fun hl hq => hx _ (startPass_of_failed hl hq),
        fun hl hq ho => hx _ (startPass_of_outside hl hq (jobOf_outside_iff.mpr ho)),
        fun hl hq hi hp => hx _ ((startPass_of_inside hl hq (hin hi)).trans (startChecked_of_pages hp)),
        fun f a hl hq hi hp => hx _ ((startPass_of_inside hl hq (hin hi)).trans (startChecked_of_fault hp))⟩
    case zeroes =>
      have hstep : p.step < p.steps := by rw [h0, h1]; exact Nat.one_pos
      exact ⟨_, passStep_of_zero hf hrun hst hstep hok hz, fun row col hr hc => tileAt_clearTile u.team c _ _ hr hc⟩
    case steps =>
      intro hz hst hstep hok v
      have hx (o : Option State) (h : stepPass v (quadGroups v t core p.role p.quad) c k now p = o) :
          exec (.passStep t c k) s = maySome o :=
        (passStep_of_command hf hrun hst hstep hok hz).trans (congrArg maySome h)
      exact ⟨fun hp => hx _ (stepPass_of_clean hp), fun spc a hp =>
        ⟨fun o ho => hx _ ((stepPass_of_poison hp).trans (poisonedStep_of_window ho)),
          fun ho => hx _ ((stepPass_of_poison hp).trans (poisonedStep_of_own ho))⟩⟩
    case retires =>
      intro hst hend r took w job stamped
      have hover := over_of_ended hst hend
      refine ⟨passRetire_of_instruction hf hover, fun hh hjob => ?_, fun j hh hjob hstamp => ?_⟩
      · exact (passRetire_of_followOn hf hover hh).trans (congrArg _ (stampPass_of_unstamped hjob))
      · exact (passRetire_of_followOn hf hover hh).trans (congrArg _ (stampPass_of_stamped hjob hstamp))
  case row =>
    intro reads
    have hrow : reads (mrdRow s a) := mrd_lands hs t n a
    exact ⟨fun x hx => mrdRow_of_ok hx ▸ hrow, fun r _ => ⟨_, mrdRow_lt s a, hrow⟩⟩
  case table =>
    intro w st
    exact ⟨assaySet_lands hs, assaySet_faults, assayInv_lands hs slot, assayGet_lands hs n slot⟩

end Sys2Proof.Machine
end

section
/-!
PROOFS. O46: the save of a team beside whose groups a group of another team is in focus.
-/
namespace Sys2Proof.Machine

/-! ### The save of a team that is not the team of the group in focus (R177, R425)

Before its record is written, `saveOne` ends the debug steps of the team whose instruction has issued: it goes to each such group
and back to the group in focus. Where that one belongs to another team than the team in focus, its team is in focus at the end,
so that the record is written of, and the marks of a save are set on, the wrong team. -/

/-- A team at a forced stop. -/
def stoppedTeam : Team := { Team.idle with ref := { vd := 0, serial := 1 }, stop := some true }

/-- A group of it whose debug step has issued its instruction. -/
def steppedGroup : Group :=
  { Group.idle with
    ref := { team := stoppedTeam.ref, gid := 0 }, exited := 0
    haltDue := some { why := 5, wp := 0xff, hits := 0, team := false, clauseOf := none } }

/-- The stopped team is in focus beside a group of another team. -/
def foreignFocus : State :=
  { State.reset with
    g := { Group.idle with ref := { team := otherMember.ref, gid := 0 } }
    groups := [steppedGroup], team := stoppedTeam, teams := [otherMember], vd := { Device.idle with alive := true } }

theorem foreignFocus_canSave : canSave foreignFocus foreignFocus.team = true := by decide

theorem foreignFocus_unpoisoned :
    let w := flushSamples (accrue (drainTeam foreignFocus))
    (saveLive w w.team).team.poison = [] := by decide

theorem foreignFocus_saved : (saveOne foreignFocus stoppedTeam.ref).team.ref = otherMember.ref := by decide +kernel

/-- Refutes O46: its clause on TEAM_SAVE admits a state whose group in focus belongs to another team than the one in focus. In
`foreignFocus` a group of the stopped team has a debug step to end (R425); ending it moves the focus to the other team, which
takes the marks of the save in its place. -/
theorem not_teamStops : ¬ Obligations.TeamStops := by
  rintro ⟨-, -, hsave, -⟩
  obtain ⟨v, -, rfl, hteam⟩ := hsave foreignFocus foreignFocus stoppedTeam.ref rfl rfl foreignFocus_canSave
  obtain ⟨href, -⟩ := hteam foreignFocus_unpoisoned
  rw [foreignFocus_saved] at href
  exact absurd href (by decide)

end Sys2Proof.Machine
end

section
/-!
PROOFS. O54: the commands of the host. A command for a device is refused before it is looked at, or is performed with its device
in focus; each command has a lemma for each of its outcomes.
-/
namespace Sys2Proof.Machine

/-! ### Fields of a payload -/

theorem byteField_lt (p : List Byte) (off n : Nat) : byteField p off n < 256 ^ n :=
  calc leNat ((p.drop off).take n)
    _ < 256 ^ ((p.drop off).take n).length := leNat_lt _
    _ ≤ 256 ^ n := Nat.pow_le_pow_right (by decide) (List.length_take_le ..)

/-! ### Commands that no device has in focus (R341, R343) -/

theorem exec_nonHostMessage (s : State) (e : Nat) (c : Byte) : exec (.nonHostMessage e c) s = .next s := rfl

section unknown
variable {s : State} {m : CmdHdr} {c : Byte} (hh : hears s = true) (hc : c = 0 ∨ 9 < c.toNat)
include hc

/-- Codes 1 to 9 are those of the commands that there are. -/
theorem unknownCode : (decide (1 ≤ c.toNat) && decide (c.toNat ≤ 9)) = false := by
  rcases hc with rfl | hc
  · rfl
  · simp [hc]

include hh

theorem unknownCommand_noDevice (hd : deviceOnly s m.vd.toNat = none) : exec (.unknownCommand m c) s
    = .next (respond s m c.toNat m.vd.toNat (if s.failed = true then 10 else 1) []) := by
  show execUnknownCommand m c s = _
  simp only [execUnknownCommand, hh, unknownCode hc, hd, Bool.not_true, Bool.or_self, Bool.false_eq_true, if_false]
  rfl

theorem unknownCommand_counted {u : State} (hd : deviceOnly s m.vd.toNat = some u) : exec (.unknownCommand m c) s
    = .next (answer (meter u 6 (16 + m.plen.toNat)) m c.toNat (if s.failed = true then 10 else 1) []) := by
  show execUnknownCommand m c s = _
  simp only [execUnknownCommand, hh, unknownCode hc, hd, Bool.not_true, Bool.or_self, Bool.false_eq_true, if_false]

end unknown

/-! ### What every command for a device answers before it is performed (R342 to R344, R352, R353)

The order of the checks is that of notes/assumptions/22.md. -/

section refusals
variable {s : State} {m : CmdHdr} {p : List Byte}

/-- Each of the eight commands for a device is `forDevice` with its own code, shape and continuation: what that answers whatever
the shape and the continuation are, they all answer. -/
theorem deviceCommands_next {t : Nat → State} (obj : CodeObj)
    (h : ∀ cmd shape f, forDevice m cmd p shape s f = .next (t cmd)) :
    exec (.destroyDevice m p) s = .next (t 2) ∧ exec (.loadCode m p obj) s = .next (t 3) ∧ exec (.hostLaunch m p) s = .next (t 4)
      ∧ exec (.loadWeights m p) s = .next (t 5) ∧ exec (.readUsage m p) s = .next (t 6) ∧ exec (.attest m p) s = .next (t 7)
      ∧ exec (.openIntakeConnection m p) s = .next (t 8) ∧ exec (.changeShare m p) s = .next (t 9) :=
  ⟨show execDestroyDevice m p s = _ from h .., show execLoadCode m p obj s = _ from h .., show execHostLaunch m p s = _ from h ..,
    show execLoadWeights m p s = _ from h .., show execReadUsage m p s = _ from h .., show execAttest m p s = _ from h ..,
    show execOpenIntakeConnection m p s = _ from h .., show execChangeShare m p s = _ from h ..⟩

variable (hh : hears s = true)
include hh

theorem forDevice_moduleFailed (hs : s.failed = true) (cmd : Nat) (shape : Bool) (f : State → Out) :
    forDevice m cmd p shape s f = .next (respond s m cmd m.vd.toNat 10 []) := by
  simp [forDevice, hh, hs, refuse]

theorem createDevice_moduleFailed (hs : s.failed = true) : exec (.createDevice m p) s = .next (respond s m 1 0 10 []) := by
  show execCreateDevice m p s = _
  simp [execCreateDevice, hh, hs]

variable (hs : s.failed = false)
include hs

theorem forDevice_noDevice (hd : deviceOnly s m.vd.toNat = none) (hg : s.gone.contains m.vd.toNat = false) (cmd : Nat)
    (shape : Bool) (f : State → Out) : forDevice m cmd p shape s f = .next (respond s m cmd m.vd.toNat 2 []) := by
  simp only [forDevice, hh, hs, hd, hg, refuse, Bool.not_true, Bool.false_eq_true, if_false]

theorem forDevice_deviceGone (hd : deviceOnly s m.vd.toNat = none) (hg : s.gone.contains m.vd.toNat = true) (cmd : Nat)
    (shape : Bool) (f : State → Out) : forDevice m cmd p shape s f = .next (respond s m cmd m.vd.toNat 10 []) := by
  simp only [forDevice, hh, hs, hd, hg, refuse, Bool.not_true, Bool.false_eq_true, if_false, if_true]

theorem forDevice_malformed {u : State} (hd : deviceOnly s m.vd.toNat = some u) (hc : headerClean m p = false) (cmd : Nat)
    (shape : Bool) (f : State → Out) :
    forDevice m cmd p shape s f = .next (answer (meter u 6 (16 + p.length)) m cmd 3 []) := by
  simp [forDevice, hh, hs, hd, hc]

end refusals

/-! ### Creation (R350, R351, R438) -/

section create
variable {s : State} {m : CmdHdr} {p : List Byte} (hh : hears s = true) (hs : s.failed = false)
include hh hs

theorem createDevice_malformed (hb : headerClean m p = false ∨ Create.formed s ⟨p⟩ = false) :
    exec (.createDevice m p) s = .next (respond s m 1 0 3 []) := by
  have hbad : (!headerClean m p || !Create.formed s ⟨p⟩) = true := by
    rcases hb with h | h <;> simp [h]
  show execCreateDevice m p s = _
  simp only [execCreateDevice, hh, hs, hbad, Bool.not_true, Bool.false_eq_true, if_false, if_true]

variable {q : Partition} (hc : headerClean m p = true) (hf : Create.formed s ⟨p⟩ = true) (hq : Create.part s ⟨p⟩ = some q)
include hc hf hq

theorem createDevice_notAdmitted (ha : Create.admitted s ⟨p⟩ q = false) :
    exec (.createDevice m p) s = .next (respond s m 1 0 4 []) := by
  show execCreateDevice m p s = _
  simp [execCreateDevice, hh, hs, hc, hf, hq, ha]

variable (ha : Create.admitted s ⟨p⟩ q = true)
include ha

theorem createDevice_built {n : Nat} {at_ : Places} (hn : freeNumber s = some n)
    (hp : findPlaces s (Create.gib ⟨p⟩) q.cores.length (Create.sump ⟨p⟩) = some at_) (hsc : scratchFree s (Create.sc ⟨p⟩) = true) :
    exec (.createDevice m p) s = .next (answer (buildDevice (stash s) ⟨p⟩ q n at_) m 1 0 (leBytes 4 n)) := by
  show execCreateDevice m p s = _
  simp [execCreateDevice, hh, hs, hc, hf, hq, ha, hn, hp, hsc]

theorem createDevice_noRoom (hr : freeNumber s = none
      ∨ findPlaces s (Create.gib ⟨p⟩) q.cores.length (Create.sump ⟨p⟩) = none ∨ scratchFree s (Create.sc ⟨p⟩) = false) :
    exec (.createDevice m p) s = .next (respond s m 1 0 5 []) := by
  show execCreateDevice m p s = _
  simp only [execCreateDevice, hh, hs, hc, hf, hq, ha, Bool.not_true, Bool.or_self, Bool.false_eq_true, if_false]
  cases hn : freeNumber s with
  | none => rfl
  | some n =>
    cases hp : findPlaces s (Create.gib ⟨p⟩) q.cores.length (Create.sump ⟨p⟩) with
    | none => rfl
    | some at_ =>
      have hsc : scratchFree s (Create.sc ⟨p⟩) = false := by simpa [hn, hp] using hr
      simp [hsc]

end create

/-! ### Commands that are performed -/

/-- A command with this message is performed in `u`, where its payload has the command's shape. -/
def Performs (s : State) (m : CmdHdr) (p : List Byte) (u : State) : Prop :=
  ∀ (cmd : Nat) (f : State → Out), forDevice m cmd p true s f = f u

/-- A clean message for a device that exists is performed with the device in focus, which has received its bytes. -/
theorem performs_received {s w : State} {m : CmdHdr} {p : List Byte} (hh : hears s = true) (hs : s.failed = false)
    (hd : deviceOnly s m.vd.toNat = some w) (hc : headerClean m p = true) : Performs s m p (meter w 6 (16 + p.length)) :=
  forDevice_performed hh hs hd hc rfl

section performed
variable {s u : State} {m : CmdHdr} {p : List Byte} (hu : Performs s m p u)
include hu

theorem Performs.forDevice {shape : Bool} (hp : shape = true) (cmd : Nat) (f : State → Out) :
    forDevice m cmd p shape s f = f u := by
  rw [hp]
  exact hu cmd f

/-! ### Destruction, usage records and attestation (R351, R354, R356, R441) -/

theorem exec_destroyDevice (hp : p = []) : exec (.destroyDevice m p) s =
    let a := accrue u
    .next (if signatureGood a = true
      then respond (dropDevice a a.vd.number) m 2 a.vd.number 0 (signed (usageBody a (List.replicate 32 0) true))
      else respond (dropDevice a a.vd.number) m 2 a.vd.number 9 []) := by
  show execDestroyDevice m p s = _
  rw [execDestroyDevice, hu.forDevice (by rw [hp]; rfl)]
  exact (apply_ite Host.Outcome.next ..).symm

theorem exec_readUsage (hp : p.length = 32) : exec (.readUsage m p) s =
    let a := accrue u
    .next (if signatureGood a = true
      then answer (chainRecord a (usageBody a p false)) m 6 0 (signed (usageBody a p false))
      else answer a m 6 9 []) := by
  show execReadUsage m p s = _
  rw [execReadUsage, hu.forDevice (beq_iff_eq.mpr hp)]
  exact (apply_ite Host.Outcome.next ..).symm

theorem exec_attest (hp : p.length = 32) : exec (.attest m p) s =
    .next (if signatureGood u = true
      then answer u m 7 0 (signed (p ++ u.measure ++ u.stageHashes.flatten ++ Config.serialNumber) ++ Config.certChain)
      else answer u m 7 9 []) := by
  show execAttest m p s = _
  rw [execAttest, hu.forDevice (beq_iff_eq.mpr hp)]
  exact (apply_ite Host.Outcome.next ..).symm

/-! ### Launches (R183 to R187, R343) -/

theorem hostLaunch_malformed (hk : launchKernel u p = none) : exec (.hostLaunch m p) s = .next (answer u m 4 3 []) := by
  show execHostLaunch m p s = _
  rw [execHostLaunch, hu.forDevice rfl]
  simp only [hk]

section kernel
variable {x : Ask} {c : Code} {k : KernelDecl} (hk : launchKernel u p = some (x, c, k))
include hk

theorem hostLaunch_neverFits (hf : canEverFit u u.vd k = false) : exec (.hostLaunch m p) s = .next (answer u m 4 11 []) := by
  show execHostLaunch m p s = _
  rw [execHostLaunch, hu.forDevice rfl]
  simp [hk, hf]

variable (hf : canEverFit u u.vd k = true)
include hf

theorem hostLaunch_queued {off : Nat} (hg : queued u.vd < Config.gridQueue) (ho : poolRoom u.vd.pool [areaBytes k] = some [off]) :
    exec (.hostLaunch m p) s = .next (answer (queueGrid u x c k off (some m.tag) 0).1 m 4 0 []) := by
  show execHostLaunch m p s = _
  rw [execHostLaunch, hu.forDevice rfl]
  simp [hk, hf, hg, ho]

theorem hostLaunch_noRoom (hr : Config.gridQueue ≤ queued u.vd ∨ ∀ off, poolRoom u.vd.pool [areaBytes k] ≠ some [off]) :
    exec (.hostLaunch m p) s = .next (answer u m 4 6 []) := by
  show execHostLaunch m p s = _
  rw [execHostLaunch, hu.forDevice rfl]
  simp only [hk, hf, Bool.not_true, Bool.false_eq_true, if_false]
  split
  · rfl
  · next hg =>
    have hnone := hr.resolve_left hg
    split
    · next off ho => exact absurd ho (hnone off)
    · rfl

end kernel

/-! ### Connections (R352) -/

theorem openIntakeConnection_noRoom (hp : connFormed p = true) (hr : freeConn u = none ∨ 1 < byteField p 0 1) :
    exec (.openIntakeConnection m p) s = .next (answer u m 8 8 []) := by
  show execOpenIntakeConnection m p s = _
  rw [execOpenIntakeConnection, hu.forDevice hp]
  cases hk : freeConn u with
  | none => rfl
  | some k =>
    have hport : 1 < byteField p 0 1 := by simpa [hk] using hr
    simp [hport]

/-- The module holds one connection more for the device in focus. -/
def withConn (u : State) (p : List Byte) (k : Nat) : State :=
  { u with conns := u.conns ++ [{ number := k, qpn := freeQpn u, vd := u.vd.number, payload := p }] }

theorem openIntakeConnection_opened (hp : connFormed p = true) (hport : byteField p 0 1 ≤ 1) {k : Nat} (hk : freeConn u = some k) :
    exec (.openIntakeConnection m p) s = .next (answer (withConn u p k) m 8 0 (leBytes 4 k ++ leBytes 4 (freeQpn u))) := by
  show execOpenIntakeConnection m p s = _
  rw [execOpenIntakeConnection, hu.forDevice hp]
  simp only [hk, if_neg (Nat.not_lt.mpr hport), withConn]

/-! ### Shares (R348, R438) -/

/-- The device in focus with the share that a payload asks for, from its next window or period. -/
def withShare (u : State) (p : List Byte) : State :=
  { u with vd := { u.vd with newShare := some (byteField p 0 1, byteField p 1 1, byteField p 4 4, byteField p 8 4) } }

section share
variable {part : Partition} (hpart : partitionOf u u.vd.partition = some part) (hlen : p.length = 16)
  (h2 : zeroField p 2 2 = true) (h12 : zeroField p 12 4 = true)
include hpart hlen h2 h12

/-- A weight and a cap, and neither a period nor a budget. -/
theorem changeShare_allowance (hsched : part.sched = .allowance) : exec (.changeShare m p) s
    = .next (if byteField p 4 4 ≠ 0 ∨ byteField p 8 4 ≠ 0 then answer u m 9 3 []
      else if capOk (byteField p 0 1) (byteField p 1 1) = true then answer (withShare u p) m 9 0 [] else answer u m 9 4 []) := by
  show execChangeShare m p s = _
  rw [execChangeShare, hu.forDevice (by simp [hlen, h2, h12])]
  simp only [hpart, hsched]
  split
  · rfl
  · split <;> rfl

/-- A period and a budget, and neither a weight nor a cap. -/
theorem changeShare_reservation (hsched : part.sched = .reservation) : exec (.changeShare m p) s
    = .next (if byteField p 0 1 ≠ 0 ∨ byteField p 1 1 ≠ 0 then answer u m 9 3 []
      else if 100 ≤ byteField p 4 4 ∧ byteField p 4 4 ≤ 1000000 ∧ byteField p 8 4 ≤ byteField p 4 4 * u.vd.pcores
        ∧ sharesFit ((devicesOf u part).filter fun d => d.number != u.vd.number) u.vd.pcores (byteField p 4 4) (byteField p 8 4) = true
      then answer (withShare u p) m 9 0 [] else answer u m 9 4 []) := by
  show execChangeShare m p s = _
  rw [execChangeShare, hu.forDevice (by simp [hlen, h2, h12])]
  simp only [hpart, hsched, periodOk, Bool.and_eq_true, decide_eq_true_eq, and_assoc]
  split
  · rfl
  · split <;> rfl

end share

end performed

/-- The queue pair number of a new connection has 24 bits. -/
theorem freeQpn_lt (s : State) : freeQpn s < 2 ^ 24 := by
  show (Option.getD _ 0) < _
  cases h : ((List.range 33).map fun k => (Config.freeNat s.draw 1 + k) % 2 ^ 24).find? fun q => s.conns.all fun c => c.qpn != q with
  | none => exact Nat.two_pow_pos 24
  | some q =>
    obtain ⟨k, -, rfl⟩ := List.mem_map.mp (List.mem_of_find?_eq_some h)
    exact Nat.mod_lt _ (Nat.two_pow_pos 24)

/-- A weight is one byte, so that only its lower limit can fail. -/
theorem capOk_byteField (p : List Byte) (cap : Nat) :
    capOk (byteField p 0 1) cap = true ↔ 1 ≤ byteField p 0 1 ∧ 1 ≤ cap ∧ cap ≤ 100 := by
  have hw : byteField p 0 1 < 256 ^ 1 := byteField_lt p 0 1
  simp only [capOk, Bool.and_eq_true, decide_eq_true_eq]
  omega

/-- Settles O54: what each command answers before it is performed, and a lemma for each outcome of each command. -/
theorem hostCommands : Obligations.HostCommands := by
  refine ⟨exec_nonHostMessage, ?_, ?_, ?_, ?_, ?_⟩
  · intro s m c hh hc status
    exact ⟨unknownCommand_noDevice hh hc, fun u => unknownCommand_counted hh hc⟩
  · intro s m p obj hh allAnswer
    refine ⟨?_, ?_, ?_, ?_⟩
    · intro hs
      exact ⟨deviceCommands_next obj (forDevice_moduleFailed hh hs), createDevice_moduleFailed hh hs⟩
    · intro hs hd hg
      exact deviceCommands_next obj (forDevice_noDevice hh hs hd hg)
    · intro hs hd hg
      exact deviceCommands_next obj (forDevice_deviceGone hh hs hd hg)
    · intro u hs hd hc
      exact deviceCommands_next obj (forDevice_malformed hh hs hd hc)
  · intro s m p hh hs
    exact createDevice_malformed hh hs
  · intro s m p q hh hs hc hf hq
    exact ⟨createDevice_notAdmitted hh hs hc hf hq, createDevice_noRoom hh hs hc hf hq,
      fun n at_ ha => createDevice_built hh hs hc hf hq ha⟩
  · intro s u₀ m p hh hs hd hc u n a
    have hu : Performs s m p u := performs_received hh hs hd hc
    clear_value u
    refine ⟨?_, ?_, ?_, ?_, ?_, ?_, hostLaunch_malformed hu, ?_, openIntakeConnection_noRoom hu, ?_, ?_⟩
    · intro hp hg
      rw [exec_destroyDevice hu hp]
      exact congrArg Host.Outcome.next (if_pos hg)
    · intro hp hg
      rw [exec_destroyDevice hu hp]
      exact congrArg Host.Outcome.next (if_neg (ne_true_of_eq_false hg))
    · intro hp hg
      rw [exec_readUsage hu hp]
      exact congrArg Host.Outcome.next (if_pos hg)
    · intro hp hg
      rw [exec_readUsage hu hp]
      exact congrArg Host.Outcome.next (if_neg (ne_true_of_eq_false hg))
    · intro hp hg
      rw [exec_attest hu hp, if_pos hg]
    · intro hp hg
      rw [exec_attest hu hp, if_neg (ne_true_of_eq_false hg)]
    · intro x c k hk
      exact ⟨hostLaunch_neverFits hu hk, hostLaunch_noRoom hu hk, fun off hf => hostLaunch_queued hu hk hf⟩
    · intro hp hport k hk
      exact ⟨_, freeQpn u, openIntakeConnection_opened hu hp hport hk, rfl, freeQpn_lt u, rfl⟩
    · intro part hpart hlen h2 h12 w cap t q answers takes
      refine ⟨fun hsched => ?_, fun hsched => ?_⟩
      · have h := changeShare_allowance hu hpart hlen h2 h12 hsched
        refine ⟨fun hbad => ?_, fun ht hq => ?_⟩
        · rwa [if_pos hbad] at h
        · have hwell : ¬ (t ≠ 0 ∨ q ≠ 0) := by simp [ht, hq]
          rw [if_neg hwell] at h
          refine ⟨fun hw hcap hcap' => ?_, fun hbad => ?_⟩
          · rwa [if_pos ((capOk_byteField p cap).mpr ⟨hw, hcap, hcap'⟩)] at h
          · rwa [if_neg (by rw [capOk_byteField]; omega)] at h
      · intro fits
        have h := changeShare_reservation hu hpart hlen h2 h12 hsched
        refine ⟨fun hbad => ?_, fun hw hcap => ?_⟩
        · rwa [if_pos hbad] at h
        · have hwell : ¬ (w ≠ 0 ∨ cap ≠ 0) := by simp [hw, hcap]
          rw [if_neg hwell] at h
          refine ⟨fun hfits => ?_, fun hfits => ?_⟩
          · rwa [if_pos hfits] at h
          · rwa [if_neg hfits] at h

end Sys2Proof.Machine
end

section
/-!
PROOFS. O2: the scalar moulds of one source, two, three and a literal in a quiet group.
-/
namespace Sys2Proof.Machine

/-! ### Scalar results of a quiet group (R249, R250) -/

section results
variable {i : Instr} {s : State} {n : Nat} {pd : Bool} {r : Except Raise Dword} {v : Dword}

/-- A scalar result whose sources give one value each lands in the destination, and nothing else changes but the address. -/
theorem exec_scaIssue (hx : exec i s = scaIssue i (.s n) pd r s) (hq : Quiet s) (hp : perLane i = false)
    (hl : isLong i = false) (hr : r = .ok v) : exec i s = .next (advance i s (putSca s.g n pd v)) := by
  rw [hx, hr, scaIssue_quiet i s _ pd v hq hp hl, applyWrites_sca]

variable {pa pb pr : Bool} {a b c : Opnd} {x y z : Dword}

theorem sca1_ok (f : Dword → Dword) (ha : uniW s 1 pa a = .ok x) : sca1 s pa a f = .ok (f x) := by
  rw [sca1, ha]; rfl

theorem sca2_ok (f : Dword → Dword → Dword) (ha : uniW s 1 pa a = .ok x) (hb : uniW s 2 pb b = .ok y) :
    sca2 s pa pb a b f = .ok (f x y) := by
  rw [sca2, ha]
  exact congrArg (Except.map (f x)) hb

theorem sca3_ok (f : Dword → Dword → Dword → Dword) (ha : uniW s 1 pr a = .ok x) (hb : uniW s 2 pr b = .ok y)
    (hc : uniW s 3 false c = .ok z) : sca3 s pr a b c f = .ok (f x y z) := by
  rw [sca3, ha, hb]
  exact congrArg (Except.map (f x y)) hc

end results

section moulds
variable {pa pb pr pd : Bool}

theorem scaOut1_sca {mk : Opnd → Opnd → Instr} {f : Dword → Dword}
    (hx : ∀ s d a, exec (mk d a) s = scaIssue (mk d a) d pd (sca1 s pa a f) s)
    (hp : ∀ d a, perLane (mk d a) = false) (hl : ∀ d a, isLong (mk d a) = false) : ScaOut1 mk pa pd f :=
  fun _ _ _ _ hq ha => exec_scaIssue (hx ..) hq (hp ..) (hl ..) (sca1_ok f ha)

theorem scaOut2_sca {mk : Opnd → Opnd → Opnd → Instr} {f : Dword → Dword → Dword}
    (hx : ∀ s d a b, exec (mk d a b) s = scaIssue (mk d a b) d pd (sca2 s pa pb a b f) s)
    (hp : ∀ d a b, perLane (mk d a b) = false) (hl : ∀ d a b, isLong (mk d a b) = false) : ScaOut2 mk pa pb pd f :=
  fun _ _ _ _ _ _ hq ha hb => exec_scaIssue (hx ..) hq (hp ..) (hl ..) (sca2_ok f ha hb)

theorem scaOut3_sca {mk : Opnd → Opnd → Opnd → Opnd → Instr} {f : Dword → Dword → Dword → Dword}
    (hx : ∀ s d a b c, exec (mk d a b c) s = scaIssue (mk d a b c) d pr (sca3 s pr a b c f) s)
    (hp : ∀ d a b c, perLane (mk d a b c) = false) (hl : ∀ d a b c, isLong (mk d a b c) = false) : ScaOut3 mk pr f :=
  fun _ _ _ _ _ _ _ _ hq ha hb hc => exec_scaIssue (hx ..) hq (hp ..) (hl ..) (sca3_ok f ha hb hc)

theorem scaOutI_sca {mk : Opnd → Opnd → Word → Instr} {f : Dword → Dword → Dword}
    (hx : ∀ s d a imm, exec (mk d a imm) s = scaIssue (mk d a imm) d false (scaImm s a imm f) s)
    (hp : ∀ d a imm, perLane (mk d a imm) = false) (hl : ∀ d a imm, isLong (mk d a imm) = false) : ScaOutI mk f :=
  fun _ _ _ imm _ hq ha => exec_scaIssue (hx ..) hq (hp ..) (hl ..) (sca1_ok (fun x => f x (imm64 imm)) ha)

end moulds

/-- C reads as 0 in the I form of `s.addc` (R236): the sum has no carry in. -/
theorem aluAddc_zero (x y : Dword) : aluAddc false x y 0 = w64 ((x.toNat % 2 ^ 32 + y.toNat % 2 ^ 32) % 2 ^ 32) := rfl

/-- Settles O2: every form writes through the mould of its number of sources, and `nop` has no effect of its own. -/
theorem scalarIntegers : Obligations.ScalarIntegers := by
  refine ⟨⟨?pairs, ?types⟩, ?literals, ?nop, ?selects, ?popc, ?clz, ?mad, ?bfi, ?addc, ?movi, ?getl⟩
  case pairs =>
    intro pr t
    refine ⟨?_, ?_, ?_, ?_, ?_, ?_, ?_, ?_, ?_⟩
    iterate 9 exact scaOut2_sca (fun _ _ _ _ => rfl) (fun _ _ _ => rfl) (fun _ _ _ => rfl)
  case types =>
    intro ty
    refine ⟨?_, ?_, ?_, ?_⟩
    iterate 4 exact scaOut2_sca (fun _ _ _ _ => rfl) (fun _ _ _ => rfl) (fun _ _ _ => rfl)
  case literals =>
    refine ⟨?_, ?_, ?_, ?_, ?_, ?_, ?_, ?_, ?_, ?addcI, fun ts => ⟨?_, ?_, ?_⟩⟩
    case addcI =>
      simp only [← aluAddc_zero]
      exact scaOutI_sca (fun _ _ _ _ => rfl) (fun _ _ _ => rfl) (fun _ _ _ => rfl)
    iterate 12 exact scaOutI_sca (fun _ _ _ _ => rfl) (fun _ _ _ => rfl) (fun _ _ _ => rfl)
  case nop => exact fun s hq => short_done (s := s) hq rfl rfl
  case selects =>
    exact fun pr => ⟨scaOut1_sca (fun _ _ _ => rfl) (fun _ _ => rfl) (fun _ _ => rfl),
      scaOut1_sca (fun _ _ _ => rfl) (fun _ _ => rfl) (fun _ _ => rfl),
      scaOut3_sca (fun _ _ _ _ _ => rfl) (fun _ _ _ _ => rfl) (fun _ _ _ _ => rfl)⟩
  case popc | clz => exact scaOut1_sca (fun _ _ _ => rfl) (fun _ _ => rfl) (fun _ _ => rfl)
  case mad | bfi => exact scaOut3_sca (fun _ _ _ _ _ => rfl) (fun _ _ _ _ => rfl) (fun _ _ _ _ => rfl)
  case addc => exact fun co => scaOut3_sca (fun _ _ _ _ _ => rfl) (fun _ _ _ _ => rfl) (fun _ _ _ _ => rfl)
  case movi =>
    intro s ts n imm hq
    rw [exec_scaIssue (v := imm64 imm) rfl hq rfl rfl rfl, putSca, if_neg Bool.false_ne_true, imm64,
      BitVec.setWidth_setWidth_of_le _ (by decide), BitVec.setWidth_eq]
  case getl =>
    intro s n a b l hq hb
    have hr := congrArg (Except.map fun l : Word => ((crossLane s a (l.toNat % 32)).setWidth 64 : Dword)) hb
    rw [exec_scaIssue rfl hq rfl rfl hr, putSca, if_neg Bool.false_ne_true,
      BitVec.setWidth_setWidth_of_le _ (by decide), BitVec.setWidth_eq]

end Sys2Proof.Machine
end

section
/-!
PROOFS. O57: what the plan of an issuing slot is where nothing holds it, and the move that the agenda's head makes.
-/
namespace Sys2Proof.Machine

/-! ### The instruction of an issuing slot (R200, R204, R209) -/

/-- With no canary on its core the slot's instruction is watched by none (R411). -/
theorem watchPc_unwatched {s : State} (h : Unwatched s) (evs : List Watch) (dst : Word) : watchPc s evs dst = s := by
  unfold watchPc
  extract_lets p
  split
  · rfl
  · exact watchEvents_none h s.slot evs [0] _

theorem canAct_live {s : State} {i : SlotId} (h : canAct s i = true) : (s.g.slot i).live = true := by
  by_contra hdead
  simp [canAct, hdead] at h

/-- A slot that still has lanes goes on where its canaries have done nothing. -/
theorem goesOn_self {s : State} (h : (cur s).live = true) : goesOn s s = true := by
  simp [goesOn, haltsOnly, h]

section plan
variable {s : State} (hact : canAct s s.slot = true) (hdue : s.g.haltDue = none) (hst : (cur s).stand = .issuing)
  (hfp : flagsPending s = false)
include hact hdue hst hfp

/-- The slot in focus has its turn: nothing of R192, R365 or R416 holds it. -/
theorem planIssue_may : (!(canAct s s.slot && clauseMayGoOn s.g && (cur s).stand == .issuing) || flagsPending s) = false := by
  rw [hact, clauseMayGoOn, hdue, hst, hfp]
  rfl

/-- Where nothing holds the slot or the instruction, the plan is to run what the word at the pc decodes to. -/
theorem planIssue_run {w : Dword} {i : Instr} (hw : fetchWord s (cur s).pc = .ok w)
    (hi : decodeWord (budgetOf s) ((cur s).head.toNat / 2 ^ 49 % 8) w.toNat = .ok i)
    (hbar : isBarrier i = true → s.team.request = none) (hlock : writesLocked s i = false) (hown : waitsOwn s i = false)
    (hesc : escalates s i = false) (hun : Unwatched s) : planIssue s = some (.run i s) := by
  have hstop : ¬ (isBarrier i = true ∧ s.team.request.isSome = true ∧ s.g.stepping.isNone = true) := by
    rintro ⟨hb, hreq, -⟩
    rw [hbar hb] at hreq
    cases hreq
  unfold planIssue
  dsimp only
  rw [if_neg (Bool.eq_false_iff.mp (planIssue_may hact hdue hst hfp)), hw]
  dsimp only
  rw [hi]
  dsimp only
  rw [if_neg hstop, hlock, hown, hesc, watchPc_unwatched hun, goesOn_self (canAct_live hact)]
  rfl

end plan

theorem issueWith_run {ex : Instr → State → Out} {s t : State} {i : Instr} (h : planIssue s = some (.run i t)) :
    issueWith ex s = afterInstr (ex i t) := by
  unfold issueWith
  rw [h]

/-! ### The move at the head of the agenda -/

theorem step_move {s : State} {m : Move} {rest : List Move} (h : s.agenda = m :: rest) :
    step s = timed (runMove exec m { beforeMove s with agenda := rest }) := by rw [step, runStep, h]

section moves
variable {ex : Instr → State → Out} {s t : State}

theorem runMove_issue {g : GRef} (h : focusGroup s g = some t) (i : SlotId) :
    runMove ex (.issue g i) s = issueWith ex { t with slot := i } := by
  unfold runMove
  dsimp only
  rw [h]

theorem runMove_groupEvent {g : GRef} (h : focusGroup s g = some t) (i : SlotId) (e : Instr) :
    runMove ex (.groupEvent g i e) s = ex e { t with slot := i } := by
  unfold runMove
  dsimp only
  rw [h]

theorem runMove_sluice {e : Nat} {i : Instr} (h : focusRun s e = some t) (hi : t.run.next = some i) :
    runMove ex (.sluice e) s = if t.run.overBudget i then ex .sluiceStepBudget t else ex i t := by
  unfold runMove engineMove
  dsimp only
  rw [h]
  dsimp only
  rw [sluiceMove, hi]

end moves

/-! ### Time (R440) -/

theorem timed_next {t : State} (h : t.stalled = false) : timed (.next t) = .next (tick t) := by
  rw [timed, h]; rfl

theorem timed_stalled {t : State} (h : t.stalled = true) : timed (.next t) = .refused .notEnabled := by
  rw [timed, h]; rfl

/-- What time passes with does not wait for a port. -/
theorem timed_runs {o : Out} {t : State} (h : timed o = .next t) : t.stalled = false := by
  cases o with
  | next u =>
    cases hu : u.stalled with
    | true => rw [timed_stalled hu] at h; cases h
    | false =>
      rw [timed_next hu] at h
      cases h
      exact hu
  | _ => cases h

/-- Every step ends with time that passes, whether the agenda or the machine itself makes the move. -/
theorem step_timed (s : State) : ∃ o, step s = timed o := by
  unfold step runStep
  split <;> exact ⟨_, rfl⟩

/-- Settles O57: the agenda's head is the move that the step makes, and an issuing slot that nothing holds plans to run its word. -/
theorem stepRunsDecoded : Obligations.StepRunsDecoded := by
  refine ⟨?issue, fun s i rest ha => step_move ha, ?groupEvent, ?sluice, fun t => ⟨timed_next, timed_stalled⟩, ?ends⟩
  case issue =>
    intro s t g sl rest w i ha hg u hact hdue hst hfp hw hi hbar hlock hown hesc hun
    rw [step_move ha, runMove_issue hg,
      issueWith_run (planIssue_run (s := u) hact hdue hst hfp hw hi hbar hlock hown hesc hun)]
  case groupEvent =>
    intro s t g sl i rest ha hg
    rw [step_move ha, runMove_groupEvent hg]
  case sluice =>
    intro s t e i rest ha he hi
    rw [step_move ha, runMove_sluice he hi]
    exact ⟨fun h => by rw [if_neg (Bool.eq_false_iff.mp h)], fun h => by rw [if_pos h]⟩
  case ends =>
    intro s t h
    obtain ⟨o, ho⟩ := step_timed s
    exact timed_runs (ho.symm.trans h)

end Sys2Proof.Machine
end

section
/-!
PROOFS. O59: the worked words of the manual are what the encoder makes of the instructions written beside them.
-/
namespace Sys2Proof

/-- A word that is the encoding of a well-formed instruction decodes to it, under the largest budgets and in a clause of its
class (O55). -/
theorem decodeWord_of_encode {i : Instr} {k w : Nat} (hwf : WellFormed Budget.full i = true)
    (hw : encode i = some (BitVec.ofNat 64 w)) (hlt : w < 2 ^ 64) (hk : i.cls = k) :
    (decodeWord Budget.full k w).toOption = some i := by
  have h := encodeDecode Budget.full i _ (by decide) (by decide) (by decide) hwf hw
  rw [BitVec.toNat_ofNat, Nat.mod_eq_of_lt hlt, hk] at h
  rw [h]
  rfl

/-- Settles O59: ten words are the encodings of the instructions beside them; the word of `bar.sync` has no meaning in a clause of
class 1 (R215), nor has a word of `add` with a reserved bit set (R212). -/
theorem workedWords : Obligations.WorkedWords := by
  refine ⟨?_, ?_, ?_, ?_, ?_, ?_, ?_, ?_, ?_, ?_, ?misplaced, ?reserved⟩
  case misplaced | reserved => decide
  iterate 10 exact decodeWord_of_encode (by decide) (by decide) (by decide) (by decide)

end Sys2Proof
end

section
/-!
PROOFS. O1, O6: the values of the integer types as words of their width (R233), and the shifts as shifts of such words (R238).
-/
namespace Sys2Proof.Machine

/-! ### Values of the integer types (R233) -/

/-- A word's signed value, from its upper half on less than its number. -/
theorem toInt_upperHalf {w : Nat} (v : BitVec w) (h0 : 0 < w) :
    (if v.toNat ≥ 2 ^ (w - 1) then (v.toNat : Int) - 2 ^ w else v.toNat) = v.toInt := by
  obtain ⟨k, rfl⟩ : ∃ k, w = k + 1 := ⟨w - 1, by omega⟩
  have hpow : 2 ^ (k + 1) = 2 * 2 ^ k := Nat.pow_succ' ..
  rw [BitVec.toInt, Nat.add_sub_cancel]
  by_cases hn : v.toNat ≥ 2 ^ k
  · rw [if_pos hn, if_neg (by omega)]
    push_cast
    rfl
  · rw [if_neg hn, if_pos (by omega)]

section types
variable {t : Ty} {w : Nat} (hw : tyWidth t = w)
include hw

theorem intVal_signed (h : tySigned t = true) (h0 : 0 < w) (x : Dword) : intVal t x = (x.setWidth w).toInt := by
  rw [← toInt_upperHalf _ h0, BitVec.toNat_setWidth]
  unfold intVal
  rw [hw, h]
  simp only [Bool.true_and, decide_eq_true_eq, ge_iff_le]

theorem intVal_unsigned (h : tySigned t = false) (x : Dword) : intVal t x = (x.setWidth w).toNat := by
  unfold intVal
  rw [hw, h, BitVec.toNat_setWidth]
  rfl

theorem intWrap_ofInt (h : w ≤ 64) (z : Int) : intWrap t z = (BitVec.ofInt w z).setWidth 64 := by
  have hle : (2 : Int) ^ w ≤ 2 ^ 64 := pow_le_pow_right₀ (by decide) h
  have hlt := Int.emod_lt_of_pos z (show (0 : Int) < 2 ^ w by positivity)
  have hnn := Int.emod_nonneg z (show (2 : Int) ^ w ≠ 0 by positivity)
  unfold intWrap
  rw [hw]
  apply BitVec.eq_of_toNat_eq
  rw [BitVec.toNat_setWidth, BitVec.toNat_ofInt, BitVec.toNat_ofInt]
  push_cast
  rw [Int.emod_eq_of_lt hnn (by omega), Nat.mod_eq_of_lt (by omega)]

end types

/-- Settles O1: each type is its width, and whether it is signed. -/
theorem integerValues : Obligations.IntegerValues := by
  refine ⟨fun x => ⟨?_, ?_, ?_, ?s64⟩, fun x => ⟨?_, ?_, ?_, ?_, ?n64⟩,
    fun z => ⟨⟨?_, ?_⟩, ⟨?_, ?_⟩, ⟨?_, ?_, ?_⟩, ?w64, ?w64'⟩,
    fun z => ⟨⟨rfl, rfl⟩, ⟨rfl, rfl⟩, ⟨rfl, rfl, rfl⟩, rfl, rfl⟩⟩
  case s64 => rw [intVal_signed (w := 64) rfl rfl (by decide), BitVec.setWidth_eq]
  case n64 => rw [intVal_unsigned (w := 64) rfl rfl, BitVec.setWidth_eq]
  case w64 | w64' => rw [intWrap_ofInt (w := 64) rfl le_rfl, BitVec.setWidth_eq]
  iterate 3 exact intVal_signed rfl rfl (by decide) x
  iterate 4 exact intVal_unsigned rfl rfl x
  iterate 7 exact intWrap_ofInt rfl (by decide) z

/-! ### Shifts (R238) -/

/-- A value of `w` bits shifted down by `w` or more is its sign. -/
theorem toInt_div_sign {w n : Nat} (v : BitVec w) (hn : w ≤ n) : v.toInt / 2 ^ n = if v.toInt < 0 then -1 else 0 := by
  have hle : (2 : Int) ^ w ≤ 2 ^ n := pow_le_pow_right₀ (by decide) hn
  have hlo := BitVec.le_two_mul_toInt (x := v)
  have hhi := BitVec.two_mul_toInt_lt (x := v)
  split
  · exact Int.ediv_eq_neg_one_of_neg_of_le (by assumption) (by omega)
  · exact Int.ediv_eq_zero_of_lt (by omega) (by omega)

section shifts
variable {t : Ty} {w : Nat} (hw : tyWidth t = w) (h : w ≤ 64)

include hw in
theorem rawVal_setWidth (x : Dword) : rawVal t x = (x.setWidth w).toNat := by
  rw [rawVal, hw, BitVec.toNat_setWidth]

include hw in
theorem signedVal_setWidth (h0 : 0 < w) (x : Dword) : signedVal t x = (x.setWidth w).toInt := by
  unfold signedVal
  rw [rawVal_setWidth hw, hw]
  exact toInt_upperHalf _ h0

include hw in
theorem aluShr_shiftRight (x : Dword) (n : Nat) : aluShr t x n = ((x.setWidth w) >>> n).setWidth 64 := by
  unfold aluShr
  rw [hw]
  by_cases hn : n ≥ w
  · rw [if_pos hn, BitVec.ushiftRight_eq_zero hn]
    simp
  · rw [if_neg hn, rawVal_setWidth hw]
    apply BitVec.eq_of_toNat_eq
    rw [w64, BitVec.toNat_ofNat, BitVec.toNat_setWidth 64, BitVec.toNat_ushiftRight, Nat.shiftRight_eq_div_pow]

include hw h

/-- The bits that a shift to the left pushes out of the type's width are lost. -/
theorem aluShl_shiftLeft (x : Dword) (n : Nat) : aluShl t x n = ((x.setWidth w) <<< n).setWidth 64 := by
  unfold aluShl
  rw [hw]
  by_cases hn : n ≥ w
  · rw [if_pos hn, BitVec.shiftLeft_eq_zero hn]
    simp
  · rw [if_neg hn, intWrap_ofInt hw h, rawVal_setWidth hw]
    congr 1
    apply BitVec.eq_of_toNat_eq
    rw [BitVec.ofInt_natCast, BitVec.toNat_ofNat, BitVec.toNat_shiftLeft, Nat.shiftLeft_eq]

theorem aluSar_sshiftRight (h0 : 0 < w) (x : Dword) (n : Nat) :
    aluSar t x n = ((x.setWidth w).sshiftRight n).setWidth 64 := by
  unfold aluSar
  rw [hw, signedVal_setWidth hw h0, intWrap_ofInt hw h, BitVec.sshiftRight, Int.shiftRight_eq_div_pow]
  by_cases hn : n ≥ w
  · rw [if_pos hn]
    push_cast
    rw [toInt_div_sign _ hn]
  · rw [if_neg hn]
    push_cast
    rfl

end shifts

/-! ### Vector forms of one source, of three, and shifts (R237, R238, R240 to R242) -/

theorem vecOut1_vec1 {mk : Opnd → Opnd → Instr} {ty : Ty} {f : Dword → Dword}
    (hx : ∀ s d a, exec (mk d a) s = vec1 (mk d a) ty d a f s) (hp : ∀ d a, perLane (mk d a) = true)
    (hl : ∀ d a, isLong (mk d a) = false) : VecOut1 mk ty f := by
  intro s n a hq
  rw [hx, vec1, vecIssue_quiet _ s _ hq (hp ..) (hl ..), applyWrites_vec]

theorem vecOut3_vec3 {mk : Opnd → Opnd → Opnd → Opnd → Instr} {f : Dword → Dword → Dword → Dword}
    (hx : ∀ s d a b c, exec (mk d a b c) s = vec3 (mk d a b c) d a b c f s)
    (hp : ∀ d a b c, perLane (mk d a b c) = true) (hl : ∀ d a b c, isLong (mk d a b c) = false) : VecOut3 mk f := by
  intro s n a b c hq
  rw [hx, vec3, vecIssue_quiet _ s _ hq (hp ..) (hl ..), applyWrites_vec]

theorem vecShift_vecShift {mk : Opnd → Opnd → Opnd → Instr} {ty : Ty} {aff : Tag → Tag → Option Tag} {f : Dword → Nat → Dword}
    (hx : ∀ s d a b, exec (mk d a b) s = vecShift (mk d a b) ty aff d a b f s)
    (hp : ∀ d a b, perLane (mk d a b) = true) (hl : ∀ d a b, isLong (mk d a b) = false) : VecShift mk ty aff f := by
  intro s n a b hq
  rw [hx, vecShift, vecIssue_quiet _ s _ hq (hp ..) (hl ..), applyWrites_vec]

/-- Settles O6: every form writes through the mould of its sources, and a shift is that of a word of the type's width. -/
theorem vectorShiftsAndOthers : Obligations.VectorShiftsAndOthers := by
  refine ⟨⟨?shifts, ?literals, ?values⟩, ?types, ?popc, ?clz, ?bfi, ?prmt, ?lsel⟩
  case shifts =>
    intro ty
    refine ⟨?_, ?_, ?_⟩
    iterate 3 exact vecShift_vecShift (fun _ _ _ _ => rfl) (fun _ _ _ => rfl) (fun _ _ _ => rfl)
  case literals =>
    intro ts
    refine ⟨?_, ?_, ?_⟩
    iterate 3 exact vecOutI_vecI (fun _ _ _ _ => rfl) (fun _ _ _ => rfl) (fun _ _ _ => rfl)
  case values =>
    intro x n
    refine ⟨fun ty hty => ?_, fun ty hty => ?_⟩
    · have hw : tyWidth ty = 32 := by fin_cases hty <;> rfl
      exact ⟨aluShl_shiftLeft hw (by decide) x n, aluShr_shiftRight hw x n,
        aluSar_sshiftRight hw (by decide) (by decide) x n⟩
    · have hw : tyWidth ty = 64 := by fin_cases hty <;> rfl
      rw [aluShl_shiftLeft hw le_rfl, aluShr_shiftRight hw, aluSar_sshiftRight hw le_rfl (by decide)]
      simp only [BitVec.setWidth_eq, and_self]
  case types =>
    intro ty
    refine ⟨?_, ?_, ?_, fun co => ?_⟩
    iterate 2 exact vecOut1_vec1 (fun _ _ _ => rfl) (fun _ _ => rfl) (fun _ _ => rfl)
    iterate 2 exact vecOut3_vec3 (fun _ _ _ _ _ => rfl) (fun _ _ _ _ => rfl) (fun _ _ _ _ => rfl)
  case popc | clz => exact vecOut1_vec1 (fun _ _ _ => rfl) (fun _ _ => rfl) (fun _ _ => rfl)
  case bfi | prmt => exact vecOut3_vec3 (fun _ _ _ _ _ => rfl) (fun _ _ _ _ => rfl) (fun _ _ _ _ => rfl)
  case lsel => exact fun hi lo => vecOut3_vec3 (fun _ _ _ _ _ => rfl) (fun _ _ _ _ => rfl) (fun _ _ _ _ => rfl)

end Sys2Proof.Machine
end
section
/-!
PROOFS. O7: the bits of fields, of the carry, of logic select and of byte permutation (R239 to R242).
-/
namespace Sys2Proof.Machine

/-! ### Fields (R239) -/

/-- A field lies within the 32 bits of its source. -/
theorem fieldPos_add_fieldLen_le (b : Dword) : fieldPos b + fieldLen b ≤ 32 := by
  unfold fieldLen fieldPos
  omega

/-- The field that `bfe` takes, as a word of its length. -/
def fieldOf (a b : Dword) : BitVec (fieldLen b) := a.extractLsb' (fieldPos b) (fieldLen b)

theorem fieldOf_toNat (a b : Dword) :
    (fieldOf a b).toNat = a.toNat % 2 ^ 32 / 2 ^ fieldPos b % 2 ^ fieldLen b := by
  have hle := fieldPos_add_fieldLen_le b
  apply Nat.eq_of_testBit_eq
  intro j
  rw [fieldOf, BitVec.extractLsb'_toNat, Nat.testBit_mod_two_pow, Nat.testBit_mod_two_pow, Nat.testBit_div_two_pow,
    Nat.testBit_mod_two_pow, Nat.testBit_shiftRight, Nat.add_comm j]
  by_cases hj : j < fieldLen b
  · simp [hj, show fieldPos b + j < 32 by omega]
  · simp [hj]

theorem getLsbD_fieldOf (a b : Dword) (j : Nat) :
    (fieldOf a b).getLsbD j = (decide (j < fieldLen b) && a.getLsbD (fieldPos b + j)) :=
  BitVec.getLsbD_extractLsb' ..

/-- An unsigned `bfe` is its field, extended with zeros. -/
theorem aluBfe_n32 (a b : Dword) : aluBfe .n32 a b = (fieldOf a b).setWidth 64 := by
  have hf : w64 (fieldOf a b).toNat = (fieldOf a b).setWidth 64 :=
    BitVec.eq_of_toNat_eq ((BitVec.toNat_ofNat ..).trans (BitVec.toNat_setWidth ..).symm)
  by_cases h0 : fieldLen b = 0
  · have hz : fieldOf a b = 0 := by
      apply BitVec.eq_of_getLsbD_eq
      omega
    rw [hz]
    simp [aluBfe, h0]
  · rw [← hf, fieldOf_toNat]
    exact if_neg h0

/-- A signed `bfe` is its field, extended with its highest bit. -/
theorem aluBfe_s32 (a b : Dword) (h0 : 0 < fieldLen b) : aluBfe .s32 a b = ((fieldOf a b).signExtend 32).setWidth 64 := by
  have hv := toInt_upperHalf (fieldOf a b) h0
  have hw : intWrap .s32 (fieldOf a b).toInt = ((fieldOf a b).signExtend 32).setWidth 64 := intWrap_ofInt rfl (by decide) _
  have hlt : (fieldOf a b).toNat < 2 ^ 32 :=
    (fieldOf a b).isLt.trans_le (Nat.pow_le_pow_right (by decide) (by have := fieldPos_add_fieldLen_le b; omega))
  unfold aluBfe
  dsimp only
  rw [← fieldOf_toNat, if_neg h0.ne', ← hw, ← hv, show tySigned .s32 = true from rfl, Bool.true_and]
  by_cases hs : (fieldOf a b).toNat ≥ 2 ^ (fieldLen b - 1)
  · rw [if_pos (decide_eq_true hs), if_pos hs]
  · rw [if_neg (by simpa using hs), if_neg hs, intWrap_ofInt (w := 32) rfl (by decide), BitVec.ofInt_natCast]
    apply BitVec.eq_of_toNat_eq
    rw [w64, BitVec.toNat_setWidth, BitVec.toNat_ofNat, BitVec.toNat_ofNat, Nat.mod_eq_of_lt hlt]

theorem getLsbD_aluBfe_n32 (a b : Dword) {j : Nat} (hj : j < 32) :
    (aluBfe .n32 a b).getLsbD j = (decide (j < fieldLen b) && a.getLsbD (fieldPos b + j)) := by
  rw [aluBfe_n32, BitVec.getLsbD_setWidth, getLsbD_fieldOf, decide_eq_true (by omega), Bool.true_and]

theorem getLsbD_aluBfe_s32 (a b : Dword) {j : Nat} (hj : j < 32) :
    (aluBfe .s32 a b).getLsbD j = (decide (0 < fieldLen b) && a.getLsbD (fieldPos b + min j (fieldLen b - 1))) := by
  by_cases h0 : 0 < fieldLen b
  · rw [aluBfe_s32 a b h0, BitVec.getLsbD_setWidth, BitVec.getLsbD_signExtend, decide_eq_true hj, decide_eq_true h0,
      decide_eq_true (by omega : j < 64)]
    by_cases hlen : j < fieldLen b
    · rw [if_pos hlen, getLsbD_fieldOf, decide_eq_true hlen, Nat.min_eq_left (by omega)]
      rfl
    · rw [if_neg hlen, BitVec.msb_eq_getLsbD_last, getLsbD_fieldOf, decide_eq_true (by omega), Nat.min_eq_right (by omega)]
      rfl
  · have hz : aluBfe .s32 a b = 0 := if_pos (by omega)
    rw [hz, decide_eq_false h0]
    exact BitVec.getLsbD_zero

/-- The bits of the mask that `bfi` replaces. -/
theorem getLsbD_fieldMask (pos len : Nat) {j : Nat} (hj : j < 32) :
    (BitVec.ofNat 32 ((2 ^ len - 1) * 2 ^ pos)).getLsbD j = decide (pos ≤ j ∧ j < pos + len) := by
  rw [BitVec.getLsbD_ofNat, Nat.testBit_mul_two_pow, Nat.testBit_two_pow_sub_one, decide_eq_true hj, Bool.true_and,
    ← Bool.decide_and, decide_eq_decide]
  omega

theorem getLsbD_aluBfi (a b c : Dword) {j : Nat} (hj : j < 32) : (aluBfi a b c).getLsbD j =
    if fieldPos c ≤ j ∧ j < fieldPos c + fieldLen c then a.getLsbD (j - fieldPos c) else b.getLsbD j := by
  unfold aluBfi
  dsimp only
  simp only [BitVec.getLsbD_setWidth, BitVec.getLsbD_or, BitVec.getLsbD_and, BitVec.getLsbD_not, BitVec.getLsbD_shiftLeft,
    getLsbD_fieldMask _ _ hj]
  by_cases hin : fieldPos c ≤ j ∧ j < fieldPos c + fieldLen c
  · simp [hin, hj, show j < 64 by omega, show j - fieldPos c < 32 by omega, show ¬ j < fieldPos c by omega]
  · simp [hin, hj, show j < 64 by omega]

/-! ### Carry, logic select and byte permutation (R240 to R242) -/

theorem aluAddc_toNat (co : Bool) (a b c : Dword) : (aluAddc co a b c).toNat =
    let t := a.toNat % 2 ^ 32 + b.toNat % 2 ^ 32 + c.toNat % 2
    if co then t / 2 ^ 32 else t % 2 ^ 32 := by
  unfold aluAddc w64
  dsimp only
  rw [BitVec.toNat_ofNat]
  exact Nat.mod_eq_of_lt (by split <;> omega)

theorem getLsbD_aluLsel (hi lo : BitVec 4) (a b c : Dword) {j : Nat} (hj : j < 32) : (aluLsel hi lo a b c).getLsbD j =
    let k := 2 * (a.getLsbD j).toNat + (b.getLsbD j).toNat
    if c.getLsbD j then hi.getLsbD k else lo.getLsbD k := by
  unfold aluLsel
  dsimp only
  rw [BitVec.getLsbD_setWidth, decide_eq_true (by omega), Bool.true_and]
  exact laneOn_maskOf _ hj

/-- Byte `k` of the eight source bytes of `prmt`. -/
theorem prmtSource_byte (a b : Nat) {k : Nat} (hk : k < 8) :
    (a % 2 ^ 32 + 2 ^ 32 * (b % 2 ^ 32)) / 256 ^ k % 256
      = (if k < 4 then a / 256 ^ k else b / 256 ^ (k - 4)) % 256 := by
  interval_cases k <;> norm_num <;> omega

/-- Byte `i` of four bytes put side by side. -/
theorem byte_of_four {f : Nat → Nat} (hf : ∀ i, f i < 256) {i : Nat} (hi : i < 4) :
    (w64 (f 0 + 256 * f 1 + 65536 * f 2 + 16777216 * f 3)).toNat / 256 ^ i % 256 = f i := by
  have h0 := hf 0
  have h1 := hf 1
  have h2 := hf 2
  have h3 := hf 3
  have hsum : (w64 (f 0 + 256 * f 1 + 65536 * f 2 + 16777216 * f 3)).toNat
      = f 0 + 256 * f 1 + 65536 * f 2 + 16777216 * f 3 := (BitVec.toNat_ofNat ..).trans (Nat.mod_eq_of_lt (by omega))
  rw [hsum]
  interval_cases i <;> omega

/-- The byte that a nibble of the selector of `prmt` gives: a source byte, or its highest bit eight times. -/
def prmtByte (src s : Nat) : Nat :=
  let x := src / 256 ^ (s % 8) % 256
  if s ≥ 8 then (if x ≥ 128 then 255 else 0) else x

theorem prmtByte_lt (src s : Nat) : prmtByte src s < 256 := by
  unfold prmtByte
  dsimp only
  split
  · split <;> decide
  · omega

theorem aluPrmt_byte (a b c : Dword) {i : Nat} (hi : i < 4) : (aluPrmt a b c).toNat / 256 ^ i % 256
    = prmtByte (a.toNat % 2 ^ 32 + 2 ^ 32 * (b.toNat % 2 ^ 32)) (c.toNat / 16 ^ i % 16) :=
  byte_of_four (f := fun i => prmtByte _ (c.toNat / 16 ^ i % 16)) (fun _ => prmtByte_lt _ _) hi

/-- Settles O7: each instruction by the bits, or the bytes, of its sources. -/
theorem bitResults : Obligations.BitResults := by
  refine ⟨fun a b c j hj => getLsbD_aluBfi a b c hj, fun a b j hj => ⟨getLsbD_aluBfe_n32 a b hj, getLsbD_aluBfe_s32 a b hj⟩,
    fun a b c => ⟨aluAddc_toNat false a b c, aluAddc_toNat true a b c⟩, fun hi lo a b c j hj => getLsbD_aluLsel hi lo a b c hj, ?prmt⟩
  case prmt =>
    intro a b c i hi
    dsimp only
    rw [aluPrmt_byte a b c hi, prmtByte, prmtSource_byte _ _ (Nat.mod_lt _ (by decide))]
    generalize c.toNat / 16 ^ i % 16 = s
    generalize (if s % 8 < 4 then a.toNat / 256 ^ (s % 8) else b.toNat / 256 ^ (s % 8 - 4)) % 256 = x
    by_cases hs : s < 8
    · rw [if_pos hs, if_neg (by omega)]
    · rw [if_neg hs, if_pos (by omega)]
      by_cases hx : x < 128
      · rw [if_pos hx, if_neg (by omega)]
      · rw [if_neg hx, if_pos (by omega)]

end Sys2Proof.Machine
end
section
/-!
PROOFS. O8: comparison and selection (R243, R244).
-/
namespace Sys2Proof.Machine

/-! ### Values that are read for the 32 lanes only -/

theorem lanes32_getD {α : Type} (f : Nat → α) (d : α) {l : Nat} (h : l < 32) : (lanes32.map f).getD l d = f l := by
  simp [lanes32, h]

theorem vecWrites_congr (s : State) (d : Opnd) (pr : Bool) (aff : Option Tag) (all : Bool) {f f' : Nat → Dword}
    (h : ∀ l < 32, f l = f' l) : vecWrites s d pr aff all f = vecWrites s d pr aff all f' := by
  have hm : lanes32.map f = lanes32.map f' := List.map_congr_left fun l hl => h l (by simpa [lanes32] using hl)
  unfold vecWrites
  rw [hm]

theorem maskOf_congr {f f' : Nat → Bool} (h : ∀ l < 32, f l = f' l) : maskOf f = maskOf f' :=
  BitVec.eq_of_getLsbD_eq fun l hl => (laneOn_maskOf f hl).trans ((h l hl).trans (laneOn_maskOf f' hl).symm)

/-! ### The issue of a comparison and of a selection -/

/-- A short instruction of a quiet group whose lanes raise flags that trap nothing. -/
theorem flaggedIssue_quiet {i : Instr} {s : State} (ws : List RegWrite) {fp : List FpFlags} (hq : Quiet s) (hp : perLane i = true)
    (hl : isLong i = false) (hf : fpTrap (trapEnables s.g) fp 0 = none) :
    issue i (.ok { Effect.write s ws with fp := fp }) s = .next (vecDone i s (addFps (applyWrites s.g ws) (orFlags fp))) := by
  rw [issue_short i _ s hl, finishShort_quiet i { Effect.write s ws with fp := fp } hq rfl hf, hp]
  show Host.Outcome.next (countLanes (advance i s (addFps (applyWrites s.g ws) (orFlags fp ||| 0))) (popcount (execMask s))) = _
  rw [show orFlags fp ||| 0 = orFlags fp from BitVec.or_zero]
  rfl

/-- The truth of each element and the flags of `cmp` in a lane (R243). -/
def cmpLane (s : State) (ty : Ty) (cc : Cond) (a b : Opnd) (l : Nat) : Bool × Bool × FpFlags :=
  cmpElems (ftz s.g) ty cc (srcTy s ty a l) (srcTy s ty b l)

/-- The writes of `cmp` from the truths of its lanes. -/
def cmpWrites (s : State) (ty : Ty) (all : Bool) (r : Nat → Bool × Bool × FpFlags) : Opnd → List RegWrite
  | .s n => if execMask s = 0 then [] else [.sca n (maskOf fun l => laneOn (execMask s) l && (r l).1)]
  | d => vecWrites s d false none all fun l => if ty.packed then w64 ((r l).1.toNat + 65536 * (r l).2.1.toNat) else truth (r l).1

theorem cmpWrites_congr (s : State) (ty : Ty) (all : Bool) {r r' : Nat → Bool × Bool × FpFlags} (h : ∀ l < 32, r l = r' l)
    (d : Opnd) : cmpWrites s ty all r d = cmpWrites s ty all r' d := by
  cases d with
  | s n =>
    have hm := maskOf_congr (f := fun l => laneOn (execMask s) l && (r l).1) fun l hl => by rw [h l hl]
    exact congrArg (fun m => if execMask s = 0 then [] else [RegWrite.sca n m]) hm
  | _ => exact vecWrites_congr s _ false none all fun l hl => by rw [h l hl]

/-- `cmp` issues with the truths and the flags of its lanes. -/
theorem exec_cmp (s : State) (ty : Ty) (cc : Cond) (d a b : Opnd) : exec (.cmp ty cc d a b) s
    = issue (.cmp ty cc d a b) (.ok { Effect.write s (cmpWrites s ty (allUniform s (ty.regs == 2) [a, b]) (cmpLane s ty cc a b) d) with
        fp := activeFlags s fun l => (0, (cmpLane s ty cc a b l).2.2) }) s := by
  have hr : ∀ l < 32, (lanes32.map (cmpLane s ty cc a b)).getD l (false, false, 0) = cmpLane s ty cc a b l :=
    fun l hl => lanes32_getD _ _ hl
  have hfp : (lanes32.map fun l => if laneOn (execMask s) l then
      ((lanes32.map (cmpLane s ty cc a b)).getD l (false, false, 0)).2.2 else 0)
        = activeFlags s fun l => (0, (cmpLane s ty cc a b l).2.2) :=
    List.map_congr_left fun l hl => by rw [hr l (by simpa [lanes32] using hl)]
  rw [← cmpWrites_congr s ty _ hr d, ← hfp]
  cases d <;> rfl

section sel
variable {s : State} (hq : Quiet s) (ty : Ty) (n : Nat) (a b : Opnd)
include hq

/-- A selection writes the lanes that its selector picks. -/
theorem exec_sel {c : Opnd} {all : Bool} {f : Nat → Dword} (hx : exec (.sel ty (.v n) a b c) s = issue (.sel ty (.v n) a b c)
    (.ok (.write s (vecWrites s (.v n) (ty.regs == 2) none all f))) s) : exec (.sel ty (.v n) a b c) s
      = .next (vecDone (.sel ty (.v n) a b c) s (putVecTy s n (ty.regs == 2) none all f)) := by
  rw [hx, vecIssue_quiet _ s _ hq rfl rfl, applyWrites_vec]

theorem exec_sel_vec (m : Nat) : exec (.sel ty (.v n) a b (.v m)) s = .next (vecDone (.sel ty (.v n) a b (.v m)) s
    (putVecTy s n (ty.regs == 2) none (allUniform s (ty.regs == 2) [a, b] && allUniform s false [.v m]) fun l =>
      if readV s m l ≠ 0 then srcTy s ty a l else srcTy s ty b l)) := by
  have hf : (fun l => if (readV s m l != 0) = true then srcTy s ty a l else srcTy s ty b l)
      = fun l => if readV s m l ≠ 0 then srcTy s ty a l else srcTy s ty b l := by
    simp only [bne_iff_ne]
  rw [← hf]
  exact exec_sel hq ty n a b rfl

theorem exec_sel_sca (m : Nat) : exec (.sel ty (.v n) a b (.s m)) s = .next (vecDone (.sel ty (.v n) a b (.s m)) s
    (putVecTy s n (ty.regs == 2) none false fun l => if laneOn (readS s m) l then srcTy s ty a l else srcTy s ty b l)) :=
  exec_sel hq ty n a b rfl

end sel

/-- Settles O8: a comparison issues with the truths of its lanes, and a selection with the lanes that its selector picks. -/
theorem compareAndSelect : Obligations.CompareAndSelect := by
  refine ⟨?compare, fun s ty n m a b hq => ⟨exec_sel_vec hq ty n a b m, exec_sel_sca hq ty n a b m⟩⟩
  case compare =>
    intro s ty cc n a b hq r flags hf
    constructor
    · refine (exec_cmp ..).trans ((flaggedIssue_quiet _ hq rfl rfl hf).trans ?_)
      rw [cmpWrites, apply_ite (applyWrites s.g)]
      rfl
    · refine (exec_cmp ..).trans ((flaggedIssue_quiet _ hq rfl rfl hf).trans ?_)
      rw [cmpWrites, applyWrites_vec]
      · rfl
      · exact fun _ h => Opnd.noConfusion h

end Sys2Proof.Machine
end
section
/-!
PROOFS. O12: shuffles, votes, matches and compaction of the active lanes (R262 to R268).
-/
namespace Sys2Proof.Machine

/-! ### Sub-groups (R219) -/

theorem subWidth_pos (w : SubW) : 0 < subWidth w := by cases w <;> decide

theorem mem_subLanes {w l k : Nat} (hw : 0 < w) : k ∈ subLanes w l ↔ k / w = l / w := by
  simp only [subLanes, List.mem_map, List.mem_range]
  constructor
  · rintro ⟨i, hi, rfl⟩
    rw [Nat.mul_comm, Nat.mul_add_div hw, Nat.div_eq_of_lt hi, Nat.add_zero]
  · intro h
    exact ⟨k % w, Nat.mod_lt _ hw, by rw [← h]; exact Nat.div_add_mod' k w⟩

/-- The 32 lanes are whole sub-groups. -/
theorem subLanes_lt (w : SubW) {l k : Nat} (hl : l < 32) (hk : k ∈ subLanes (subWidth w) l) : k < 32 := by
  rw [mem_subLanes (subWidth_pos w)] at hk
  cases w <;> simp only [subWidth] at hk <;> omega

/-! ### A cross-lane instruction that raises no flags lands its lanes -/

section lands
variable {s : State} {n : Nat} {a b c : Opnd} {w : SubW} {mm : Option Word}

/-- The lanes of a cross-lane instruction, and the STS bit of its member mask, land. -/
theorem cross_lands_lanes {i : Instr} {f : Option Word → Except Raise (List RegWrite × Word × List FpFlags)} {pr all : Bool}
    {out out' : Nat → Dword} (hx : exec i s = crossIssue i c 0 f s) (hs : Idle s) (hl : isLong i = true) (hon : execMask s ≠ 0)
    (hc : Covers s c mm) (hf : f mm = .ok (vecWrites s (.v n) pr none all out, 0, [])) (ho : ∀ l < 32, out l = out' l) :
    Lands i s s (addSts (putVecTy s n pr none all out') (memberSts s mm)) := by
  rw [vecWrites_congr s (.v n) pr none all ho] at hf
  have h := cross_lands hx hs hl hon hc hf (fpTrap_none _)
  rwa [applyWrites_vec, show orFlags [] = 0 from rfl, addFps_zero, show memberSts s mm ||| 0 = memberSts s mm from BitVec.or_zero] at h

/-! ### Votes (R266) -/

/-- The active lanes in which the predicate holds. -/
def voteHits (s : State) (a : Opnd) (k : Nat) : Bool := laneOn (execMask s) k && srcLane s a k != 0

/-- What a lane gets of a vote. -/
def voteOut (s : State) (a : Opnd) (w : SubW) (l : Nat) : VoteMode → Dword
  | .any => truth ((subLanes (subWidth w) l).any (voteHits s a))
  | .all => truth ((subLanes (subWidth w) l).all fun k => !laneOn (execMask s) k || srcLane s a k != 0)
  | .ballot => (maskOf fun k => k / subWidth w == l / subWidth w && voteHits s a k).setWidth 64

theorem vote_lands (md : VoteMode) (hs : Idle s) (hon : execMask s ≠ 0) (hc : Covers s c mm) :
    Lands (.vote md w (.v n) a c) s s
      (addSts (putVecTy s n false none (w == .w32) fun l => voteOut s a w l md) (memberSts s mm)) := by
  refine cross_lands_lanes rfl hs rfl hon hc rfl fun l hl => ?_
  rw [memberLanes_covers hc]
  have hhit : ∀ k < 32, laneOn (maskOf (voteHits s a)) k = voteHits s a k := fun k hk => laneOn_maskOf _ hk
  have hsub : ∀ k ∈ subLanes (subWidth w) l, laneOn (maskOf (voteHits s a)) k = voteHits s a k :=
    fun k hk => hhit k (subLanes_lt w hl hk)
  cases md with
  | any =>
    refine congrArg truth (Bool.eq_iff_iff.mpr ?_)
    simp only [List.any_eq_true]
    exact exists_congr fun k => and_congr_right fun hk => Bool.eq_iff_iff.mp (hsub k hk)
  | all =>
    refine congrArg truth (Bool.eq_iff_iff.mpr ?_)
    simp only [List.all_eq_true]
    refine forall₂_congr fun k hk => ?_
    rw [show laneOn (maskOf fun l => laneOn (execMask s) l && srcLane s a l != 0) k = _ from hsub k hk, voteHits]
    cases laneOn (execMask s) k <;> rfl
  | ballot =>
    refine congrArg (BitVec.setWidth 64) (maskOf_congr fun k hk => ?_)
    rw [show laneOn (maskOf fun l => laneOn (execMask s) l && srcLane s a l != 0) k = _ from hhit k hk, List.contains_eq_mem,
      decide_eq_decide.mpr (mem_subLanes (subWidth_pos w))]
    rfl

/-! ### Matches and compaction (R267, R268) -/

theorem match_lands (pr : Bool) (hs : Idle s) (hon : execMask s ≠ 0) (hc : Covers s c mm) :
    Lands (.matchOp w pr (.v n) a c) s s (addSts (putVecTy s n false none false fun l =>
      let x (k : Nat) : Dword := if pr then srcPair s a k else (srcLane s a k).setWidth 64
      (maskOf fun k => k / subWidth w == l / subWidth w && laneOn (execMask s) k && x k == x l).setWidth 64) (memberSts s mm)) := by
  refine cross_lands_lanes rfl hs rfl hon hc rfl fun l hl => ?_
  refine congrArg (BitVec.setWidth 64) (maskOf_congr fun k hk => ?_)
  dsimp only
  rw [memberLanes_covers hc, lanes32_getD _ _ hk, lanes32_getD _ _ hl]

theorem cmpct_lands {sel : Word} (hs : Idle s) (hon : execMask s ≠ 0) (hc : Covers s c mm) (hb : uni s 2 b = .ok sel) :
    Lands (.cmpct w (.v n) a b c) s s (addSts (putVecTy s n false none false fun l =>
      match ((subLanes (subWidth w) l).filter (laneOn (execMask s &&& sel)))[l % subWidth w]? with
      | some k => (srcLane s a k).setWidth 64
      | none => 0) (memberSts s mm)) := by
  have h := long_lands (i := .cmpct w (.v n) a b c) (fp := []) (sts := memberSts s mm) (by
    show execCmpct w (.v n) a b c s = _
    rw [execCmpct, if_neg hon, hb, members_covers hc]
    rfl) hs rfl (fpTrap_none _)
  rw [vecGeneral, applyWrites_vec, show orFlags [] = 0 from rfl, addFps_zero, memberLanes_covers hc] at h
  exact h

end lands

/-- Without an active lane a cross-lane instruction that gives no STS bit changes nothing but the slot's address. -/
theorem cross_idle_still {i : Instr} {s : State} {c : Opnd} {f : Option Word → Except Raise (List RegWrite × Word × List FpFlags)}
    (hx : exec i s = crossIssue i c 0 f s) (hs : Idle s) (hl : isLong i = true) (hz : execMask s = 0) : Lands i s s s.g := by
  have h := cross_idle_lands hx hs hl hz
  rwa [addSts_zero] at h

theorem cmpct_idle_still {s : State} {d a b c : Opnd} {w : SubW} (hs : Idle s) (hz : execMask s = 0) :
    Lands (.cmpct w d a b c) s s s.g :=
  long_done [] [] (by show execCmpct w d a b c s = _; rw [execCmpct, if_pos hz]; rfl) hs (Calm.rfl' s) rfl

/-- Settles O12: the active lanes are the members, and each form lands what its lanes get of them. -/
theorem crossLaneMoves : Obligations.CrossLaneMoves := by
  refine ⟨?active, fun s d a b c w pr sm vm hs hz => ⟨?_, ?_, ?_, cmpct_idle_still hs hz⟩⟩
  case active =>
    intro s n a b c w mm hs hon hc done
    exact ⟨fun md pr => cross_lands_lanes rfl hs rfl hon hc rfl fun _ _ => rfl, vote_lands .any hs hon hc,
      vote_lands .all hs hon hc, vote_lands .ballot hs hon hc, fun pr => match_lands pr hs hon hc,
      fun sel hb => cmpct_lands hs hon hc hb⟩
  iterate 3 exact cross_idle_still rfl hs rfl hz

end Sys2Proof.Machine
end
section
/-!
PROOFS. O15: the masks of a slot, and the masks in scalar registers (R271, R272).
-/
namespace Sys2Proof.Machine

section masks
variable {i : Instr} {s : State} {a b : Opnd} {n : Nat} {m x y : Word}

theorem quiet_setCur (hq : Quiet s) (p : PcSlot) : Quiet (setCur s p) :=
  ⟨(setSlot_inflight ..).trans hq.1, by rw [setCur_g, setSlot_core]; exact hq.2⟩

/-- A mask instruction replaces the slot's mask by one that is not empty (R271). -/
theorem maskIssue_replaces (hx : exec i s = maskIssue i (.ok m) s) (hq : Quiet s) (hl : isLong i = false) (hp : perLane i = false)
    (hm : m ≠ 0) : exec i s = .next (advance i (withMask s m) (withMask s m).g) := by
  rw [hx, maskIssue]
  show issue i (if m = 0 then _ else _) s = _
  rw [if_neg hm]
  exact short_done (quiet_setCur hq _) hl hp

theorem maskIssue_empty (hx : exec i s = maskIssue i (.ok m) s) (hm : m = 0) : Faults i s (.plain 0x203 0) :=
  issue_faults (by rw [hx, maskIssue]; exact congrArg (issue i · s) (if_pos hm))

theorem exec_execSet (ha : uni s 1 a = .ok x) (hp : (stackOffs s).find? (sumpPoison s) = none) :
    exec (.execSet a) s = maskIssue (.execSet a) (.ok (x &&& ~~~s.g.exited &&& ~~~(claimed s))) s := by
  show execExecSet a s = _
  rw [execExecSet, ha]
  simp only [Except.bind, hp]

theorem execSet_faults {off : Nat} (ha : uni s 1 a = .ok x) (hp : (stackOffs s).find? (sumpPoison s) = some off) :
    Faults (.execSet a) s (sumpRaise off) := by
  refine maskIssue_faults (r := .error (sumpRaise off)) ?_ rfl
  show execExecSet a s = _
  rw [execExecSet, ha]
  simp only [Except.bind, hp]

theorem exec_execAnd (ha : uni s 1 a = .ok x) : exec (.execAnd a) s = maskIssue (.execAnd a) (.ok (execMask s &&& x)) s := by
  show execExecAnd a s = _
  rw [execExecAnd, ha]
  rfl

theorem exec_execAndn (ha : uni s 1 a = .ok x) :
    exec (.execAndn a) s = maskIssue (.execAndn a) (.ok (execMask s &&& ~~~x)) s := by
  show execExecAndn a s = _
  rw [execExecAndn, ha]
  rfl

/-- A mask in a scalar register. -/
theorem exec_scalarMask {r : Except Raise Dword} (hx : exec i s = scaIssue i (.s n) false r s) (hq : Quiet s)
    (hp : perLane i = false) (hl : isLong i = false) (hr : r = .ok (m.setWidth 64)) :
    exec i s = .next (advance i s (setSreg s.g n m)) := by
  rw [exec_scaIssue hx hq hp hl hr]
  show Host.Outcome.next (advance i s (setSreg s.g n ((m.setWidth 64).setWidth 32))) = _
  rw [BitVec.setWidth_setWidth_of_le _ (by decide), BitVec.setWidth_eq]

theorem uniW_single {k : Nat} (ha : uni s k a = .ok x) : uniW s k false a = .ok (x.setWidth 64) := by
  rw [uniW, if_neg (by simp), ha]
  rfl

theorem exec_maskOp {mk : Opnd → Opnd → Opnd → Instr} {f : Dword → Dword → Dword}
    (hx : exec (mk (.s n) a b) s = scaIssue (mk (.s n) a b) (.s n) false (sca2 s false false a b f) s) (hq : Quiet s)
    (hp : perLane (mk (.s n) a b) = false) (hl : isLong (mk (.s n) a b) = false) (ha : uni s 1 a = .ok x) (hb : uni s 2 b = .ok y)
    (hf : f (x.setWidth 64) (y.setWidth 64) = m.setWidth 64) :
    exec (mk (.s n) a b) s = .next (advance (mk (.s n) a b) s (setSreg s.g n m)) :=
  exec_scalarMask hx hq hp hl (by rw [sca2_ok f (uniW_single ha) (uniW_single hb), hf])

theorem exec_mNot (hq : Quiet s) (ha : uni s 1 a = .ok x) :
    exec (.mNot (.s n) a) s = .next (advance (.mNot (.s n) a) s (setSreg s.g n (execMask s &&& ~~~x))) :=
  exec_scalarMask (r := (uni s 1 a).map fun x => (execMask s &&& ~~~x).setWidth 64) rfl hq rfl rfl (by rw [ha]; rfl)

theorem exec_mFfs (hq : Quiet s) (ha : uni s 1 a = .ok x) :
    exec (.mFfs (.s n) a) s = .next (advance (.mFfs (.s n) a) s (setSreg s.g n (w32 ((lowest x).getD 32)))) := by
  have hlt : (lowest x).getD 32 < 2 ^ 32 := by
    cases h : lowest x with
    | none => decide
    | some k =>
      have hk : k < 32 := by simpa [lanes32] using List.mem_of_find?_eq_some h
      show k < 2 ^ 32
      omega
  refine exec_scalarMask (r := (uni s 1 a).map fun x => w64 ((lowest x).getD 32)) rfl hq rfl rfl ?_
  rw [ha]
  refine congrArg Except.ok (BitVec.eq_of_toNat_eq ?_)
  rw [BitVec.toNat_setWidth]
  exact congrArg (· % 2 ^ 64) (Nat.mod_eq_of_lt hlt).symm

/-- The lowest set bit is the one below which none is set. -/
theorem lowest_eq_some {k : Nat} (hk : k < 32) (hon : x.getLsbD k = true) (hlow : ∀ j < k, x.getLsbD j = false) :
    lowest x = some k := by
  refine (List.find?_range_eq_some).mpr ⟨hon, by simpa using hk, fun j hj => ?_⟩
  rw [laneOn, hlow j hj]
  rfl

end masks

/-- Settles O15: a mask instruction by the mask that it makes, and a scalar one by the word that it writes. -/
theorem masksOfLanes : Obligations.MasksOfLanes := by
  refine ⟨?slot, ?scalar⟩
  case slot =>
    intro s n a x hq ha becomes
    have hb : ∀ {i m}, exec i s = maskIssue i (.ok m) s → isLong i = false → perLane i = false → becomes i m :=
      fun hx hl hp => ⟨maskIssue_replaces hx hq hl hp, maskIssue_empty hx⟩
    exact ⟨exec_scalarMask rfl hq rfl rfl rfl, fun hp => hb (exec_execSet ha hp) rfl rfl, fun off hp => execSet_faults ha hp,
      hb (exec_execAnd ha) rfl rfl, hb (exec_execAndn ha) rfl rfl⟩
  case scalar =>
    intro s n a b x y hq ha hb writes
    refine ⟨exec_maskOp rfl hq rfl rfl ha hb BitVec.setWidth_and.symm, exec_maskOp rfl hq rfl rfl ha hb BitVec.setWidth_or.symm,
      exec_maskOp rfl hq rfl rfl ha hb BitVec.setWidth_xor.symm, exec_mNot hq ha, fun hz => ?_, fun k hk hon hlow => ?_⟩
    · subst hz
      exact exec_mFfs hq ha
    · have h := exec_mFfs (n := n) hq ha
      rwa [lowest_eq_some hk hon hlow] at h

end Sys2Proof.Machine
end
section
/-!
PROOFS. O18, O19: arrival at a barrier, waiting at one, `yield`, and the completion of phases (R277 to R279).
-/
namespace Sys2Proof.Machine

/-! ### Barriers (R278) -/

section barriers
variable {s : State} {n : BitVec 4}

/-- An arrival marks threads and completes phases, after the group's stores have become visible. -/
theorem arrive_eq (s : State) (k : Nat) :
    ∃ m ps, arrive s k = { s with g := { s.g with marks := m }, team := { s.team with phases := ps } } := by
  obtain ⟨ps, hps⟩ := settleBarriers_eq { s with g := { s.g with marks := lanes32.foldl (fun m l =>
    if laneOn (execMask s) l then mins m (32 * k + l) (mget 0 s.team.phases k) else m) s.g.marks } }
  exact ⟨_, ps, hps⟩

theorem quiet_arrived (hq : Quiet s) (k : Nat) : Quiet (arrive (drainStores s) k) := by
  obtain ⟨m, ps, he⟩ := arrive_eq (drainStores s) k
  rw [he]
  exact (calm_drainStores s).quiet hq

theorem exec_barArr (hq : Quiet s) (h : someArrived s n.toNat = false) : exec (.barArr n) s
    = .next (advance (.barArr n) (arrive (drainStores s) n.toNat) (arrive (drainStores s) n.toNat).g) :=
  (if_neg (by rw [h]; exact Bool.false_ne_true)).trans (short_done (quiet_arrived hq _) rfl rfl)

theorem exec_barArr_waits (h : someArrived s n.toNat = true) :
    exec (.barArr n) s = .next (setCur s ((cur s).pause (.barrier n.toNat true))) := if_pos h

theorem exec_barWait (hq : Quiet s) (h : someArrived s n.toNat = false) :
    exec (.barWait n) s = .next (advance (.barWait n) s s.g) :=
  (if_neg (by rw [h]; exact Bool.false_ne_true)).trans (short_done hq rfl rfl)

theorem exec_barWait_waits (h : someArrived s n.toNat = true) :
    exec (.barWait n) s = .next (setCur s ((cur s).pause (.barrier n.toNat false))) := if_pos h

/-- A slot that does not wait yet arrives as it issues `bar.sync`, and then waits where its phase is not over. -/
theorem exec_barSync_running (hw : (cur s).wait = .running) : exec (.barSync n) s
    = let st := arrive (drainStores s) n.toNat
      if someArrived st n.toNat then .next (pauseAs st (.barrier n.toNat false)) else issue (.barSync n) (.ok (.of st)) s := by
  show execBarSync n s = _
  have hnot : ¬ (cur s).wait = .barrier n.toNat false := by rw [hw]; exact Wait.noConfusion
  rw [execBarSync, if_neg hnot]

theorem exec_barSync (hq : Quiet s) (hw : (cur s).wait = .running)
    (h : someArrived (arrive (drainStores s) n.toNat) n.toNat = false) : exec (.barSync n) s
    = .next (advance (.barSync n) (arrive (drainStores s) n.toNat) (arrive (drainStores s) n.toNat).g) := by
  rw [exec_barSync_running hw]
  exact (if_neg (by rw [h]; exact Bool.false_ne_true)).trans (short_done (quiet_arrived hq _) rfl rfl)

theorem exec_barSync_waits (hw : (cur s).wait = .running)
    (h : someArrived (arrive (drainStores s) n.toNat) n.toNat = true) : exec (.barSync n) s
    = .next (setCur (arrive (drainStores s) n.toNat) ((cur (arrive (drainStores s) n.toNat)).pause (.barrier n.toNat false))) := by
  rw [exec_barSync_running hw]
  exact if_pos h

end barriers

/-! ### `yield` (R279) -/

/-- The slot after `yield`: at its next address, with no port. -/
def yielded (s : State) : PcSlot :=
  let p := (cur s).moveTo s.now (nextAddr .yield (cur s))
  { p with stand := if p.stand = .issuing then .paused else p.stand, ageless := true }

theorem exec_yield (s : State) : exec .yield s = .next (setCur s (yielded s)) := rfl

theorem yielded_stand (s : State) : (yielded s).stand ≠ .issuing := by
  show (if ((cur s).moveTo s.now (nextAddr .yield (cur s))).stand = .issuing then Stand.paused
    else ((cur s).moveTo s.now (nextAddr .yield (cur s))).stand) ≠ .issuing
  split
  · exact nofun
  · assumption

/-- Settles O18: arrivals and waits by whether a thread of the slot has arrived, and `yield` by the slot that it leaves. -/
theorem barriers : Obligations.Barriers := by
  refine ⟨?_, fun s _ => ⟨_, exec_yield s, ?_⟩⟩
  · intro s n hq st
    exact ⟨exec_barArr hq, exec_barArr_waits, exec_barWait hq, exec_barWait_waits, exec_barSync hq, exec_barSync_waits⟩
  · rw [setCur_g, slot_setSlot, setSlot_vregs, setSlot_sregs]
    exact ⟨rfl, yielded_stand s, moveTo_pc .., rfl, rfl, rfl⟩

/-! ### Phases (R277) -/

/-- Every thread of the groups that has not exited has arrived in the current phase of barrier `n`. -/
def phaseComplete (gs : List Group) (ps : SMap Word) (n : Nat) : Bool :=
  gs.all fun g => lanes32.all fun l => laneOn g.exited l || mget? g.marks (32 * n + l) == some (mget 0 ps n)

theorem phaseComplete_iff (gs : List Group) (ps : SMap Word) (n : Nat) : phaseComplete gs ps n = true
    ↔ ∀ g ∈ gs, ∀ l < 32, laneOn g.exited l = true ∨ mget? g.marks (32 * n + l) = some (mget 0 ps n) := by
  simp only [phaseComplete, List.all_eq_true, lanes32, List.mem_range, Bool.or_eq_true, beq_iff_eq]

/-- The next phase of a barrier begins where its phase is complete. -/
def settlePhase (gs : List Group) (ps : SMap Word) (n : Nat) : SMap Word :=
  if phaseComplete gs ps n then mset 0 ps n (mget 0 ps n + 1) else ps

theorem mrising_settlePhase {gs : List Group} {ps : SMap Word} (h : mrising ps = true) (n : Nat) :
    mrising (settlePhase gs ps n) = true := by
  unfold settlePhase
  split
  · exact mrising_mset 0 n _ h
  · exact h

theorem mget_settlePhase {gs : List Group} {ps : SMap Word} (h : mrising ps = true) (n k : Nat) : mget 0 (settlePhase gs ps n) k
    = if k = n ∧ phaseComplete gs ps k = true then mget 0 ps k + 1 else mget 0 ps k := by
  unfold settlePhase
  by_cases hk : k = n
  · subst hk
    by_cases hc : phaseComplete gs ps k = true
    · rw [if_pos hc, if_pos ⟨rfl, hc⟩, mget_mset 0 h, if_pos rfl]
    · rw [if_neg hc, if_neg fun hh : k = k ∧ _ => hc hh.2]
  · rw [if_neg (c := k = n ∧ _) fun hh => hk hh.1]
    split
    · rw [mget_mset 0 h, if_neg hk]
    · rfl

/-- Whether a phase is complete depends on no other barrier's phase. -/
theorem phaseComplete_congr {gs : List Group} {ps ps' : SMap Word} {n : Nat} (h : mget 0 ps' n = mget 0 ps n) :
    phaseComplete gs ps' n = phaseComplete gs ps n := by rw [phaseComplete, h]; rfl

/-- Barriers settle one after another, each by its own phase. -/
theorem mget_settlePhases {gs : List Group} {ns : List Nat} (hn : ns.Nodup) {ps : SMap Word} (h : mrising ps = true) (k : Nat) :
    mget 0 (ns.foldl (settlePhase gs) ps) k
      = if k ∈ ns ∧ phaseComplete gs ps k = true then mget 0 ps k + 1 else mget 0 ps k := by
  induction ns generalizing ps with
  | nil => simp
  | cons n t ih =>
    obtain ⟨hnt, ht⟩ := List.nodup_cons.mp hn
    rw [List.foldl_cons, ih ht (mrising_settlePhase h n)]
    by_cases hk : k = n
    · subst hk
      rw [if_neg fun hh => hnt hh.1, mget_settlePhase h]
      simp
    · have hsame : mget 0 (settlePhase gs ps n) k = mget 0 ps k := by
        rw [mget_settlePhase h, if_neg fun hh => hk hh.1]
      rw [phaseComplete_congr hsame, hsame]
      simp [hk]

/-- Settling changes the phases of the team in focus alone. -/
theorem settleBarriers_phases {s : State} (h : (groupsOf s s.team.ref).filter Group.active ≠ []) :
    (settleBarriers s).team.phases
      = (List.range 16).foldl (settlePhase ((groupsOf s s.team.ref).filter Group.active)) s.team.phases := by
  unfold settleBarriers
  rw [if_neg h]
  refine (List.foldl_hom (fun t : State => t.team.phases) fun t n => ?_).symm
  unfold settlePhase phaseComplete
  dsimp only
  split <;> rfl

/-- Settles O19: a barrier's phase is one more exactly where it is complete. -/
theorem barrierPhases : Obligations.BarrierPhases := by
  intro s n hn hps gs arrived hgs
  have hphase := mget_settlePhases (gs := gs) (List.nodup_range (n := 16)) hps n
  rw [← settleBarriers_phases hgs] at hphase
  have hiff := phaseComplete_iff gs s.team.phases n
  refine ⟨fun hall => hphase.trans (if_pos ⟨List.mem_range.mpr hn, hiff.mpr hall⟩), ?_⟩
  rintro ⟨g, hg, l, hl, hlive, hnot⟩
  refine hphase.trans (if_neg fun hh => ?_)
  rcases hiff.mp hh.2 g hg l hl with hexit | harr
  · exact Bool.false_ne_true (hlive.symm.trans hexit)
  · exact hnot harr

end Sys2Proof.Machine
end
section
/-!
PROOFS. O20: `q.put` and `q.get` of a slot of the queue's role, of another role, and of one that finds the queue full or empty.
-/
namespace Sys2Proof.Machine

section queues
variable {s : State} {q : BitVec 3} {n : Nat}

theorem calm_putters (s : State) (ps : SMap (List (Nat × SlotId))) : Calm s { s with team := { s.team with putters := ps } } :=
  .of_eq rfl rfl rfl rfl rfl rfl

theorem calm_getters (s : State) (gs : SMap (List (Nat × SlotId))) : Calm s { s with team := { s.team with getters := gs } } :=
  .of_eq rfl rfl rfl rfl rfl rfl

theorem calm_qcount (s : State) (c : SMap (Word × Word)) : Calm s { s with team := { s.team with qcount := c } } :=
  .of_eq rfl rfl rfl rfl rfl rfl

theorem calm_putShared (s : State) (off : Nat) (bs : List Byte) : Calm s (putShared s off bs) := calm_putLocs s _

theorem calm_setQueue (s : State) (k : Nat) (tail head : Word) : Calm s (setQueue s k tail head) :=
  (calm_qcount s (mset (0, 0) s.team.qcount k (tail, head))).trans (calm_putShared _ _ _)

/-- Where nobody waits, the slot is served now (R281). -/
theorem firstInLine_nil (s : State) (k : Nat) (putting : Bool) : firstInLine s k putting [] = true := rfl

/-! ### `q.put` (R281) -/

/-- The queue with the slot's registers in the entry at TAIL, and TAIL advanced. -/
def putTail (s : State) (k n : Nat) : State :=
  let d := queueAt s k
  let c := mget (0, 0) s.team.qcount k
  setQueue (putShared (drainStores s) (d.base + 16 + c.1.toNat % d.depth * d.entry)
    ((readRun s n (d.entry / 4)).map fun x => leBytes 4 x.toNat).flatten) k (c.1 + 1) c.2

theorem calm_putTail (s : State) (k n : Nat) : Calm s (putTail s k n) :=
  ((calm_drainStores s).trans (calm_putShared ..)).trans (calm_setQueue ..)

/-- An instruction that lands with `st`, and with a slot taken out of a line of putters. -/
theorem lands_putters {i : Instr} {st : State} {ps : SMap (List (Nat × SlotId))} (hx : exec i s
    = issue i (.ok (.of { st with team := { st.team with putters := ps } })) s) (hs : Idle s) (hc : Calm s st)
    (hl : isLong i = true) : Lands i s { st with team := { st.team with putters := ps } } st.g :=
  long_done [] [] hx hs (hc.trans (calm_putters st ps)) hl

theorem qPut_lands {st : State} (hst : st = putTail s q.toNat n) (hs : Idle s) (hr : s.g.role = (queueAt s q.toNat).src)
    (hroom : occupancy s.team q.toNat < (queueAt s q.toNat).depth) (hline : mget [] s.team.putters q.toNat = []) :
    ∃ ps, Lands (.qPut q (.s n)) s { st with team := { st.team with putters := ps } } st.g := by
  have hfirst : firstInLine s q.toNat true (mget [] s.team.putters q.toNat) = true := by rw [hline, firstInLine_nil]
  have hx : execQPut q (.s n) s = issue (.qPut q (.s n)) (.ok (.of { st with team := { st.team with
      putters := mset [] st.team.putters q.toNat ((mget [] s.team.putters q.toNat).filter (· ≠ me s)) } })) s := by
    rw [hst]
    unfold execQPut putTail
    dsimp only [regNo, Opnd.reg]
    rw [if_neg (not_not.mpr hr), if_pos ⟨hroom, hfirst⟩]
  exact ⟨_, lands_putters hx hs (hst ▸ calm_putTail s q.toNat n) rfl⟩

theorem qPut_otherRole (hr : s.g.role ≠ (queueAt s q.toNat).src) : Faults (.qPut q (.s n)) s (.plain 0x209 q.toNat) :=
  issue_faults (if_pos hr)

/-- A slot that waits at a queue has changed nothing but the line it stands in. -/
theorem qPut_waits (hr : s.g.role = (queueAt s q.toNat).src) (hfull : (queueAt s q.toNat).depth ≤ occupancy s.team q.toNat) :
    ∃ ps, exec (.qPut q (.s n)) s
      = .next (pauseAs { s with team := { s.team with putters := ps } } (.queue q.toNat true)) := by
  have hno : ¬ (occupancy s.team q.toNat < (queueAt s q.toNat).depth
      ∧ firstInLine s q.toNat true (mget [] s.team.putters q.toNat) = true) := fun h => by omega
  exact ⟨_, (if_neg (not_not.mpr hr)).trans (if_neg hno)⟩

/-! ### `q.get` (R281) -/

/-- The bytes of an entry, four to a register. -/
theorem entryWords (byte : Nat → Byte) (e : Nat) :
    ((List.range (e / 4)).map fun i => w32 (leNat ((((List.range e).map byte).drop (4 * i)).take 4)))
      = (List.range (e / 4)).map fun i =>
          BitVec.ofNat 32 (leNat [byte (4 * i), byte (4 * i + 1), byte (4 * i + 2), byte (4 * i + 3)]) := by
  refine List.map_congr_left fun i hi => ?_
  have hi : 4 * i + 4 ≤ e := by have := List.mem_range.mp hi; omega
  have htake : (((List.range e).map byte).drop (4 * i)).take 4
      = [byte (4 * i), byte (4 * i + 1), byte (4 * i + 2), byte (4 * i + 3)] := by
    refine List.ext_getElem (by simp; omega) fun j hj hj' => ?_
    have hj4 : j < 4 := hj'
    interval_cases j <;> simp
  rw [htake]
  rfl

/-- An instruction that lands with `st` and register writes, and with a slot taken out of a line of getters. -/
theorem lands_getters {i : Instr} {st : State} {gs : SMap (List (Nat × SlotId))} {ws : List RegWrite} (hx : exec i s
    = issue i (.ok (.write { st with team := { st.team with getters := gs } } ws)) s) (hs : Idle s) (hc : Calm s st)
    (hl : isLong i = true) : Lands i s { st with team := { st.team with getters := gs } } (applyWrites st.g ws) :=
  long_done ws [] hx hs (hc.trans (calm_getters st gs)) hl

section entry
variable (hr : s.g.role = (queueAt s q.toNat).dst) (hsome : 0 < occupancy s.team q.toNat)
  (hline : mget [] s.team.getters q.toNat = []) {d : QueueDecl} (hd : d = queueAt s q.toNat) {c : Word × Word}
  (hc : c = mget (0, 0) s.team.qcount q.toNat) {off : Nat} (hoff : off = d.base + 16 + c.2.toNat % d.depth * d.entry)
  {st : State} (hst : st = setQueue s q.toNat c.1 (c.2 + 1))
include hr hsome hline hd hc hoff hst

/-- `q.get` of a slot that is served: the poison of its entry, or the entry's words with HEAD advanced. -/
theorem exec_qGet : ∃ gs, exec (.qGet q (.s n)) s = issue (.qGet q (.s n)) (match sharedPoison s off d.entry with
    | some r => .error r
    | none => .ok (.write { st with team := { st.team with getters := gs } } (scaRun n ((List.range (d.entry / 4)).map fun i =>
        w32 (leNat ((((List.range d.entry).map fun i => mget 0 s.team.shared (off + i)).drop (4 * i)).take 4)))))) s := by
  have hfirst : firstInLine s q.toNat false (mget [] s.team.getters q.toNat) = true := by rw [hline, firstInLine_nil]
  refine ⟨mset [] st.team.getters q.toNat ((mget [] s.team.getters q.toNat).filter (· ≠ me s)), ?_⟩
  rw [hst, hoff, hc, hd]
  show execQGet q (.s n) s = _
  unfold execQGet
  dsimp only [regNo, Opnd.reg]
  rw [if_neg (not_not.mpr hr)]
  refine (if_pos ⟨hsome, hfirst⟩).trans ?_
  cases sharedPoison s _ _ <;> rfl

theorem qGet_poisoned {r : Raise} (hp : sharedPoison s off d.entry = some r) : Faults (.qGet q (.s n)) s r := by
  obtain ⟨gs, hx⟩ := exec_qGet (n := n) hr hsome hline hd hc hoff hst
  rw [hp] at hx
  exact issue_faults hx

theorem qGet_lands (hs : Idle s) (hp : sharedPoison s off d.entry = none) {byte : Nat → Byte}
    (hb : byte = fun i => mget 0 s.team.shared (off + i)) :
    ∃ gs, Lands (.qGet q (.s n)) s { st with team := { st.team with getters := gs } }
      ((List.range (d.entry / 4)).foldl (fun g i => setSreg g (n + i)
        (BitVec.ofNat 32 (leNat [byte (4 * i), byte (4 * i + 1), byte (4 * i + 2), byte (4 * i + 3)]))) st.g) := by
  obtain ⟨gs, hx⟩ := exec_qGet (n := n) hr hsome hline hd hc hoff hst
  have hcalm : Calm s st := by rw [hst]; exact calm_setQueue ..
  rw [hp, ← hb, entryWords] at hx
  have h := lands_getters hx hs hcalm rfl
  rw [applyWrites_scaRun] at h
  exact ⟨gs, h⟩

end entry

theorem qGet_otherRole (hr : s.g.role ≠ (queueAt s q.toNat).dst) : Faults (.qGet q (.s n)) s (.plain 0x209 q.toNat) :=
  issue_faults (if_pos hr)

theorem qGet_waits (hr : s.g.role = (queueAt s q.toNat).dst) (hempty : occupancy s.team q.toNat = 0) :
    ∃ gs, exec (.qGet q (.s n)) s
      = .next (pauseAs { s with team := { s.team with getters := gs } } (.queue q.toNat false)) := by
  have hno : ¬ (0 < occupancy s.team q.toNat ∧ firstInLine s q.toNat false (mget [] s.team.getters q.toNat) = true) :=
    fun h => by omega
  exact ⟨_, (if_neg (not_not.mpr hr)).trans (if_neg hno)⟩

/-- What a slot that waits at a queue leaves as it was. -/
theorem queuePause_fields (s : State) (t : Team) (w : Wait) (hq : t.qcount = s.team.qcount) :
    let u := pauseAs { s with team := t } w
    (cur u).wait = w ∧ (cur u).pc = (cur s).pc ∧ u.mem = s.mem ∧ u.team.qcount = s.team.qcount := by
  intro u
  have hc : cur u = (cur s).pause w := cur_setCur ..
  rw [hc]
  exact ⟨rfl, rfl, rfl, hq⟩

end queues

/-- Settles O20: the role first, then room or an entry, and then the entry's bytes. -/
theorem stageQueues : Obligations.StageQueues := by
  intro s q n hs k d c put get
  refine ⟨?put, ?get, qPut_otherRole, qGet_otherRole, ?full, ?empty⟩
  case put =>
    intro hr hroom hline st
    exact qPut_lands (st := st) rfl hs hr hroom hline
  case get =>
    intro hr hsome hline byte off st
    exact ⟨fun r hp => qGet_poisoned (st := st) (off := off) (d := d) (c := c) hr hsome hline rfl rfl rfl rfl hp,
      fun hp => qGet_lands (st := st) (off := off) (d := d) (c := c) (byte := byte) hr hsome hline rfl rfl rfl rfl hs hp rfl⟩
  case full =>
    intro hr hfull
    obtain ⟨ps, hx⟩ := qPut_waits (n := n) hr hfull
    exact ⟨_, hx, queuePause_fields s _ _ rfl⟩
  case empty =>
    intro hr hempty
    obtain ⟨gs, hx⟩ := qGet_waits (n := n) hr hempty
    exact ⟨_, hx, queuePause_fields s _ _ rfl⟩

end Sys2Proof.Machine
end
section
/-!
PROOFS. O37: `trap`, `brk` and `rti` (R317, R318, R428).
-/
namespace Sys2Proof.Machine

section traps
variable {s : State}

/-! ### `trap` and `brk` (R317, R428) -/

theorem exec_trap (s : State) (n : Byte) :
    exec (.trap n) s = .next (raise (setCur s ((cur s).moveTo s.now (nextAddr (.trap n) (cur s))))
      { code := 0x001, kind := .trap, detail := n, slot := s.slot, pc := (cur s).pc, next := nextAddr (.trap n) (cur s)
        mask := execMask s, dst := 0x3ff, addr := none, lanes := [] }) := rfl

theorem exec_brk_raises (h : mainNat s (ctxPart s.vd mailPart + 16) 4 = 0) :
    exec .brk s = .next (raise (setCur s ((cur s).moveTo s.now (nextAddr .brk (cur s))))
      { code := 0x004, kind := .trap, detail := 0, slot := s.slot, pc := (cur s).pc, next := nextAddr .brk (cur s), mask := 0
        dst := 0x3ff, addr := none, lanes := [] }) := if_pos h

/-- While the debug mailbox is armed, `brk` completes and its team is to halt (R428). -/
theorem exec_brk_halts (h : mainNat s (ctxPart s.vd mailPart + 16) 4 ≠ 0) (hq : Quiet s) : exec .brk s
    = .next (haltGroup (advance .brk s s.g) { why := 1, wp := 0xff, hits := 0, team := true, clauseOf := none }) := by
  have hdone : finishShort .brk (.of s) = advance .brk s s.g :=
    Host.Outcome.next.inj ((issue_short .brk (.of s) s rfl).symm.trans (short_done hq rfl rfl))
  rw [← hdone]
  exact if_neg h

/-! ### `rti` (R318) -/

/-- TRAPNEXT as an address. -/
def returnPc (s : State) : Addr := BitVec.ofNat 57 (s.g.trapnext.toNat / 8 * 8)

/-- The slot as `rti` leaves it. -/
def returned (s : State) : PcSlot :=
  let p := cur s
  if s.g.nextWritten then p.jump s.now (returnPc s)
  else
    match fetchWord s s.g.trapHdr with
    | .ok w =>
        let q := { p with hdr := s.g.trapHdr, head := w, stand := .paused, wait := .running, since := s.now, waits := none }
        if s.g.trapStand = .arrived ∨ s.g.trapStand = .header then { q with pc := returnPc s, stand := s.g.trapStand }
        else q.moveTo s.now (returnPc s)
    | .error _ => p.jump s.now (returnPc s)

theorem moveTo_hdr (p : PcSlot) (now : Nat) (a : Addr) : (p.moveTo now a).hdr = p.hdr := by
  unfold PcSlot.moveTo
  split <;> rfl

theorem returned_pc (s : State) : (returned s).pc = returnPc s := by
  unfold returned
  dsimp only
  split
  · rfl
  · split
    · split
      · rfl
      · exact moveTo_pc ..
    · rfl

theorem returned_mask (s : State) : (returned s).mask = execMask s := by
  unfold returned
  dsimp only
  split
  · rfl
  · split
    · split
      · rfl
      · exact moveTo_mask ..
    · rfl

theorem returned_of_written (h : s.g.nextWritten = true) : (returned s).stand = .arrived := by
  rw [returned, if_pos h]
  rfl

theorem returned_of_fetch (h : s.g.nextWritten = false) {w : Dword} (hw : fetchWord s s.g.trapHdr = .ok w) :
    (returned s).hdr = s.g.trapHdr := by
  rw [returned, if_neg (by rw [h]; exact Bool.false_ne_true), hw]
  dsimp only
  split
  · rfl
  · exact moveTo_hdr ..

theorem inHandler_congr {g g' : Group} (h : g.priv = g'.priv) : inHandler g = inHandler g' := by
  rw [inHandler, h]
  rfl

theorem inHandler_cleared (g : Group) : inHandler (setHandler g false) = false := by
  show (g.priv &&& ~~~(2 : Word)).getLsbD 1 = false
  simp

theorem releasePending_none (ha : s.g.pendA = none) (hb : s.g.pendB = none) : releasePending s = s := by
  rw [releasePending, ha, hb]

theorem returnFromTrap_eq (ha : s.g.pendA = none) (hb : s.g.pendB = none) :
    returnFromTrap s = { s with g := (setHandler s.g false).setSlot s.slot (returned s) } := by
  have hslot : (setHandler s.g false).slot s.slot = cur s := by
    unfold cur
    cases s.slot <;> rfl
  unfold returnFromTrap
  dsimp only
  rw [hslot, releasePending_none (by simpa [setHandler] using ha) (by simpa [setHandler] using hb)]
  rfl

theorem landOwn_empty (h : s.g.inflight = []) : landOwn s = s := by
  rw [landOwn, h]
  rfl

theorem exec_rti (hh : inHandler s.g = true) (ht : trapSlot s.g = s.slot) (hi : s.g.inflight = []) (ha : s.g.pendA = none)
    (hb : s.g.pendB = none) (he : s.g.entry = none) :
    exec .rti s = .next { s with g := (setHandler s.g false).setSlot s.slot (returned s) } := by
  have hown : ownPending s = false := by rw [ownPending, hi]; rfl
  have hno : ¬ (s.g.entry.isSome || inHandler s.g != inHandler s.g || s.team.ending != s.team.ending) = true := by simp [he]
  show execRti s = _
  rw [execRti, if_pos ⟨hh, ht⟩, afterOwn, landOwn_empty hi, if_neg hno, if_neg (by rw [hown]; exact Bool.false_ne_true),
    returnFromTrap_eq ha hb]

theorem rti_outside (hh : inHandler s.g = false) : Faults .rti s (.plain 0x208 0) := by
  show execRti s = _
  rw [execRti, if_neg fun h => Bool.false_ne_true (hh.symm.trans h.1)]
  rfl

end traps

/-- Settles O37: `trap` and `brk` by the cause that each raises, and `rti` by the slot that it leaves. -/
theorem trapsAndReturns : Obligations.TrapsAndReturns := by
  refine ⟨fun s => ⟨exec_trap s, exec_brk_raises, exec_brk_halts⟩, ?rti, fun s => rti_outside⟩
  case rti =>
    intro s hh ht hi ha hb he
    refine ⟨_, exec_rti hh ht hi ha hb he, ?_⟩
    dsimp only
    rw [slot_setSlot]
    refine ⟨?_, returned_mask s, ?_, ?_, ?_, ?_, rfl, returned_pc s, returned_of_written, fun h w => returned_of_fetch h⟩
    · exact (inHandler_congr (setSlot_priv ..)).trans (inHandler_cleared s.g)
    · exact setSlot_vregs ..
    · exact setSlot_sregs ..
    · exact setSlot_trappc ..
    · exact setSlot_fps ..

end Sys2Proof.Machine
end

section
/-!
PROOFS. O39: the causes that go to device firmware, what firmware leaves of a team that it ends, and halts (R369, R370, R403, R416).
-/
namespace Sys2Proof.Machine

/-! ### Why a cause goes to firmware (R369) -/

section service
variable {s : State} {c : Cause}

theorem serviceOf_sup (h : c.kind = .sup) : serviceOf s c = 3 := if_pos h

theorem serviceOf_inHandler (h : c.kind ≠ .sup) (hh : inHandler s.g = true) : serviceOf s c = 2 :=
  (if_neg h).trans (if_pos hh)

theorem serviceOf_outside (h : c.kind ≠ .sup) (hh : inHandler s.g = false) :
    serviceOf s c = if !s.g.trapvec.getLsbD 0 then 1 else if !handlerOk s then 4 else 0 :=
  (if_neg h).trans (if_neg (by rw [hh]; exact Bool.false_ne_true))

theorem serviceOf_disabled (h : c.kind ≠ .sup) (hh : inHandler s.g = false) (hv : s.g.trapvec.getLsbD 0 = false) :
    serviceOf s c = 1 := by
  rw [serviceOf_outside h hh, hv]
  rfl

theorem serviceOf_noHeader (h : c.kind ≠ .sup) (hh : inHandler s.g = false) (hv : s.g.trapvec.getLsbD 0 = true)
    (ho : handlerOk s = false) : serviceOf s c = 4 := by
  rw [serviceOf_outside h hh, hv, ho]
  rfl

/-- Only entry to the user handler waits for v511. -/
theorem drained_service (hi : s.g.inflight = []) (h : serviceOf s c ≠ 0) : drained s c = true := by
  refine drained_quiet hi ?_
  rw [detailLocked, beq_false_of_ne h, Bool.and_false, Bool.false_and]

theorem exec_supervisorEntry (hi : s.g.inflight = []) (he : s.g.entry = some c) (h : serviceOf s c ≠ 0) :
    exec .supervisorEntry s = .next (afterStep (afterService (enter s c))) := by
  have hready : entryReady s = some c := by
    rw [entryReady, he, Option.filter_some, if_pos (drained_service hi h)]
  show execSupervisorEntry s = _
  rw [execSupervisorEntry, hready]
  exact if_pos (by simpa using h)

end service

/-! ### What the end of a team leaves (R370, R405) -/

/-- The group in focus differs in its stores alone, its team keeps its name and its passes, and the device has logged as much. -/
structure Winding (s t : State) : Prop where
  g : { t.g with stores := [] } = { s.g with stores := [] }
  ref : t.team.ref = s.team.ref
  passes : t.team.passes = s.team.passes
  logged : t.vd.logged = s.vd.logged

namespace Winding

theorem rfl' (s : State) : Winding s s := ⟨rfl, rfl, rfl, rfl⟩

theorem trans {s t u : State} (a : Winding s t) (b : Winding t u) : Winding s u :=
  ⟨b.g.trans a.g, b.ref.trans a.ref, b.passes.trans a.passes, b.logged.trans a.logged⟩

theorem of_aside {s t : State} (a : Aside s t) (d : SameDevice s t) : Winding s t :=
  ⟨by rw [a.g], (congrArg Team.ref a.team :), (congrArg Team.passes a.team :), (congrArg Device.logged d :)⟩

theorem foldl {α : Type} (f : State → α → State) (hf : ∀ s x, Winding s (f s x)) (l : List α) (s : State) :
    Winding s (l.foldl f s) :=
  List.foldlRecOn l f (motive := Winding s) (rfl' s) fun t h x _ => h.trans (hf t x)

end Winding

theorem winding_putAll (s : State) (cells : List (Loc × Byte)) : Winding s (putAll s cells) :=
  .of_aside (aside_putAll s cells) ((sameDevice_putLocs s cells).trans (sameDevice_checkOut _))

theorem winding_drainTeam (s : State) : Winding s (drainTeam s) := by
  have hfold := Winding.foldl (fun s (g : Group) => g.stores.foldl (fun s q => putVisible s q.cells) s)
    (fun s g => Winding.foldl _ (fun s q => winding_putAll s _) g.stores s) (groupsOf s s.team.ref) s
  unfold drainTeam onGroups
  extract_lets u h
  refine hfold.trans ⟨?_, rfl, rfl, rfl⟩
  show { (h u.g) with stores := [] } = _
  unfold h
  split <;> rfl

theorem winding_dropWaits (s : State) (p : Loc × Nat × SlotId → Bool) : Winding s (dropWaits s p) :=
  Winding.trans (t := { s with team := { s.team with gaugers := s.team.gaugers.filter fun w => !p w } }) ⟨rfl, rfl, rfl, rfl⟩
    (Winding.foldl (fun s (w : Loc × Nat × SlotId) => showPending s w.1) (fun s _ => winding_putAll s _) _ _)

theorem winding_countLanes (s : State) (n : Nat) : Winding s (countLanes s n) := by
  unfold countLanes
  split
  · exact .rfl' s
  · exact ⟨rfl, rfl, rfl, rfl⟩

theorem winding_landOutside (s : State) (f : InFlight) : Winding s (landOutside s f) := by
  unfold landOutside
  cases f.arm with
  | none => exact winding_countLanes s _
  | some mark => exact (winding_countLanes s _).trans ⟨rfl, rfl, rfl, rfl⟩

theorem winding_landActed (s : State) : Winding s (landActed s) :=
  Winding.foldl _ (fun s f => by
    show Winding s (if f.acted then landOutside s f else s)
    split
    · exact winding_landOutside s f
    · exact .rfl' s) _ s

theorem cancelJob_logged (d : Device) (j : Job) : (cancelJob d j).logged = d.logged := by
  unfold cancelJob
  split
  · rfl
  · split <;> rfl

theorem cancelJobs_logged (js : List Job) (d : Device) : (js.foldl cancelJob d).logged = d.logged :=
  List.foldlRecOn js cancelJob (motive := fun e => e.logged = d.logged) rfl fun e h j _ => (cancelJob_logged e j).trans h

/-- What is over of a group whose team ends: what is in flight, and what waits to be entered and is not firmware's. -/
def Group.endsWith (g : Group) : Group :=
  { g with inflight := [], entry := g.entry.filter fun c => decide (c.kind = .sup), pendA := none, pendB := none }

/-- The end of a team: it is ending, its sent passes stay, and of a group only what is in flight, queued or pending goes. -/
theorem endTeam_ends (s : State) (code : Nat) (again : Bool) : ∃ u, Winding s u ∧
    let t := endTeam s code again
    t.team.ending = true ∧ t.team.relaunch = again ∧ t.team.passes = sentPasses u.team.passes ∧ t.vd.logged = u.vd.logged
      ∧ (t.g = u.g ∨ t.g = u.g.endsWith) := by
  have hw : Winding s (landActed (dropWaits (drainTeam s) fun _ => true)) :=
    ((winding_drainTeam s).trans (winding_dropWaits ..)).trans (winding_landActed _)
  refine ⟨_, hw, ?_⟩
  unfold endTeam
  generalize landActed _ = u
  extract_lets _ v js d d'
  have hd : d'.logged = u.vd.logged := by
    have hd : d.logged = u.vd.logged := cancelJobs_logged js v.vd
    unfold d'
    split <;> exact hd
  have hg : v.g = u.g ∨ v.g = u.g.endsWith := by
    unfold v onGroups
    dsimp only
    split
    · exact .inr rfl
    · exact .inl rfl
  have ht : v.team = u.team := rfl
  clear_value d' v
  rw [← ht]
  exact ⟨rfl, rfl, rfl, hd, hg⟩

/-- A cause that firmware neither repairs nor relaunches for is logged and ends its team (R369, R370). -/
theorem enterSupervisor_ends {s : State} {c : Cause} (svc : Nat) (hend : s.team.ending = false)
    (hr : c.code ≠ 0x406 ∨ c.detail ≠ 8) (ha : c.code ≠ 0x600) : ∃ v, Aside
      { s with g := { (if inHandler s.g then s.g else writeTrapRegs s.g c svc) with fwTrap := inHandler s.g } } v
        ∧ v.vd.logged = s.vd.logged + 1 ∧ enterSupervisor s c svc = endTeam v c.code false := by
  unfold enterSupervisor
  extract_lets g u repair again t torn act v
  refine ⟨v, aside_writeLog u .., (writeLog_logsOne u ..).1, ?_⟩
  clear_value v
  have hrepair : repair = false := by
    unfold repair
    rcases hr with h | h
    · rw [beq_false_of_ne h, Bool.false_and]
    · rw [beq_false_of_ne h, Bool.and_false]
  have hagain : again = false := by
    have hu : u.team.ending = false := hend
    unfold again
    rw [if_neg (by simp [hu]), relaunches, beq_false_of_ne ha]
    rfl
  rw [hrepair, if_neg Bool.false_ne_true, hagain]
  exact if_neg (by simpa [t] using hend)

/-- A group in which no cause waits to be entered keeps its trap registers when its team ends. -/
theorem endTeam_trapRegs {s : State} (he : s.g.entry = none) (code : Nat) (again : Bool) :
    let t := endTeam s code again
    t.g.entry = none ∧ t.g.trappc = s.g.trappc ∧ t.g.trapmask = s.g.trapmask ∧ t.g.trapcause = s.g.trapcause := by
  intro t
  obtain ⟨u, hu, -, -, -, -, hg⟩ := endTeam_ends s code again
  have hentry : u.g.entry = none := (congrArg Group.entry hu.g :).trans he
  have hregs : u.g.trappc = s.g.trappc ∧ u.g.trapmask = s.g.trapmask ∧ u.g.trapcause = s.g.trapcause :=
    ⟨(congrArg Group.trappc hu.g :), (congrArg Group.trapmask hu.g :), (congrArg Group.trapcause hu.g :)⟩
  rcases hg with hg | hg
  · exact ⟨(congrArg Group.entry hg).trans hentry, by rwa [show t.g = u.g from hg]⟩
  · refine ⟨(congrArg Group.entry hg).trans ?_, by rwa [show t.g = u.g.endsWith from hg]⟩
    rw [Group.endsWith, hentry]
    rfl

theorem fetchWord_main {s : State} {a : Addr} {pa : Nat} {w r : Bool} (h : walk s s.vd a.toNat = .leaf pa false true w r) :
    fetchWord s a = if mainPoison s pa then .error (0x406, 0) else .ok (w64 (mainNat s pa 8)) := by
  rw [fetchWord, h]
  rfl

theorem supervisorEnds (s : State) (c : Cause) (svc : Nat) (he : s.g.entry = none) (hend : s.team.ending = false)
    (hr : c.code ≠ 0x406 ∨ c.detail ≠ 8) (ha : c.code ≠ 0x600) :
    let t := enterSupervisor s c svc
    t.team.ending = true ∧ t.team.relaunch = false ∧ t.team.passes = sentPasses s.team.passes ∧ t.vd.logged = s.vd.logged + 1
      ∧ t.g.entry = none ∧ (inHandler s.g = false → t.g.trappc = c.pc.setWidth 64 ∧ t.g.trapmask = c.mask)
      ∧ (inHandler s.g = true → t.g.trappc = s.g.trappc ∧ t.g.trapmask = s.g.trapmask ∧ t.g.trapcause = s.g.trapcause) := by
  intro t
  obtain ⟨v, hv, hlog, ht⟩ := enterSupervisor_ends (s := s) svc hend hr ha
  obtain ⟨u, hu, hending, hrelaunch, hpasses, hlogged, -⟩ := endTeam_ends v c.code false
  have hventry : v.g.entry = none := by
    rw [hv.g]
    dsimp only
    split
    · exact he
    · exact he
  obtain ⟨hentry, hpc, hmask, hcause⟩ := endTeam_trapRegs hventry c.code false
  rw [← ht] at hending hrelaunch hpasses hlogged hentry hpc hmask hcause
  have hkept : sentPasses u.team.passes = sentPasses s.team.passes :=
    congrArg sentPasses (hu.passes.trans (congrArg Team.passes hv.team :))
  refine ⟨hending, hrelaunch, hpasses.trans hkept, hlogged.trans (hu.logged.trans hlog), hentry, fun hh => ?_, fun hh => ?_⟩
  · rw [hpc, hmask, hv.g, hh]
    exact ⟨BitVec.ofNat_toNat 64 c.pc, rfl⟩
  · rw [hpc, hmask, hcause, hv.g, hh]
    exact ⟨rfl, rfl, rfl⟩

/-- Settles O39: the causes that go to device firmware, what it does with them, and halts. -/
theorem supervisorEntries : Obligations.SupervisorEntries := by
  unfold Obligations.SupervisorEntries
  refine ⟨⟨fun s c => ⟨serviceOf_sup, serviceOf_inHandler, serviceOf_disabled, serviceOf_noHeader⟩,
    fun s c svc _ he hend hr ha => supervisorEnds s c svc he hend hr ha, fun s c => exec_supervisorEntry⟩, ⟨?_, ?_, ?_⟩, ?_⟩
  · intro s c pa hd he hh h4 hw
    refine raise_torn s c pa hd he hh h4 ?_
    rw [tornHandler, handlerPc, hw]
  · intro s pa hr
    rw [repairTable, if_neg (by simp [hr])]
  · intro s a pa w r hw
    rw [fetchWord_main hw]
    exact ⟨fun h => if_pos h, fun h => if_neg (by simp [h])⟩
  · intro s u t why hf hhalt hend hm
    show execTeamHalt t s = _
    rw [execTeamHalt, hf, Option.bind_some, hhalt]
    dsimp only
    rw [if_neg (by simp [hend, hm])]
    rfl

end Sys2Proof.Machine
end

section
/-!
PROOFS. O41: the canary instructions (R409, R423). A canary that is being placed applies to nothing, so that it watches neither
its own `wp.set` nor, once that has completed, the one event of it that is left to evaluate, which is no load's.
-/
namespace Sys2Proof.Machine

/-! ### Finite maps -/

section maps
variable {α β : Type}

theorem mins_ne_nil (m : SMap α) (n : Nat) (x : α) : mins m n x ≠ [] := by
  cases m with
  | nil => exact List.cons_ne_nil _ _
  | cons e t =>
    rw [mins]
    split
    · exact List.cons_ne_nil _ _
    · split <;> exact List.cons_ne_nil _ _

theorem mget?_map (f : α → β) (m : SMap α) (n : Nat) : mget? (m.map fun e => (e.1, f e.2)) n = (mget? m n).map f := by
  induction m with
  | nil => rfl
  | cons e t ih =>
    show (if n = e.1 then _ else _) = (if n = e.1 then _ else _ : Option α).map f
    split
    · rfl
    · exact ih

/-- What a map gives for a key is its default or stands in it. -/
theorem mget_default_or_mem (d : α) (m : SMap α) (n : Nat) : mget d m n = d ∨ ∃ e ∈ m, e.2 = mget d m n := by
  induction m with
  | nil => exact .inl rfl
  | cons e t ih =>
    show (if n = e.1 then _ else _) = d ∨ ∃ x ∈ e :: t, x.2 = if n = e.1 then _ else _
    split
    · exact .inr ⟨e, List.mem_cons_self, rfl⟩
    · exact ih.imp id fun ⟨x, hx, h⟩ => ⟨x, List.mem_cons_of_mem e hx, h⟩

end maps

/-! ### Chains that do not match (R411, R423) -/

/-- Every canary of the bank is being placed: its `wp.set` has not completed. -/
def Placing (bank : SMap Canary) : Prop := ∀ e ∈ bank, e.2.placing ≠ none

theorem placing_mins {bank : SMap Canary} {c : Canary} (h : Placing bank) (hc : c.placing ≠ none) (n : Nat) :
    Placing (mins bank n c) := fun e he => (mem_mins he).elim (fun heq => heq ▸ hc) (h e)

/-- An empty slot is not armed, and a canary that is being placed applies to nothing. -/
theorem Placing.armed_not_applies {bank : SMap Canary} (h : Placing bank) (n at_ : Nat) :
    (mget Canary.none_ bank n).armed = false ∨ (mget Canary.none_ bank n).applies at_ = false := by
  rcases mget_default_or_mem Canary.none_ bank n with hd | ⟨e, he, hx⟩
  · left
    rw [hd]
    rfl
  · right
    rw [← hx, Canary.applies, Option.isNone_eq_false_iff.mpr (Option.isSome_iff_ne_none.mpr (h e he)), Bool.false_and]

theorem chainHit_placing {bank : SMap Canary} (h : Placing bank) (g : Group) (at_ : Nat) (nums : List Nat) (evs : List Watch)
    (ps : List Nat) : chainHit g bank at_ nums evs ps = none := by
  unfold chainHit
  extract_lets cs
  split
  · next last num hl hn =>
    refine if_neg fun hall => ?_
    simp only [Bool.and_eq_true, List.all_eq_true] at hall
    obtain ⟨⟨⟨harm, happ⟩, -⟩, -⟩ := hall
    have hmem : last ∈ cs := List.mem_of_getLast? hl
    obtain ⟨n, -, rfl⟩ := List.mem_map.mp hmem
    rcases h.armed_not_applies n at_ with hx | hx
    · rw [harm _ hmem] at hx
      cases hx
    · rw [(happ _ hmem).2] at hx
      cases hx
  · rfl

/-- A chain that is evaluated as a value is there has a member that no event of the instruction's address matches. -/
theorem chainHit_late {evs : List Watch} (h : ∀ e ∈ evs, e.src = 0) (g : Group) (bank : SMap Canary) (at_ : Nat)
    (nums : List Nat) : chainHit g bank at_ nums evs [2] = none := by
  unfold chainHit
  extract_lets cs
  split
  · next last num hl hn =>
    split
    · next hall =>
      simp only [Bool.and_eq_true] at hall
      obtain ⟨-, hphase⟩ := hall
      obtain ⟨c, hc, hsrc⟩ : ∃ c ∈ cs, c.src ≠ 0 := by
        by_contra hno
        have hzero : cs.all (fun c => c.src == 0) = true :=
          List.all_eq_true.mpr fun c hc => beq_iff_eq.mpr (by_contra fun hne => hno ⟨c, hc, hne⟩)
        rw [chainPhase, if_pos hzero] at hphase
        cases hphase
      have hmatch : ∀ e ∈ evs, c.matches e = false := fun e he => by
        rw [Canary.matches, h e he, beq_false_of_ne (Ne.symm hsrc), Bool.false_and, Bool.false_and, Bool.false_and]
      have hnone : ∀ p : Watch → Bool, cs.all (fun c => evs.any fun e => p e && c.matches e) = false := fun p =>
        List.all_eq_false.mpr ⟨c, hc, by
          rw [Bool.not_eq_true, List.any_eq_false]
          exact fun e he => by rw [hmatch e he, Bool.and_false]; exact Bool.false_ne_true⟩
      exact if_pos ⟨(maskOf_congr fun l _ => by rw [hnone, Bool.and_false]).trans rfl, by
        rw [hnone, Bool.and_false]⟩
    · rfl
  · rfl

/-- Where no chain matches, nothing follows. -/
theorem watchSince_noHit {s : State} {told : Bool} {at_ : Nat} {i : SlotId} {evs : List Watch} {ps : List Nat} {c : Cause}
    (h : ∀ ns, chainHit s.g (coreAt s s.g.core).canaries at_ ns evs ps = none) : watchSince s told at_ i evs ps c = s := by
  have hnone : ((chains (coreAt s s.g.core).canaries).filterMap fun ns =>
      chainHit s.g (coreAt s s.g.core).canaries at_ ns evs ps) = [] :=
    List.filterMap_eq_nil_iff.mpr fun ns _ => h ns
  unfold watchSince
  extract_lets bank hs u best
  split
  · rfl
  · have hu : u = s := congrArg (countHits s) hnone
    have hbest : ∀ act, best act = none := fun act => by
      unfold best hs bank
      rw [hnone]
      rfl
    rw [hbest, hbest, hbest, hbest]
    exact hu

/-! ### The banks of cores -/

/-- A core that a change leaves other than a fresh one is as the change makes it, and the others are as they were. -/
theorem coreAt_onCore_changed {s : State} {n : Nat} {f : Core → Core} (h : f (coreAt s n) ≠ Core.fresh) (k : Nat) :
    coreAt (onCore s n f) k = if k = n then f (coreAt s n) else coreAt s k := by
  have hset : mset Core.fresh s.cores n (f (coreAt s n)) = mins s.cores n (f (coreAt s n)) := if_neg h
  show mget Core.fresh (mset Core.fresh s.cores n (f (coreAt s n))) k = _
  rw [hset, mget_mins]
  rfl

/-- A canary set in a slot of a core. -/
def setIn (n : Nat) (c : Canary) (x : Core) : Core := { x with canaries := mins x.canaries n c }

theorem coreAt_setIn (s : State) (k n : Nat) (c : Canary) (m : Nat) :
    coreAt (onCore s k (setIn n c)) m = if m = k then setIn n c (coreAt s k) else coreAt s m :=
  coreAt_onCore_changed (fun h => mins_ne_nil _ _ _ (congrArg Core.canaries h)) m

theorem placeOn_cons (s : State) (k : Nat) (ks : List Nat) (n : Nat) (c : Canary) :
    placeOn s (k :: ks) n c = placeOn (onCore s k (setIn n c)) ks n c := rfl

theorem placeOn_keeps (ks : List Nat) (s : State) (n : Nat) (c : Canary) :
    ∃ cores, placeOn s ks n c = { s with cores := cores } := by
  induction ks generalizing s with
  | nil => exact ⟨s.cores, rfl⟩
  | cons k ks ih =>
    obtain ⟨cores, h⟩ := ih (onCore s k (setIn n c))
    exact ⟨cores, h⟩

theorem canaryAt_placeOn {ks : List Nat} {s : State} {n : Nat} {c : Canary} {k : Nat} (h : k ∈ ks ∨ canaryAt s k n = some c) :
    canaryAt (placeOn s ks n c) k n = some c := by
  induction ks generalizing s with
  | nil => exact h.resolve_left List.not_mem_nil
  | cons j ks ih =>
    rw [placeOn_cons]
    refine ih ?_
    by_cases hj : k = j
    · right
      rw [canaryAt, coreAt_setIn, if_pos hj]
      exact mget?_mins_same ..
    · rw [canaryAt, coreAt_setIn, if_neg hj]
      exact h.imp (fun hk => (List.mem_cons.mp hk).resolve_left hj) id

theorem placing_placeOn {ks : List Nat} {s : State} {n : Nat} {c : Canary} (hc : c.placing ≠ none) {k : Nat}
    (h : Placing (coreAt s k).canaries) : Placing (coreAt (placeOn s ks n c) k).canaries := by
  induction ks generalizing s with
  | nil => exact h
  | cons j ks ih =>
    rw [placeOn_cons]
    refine ih ?_
    rw [coreAt_setIn]
    split
    · next hj => exact placing_mins (hj ▸ h) hc n
    · exact h

theorem bankCanary_keeps (s : State) (t : Option Team) (n : Nat) (c : Canary) : ∃ (team : Team) (teams : List Team),
    bankCanary s t n c = { s with team := team, teams := teams } ∧ team.ref = s.team.ref ∧ team.steps = s.team.steps := by
  unfold bankCanary
  split
  · split
    · exact ⟨s.team, s.teams, rfl, rfl, rfl⟩
    · unfold onTeam
      split
      · exact ⟨_, s.teams, rfl, rfl, rfl⟩
      · exact ⟨s.team, _, rfl, rfl, rfl⟩
  · exact ⟨s.team, s.teams, rfl, rfl, rfl⟩

/-- Only cores have changed, and none that holds no canary. -/
structure Rearmed (s t : State) : Prop where
  eq : t = { s with cores := t.cores }
  empty : ∀ k, (coreAt s k).canaries = [] → (coreAt t k).canaries = []

theorem Rearmed.rfl' (s : State) : Rearmed s s := ⟨rfl, fun _ h => h⟩

theorem Rearmed.trans {s t u : State} (a : Rearmed s t) (b : Rearmed t u) : Rearmed s u :=
  ⟨b.eq.trans (by rw [a.eq]), fun k h => b.empty k (a.empty k h)⟩

theorem rearmed_setIn {s : State} {k n : Nat} (h : canaryAt s k n ≠ none) (c : Canary) :
    Rearmed s (onCore s k (setIn n c)) := by
  refine ⟨rfl, fun m hm => ?_⟩
  rw [coreAt_setIn, if_neg fun hmk => h ?_]
  · exact hm
  · rw [canaryAt, ← hmk, hm]
    rfl

theorem rearmed_disarmOn (ks : List Nat) (s : State) (t : Option TRef) (n : Nat) : Rearmed s (disarmOn s ks t n) :=
  List.foldlRecOn ks _ (motive := Rearmed s) (.rfl' s) fun u hu k _ => hu.trans (by
    split
    · next x hx =>
      split
      · exact rearmed_setIn (by rw [hx]; exact Option.some_ne_none x) x.disarm
      · exact .rfl' u
    · exact .rfl' u)

/-! ### A `wp.set` from its issue to its completion (R423) -/

theorem pcEvents_src {i : Instr} {pc : Addr} {mask : Word} : ∀ e ∈ pcEvents i pc mask, e.src = 0 := by
  intro e he
  unfold pcEvents at he
  split at he
  · obtain ⟨l, -, hl⟩ := List.mem_filterMap.mp he
    split at hl
    · cases hl
      rfl
    · cases hl
  · rw [List.mem_singleton.mp he]

theorem ownPc_src {i : Instr} {s : State} : ∀ e ∈ ownPc i s, e.src = 0 := by
  unfold ownPc
  split
  · exact fun e he => absurd he List.not_mem_nil
  · exact pcEvents_src

section arming
variable {i : Instr} {st : State} {ws : List RegWrite} {d : Nat}

/-- The effect of an instruction that writes registers and places canaries under a mark. -/
def armingEffect (st : State) (ws : List RegWrite) (d : Nat) : Effect := { Effect.write st ws with arm := some d }

theorem flightOf_arming_loads (hr : raisesFp i = false) : ∀ e ∈ (flightOf i (armingEffect st ws d)).loads, e.src = 0 := by
  have h : (flightOf i (armingEffect st ws d)).loads = ownPc i st := by
    show ownPc i st ++ [] ++ flagEvents i _ [] 0 = _
    rw [flagEvents, hr, List.append_nil]
    exact List.append_nil _
  rw [h]
  exact ownPc_src

theorem launchLong_arming (hi : st.g.inflight = []) (hp : Placing (coreAt st st.g.core).canaries) : ∃ x p,
    launchLong i (armingEffect st ws d) = { st with
      g := ({ st.g with flags := x, inflight := [flightOf i (armingEffect st ws d)] } : Group).setSlot st.slot p } := by
  obtain ⟨x, hx⟩ := setFlagBit_fields st.g (coverFlag st (cur st))
  refine ⟨x, (cur st).moveTo st.now (nextAddr i (cur st)), ?_⟩
  have hg : ({ (setFlagBit st.g (coverFlag st (cur st))).setSlot st.slot ((cur st).moveTo st.now (nextAddr i (cur st))) with
      inflight := ((setFlagBit st.g (coverFlag st (cur st))).setSlot st.slot
        ((cur st).moveTo st.now (nextAddr i (cur st)))).inflight ++ [flightOf i (armingEffect st ws d)] } : Group)
      = ({ st.g with flags := x, inflight := [flightOf i (armingEffect st ws d)] } : Group).setSlot st.slot
        ((cur st).moveTo st.now (nextAddr i (cur st))) := by
    rw [hx]
    cases st.slot <;> simp [Group.setSlot, hi]
  have hst := congrArg (fun g => watchEvents { st with g := g } st.slot (flightOf i (armingEffect st ws d)).loads [1]
    (trapCause st.slot (cur st).pc (nextAddr i (cur st)) (trapDst i) (.plain 0x003 0))) hg
  refine hst.trans (watchSince_noHit fun ns => chainHit_placing ?_ ..)
  rw [setSlot_core]
  exact hp

/-- The landing of the one instruction in flight writes its registers, and flags may clear. -/
theorem landFlight_arming (x : BitVec 12) (p : PcSlot) (held : Bool) : ∃ y,
    landFlight (({ st.g with flags := x, inflight := [flightOf i (armingEffect st ws d)] } : Group).setSlot st.slot p) 0
        (flightOf i (armingEffect st ws d)) held
      = ({ applyWrites st.g ws with flags := y, inflight := [] } : Group).setSlot st.slot p := by
  have hw : addSts (addFps (applyWrites (({ st.g with flags := x, inflight := [flightOf i (armingEffect st ws d)] } : Group).setSlot
      st.slot p) ws) 0) 0
      = ({ applyWrites st.g ws with flags := x, inflight := [flightOf i (armingEffect st ws d)] } : Group).setSlot st.slot p := by
    rw [addFps_zero, addSts_zero, applyWrites_frame]
  have hland := landFlight_one (({ st.g with flags := x, inflight := [flightOf i (armingEffect st ws d)] } : Group).setSlot
    st.slot p) (flightOf i (armingEffect st ws d)) held (setSlot_inflight ..)
  rw [show (flightOf i (armingEffect st ws d)).writes = ws from rfl, show (flightOf i (armingEffect st ws d)).sts = 0 from rfl,
    show orFlags (flightOf i (armingEffect st ws d)).fp = 0 from rfl, hw] at hland
  rw [hland]
  generalize (if held then none else (flightOf i (armingEffect st ws d)).flag) = fl
  cases fl with
  | none =>
    refine ⟨x, ?_⟩
    cases st.slot <;> rfl
  | some n =>
    refine ⟨x &&& ~~~(BitVec.ofNat 12 (2 ^ n)), ?_⟩
    cases st.slot <;> rfl

/-- From its issue to FLAG_CLEAR: the canaries that it has placed apply, and nothing else has followed. -/
theorem arming_lands (hi : st.g.inflight = []) (hset : Settled st) (hp : Placing (coreAt st st.g.core).canaries)
    (hr : raisesFp i = false) (hl : perLane i = false) : ∃ G, G.sregs = (applyWrites st.g ws).sregs
      ∧ G.vregs = (applyWrites st.g ws).vregs
      ∧ exec (.flagClear 0) (launchLong i (armingEffect st ws d)) = .next (setCanaries { st with g := G } d) := by
  obtain ⟨hteam, hserial, hact, hhalt, hdue, hsteps⟩ := hset
  obtain ⟨x, p, hu⟩ := launchLong_arming (ws := ws) (d := d) (i := i) hi hp
  rw [hu]
  generalize hT : ({ st with
    g := ({ st.g with flags := x, inflight := [flightOf i (armingEffect st ws d)] } : Group).setSlot st.slot p } : State) = T
  have hTi : T.g.inflight[0]? = some (flightOf i (armingEffect st ws d)) := by rw [← hT, setSlot_inflight]; rfl
  obtain ⟨y, hy⟩ := landFlight_arming (st := st) (ws := ws) (d := d) (i := i) x p
    (stillCovers T (flightOf i (armingEffect st ws d)).flag)
  generalize hG : ({ applyWrites st.g ws with flags := y, inflight := [] } : Group).setSlot st.slot p = G at hy
  have hlanes : (flightOf i (armingEffect st ws d)).lanes = 0 := by
    show (if perLane i then _ else 0) = 0
    rw [hl]
    rfl
  have hout : landOutside { st with g := G } (flightOf i (armingEffect st ws d)) = setCanaries { st with g := G } d := by
    rw [landOutside, hlanes]
    rfl
  have hland : landAt T 0 = setCanaries { st with g := G } d := by
    unfold landAt
    rw [hTi]
    dsimp only
    rw [show T.g = _ from (congrArg State.g hT).symm, hy, ← hT]
    dsimp only
    rw [hout, show fpTrap (flightOf i (armingEffect st ws d)).te (flightOf i (armingEffect st ws d)).fp 0 = none from
      fpTrap_none _, raiseTrap_none]
    exact watchSince_noHit fun ns => chainHit_late (flightOf_arming_loads hr) ..
  have hrun : Settled (setCanaries { st with g := G } d) := by
    refine ⟨?_, hserial, ?_, ?_, ?_, hsteps⟩
    · show G.ref.team = st.team.ref
      rw [← hG, setSlot_ref]
      exact (congrArg GRef.team (applyWrites_ref st.g ws)).trans hteam
    · show (G.exited != 0xffffffff) = true
      rw [← hG, setSlot_exited]
      exact (congrArg (· != 0xffffffff) (applyWrites_exited st.g ws)).trans hact
    · show G.halted = false
      rw [← hG, setSlot_halted]
      exact (applyWrites_halted st.g ws).trans hhalt
    · show G.haltDue = none
      rw [← hG, setSlot_haltDue]
      exact (applyWrites_haltDue st.g ws).trans hdue
  refine ⟨G, ?_, ?_, ?_⟩
  · rw [← hG, setSlot_sregs]
  · rw [← hG, setSlot_vregs]
  · show execFlagClear 0 T = _
    unfold execFlagClear
    rw [hTi]
    show may true (afterStep (landAt T 0)) = _
    rw [hland, afterStep_running hrun]
    rfl

end arming

/-! ### The three instructions (R423) -/

section canary
variable {s : State} {n r : Nat} {slot : BitVec 4} {b : Opnd} {t : Option Team}

/-- The canary that a `wp.set` reads from four scalar registers, before its scope. -/
def canaryFrom (s : State) (r : Nat) : Canary :=
  { word := BitVec.ofNat 128 (wordsNat (readRun s r 4)), hits := 0, vd := s.vd.number, team := none, since := s.now
    placing := some s.draw }

/-- The canary with the team of its scope. -/
def canaryOf (s : State) (r : Nat) (t : Option Team) : Canary :=
  { canaryFrom s r with team := (if (canaryFrom s r).wide then none else t).map (·.ref) }

/-- Under its mark the canary applies from now on. -/
theorem set_canaryOf : (canaryOf s r t).set s.draw s.now = { canaryOf s r t with placing := none, since := s.now } := if_pos rfl

/-- The state in which a `wp.set` has placed its canary. -/
def placedBy (s : State) (r : Nat) (t : Option Team) (n : Nat) : State :=
  let own := if (canaryFrom s r).wide then none else t
  placeOn (if (canaryFrom s r).wide then s else bankCanary s own n (canaryOf s r t)) (placesOf s (canaryFrom s r).wide own) n
    (canaryOf s r t)

theorem exec_wpSet_refused (ht : refTeam s b = .ok t) (h : setStatus s (canaryFrom s r) t slot.toNat ≠ 0) :
    exec (.wpSet (.s n) slot (.s r) b) s = issue (.wpSet (.s n) slot (.s r) b)
      (.ok (.write s [.sca n (w32 (setStatus s (canaryFrom s r) t slot.toNat))])) s := by
  show execWpSet (.s n) slot (.s r) b s = _
  unfold execWpSet
  rw [ht]
  exact congrArg (fun e => issue _ (.ok e) s) (if_neg h)

theorem exec_wpSet_placed (ht : refTeam s b = .ok t) (h : setStatus s (canaryFrom s r) t slot.toNat = 0) :
    exec (.wpSet (.s n) slot (.s r) b) s = .next (launchLong (.wpSet (.s n) slot (.s r) b)
      (armingEffect (placedBy s r t slot.toNat) [.sca n (w32 (setStatus s (canaryFrom s r) t slot.toNat))] s.draw)) := by
  show execWpSet (.s n) slot (.s r) b s = _
  unfold execWpSet
  rw [ht]
  exact congrArg (fun e => issue _ (.ok e) s) (if_pos h)

theorem placedBy_keeps (s : State) (r : Nat) (t : Option Team) (n : Nat) : ∃ (cores : SMap Core) (team : Team) (teams : List Team),
    placedBy s r t n = { s with cores := cores, team := team, teams := teams } ∧ team.ref = s.team.ref
      ∧ team.steps = s.team.steps := by
  unfold placedBy
  extract_lets own
  have hbank : ∃ (team : Team) (teams : List Team),
      (if (canaryFrom s r).wide then s else bankCanary s own n (canaryOf s r t)) = { s with team := team, teams := teams }
        ∧ team.ref = s.team.ref ∧ team.steps = s.team.steps := by
    split
    · exact ⟨s.team, s.teams, rfl, rfl, rfl⟩
    · exact bankCanary_keeps ..
  obtain ⟨team, teams, hb, href, hsteps⟩ := hbank
  rw [hb]
  obtain ⟨cores, hp⟩ := placeOn_keeps (placesOf s (canaryFrom s r).wide own) { s with team := team, teams := teams } n
    (canaryOf s r t)
  exact ⟨cores, team, teams, hp, href, hsteps⟩

/-- From the issue of a `wp.set` that is given its slots to its completion. -/
theorem wpSet_places (hs : Idle s) (ht : refTeam s b = .ok t) (h : setStatus s (canaryFrom s r) t slot.toNat = 0) :
    ∃ u v, exec (.wpSet (.s n) slot (.s r) b) s = .next u ∧ exec (.flagClear 0) u = .next v
      ∧ v.g.sregs = (setSreg s.g n 0).sregs ∧ v.g.vregs = s.g.vregs ∧ v.mem = s.mem
      ∧ ∀ k ∈ placesOf s (canaryFrom s r).wide (if (canaryFrom s r).wide then none else t),
          (∃ x, mget? (coreAt u k).canaries slot.toNat = some x ∧ x.word = (canaryFrom s r).word
            ∧ ∀ at_, x.applies at_ = false)
          ∧ ∃ x, mget? (coreAt v k).canaries slot.toNat = some x ∧ x.word = (canaryFrom s r).word ∧ x.hits = 0
            ∧ ∀ at_, x.applies at_ = decide (u.now ≤ at_) := by
  have hc : (canaryOf s r t).placing ≠ none := Option.some_ne_none _
  obtain ⟨⟨hin, hcan⟩, ⟨hteam, hserial, hact, hhalt, hdue, hno⟩, -⟩ := hs
  have hplaced : ∀ k ∈ placesOf s (canaryFrom s r).wide (if (canaryFrom s r).wide then none else t),
      mget? (coreAt (placedBy s r t slot.toNat) k).canaries slot.toNat = some (canaryOf s r t) :=
    fun k hk => canaryAt_placeOn (.inl hk)
  have hown : Placing (coreAt (placedBy s r t slot.toNat) s.g.core).canaries := by
    refine placing_placeOn hc ?_
    split
    · rw [hcan]
      exact fun e he => absurd he List.not_mem_nil
    · obtain ⟨team, teams, hb, -, -⟩ := bankCanary_keeps s t slot.toNat (canaryOf s r t)
      rw [hb]
      show Placing (coreAt s s.g.core).canaries
      rw [hcan]
      exact fun e he => absurd he List.not_mem_nil
  have hx := exec_wpSet_placed (n := n) ht h
  obtain ⟨cores, team, teams, hp, href, hsteps⟩ := placedBy_keeps s r t slot.toNat
  rw [h] at hx
  generalize placedBy s r t slot.toNat = st at *
  subst hp
  have hset : Settled { s with cores := cores, team := team, teams := teams } := ⟨hteam.trans href.symm,
    (congrArg TRef.serial href).trans_ne hserial, hact, hhalt, hdue,
    hsteps.trans hno⟩
  obtain ⟨x, p, hu⟩ := launchLong_arming (i := .wpSet (.s n) slot (.s r) b) (ws := [.sca n (w32 0)]) (d := s.draw)
    (st := { s with cores := cores, team := team, teams := teams }) hin hown
  obtain ⟨G, hsregs, hvregs, hclear⟩ := arming_lands (i := .wpSet (.s n) slot (.s r) b) (ws := [.sca n (w32 0)]) (d := s.draw)
    (st := { s with cores := cores, team := team, teams := teams }) hin hset hown rfl rfl
  refine ⟨_, _, hx, hclear, hsregs, hvregs, rfl, fun k hk => ⟨⟨canaryOf s r t, ?_, rfl, fun at_ => rfl⟩,
    (canaryOf s r t).set s.draw s.now, ?_, ?_, ?_, fun at_ => ?_⟩⟩
  · rw [hu]
    exact hplaced k hk
  · rw [coreAt_setCanaries, mget?_map fun x : Canary => x.set s.draw s.now]
    exact congrArg _ (hplaced k hk)
  · rw [set_canaryOf]
    rfl
  · rw [set_canaryOf]
    rfl
  · rw [hu, set_canaryOf]
    rfl

theorem exec_wpClr_none (ht : refTeam s b = .ok t) (h : reached s t slot.toNat = .ok none) :
    exec (.wpClr (.s n) slot b) s = issue (.wpClr (.s n) slot b) (.ok (.write s [.sca n 0])) s := by
  show execWpClr (.s n) slot b s = _
  unfold execWpClr
  rw [ht]
  dsimp only [Except.map]
  rw [h]
  rfl

theorem exec_wpClr_error {st : Nat} (ht : refTeam s b = .ok t) (h : reached s t slot.toNat = .error st) :
    exec (.wpClr (.s n) slot b) s = issue (.wpClr (.s n) slot b) (.ok (.write s [.sca n (w32 st)])) s := by
  show execWpClr (.s n) slot b s = _
  unfold execWpClr
  rw [ht]
  dsimp only [Except.map]
  rw [h]
  rfl

/-- The state in which a `wp.clr` has disarmed the canary that it reaches. -/
def clearedBy (s : State) (t : Option Team) (x : Canary) (n : Nat) : State :=
  let own := if x.team.isNone then none else t
  bankCanary (disarmOn s (placesOf s x.team.isNone own) x.team n) own n x.disarm

theorem exec_wpClr_some {x : Canary} (ht : refTeam s b = .ok t) (h : reached s t slot.toNat = .ok (some x)) :
    exec (.wpClr (.s n) slot b) s
      = issue (.wpClr (.s n) slot b) (.ok (.write (clearedBy s t x slot.toNat) [.sca n 0])) s := by
  show execWpClr (.s n) slot b s = _
  unfold execWpClr
  rw [ht]
  dsimp only [Except.map]
  rw [h]
  rfl

/-- Clearing leaves an idle group idle: a core without canaries stays so. -/
theorem idle_clearedBy (hs : Idle s) (x : Canary) (n : Nat) : Idle (clearedBy s t x n) ∧ (clearedBy s t x n).g = s.g
    ∧ execMask (clearedBy s t x n) = execMask s := by
  obtain ⟨⟨hin, hcan⟩, hset, hflags⟩ := hs
  unfold clearedBy
  extract_lets own
  have hre := rearmed_disarmOn (placesOf s x.team.isNone own) s x.team n
  generalize disarmOn s (placesOf s x.team.isNone own) x.team n = d at hre
  have hcore : (coreAt d s.g.core).canaries = [] := hre.empty s.g.core hcan
  obtain ⟨cores, rfl⟩ : ∃ cores, d = { s with cores := cores } := ⟨_, hre.eq⟩
  obtain ⟨team, teams, hb, href, hsteps⟩ := bankCanary_keeps { s with cores := cores } own n x.disarm
  rw [hb]
  obtain ⟨hteam, hserial, hact, hhalt, hdue, hno⟩ := hset
  refine ⟨⟨⟨hin, hcore⟩, ⟨hteam.trans href.symm, ?_, hact, hhalt, hdue, hsteps.trans hno⟩, hflags⟩, rfl, rfl⟩
  show team.ref.serial ≠ 0
  rw [href]
  exact hserial

/-- What `wp.rd` answers: the status, or the word and the hits. -/
def readBy (s : State) (t : Option Team) (n : Nat) : Except Nat (Option Canary) → Nat
  | .error st => st * 2 ^ 160
  | .ok none => 0
  | .ok (some c) => c.word.toNat + min (hitsOf s t c n) 0xffffffff * 2 ^ 128

theorem wpRd_lands (hs : Idle s) (ht : refTeam s b = .ok t) : Lands (.wpRd (.s n) slot b) s s
    ((List.range 8).foldl (fun g k => setSreg g (n + k)
      (BitVec.ofNat 32 (readBy s t slot.toNat (reached s t slot.toNat) / 2 ^ (32 * k)))) s.g) := by
  rw [← applyWrites_natWords]
  refine long_done _ [] ?_ hs (.rfl' s) rfl
  show execWpRd (.s n) slot b s = _
  unfold execWpRd
  rw [ht]
  dsimp only [Except.map]
  cases reached s t slot.toNat with
  | error st => rfl
  | ok o => cases o <;> rfl

end canary

/-- Settles O41: `wp.set`, `wp.clr` and `wp.rd`. -/
theorem canarySlots : Obligations.CanarySlots := by
  intro s n r slot b t hs ht c
  refine ⟨?_, ?_, ?_, ?_, ?_⟩
  · rintro st rfl h
    exact long_done [.sca n _] [] (exec_wpSet_refused ht h) hs (.rfl' s) rfl
  · intro h
    exact wpSet_places hs ht h
  · intro h
    exact long_done [.sca n 0] [] (exec_wpClr_none ht h) hs (.rfl' s) rfl
  · intro st h
    refine ⟨long_done [.sca n _] [] (exec_wpClr_error ht h) hs (.rfl' s) rfl, ?_⟩
    have hrd := wpRd_lands (n := n) (slot := slot) hs ht
    rw [h] at hrd
    exact hrd
  · intro x h own st
    have hrd := wpRd_lands (n := n) (slot := slot) hs ht
    rw [h] at hrd
    refine ⟨?_, hrd⟩
    obtain ⟨hidle, hg, hm⟩ := idle_clearedBy (t := t) hs x slot.toNat
    have hland := lands _ s (Effect.write (clearedBy s t x slot.toNat) [.sca n 0])
      ((exec_wpClr_some ht h).trans (issue_long _ _ _ rfl)) hidle hm (fpTrap_none _) rfl rfl
    have hw : addSts (addFps (applyWrites (clearedBy s t x slot.toNat).g [.sca n 0]) 0) 0 = setSreg s.g n 0 := by
      rw [addFps_zero, addSts_zero, hg]
      rfl
    exact hw ▸ hland

end Sys2Proof.Machine
end

section
/-!
PROOFS. O42: the debug instructions (R416, R424 to R430, R437). What an instruction reads moves through the ports, which
changes nothing that the rest of the instruction reads.
-/
namespace Sys2Proof.Machine

/-! ### What reads through the ports change (R147, R353) -/

/-- Only meters, dies, cached lines and blocks have changed, and whether a move has waited for a port. -/
def Metered (s t : State) : Prop := ∃ meters dies lines cache stalled, t =
  { s with vd := { s.vd with meters := meters }, dies := dies, lines := lines, cache := cache, stalled := stalled }

namespace Metered

theorem rfl' (s : State) : Metered s s := ⟨_, _, _, _, _, rfl⟩

theorem trans {s t u : State} : Metered s t → Metered t u → Metered s u := by
  rintro ⟨_, _, _, _, _, rfl⟩ ⟨_, _, _, _, _, rfl⟩
  exact ⟨_, _, _, _, _, rfl⟩

end Metered

theorem metered_meter (s : State) (i n : Nat) : Metered s (meter s i n) := ⟨_, _, _, _, _, rfl⟩

theorem metered_cross (s : State) (n : Nat) : Metered s (cross s n) := by
  unfold cross
  split
  · exact metered_meter ..
  · exact ⟨_, _, _, _, _, rfl⟩

theorem metered_countMeta (s : State) (sl : Sluice) (pa : Nat) : Metered s (countMeta s sl pa) := by
  unfold countMeta
  dsimp only
  split
  · exact .rfl' s
  · exact ⟨_, _, _, _, _, rfl⟩

theorem metered_countFill (s : State) (sl : Sluice) (pa : Nat) (f : Fill) : Metered s (countFill s sl pa f) := by
  unfold countFill
  extract_lets u
  have hu : Metered s u := ((metered_countMeta ..).trans (metered_meter ..)).trans (metered_meter ..)
  split
  · exact hu.trans ⟨_, _, _, _, _, rfl⟩
  · exact hu

theorem metered_cacheBlock (s : State) (sl : Sluice) (pa va : Nat) : Metered s (cacheBlock s sl pa va).1 := by
  unfold cacheBlock
  extract_lets off
  split
  · exact .rfl' s
  · exact (metered_countFill ..).trans ⟨_, _, _, _, _, rfl⟩

theorem metered_countRead (s : State) (seen : List Nat) (l : Loc) (n : Nat) : Metered s (countRead s seen l n).1 := by
  unfold countRead
  split
  · split
    · extract_lets pa f
      split
      · exact .rfl' s
      · split
        · exact metered_cacheBlock ..
        · exact metered_countFill ..
    · dsimp only
      split
      · exact .rfl' s
      · exact metered_meter ..
  · dsimp only
    split
    · exact .rfl' s
    · exact metered_cross ..
  · exact .rfl' s

theorem metered_countReads (s : State) (ls : List (Loc × Nat)) : Metered s (countReads s ls) :=
  List.foldlRecOn ls _ (motive := fun r : State × List Nat => Metered s r.1) (.rfl' s) fun r h e _ =>
    h.trans (metered_countRead r.1 r.2 e.1 e.2)

theorem metered_countRange (s : State) (lo n : Nat) : Metered s (countRange s lo n) := metered_countReads s _

section metered
variable {s u : State} (h : Metered s u)
include h

theorem Metered.uni (k : Nat) (o : Opnd) : uni u k o = uni s k o := by
  obtain ⟨_, _, _, _, _, rfl⟩ := h
  cases o <;> rfl

theorem Metered.uniPair (k : Nat) (o : Opnd) : uniPair u k o = uniPair s k o := by
  obtain ⟨_, _, _, _, _, rfl⟩ := h
  cases o <;> rfl

theorem Metered.refTeam (o : Opnd) : refTeam u o = refTeam s o := by
  have hp := h.uniPair 2 o
  obtain ⟨_, _, _, _, _, rfl⟩ := h
  unfold Machine.refTeam
  rw [hp]
  rfl

theorem Metered.sameStore : SameStore s u := by
  obtain ⟨_, _, _, _, _, rfl⟩ := h
  exact ⟨rfl, rfl, rfl, rfl, rfl, rfl, rfl⟩

theorem Metered.root : u.vd.root = s.vd.root := by
  obtain ⟨_, _, _, _, _, rfl⟩ := h
  rfl

theorem Metered.walk (va : Nat) : walk u u.vd va = walk s s.vd va := by
  rw [h.sameStore.walk, Machine.walk, Machine.walk, h.root]

theorem Metered.readFault (lo n need : Nat) : readFault u lo n need = readFault s lo n need := by
  have hp : pageFault u need = pageFault s need := by
    funext p
    unfold pageFault translate
    rw [h.walk]
  unfold Machine.readFault
  rw [hp]

theorem Metered.unitOf (t : Option Team) (sel : Word) : unitOf u t sel = unitOf s t sel := by
  obtain ⟨_, _, _, _, _, rfl⟩ := h
  rfl

theorem Metered.calm : Calm s u := by
  obtain ⟨_, _, _, _, _, rfl⟩ := h
  exact .of_eq rfl rfl rfl rfl rfl rfl

end metered

/-! ### Halts, runs and steps (R424, R425, R430) -/

section asking
variable {s : State} {b c : Opnd} {sel : Word}

/-- An instruction whose whole effect is `st`. -/
def Makes (i : Instr) (s st : State) : Prop := Quiet st → exec i s = .next (advance i st st.g)

theorem askTeam_unheard {u : State} {t : Team} (h : t.ref = u.team.ref ∨ t.halted = false) (a : DebugAsk) :
    askTeam u (some t) a = .of u := if_pos (h.imp id fun hh => by rw [hh]; rfl)

/-- The state in which something has been asked of a team. -/
def asked (u : State) (t : Team) (a : DebugAsk) : State :=
  nextSteps (t.steps.length + 1) (onTeam u t.ref fun x => { x with steps := x.steps ++ [a] }) t.ref

theorem askTeam_asked {u : State} {t : Team} (h : t.ref ≠ u.team.ref) (hh : t.halted = true) (a : DebugAsk) :
    askTeam u (some t) a = .of (asked u t a) := if_neg (by simp [h, hh])

theorem dbgHalt_none (ht : refTeam s b = .ok none) : Makes (.dbgHalt b) s s := by
  intro hq
  show execDbgHalt b s = _
  rw [execDbgHalt, ht]
  exact short_done hq rfl rfl

theorem dbgHalt_team {t : Team} {st : State} (ht : refTeam s b = .ok (some t))
    (h : (if t.ref = s.team.ref ∨ t.halted ∨ t.halting.isSome ∨ t.mode = .lost then s else startHalt s t.ref 2) = st) :
    Makes (.dbgHalt b) s st := by
  intro hq
  show execDbgHalt b s = _
  rw [execDbgHalt, ht]
  show issue (.dbgHalt b) (.ok (.of (if t.ref = s.team.ref ∨ t.halted ∨ t.halting.isSome ∨ t.mode = .lost then s
    else startHalt s t.ref 2))) s = _
  rw [h]
  exact short_done hq rfl rfl

theorem runIssue_makes {i : Instr} {parked : Bool} {t : Option Team} {st : State} (hx : exec i s = runIssue i b parked s)
    (hl : isLong i = false) (hp : perLane i = false) (ht : refTeam s b = .ok t)
    (h : askTeam (if t.any (·.halted) then releaseAt s .pkg else s) t (.run parked) = .of st) : Makes i s st := by
  intro hq
  rw [hx, runIssue, ht]
  show issue i (.ok (askTeam (if t.any (·.halted) then releaseAt s .pkg else s) t (.run parked))) s = _
  rw [h]
  exact short_done hq hl hp

theorem stepIssue_makes {i : Instr} {lane : Bool} {t : Option Team} {st : State} (hx : exec i s = stepIssue i b c lane s)
    (hl : isLong i = false) (hp : perLane i = false) (ht : refTeam s b = .ok t) (hsel : uni s 3 c = .ok sel)
    (h : askTeam s t (.step lane sel) = .of st) : Makes i s st := by
  intro hq
  rw [hx, stepIssue, ht, hsel]
  show issue i (.ok (askTeam s t (.step lane sel))) s = _
  rw [h]
  exact short_done hq hl hp

end asking

/-- Which debug instructions act on a team at once, and which are asked of it. -/
theorem debugAsks (s : State) (b c : Opnd) (sel : Word) (hsel : uni s 3 c = .ok sel) :
    (refTeam s b = .ok none → Makes (.dbgHalt b) s s ∧ Makes (.dbgRun b) s s ∧ Makes (.dbgRunUnpark b) s s
      ∧ Makes (.dbgStep b c) s s ∧ Makes (.dbgStepLane b c) s s)
    ∧ ∀ t : Team, refTeam s b = .ok (some t) →
      (t.ref = s.team.ref ∨ t.halted = true ∨ t.halting ≠ none ∨ t.mode = .lost → Makes (.dbgHalt b) s s)
      ∧ (t.ref ≠ s.team.ref → t.halted = false → t.halting = none → t.mode ≠ .lost →
        Makes (.dbgHalt b) s (startHalt s t.ref 2))
      ∧ (t.halted = false → Makes (.dbgRun b) s s ∧ Makes (.dbgRunUnpark b) s s)
      ∧ (t.halted = false ∨ t.ref = s.team.ref → Makes (.dbgStep b c) s s ∧ Makes (.dbgStepLane b c) s s)
      ∧ (t.halted = true → t.ref = s.team.ref → Makes (.dbgRun b) s (releaseAt s .pkg)
        ∧ Makes (.dbgRunUnpark b) s (releaseAt s .pkg))
      ∧ (t.halted = true → t.ref ≠ s.team.ref → Makes (.dbgRun b) s (asked (releaseAt s .pkg) t (.run false))
        ∧ Makes (.dbgRunUnpark b) s (asked (releaseAt s .pkg) t (.run true))
        ∧ Makes (.dbgStep b c) s (asked s t (.step false sel)) ∧ Makes (.dbgStepLane b c) s (asked s t (.step true sel))) := by
  have hd : (releaseAt s .pkg).team.ref = s.team.ref := (calm_releaseAt s .pkg).ref
  refine ⟨fun ht => ⟨dbgHalt_none ht, runIssue_makes rfl rfl rfl ht rfl, runIssue_makes rfl rfl rfl ht rfl,
    stepIssue_makes rfl rfl rfl ht hsel rfl, stepIssue_makes rfl rfl rfl ht hsel rfl⟩, fun t ht => ⟨fun h => ?_,
    fun hr hh hn hm => ?_, fun hh => ?_, fun h => ?_, fun hh hr => ?_, fun hh hr => ?_⟩⟩
  · exact dbgHalt_team ht (if_pos (by simpa [Option.isSome_iff_ne_none] using h))
  · exact dbgHalt_team ht (if_neg (by simp [hr, hh, hn, hm]))
  · have hrun (p : Bool) : askTeam (if (some t).any (·.halted) then releaseAt s .pkg else s) (some t) (.run p) = .of s := by
      rw [if_neg (by simp [hh])]
      exact askTeam_unheard (.inr hh) _
    exact ⟨runIssue_makes rfl rfl rfl ht (hrun false), runIssue_makes rfl rfl rfl ht (hrun true)⟩
  · exact ⟨stepIssue_makes rfl rfl rfl ht hsel (askTeam_unheard h.symm _),
      stepIssue_makes rfl rfl rfl ht hsel (askTeam_unheard h.symm _)⟩
  · have hrun (p : Bool) : askTeam (if (some t).any (·.halted) then releaseAt s .pkg else s) (some t) (.run p)
        = .of (releaseAt s .pkg) := by
      rw [if_pos (by simp [hh])]
      exact askTeam_unheard (.inl (hr.trans hd.symm)) _
    exact ⟨runIssue_makes rfl rfl rfl ht (hrun false), runIssue_makes rfl rfl rfl ht (hrun true)⟩
  · have hrun (p : Bool) : askTeam (if (some t).any (·.halted) then releaseAt s .pkg else s) (some t) (.run p)
        = .of (asked (releaseAt s .pkg) t (.run p)) := by
      rw [if_pos (by simp [hh])]
      exact askTeam_asked (by rwa [hd]) hh _
    exact ⟨runIssue_makes rfl rfl rfl ht (hrun false), runIssue_makes rfl rfl rfl ht (hrun true),
      stepIssue_makes rfl rfl rfl ht hsel (askTeam_asked hr hh _), stepIssue_makes rfl rfl rfl ht hsel (askTeam_asked hr hh _)⟩

/-! ### What is asked is made in order (R430) -/

section steps
variable {s : State} {t : Team} {a : DebugAsk} {rest : List DebugAsk} {n : Nat}

theorem nextSteps_cons (ht : teamOf s t.ref = some t) (hs : t.steps = a :: rest) : nextSteps (n + 1) s t.ref
    = if stepRuns s t.ref || t.stop.isSome then s
      else nextSteps n (makeAsk (onTeam s t.ref fun x => { x with steps := rest }) t a) t.ref := by
  rw [nextSteps, ht]
  dsimp only
  rw [hs]

theorem makeAsk_idle (h : t.halted = false ∨ t.ending = true) (a : DebugAsk) : makeAsk s t a = s :=
  if_pos (by rcases h with h | h <;> simp [h])

theorem makeAsk_halted (hh : t.halted = true) (he : t.ending = false) :
    (∀ lane sel, makeAsk s t (.step lane sel) = beginStep s t lane sel)
    ∧ ∀ parked, makeAsk s t (.run parked) = if parked && !unparkFits s t then s else runTeam s t parked :=
  ⟨fun _ _ => if_neg (by simp [hh, he]), fun _ => if_neg (by simp [hh, he])⟩

theorem placeForStep_placed (hm : t.mode ≠ .saved) :
    placeForStep s t = some (onTeam s t.ref fun x => { x with stepSince := some s.now }) := by
  rw [placeForStep, if_neg hm]
  rfl

theorem placeForStep_saved (hm : t.mode = .saved) :
    placeForStep s t = (restoreAll s t).map fun u => onTeam u t.ref fun x => { x with stepSince := some u.now } := by
  rw [placeForStep, if_pos hm]

theorem beginStep_none {lane : Bool} {sel : Word} (h : ∀ g ∈ groupsOf s t.ref, g.ref.gid ≠ sel.toNat % 512) :
    beginStep s t lane sel = s := by
  have hf : (groupsOf s t.ref).find? (fun g => g.ref.gid == sel.toNat % 512) = none :=
    List.find?_eq_none.mpr fun g hg => by simpa using h g hg
  rw [beginStep, hf]

theorem beginStep_some {lane : Bool} {sel : Word} {g : Group}
    (h : (groupsOf s t.ref).find? (fun g => g.ref.gid == sel.toNat % 512) = some g) : beginStep s t lane sel
      = if !stepOk t g lane sel then s else ((placeForStep s t).map fun u => withGroup u g.ref (beginIn lane sel)).getD s := by
  rw [beginStep, h]

end steps

/-- A step of a team begins in a group of it. -/
def begunIn (u : State) (t : Team) (g : Group) (lane : Bool) (sel : Word) : State :=
  withGroup (onTeam u t.ref fun x => { x with stepSince := some u.now }) g.ref (beginIn lane sel)

/-- A step of a halted team (R425, R437). -/
theorem beginStep_made (s : State) (t : Team) (lane : Bool) (sel : Word) :
    ((∀ g ∈ groupsOf s t.ref, g.ref.gid ≠ sel.toNat % 512) → beginStep s t lane sel = s)
    ∧ ∀ g : Group, (groupsOf s t.ref).find? (fun g => g.ref.gid == sel.toNat % 512) = some g →
      (stepOk t g lane sel = false → beginStep s t lane sel = s)
      ∧ (stepOk t g lane sel = true → (t.mode ≠ .saved → beginStep s t lane sel = begunIn s t g lane sel)
        ∧ (t.mode = .saved → (restoreAll s t = none → beginStep s t lane sel = s)
          ∧ ∀ u, restoreAll s t = some u → beginStep s t lane sel = begunIn u t g lane sel)) := by
  refine ⟨beginStep_none, fun g hg => ?_⟩
  rw [beginStep_some hg]
  refine ⟨fun h => if_pos (by rw [h]; rfl), fun h => ?_⟩
  rw [if_neg (by rw [h]; exact Bool.false_ne_true)]
  refine ⟨fun hm => ?_, fun hm => ⟨fun hr => ?_, fun u hr => ?_⟩⟩
  · rw [placeForStep_placed hm]
    rfl
  · rw [placeForStep_saved hm, hr]
    rfl
  · rw [placeForStep_saved hm, hr]
    rfl

/-! ### Units and lists (R426, R427) -/

section units
variable {s : State} {n : Nat} {a b c : Opnd} {buf : Dword} {t : Option Team} {sel : Word}

theorem unitOf_running {x : Team} (h : x.halted = false) : unitOf s (some x) sel = .error 4 := if_pos (by rw [h]; rfl)

theorem calm_storeBuffer (s : State) (lo : Nat) (bs : List Byte) : Calm s (storeBuffer s lo bs) := calm_pushStore ..

section buffer
variable {i : Instr} {lo x : Nat} {bs : List Byte}

theorem bufferEffect_lands (hx : exec i s = issue i (bufferEffect s (.s n) lo bs x) s) (hs : Idle s) (hl : isLong i = true)
    (hf : bufferFault s lo bs.length 2 = none) :
    Lands i s (storeBuffer s lo bs) (setSreg (storeBuffer s lo bs).g n (BitVec.ofNat 32 x)) := by
  rw [bufferEffect, hf] at hx
  exact long_done [.sca n (w32 x)] (writeEvents .g none lo bs) hx hs (calm_storeBuffer ..) hl

theorem bufferEffect_faults {r : Raise} (hx : exec i s = issue i (bufferEffect s (.s n) lo bs x) s)
    (hf : bufferFault s lo bs.length 2 = some r) : Faults i s r := by
  rw [bufferEffect, hf] at hx
  exact issue_faults hx

end buffer

section read
variable (hbuf : uniPair s 1 a = .ok buf) (ht : refTeam s b = .ok t) (hsel : uni s 3 c = .ok sel)
include hbuf ht hsel

theorem exec_dbgRd_error {st : Nat} (h : unitOf s t sel = .error st) :
    exec (.dbgRd (.s n) a b c) s = issue (.dbgRd (.s n) a b c) (.ok (.write s [.sca n (w32 st)])) s := by
  show execDbgRd (.s n) a b c s = _
  rw [execDbgRd, hbuf, ht, hsel]
  dsimp only [bind, Except.bind]
  rw [h]
  rfl

theorem exec_dbgRd_ok {x : Team} {g : Group} (h : unitOf s t sel = .ok (x, g)) : exec (.dbgRd (.s n) a b c) s
    = issue (.dbgRd (.s n) a b c) (bufferEffect s (.s n) buf.toNat (unitRead s x g (selKind sel) (selIndex sel))
        (if selKind sel = 0 then 256 * (vreg g (selIndex sel)).tag.code else 0)) s := by
  show execDbgRd (.s n) a b c s = _
  rw [execDbgRd, hbuf, ht, hsel]
  dsimp only [bind, Except.bind]
  rw [h]

theorem countBuffer_eq : countBuffer s a b c
    = if (unitOf s t sel).toOption.isNone || selKind sel == 5 || (bufferFault s buf.toNat (unitBytes (selKind sel)) 1).isSome then s
      else countRange s buf.toNat (unitBytes (selKind sel)) := by
  rw [countBuffer, hbuf, ht, hsel]

theorem countBuffer_error {st : Nat} (h : unitOf s t sel = .error st) : countBuffer s a b c = s := by
  rw [countBuffer_eq hbuf ht hsel, h]
  rfl

theorem countBuffer_marks (h : selKind sel = 5) : countBuffer s a b c = s := by
  rw [countBuffer_eq hbuf ht hsel]
  exact if_pos (by simp [h])

theorem countBuffer_fault {r : Raise} (h : bufferFault s buf.toNat (unitBytes (selKind sel)) 1 = some r) :
    countBuffer s a b c = s := by
  rw [countBuffer_eq hbuf ht hsel]
  exact if_pos (by simp [h])

theorem countBuffer_reads {x : Team × Group} (h : unitOf s t sel = .ok x) (h5 : selKind sel ≠ 5)
    (hf : bufferFault s buf.toNat (unitBytes (selKind sel)) 1 = none) :
    countBuffer s a b c = countRange s buf.toNat (unitBytes (selKind sel)) := by
  rw [countBuffer_eq hbuf ht hsel, h, hf]
  exact if_neg (by simp [h5, Except.toOption])

theorem exec_dbgWr_error {st : Nat} (h : unitOf s t sel = .error st) :
    exec (.dbgWr (.s n) a b c) s = issue (.dbgWr (.s n) a b c) (.ok (.write s [.sca n (w32 st)])) s := by
  show execDbgWr (.s n) a b c s = _
  rw [execDbgWr, countBuffer_error hbuf ht hsel h]
  dsimp only
  rw [hbuf, ht, hsel]
  dsimp only [bind, Except.bind]
  rw [h]
  rfl

theorem exec_dbgWr_marks {x : Team × Group} (h : unitOf s t sel = .ok x) (h5 : selKind sel = 5) :
    exec (.dbgWr (.s n) a b c) s = issue (.dbgWr (.s n) a b c) (.ok (.write s [.sca n (w32 3)])) s := by
  show execDbgWr (.s n) a b c s = _
  rw [execDbgWr, countBuffer_marks hbuf ht hsel h5]
  dsimp only
  rw [hbuf, ht, hsel]
  dsimp only [bind, Except.bind]
  rw [h]
  dsimp only
  rw [if_pos h5]
  rfl

theorem exec_dbgWr_fault {x : Team × Group} {r : Raise} (h : unitOf s t sel = .ok x) (h5 : selKind sel ≠ 5)
    (hf : bufferFault s buf.toNat (unitBytes (selKind sel)) 1 = some r) :
    exec (.dbgWr (.s n) a b c) s = issue (.dbgWr (.s n) a b c) (.error r) s := by
  show execDbgWr (.s n) a b c s = _
  rw [execDbgWr, countBuffer_fault hbuf ht hsel hf]
  dsimp only
  rw [hbuf, ht, hsel]
  dsimp only [bind, Except.bind]
  rw [h]
  dsimp only
  rw [if_neg h5, hf]

/-- What a `dbg.wr` makes of the bytes that it has read. -/
def wrote (u : State) (n : Nat) (g : Group) (sel : Word) (rd : List (Byte × Bool)) (buf : Nat) : Except Raise Effect :=
  if rd.any (·.2) then .error (poisonRaise .g 0 buf [])
  else .ok (((writeGroup u g.ref (selKind sel) (selIndex sel) (rd.map (·.1))).map fun st => Effect.write st [.sca n (w32 0)]).getD
    (.write u [.sca n (w32 3)]))

theorem exec_dbgWr_reads {x : Team} {g : Group} (h : unitOf s t sel = .ok (x, g)) (h5 : selKind sel ≠ 5)
    (hf : bufferFault s buf.toNat (unitBytes (selKind sel)) 1 = none) {u : State}
    (hu : u = countRange s buf.toNat (unitBytes (selKind sel))) : exec (.dbgWr (.s n) a b c) s
      = issue (.dbgWr (.s n) a b c) (wrote u n g sel (rangeBytes u buf.toNat (unitBytes (selKind sel))) buf.toNat) u := by
  have hm : Metered s u := hu ▸ metered_countRange ..
  have hfu : bufferFault u buf.toNat (unitBytes (selKind sel)) 1 = none := by
    rw [bufferFault, hm.readFault]
    exact hf
  show execDbgWr (.s n) a b c s = _
  rw [execDbgWr, countBuffer_reads hbuf ht hsel h h5 hf, ← hu]
  dsimp only
  rw [hm.uniPair, hbuf, hm.refTeam, ht, hm.uni, hsel]
  dsimp only [bind, Except.bind]
  rw [hm.unitOf, h]
  dsimp only
  rw [if_neg h5, hfu]
  dsimp only [wrote]
  split
  · rfl
  · cases writeGroup u g.ref (selKind sel) (selIndex sel) ((rangeBytes u buf.toNat (unitBytes (selKind sel))).map (·.1)) <;> rfl

end read

section written
variable {u : State} {g : Group} {rd : List (Byte × Bool)} {lo : Nat} {i : Instr}

theorem wrote_poisoned (h : ∃ y ∈ rd, y.2 = true) : wrote u n g sel rd lo = .error (poisonRaise .g 0 lo []) :=
  if_pos (List.any_eq_true.mpr h)

theorem wrote_clean (h : ∀ y ∈ rd, y.2 = false) : wrote u n g sel rd lo
    = .ok (((writeGroup u g.ref (selKind sel) (selIndex sel) (rd.map (·.1))).map fun st => Effect.write st [.sca n (w32 0)]).getD
      (.write u [.sca n (w32 3)])) :=
  if_neg (by rw [List.any_eq_true]; exact fun ⟨y, hy, hp⟩ => by rw [h y hy] at hp; cases hp)

/-- An instruction that writes a scalar register lands in any idle state with the slot's mask. -/
theorem lands_of_idle {st : State} {w : Word} (hx : exec i s = issue i (.ok (.write st [.sca n w])) u) (hl : isLong i = true)
    (hst : Idle st) (hm : execMask st = execMask s) : Lands i s st (setSreg st.g n w) := by
  have h := lands i s (Effect.write st [.sca n w]) (hx.trans (issue_long _ _ _ hl)) hst hm (fpTrap_none _) rfl rfl
  have hw : addSts (addFps (applyWrites st.g [.sca n w]) 0) 0 = setSreg st.g n w := by
    rw [addFps_zero, addSts_zero]
    rfl
  exact hw ▸ h

end written

end units

/-- Settles O42: halts, runs and steps, and the units and lists of halted teams. -/
theorem debugInstructions : Obligations.DebugInstructions := by
  refine ⟨fun s b c sel _ hsel => debugAsks s b c sel hsel, fun s t a rest n ht hs => ?made, fun s t => ?asks,
    fun s n a b c buf t sel hs hbuf ht hsel => ?units⟩
  case made =>
    rw [nextSteps_cons ht hs]
    refine ⟨fun h => if_pos ?_, fun hr hst => if_neg (by rw [hr, hst]; exact Bool.false_ne_true)⟩
    rcases h with h | h
    · rw [h, Bool.true_or]
    · rw [Option.isSome_iff_ne_none.mpr h, Bool.or_true]
  case asks =>
    refine ⟨makeAsk_idle, fun hh he => ?_⟩
    obtain ⟨hstep, hrun⟩ := makeAsk_halted (s := s) hh he
    refine ⟨(hrun false).trans (if_neg Bool.false_ne_true), fun hf => ?_, fun hf => ?_, fun lane sel => ?_⟩
    · rw [hrun, hf]
      exact if_neg Bool.false_ne_true
    · rw [hrun, hf]
      exact if_pos rfl
    · rw [hstep]
      exact beginStep_made s t lane sel
  case units =>
    refine ⟨fun h => by rw [h]; rfl, fun x hx hh => by rw [hx]; exact unitOf_running hh, fun st h => ⟨?_, ?_⟩,
      fun x g h => ⟨?_, ?_, ?_, ?_, ?_⟩, ?list⟩
    · exact long_done [.sca n _] [] (exec_dbgRd_error hbuf ht hsel h) hs (.rfl' s) rfl
    · exact long_done [.sca n _] [] (exec_dbgWr_error hbuf ht hsel h) hs (.rfl' s) rfl
    · exact bufferEffect_lands (exec_dbgRd_ok hbuf ht hsel h) hs rfl
    · exact fun r => bufferEffect_faults (exec_dbgRd_ok hbuf ht hsel h)
    · exact fun h5 => long_done [.sca n 3] [] (exec_dbgWr_marks hbuf ht hsel h h5) hs (.rfl' s) rfl
    · exact fun r h5 hf => issue_faults (exec_dbgWr_fault hbuf ht hsel h h5 hf)
    · intro h5 hf u rd made
      have hm : Metered s u := metered_countRange ..
      have hx := exec_dbgWr_reads (n := n) hbuf ht hsel h h5 hf (rfl : u = _)
      refine ⟨fun hp => ?_, fun hc => ⟨fun hmade => ?_, fun st hmade hst hmask => ?_⟩⟩
      · rw [wrote_poisoned hp] at hx
        exact hx.trans (issue_error _ _ _)
      · rw [wrote_clean hc, show writeGroup u g.ref _ _ _ = none from hmade] at hx
        exact lands_of_idle hx rfl (hm.calm.idle hs) hm.calm.execMask
      · rw [wrote_clean hc, show writeGroup u g.ref _ _ _ = some st from hmade] at hx
        exact lands_of_idle hx rfl hst hmask
    case list =>
      intro es hf
      refine bufferEffect_lands (x := es.length) ?_ hs rfl hf
      show execDbgList (.s n) a c s = _
      rw [execDbgList, hbuf, hsel]
      dsimp only [bind, Except.bind]
      rw [show es.length = ((teamsInOrder s).take sel.toNat).length from List.length_map ..]

end Sys2Proof.Machine
end

section
/-!
PROOFS. O32: `launch` (R282 to R284): one grid for each child, in lane order, and one new handle, which resolves at once where
no lane has a valid child.
-/
namespace Sys2Proof.Machine

/-! ### Places in the parameter pool (R180, R185) -/

theorem poolRoom_length {sizes offs : List Nat} {taken : List (Nat × Nat)} (h : poolRoom taken sizes = some offs) :
    offs.length = sizes.length := by
  induction sizes generalizing taken offs with
  | nil =>
    cases h
    rfl
  | cons n t ih =>
    rw [poolRoom] at h
    obtain ⟨a, -, h⟩ := Option.bind_eq_some_iff.mp h
    obtain ⟨rest, hrest, h⟩ := Option.bind_eq_some_iff.mp h
    cases h
    exact congrArg (· + 1) (ih hrest)

/-- A child with its place is the child that asked for it. -/
theorem launchRoom_kids {s : State} {kids : List (Ask × Code × KernelDecl)} {ks : List (Ask × Code × KernelDecl × Nat)}
    (h : launchRoom s kids = some ks) : ks.map (fun k => (k.1, k.2.1, k.2.2.1)) = kids := by
  rw [launchRoom] at h
  split at h
  · cases h
  · obtain ⟨offs, hoffs, rfl⟩ := Option.map_eq_some_iff.mp h
    have hlen : kids.length ≤ offs.length := by rw [poolRoom_length hoffs, List.length_map]
    rw [List.map_map]
    exact List.map_fst_zip hlen

/-! ### Grids that enter the queue (R183, R184) -/

theorem storeBytesAt_vd (s : State) (pa : Nat) (bs : List Byte) : (storeBytesAt s pa bs).vd = s.vd := by
  obtain ⟨m, p, k, h⟩ := putMains_frame s ((List.range bs.length).map fun i => (pa + i, bs.getD i 0))
  rw [storeBytesAt, putCached, h]

/-- What a grid was asked to be. -/
def Grid.asked (g : Grid) : Nat × Nat × Nat × Nat × Nat := (g.kernel, g.prio, g.nx, g.ny, g.nz)

def Ask.asked (a : Ask) : Nat × Nat × Nat × Nat × Nat := (a.kernel, a.prio, a.nx, a.ny, a.nz)

/-- Grids have entered the queue of the device in focus, as they were asked for and none of them begun. -/
structure Enters (s : State) (h : Dword) (asks : List Ask) (t : State) : Prop where
  calm : Calm s t
  stores : t.g.stores = s.g.stores
  serial : t.vd.gridSerial = s.vd.gridSerial + asks.length
  grids : ∃ gs, t.vd.grids = s.vd.grids ++ gs ∧ gs.map Grid.asked = asks.map Ask.asked
    ∧ ∀ g ∈ gs, g.next = 0 ∧ g.live = 0 ∧ g.origin = h

theorem Calm.queueSettled {s u : State} (hu : Calm s u) (d : Device) : Calm s (settleQueue { u with vd := d }) := by
  have hvd := hu.withVd d
  have hsettle := (aside_settleQueue { u with vd := d }).calm
  exact Calm.trans hvd hsettle

/-- One grid more in the queue, in a state that has changed in nothing else that the issue reads. -/
theorem enters_one {s u : State} {a : Ask} {h : Dword} {d : Device} {g : Grid} (hu : Calm s u) (hst : u.g.stores = s.g.stores)
    (hn : d.gridSerial = s.vd.gridSerial + 1) (hd : d.grids = s.vd.grids ++ [g]) (hasked : g.asked = a.asked)
    (hnew : g.next = 0 ∧ g.live = 0 ∧ g.origin = h) : Enters s h [a] (settleQueue { u with vd := d }) where
  calm := hu.queueSettled d
  stores := hst
  serial := hn
  grids := ⟨[g], hd, by rw [List.map_singleton, List.map_singleton, hasked], fun x hx => List.mem_singleton.mp hx ▸ hnew⟩

theorem queueGrid_enters (s : State) (a : Ask) (c : Code) (k : KernelDecl) (off : Nat) (tag : Option Word) (h : Dword) :
    Enters s h [a] (queueGrid s a c k off tag h).1 := by
  unfold queueGrid
  extract_lets bytes area u n g woke
  have hu : Calm s u := calm_storeBytesAt ..
  have hg : u.g.stores = s.g.stores := congrArg Group.stores (storeBytesAt_g ..)
  have hvd : u.vd = s.vd := storeBytesAt_vd ..
  clear_value u
  refine enters_one (g := g) hu hg ?_ ?_ rfl ⟨rfl, rfl, rfl⟩
  · exact congrArg (·.gridSerial + 1) hvd
  · exact congrArg (·.grids ++ [g]) hvd

theorem Enters.cons {s t u : State} {h : Dword} {a : Ask} {as : List Ask} (hone : Enters s h [a] t) (hrest : Enters t h as u) :
    Enters s h (a :: as) u := by
  obtain ⟨gs, hgs, hasked, hnew⟩ := hone.grids
  obtain ⟨gs', hgs', hasked', hnew'⟩ := hrest.grids
  refine ⟨hone.calm.trans hrest.calm, hrest.stores.trans hone.stores, ?_, gs ++ gs', ?_, ?_, ?_⟩
  · rw [hrest.serial, hone.serial, List.length_singleton, List.length_cons, Nat.add_assoc, Nat.add_comm 1]
  · rw [hgs', hgs, List.append_assoc]
  · rw [List.map_append, hasked, hasked']
    rfl
  · intro g hg
    exact (List.mem_append.mp hg).elim (hnew g) (hnew' g)

theorem queueChildren_enters (s : State) (h : Dword) (ks : List (Ask × Code × KernelDecl × Nat)) :
    Enters s h (ks.map (·.1)) (queueChildren s h ks).1 := by
  induction ks generalizing s with
  | nil => exact ⟨.rfl' s, rfl, rfl, [], (List.append_nil _).symm, rfl, fun g hg => absurd hg List.not_mem_nil⟩
  | cons k ks ih =>
    obtain ⟨a, c, d, off⟩ := k
    have hone := queueGrid_enters s a c d off none h
    rw [queueChildren]
    generalize queueGrid s a c d off none h = q at hone ⊢
    exact hone.cons (ih q.1)

/-! ### The execution and its handle (R164, R284) -/

section launch
variable {s : State} {n : Nat} {a : Opnd} {base : Dword}

theorem metered_countDescs (s : State) (base : Nat) (rs : List LaneRead) : Metered s (countDescs s base rs) :=
  List.foldlRecOn rs _ (motive := Metered s) (.rfl' s) fun u h r _ => h.trans (by
    dsimp only
    split
    · exact .rfl' u
    · exact (metered_countRange ..).trans (metered_countRange ..))

theorem Metered.sameDevice {s u : State} (h : Metered s u) : SameDevice s u := by
  obtain ⟨_, _, _, _, _, rfl⟩ := h
  rfl

/-- An execution without children resolves as its launch is settled, and is the last to do so where it is the newest. -/
theorem settleLaunches_newest (d : Device) (ls : List Launch) (l : Launch) (hl : l.children = []) (hr : l.refused = true) :
    (settleLaunches { d with launches := ls ++ [l] }).statuses.head? = some (l.handle, 0xc0000506) := by
  unfold settleLaunches
  dsimp only
  rw [List.foldl_append, List.foldl_cons, List.foldl_nil, if_pos hl, hr]
  rfl

/-- The handle that a `launch` gets. -/
def launchHandle (s : State) : Dword := handleWord s.vd.number s.g.core 1 (nextSerial s.vd s.g.core 1)

/-- What the lanes have read and the release leave of the state: what the issue and the queue read of it. -/
structure Released (s u : State) : Prop where
  calm : Calm s u
  stores : u.g.stores = []
  device : SameDevice s u

theorem released_countDescs (s : State) (base : Nat) (rs : List LaneRead) : Released s (releaseAt (countDescs s base rs) .pkg) where
  calm := (metered_countDescs s base rs).calm.trans (calm_releaseAt _ _)
  stores := (congrArg Group.stores (aside_releaseAt (countDescs s base rs) .pkg).g :)
  device := (metered_countDescs s base rs).sameDevice.trans (sameDevice_releaseAt _ _)

theorem Released.handle {s u : State} (h : Released s u) : (newHandle u u.g.core 1).2 = launchHandle s := by
  show handleWord u.vd.number u.g.core 1 (nextSerial u.vd u.g.core 1) = _
  rw [h.device.number, h.device.nextSerial, h.calm.core]
  rfl

/-- An execution of `launch` with its children in the queue is held under its handle. -/
def heldAs (r : State × List Nat) (h : Dword) (refused : Bool) : State :=
  { r.1 with vd := settleLaunches { r.1.vd with
      launches := r.1.vd.launches ++ [{ handle := h, children := r.2, refused := refused, removed := false, fault := none }] } }

theorem launchNow_eq {c : State} (h : Released s (releaseAt c .pkg)) (refused : Bool) (ks : List (Ask × Code × KernelDecl × Nat)) :
    launchNow c (.h n) refused ks = .write (heldAs (queueChildren (newHandle (releaseAt c .pkg) (releaseAt c .pkg).g.core 1).1
      (launchHandle s) ks) (launchHandle s) refused) [.hnd n (launchHandle s)] := by
  rw [← h.handle]
  rfl

/-- What the issue and the queue read of a state that holds an execution of some children. -/
structure Holds (s : State) (h : Dword) (kids : List (Ask × Code × KernelDecl)) (t : State) : Prop where
  calm : Calm s t
  stores : t.g.stores = []
  serial : t.vd.gridSerial = s.vd.gridSerial + kids.length
  grids : ∃ gs, t.vd.grids = s.vd.grids ++ gs ∧ gs.map Grid.asked = kids.map (·.1.asked)
    ∧ ∀ g ∈ gs, g.next = 0 ∧ g.live = 0 ∧ g.origin = h

theorem Enters.holds {s u t : State} {h : Dword} {kids : List (Ask × Code × KernelDecl)} (hu : Calm s u) (hst : u.g.stores = [])
    (hser : u.vd.gridSerial = s.vd.gridSerial) (hgr : u.vd.grids = s.vd.grids) (he : Enters u h (kids.map (·.1)) t) :
    Holds s h kids t := by
  obtain ⟨gs, hgs, hasked, hnew⟩ := he.grids
  refine ⟨hu.trans he.calm, he.stores.trans hst, ?_, gs, ?_, ?_, hnew⟩
  · rw [he.serial, hser, List.length_map]
  · rw [hgs, hgr]
  · rw [hasked, List.map_map]
    rfl

theorem Holds.held {h : Dword} {kids : List (Ask × Code × KernelDecl)} {r : State × List Nat} (hr : Holds s h kids r.1)
    (x : Dword) (refused : Bool) : Holds s h kids (heldAs r x refused) := by
  obtain ⟨js, ls, os, ss, hd⟩ := settleLaunches_frame { r.1.vd with
    launches := r.1.vd.launches ++ [{ handle := x, children := r.2, refused := refused, removed := false, fault := none }] }
  obtain ⟨hc, hst, hser, hgr⟩ := hr
  unfold heldAs
  rw [hd]
  exact ⟨hc.withVd _, hst, hser, hgr⟩

theorem Released.children {u : State} (h : Released s u) {kids : List (Ask × Code × KernelDecl)}
    {ks : List (Ask × Code × KernelDecl × Nat)} (hk : ks.map (fun k => (k.1, k.2.1, k.2.2.1)) = kids) (x : Dword) :
    Holds s x kids (queueChildren (newHandle u u.g.core 1).1 x ks).1 := by
  have hent := queueChildren_enters (newHandle u u.g.core 1).1 x ks
  have hasks : kids.map (·.1) = ks.map (·.1) := by
    rw [← hk, List.map_map]
    rfl
  rw [← hasks] at hent
  exact Enters.holds (h.calm.trans (calm_newHandle ..)) h.stores (congrArg Device.gridSerial h.device :)
    (congrArg Device.grids h.device :) hent

end launch

/-! ### `launch` (R284) -/

section launches
variable {s : State} {n : Nat} {a : Opnd} {base : Dword}

theorem launch_inactive (hs : Idle s) (h : execMask s = 0) : Lands (.launch (.h n) a) s s (setHreg s.g n 0) := by
  refine long_done [.hnd n 0] [] ?_ hs (.rfl' s) rfl
  show execLaunch (.h n) a s = _
  rw [execLaunch]
  exact if_pos h

variable (hon : execMask s ≠ 0) (hbase : uniPair s 1 a = .ok base) {rs : List LaneRead}
  (hrs : (lanes32.filter (laneOn (execMask s))).map (readDesc s base.toNat) = rs)
include hon hbase hrs

theorem launch_faults {r : Raise} (hf : launchFault s base.toNat rs = some r) :
    FaultsIn (.launch (.h n) a) s (countDescs s base.toNat rs) r := by
  show execLaunch (.h n) a s = _
  rw [execLaunch]
  dsimp only
  rw [if_neg hon, hbase]
  dsimp only
  rw [hrs, hf]
  exact issue_error _ _ _

variable (hf : launchFault s base.toNat rs = none)
include hf

theorem launch_waits (hr : launchRoom s (childrenOf s rs) = none) :
    exec (.launch (.h n) a) s = .next (setCur s ((cur s).pause .launch)) := by
  show execLaunch (.h n) a s = _
  rw [execLaunch]
  dsimp only
  rw [if_neg hon, hbase]
  dsimp only
  rw [hrs, hf]
  dsimp only
  rw [hr]
  rfl

theorem exec_launch {ks : List (Ask × Code × KernelDecl × Nat)} (hr : launchRoom s (childrenOf s rs) = some ks) :
    exec (.launch (.h n) a) s = issue (.launch (.h n) a) (.ok (launchNow (countDescs s base.toNat rs) (.h n)
      (decide ((childrenOf s rs).length < rs.length)) ks)) s := by
  show execLaunch (.h n) a s = _
  rw [execLaunch]
  dsimp only
  rw [if_neg hon, hbase]
  dsimp only
  rw [hrs, hf]
  dsimp only
  rw [hr]
  rfl

/-- The execution that a `launch` holds, as its issue makes it. -/
theorem launch_lands (hs : Idle s) {kids : List (Ask × Code × KernelDecl)} (hk : kids = childrenOf s rs)
    {ks : List (Ask × Code × KernelDecl × Nat)} (hr : launchRoom s kids = some ks) {st : State}
    (hst : st = (launchNow (countDescs s base.toNat rs) (.h n) (decide (kids.length < rs.length)) ks).st) :
    Lands (.launch (.h n) a) s st (setHreg st.g n (launchHandle s)) ∧ Holds s (launchHandle s) kids st := by
  have hrel := released_countDescs s base.toNat rs
  have heff := launchNow_eq (n := n) hrel (decide (kids.length < rs.length)) ks
  have hhold := (hrel.children (launchRoom_kids hr) (launchHandle s)).held (launchHandle s) (decide (kids.length < rs.length))
  rw [heff] at hst
  rw [← show st = heldAs _ _ _ from hst] at heff hhold
  subst hk
  have hx := exec_launch (n := n) hon hbase hrs hf hr
  rw [heff] at hx
  exact ⟨long_done [.hnd n (launchHandle s)] [] hx hs hhold.calm rfl, hhold⟩

omit hbase hf

/-- Some lane reads a descriptor. -/
theorem laneReads_pos : 0 < rs.length := by
  obtain ⟨l, -, hl, hlane⟩ := lowest_spec hon
  have hmem : l ∈ lanes32.filter (laneOn (execMask s)) := List.mem_filter.mpr ⟨List.mem_range.mpr hl, hlane⟩
  rw [← hrs, List.length_map]
  exact List.length_pos_of_mem hmem

end launches

/-- Where no lane has a valid child, the new execution resolves at once, as refused. -/
theorem launchNow_refused {s c : State} {n : Nat} (h : Released s (releaseAt c .pkg)) :
    (launchNow c (.h n) true []).st.vd.statuses.head? = some (launchHandle s, 0xc0000506) := by
  rw [launchNow_eq h true []]
  exact settleLaunches_newest _ _ { handle := launchHandle s, children := [], refused := true, removed := false, fault := none } rfl rfl

/-- Settles O32: what `launch` queues and writes. -/
theorem launches : Obligations.Launches := by
  intro s n a base hs hbase i rs kids
  refine ⟨launch_inactive hs, fun r hon hf => launch_faults hon hbase rfl hf, fun hon hf hr => launch_waits hon hbase rfl hf hr,
    fun ks hon hf hr => ?_⟩
  intro h st
  obtain ⟨hland, hcalm, hstores, hserial, hgrids⟩ := launch_lands (n := n) (rs := rs) hon hbase rfl hf hs rfl hr (rfl : st = _)
  refine ⟨hland, hstores, hserial, hgrids, fun hk => ?_⟩
  have hnil : ks = [] := List.map_eq_nil_iff.mp ((launchRoom_kids hr).trans hk)
  have hpos : decide (kids.length < rs.length) = true := by
    rw [hk]
    exact decide_eq_true (laneReads_pos (rs := rs) hon rfl)
  have hrefused := launchNow_refused (n := n) (released_countDescs s base.toNat rs)
  rw [← hpos, ← hnil] at hrefused
  exact hrefused

end Sys2Proof.Machine
end
